-- ==== Sys2Proof/Word.lean ====
section
/-! DEFINITION.
The word types of the part (R4, R96) and the small enumerations that name its units.
-/

namespace Sys2Proof

/-- A byte of memory. -/
abbrev Byte := BitVec 8

/-- A scalar register, an address, a system register. -/
abbrev Word := BitVec 64

/-- A vector register or an operand slot's 1,024-bit row. -/
abbrev VecReg := BitVec 1024

/-- A mask register. -/
abbrev MaskReg := BitVec 128

/-- An operand slot or an accumulator: 1 KiB (R240). -/
abbrev Block := BitVec 8192

/-- The two engines of a compute core (R31). -/
inductive EngineSel where
  | matrix
  | copy
  deriving DecidableEq, Repr

/-- What another package asks of this package's home (R16, R177). -/
inductive ForeignOp where
  /-- n bytes read. -/
  | read (n : Nat)
  /-- Bytes written. -/
  | write
  /-- An atomic with SYS = 0: its minor, and whether it is on a dword; the data is the value, then the comparand. -/
  | atomic (minor : Nat) (dword : Bool)
  /-- A write lease asked for by an atomic with SYS = 1. -/
  | lease (dword : Bool)
  /-- The word written back under a lease, at its expiry or in answer to a recall. -/
  | writeBack (dword : Bool)
  deriving DecidableEq, Repr

/-- Where a bit can change by itself (R352). -/
inductive ErrSite where
  /-- Scalar register n of a thread. -/
  | scalar (thread n : Nat)
  /-- Operand-extension register n of a thread. -/
  | ext (thread n : Nat)
  /-- Vector register n of a thread. -/
  | vector (thread n : Nat)
  /-- Mask register n of a thread. -/
  | mask (thread n : Nat)
  /-- Operand slot n of a core. -/
  | slot (core n : Nat)
  /-- Accumulator n of a core. -/
  | acc (core n : Nat)
  /-- Byte n of a unit's tile memory or vent local memory. -/
  | localMem (unit n : Nat)
  /-- A clean or dirty L1 word at a memory key. -/
  | l1 (core key : Nat)
  /-- The memory byte at a key: first tier, second tier or host memory. -/
  | memory (key : Nat)
  /-- The line at its L2 home that holds a memory key. -/
  | l2 (key : Nat)
  /-- The pair-buffer entry of the tentative cell at a memory key. -/
  | pair (key : Nat)
  /-- A reply-cache or queue entry of a unit. -/
  | entry (unit : Nat)
  /-- The instruction store of a core. -/
  | istore (core n : Nat)
  /-- The datapath of a core, seen by the checker of a thread at its next instruction (R139). -/
  | logic (thread : Nat)
  deriving DecidableEq, Repr

end Sys2Proof
end

