-- ==== Sys2Proof/Config.lean ====
section
/-! DEFINITION.
What an implementation fixes and the free values.  Every constant here is opaque: no proof can see what it is, so a
statement about the model holds whatever it is.  Each is named in the log entry its comment gives.
-/

namespace Sys2Proof

/-- The free choice of what happens next, by step number (log 3). -/
opaque Config.pick : Nat → Nat

/-- How many steps at most go by before what has waited longest is done: a bound that exists and that nothing says (R60, log 3). -/
opaque Config.patience : Nat

/-- Free values: 8,192 bits for each value of the free-value counter (R9, R242, log 11). -/
opaque Config.freeBits : Nat → Block

/-- Fused defaults of the power registers (R368, log 10): CCAP, TLIM, TTRIP, TCAPMIN, STATIC, the weights of register n,
and TTRIP of a stack (R364). -/
opaque Config.ccap : BitVec 32
opaque Config.tlim : BitVec 10
opaque Config.ttrip : BitVec 10
opaque Config.tcapmin : BitVec 32
opaque Config.static : BitVec 32
opaque Config.weights : Nat → BitVec 48
opaque Config.stackTrip : BitVec 10

/-- SHA-384 and ECDSA P-384 verification (R133, R376, log 9): public key, digest, signature. -/
opaque Config.sha384 : List Byte → List Byte
opaque Config.ecdsaOk : List Byte → List Byte → List Byte → Bool

/-- Welionu's firmware key, held in fuses, and the firmware that runs when nothing has been staged (R376, log 9). -/
opaque Config.fusedKey : List Byte
opaque Config.romFirmware : List Byte

/-- The certificate chain of the identity key, what that key signs, and the random bytes of an answer, by step number; the exponent of
the time a signature takes, and the longest transfer and message of SPDM (R377, log 9). -/
opaque Config.spdmExponent : Nat
opaque Config.spdmTransfer : Nat
opaque Config.spdmMessage : Nat
opaque Config.certChain : List Byte
opaque Config.identitySign : List Byte → List Byte
opaque Config.nonce : Nat → List Byte

/-- What fixes the number of ways of an L2 set, a power of two, and the set of a line (R180, log 12). -/
opaque Config.ways : Nat
opaque Config.setOf : Nat → Nat

/-- The words that cores load ahead of their instructions in a step, by step number: core and word number (R191, log 12). -/
opaque Config.ahead : Nat → List (Nat × Nat)

/-- The entry that a full L1 gives up, by step number and count (R12, log 12). -/
opaque Config.evict : Nat → Nat → Nat

/-- The expanders behind memory port m, in the order of their enumeration: the bytes each presents, and whether it passes
verification (R18, R321); and the host pages that the host has mapped: first local page number and number of pages (log 13). -/
opaque Config.expanders : Nat → List (Nat × Bool)
opaque Config.hostMapped : List (Nat × Nat)

/-- The lanes with which a link trains, by step number (R321, log 13). -/
opaque Config.lanes : Nat → Nat

/-- Firmware's choices at LOAD, LAUNCH and page services (R131, R311, R313, log 14): the local page number where it looks
first for a free frame, whether a frame goes into a leaf under its interleaved alias, the base of a window, the backing of
a range, and the first page of a range that a view reads; by epoch (or handle) and number.  `reserved`: frames that firmware
keeps for itself. -/
opaque Config.frameHint : Nat → Nat → Nat
opaque Config.baseHint : Nat → Nat → Nat
opaque Config.backingHint : Nat → Nat → Nat
opaque Config.interleaved : Nat → Nat → Bool
opaque Config.viewHint : Nat → Nat → Nat
opaque Config.reserved : List (Nat × Nat)

/-- What LAUNCH learns of another package: its WLEN_US, and its SYNCED (R175, R378, log 18). -/
opaque Config.peerWlen : Nat → Nat
opaque Config.peerSynced : Nat → Bool

/-- Bytes of a launch's dump area (R348, log 14). -/
opaque Config.dumpSize : Nat

/-- Offset of the DOE mailbox (R374, log 9). -/
opaque Config.doeOffset : Word

/-- Outcome of a self-test, by step number (R354, log 15): true is lasting; and whether a spare row or way remains. -/
opaque Config.spareLeft : Nat → Bool
opaque Config.lasting : Nat → Bool

/-- The cores in which the self-test of a cold reset finds a lasting fault, by step number (R351, R379, log 15). -/
opaque Config.bootFaults : Nat → List Nat

/-- The reading of a tile's temperature sensor, by step number and tile, in 0.25 °C (R363, log 21). -/
opaque Config.temperature : Nat → Nat → BitVec 10

/-- The clock, just set by the grandmaster, is within GUARD_NS of it, by step number (R175, log 8). -/
opaque Config.inGuard : Nat → Bool

/-- Nanoseconds of gtime that pass in a step, by step number (log 8). -/
opaque Config.elapsed : Nat → Nat

end Sys2Proof
end

