-- ==== Sys2Proof/Syntax.lean ====
section
/-! DEFINITION.
The instructions and happenings of the part: one constructor for each row of spec/opcode_table.json.

The first 236 constructors are the encoded instructions (R108 to R111).  Their operands are the fields of the encoding,
under the one-letter names the table gives them: d a b n q e name registers, z a size or zeroing bit, t u lane types,
r a rounding mode, k a mask register, i h o u immediates, w a window or a WAIT mask, x an index register, s a scale.
The other 91 are the happenings that have no encoding (spec/95): replies, timers, homes, firmware, host traffic.  Their
operands say which unit or pending item the happening is about, or what came from outside.
-/

namespace Sys2Proof

/-- One constructor per row of the operation table. -/
inductive Instr where
  /-- ADD (R141): Adds two scalar registers at the chosen width, wrapping, and sign-extends the result. -/
  | add (d a b : BitVec 4) (z : BitVec 2)
  /-- SUB (R141): Subtracts sb from sa at the chosen width, wrapping. -/
  | sub (d a b : BitVec 4) (z : BitVec 2)
  /-- MUL (R141): Writes the low n bits of the product. -/
  | mul (d a b : BitVec 4) (z : BitVec 2)
  /-- MULH (R141): Writes the high n bits of the signed 2n-bit product. -/
  | mulh (d a b : BitVec 4) (z : BitVec 2)
  /-- MULHU (R141): Writes the high n bits of the unsigned 2n-bit product. -/
  | mulhu (d a b : BitVec 4) (z : BitVec 2)
  /-- DIV (R141): Signed quotient under the division rules, never trapping. -/
  | div (d a b : BitVec 4) (z : BitVec 2)
  /-- DIVU (R141): Unsigned quotient under the division rules. -/
  | divu (d a b : BitVec 4) (z : BitVec 2)
  /-- REM (R141): Signed remainder under the division rules. -/
  | rem (d a b : BitVec 4) (z : BitVec 2)
  /-- REMU (R141): Unsigned remainder under the division rules. -/
  | remu (d a b : BitVec 4) (z : BitVec 2)
  /-- AND (R141): Bitwise AND of two registers. -/
  | and (d a b : BitVec 4) (z : BitVec 2)
  /-- OR (R141): Bitwise OR of two registers. -/
  | or (d a b : BitVec 4) (z : BitVec 2)
  /-- XOR (R141): Bitwise XOR of two registers. -/
  | xor (d a b : BitVec 4) (z : BitVec 2)
  /-- ANDN (R141): sa AND NOT sb. -/
  | andn (d a b : BitVec 4) (z : BitVec 2)
  /-- SLL (R141): Logical left shift by sb masked to the width. -/
  | sll (d a b : BitVec 4) (z : BitVec 2)
  /-- SRL (R141): Logical right shift by sb masked to the width. -/
  | srl (d a b : BitVec 4) (z : BitVec 2)
  /-- SRA (R141): Arithmetic right shift by sb masked to the width. -/
  | sra (d a b : BitVec 4) (z : BitVec 2)
  /-- ROL (R141): Rotate left by sb masked to the width. -/
  | rol (d a b : BitVec 4) (z : BitVec 2)
  /-- ROR (R141): Rotate right by sb masked to the width. -/
  | ror (d a b : BitVec 4) (z : BitVec 2)
  /-- MIN (R141): Signed minimum. -/
  | min (d a b : BitVec 4) (z : BitVec 2)
  /-- MINU (R141): Unsigned minimum. -/
  | minu (d a b : BitVec 4) (z : BitVec 2)
  /-- MAX (R141): Signed maximum. -/
  | max (d a b : BitVec 4) (z : BitVec 2)
  /-- MAXU (R141): Unsigned maximum. -/
  | maxu (d a b : BitVec 4) (z : BitVec 2)
  /-- ADDS (R141): Signed saturating add. -/
  | adds (d a b : BitVec 4) (z : BitVec 2)
  /-- SUBS (R141): Signed saturating subtract. -/
  | subs (d a b : BitVec 4) (z : BitVec 2)
  /-- ADDSU (R141): Unsigned saturating add. -/
  | addsu (d a b : BitVec 4) (z : BitVec 2)
  /-- SUBSU (R141): Unsigned saturating subtract. -/
  | subsu (d a b : BitVec 4) (z : BitVec 2)
  /-- SLT (R141): Sets 1 if sa is less than sb, signed. -/
  | slt (d a b : BitVec 4) (z : BitVec 2)
  /-- SLTU (R141): Sets 1 if sa is less than sb, unsigned. -/
  | sltu (d a b : BitVec 4) (z : BitVec 2)
  /-- SEQ (R141): Sets 1 if sa equals sb. -/
  | seq (d a b : BitVec 4) (z : BitVec 2)
  /-- CLZ (R141): Counts leading zero bits. -/
  | clz (d a : BitVec 4) (z : BitVec 2)
  /-- CTZ (R141): Counts trailing zero bits. -/
  | ctz (d a : BitVec 4) (z : BitVec 2)
  /-- POPC (R141): Counts one bits. -/
  | popc (d a : BitVec 4) (z : BitVec 2)
  /-- MOV (R142): Copies a 64-bit register with its residue. -/
  | mov (d a : BitVec 4)
  /-- SEXT (R141): Sign-extends the low n bits. -/
  | sext (d a : BitVec 4) (z : BitVec 2)
  /-- ZEXT (R141): Zero-extends the low n bits. -/
  | zext (d a : BitVec 4) (z : BitVec 2)
  /-- BSWAP (R141): Reverses the bytes of the low n bits. -/
  | bswap (d a : BitVec 4) (z : BitVec 2)
  /-- ADDI (R143): Adds a sign-extended 13-bit immediate. -/
  | addi (d a : BitVec 4) (i : BitVec 13)
  /-- ANDI (R143): ANDs with a sign-extended immediate. -/
  | andi (d a : BitVec 4) (i : BitVec 13)
  /-- ORI (R143): ORs with a sign-extended immediate. -/
  | ori (d a : BitVec 4) (i : BitVec 13)
  /-- XORI (R143): XORs with a sign-extended immediate. -/
  | xori (d a : BitVec 4) (i : BitVec 13)
  /-- SLLI (R143): Logical left shift by an immediate count 0 to 63. -/
  | slli (d a : BitVec 4) (h : BitVec 6)
  /-- SRLI (R143): Logical right shift by an immediate count. -/
  | srli (d a : BitVec 4) (h : BitVec 6)
  /-- SRAI (R143): Arithmetic right shift by an immediate count. -/
  | srai (d a : BitVec 4) (h : BitVec 6)
  /-- SLTI (R143): Sets 1 if sa is less than the immediate, signed. -/
  | slti (d a : BitVec 4) (i : BitVec 13)
  /-- SLTIU (R143): Sets 1 if sa is less than the immediate, unsigned. -/
  | sltiu (d a : BitVec 4) (i : BitVec 13)
  /-- MULI (R143): Low 64 bits of sa times the immediate. -/
  | muli (d a : BitVec 4) (i : BitVec 13)
  /-- LI (R143): Loads a sign-extended 13-bit immediate. -/
  | li (d : BitVec 4) (i : BitVec 13)
  /-- LIH (R144): Loads a sign-extended 19-bit immediate shifted left by 13. -/
  | lih (d : BitVec 4) (i : BitVec 19)
  /-- ADPC (R144): Adds a shifted 19-bit immediate to pc. -/
  | adpc (d : BitVec 4) (i : BitVec 19)
  /-- EXTI (R145): Writes a 16-bit immediate into a halfword of an extension register, optionally keeping the rest. -/
  | exti (e : BitVec 3) (p : BitVec 2) (k : BitVec 1) (i : BitVec 16)
  /-- BEQ (R147): Branches if equal. -/
  | beq (a b : BitVec 4) (o : BitVec 14)
  /-- BNE (R147): Branches if not equal. -/
  | bne (a b : BitVec 4) (o : BitVec 14)
  /-- BLT (R147): Branches if less, signed. -/
  | blt (a b : BitVec 4) (o : BitVec 14)
  /-- BGE (R147): Branches if greater or equal, signed. -/
  | bge (a b : BitVec 4) (o : BitVec 14)
  /-- BLTU (R147): Branches if less, unsigned. -/
  | bltu (a b : BitVec 4) (o : BitVec 14)
  /-- BGEU (R147): Branches if greater or equal, unsigned. -/
  | bgeu (a b : BitVec 4) (o : BitVec 14)
  /-- J (R148): Jumps by a signed halfword offset. -/
  | j (o : BitVec 25)
  /-- CALL (R148): Saves pc + 4 in s15 and jumps by an offset. -/
  | call (o : BitVec 25)
  /-- JR (R150): Jumps to the address in sa. -/
  | jr (a : BitVec 4)
  /-- CALLR (R150): Saves pc + 4 in s15 and jumps to sa. -/
  | callr (a : BitVec 4)
  /-- RET (R150): Jumps to s15. -/
  | ret
  /-- TRAP (R154): Raises a TRAP cause with its code in tval and epc after it. -/
  | trap (c : BitVec 7)
  /-- RTE (R155): Returns from trap mode to epc. -/
  | rte
  /-- MFS (R152): Reads a system register into sd. -/
  | mfs (d : BitVec 4) (r : BitVec 7)
  /-- MTS (R152): Writes sa to a system register, including bias-flip requests to biascmd. -/
  | mts (a : BitVec 4) (r : BitVec 7)
  /-- EXT (R146): Copies a scalar register into an extension register. -/
  | ext (n : BitVec 3) (a : BitVec 4)
  /-- MFE (R146): Copies an extension register into a scalar register. -/
  | mfe (d : BitVec 4) (n : BitVec 3)
  /-- CSEL (R146): Selects sa if sd is nonzero, else sb, into sd. -/
  | csel (d a b : BitVec 4)
  /-- LDB (R197): Loads a sign-extended byte with a displacement address. -/
  | ldb (d b : BitVec 4) (w : BitVec 3) (i : BitVec 11)
  /-- LDBU (R197): Loads a zero-extended byte. -/
  | ldbu (d b : BitVec 4) (w : BitVec 3) (i : BitVec 11)
  /-- LDH (R197): Loads a sign-extended halfword. -/
  | ldh (d b : BitVec 4) (w : BitVec 3) (i : BitVec 11)
  /-- LDHU (R197): Loads a zero-extended halfword. -/
  | ldhu (d b : BitVec 4) (w : BitVec 3) (i : BitVec 11)
  /-- LDW (R197): Loads a sign-extended word. -/
  | ldw (d b : BitVec 4) (w : BitVec 3) (i : BitVec 11)
  /-- LDWU (R197): Loads a zero-extended word. -/
  | ldwu (d b : BitVec 4) (w : BitVec 3) (i : BitVec 11)
  /-- LDD (R197): Loads a dword. -/
  | ldd (d b : BitVec 4) (w : BitVec 3) (i : BitVec 11)
  /-- STB (R197): Stores a byte with a displacement address. -/
  | stb (d b : BitVec 4) (w : BitVec 3) (i : BitVec 11)
  /-- STH (R197): Stores a halfword. -/
  | sth (d b : BitVec 4) (w : BitVec 3) (i : BitVec 11)
  /-- STW (R197): Stores a word. -/
  | stw (d b : BitVec 4) (w : BitVec 3) (i : BitVec 11)
  /-- STD (R197): Stores a dword. -/
  | std (d b : BitVec 4) (w : BitVec 3) (i : BitVec 11)
  /-- LDB_X (R197): Indexed sign-extended byte load. -/
  | ldbX (d b x : BitVec 4) (w : BitVec 3) (s : BitVec 2)
  /-- LDBU_X (R197): Indexed zero-extended byte load. -/
  | ldbuX (d b x : BitVec 4) (w : BitVec 3) (s : BitVec 2)
  /-- LDH_X (R197): Indexed sign-extended halfword load. -/
  | ldhX (d b x : BitVec 4) (w : BitVec 3) (s : BitVec 2)
  /-- LDHU_X (R197): Indexed zero-extended halfword load. -/
  | ldhuX (d b x : BitVec 4) (w : BitVec 3) (s : BitVec 2)
  /-- LDW_X (R197): Indexed sign-extended word load. -/
  | ldwX (d b x : BitVec 4) (w : BitVec 3) (s : BitVec 2)
  /-- LDWU_X (R197): Indexed zero-extended word load. -/
  | ldwuX (d b x : BitVec 4) (w : BitVec 3) (s : BitVec 2)
  /-- LDD_X (R197): Indexed dword load. -/
  | lddX (d b x : BitVec 4) (w : BitVec 3) (s : BitVec 2)
  /-- STB_X (R197): Indexed byte store. -/
  | stbX (d b x : BitVec 4) (w : BitVec 3) (s : BitVec 2)
  /-- STH_X (R197): Indexed halfword store. -/
  | sthX (d b x : BitVec 4) (w : BitVec 3) (s : BitVec 2)
  /-- STW_X (R197): Indexed word store. -/
  | stwX (d b x : BitVec 4) (w : BitVec 3) (s : BitVec 2)
  /-- STD_X (R197): Indexed dword store. -/
  | stdX (d b x : BitVec 4) (w : BitVec 3) (s : BitVec 2)
  /-- AADD (R199): Atomic add returning the old value. -/
  | aadd (d b v : BitVec 4) (w : BitVec 3) (z : BitVec 1) (o : BitVec 2) (y : BitVec 1)
  /-- AMIN (R199): Atomic signed minimum. -/
  | amin (d b v : BitVec 4) (w : BitVec 3) (z : BitVec 1) (o : BitVec 2) (y : BitVec 1)
  /-- AMINU (R199): Atomic unsigned minimum. -/
  | aminu (d b v : BitVec 4) (w : BitVec 3) (z : BitVec 1) (o : BitVec 2) (y : BitVec 1)
  /-- AMAX (R199): Atomic signed maximum. -/
  | amax (d b v : BitVec 4) (w : BitVec 3) (z : BitVec 1) (o : BitVec 2) (y : BitVec 1)
  /-- AMAXU (R199): Atomic unsigned maximum. -/
  | amaxu (d b v : BitVec 4) (w : BitVec 3) (z : BitVec 1) (o : BitVec 2) (y : BitVec 1)
  /-- AAND (R199): Atomic AND. -/
  | aand (d b v : BitVec 4) (w : BitVec 3) (z : BitVec 1) (o : BitVec 2) (y : BitVec 1)
  /-- AOR (R199): Atomic OR. -/
  | aor (d b v : BitVec 4) (w : BitVec 3) (z : BitVec 1) (o : BitVec 2) (y : BitVec 1)
  /-- AXOR (R199): Atomic XOR. -/
  | axor (d b v : BitVec 4) (w : BitVec 3) (z : BitVec 1) (o : BitVec 2) (y : BitVec 1)
  /-- ASWAP (R199): Atomic swap. -/
  | aswap (d b v : BitVec 4) (w : BitVec 3) (z : BitVec 1) (o : BitVec 2) (y : BitVec 1)
  /-- ACAS (R199): Atomic compare-and-swap with sd as comparand. -/
  | acas (d b v : BitVec 4) (w : BitVec 3) (z : BitVec 1) (o : BitVec 2) (y : BitVec 1)
  /-- FENCE_ACQ (R201): Acquire fence invalidating unowned L1 words. -/
  | fenceAcq
  /-- FENCE_REL (R201): Release fence writing back owned dirty words and waiting for window boundaries and bias flips. -/
  | fenceRel
  /-- FENCE_ALL (R201): FENCE.REL followed by FENCE.ACQ. -/
  | fenceAll
  /-- MARM (R203): Reads a dword and arms a monitor on it in one step at the home. -/
  | marm (d a : BitVec 4) (n : BitVec 2)
  /-- MWAIT (R205): Waits until a monitor fires or a cycle limit passes and returns the latches. -/
  | mwait (d a : BitVec 4)
  /-- MDIS (R205): Disarms the monitors in its mask and clears their latches. -/
  | mdis (k : BitVec 4)
  /-- BARA (R207): Arrives at a barrier, releasing and possibly ending the phase. -/
  | bara (d a : BitVec 4)
  /-- BARD (R207): Arrives and drops out of a barrier. -/
  | bard (d a : BitVec 4)
  /-- BARW (R207): Waits until the barrier phase differs from sb, then acquires. -/
  | barw (a b : BitVec 4)
  /-- COMMIT (R212): Ends the tentative state of the cell at sa owned by the thread. -/
  | commit (a : BitVec 4)
  /-- FLUSH (R202): Writes dirty data of the covered lines toward memory. -/
  | flush (a b : BitVec 4)
  /-- INVAL (R202): Flushes and drops or invalidates the covered lines. -/
  | inval (a b : BitVec 4)
  /-- SEAL (R214): Seals a sinter region after making it resident and releasing it. -/
  | seal (a b : BitVec 4)
  /-- TSTW (R211): Writes a word tentatively at its home. -/
  | tstw (d b : BitVec 4) (w : BitVec 3) (i : BitVec 11)
  /-- TSTD (R211): Writes a dword tentatively at its home. -/
  | tstd (d b : BitVec 4) (w : BitVec 3) (i : BitVec 11)
  /-- DUPD_ADD (R208): Appends a deferred add entry to the vent home's merge log. -/
  | dupdAdd (b v : BitVec 4) (w : BitVec 3) (z : BitVec 1)
  /-- DUPD_FADD (R208): Appends a deferred floating add entry. -/
  | dupdFadd (b v : BitVec 4) (w : BitVec 3) (z : BitVec 1)
  /-- DUPD_MIN (R208): Appends a deferred signed minimum entry. -/
  | dupdMin (b v : BitVec 4) (w : BitVec 3) (z : BitVec 1)
  /-- DUPD_MAX (R208): Appends a deferred signed maximum entry. -/
  | dupdMax (b v : BitVec 4) (w : BitVec 3) (z : BitVec 1)
  /-- DUPD_AND (R208): Appends a deferred AND entry. -/
  | dupdAnd (b v : BitVec 4) (w : BitVec 3) (z : BitVec 1)
  /-- DUPD_OR (R208): Appends a deferred OR entry. -/
  | dupdOr (b v : BitVec 4) (w : BitVec 3) (z : BitVec 1)
  /-- DUPD_XOR (R208): Appends a deferred XOR entry. -/
  | dupdXor (b v : BitVec 4) (w : BitVec 3) (z : BitVec 1)
  /-- RETRACT (R213): Restores an unobserved tentative cell or branches if it was observed or not tentative. -/
  | retract (a : BitVec 4) (o : BitVec 14)
  /-- VADD (R225): Lane-wise add under the mask. -/
  | vadd (d a b k : BitVec 3) (z : BitVec 1) (t : BitVec 4) (r : BitVec 3)
  /-- VSUB (R225): Lane-wise subtract. -/
  | vsub (d a b k : BitVec 3) (z : BitVec 1) (t : BitVec 4) (r : BitVec 3)
  /-- VMUL (R225): Lane-wise multiply. -/
  | vmul (d a b k : BitVec 3) (z : BitVec 1) (t : BitVec 4) (r : BitVec 3)
  /-- VMULH (R225): Lane-wise high half of the integer product. -/
  | vmulh (d a b k : BitVec 3) (z : BitVec 1) (t : BitVec 4)
  /-- VDIV (R225): Lane-wise divide. -/
  | vdiv (d a b k : BitVec 3) (z : BitVec 1) (t : BitVec 4) (r : BitVec 3)
  /-- VSQRT (R225): Lane-wise square root. -/
  | vsqrt (d a k : BitVec 3) (z : BitVec 1) (t : BitVec 4) (r : BitVec 3)
  /-- VMIN (R225): Lane-wise minimum. -/
  | vmin (d a b k : BitVec 3) (z : BitVec 1) (t : BitVec 4)
  /-- VMAX (R225): Lane-wise maximum. -/
  | vmax (d a b k : BitVec 3) (z : BitVec 1) (t : BitVec 4)
  /-- VABS (R225): Lane-wise absolute value. -/
  | vabs (d a k : BitVec 3) (z : BitVec 1) (t : BitVec 4)
  /-- VNEG (R225): Lane-wise negation. -/
  | vneg (d a k : BitVec 3) (z : BitVec 1) (t : BitVec 4)
  /-- VFMA (R225): Lane-wise fused multiply-add. -/
  | vfma (d a b k : BitVec 3) (z : BitVec 1) (t : BitVec 4) (r : BitVec 3)
  /-- VFMS (R225): Lane-wise fused multiply-subtract from vd. -/
  | vfms (d a b k : BitVec 3) (z : BitVec 1) (t : BitVec 4) (r : BitVec 3)
  /-- VEX2 (R227): Lane-wise correctly rounded 2 to the power a. -/
  | vex2 (d a k : BitVec 3) (z : BitVec 1) (t : BitVec 4) (r : BitVec 3)
  /-- VAND (R225): Lane-wise AND. -/
  | vand (d a b k : BitVec 3) (z : BitVec 1) (t : BitVec 4)
  /-- VOR (R225): Lane-wise OR. -/
  | vor (d a b k : BitVec 3) (z : BitVec 1) (t : BitVec 4)
  /-- VXOR (R225): Lane-wise XOR. -/
  | vxor (d a b k : BitVec 3) (z : BitVec 1) (t : BitVec 4)
  /-- VSLL (R225): Lane-wise logical left shift. -/
  | vsll (d a b k : BitVec 3) (z : BitVec 1) (t : BitVec 4)
  /-- VSRL (R225): Lane-wise logical right shift. -/
  | vsrl (d a b k : BitVec 3) (z : BitVec 1) (t : BitVec 4)
  /-- VSRA (R225): Lane-wise arithmetic right shift. -/
  | vsra (d a b k : BitVec 3) (z : BitVec 1) (t : BitVec 4)
  /-- VADDS (R225): Lane-wise saturating add. -/
  | vadds (d a b k : BitVec 3) (z : BitVec 1) (t : BitVec 4)
  /-- VSUBS (R225): Lane-wise saturating subtract. -/
  | vsubs (d a b k : BitVec 3) (z : BitVec 1) (t : BitVec 4)
  /-- VSEL (R225): Selects each lane from va or vb by the mask. -/
  | vsel (d a b k : BitVec 3) (t : BitVec 4)
  /-- VCEQ (R228): Lane-wise equality compare into a mask. -/
  | vceq (d a b k : BitVec 3) (z : BitVec 1) (t : BitVec 4)
  /-- VCNE (R228): Lane-wise inequality compare. -/
  | vcne (d a b k : BitVec 3) (z : BitVec 1) (t : BitVec 4)
  /-- VCLT (R228): Lane-wise less-than compare. -/
  | vclt (d a b k : BitVec 3) (z : BitVec 1) (t : BitVec 4)
  /-- VCLE (R228): Lane-wise less-or-equal compare. -/
  | vcle (d a b k : BitVec 3) (z : BitVec 1) (t : BitVec 4)
  /-- VCUN (R228): Lane-wise unordered compare. -/
  | vcun (d a b k : BitVec 3) (z : BitVec 1) (t : BitVec 4)
  /-- VCVT (R229): Converts lanes between types. -/
  | vcvt (d a : BitVec 3) (u : BitVec 4) (k : BitVec 3) (t : BitVec 4) (r : BitVec 3) (s z : BitVec 1)
  /-- VRSUM (R230): Tree sum reduction into lane 0. -/
  | vrsum (d a k : BitVec 3) (z : BitVec 1) (t : BitVec 4) (r : BitVec 3)
  /-- VRMIN (R230): Tree minimum reduction. -/
  | vrmin (d a k : BitVec 3) (z : BitVec 1) (t : BitVec 4)
  /-- VRMAX (R230): Tree maximum reduction. -/
  | vrmax (d a k : BitVec 3) (z : BitVec 1) (t : BitVec 4)
  /-- VRAND (R230): Tree AND reduction. -/
  | vrand (d a k : BitVec 3) (z : BitVec 1) (t : BitVec 4)
  /-- VROR (R230): Tree OR reduction. -/
  | vror (d a k : BitVec 3) (z : BitVec 1) (t : BitVec 4)
  /-- VRXOR (R230): Tree XOR reduction. -/
  | vrxor (d a k : BitVec 3) (z : BitVec 1) (t : BitVec 4)
  /-- VPERM (R231): Permutes lanes of va by indices in vb. -/
  | vperm (d a b k : BitVec 3) (z : BitVec 1) (t : BitVec 4)
  /-- VBCAST (R231): Broadcasts an extension register into active lanes. -/
  | vbcast (d e k : BitVec 3) (z : BitVec 1) (t : BitVec 4)
  /-- VSLUP (R231): Slides lanes up by e3[7:0]. -/
  | vslup (d a k : BitVec 3) (z : BitVec 1) (t : BitVec 4)
  /-- VSLDN (R231): Slides lanes down by e3[7:0]. -/
  | vsldn (d a k : BitVec 3) (z : BitVec 1) (t : BitVec 4)
  /-- VINS (R231): Inserts an extension register into lane e3[6:0]. -/
  | vins (d e k : BitVec 3) (t : BitVec 4)
  /-- VEXT (R231): Extracts lane e3[6:0] into an extension register. -/
  | vext (e a : BitVec 3) (t : BitVec 4)
  /-- VMOV (R231): Copies active lanes. -/
  | vmov (d a k : BitVec 3) (z : BitVec 1) (t : BitVec 4)
  /-- VACCR (R232): Reads two accumulator rows into a vector after earlier matrix commands on it complete. -/
  | vaccr (d n k : BitVec 3) (z : BitVec 1) (t : BitVec 4)
  /-- KAND (R233): Mask AND. -/
  | kand (d a b : BitVec 3)
  /-- KOR (R233): Mask OR. -/
  | kor (d a b : BitVec 3)
  /-- KXOR (R233): Mask XOR. -/
  | kxor (d a b : BitVec 3)
  /-- KNOT (R233): Mask NOT. -/
  | knot (d a : BitVec 3)
  /-- KMOV (R233): Mask copy. -/
  | kmov (d a : BitVec 3)
  /-- KPOPC (R233): Counts mask bits into an extension register. -/
  | kpopc (e a : BitVec 3)
  /-- VLD (R235): Contiguous vector load after checking every active lane. -/
  | vld (d k : BitVec 3) (z : BitVec 1) (b : BitVec 4) (w : BitVec 3) (l : BitVec 2)
  /-- VST (R235): Contiguous vector store. -/
  | vst (d k : BitVec 3) (b : BitVec 4) (w : BitVec 3) (l : BitVec 2)
  /-- VLDS (R234): Vector load of stream-pattern elements. -/
  | vlds (d : BitVec 3) (q : BitVec 2) (k : BitVec 3) (z : BitVec 1) (b : BitVec 4) (l : BitVec 2)
  /-- VSTS (R234): Vector store to stream-pattern elements. -/
  | vsts (d : BitVec 3) (q : BitVec 2) (k : BitVec 3) (b : BitVec 4) (l : BitVec 2)
  /-- VGATH (R234): Vector gather by lane indices. -/
  | vgath (d k : BitVec 3) (z : BitVec 1) (b : BitVec 4) (w x : BitVec 3) (l : BitVec 2)
  /-- VSCAT (R234): Vector scatter by lane indices. -/
  | vscat (d k : BitVec 3) (b : BitVec 4) (w x : BitVec 3) (l : BitVec 2)
  /-- MLD (R247): Queues a matrix load of a slot or accumulator image from a stream pattern. -/
  | mld (x : BitVec 5) (c p : BitVec 1) (q : BitVec 2) (z : BitVec 3) (w : BitVec 4) (e : BitVec 2) (v s a r : BitVec 1) (o : BitVec 2)
  /-- MST (R247): Queues a matrix store of a slot or accumulator image to a stream pattern. -/
  | mst (x : BitVec 5) (c p : BitVec 1) (q : BitVec 2) (z : BitVec 3) (w : BitVec 4) (e : BitVec 2) (v s a r : BitVec 1) (o : BitVec 2)
  /-- MMA (R249): Queues C := C + A × B on an accumulator, optionally checksummed. -/
  | mma (x y : BitVec 5) (z : BitVec 3) (w : BitVec 4) (e : BitVec 2) (v s c : BitVec 1)
  /-- MMAS (R255): Queues a 4-of-8 sparse multiply-accumulate after checking the metadata at issue. -/
  | mmas (x y : BitVec 5) (z : BitVec 3) (w : BitVec 4) (e : BitVec 2) (v s c : BitVec 1) (m : BitVec 3)
  /-- MCMP (R254): Queues pruning of a dense tile to 4-of-8 values and masks. -/
  | mcmp (x y : BitVec 5) (w : BitVec 4) (e : BitVec 2) (v s : BitVec 1) (m : BitVec 3)
  /-- MZERO (R253): Queues zeroing of an accumulator with checksum state ZERO. -/
  | mzero (z : BitVec 3) (w : BitVec 4) (e : BitVec 2) (v s : BitVec 1)
  /-- CLAIM (R242): Takes a set of operand slots and accumulators, waiting until all are free. -/
  | claim (a b : BitVec 4)
  /-- CLAIM_T (R242): Tries to take a resource set without waiting and reports success in s0. -/
  | claimT (a b : BitVec 4)
  /-- RELS (R243): Waits for commands naming the set, then frees the set, discarding parked commands. -/
  | rels (a b : BitVec 4)
  /-- MCHK (R257): Checks an accumulator against its predictions and writes its report. -/
  | mchk (d : BitVec 4) (n : BitVec 3)
  /-- MFIX (R259): Corrects the single reported element of an accumulator. -/
  | mfix (n : BitVec 3) (i j : BitVec 4)
  /-- ACCINJ (R260): Inverts one bit of an accumulator element for testing. -/
  | accinj (n : BitVec 3) (a : BitVec 4)
  /-- AMOV_READ (R258): Reads an accumulator element, report or residue into sd. -/
  | amovRead (d : BitVec 4) (n : BitVec 3) (s : BitVec 7)
  /-- AMOV_WRITE (R258): Writes one accumulator element and sets its state to NONE. -/
  | amovWrite (n : BitVec 3) (b : BitVec 4)
  /-- MCVTA (R261): Converts an accumulator into an operand slot. -/
  | mcvta (n : BitVec 3) (t : BitVec 4) (s : BitVec 1) (x : BitVec 5)
  /-- CPY (R271): Queues a copy-engine byte copy from one stream pattern to another. -/
  | cpy (x y : BitVec 2) (w : BitVec 4) (e : BitVec 2) (v s a r : BitVec 1) (o : BitVec 2)
  /-- NRED (R275): Sends a reduction of a range to its pseudo-channel's tree and marks sd pending. -/
  | nred (d a w : BitVec 4) (e : BitVec 2) (v s h r : BitVec 1) (o : BitVec 2)
  /-- SCPY (R216): Queues a copy from a sealed sinter region to on-chip memory. -/
  | scpy (x y : BitVec 2) (w : BitVec 4) (e : BitVec 2) (v s a r : BitVec 1) (o : BitVec 2)
  /-- STRM (R269): Loads a stream pattern record into a stream slot. -/
  | strm (n : BitVec 2) (a : BitVec 4)
  /-- WAITD (R270): Waits until the named dependency counts are zero. -/
  | waitd (k : BitVec 4)
  /-- DFENCE (R277): Orders earlier NRED reads of a channel before later column commands. -/
  | dfence (a : BitVec 4)
  /-- CARM_ARM (R273): Arms a compute region, flushing and uncaching it. -/
  | carmArm (a b : BitVec 4)
  /-- CARM_DISARM (R274): Disarms a compute region after a DFENCE of its channel. -/
  | carmDisarm (a b : BitVec 4)
  /-- PHASE (R296): Requests the phase sequencer to merge the launch's logs and advance its phase counters. -/
  | phase
  /-- SPAWN (R280): Builds an anchored task record and sends it to its home. -/
  | spawn (a : BitVec 4)
  /-- QCFG (R281): Writes a home's queue configuration register. -/
  | qcfg (a b : BitVec 4)
  /-- FORK (R282): Pushes a child onto the deque or runs it inline. -/
  | fork (a b : BitVec 4)
  /-- JOIN (R283): Waits until a join word is zero, then acquires. -/
  | join (a : BitVec 4)
  /-- WFW (R285): Drains the thread's commands, releases claims and waits for work. -/
  | wfw
  /-- DONE (R284): Ends the current work or an inline child with a status. -/
  | done (a : BitVec 4)
  /-- MIGR (R292): Ships the thread's travelling context to the cluster homing an address. -/
  | migr (a : BitVec 4)
  /-- SEND (R294): Sends a 64-byte message to a rank. -/
  | send (a b : BitVec 4)
  /-- RECV (R295): Waits for and removes the oldest mailbox message. -/
  | recv (d a : BitVec 4)
  /-- REPLY (R289): Records and sends a call reply, then waits for work. -/
  | reply (n : BitVec 3)
  /-- RFWD (R289): Forwards the call as a tail call, then waits for work. -/
  | rfwd (a b : BitVec 4) (n : BitVec 3)
  /-- RCALL (R286): Ships a synchronous remote call to the unit nearest an address. -/
  | rcall (t e : BitVec 4) (n : BitVec 3)
  /-- RCALLA (R286): Ships an asynchronous remote call and marks s8 to s11 pending. -/
  | rcalla (t e : BitVec 4) (n : BitVec 3)
  /-- NOP (R159): Takes its slot and does nothing. -/
  | nop
  /-- PAUSE (R159): Marks a spin iteration as an activity event. -/
  | pause
  /-- PREFL (R160): May bring a line into its L2 home slice. -/
  | prefl (a : BitVec 4) (i : BitVec 16)
  /-- HCOMP (R365): Sets the core's hint state to compute-bound. -/
  | hcomp
  /-- HMEM (R365): Sets the core's hint state to memory-bound. -/
  | hmem
  /-- HWAIT (R365): Sets the core's hint state to waiting. -/
  | hwait
  /-- MOV_16 (R110): Compact MOV copying the residue. -/
  | mov16 (d a : BitVec 4)
  /-- ADD_16 (R110): Compact ADD sd, sd, sa. -/
  | add16 (d a : BitVec 4)
  /-- SUB_16 (R110): Compact SUB sd, sd, sa. -/
  | sub16 (d a : BitVec 4)
  /-- AND_16 (R110): Compact AND sd, sd, sa. -/
  | and16 (d a : BitVec 4)
  /-- OR_16 (R110): Compact OR sd, sd, sa. -/
  | or16 (d a : BitVec 4)
  /-- XOR_16 (R110): Compact XOR sd, sd, sa. -/
  | xor16 (d a : BitVec 4)
  /-- ADDI_16 (R110): Compact ADDI with a 6-bit immediate. -/
  | addi16 (d : BitVec 4) (i : BitVec 6)
  /-- LI_16 (R110): Compact LI with a 6-bit immediate. -/
  | li16 (d : BitVec 4) (i : BitVec 6)
  /-- SLLI_16 (R110): Compact SLLI. -/
  | slli16 (d : BitVec 4) (h : BitVec 6)
  /-- SRLI_16 (R110): Compact SRLI. -/
  | srli16 (d : BitVec 4) (h : BitVec 6)
  /-- SRAI_16 (R110): Compact SRAI. -/
  | srai16 (d : BitVec 4) (h : BitVec 6)
  /-- LDD_16 (R110): Compact stack-relative LDD through w1. -/
  | ldd16 (d : BitVec 4) (u : BitVec 6)
  /-- STD_16 (R110): Compact stack-relative STD through w1. -/
  | std16 (d : BitVec 4) (u : BitVec 6)
  /-- J_16 (R110): Compact jump by a 10-bit halfword offset. -/
  | j16 (o : BitVec 10)
  /-- RET_16 (R110): Compact RET. -/
  | ret16
  /-- NOP_16 (R110): Compact NOP. -/
  | nop16
  /-- DEFERRED_TRAP (R11): A cause raised by a parked command, departed NRED or RCALLA outcome is taken at the thread's next instruction boundary. -/
  | deferredTrap (t : Nat)
  /-- CHECKER_REISSUE (R139): An instruction whose checker recomputation mismatched issues again in the thread's next slot, trapping CHECK on a second mismatch. -/
  | checkerReissue (t : Nat)
  /-- MEMORY_REPLY (R31): A reply, grant or acknowledgement for a waiting access arrives and the thread becomes READY the next cycle. -/
  | memoryReply (t : Nat)
  /-- OWNERSHIP_RECALL (R164): A home recalls a word owned in an L1, which writes its dirty bytes back. -/
  | ownershipRecall (core : Nat) (addr : Nat)
  /-- L2_FILL (R180): A miss's data arrives and a victim way is chosen by the residency schedule, or the fill waits for one. -/
  | l2Fill (slice : Nat) (cls : Nat) (addr : Nat)
  /-- MWAIT_TIMEOUT (R205): The MWAIT cycle limit passes and the thread returns with zero. -/
  | mwaitTimeout (t : Nat)
  /-- TENT_FULL_TIMEOUT (R211): A tentative store waiting 4,096 cycles for a pair-buffer entry traps TENT_FULL. -/
  | tentFullTimeout (t : Nat)
  /-- UNSEAL (R174): When a sealed region's copy count reaches zero, a waiting write unseals it and is performed. -/
  | unseal (t : Nat)
  /-- LEASE_EXPIRY (R177): The lease holder's clock reaches E − GUARD_NS and it writes the word back. -/
  | leaseExpiry (n : Nat)
  /-- LEASE_REVOCATION (R178): The home revokes a lease with no write-back by E + GUARD_NS and refuses later write-backs. -/
  | leaseRevocation (n : Nat)
  /-- LEASE_REFUSAL (R178): A LEASE_EXPIRED refusal reaches the holder, making its next release trap. -/
  | leaseRefusal (n : Nat)
  /-- WINDOW_BOUNDARY (R176): The start of window N + 2 lets waiting cross-package releases complete. -/
  | windowBoundary
  /-- TIME_SYNC (R378): IEEE 1588 timing over the fabric disciplines gtime and sets SYNCED. -/
  | timeSync (time : Nat)
  /-- VECTOR_ACCEPT (R222): The tile vector unit accepts up to two presented instructions by rotating pointer. -/
  | vectorAccept (tile : Nat)
  /-- VECTOR_COMPLETE (R223): A long-latency vector instruction completes, freeing the pipe and position and readying its thread. -/
  | vectorComplete (t : Nat)
  /-- ENGINE_COMMAND_BEGIN (R244): A queued engine command whose dependency waits are met begins execution. -/
  | engineCommandBegin (core : Nat) (eng : EngineSel)
  /-- ENGINE_COMMAND_COMPLETE (R104): An engine command completes, lowering its dependency count and performing its release. -/
  | engineCommandComplete (core : Nat) (eng : EngineSel)
  /-- ENGINE_CHECKPOINT_TIMEOUT (R248): An MLD, MST or CPY not done 4,096 cycles after τ stops at a row boundary and records progress. -/
  | engineCheckpointTimeout (core : Nat) (eng : EngineSel)
  /-- NRED_RESULT (R276): The channel tree reduces the range and writes s_d, or fails the armed-region check. -/
  | nredResult (home : Nat) (n : Nat)
  /-- NRED_YIELD_TIMEOUT (R279): BOUND_NS expires for an access waiting on an NRED burst, which is served at once and the burst replays. -/
  | nredYieldTimeout (home : Nat)
  /-- TASK_RECORD (R42): A task record reaches its home, which assigns SEQ and queues it. -/
  | taskRecord (n : Nat)
  /-- HEAD_TAKE (R47): The home dispatches the oldest eligible entry to a near-body server in WFW. -/
  | headTake (home : Nat)
  /-- STEAL_REQUEST (R46): A steal request at a home is granted the youngest eligible entry of the thief's epoch or refused. -/
  | stealRequest (cluster : Nat) (home : Nat) (epoch : Nat)
  /-- DISPENSER_DISPATCH (R57): A dispenser finds work for its head WFW thread and writes its registers. -/
  | dispenserDispatch (cluster : Nat)
  /-- THRESHOLD_UPDATE (R51): Every 1,024 home cycles the adaptive home recomputes T. -/
  | thresholdUpdate (home : Nat)
  /-- CREATION_NOTICE (R65): A creation notice reaches the work's origin cluster. -/
  | creationNotice (n : Nat)
  /-- RETIREMENT_NOTICE (R65): A retirement notice reaches the origin cluster and updates its counts. -/
  | retirementNotice (n : Nat)
  /-- CLUSTER_QUIESCENT (R66): A cluster becomes quiescent and sends its status word to its parent or firmware. -/
  | clusterQuiescent (cluster : Nat) (epoch : Nat)
  /-- CHILD_STATUS_WORD (R67): A child's status word reaches its parent cluster and is combined. -/
  | childStatusWord (n : Nat)
  /-- LAUNCH_COMPLETE (R375): The root word reaches firmware; tentative cells commit, the completion word is written and MSI-X raised. -/
  | launchComplete (epoch : Nat)
  /-- CALL_ARRIVAL (R287): A remote call reaches its unit and is dispatched, answered from the reply cache, or made to wait. -/
  | callArrival (n : Nat)
  /-- REPLY_ARRIVAL (R286): A call reply or status reply reaches the caller, filling s8 to s11 or trapping. -/
  | replyArrival (n : Nat)
  /-- ACK_ARRIVAL (R290): An acknowledgement commits the call's tentative cells and frees the reply-cache entry, passing back along a forward chain. -/
  | ackArrival (n : Nat)
  /-- LONE_ACKNOWLEDGEMENT (R290): 64 caller cycles after the reply acquire an acknowledgement is sent alone. -/
  | loneAcknowledgement (t : Nat)
  /-- CALLER_TIMER (R290): The per-call timer expires and the caller resends or traps REMOTE_TIMEOUT. -/
  | callerTimer (t : Nat)
  /-- RETRACTION_TIMER (R290): 100 µs without acknowledgement retracts the call's cells and frees the entry. -/
  | retractionTimer (unit : Nat) (n : Nat)
  /-- RETRACTION_PASS (R290): A retraction passed back along a forward chain retracts that unit's cells and frees its entry. -/
  | retractionPass (n : Nat)
  /-- MIGRATION_ARRIVAL (R292): A migrated context is placed in the first IDLE thread of the target cluster. -/
  | migrationArrival (n : Nat)
  /-- MESSAGE_ARRIVAL (R294): A message reaches a mailbox, late-message buffer or is refused with a NAK. -/
  | messageArrival (n : Nat)
  /-- BACK_PRESSURE_NAK (R294): A NAK reaches the sender, which resends the message. -/
  | backPressureNak (n : Nat)
  /-- PHASE_REQUEST (R296): The phase sequencer merges every home's log for the launch, advances its counters and completes the PHASE. -/
  | phaseRequest
  /-- PROGRAM_LOAD (R69): The cluster control core stops a core, drains its engines and rewrites its instruction store. -/
  | programLoad (core : Nat) (epoch : Nat)
  /-- WALK_COMPLETE (R308): A page walk completes and fills the translation cache, or walks again if GEN changed. -/
  | walkComplete (cluster : Nat) (n : Nat)
  /-- PAGE_SERVICE_COMPLETE (R313): Firmware makes a faulted page present and releases every access and parked command waiting on it. -/
  | pageServiceComplete (n : Nat)
  /-- PAGE_OUT (R316): Firmware makes a faultable page non-present and copies it to backing store. -/
  | pageOut (epoch : Nat) (page : Nat)
  /-- PGSHOOT (R307): A write to pgshoot advances GEN, removes cached translations and sets BUSY. -/
  | pgshoot (cluster : Nat) (value : Nat)
  /-- SHOOTDOWN_COMPLETE (R307): Accesses translated under removed entries are performed and BUSY clears. -/
  | shootdownComplete (cluster : Nat)
  /-- VIEW_REGISTER_WRITE (R94): A view register write waits for decodes in flight, invalidates the alias range, then takes effect. -/
  | viewRegisterWrite (addr : Nat) (value : Nat)
  /-- WLEN_WRITE (R175): A write to wlen sets WLEN_US, ignoring out-of-range values. -/
  | wlenWrite (iodie : Nat) (value : Nat)
  /-- HOTNESS_DECAY (R319): Every DECAY_US µs a controller halves all its counters. -/
  | hotnessDecay (ctrl : Nat)
  /-- HOST_MEMRD (R322): A host read of an HDM line is served at the home, snoop filter updated. -/
  | hostMemrd (port : Nat) (addr : Nat) (excl : Bool)
  /-- HOST_MEMWR (R322): A host write of an HDM line is performed at the home. -/
  | hostMemwr (port : Nat) (addr : Nat) (data : List Byte)
  /-- HOST_OWNERSHIP_REQUEST (R329): A host request for exclusive ownership of a SYSATOM page line is granted after recalling device ownership. -/
  | hostOwnershipRequest (port : Nat) (addr : Nat)
  /-- BIRSPI (R327): A host's back-invalidate response reaches the home, letting a waiting grant or bias flip proceed. -/
  | birspi (port : Nat) (addr : Nat)
  /-- EXPANDER_BISNP (R321): A back-invalidate snoop from an expander writes back and drops the line at its L2 home. -/
  | expanderBisnp (addr : Nat)
  /-- BIAS_FLIP_TO_HOST (R327): The home flips a page from device to host bias through recall, snoop and table write. -/
  | biasFlipToHost (page : Nat)
  /-- BIAS_FLIP_TO_DEVICE (R328): The home flips a page from host to device bias after snooping both ports. -/
  | biasFlipToDevice (page : Nat)
  /-- LINK_DOWN (R373): A host port loses its link and the owner's ownership is vacated. -/
  | linkDown (port : Nat)
  /-- SPDM_REQUEST (R377): An SPDM message over DOE is answered by the attestation responder. -/
  | spdmRequest (req : List Byte)
  /-- GANG_SWITCH (R339): At τ every thread of the partition stops, in-flight messages are saved, and timers pause. -/
  | gangSwitch (epoch : Nat)
  /-- SAVE_COMPLETE (R339): Every engine has finished or checkpointed and the save of the partition completes. -/
  | saveComplete (epoch : Nat)
  /-- GANG_RESUME (R344): At the resume time firmware restores blocks, re-injects messages and releases every core. -/
  | gangResume (epoch : Nat)
  /-- SUPERVISOR_RECOVERY (R350): The cluster supervisor retracts the killed core's cells, frees claims and requeues or fails its work. -/
  | supervisorRecovery (core : Nat)
  /-- HANG (R347): A bounded wait exceeds HANG_US and the core is killed. -/
  | hang (core : Nat)
  /-- SELF_TEST_RESULT (R354): A targeted self-test ends, classifying the error transient or lasting, sparing or killing. -/
  | selfTestResult (core : Nat) (lasting : Bool)
  /-- CONTROL_INTERVAL (R361): At each 128-cycle interval end the controller forms E, sets TRIP and updates L, CEIL and QUIET. -/
  | controlInterval (cluster : Nat)
  /-- TCAP_UPDATE (R363): Every 16th interval the thermal loop lowers or raises TCAP. -/
  | tcapUpdate (cluster : Nat)
  /-- CLOCK_RAISE (R362): 256 cluster cycles after a raise the tile clock follows the raised voltage. -/
  | clockRaise (tile : Nat)
  /-- STACK_TEMPERATURE (R364): A stack's temperature crosses TTRIP, setting or clearing TRIPPED and removing vent slots 0 to 5. -/
  | stackTemperature (stack : Nat) (temp : Nat)
  /-- REGISTER_WRITE (R6): A write to a device register with no row of its own sets its writable fields. -/
  | registerWrite (addr : Nat) (value : Nat)
  /-- CLAIM_COMMAND (R373): Makes the issuing master the owner if there is none. -/
  | claimCommand (m : Nat)
  /-- HANDOVER (R373): Passes ownership to another master. -/
  | handover (m : Nat)
  /-- RESET (R374): Kills every launch, vacates ownership and returns registers to reset. -/
  | reset (m : Nat)
  /-- LOAD (R374): Reads and checks an image and returns its handle. -/
  | load (m : Nat)
  /-- POLICY (R374): Sets a declared range's page record for an image. -/
  | policy (m : Nat)
  /-- POLICY_ADD_KEY (R374): With range index 0xFFFF, adds a signing key to the key table. -/
  | policyAddKey (m : Nat)
  /-- LAUNCH (R61): Creates a launch from a manifest, builds its page table, queues roots and starts entry threads. -/
  | launch (m : Nat)
  /-- QUERY (R374): Returns the state and status word of a launch epoch. -/
  | query (m : Nat)
  /-- QUERY_DEVICE (R374): With epoch 0xFFFF, returns the launch count and owner. -/
  | queryDevice (m : Nat)
  /-- PREEMPT (R339): Schedules a gang switch-out of a launch at τ. -/
  | preempt (m : Nat)
  /-- PREEMPT_RESUME (R344): Schedules resumption of a switched-out launch. -/
  | preemptResume (m : Nat)
  /-- KILL (R374): Kills named compute cores or the whole launch. -/
  | kill (m : Nat)
  /-- DUMP (R374): Copies a launch's dump area to host memory. -/
  | dump (m : Nat)
  /-- CHECKPOINT (R374): Copies every first-tier page of a switched-out launch to second tier or host. -/
  | checkpoint (m : Nat)
  /-- ATTEST (R377): Returns the DOE mailbox offset for SPDM attestation. -/
  | attest (m : Nat)
  /-- UPDATE (R376): Verifies and stages a firmware image for the next cold reset. -/
  | update (m : Nat)
  /-- COLD_RESET (R379): The boot ROM verifies firmware, trains links, self-tests, clears first tier and puts vent threads in WFW. -/
  | coldReset
  /-- REMOTE_PACKAGE_ACCESS (R16): An access, lease write-back or recall answer from another package arrives over the fabric at this package's home and is performed or refused with PHYS_ABSENT. -/
  | remotePackageAccess (op : ForeignOp) (pkg : Nat) (addr : Nat) (data : List Byte)
  /-- SOFT_ERROR (R352): A bit of a register, array or memory word changes by itself, to be found later by its residue, parity or SEC-DED code. -/
  | softError (site : ErrSite) (bit : Nat) (double : Bool)
  /-- LINK_UP (R321): A host or memory CXL port trains up, possibly at a reduced rate or width, after being down. -/
  | linkUp (port : Nat) (rate : Nat)
  /-- POWER_OFF (R356): The package loses power, and every state except the fuses is lost. -/
  | powerOff
  deriving DecidableEq, Repr

end Sys2Proof
end

