-- ==== Sys2Proof/WellFormed.lean ====
section
/-! DEFINITION.
Which terms of Instr are instructions: the coded fields hold no reserved value (R112), and the read of AMOV does not
have the selector of its write (R258).
A happening is always well formed.
-/

namespace Sys2Proof

/-- A lane type code: 13 to 15 are reserved (R108). -/
def vtOk (t : BitVec 4) : Bool := t.toNat < 13

/-- A rounding mode code: 5 to 7 are reserved (R77). -/
def rmOk (r : BitVec 3) : Bool := r.toNat < 5

/-- A SCOPE code: 3 is reserved (R108). -/
def scopeOk (o : BitVec 2) : Bool := o.toNat < 3

/-- A payload count N: 7 is reserved (R111). -/
def countOk (n : BitVec 3) : Bool := n.toNat < 7

/-- A system register number that R98 lists. -/
def sysRegOk (r : BitVec 7) : Bool := r.toNat < 7 || (8 ≤ r.toNat && r.toNat < 25)

/-- The instruction holds no reserved value in a coded field (R112). -/
def Instr.wf : Instr → Bool
  | .mfs _ r => sysRegOk r
  | .mts _ r => sysRegOk r
  | .vadd _ _ _ _ _ t r => vtOk t && rmOk r
  | .vsub _ _ _ _ _ t r => vtOk t && rmOk r
  | .vmul _ _ _ _ _ t r => vtOk t && rmOk r
  | .vmulh _ _ _ _ _ t => vtOk t
  | .vdiv _ _ _ _ _ t r => vtOk t && rmOk r
  | .vsqrt _ _ _ _ t r => vtOk t && rmOk r
  | .vmin _ _ _ _ _ t => vtOk t
  | .vmax _ _ _ _ _ t => vtOk t
  | .vabs _ _ _ _ t => vtOk t
  | .vneg _ _ _ _ t => vtOk t
  | .vfma _ _ _ _ _ t r => vtOk t && rmOk r
  | .vfms _ _ _ _ _ t r => vtOk t && rmOk r
  | .vex2 _ _ _ _ t r => vtOk t && rmOk r
  | .vand _ _ _ _ _ t => vtOk t
  | .vor _ _ _ _ _ t => vtOk t
  | .vxor _ _ _ _ _ t => vtOk t
  | .vsll _ _ _ _ _ t => vtOk t
  | .vsrl _ _ _ _ _ t => vtOk t
  | .vsra _ _ _ _ _ t => vtOk t
  | .vadds _ _ _ _ _ t => vtOk t
  | .vsubs _ _ _ _ _ t => vtOk t
  | .vsel _ _ _ _ t => vtOk t
  | .vceq _ _ _ _ _ t => vtOk t
  | .vcne _ _ _ _ _ t => vtOk t
  | .vclt _ _ _ _ _ t => vtOk t
  | .vcle _ _ _ _ _ t => vtOk t
  | .vcun _ _ _ _ _ t => vtOk t
  | .vcvt _ _ u _ t r _ _ => vtOk t && rmOk r && vtOk u
  | .vrsum _ _ _ _ t r => vtOk t && rmOk r
  | .vrmin _ _ _ _ t => vtOk t
  | .vrmax _ _ _ _ t => vtOk t
  | .vrand _ _ _ _ t => vtOk t
  | .vror _ _ _ _ t => vtOk t
  | .vrxor _ _ _ _ t => vtOk t
  | .vperm _ _ _ _ _ t => vtOk t
  | .vbcast _ _ _ _ t => vtOk t
  | .vslup _ _ _ _ t => vtOk t
  | .vsldn _ _ _ _ t => vtOk t
  | .vins _ _ _ t => vtOk t
  | .vext _ _ t => vtOk t
  | .vmov _ _ _ _ t => vtOk t
  | .vaccr _ _ _ _ t => vtOk t
  | .mld _ _ _ _ _ _ _ _ _ _ _ o => scopeOk o
  | .mst _ _ _ _ _ _ _ _ _ _ _ o => scopeOk o
  | .cpy _ _ _ _ _ _ _ _ o => scopeOk o
  | .nred _ _ _ _ _ _ _ _ o => scopeOk o
  | .scpy _ _ _ _ _ _ _ _ o => scopeOk o
  | .reply n => countOk n
  | .rfwd _ _ n => countOk n
  | .rcall _ _ n => countOk n
  | .rcalla _ _ n => countOk n
  | .amovRead _ _ s => s != 1
  | .add _ _ _ _ => true
  | .sub _ _ _ _ => true
  | .mul _ _ _ _ => true
  | .mulh _ _ _ _ => true
  | .mulhu _ _ _ _ => true
  | .div _ _ _ _ => true
  | .divu _ _ _ _ => true
  | .rem _ _ _ _ => true
  | .remu _ _ _ _ => true
  | .and _ _ _ _ => true
  | .or _ _ _ _ => true
  | .xor _ _ _ _ => true
  | .andn _ _ _ _ => true
  | .sll _ _ _ _ => true
  | .srl _ _ _ _ => true
  | .sra _ _ _ _ => true
  | .rol _ _ _ _ => true
  | .ror _ _ _ _ => true
  | .min _ _ _ _ => true
  | .minu _ _ _ _ => true
  | .max _ _ _ _ => true
  | .maxu _ _ _ _ => true
  | .adds _ _ _ _ => true
  | .subs _ _ _ _ => true
  | .addsu _ _ _ _ => true
  | .subsu _ _ _ _ => true
  | .slt _ _ _ _ => true
  | .sltu _ _ _ _ => true
  | .seq _ _ _ _ => true
  | .clz _ _ _ => true
  | .ctz _ _ _ => true
  | .popc _ _ _ => true
  | .mov _ _ => true
  | .sext _ _ _ => true
  | .zext _ _ _ => true
  | .bswap _ _ _ => true
  | .addi _ _ _ => true
  | .andi _ _ _ => true
  | .ori _ _ _ => true
  | .xori _ _ _ => true
  | .slli _ _ _ => true
  | .srli _ _ _ => true
  | .srai _ _ _ => true
  | .slti _ _ _ => true
  | .sltiu _ _ _ => true
  | .muli _ _ _ => true
  | .li _ _ => true
  | .lih _ _ => true
  | .adpc _ _ => true
  | .exti _ _ _ _ => true
  | .beq _ _ _ => true
  | .bne _ _ _ => true
  | .blt _ _ _ => true
  | .bge _ _ _ => true
  | .bltu _ _ _ => true
  | .bgeu _ _ _ => true
  | .j _ => true
  | .call _ => true
  | .jr _ => true
  | .callr _ => true
  | .ret => true
  | .trap _ => true
  | .rte => true
  | .ext _ _ => true
  | .mfe _ _ => true
  | .csel _ _ _ => true
  | .ldb _ _ _ _ => true
  | .ldbu _ _ _ _ => true
  | .ldh _ _ _ _ => true
  | .ldhu _ _ _ _ => true
  | .ldw _ _ _ _ => true
  | .ldwu _ _ _ _ => true
  | .ldd _ _ _ _ => true
  | .stb _ _ _ _ => true
  | .sth _ _ _ _ => true
  | .stw _ _ _ _ => true
  | .std _ _ _ _ => true
  | .ldbX _ _ _ _ _ => true
  | .ldbuX _ _ _ _ _ => true
  | .ldhX _ _ _ _ _ => true
  | .ldhuX _ _ _ _ _ => true
  | .ldwX _ _ _ _ _ => true
  | .ldwuX _ _ _ _ _ => true
  | .lddX _ _ _ _ _ => true
  | .stbX _ _ _ _ _ => true
  | .sthX _ _ _ _ _ => true
  | .stwX _ _ _ _ _ => true
  | .stdX _ _ _ _ _ => true
  | .aadd _ _ _ _ _ _ _ => true
  | .amin _ _ _ _ _ _ _ => true
  | .aminu _ _ _ _ _ _ _ => true
  | .amax _ _ _ _ _ _ _ => true
  | .amaxu _ _ _ _ _ _ _ => true
  | .aand _ _ _ _ _ _ _ => true
  | .aor _ _ _ _ _ _ _ => true
  | .axor _ _ _ _ _ _ _ => true
  | .aswap _ _ _ _ _ _ _ => true
  | .acas _ _ _ _ _ _ _ => true
  | .fenceAcq => true
  | .fenceRel => true
  | .fenceAll => true
  | .marm _ _ _ => true
  | .mwait _ _ => true
  | .mdis _ => true
  | .bara _ _ => true
  | .bard _ _ => true
  | .barw _ _ => true
  | .commit _ => true
  | .flush _ _ => true
  | .inval _ _ => true
  | .seal _ _ => true
  | .tstw _ _ _ _ => true
  | .tstd _ _ _ _ => true
  | .dupdAdd _ _ _ _ => true
  | .dupdFadd _ _ _ _ => true
  | .dupdMin _ _ _ _ => true
  | .dupdMax _ _ _ _ => true
  | .dupdAnd _ _ _ _ => true
  | .dupdOr _ _ _ _ => true
  | .dupdXor _ _ _ _ => true
  | .retract _ _ => true
  | .kand _ _ _ => true
  | .kor _ _ _ => true
  | .kxor _ _ _ => true
  | .knot _ _ => true
  | .kmov _ _ => true
  | .kpopc _ _ => true
  | .vld _ _ _ _ _ _ => true
  | .vst _ _ _ _ _ => true
  | .vlds _ _ _ _ _ _ => true
  | .vsts _ _ _ _ _ => true
  | .vgath _ _ _ _ _ _ _ => true
  | .vscat _ _ _ _ _ _ => true
  | .mma _ _ _ _ _ _ _ _ => true
  | .mmas _ _ _ _ _ _ _ _ _ => true
  | .mcmp _ _ _ _ _ _ _ => true
  | .mzero _ _ _ _ _ => true
  | .claim _ _ => true
  | .claimT _ _ => true
  | .rels _ _ => true
  | .mchk _ _ => true
  | .mfix _ _ _ => true
  | .accinj _ _ => true
  | .amovWrite _ _ => true
  | .mcvta _ _ _ _ => true
  | .strm _ _ => true
  | .waitd _ => true
  | .dfence _ => true
  | .carmArm _ _ => true
  | .carmDisarm _ _ => true
  | .phase => true
  | .spawn _ => true
  | .qcfg _ _ => true
  | .fork _ _ => true
  | .join _ => true
  | .wfw => true
  | .done _ => true
  | .migr _ => true
  | .send _ _ => true
  | .recv _ _ => true
  | .nop => true
  | .pause => true
  | .prefl _ _ => true
  | .hcomp => true
  | .hmem => true
  | .hwait => true
  | .mov16 _ _ => true
  | .add16 _ _ => true
  | .sub16 _ _ => true
  | .and16 _ _ => true
  | .or16 _ _ => true
  | .xor16 _ _ => true
  | .addi16 _ _ => true
  | .li16 _ _ => true
  | .slli16 _ _ => true
  | .srli16 _ _ => true
  | .srai16 _ _ => true
  | .ldd16 _ _ => true
  | .std16 _ _ => true
  | .j16 _ => true
  | .ret16 => true
  | .nop16 => true
  | .deferredTrap _ => true
  | .checkerReissue _ => true
  | .memoryReply _ => true
  | .ownershipRecall _ _ => true
  | .l2Fill _ _ _ => true
  | .mwaitTimeout _ => true
  | .tentFullTimeout _ => true
  | .unseal _ => true
  | .leaseExpiry _ => true
  | .leaseRevocation _ => true
  | .leaseRefusal _ => true
  | .windowBoundary => true
  | .timeSync _ => true
  | .vectorAccept _ => true
  | .vectorComplete _ => true
  | .engineCommandBegin _ _ => true
  | .engineCommandComplete _ _ => true
  | .engineCheckpointTimeout _ _ => true
  | .nredResult _ _ => true
  | .nredYieldTimeout _ => true
  | .taskRecord _ => true
  | .headTake _ => true
  | .stealRequest _ _ _ => true
  | .dispenserDispatch _ => true
  | .thresholdUpdate _ => true
  | .creationNotice _ => true
  | .retirementNotice _ => true
  | .clusterQuiescent _ _ => true
  | .childStatusWord _ => true
  | .launchComplete _ => true
  | .callArrival _ => true
  | .replyArrival _ => true
  | .ackArrival _ => true
  | .loneAcknowledgement _ => true
  | .callerTimer _ => true
  | .retractionTimer _ _ => true
  | .retractionPass _ => true
  | .migrationArrival _ => true
  | .messageArrival _ => true
  | .backPressureNak _ => true
  | .phaseRequest => true
  | .programLoad _ _ => true
  | .walkComplete _ _ => true
  | .pageServiceComplete _ => true
  | .pageOut _ _ => true
  | .pgshoot _ _ => true
  | .shootdownComplete _ => true
  | .viewRegisterWrite _ _ => true
  | .wlenWrite _ _ => true
  | .hotnessDecay _ => true
  | .hostMemrd _ _ _ => true
  | .hostMemwr _ _ _ => true
  | .hostOwnershipRequest _ _ => true
  | .birspi _ _ => true
  | .expanderBisnp _ => true
  | .biasFlipToHost _ => true
  | .biasFlipToDevice _ => true
  | .linkDown _ => true
  | .spdmRequest _ => true
  | .gangSwitch _ => true
  | .saveComplete _ => true
  | .gangResume _ => true
  | .supervisorRecovery _ => true
  | .hang _ => true
  | .selfTestResult _ _ => true
  | .controlInterval _ => true
  | .tcapUpdate _ => true
  | .clockRaise _ => true
  | .stackTemperature _ _ => true
  | .registerWrite _ _ => true
  | .claimCommand _ => true
  | .handover _ => true
  | .reset _ => true
  | .load _ => true
  | .policy _ => true
  | .policyAddKey _ => true
  | .launch _ => true
  | .query _ => true
  | .queryDevice _ => true
  | .preempt _ => true
  | .preemptResume _ => true
  | .kill _ => true
  | .dump _ => true
  | .checkpoint _ => true
  | .attest _ => true
  | .update _ => true
  | .coldReset => true
  | .remotePackageAccess _ _ _ _ => true
  | .softError _ _ _ => true
  | .linkUp _ _ => true
  | .powerOff => true

end Sys2Proof
end

