-- ==== Sys2Proof/Decode.lean ====
section
/-! DEFINITION.
The decoder: total on any bytes, refusing by name what R112 calls illegal, and after it the encoder.
Words are natural numbers while fields are cut out of them; every field leaves here as a bit vector of its own width.
-/

namespace Sys2Proof

/-- Why bytes are no instruction.  Each of the first three traps with ILLEGAL (R112). -/
inductive DecodeError where
  /-- A MAJOR, MINOR, COND or OP16 value that R111 or R110 does not list. -/
  | unassigned
  /-- A reserved or unused field that is not zero. -/
  | reservedField
  /-- A reserved value in a coded field. -/
  | reservedValue
  /-- Fewer bytes than the instruction has. -/
  | truncated
  deriving DecidableEq, Repr

/-- The n bits of w from bit lo up, as a number. -/
def num (w lo n : Nat) : Nat := w / 2 ^ lo % 2 ^ n

/-- The n bits of w from bit lo up, as a bit vector. -/
def fld (w lo n : Nat) : BitVec n := BitVec.ofNat n (w / 2 ^ lo)

/-- Major 0x00, format R (R108, R111). -/
def decAlu (w : Nat) : Except DecodeError Instr :=
  match num w 7 6 with
  | 0 => if num w 2 5 = 0 then .ok (.add (fld w 21 4) (fld w 17 4) (fld w 13 4) (fld w 0 2)) else .error .reservedField
  | 1 => if num w 2 5 = 0 then .ok (.sub (fld w 21 4) (fld w 17 4) (fld w 13 4) (fld w 0 2)) else .error .reservedField
  | 2 => if num w 2 5 = 0 then .ok (.mul (fld w 21 4) (fld w 17 4) (fld w 13 4) (fld w 0 2)) else .error .reservedField
  | 3 => if num w 2 5 = 0 then .ok (.mulh (fld w 21 4) (fld w 17 4) (fld w 13 4) (fld w 0 2)) else .error .reservedField
  | 4 => if num w 2 5 = 0 then .ok (.mulhu (fld w 21 4) (fld w 17 4) (fld w 13 4) (fld w 0 2)) else .error .reservedField
  | 5 => if num w 2 5 = 0 then .ok (.div (fld w 21 4) (fld w 17 4) (fld w 13 4) (fld w 0 2)) else .error .reservedField
  | 6 => if num w 2 5 = 0 then .ok (.divu (fld w 21 4) (fld w 17 4) (fld w 13 4) (fld w 0 2)) else .error .reservedField
  | 7 => if num w 2 5 = 0 then .ok (.rem (fld w 21 4) (fld w 17 4) (fld w 13 4) (fld w 0 2)) else .error .reservedField
  | 8 => if num w 2 5 = 0 then .ok (.remu (fld w 21 4) (fld w 17 4) (fld w 13 4) (fld w 0 2)) else .error .reservedField
  | 9 => if num w 2 5 = 0 then .ok (.and (fld w 21 4) (fld w 17 4) (fld w 13 4) (fld w 0 2)) else .error .reservedField
  | 10 => if num w 2 5 = 0 then .ok (.or (fld w 21 4) (fld w 17 4) (fld w 13 4) (fld w 0 2)) else .error .reservedField
  | 11 => if num w 2 5 = 0 then .ok (.xor (fld w 21 4) (fld w 17 4) (fld w 13 4) (fld w 0 2)) else .error .reservedField
  | 12 => if num w 2 5 = 0 then .ok (.andn (fld w 21 4) (fld w 17 4) (fld w 13 4) (fld w 0 2)) else .error .reservedField
  | 13 => if num w 2 5 = 0 then .ok (.sll (fld w 21 4) (fld w 17 4) (fld w 13 4) (fld w 0 2)) else .error .reservedField
  | 14 => if num w 2 5 = 0 then .ok (.srl (fld w 21 4) (fld w 17 4) (fld w 13 4) (fld w 0 2)) else .error .reservedField
  | 15 => if num w 2 5 = 0 then .ok (.sra (fld w 21 4) (fld w 17 4) (fld w 13 4) (fld w 0 2)) else .error .reservedField
  | 16 => if num w 2 5 = 0 then .ok (.rol (fld w 21 4) (fld w 17 4) (fld w 13 4) (fld w 0 2)) else .error .reservedField
  | 17 => if num w 2 5 = 0 then .ok (.ror (fld w 21 4) (fld w 17 4) (fld w 13 4) (fld w 0 2)) else .error .reservedField
  | 18 => if num w 2 5 = 0 then .ok (.min (fld w 21 4) (fld w 17 4) (fld w 13 4) (fld w 0 2)) else .error .reservedField
  | 19 => if num w 2 5 = 0 then .ok (.minu (fld w 21 4) (fld w 17 4) (fld w 13 4) (fld w 0 2)) else .error .reservedField
  | 20 => if num w 2 5 = 0 then .ok (.max (fld w 21 4) (fld w 17 4) (fld w 13 4) (fld w 0 2)) else .error .reservedField
  | 21 => if num w 2 5 = 0 then .ok (.maxu (fld w 21 4) (fld w 17 4) (fld w 13 4) (fld w 0 2)) else .error .reservedField
  | 22 => if num w 2 5 = 0 then .ok (.adds (fld w 21 4) (fld w 17 4) (fld w 13 4) (fld w 0 2)) else .error .reservedField
  | 23 => if num w 2 5 = 0 then .ok (.subs (fld w 21 4) (fld w 17 4) (fld w 13 4) (fld w 0 2)) else .error .reservedField
  | 24 => if num w 2 5 = 0 then .ok (.addsu (fld w 21 4) (fld w 17 4) (fld w 13 4) (fld w 0 2)) else .error .reservedField
  | 25 => if num w 2 5 = 0 then .ok (.subsu (fld w 21 4) (fld w 17 4) (fld w 13 4) (fld w 0 2)) else .error .reservedField
  | 26 => if num w 2 5 = 0 then .ok (.slt (fld w 21 4) (fld w 17 4) (fld w 13 4) (fld w 0 2)) else .error .reservedField
  | 27 => if num w 2 5 = 0 then .ok (.sltu (fld w 21 4) (fld w 17 4) (fld w 13 4) (fld w 0 2)) else .error .reservedField
  | 28 => if num w 2 5 = 0 then .ok (.seq (fld w 21 4) (fld w 17 4) (fld w 13 4) (fld w 0 2)) else .error .reservedField
  | 29 => if num w 2 5 = 0 ∧ num w 13 4 = 0 then .ok (.clz (fld w 21 4) (fld w 17 4) (fld w 0 2)) else .error .reservedField
  | 30 => if num w 2 5 = 0 ∧ num w 13 4 = 0 then .ok (.ctz (fld w 21 4) (fld w 17 4) (fld w 0 2)) else .error .reservedField
  | 31 => if num w 2 5 = 0 ∧ num w 13 4 = 0 then .ok (.popc (fld w 21 4) (fld w 17 4) (fld w 0 2)) else .error .reservedField
  | 32 => if num w 0 7 = 3 ∧ num w 13 4 = 0 then .ok (.mov (fld w 21 4) (fld w 17 4)) else .error .reservedField
  | 33 => if num w 2 5 = 0 ∧ num w 13 4 = 0 then .ok (.sext (fld w 21 4) (fld w 17 4) (fld w 0 2)) else .error .reservedField
  | 34 => if num w 2 5 = 0 ∧ num w 13 4 = 0 then .ok (.zext (fld w 21 4) (fld w 17 4) (fld w 0 2)) else .error .reservedField
  | 35 => if num w 2 5 = 0 ∧ num w 13 4 = 0 then .ok (.bswap (fld w 21 4) (fld w 17 4) (fld w 0 2)) else .error .reservedField
  | _ => .error .unassigned

/-- Major 0x01, format I (R108, R111). -/
def decImm (w : Nat) : Except DecodeError Instr :=
  match num w 13 4 with
  | 0 => .ok (.addi (fld w 21 4) (fld w 17 4) (fld w 0 13))
  | 1 => .ok (.andi (fld w 21 4) (fld w 17 4) (fld w 0 13))
  | 2 => .ok (.ori (fld w 21 4) (fld w 17 4) (fld w 0 13))
  | 3 => .ok (.xori (fld w 21 4) (fld w 17 4) (fld w 0 13))
  | 4 => if num w 6 7 = 0 then .ok (.slli (fld w 21 4) (fld w 17 4) (fld w 0 6)) else .error .reservedField
  | 5 => if num w 6 7 = 0 then .ok (.srli (fld w 21 4) (fld w 17 4) (fld w 0 6)) else .error .reservedField
  | 6 => if num w 6 7 = 0 then .ok (.srai (fld w 21 4) (fld w 17 4) (fld w 0 6)) else .error .reservedField
  | 7 => .ok (.slti (fld w 21 4) (fld w 17 4) (fld w 0 13))
  | 8 => .ok (.sltiu (fld w 21 4) (fld w 17 4) (fld w 0 13))
  | 9 => .ok (.muli (fld w 21 4) (fld w 17 4) (fld w 0 13))
  | 10 => if num w 17 4 = 0 then .ok (.li (fld w 21 4) (fld w 0 13)) else .error .reservedField
  | _ => .error .unassigned

/-- Major 0x02, format U (R108, R111). -/
def decUpper (w : Nat) : Except DecodeError Instr :=
  match num w 19 2 with
  | 0 => .ok (.lih (fld w 21 4) (fld w 0 19))
  | 1 => .ok (.adpc (fld w 21 4) (fld w 0 19))
  | _ => .error .unassigned

/-- Major 0x03, format X (R108, R111). -/
def decExti (w : Nat) : Except DecodeError Instr :=
  if num w 16 3 = 0 then .ok (.exti (fld w 22 3) (fld w 20 2) (fld w 19 1) (fld w 0 16)) else .error .reservedField

/-- Major 0x04, format B (R108, R111). -/
def decBranch (w : Nat) : Except DecodeError Instr :=
  match num w 14 3 with
  | 0 => .ok (.beq (fld w 21 4) (fld w 17 4) (fld w 0 14))
  | 1 => .ok (.bne (fld w 21 4) (fld w 17 4) (fld w 0 14))
  | 2 => .ok (.blt (fld w 21 4) (fld w 17 4) (fld w 0 14))
  | 3 => .ok (.bge (fld w 21 4) (fld w 17 4) (fld w 0 14))
  | 4 => .ok (.bltu (fld w 21 4) (fld w 17 4) (fld w 0 14))
  | 5 => .ok (.bgeu (fld w 21 4) (fld w 17 4) (fld w 0 14))
  | _ => .error .unassigned

/-- Major 0x05, format J (R108, R111). -/
def decJump (w : Nat) : Except DecodeError Instr :=
  .ok (.j (fld w 0 25))

/-- Major 0x06, format J (R108, R111). -/
def decCall (w : Nat) : Except DecodeError Instr :=
  .ok (.call (fld w 0 25))

/-- Major 0x07, format R (R108, R111). -/
def decSystem (w : Nat) : Except DecodeError Instr :=
  match num w 7 6 with
  | 0 => if num w 0 7 = 0 ∧ num w 13 4 = 0 ∧ num w 21 4 = 0 then .ok (.jr (fld w 17 4)) else .error .reservedField
  | 1 => if num w 0 7 = 0 ∧ num w 13 4 = 0 ∧ num w 21 4 = 0 then .ok (.callr (fld w 17 4)) else .error .reservedField
  | 2 => if num w 0 7 = 0 ∧ num w 13 12 = 0 then .ok (.ret) else .error .reservedField
  | 3 => if num w 13 12 = 0 then .ok (.trap (fld w 0 7)) else .error .reservedField
  | 4 => if num w 0 7 = 0 ∧ num w 13 12 = 0 then .ok (.rte) else .error .reservedField
  | 5 => if num w 13 8 = 0 then .ok (.mfs (fld w 21 4) (fld w 0 7)) else .error .reservedField
  | 6 => if num w 13 4 = 0 ∧ num w 21 4 = 0 then .ok (.mts (fld w 17 4) (fld w 0 7)) else .error .reservedField
  | 7 => if num w 0 7 = 0 ∧ num w 13 4 = 0 ∧ num w 24 1 = 0 then .ok (.ext (fld w 21 3) (fld w 17 4)) else .error .reservedField
  | 8 => if num w 0 7 = 0 ∧ num w 13 4 = 0 ∧ num w 20 1 = 0 then .ok (.mfe (fld w 21 4) (fld w 17 3)) else .error .reservedField
  | 9 => if num w 0 7 = 0 then .ok (.csel (fld w 21 4) (fld w 17 4) (fld w 13 4)) else .error .reservedField
  | _ => .error .unassigned

/-- Major 0x10, format MD (R108, R111). -/
def decLoad (w : Nat) : Except DecodeError Instr :=
  match num w 11 3 with
  | 0 => .ok (.ldb (fld w 21 4) (fld w 17 4) (fld w 14 3) (fld w 0 11))
  | 1 => .ok (.ldbu (fld w 21 4) (fld w 17 4) (fld w 14 3) (fld w 0 11))
  | 2 => .ok (.ldh (fld w 21 4) (fld w 17 4) (fld w 14 3) (fld w 0 11))
  | 3 => .ok (.ldhu (fld w 21 4) (fld w 17 4) (fld w 14 3) (fld w 0 11))
  | 4 => .ok (.ldw (fld w 21 4) (fld w 17 4) (fld w 14 3) (fld w 0 11))
  | 5 => .ok (.ldwu (fld w 21 4) (fld w 17 4) (fld w 14 3) (fld w 0 11))
  | 6 => .ok (.ldd (fld w 21 4) (fld w 17 4) (fld w 14 3) (fld w 0 11))
  | _ => .error .unassigned

/-- Major 0x11, format MD (R108, R111). -/
def decStore (w : Nat) : Except DecodeError Instr :=
  match num w 11 3 with
  | 0 => .ok (.stb (fld w 21 4) (fld w 17 4) (fld w 14 3) (fld w 0 11))
  | 1 => .ok (.sth (fld w 21 4) (fld w 17 4) (fld w 14 3) (fld w 0 11))
  | 2 => .ok (.stw (fld w 21 4) (fld w 17 4) (fld w 14 3) (fld w 0 11))
  | 3 => .ok (.std (fld w 21 4) (fld w 17 4) (fld w 14 3) (fld w 0 11))
  | _ => .error .unassigned

/-- Major 0x12, format MX (R108, R111). -/
def decIndexed (w : Nat) : Except DecodeError Instr :=
  match num w 5 5 with
  | 0 => if num w 0 3 = 0 then .ok (.ldbX (fld w 21 4) (fld w 17 4) (fld w 13 4) (fld w 10 3) (fld w 3 2)) else .error .reservedField
  | 1 => if num w 0 3 = 0 then .ok (.ldbuX (fld w 21 4) (fld w 17 4) (fld w 13 4) (fld w 10 3) (fld w 3 2)) else .error .reservedField
  | 2 => if num w 0 3 = 0 then .ok (.ldhX (fld w 21 4) (fld w 17 4) (fld w 13 4) (fld w 10 3) (fld w 3 2)) else .error .reservedField
  | 3 => if num w 0 3 = 0 then .ok (.ldhuX (fld w 21 4) (fld w 17 4) (fld w 13 4) (fld w 10 3) (fld w 3 2)) else .error .reservedField
  | 4 => if num w 0 3 = 0 then .ok (.ldwX (fld w 21 4) (fld w 17 4) (fld w 13 4) (fld w 10 3) (fld w 3 2)) else .error .reservedField
  | 5 => if num w 0 3 = 0 then .ok (.ldwuX (fld w 21 4) (fld w 17 4) (fld w 13 4) (fld w 10 3) (fld w 3 2)) else .error .reservedField
  | 6 => if num w 0 3 = 0 then .ok (.lddX (fld w 21 4) (fld w 17 4) (fld w 13 4) (fld w 10 3) (fld w 3 2)) else .error .reservedField
  | 8 => if num w 0 3 = 0 then .ok (.stbX (fld w 21 4) (fld w 17 4) (fld w 13 4) (fld w 10 3) (fld w 3 2)) else .error .reservedField
  | 9 => if num w 0 3 = 0 then .ok (.sthX (fld w 21 4) (fld w 17 4) (fld w 13 4) (fld w 10 3) (fld w 3 2)) else .error .reservedField
  | 10 => if num w 0 3 = 0 then .ok (.stwX (fld w 21 4) (fld w 17 4) (fld w 13 4) (fld w 10 3) (fld w 3 2)) else .error .reservedField
  | 11 => if num w 0 3 = 0 then .ok (.stdX (fld w 21 4) (fld w 17 4) (fld w 13 4) (fld w 10 3) (fld w 3 2)) else .error .reservedField
  | _ => .error .unassigned

/-- Major 0x13, format MA (R108, R111). -/
def decAtomic (w : Nat) : Except DecodeError Instr :=
  match num w 6 4 with
  | 0 => if num w 0 1 = 0 ∧ num w 5 1 = 1 then .ok (.aadd (fld w 21 4) (fld w 17 4) (fld w 13 4) (fld w 10 3) (fld w 4 1) (fld w 2 2) (fld w 1 1)) else .error .reservedField
  | 1 => if num w 0 1 = 0 ∧ num w 5 1 = 1 then .ok (.amin (fld w 21 4) (fld w 17 4) (fld w 13 4) (fld w 10 3) (fld w 4 1) (fld w 2 2) (fld w 1 1)) else .error .reservedField
  | 2 => if num w 0 1 = 0 ∧ num w 5 1 = 1 then .ok (.aminu (fld w 21 4) (fld w 17 4) (fld w 13 4) (fld w 10 3) (fld w 4 1) (fld w 2 2) (fld w 1 1)) else .error .reservedField
  | 3 => if num w 0 1 = 0 ∧ num w 5 1 = 1 then .ok (.amax (fld w 21 4) (fld w 17 4) (fld w 13 4) (fld w 10 3) (fld w 4 1) (fld w 2 2) (fld w 1 1)) else .error .reservedField
  | 4 => if num w 0 1 = 0 ∧ num w 5 1 = 1 then .ok (.amaxu (fld w 21 4) (fld w 17 4) (fld w 13 4) (fld w 10 3) (fld w 4 1) (fld w 2 2) (fld w 1 1)) else .error .reservedField
  | 5 => if num w 0 1 = 0 ∧ num w 5 1 = 1 then .ok (.aand (fld w 21 4) (fld w 17 4) (fld w 13 4) (fld w 10 3) (fld w 4 1) (fld w 2 2) (fld w 1 1)) else .error .reservedField
  | 6 => if num w 0 1 = 0 ∧ num w 5 1 = 1 then .ok (.aor (fld w 21 4) (fld w 17 4) (fld w 13 4) (fld w 10 3) (fld w 4 1) (fld w 2 2) (fld w 1 1)) else .error .reservedField
  | 7 => if num w 0 1 = 0 ∧ num w 5 1 = 1 then .ok (.axor (fld w 21 4) (fld w 17 4) (fld w 13 4) (fld w 10 3) (fld w 4 1) (fld w 2 2) (fld w 1 1)) else .error .reservedField
  | 8 => if num w 0 1 = 0 ∧ num w 5 1 = 1 then .ok (.aswap (fld w 21 4) (fld w 17 4) (fld w 13 4) (fld w 10 3) (fld w 4 1) (fld w 2 2) (fld w 1 1)) else .error .reservedField
  | 9 => if num w 0 1 = 0 ∧ num w 5 1 = 1 then .ok (.acas (fld w 21 4) (fld w 17 4) (fld w 13 4) (fld w 10 3) (fld w 4 1) (fld w 2 2) (fld w 1 1)) else .error .reservedField
  | _ => .error .unassigned

/-- Major 0x14, format R (R108, R111). -/
def decSync (w : Nat) : Except DecodeError Instr :=
  match num w 7 6 with
  | 0 => if num w 0 7 = 0 ∧ num w 13 12 = 0 then .ok (.fenceAcq) else .error .reservedField
  | 1 => if num w 0 7 = 0 ∧ num w 13 12 = 0 then .ok (.fenceRel) else .error .reservedField
  | 2 => if num w 0 7 = 0 ∧ num w 13 12 = 0 then .ok (.fenceAll) else .error .reservedField
  | 3 => if num w 0 7 = 0 ∧ num w 15 2 = 0 then .ok (.marm (fld w 21 4) (fld w 17 4) (fld w 13 2)) else .error .reservedField
  | 4 => if num w 0 7 = 0 ∧ num w 13 4 = 0 then .ok (.mwait (fld w 21 4) (fld w 17 4)) else .error .reservedField
  | 5 => if num w 0 7 = 0 ∧ num w 17 8 = 0 then .ok (.mdis (fld w 13 4)) else .error .reservedField
  | 6 => if num w 0 7 = 0 ∧ num w 13 4 = 0 then .ok (.bara (fld w 21 4) (fld w 17 4)) else .error .reservedField
  | 7 => if num w 0 7 = 0 ∧ num w 13 4 = 0 then .ok (.bard (fld w 21 4) (fld w 17 4)) else .error .reservedField
  | 8 => if num w 0 7 = 0 ∧ num w 21 4 = 0 then .ok (.barw (fld w 17 4) (fld w 13 4)) else .error .reservedField
  | 9 => if num w 0 7 = 0 ∧ num w 13 4 = 0 ∧ num w 21 4 = 0 then .ok (.commit (fld w 17 4)) else .error .reservedField
  | 10 => if num w 0 7 = 0 ∧ num w 21 4 = 0 then .ok (.flush (fld w 17 4) (fld w 13 4)) else .error .reservedField
  | 11 => if num w 0 7 = 0 ∧ num w 21 4 = 0 then .ok (.inval (fld w 17 4) (fld w 13 4)) else .error .reservedField
  | 12 => if num w 0 7 = 0 ∧ num w 21 4 = 0 then .ok (.seal (fld w 17 4) (fld w 13 4)) else .error .reservedField
  | _ => .error .unassigned

/-- Major 0x15, format MD (R108, R111). -/
def decTentative (w : Nat) : Except DecodeError Instr :=
  match num w 11 3 with
  | 0 => .ok (.tstw (fld w 21 4) (fld w 17 4) (fld w 14 3) (fld w 0 11))
  | 1 => .ok (.tstd (fld w 21 4) (fld w 17 4) (fld w 14 3) (fld w 0 11))
  | _ => .error .unassigned

/-- Major 0x16, format MA (R108, R111). -/
def decDupd (w : Nat) : Except DecodeError Instr :=
  match num w 6 4 with
  | 0 => if num w 0 4 = 0 ∧ num w 5 1 = 1 ∧ num w 21 4 = 0 then .ok (.dupdAdd (fld w 17 4) (fld w 13 4) (fld w 10 3) (fld w 4 1)) else .error .reservedField
  | 1 => if num w 0 4 = 0 ∧ num w 5 1 = 1 ∧ num w 21 4 = 0 then .ok (.dupdFadd (fld w 17 4) (fld w 13 4) (fld w 10 3) (fld w 4 1)) else .error .reservedField
  | 2 => if num w 0 4 = 0 ∧ num w 5 1 = 1 ∧ num w 21 4 = 0 then .ok (.dupdMin (fld w 17 4) (fld w 13 4) (fld w 10 3) (fld w 4 1)) else .error .reservedField
  | 3 => if num w 0 4 = 0 ∧ num w 5 1 = 1 ∧ num w 21 4 = 0 then .ok (.dupdMax (fld w 17 4) (fld w 13 4) (fld w 10 3) (fld w 4 1)) else .error .reservedField
  | 4 => if num w 0 4 = 0 ∧ num w 5 1 = 1 ∧ num w 21 4 = 0 then .ok (.dupdAnd (fld w 17 4) (fld w 13 4) (fld w 10 3) (fld w 4 1)) else .error .reservedField
  | 5 => if num w 0 4 = 0 ∧ num w 5 1 = 1 ∧ num w 21 4 = 0 then .ok (.dupdOr (fld w 17 4) (fld w 13 4) (fld w 10 3) (fld w 4 1)) else .error .reservedField
  | 6 => if num w 0 4 = 0 ∧ num w 5 1 = 1 ∧ num w 21 4 = 0 then .ok (.dupdXor (fld w 17 4) (fld w 13 4) (fld w 10 3) (fld w 4 1)) else .error .reservedField
  | _ => .error .unassigned

/-- Major 0x17, format B (R108, R111). -/
def decRetract (w : Nat) : Except DecodeError Instr :=
  match num w 14 3 with
  | 0 => if num w 17 4 = 0 then .ok (.retract (fld w 21 4) (fld w 0 14)) else .error .reservedField
  | _ => .error .unassigned

/-- Major 0x20, format V (R108, R111). -/
def decVector (w : Nat) : Except DecodeError Instr :=
  match num w 0 5 with
  | 0 => .ok (.vadd (fld w 22 3) (fld w 19 3) (fld w 16 3) (fld w 13 3) (fld w 12 1) (fld w 8 4) (fld w 5 3))
  | 1 => .ok (.vsub (fld w 22 3) (fld w 19 3) (fld w 16 3) (fld w 13 3) (fld w 12 1) (fld w 8 4) (fld w 5 3))
  | 2 => .ok (.vmul (fld w 22 3) (fld w 19 3) (fld w 16 3) (fld w 13 3) (fld w 12 1) (fld w 8 4) (fld w 5 3))
  | 3 => if num w 5 3 = 0 then .ok (.vmulh (fld w 22 3) (fld w 19 3) (fld w 16 3) (fld w 13 3) (fld w 12 1) (fld w 8 4)) else .error .reservedField
  | 4 => .ok (.vdiv (fld w 22 3) (fld w 19 3) (fld w 16 3) (fld w 13 3) (fld w 12 1) (fld w 8 4) (fld w 5 3))
  | 5 => if num w 16 3 = 0 then .ok (.vsqrt (fld w 22 3) (fld w 19 3) (fld w 13 3) (fld w 12 1) (fld w 8 4) (fld w 5 3)) else .error .reservedField
  | 6 => if num w 5 3 = 0 then .ok (.vmin (fld w 22 3) (fld w 19 3) (fld w 16 3) (fld w 13 3) (fld w 12 1) (fld w 8 4)) else .error .reservedField
  | 7 => if num w 5 3 = 0 then .ok (.vmax (fld w 22 3) (fld w 19 3) (fld w 16 3) (fld w 13 3) (fld w 12 1) (fld w 8 4)) else .error .reservedField
  | 8 => if num w 5 3 = 0 ∧ num w 16 3 = 0 then .ok (.vabs (fld w 22 3) (fld w 19 3) (fld w 13 3) (fld w 12 1) (fld w 8 4)) else .error .reservedField
  | 9 => if num w 5 3 = 0 ∧ num w 16 3 = 0 then .ok (.vneg (fld w 22 3) (fld w 19 3) (fld w 13 3) (fld w 12 1) (fld w 8 4)) else .error .reservedField
  | 10 => .ok (.vfma (fld w 22 3) (fld w 19 3) (fld w 16 3) (fld w 13 3) (fld w 12 1) (fld w 8 4) (fld w 5 3))
  | 11 => .ok (.vfms (fld w 22 3) (fld w 19 3) (fld w 16 3) (fld w 13 3) (fld w 12 1) (fld w 8 4) (fld w 5 3))
  | 12 => if num w 16 3 = 0 then .ok (.vex2 (fld w 22 3) (fld w 19 3) (fld w 13 3) (fld w 12 1) (fld w 8 4) (fld w 5 3)) else .error .reservedField
  | 13 => if num w 5 3 = 0 then .ok (.vand (fld w 22 3) (fld w 19 3) (fld w 16 3) (fld w 13 3) (fld w 12 1) (fld w 8 4)) else .error .reservedField
  | 14 => if num w 5 3 = 0 then .ok (.vor (fld w 22 3) (fld w 19 3) (fld w 16 3) (fld w 13 3) (fld w 12 1) (fld w 8 4)) else .error .reservedField
  | 15 => if num w 5 3 = 0 then .ok (.vxor (fld w 22 3) (fld w 19 3) (fld w 16 3) (fld w 13 3) (fld w 12 1) (fld w 8 4)) else .error .reservedField
  | 16 => if num w 5 3 = 0 then .ok (.vsll (fld w 22 3) (fld w 19 3) (fld w 16 3) (fld w 13 3) (fld w 12 1) (fld w 8 4)) else .error .reservedField
  | 17 => if num w 5 3 = 0 then .ok (.vsrl (fld w 22 3) (fld w 19 3) (fld w 16 3) (fld w 13 3) (fld w 12 1) (fld w 8 4)) else .error .reservedField
  | 18 => if num w 5 3 = 0 then .ok (.vsra (fld w 22 3) (fld w 19 3) (fld w 16 3) (fld w 13 3) (fld w 12 1) (fld w 8 4)) else .error .reservedField
  | 19 => if num w 5 3 = 0 then .ok (.vadds (fld w 22 3) (fld w 19 3) (fld w 16 3) (fld w 13 3) (fld w 12 1) (fld w 8 4)) else .error .reservedField
  | 20 => if num w 5 3 = 0 then .ok (.vsubs (fld w 22 3) (fld w 19 3) (fld w 16 3) (fld w 13 3) (fld w 12 1) (fld w 8 4)) else .error .reservedField
  | 21 => if num w 5 3 = 0 ∧ num w 12 1 = 0 then .ok (.vsel (fld w 22 3) (fld w 19 3) (fld w 16 3) (fld w 13 3) (fld w 8 4)) else .error .reservedField
  | _ => .error .unassigned

/-- Major 0x21, format V (R108, R111). -/
def decCompare (w : Nat) : Except DecodeError Instr :=
  match num w 0 5 with
  | 0 => if num w 5 3 = 0 then .ok (.vceq (fld w 22 3) (fld w 19 3) (fld w 16 3) (fld w 13 3) (fld w 12 1) (fld w 8 4)) else .error .reservedField
  | 1 => if num w 5 3 = 0 then .ok (.vcne (fld w 22 3) (fld w 19 3) (fld w 16 3) (fld w 13 3) (fld w 12 1) (fld w 8 4)) else .error .reservedField
  | 2 => if num w 5 3 = 0 then .ok (.vclt (fld w 22 3) (fld w 19 3) (fld w 16 3) (fld w 13 3) (fld w 12 1) (fld w 8 4)) else .error .reservedField
  | 3 => if num w 5 3 = 0 then .ok (.vcle (fld w 22 3) (fld w 19 3) (fld w 16 3) (fld w 13 3) (fld w 12 1) (fld w 8 4)) else .error .reservedField
  | 4 => if num w 5 3 = 0 then .ok (.vcun (fld w 22 3) (fld w 19 3) (fld w 16 3) (fld w 13 3) (fld w 12 1) (fld w 8 4)) else .error .reservedField
  | _ => .error .unassigned

/-- Major 0x22, format VC (R108, R111). -/
def decConvert (w : Nat) : Except DecodeError Instr :=
  match num w 0 3 with
  | 0 => .ok (.vcvt (fld w 22 3) (fld w 19 3) (fld w 15 4) (fld w 12 3) (fld w 8 4) (fld w 5 3) (fld w 4 1) (fld w 3 1))
  | _ => .error .unassigned

/-- Major 0x23, format V (R108, R111). -/
def decReduce (w : Nat) : Except DecodeError Instr :=
  match num w 0 5 with
  | 0 => if num w 16 3 = 0 then .ok (.vrsum (fld w 22 3) (fld w 19 3) (fld w 13 3) (fld w 12 1) (fld w 8 4) (fld w 5 3)) else .error .reservedField
  | 1 => if num w 5 3 = 0 ∧ num w 16 3 = 0 then .ok (.vrmin (fld w 22 3) (fld w 19 3) (fld w 13 3) (fld w 12 1) (fld w 8 4)) else .error .reservedField
  | 2 => if num w 5 3 = 0 ∧ num w 16 3 = 0 then .ok (.vrmax (fld w 22 3) (fld w 19 3) (fld w 13 3) (fld w 12 1) (fld w 8 4)) else .error .reservedField
  | 3 => if num w 5 3 = 0 ∧ num w 16 3 = 0 then .ok (.vrand (fld w 22 3) (fld w 19 3) (fld w 13 3) (fld w 12 1) (fld w 8 4)) else .error .reservedField
  | 4 => if num w 5 3 = 0 ∧ num w 16 3 = 0 then .ok (.vror (fld w 22 3) (fld w 19 3) (fld w 13 3) (fld w 12 1) (fld w 8 4)) else .error .reservedField
  | 5 => if num w 5 3 = 0 ∧ num w 16 3 = 0 then .ok (.vrxor (fld w 22 3) (fld w 19 3) (fld w 13 3) (fld w 12 1) (fld w 8 4)) else .error .reservedField
  | _ => .error .unassigned

/-- Major 0x24, format V (R108, R111). -/
def decMove (w : Nat) : Except DecodeError Instr :=
  match num w 0 5 with
  | 0 => if num w 5 3 = 0 then .ok (.vperm (fld w 22 3) (fld w 19 3) (fld w 16 3) (fld w 13 3) (fld w 12 1) (fld w 8 4)) else .error .reservedField
  | 1 => if num w 5 3 = 0 ∧ num w 16 3 = 0 then .ok (.vbcast (fld w 22 3) (fld w 19 3) (fld w 13 3) (fld w 12 1) (fld w 8 4)) else .error .reservedField
  | 2 => if num w 5 3 = 0 ∧ num w 16 3 = 0 then .ok (.vslup (fld w 22 3) (fld w 19 3) (fld w 13 3) (fld w 12 1) (fld w 8 4)) else .error .reservedField
  | 3 => if num w 5 3 = 0 ∧ num w 16 3 = 0 then .ok (.vsldn (fld w 22 3) (fld w 19 3) (fld w 13 3) (fld w 12 1) (fld w 8 4)) else .error .reservedField
  | 4 => if num w 5 3 = 0 ∧ num w 12 1 = 0 ∧ num w 16 3 = 0 then .ok (.vins (fld w 22 3) (fld w 19 3) (fld w 13 3) (fld w 8 4)) else .error .reservedField
  | 5 => if num w 5 3 = 0 ∧ num w 12 7 = 0 then .ok (.vext (fld w 22 3) (fld w 19 3) (fld w 8 4)) else .error .reservedField
  | 6 => if num w 5 3 = 0 ∧ num w 16 3 = 0 then .ok (.vmov (fld w 22 3) (fld w 19 3) (fld w 13 3) (fld w 12 1) (fld w 8 4)) else .error .reservedField
  | 7 => if num w 5 3 = 0 ∧ num w 16 3 = 0 then .ok (.vaccr (fld w 22 3) (fld w 19 3) (fld w 13 3) (fld w 12 1) (fld w 8 4)) else .error .reservedField
  | _ => .error .unassigned

/-- Major 0x25, format V (R108, R111). -/
def decMask (w : Nat) : Except DecodeError Instr :=
  match num w 0 5 with
  | 0 => if num w 5 11 = 0 then .ok (.kand (fld w 22 3) (fld w 19 3) (fld w 16 3)) else .error .reservedField
  | 1 => if num w 5 11 = 0 then .ok (.kor (fld w 22 3) (fld w 19 3) (fld w 16 3)) else .error .reservedField
  | 2 => if num w 5 11 = 0 then .ok (.kxor (fld w 22 3) (fld w 19 3) (fld w 16 3)) else .error .reservedField
  | 3 => if num w 5 14 = 0 then .ok (.knot (fld w 22 3) (fld w 19 3)) else .error .reservedField
  | 4 => if num w 5 14 = 0 then .ok (.kmov (fld w 22 3) (fld w 19 3)) else .error .reservedField
  | 5 => if num w 5 14 = 0 then .ok (.kpopc (fld w 22 3) (fld w 19 3)) else .error .reservedField
  | _ => .error .unassigned

/-- Major 0x26, format VM (R108, R111). -/
def decVecMem (w : Nat) : Except DecodeError Instr :=
  match num w 3 3 with
  | 0 => if num w 0 1 = 0 ∧ num w 6 3 = 0 ∧ num w 20 2 = 0 then .ok (.vld (fld w 22 3) (fld w 17 3) (fld w 16 1) (fld w 12 4) (fld w 9 3) (fld w 1 2)) else .error .reservedField
  | 1 => if num w 0 1 = 0 ∧ num w 6 3 = 0 ∧ num w 16 1 = 0 ∧ num w 20 2 = 0 then .ok (.vst (fld w 22 3) (fld w 17 3) (fld w 12 4) (fld w 9 3) (fld w 1 2)) else .error .reservedField
  | 2 => if num w 0 1 = 0 ∧ num w 6 6 = 0 then .ok (.vlds (fld w 22 3) (fld w 20 2) (fld w 17 3) (fld w 16 1) (fld w 12 4) (fld w 1 2)) else .error .reservedField
  | 3 => if num w 0 1 = 0 ∧ num w 6 6 = 0 ∧ num w 16 1 = 0 then .ok (.vsts (fld w 22 3) (fld w 20 2) (fld w 17 3) (fld w 12 4) (fld w 1 2)) else .error .reservedField
  | 4 => if num w 0 1 = 0 ∧ num w 20 2 = 0 then .ok (.vgath (fld w 22 3) (fld w 17 3) (fld w 16 1) (fld w 12 4) (fld w 9 3) (fld w 6 3) (fld w 1 2)) else .error .reservedField
  | 5 => if num w 0 1 = 0 ∧ num w 16 1 = 0 ∧ num w 20 2 = 0 then .ok (.vscat (fld w 22 3) (fld w 17 3) (fld w 12 4) (fld w 9 3) (fld w 6 3) (fld w 1 2)) else .error .reservedField
  | _ => .error .unassigned

/-- Major 0x28, format E (R108, R111). -/
def decMld (w : Nat) : Except DecodeError Instr :=
  if num w 17 1 = 0 then .ok (.mld (fld w 20 5) (fld w 19 1) (fld w 18 1) (fld w 15 2) (fld w 12 3) (fld w 8 4) (fld w 6 2) (fld w 5 1) (fld w 4 1) (fld w 3 1) (fld w 2 1) (fld w 0 2)) else .error .reservedField

/-- Major 0x29, format E (R108, R111). -/
def decMst (w : Nat) : Except DecodeError Instr :=
  if num w 17 1 = 0 then .ok (.mst (fld w 20 5) (fld w 19 1) (fld w 18 1) (fld w 15 2) (fld w 12 3) (fld w 8 4) (fld w 6 2) (fld w 5 1) (fld w 4 1) (fld w 3 1) (fld w 2 1) (fld w 0 2)) else .error .reservedField

/-- Major 0x2A, format E (R108, R111). -/
def decMma (w : Nat) : Except DecodeError Instr :=
  if num w 0 3 = 0 then .ok (.mma (fld w 20 5) (fld w 15 5) (fld w 12 3) (fld w 8 4) (fld w 6 2) (fld w 5 1) (fld w 4 1) (fld w 3 1)) else .error .reservedField

/-- Major 0x2B, format E (R108, R111). -/
def decMmas (w : Nat) : Except DecodeError Instr :=
  .ok (.mmas (fld w 20 5) (fld w 15 5) (fld w 12 3) (fld w 8 4) (fld w 6 2) (fld w 5 1) (fld w 4 1) (fld w 3 1) (fld w 0 3))

/-- Major 0x2C, format E (R108, R111). -/
def decMcmp (w : Nat) : Except DecodeError Instr :=
  if num w 3 1 = 0 ∧ num w 12 3 = 0 then .ok (.mcmp (fld w 20 5) (fld w 15 5) (fld w 8 4) (fld w 6 2) (fld w 5 1) (fld w 4 1) (fld w 0 3)) else .error .reservedField

/-- Major 0x2D, format E (R108, R111). -/
def decMzero (w : Nat) : Except DecodeError Instr :=
  if num w 0 4 = 0 ∧ num w 15 10 = 0 then .ok (.mzero (fld w 12 3) (fld w 8 4) (fld w 6 2) (fld w 5 1) (fld w 4 1)) else .error .reservedField

/-- Major 0x2E, format R (R108, R111). -/
def decClaim (w : Nat) : Except DecodeError Instr :=
  match num w 7 6 with
  | 0 => if num w 0 7 = 0 ∧ num w 21 4 = 0 then .ok (.claim (fld w 17 4) (fld w 13 4)) else .error .reservedField
  | 1 => if num w 0 7 = 0 ∧ num w 21 4 = 0 then .ok (.claimT (fld w 17 4) (fld w 13 4)) else .error .reservedField
  | 2 => if num w 0 7 = 0 ∧ num w 21 4 = 0 then .ok (.rels (fld w 17 4) (fld w 13 4)) else .error .reservedField
  | 3 => if num w 0 7 = 0 ∧ num w 13 4 = 0 ∧ num w 20 1 = 0 then .ok (.mchk (fld w 21 4) (fld w 17 3)) else .error .reservedField
  | 4 => if num w 0 7 = 0 ∧ num w 24 1 = 0 then .ok (.mfix (fld w 21 3) (fld w 17 4) (fld w 13 4)) else .error .reservedField
  | 5 => if num w 0 7 = 0 ∧ num w 13 4 = 0 ∧ num w 24 1 = 0 then .ok (.accinj (fld w 21 3) (fld w 17 4)) else .error .reservedField
  | 6 => if num w 0 7 = 1 then (if num w 20 5 = 0 then .ok (.amovWrite (fld w 17 3) (fld w 13 4)) else .error .reservedField) else if num w 13 4 = 0 ∧ num w 20 1 = 0 then .ok (.amovRead (fld w 21 4) (fld w 17 3) (fld w 0 7)) else .error .reservedField
  | 7 => if num w 6 1 = 0 ∧ num w 20 5 = 0 then .ok (.mcvta (fld w 17 3) (fld w 13 4) (fld w 5 1) (fld w 0 5)) else .error .reservedField
  | _ => .error .unassigned

/-- Major 0x30, format E (R108, R111). -/
def decCpy (w : Nat) : Except DecodeError Instr :=
  if num w 12 3 = 0 ∧ num w 17 3 = 0 ∧ num w 22 3 = 0 then .ok (.cpy (fld w 20 2) (fld w 15 2) (fld w 8 4) (fld w 6 2) (fld w 5 1) (fld w 4 1) (fld w 3 1) (fld w 2 1) (fld w 0 2)) else .error .reservedField

/-- Major 0x31, format E (R108, R111). -/
def decNred (w : Nat) : Except DecodeError Instr :=
  if num w 12 3 = 0 ∧ num w 19 1 = 0 ∧ num w 24 1 = 0 then .ok (.nred (fld w 20 4) (fld w 15 4) (fld w 8 4) (fld w 6 2) (fld w 5 1) (fld w 4 1) (fld w 3 1) (fld w 2 1) (fld w 0 2)) else .error .reservedField

/-- Major 0x32, format E (R108, R111). -/
def decScpy (w : Nat) : Except DecodeError Instr :=
  if num w 12 3 = 0 ∧ num w 17 3 = 0 ∧ num w 22 3 = 0 then .ok (.scpy (fld w 20 2) (fld w 15 2) (fld w 8 4) (fld w 6 2) (fld w 5 1) (fld w 4 1) (fld w 3 1) (fld w 2 1) (fld w 0 2)) else .error .reservedField

/-- Major 0x33, format R (R108, R111). -/
def decStream (w : Nat) : Except DecodeError Instr :=
  match num w 7 6 with
  | 0 => if num w 0 7 = 0 ∧ num w 13 4 = 0 ∧ num w 23 2 = 0 then .ok (.strm (fld w 21 2) (fld w 17 4)) else .error .reservedField
  | 1 => if num w 4 3 = 0 ∧ num w 13 12 = 0 then .ok (.waitd (fld w 0 4)) else .error .reservedField
  | 2 => if num w 0 7 = 0 ∧ num w 13 4 = 0 ∧ num w 21 4 = 0 then .ok (.dfence (fld w 17 4)) else .error .reservedField
  | 3 => if num w 0 7 = 1 ∧ num w 21 4 = 0 then .ok (.carmArm (fld w 17 4) (fld w 13 4)) else if num w 0 7 = 0 ∧ num w 21 4 = 0 then .ok (.carmDisarm (fld w 17 4) (fld w 13 4)) else .error .reservedField
  | 4 => if num w 0 7 = 0 ∧ num w 13 12 = 0 then .ok (.phase) else .error .reservedField
  | _ => .error .unassigned

/-- Major 0x34, format R (R108, R111). -/
def decTask (w : Nat) : Except DecodeError Instr :=
  match num w 7 6 with
  | 0 => if num w 0 7 = 0 ∧ num w 13 4 = 0 ∧ num w 21 4 = 0 then .ok (.spawn (fld w 17 4)) else .error .reservedField
  | 1 => if num w 0 7 = 0 ∧ num w 21 4 = 0 then .ok (.qcfg (fld w 17 4) (fld w 13 4)) else .error .reservedField
  | 2 => if num w 0 7 = 0 ∧ num w 21 4 = 0 then .ok (.fork (fld w 17 4) (fld w 13 4)) else .error .reservedField
  | 3 => if num w 0 7 = 0 ∧ num w 13 4 = 0 ∧ num w 21 4 = 0 then .ok (.join (fld w 17 4)) else .error .reservedField
  | 4 => if num w 0 7 = 0 ∧ num w 13 12 = 0 then .ok (.wfw) else .error .reservedField
  | 5 => if num w 0 7 = 0 ∧ num w 13 4 = 0 ∧ num w 21 4 = 0 then .ok (.done (fld w 17 4)) else .error .reservedField
  | 6 => if num w 0 7 = 0 ∧ num w 13 4 = 0 ∧ num w 21 4 = 0 then .ok (.migr (fld w 17 4)) else .error .reservedField
  | 7 => if num w 0 7 = 0 ∧ num w 21 4 = 0 then .ok (.send (fld w 17 4) (fld w 13 4)) else .error .reservedField
  | 8 => if num w 0 7 = 0 ∧ num w 13 4 = 0 then .ok (.recv (fld w 21 4) (fld w 17 4)) else .error .reservedField
  | 9 => if num w 3 4 = 0 ∧ num w 13 12 = 0 then .ok (.reply (fld w 0 3)) else .error .reservedField
  | 10 => if num w 3 4 = 0 ∧ num w 21 4 = 0 then .ok (.rfwd (fld w 17 4) (fld w 13 4) (fld w 0 3)) else .error .reservedField
  | _ => .error .unassigned

/-- Major 0x35, format RC (R108, R111). -/
def decRcall (w : Nat) : Except DecodeError Instr :=
  match num w 13 1 with
  | 0 => if num w 0 13 = 0 then .ok (.rcall (fld w 21 4) (fld w 17 4) (fld w 14 3)) else .error .reservedField
  | 1 => if num w 0 13 = 0 then .ok (.rcalla (fld w 21 4) (fld w 17 4) (fld w 14 3)) else .error .reservedField
  | _ => .error .unassigned

/-- Major 0x3F, format H (R108, R111). -/
def decHint (w : Nat) : Except DecodeError Instr :=
  match num w 20 5 with
  | 1 => if num w 0 20 = 0 then .ok (.pause) else .ok .nop
  | 2 => .ok (.prefl (fld w 16 4) (fld w 0 16))
  | 3 => if num w 0 20 = 0 then .ok (.hcomp) else .ok .nop
  | 4 => if num w 0 20 = 0 then .ok (.hmem) else .ok .nop
  | 5 => if num w 0 20 = 0 then .ok (.hwait) else .ok .nop
  | _ => .ok .nop

/-- The 16-bit forms (R109, R110). -/
def decShort (w : Nat) : Except DecodeError Instr :=
  match num w 10 5 with
  | 1 => if num w 0 2 = 0 then .ok (.mov16 (fld w 6 4) (fld w 2 4)) else .error .reservedField
  | 2 => if num w 0 2 = 0 then .ok (.add16 (fld w 6 4) (fld w 2 4)) else .error .reservedField
  | 3 => if num w 0 2 = 0 then .ok (.sub16 (fld w 6 4) (fld w 2 4)) else .error .reservedField
  | 4 => if num w 0 2 = 0 then .ok (.and16 (fld w 6 4) (fld w 2 4)) else .error .reservedField
  | 5 => if num w 0 2 = 0 then .ok (.or16 (fld w 6 4) (fld w 2 4)) else .error .reservedField
  | 6 => if num w 0 2 = 0 then .ok (.xor16 (fld w 6 4) (fld w 2 4)) else .error .reservedField
  | 7 => .ok (.addi16 (fld w 6 4) (fld w 0 6))
  | 8 => .ok (.li16 (fld w 6 4) (fld w 0 6))
  | 9 => .ok (.slli16 (fld w 6 4) (fld w 0 6))
  | 10 => .ok (.srli16 (fld w 6 4) (fld w 0 6))
  | 11 => .ok (.srai16 (fld w 6 4) (fld w 0 6))
  | 12 => .ok (.ldd16 (fld w 6 4) (fld w 0 6))
  | 13 => .ok (.std16 (fld w 6 4) (fld w 0 6))
  | 14 => .ok (.j16 (fld w 0 10))
  | 15 => if num w 0 10 = 0 then .ok (.ret16) else .error .reservedField
  | 16 => if num w 0 10 = 0 then .ok (.nop16) else .error .reservedField
  | _ => .error .unassigned

/-- The 32-bit forms, by MAJOR (R111).  Bit 31 is one, so the top seven bits are 64 + MAJOR. -/
def decLong (w : Nat) : Except DecodeError Instr :=
  match num w 25 7 with
  | 64 => decAlu w
  | 65 => decImm w
  | 66 => decUpper w
  | 67 => decExti w
  | 68 => decBranch w
  | 69 => decJump w
  | 70 => decCall w
  | 71 => decSystem w
  | 80 => decLoad w
  | 81 => decStore w
  | 82 => decIndexed w
  | 83 => decAtomic w
  | 84 => decSync w
  | 85 => decTentative w
  | 86 => decDupd w
  | 87 => decRetract w
  | 96 => decVector w
  | 97 => decCompare w
  | 98 => decConvert w
  | 99 => decReduce w
  | 100 => decMove w
  | 101 => decMask w
  | 102 => decVecMem w
  | 104 => decMld w
  | 105 => decMst w
  | 106 => decMma w
  | 107 => decMmas w
  | 108 => decMcmp w
  | 109 => decMzero w
  | 110 => decClaim w
  | 112 => decCpy w
  | 113 => decNred w
  | 114 => decScpy w
  | 115 => decStream w
  | 116 => decTask w
  | 117 => decRcall w
  | 127 => decHint w
  | _ => .error .unassigned

/-- A decoded instruction counts only if no coded field holds a reserved value (R112). -/
def checked : Except DecodeError Instr → Except DecodeError Instr
  | .ok i => if i.wf then .ok i else .error .reservedValue
  | .error e => .error e

/-- An instruction word read with its own length: 32-bit words have bit 31 set, 16-bit ones have bit 15 clear. -/
def decodeWord (long : Bool) (w : Nat) : Except DecodeError Instr :=
  checked (if long then decLong w else decShort w)

/-- The halfword that two bytes hold, little-endian (R107). -/
def halfword (b0 b1 : Byte) : Nat := b0.toNat + 256 * b1.toNat

/-- The instruction at the head of a byte list.  The first halfword says the length (R107); in a 32-bit instruction it
holds bits 31 to 16, and the next one bits 15 to 0. -/
def decodeBytes : List Byte → Except DecodeError Instr
  | b0 :: b1 :: rest =>
    if halfword b0 b1 < 0x8000 then decodeWord false (halfword b0 b1)
    else match rest with
      | b2 :: b3 :: _ => decodeWord true (halfword b0 b1 * 0x10000 + halfword b2 b3)
      | _ => .error .truncated
  | _ => .error .truncated

/-- The two bytes of a halfword, low byte first. -/
def halfwordBytes (h : Nat) : List Byte := [BitVec.ofNat 8 h, BitVec.ofNat 8 (h / 256)]

/-- How an instruction word of nbits bits lies in memory (R107). -/
def wordBytes (nbits w : Nat) : List Byte :=
  if nbits ≤ 16 then halfwordBytes w else halfwordBytes (w / 0x10000) ++ halfwordBytes (w % 0x10000)

/-- The instruction the decoder reads from a word numbered as the operation table numbers it. -/
def decodeTableWord (nbits w : Nat) : Option Instr :=
  match decodeBytes (wordBytes nbits w) with
  | .ok i => some i
  | .error _ => none

/-- Bytes of an instruction: 4 or 2 (R107); 0 for a happening. -/
def Instr.size : Instr → Nat
  | .add _ _ _ _ => 4
  | .sub _ _ _ _ => 4
  | .mul _ _ _ _ => 4
  | .mulh _ _ _ _ => 4
  | .mulhu _ _ _ _ => 4
  | .div _ _ _ _ => 4
  | .divu _ _ _ _ => 4
  | .rem _ _ _ _ => 4
  | .remu _ _ _ _ => 4
  | .and _ _ _ _ => 4
  | .or _ _ _ _ => 4
  | .xor _ _ _ _ => 4
  | .andn _ _ _ _ => 4
  | .sll _ _ _ _ => 4
  | .srl _ _ _ _ => 4
  | .sra _ _ _ _ => 4
  | .rol _ _ _ _ => 4
  | .ror _ _ _ _ => 4
  | .min _ _ _ _ => 4
  | .minu _ _ _ _ => 4
  | .max _ _ _ _ => 4
  | .maxu _ _ _ _ => 4
  | .adds _ _ _ _ => 4
  | .subs _ _ _ _ => 4
  | .addsu _ _ _ _ => 4
  | .subsu _ _ _ _ => 4
  | .slt _ _ _ _ => 4
  | .sltu _ _ _ _ => 4
  | .seq _ _ _ _ => 4
  | .clz _ _ _ => 4
  | .ctz _ _ _ => 4
  | .popc _ _ _ => 4
  | .mov _ _ => 4
  | .sext _ _ _ => 4
  | .zext _ _ _ => 4
  | .bswap _ _ _ => 4
  | .addi _ _ _ => 4
  | .andi _ _ _ => 4
  | .ori _ _ _ => 4
  | .xori _ _ _ => 4
  | .slli _ _ _ => 4
  | .srli _ _ _ => 4
  | .srai _ _ _ => 4
  | .slti _ _ _ => 4
  | .sltiu _ _ _ => 4
  | .muli _ _ _ => 4
  | .li _ _ => 4
  | .lih _ _ => 4
  | .adpc _ _ => 4
  | .exti _ _ _ _ => 4
  | .beq _ _ _ => 4
  | .bne _ _ _ => 4
  | .blt _ _ _ => 4
  | .bge _ _ _ => 4
  | .bltu _ _ _ => 4
  | .bgeu _ _ _ => 4
  | .j _ => 4
  | .call _ => 4
  | .jr _ => 4
  | .callr _ => 4
  | .ret => 4
  | .trap _ => 4
  | .rte => 4
  | .mfs _ _ => 4
  | .mts _ _ => 4
  | .ext _ _ => 4
  | .mfe _ _ => 4
  | .csel _ _ _ => 4
  | .ldb _ _ _ _ => 4
  | .ldbu _ _ _ _ => 4
  | .ldh _ _ _ _ => 4
  | .ldhu _ _ _ _ => 4
  | .ldw _ _ _ _ => 4
  | .ldwu _ _ _ _ => 4
  | .ldd _ _ _ _ => 4
  | .stb _ _ _ _ => 4
  | .sth _ _ _ _ => 4
  | .stw _ _ _ _ => 4
  | .std _ _ _ _ => 4
  | .ldbX _ _ _ _ _ => 4
  | .ldbuX _ _ _ _ _ => 4
  | .ldhX _ _ _ _ _ => 4
  | .ldhuX _ _ _ _ _ => 4
  | .ldwX _ _ _ _ _ => 4
  | .ldwuX _ _ _ _ _ => 4
  | .lddX _ _ _ _ _ => 4
  | .stbX _ _ _ _ _ => 4
  | .sthX _ _ _ _ _ => 4
  | .stwX _ _ _ _ _ => 4
  | .stdX _ _ _ _ _ => 4
  | .aadd _ _ _ _ _ _ _ => 4
  | .amin _ _ _ _ _ _ _ => 4
  | .aminu _ _ _ _ _ _ _ => 4
  | .amax _ _ _ _ _ _ _ => 4
  | .amaxu _ _ _ _ _ _ _ => 4
  | .aand _ _ _ _ _ _ _ => 4
  | .aor _ _ _ _ _ _ _ => 4
  | .axor _ _ _ _ _ _ _ => 4
  | .aswap _ _ _ _ _ _ _ => 4
  | .acas _ _ _ _ _ _ _ => 4
  | .fenceAcq => 4
  | .fenceRel => 4
  | .fenceAll => 4
  | .marm _ _ _ => 4
  | .mwait _ _ => 4
  | .mdis _ => 4
  | .bara _ _ => 4
  | .bard _ _ => 4
  | .barw _ _ => 4
  | .commit _ => 4
  | .flush _ _ => 4
  | .inval _ _ => 4
  | .seal _ _ => 4
  | .tstw _ _ _ _ => 4
  | .tstd _ _ _ _ => 4
  | .dupdAdd _ _ _ _ => 4
  | .dupdFadd _ _ _ _ => 4
  | .dupdMin _ _ _ _ => 4
  | .dupdMax _ _ _ _ => 4
  | .dupdAnd _ _ _ _ => 4
  | .dupdOr _ _ _ _ => 4
  | .dupdXor _ _ _ _ => 4
  | .retract _ _ => 4
  | .vadd _ _ _ _ _ _ _ => 4
  | .vsub _ _ _ _ _ _ _ => 4
  | .vmul _ _ _ _ _ _ _ => 4
  | .vmulh _ _ _ _ _ _ => 4
  | .vdiv _ _ _ _ _ _ _ => 4
  | .vsqrt _ _ _ _ _ _ => 4
  | .vmin _ _ _ _ _ _ => 4
  | .vmax _ _ _ _ _ _ => 4
  | .vabs _ _ _ _ _ => 4
  | .vneg _ _ _ _ _ => 4
  | .vfma _ _ _ _ _ _ _ => 4
  | .vfms _ _ _ _ _ _ _ => 4
  | .vex2 _ _ _ _ _ _ => 4
  | .vand _ _ _ _ _ _ => 4
  | .vor _ _ _ _ _ _ => 4
  | .vxor _ _ _ _ _ _ => 4
  | .vsll _ _ _ _ _ _ => 4
  | .vsrl _ _ _ _ _ _ => 4
  | .vsra _ _ _ _ _ _ => 4
  | .vadds _ _ _ _ _ _ => 4
  | .vsubs _ _ _ _ _ _ => 4
  | .vsel _ _ _ _ _ => 4
  | .vceq _ _ _ _ _ _ => 4
  | .vcne _ _ _ _ _ _ => 4
  | .vclt _ _ _ _ _ _ => 4
  | .vcle _ _ _ _ _ _ => 4
  | .vcun _ _ _ _ _ _ => 4
  | .vcvt _ _ _ _ _ _ _ _ => 4
  | .vrsum _ _ _ _ _ _ => 4
  | .vrmin _ _ _ _ _ => 4
  | .vrmax _ _ _ _ _ => 4
  | .vrand _ _ _ _ _ => 4
  | .vror _ _ _ _ _ => 4
  | .vrxor _ _ _ _ _ => 4
  | .vperm _ _ _ _ _ _ => 4
  | .vbcast _ _ _ _ _ => 4
  | .vslup _ _ _ _ _ => 4
  | .vsldn _ _ _ _ _ => 4
  | .vins _ _ _ _ => 4
  | .vext _ _ _ => 4
  | .vmov _ _ _ _ _ => 4
  | .vaccr _ _ _ _ _ => 4
  | .kand _ _ _ => 4
  | .kor _ _ _ => 4
  | .kxor _ _ _ => 4
  | .knot _ _ => 4
  | .kmov _ _ => 4
  | .kpopc _ _ => 4
  | .vld _ _ _ _ _ _ => 4
  | .vst _ _ _ _ _ => 4
  | .vlds _ _ _ _ _ _ => 4
  | .vsts _ _ _ _ _ => 4
  | .vgath _ _ _ _ _ _ _ => 4
  | .vscat _ _ _ _ _ _ => 4
  | .mld _ _ _ _ _ _ _ _ _ _ _ _ => 4
  | .mst _ _ _ _ _ _ _ _ _ _ _ _ => 4
  | .mma _ _ _ _ _ _ _ _ => 4
  | .mmas _ _ _ _ _ _ _ _ _ => 4
  | .mcmp _ _ _ _ _ _ _ => 4
  | .mzero _ _ _ _ _ => 4
  | .claim _ _ => 4
  | .claimT _ _ => 4
  | .rels _ _ => 4
  | .mchk _ _ => 4
  | .mfix _ _ _ => 4
  | .accinj _ _ => 4
  | .amovRead _ _ _ => 4
  | .amovWrite _ _ => 4
  | .mcvta _ _ _ _ => 4
  | .cpy _ _ _ _ _ _ _ _ _ => 4
  | .nred _ _ _ _ _ _ _ _ _ => 4
  | .scpy _ _ _ _ _ _ _ _ _ => 4
  | .strm _ _ => 4
  | .waitd _ => 4
  | .dfence _ => 4
  | .carmArm _ _ => 4
  | .carmDisarm _ _ => 4
  | .phase => 4
  | .spawn _ => 4
  | .qcfg _ _ => 4
  | .fork _ _ => 4
  | .join _ => 4
  | .wfw => 4
  | .done _ => 4
  | .migr _ => 4
  | .send _ _ => 4
  | .recv _ _ => 4
  | .reply _ => 4
  | .rfwd _ _ _ => 4
  | .rcall _ _ _ => 4
  | .rcalla _ _ _ => 4
  | .nop => 4
  | .pause => 4
  | .prefl _ _ => 4
  | .hcomp => 4
  | .hmem => 4
  | .hwait => 4
  | .mov16 _ _ => 2
  | .add16 _ _ => 2
  | .sub16 _ _ => 2
  | .and16 _ _ => 2
  | .or16 _ _ => 2
  | .xor16 _ _ => 2
  | .addi16 _ _ => 2
  | .li16 _ _ => 2
  | .slli16 _ _ => 2
  | .srli16 _ _ => 2
  | .srai16 _ _ => 2
  | .ldd16 _ _ => 2
  | .std16 _ _ => 2
  | .j16 _ => 2
  | .ret16 => 2
  | .nop16 => 2
  | .deferredTrap _ => 0
  | .checkerReissue _ => 0
  | .memoryReply _ => 0
  | .ownershipRecall _ _ => 0
  | .l2Fill _ _ _ => 0
  | .mwaitTimeout _ => 0
  | .tentFullTimeout _ => 0
  | .unseal _ => 0
  | .leaseExpiry _ => 0
  | .leaseRevocation _ => 0
  | .leaseRefusal _ => 0
  | .windowBoundary => 0
  | .timeSync _ => 0
  | .vectorAccept _ => 0
  | .vectorComplete _ => 0
  | .engineCommandBegin _ _ => 0
  | .engineCommandComplete _ _ => 0
  | .engineCheckpointTimeout _ _ => 0
  | .nredResult _ _ => 0
  | .nredYieldTimeout _ => 0
  | .taskRecord _ => 0
  | .headTake _ => 0
  | .stealRequest _ _ _ => 0
  | .dispenserDispatch _ => 0
  | .thresholdUpdate _ => 0
  | .creationNotice _ => 0
  | .retirementNotice _ => 0
  | .clusterQuiescent _ _ => 0
  | .childStatusWord _ => 0
  | .launchComplete _ => 0
  | .callArrival _ => 0
  | .replyArrival _ => 0
  | .ackArrival _ => 0
  | .loneAcknowledgement _ => 0
  | .callerTimer _ => 0
  | .retractionTimer _ _ => 0
  | .retractionPass _ => 0
  | .migrationArrival _ => 0
  | .messageArrival _ => 0
  | .backPressureNak _ => 0
  | .phaseRequest => 0
  | .programLoad _ _ => 0
  | .walkComplete _ _ => 0
  | .pageServiceComplete _ => 0
  | .pageOut _ _ => 0
  | .pgshoot _ _ => 0
  | .shootdownComplete _ => 0
  | .viewRegisterWrite _ _ => 0
  | .wlenWrite _ _ => 0
  | .hotnessDecay _ => 0
  | .hostMemrd _ _ _ => 0
  | .hostMemwr _ _ _ => 0
  | .hostOwnershipRequest _ _ => 0
  | .birspi _ _ => 0
  | .expanderBisnp _ => 0
  | .biasFlipToHost _ => 0
  | .biasFlipToDevice _ => 0
  | .linkDown _ => 0
  | .spdmRequest _ => 0
  | .gangSwitch _ => 0
  | .saveComplete _ => 0
  | .gangResume _ => 0
  | .supervisorRecovery _ => 0
  | .hang _ => 0
  | .selfTestResult _ _ => 0
  | .controlInterval _ => 0
  | .tcapUpdate _ => 0
  | .clockRaise _ => 0
  | .stackTemperature _ _ => 0
  | .registerWrite _ _ => 0
  | .claimCommand _ => 0
  | .handover _ => 0
  | .reset _ => 0
  | .load _ => 0
  | .policy _ => 0
  | .policyAddKey _ => 0
  | .launch _ => 0
  | .query _ => 0
  | .queryDevice _ => 0
  | .preempt _ => 0
  | .preemptResume _ => 0
  | .kill _ => 0
  | .dump _ => 0
  | .checkpoint _ => 0
  | .attest _ => 0
  | .update _ => 0
  | .coldReset => 0
  | .remotePackageAccess _ _ _ _ => 0
  | .softError _ _ _ => 0
  | .linkUp _ _ => 0
  | .powerOff => 0

/-- The word of an instruction (R108 to R111); 0 for a happening, which has none. -/
def encodeWord : Instr → Nat
  | .add d a b z => 0x80000000 + d.toNat * 0x200000 + a.toNat * 0x20000 + b.toNat * 0x2000 + z.toNat
  | .sub d a b z => 0x80000080 + d.toNat * 0x200000 + a.toNat * 0x20000 + b.toNat * 0x2000 + z.toNat
  | .mul d a b z => 0x80000100 + d.toNat * 0x200000 + a.toNat * 0x20000 + b.toNat * 0x2000 + z.toNat
  | .mulh d a b z => 0x80000180 + d.toNat * 0x200000 + a.toNat * 0x20000 + b.toNat * 0x2000 + z.toNat
  | .mulhu d a b z => 0x80000200 + d.toNat * 0x200000 + a.toNat * 0x20000 + b.toNat * 0x2000 + z.toNat
  | .div d a b z => 0x80000280 + d.toNat * 0x200000 + a.toNat * 0x20000 + b.toNat * 0x2000 + z.toNat
  | .divu d a b z => 0x80000300 + d.toNat * 0x200000 + a.toNat * 0x20000 + b.toNat * 0x2000 + z.toNat
  | .rem d a b z => 0x80000380 + d.toNat * 0x200000 + a.toNat * 0x20000 + b.toNat * 0x2000 + z.toNat
  | .remu d a b z => 0x80000400 + d.toNat * 0x200000 + a.toNat * 0x20000 + b.toNat * 0x2000 + z.toNat
  | .and d a b z => 0x80000480 + d.toNat * 0x200000 + a.toNat * 0x20000 + b.toNat * 0x2000 + z.toNat
  | .or d a b z => 0x80000500 + d.toNat * 0x200000 + a.toNat * 0x20000 + b.toNat * 0x2000 + z.toNat
  | .xor d a b z => 0x80000580 + d.toNat * 0x200000 + a.toNat * 0x20000 + b.toNat * 0x2000 + z.toNat
  | .andn d a b z => 0x80000600 + d.toNat * 0x200000 + a.toNat * 0x20000 + b.toNat * 0x2000 + z.toNat
  | .sll d a b z => 0x80000680 + d.toNat * 0x200000 + a.toNat * 0x20000 + b.toNat * 0x2000 + z.toNat
  | .srl d a b z => 0x80000700 + d.toNat * 0x200000 + a.toNat * 0x20000 + b.toNat * 0x2000 + z.toNat
  | .sra d a b z => 0x80000780 + d.toNat * 0x200000 + a.toNat * 0x20000 + b.toNat * 0x2000 + z.toNat
  | .rol d a b z => 0x80000800 + d.toNat * 0x200000 + a.toNat * 0x20000 + b.toNat * 0x2000 + z.toNat
  | .ror d a b z => 0x80000880 + d.toNat * 0x200000 + a.toNat * 0x20000 + b.toNat * 0x2000 + z.toNat
  | .min d a b z => 0x80000900 + d.toNat * 0x200000 + a.toNat * 0x20000 + b.toNat * 0x2000 + z.toNat
  | .minu d a b z => 0x80000980 + d.toNat * 0x200000 + a.toNat * 0x20000 + b.toNat * 0x2000 + z.toNat
  | .max d a b z => 0x80000A00 + d.toNat * 0x200000 + a.toNat * 0x20000 + b.toNat * 0x2000 + z.toNat
  | .maxu d a b z => 0x80000A80 + d.toNat * 0x200000 + a.toNat * 0x20000 + b.toNat * 0x2000 + z.toNat
  | .adds d a b z => 0x80000B00 + d.toNat * 0x200000 + a.toNat * 0x20000 + b.toNat * 0x2000 + z.toNat
  | .subs d a b z => 0x80000B80 + d.toNat * 0x200000 + a.toNat * 0x20000 + b.toNat * 0x2000 + z.toNat
  | .addsu d a b z => 0x80000C00 + d.toNat * 0x200000 + a.toNat * 0x20000 + b.toNat * 0x2000 + z.toNat
  | .subsu d a b z => 0x80000C80 + d.toNat * 0x200000 + a.toNat * 0x20000 + b.toNat * 0x2000 + z.toNat
  | .slt d a b z => 0x80000D00 + d.toNat * 0x200000 + a.toNat * 0x20000 + b.toNat * 0x2000 + z.toNat
  | .sltu d a b z => 0x80000D80 + d.toNat * 0x200000 + a.toNat * 0x20000 + b.toNat * 0x2000 + z.toNat
  | .seq d a b z => 0x80000E00 + d.toNat * 0x200000 + a.toNat * 0x20000 + b.toNat * 0x2000 + z.toNat
  | .clz d a z => 0x80000E80 + d.toNat * 0x200000 + a.toNat * 0x20000 + z.toNat
  | .ctz d a z => 0x80000F00 + d.toNat * 0x200000 + a.toNat * 0x20000 + z.toNat
  | .popc d a z => 0x80000F80 + d.toNat * 0x200000 + a.toNat * 0x20000 + z.toNat
  | .mov d a => 0x80001003 + d.toNat * 0x200000 + a.toNat * 0x20000
  | .sext d a z => 0x80001080 + d.toNat * 0x200000 + a.toNat * 0x20000 + z.toNat
  | .zext d a z => 0x80001100 + d.toNat * 0x200000 + a.toNat * 0x20000 + z.toNat
  | .bswap d a z => 0x80001180 + d.toNat * 0x200000 + a.toNat * 0x20000 + z.toNat
  | .addi d a i => 0x82000000 + d.toNat * 0x200000 + a.toNat * 0x20000 + i.toNat
  | .andi d a i => 0x82002000 + d.toNat * 0x200000 + a.toNat * 0x20000 + i.toNat
  | .ori d a i => 0x82004000 + d.toNat * 0x200000 + a.toNat * 0x20000 + i.toNat
  | .xori d a i => 0x82006000 + d.toNat * 0x200000 + a.toNat * 0x20000 + i.toNat
  | .slli d a h => 0x82008000 + d.toNat * 0x200000 + a.toNat * 0x20000 + h.toNat
  | .srli d a h => 0x8200A000 + d.toNat * 0x200000 + a.toNat * 0x20000 + h.toNat
  | .srai d a h => 0x8200C000 + d.toNat * 0x200000 + a.toNat * 0x20000 + h.toNat
  | .slti d a i => 0x8200E000 + d.toNat * 0x200000 + a.toNat * 0x20000 + i.toNat
  | .sltiu d a i => 0x82010000 + d.toNat * 0x200000 + a.toNat * 0x20000 + i.toNat
  | .muli d a i => 0x82012000 + d.toNat * 0x200000 + a.toNat * 0x20000 + i.toNat
  | .li d i => 0x82014000 + d.toNat * 0x200000 + i.toNat
  | .lih d i => 0x84000000 + d.toNat * 0x200000 + i.toNat
  | .adpc d i => 0x84080000 + d.toNat * 0x200000 + i.toNat
  | .exti e p k i => 0x86000000 + e.toNat * 0x400000 + p.toNat * 0x100000 + k.toNat * 0x80000 + i.toNat
  | .beq a b o => 0x88000000 + a.toNat * 0x200000 + b.toNat * 0x20000 + o.toNat
  | .bne a b o => 0x88004000 + a.toNat * 0x200000 + b.toNat * 0x20000 + o.toNat
  | .blt a b o => 0x88008000 + a.toNat * 0x200000 + b.toNat * 0x20000 + o.toNat
  | .bge a b o => 0x8800C000 + a.toNat * 0x200000 + b.toNat * 0x20000 + o.toNat
  | .bltu a b o => 0x88010000 + a.toNat * 0x200000 + b.toNat * 0x20000 + o.toNat
  | .bgeu a b o => 0x88014000 + a.toNat * 0x200000 + b.toNat * 0x20000 + o.toNat
  | .j o => 0x8A000000 + o.toNat
  | .call o => 0x8C000000 + o.toNat
  | .jr a => 0x8E000000 + a.toNat * 0x20000
  | .callr a => 0x8E000080 + a.toNat * 0x20000
  | .ret => 0x8E000100
  | .trap c => 0x8E000180 + c.toNat
  | .rte => 0x8E000200
  | .mfs d r => 0x8E000280 + d.toNat * 0x200000 + r.toNat
  | .mts a r => 0x8E000300 + a.toNat * 0x20000 + r.toNat
  | .ext n a => 0x8E000380 + n.toNat * 0x200000 + a.toNat * 0x20000
  | .mfe d n => 0x8E000400 + d.toNat * 0x200000 + n.toNat * 0x20000
  | .csel d a b => 0x8E000480 + d.toNat * 0x200000 + a.toNat * 0x20000 + b.toNat * 0x2000
  | .ldb d b w i => 0xA0000000 + d.toNat * 0x200000 + b.toNat * 0x20000 + w.toNat * 0x4000 + i.toNat
  | .ldbu d b w i => 0xA0000800 + d.toNat * 0x200000 + b.toNat * 0x20000 + w.toNat * 0x4000 + i.toNat
  | .ldh d b w i => 0xA0001000 + d.toNat * 0x200000 + b.toNat * 0x20000 + w.toNat * 0x4000 + i.toNat
  | .ldhu d b w i => 0xA0001800 + d.toNat * 0x200000 + b.toNat * 0x20000 + w.toNat * 0x4000 + i.toNat
  | .ldw d b w i => 0xA0002000 + d.toNat * 0x200000 + b.toNat * 0x20000 + w.toNat * 0x4000 + i.toNat
  | .ldwu d b w i => 0xA0002800 + d.toNat * 0x200000 + b.toNat * 0x20000 + w.toNat * 0x4000 + i.toNat
  | .ldd d b w i => 0xA0003000 + d.toNat * 0x200000 + b.toNat * 0x20000 + w.toNat * 0x4000 + i.toNat
  | .stb d b w i => 0xA2000000 + d.toNat * 0x200000 + b.toNat * 0x20000 + w.toNat * 0x4000 + i.toNat
  | .sth d b w i => 0xA2000800 + d.toNat * 0x200000 + b.toNat * 0x20000 + w.toNat * 0x4000 + i.toNat
  | .stw d b w i => 0xA2001000 + d.toNat * 0x200000 + b.toNat * 0x20000 + w.toNat * 0x4000 + i.toNat
  | .std d b w i => 0xA2001800 + d.toNat * 0x200000 + b.toNat * 0x20000 + w.toNat * 0x4000 + i.toNat
  | .ldbX d b x w s => 0xA4000000 + d.toNat * 0x200000 + b.toNat * 0x20000 + x.toNat * 0x2000 + w.toNat * 0x400 + s.toNat * 0x8
  | .ldbuX d b x w s => 0xA4000020 + d.toNat * 0x200000 + b.toNat * 0x20000 + x.toNat * 0x2000 + w.toNat * 0x400 + s.toNat * 0x8
  | .ldhX d b x w s => 0xA4000040 + d.toNat * 0x200000 + b.toNat * 0x20000 + x.toNat * 0x2000 + w.toNat * 0x400 + s.toNat * 0x8
  | .ldhuX d b x w s => 0xA4000060 + d.toNat * 0x200000 + b.toNat * 0x20000 + x.toNat * 0x2000 + w.toNat * 0x400 + s.toNat * 0x8
  | .ldwX d b x w s => 0xA4000080 + d.toNat * 0x200000 + b.toNat * 0x20000 + x.toNat * 0x2000 + w.toNat * 0x400 + s.toNat * 0x8
  | .ldwuX d b x w s => 0xA40000A0 + d.toNat * 0x200000 + b.toNat * 0x20000 + x.toNat * 0x2000 + w.toNat * 0x400 + s.toNat * 0x8
  | .lddX d b x w s => 0xA40000C0 + d.toNat * 0x200000 + b.toNat * 0x20000 + x.toNat * 0x2000 + w.toNat * 0x400 + s.toNat * 0x8
  | .stbX d b x w s => 0xA4000100 + d.toNat * 0x200000 + b.toNat * 0x20000 + x.toNat * 0x2000 + w.toNat * 0x400 + s.toNat * 0x8
  | .sthX d b x w s => 0xA4000120 + d.toNat * 0x200000 + b.toNat * 0x20000 + x.toNat * 0x2000 + w.toNat * 0x400 + s.toNat * 0x8
  | .stwX d b x w s => 0xA4000140 + d.toNat * 0x200000 + b.toNat * 0x20000 + x.toNat * 0x2000 + w.toNat * 0x400 + s.toNat * 0x8
  | .stdX d b x w s => 0xA4000160 + d.toNat * 0x200000 + b.toNat * 0x20000 + x.toNat * 0x2000 + w.toNat * 0x400 + s.toNat * 0x8
  | .aadd d b v w z o y => 0xA6000020 + d.toNat * 0x200000 + b.toNat * 0x20000 + v.toNat * 0x2000 + w.toNat * 0x400 + z.toNat * 0x10 + o.toNat * 0x4 + y.toNat * 0x2
  | .amin d b v w z o y => 0xA6000060 + d.toNat * 0x200000 + b.toNat * 0x20000 + v.toNat * 0x2000 + w.toNat * 0x400 + z.toNat * 0x10 + o.toNat * 0x4 + y.toNat * 0x2
  | .aminu d b v w z o y => 0xA60000A0 + d.toNat * 0x200000 + b.toNat * 0x20000 + v.toNat * 0x2000 + w.toNat * 0x400 + z.toNat * 0x10 + o.toNat * 0x4 + y.toNat * 0x2
  | .amax d b v w z o y => 0xA60000E0 + d.toNat * 0x200000 + b.toNat * 0x20000 + v.toNat * 0x2000 + w.toNat * 0x400 + z.toNat * 0x10 + o.toNat * 0x4 + y.toNat * 0x2
  | .amaxu d b v w z o y => 0xA6000120 + d.toNat * 0x200000 + b.toNat * 0x20000 + v.toNat * 0x2000 + w.toNat * 0x400 + z.toNat * 0x10 + o.toNat * 0x4 + y.toNat * 0x2
  | .aand d b v w z o y => 0xA6000160 + d.toNat * 0x200000 + b.toNat * 0x20000 + v.toNat * 0x2000 + w.toNat * 0x400 + z.toNat * 0x10 + o.toNat * 0x4 + y.toNat * 0x2
  | .aor d b v w z o y => 0xA60001A0 + d.toNat * 0x200000 + b.toNat * 0x20000 + v.toNat * 0x2000 + w.toNat * 0x400 + z.toNat * 0x10 + o.toNat * 0x4 + y.toNat * 0x2
  | .axor d b v w z o y => 0xA60001E0 + d.toNat * 0x200000 + b.toNat * 0x20000 + v.toNat * 0x2000 + w.toNat * 0x400 + z.toNat * 0x10 + o.toNat * 0x4 + y.toNat * 0x2
  | .aswap d b v w z o y => 0xA6000220 + d.toNat * 0x200000 + b.toNat * 0x20000 + v.toNat * 0x2000 + w.toNat * 0x400 + z.toNat * 0x10 + o.toNat * 0x4 + y.toNat * 0x2
  | .acas d b v w z o y => 0xA6000260 + d.toNat * 0x200000 + b.toNat * 0x20000 + v.toNat * 0x2000 + w.toNat * 0x400 + z.toNat * 0x10 + o.toNat * 0x4 + y.toNat * 0x2
  | .fenceAcq => 0xA8000000
  | .fenceRel => 0xA8000080
  | .fenceAll => 0xA8000100
  | .marm d a n => 0xA8000180 + d.toNat * 0x200000 + a.toNat * 0x20000 + n.toNat * 0x2000
  | .mwait d a => 0xA8000200 + d.toNat * 0x200000 + a.toNat * 0x20000
  | .mdis k => 0xA8000280 + k.toNat * 0x2000
  | .bara d a => 0xA8000300 + d.toNat * 0x200000 + a.toNat * 0x20000
  | .bard d a => 0xA8000380 + d.toNat * 0x200000 + a.toNat * 0x20000
  | .barw a b => 0xA8000400 + a.toNat * 0x20000 + b.toNat * 0x2000
  | .commit a => 0xA8000480 + a.toNat * 0x20000
  | .flush a b => 0xA8000500 + a.toNat * 0x20000 + b.toNat * 0x2000
  | .inval a b => 0xA8000580 + a.toNat * 0x20000 + b.toNat * 0x2000
  | .seal a b => 0xA8000600 + a.toNat * 0x20000 + b.toNat * 0x2000
  | .tstw d b w i => 0xAA000000 + d.toNat * 0x200000 + b.toNat * 0x20000 + w.toNat * 0x4000 + i.toNat
  | .tstd d b w i => 0xAA000800 + d.toNat * 0x200000 + b.toNat * 0x20000 + w.toNat * 0x4000 + i.toNat
  | .dupdAdd b v w z => 0xAC000020 + b.toNat * 0x20000 + v.toNat * 0x2000 + w.toNat * 0x400 + z.toNat * 0x10
  | .dupdFadd b v w z => 0xAC000060 + b.toNat * 0x20000 + v.toNat * 0x2000 + w.toNat * 0x400 + z.toNat * 0x10
  | .dupdMin b v w z => 0xAC0000A0 + b.toNat * 0x20000 + v.toNat * 0x2000 + w.toNat * 0x400 + z.toNat * 0x10
  | .dupdMax b v w z => 0xAC0000E0 + b.toNat * 0x20000 + v.toNat * 0x2000 + w.toNat * 0x400 + z.toNat * 0x10
  | .dupdAnd b v w z => 0xAC000120 + b.toNat * 0x20000 + v.toNat * 0x2000 + w.toNat * 0x400 + z.toNat * 0x10
  | .dupdOr b v w z => 0xAC000160 + b.toNat * 0x20000 + v.toNat * 0x2000 + w.toNat * 0x400 + z.toNat * 0x10
  | .dupdXor b v w z => 0xAC0001A0 + b.toNat * 0x20000 + v.toNat * 0x2000 + w.toNat * 0x400 + z.toNat * 0x10
  | .retract a o => 0xAE000000 + a.toNat * 0x200000 + o.toNat
  | .vadd d a b k z t r => 0xC0000000 + d.toNat * 0x400000 + a.toNat * 0x80000 + b.toNat * 0x10000 + k.toNat * 0x2000 + z.toNat * 0x1000 + t.toNat * 0x100 + r.toNat * 0x20
  | .vsub d a b k z t r => 0xC0000001 + d.toNat * 0x400000 + a.toNat * 0x80000 + b.toNat * 0x10000 + k.toNat * 0x2000 + z.toNat * 0x1000 + t.toNat * 0x100 + r.toNat * 0x20
  | .vmul d a b k z t r => 0xC0000002 + d.toNat * 0x400000 + a.toNat * 0x80000 + b.toNat * 0x10000 + k.toNat * 0x2000 + z.toNat * 0x1000 + t.toNat * 0x100 + r.toNat * 0x20
  | .vmulh d a b k z t => 0xC0000003 + d.toNat * 0x400000 + a.toNat * 0x80000 + b.toNat * 0x10000 + k.toNat * 0x2000 + z.toNat * 0x1000 + t.toNat * 0x100
  | .vdiv d a b k z t r => 0xC0000004 + d.toNat * 0x400000 + a.toNat * 0x80000 + b.toNat * 0x10000 + k.toNat * 0x2000 + z.toNat * 0x1000 + t.toNat * 0x100 + r.toNat * 0x20
  | .vsqrt d a k z t r => 0xC0000005 + d.toNat * 0x400000 + a.toNat * 0x80000 + k.toNat * 0x2000 + z.toNat * 0x1000 + t.toNat * 0x100 + r.toNat * 0x20
  | .vmin d a b k z t => 0xC0000006 + d.toNat * 0x400000 + a.toNat * 0x80000 + b.toNat * 0x10000 + k.toNat * 0x2000 + z.toNat * 0x1000 + t.toNat * 0x100
  | .vmax d a b k z t => 0xC0000007 + d.toNat * 0x400000 + a.toNat * 0x80000 + b.toNat * 0x10000 + k.toNat * 0x2000 + z.toNat * 0x1000 + t.toNat * 0x100
  | .vabs d a k z t => 0xC0000008 + d.toNat * 0x400000 + a.toNat * 0x80000 + k.toNat * 0x2000 + z.toNat * 0x1000 + t.toNat * 0x100
  | .vneg d a k z t => 0xC0000009 + d.toNat * 0x400000 + a.toNat * 0x80000 + k.toNat * 0x2000 + z.toNat * 0x1000 + t.toNat * 0x100
  | .vfma d a b k z t r => 0xC000000A + d.toNat * 0x400000 + a.toNat * 0x80000 + b.toNat * 0x10000 + k.toNat * 0x2000 + z.toNat * 0x1000 + t.toNat * 0x100 + r.toNat * 0x20
  | .vfms d a b k z t r => 0xC000000B + d.toNat * 0x400000 + a.toNat * 0x80000 + b.toNat * 0x10000 + k.toNat * 0x2000 + z.toNat * 0x1000 + t.toNat * 0x100 + r.toNat * 0x20
  | .vex2 d a k z t r => 0xC000000C + d.toNat * 0x400000 + a.toNat * 0x80000 + k.toNat * 0x2000 + z.toNat * 0x1000 + t.toNat * 0x100 + r.toNat * 0x20
  | .vand d a b k z t => 0xC000000D + d.toNat * 0x400000 + a.toNat * 0x80000 + b.toNat * 0x10000 + k.toNat * 0x2000 + z.toNat * 0x1000 + t.toNat * 0x100
  | .vor d a b k z t => 0xC000000E + d.toNat * 0x400000 + a.toNat * 0x80000 + b.toNat * 0x10000 + k.toNat * 0x2000 + z.toNat * 0x1000 + t.toNat * 0x100
  | .vxor d a b k z t => 0xC000000F + d.toNat * 0x400000 + a.toNat * 0x80000 + b.toNat * 0x10000 + k.toNat * 0x2000 + z.toNat * 0x1000 + t.toNat * 0x100
  | .vsll d a b k z t => 0xC0000010 + d.toNat * 0x400000 + a.toNat * 0x80000 + b.toNat * 0x10000 + k.toNat * 0x2000 + z.toNat * 0x1000 + t.toNat * 0x100
  | .vsrl d a b k z t => 0xC0000011 + d.toNat * 0x400000 + a.toNat * 0x80000 + b.toNat * 0x10000 + k.toNat * 0x2000 + z.toNat * 0x1000 + t.toNat * 0x100
  | .vsra d a b k z t => 0xC0000012 + d.toNat * 0x400000 + a.toNat * 0x80000 + b.toNat * 0x10000 + k.toNat * 0x2000 + z.toNat * 0x1000 + t.toNat * 0x100
  | .vadds d a b k z t => 0xC0000013 + d.toNat * 0x400000 + a.toNat * 0x80000 + b.toNat * 0x10000 + k.toNat * 0x2000 + z.toNat * 0x1000 + t.toNat * 0x100
  | .vsubs d a b k z t => 0xC0000014 + d.toNat * 0x400000 + a.toNat * 0x80000 + b.toNat * 0x10000 + k.toNat * 0x2000 + z.toNat * 0x1000 + t.toNat * 0x100
  | .vsel d a b k t => 0xC0000015 + d.toNat * 0x400000 + a.toNat * 0x80000 + b.toNat * 0x10000 + k.toNat * 0x2000 + t.toNat * 0x100
  | .vceq d a b k z t => 0xC2000000 + d.toNat * 0x400000 + a.toNat * 0x80000 + b.toNat * 0x10000 + k.toNat * 0x2000 + z.toNat * 0x1000 + t.toNat * 0x100
  | .vcne d a b k z t => 0xC2000001 + d.toNat * 0x400000 + a.toNat * 0x80000 + b.toNat * 0x10000 + k.toNat * 0x2000 + z.toNat * 0x1000 + t.toNat * 0x100
  | .vclt d a b k z t => 0xC2000002 + d.toNat * 0x400000 + a.toNat * 0x80000 + b.toNat * 0x10000 + k.toNat * 0x2000 + z.toNat * 0x1000 + t.toNat * 0x100
  | .vcle d a b k z t => 0xC2000003 + d.toNat * 0x400000 + a.toNat * 0x80000 + b.toNat * 0x10000 + k.toNat * 0x2000 + z.toNat * 0x1000 + t.toNat * 0x100
  | .vcun d a b k z t => 0xC2000004 + d.toNat * 0x400000 + a.toNat * 0x80000 + b.toNat * 0x10000 + k.toNat * 0x2000 + z.toNat * 0x1000 + t.toNat * 0x100
  | .vcvt d a u k t r s z => 0xC4000000 + d.toNat * 0x400000 + a.toNat * 0x80000 + u.toNat * 0x8000 + k.toNat * 0x1000 + t.toNat * 0x100 + r.toNat * 0x20 + s.toNat * 0x10 + z.toNat * 0x8
  | .vrsum d a k z t r => 0xC6000000 + d.toNat * 0x400000 + a.toNat * 0x80000 + k.toNat * 0x2000 + z.toNat * 0x1000 + t.toNat * 0x100 + r.toNat * 0x20
  | .vrmin d a k z t => 0xC6000001 + d.toNat * 0x400000 + a.toNat * 0x80000 + k.toNat * 0x2000 + z.toNat * 0x1000 + t.toNat * 0x100
  | .vrmax d a k z t => 0xC6000002 + d.toNat * 0x400000 + a.toNat * 0x80000 + k.toNat * 0x2000 + z.toNat * 0x1000 + t.toNat * 0x100
  | .vrand d a k z t => 0xC6000003 + d.toNat * 0x400000 + a.toNat * 0x80000 + k.toNat * 0x2000 + z.toNat * 0x1000 + t.toNat * 0x100
  | .vror d a k z t => 0xC6000004 + d.toNat * 0x400000 + a.toNat * 0x80000 + k.toNat * 0x2000 + z.toNat * 0x1000 + t.toNat * 0x100
  | .vrxor d a k z t => 0xC6000005 + d.toNat * 0x400000 + a.toNat * 0x80000 + k.toNat * 0x2000 + z.toNat * 0x1000 + t.toNat * 0x100
  | .vperm d a b k z t => 0xC8000000 + d.toNat * 0x400000 + a.toNat * 0x80000 + b.toNat * 0x10000 + k.toNat * 0x2000 + z.toNat * 0x1000 + t.toNat * 0x100
  | .vbcast d e k z t => 0xC8000001 + d.toNat * 0x400000 + e.toNat * 0x80000 + k.toNat * 0x2000 + z.toNat * 0x1000 + t.toNat * 0x100
  | .vslup d a k z t => 0xC8000002 + d.toNat * 0x400000 + a.toNat * 0x80000 + k.toNat * 0x2000 + z.toNat * 0x1000 + t.toNat * 0x100
  | .vsldn d a k z t => 0xC8000003 + d.toNat * 0x400000 + a.toNat * 0x80000 + k.toNat * 0x2000 + z.toNat * 0x1000 + t.toNat * 0x100
  | .vins d e k t => 0xC8000004 + d.toNat * 0x400000 + e.toNat * 0x80000 + k.toNat * 0x2000 + t.toNat * 0x100
  | .vext e a t => 0xC8000005 + e.toNat * 0x400000 + a.toNat * 0x80000 + t.toNat * 0x100
  | .vmov d a k z t => 0xC8000006 + d.toNat * 0x400000 + a.toNat * 0x80000 + k.toNat * 0x2000 + z.toNat * 0x1000 + t.toNat * 0x100
  | .vaccr d n k z t => 0xC8000007 + d.toNat * 0x400000 + n.toNat * 0x80000 + k.toNat * 0x2000 + z.toNat * 0x1000 + t.toNat * 0x100
  | .kand d a b => 0xCA000000 + d.toNat * 0x400000 + a.toNat * 0x80000 + b.toNat * 0x10000
  | .kor d a b => 0xCA000001 + d.toNat * 0x400000 + a.toNat * 0x80000 + b.toNat * 0x10000
  | .kxor d a b => 0xCA000002 + d.toNat * 0x400000 + a.toNat * 0x80000 + b.toNat * 0x10000
  | .knot d a => 0xCA000003 + d.toNat * 0x400000 + a.toNat * 0x80000
  | .kmov d a => 0xCA000004 + d.toNat * 0x400000 + a.toNat * 0x80000
  | .kpopc e a => 0xCA000005 + e.toNat * 0x400000 + a.toNat * 0x80000
  | .vld d k z b w l => 0xCC000000 + d.toNat * 0x400000 + k.toNat * 0x20000 + z.toNat * 0x10000 + b.toNat * 0x1000 + w.toNat * 0x200 + l.toNat * 0x2
  | .vst d k b w l => 0xCC000008 + d.toNat * 0x400000 + k.toNat * 0x20000 + b.toNat * 0x1000 + w.toNat * 0x200 + l.toNat * 0x2
  | .vlds d q k z b l => 0xCC000010 + d.toNat * 0x400000 + q.toNat * 0x100000 + k.toNat * 0x20000 + z.toNat * 0x10000 + b.toNat * 0x1000 + l.toNat * 0x2
  | .vsts d q k b l => 0xCC000018 + d.toNat * 0x400000 + q.toNat * 0x100000 + k.toNat * 0x20000 + b.toNat * 0x1000 + l.toNat * 0x2
  | .vgath d k z b w x l => 0xCC000020 + d.toNat * 0x400000 + k.toNat * 0x20000 + z.toNat * 0x10000 + b.toNat * 0x1000 + w.toNat * 0x200 + x.toNat * 0x40 + l.toNat * 0x2
  | .vscat d k b w x l => 0xCC000028 + d.toNat * 0x400000 + k.toNat * 0x20000 + b.toNat * 0x1000 + w.toNat * 0x200 + x.toNat * 0x40 + l.toNat * 0x2
  | .mld x c p q z w e v s a r o => 0xD0000000 + x.toNat * 0x100000 + c.toNat * 0x80000 + p.toNat * 0x40000 + q.toNat * 0x8000 + z.toNat * 0x1000 + w.toNat * 0x100 + e.toNat * 0x40 + v.toNat * 0x20 + s.toNat * 0x10 + a.toNat * 0x8 + r.toNat * 0x4 + o.toNat
  | .mst x c p q z w e v s a r o => 0xD2000000 + x.toNat * 0x100000 + c.toNat * 0x80000 + p.toNat * 0x40000 + q.toNat * 0x8000 + z.toNat * 0x1000 + w.toNat * 0x100 + e.toNat * 0x40 + v.toNat * 0x20 + s.toNat * 0x10 + a.toNat * 0x8 + r.toNat * 0x4 + o.toNat
  | .mma x y z w e v s c => 0xD4000000 + x.toNat * 0x100000 + y.toNat * 0x8000 + z.toNat * 0x1000 + w.toNat * 0x100 + e.toNat * 0x40 + v.toNat * 0x20 + s.toNat * 0x10 + c.toNat * 0x8
  | .mmas x y z w e v s c m => 0xD6000000 + x.toNat * 0x100000 + y.toNat * 0x8000 + z.toNat * 0x1000 + w.toNat * 0x100 + e.toNat * 0x40 + v.toNat * 0x20 + s.toNat * 0x10 + c.toNat * 0x8 + m.toNat
  | .mcmp x y w e v s m => 0xD8000000 + x.toNat * 0x100000 + y.toNat * 0x8000 + w.toNat * 0x100 + e.toNat * 0x40 + v.toNat * 0x20 + s.toNat * 0x10 + m.toNat
  | .mzero z w e v s => 0xDA000000 + z.toNat * 0x1000 + w.toNat * 0x100 + e.toNat * 0x40 + v.toNat * 0x20 + s.toNat * 0x10
  | .claim a b => 0xDC000000 + a.toNat * 0x20000 + b.toNat * 0x2000
  | .claimT a b => 0xDC000080 + a.toNat * 0x20000 + b.toNat * 0x2000
  | .rels a b => 0xDC000100 + a.toNat * 0x20000 + b.toNat * 0x2000
  | .mchk d n => 0xDC000180 + d.toNat * 0x200000 + n.toNat * 0x20000
  | .mfix n i j => 0xDC000200 + n.toNat * 0x200000 + i.toNat * 0x20000 + j.toNat * 0x2000
  | .accinj n a => 0xDC000280 + n.toNat * 0x200000 + a.toNat * 0x20000
  | .amovRead d n s => 0xDC000300 + d.toNat * 0x200000 + n.toNat * 0x20000 + s.toNat
  | .amovWrite n b => 0xDC000301 + n.toNat * 0x20000 + b.toNat * 0x2000
  | .mcvta n t s x => 0xDC000380 + n.toNat * 0x20000 + t.toNat * 0x2000 + s.toNat * 0x20 + x.toNat
  | .cpy x y w e v s a r o => 0xE0000000 + x.toNat * 0x100000 + y.toNat * 0x8000 + w.toNat * 0x100 + e.toNat * 0x40 + v.toNat * 0x20 + s.toNat * 0x10 + a.toNat * 0x8 + r.toNat * 0x4 + o.toNat
  | .nred d a w e v s h r o => 0xE2000000 + d.toNat * 0x100000 + a.toNat * 0x8000 + w.toNat * 0x100 + e.toNat * 0x40 + v.toNat * 0x20 + s.toNat * 0x10 + h.toNat * 0x8 + r.toNat * 0x4 + o.toNat
  | .scpy x y w e v s a r o => 0xE4000000 + x.toNat * 0x100000 + y.toNat * 0x8000 + w.toNat * 0x100 + e.toNat * 0x40 + v.toNat * 0x20 + s.toNat * 0x10 + a.toNat * 0x8 + r.toNat * 0x4 + o.toNat
  | .strm n a => 0xE6000000 + n.toNat * 0x200000 + a.toNat * 0x20000
  | .waitd k => 0xE6000080 + k.toNat
  | .dfence a => 0xE6000100 + a.toNat * 0x20000
  | .carmArm a b => 0xE6000181 + a.toNat * 0x20000 + b.toNat * 0x2000
  | .carmDisarm a b => 0xE6000180 + a.toNat * 0x20000 + b.toNat * 0x2000
  | .phase => 0xE6000200
  | .spawn a => 0xE8000000 + a.toNat * 0x20000
  | .qcfg a b => 0xE8000080 + a.toNat * 0x20000 + b.toNat * 0x2000
  | .fork a b => 0xE8000100 + a.toNat * 0x20000 + b.toNat * 0x2000
  | .join a => 0xE8000180 + a.toNat * 0x20000
  | .wfw => 0xE8000200
  | .done a => 0xE8000280 + a.toNat * 0x20000
  | .migr a => 0xE8000300 + a.toNat * 0x20000
  | .send a b => 0xE8000380 + a.toNat * 0x20000 + b.toNat * 0x2000
  | .recv d a => 0xE8000400 + d.toNat * 0x200000 + a.toNat * 0x20000
  | .reply n => 0xE8000480 + n.toNat
  | .rfwd a b n => 0xE8000500 + a.toNat * 0x20000 + b.toNat * 0x2000 + n.toNat
  | .rcall t e n => 0xEA000000 + t.toNat * 0x200000 + e.toNat * 0x20000 + n.toNat * 0x4000
  | .rcalla t e n => 0xEA002000 + t.toNat * 0x200000 + e.toNat * 0x20000 + n.toNat * 0x4000
  | .nop => 0xFE000000
  | .pause => 0xFE100000
  | .prefl a i => 0xFE200000 + a.toNat * 0x10000 + i.toNat
  | .hcomp => 0xFE300000
  | .hmem => 0xFE400000
  | .hwait => 0xFE500000
  | .mov16 d a => 0x0400 + d.toNat * 0x40 + a.toNat * 0x4
  | .add16 d a => 0x0800 + d.toNat * 0x40 + a.toNat * 0x4
  | .sub16 d a => 0x0C00 + d.toNat * 0x40 + a.toNat * 0x4
  | .and16 d a => 0x1000 + d.toNat * 0x40 + a.toNat * 0x4
  | .or16 d a => 0x1400 + d.toNat * 0x40 + a.toNat * 0x4
  | .xor16 d a => 0x1800 + d.toNat * 0x40 + a.toNat * 0x4
  | .addi16 d i => 0x1C00 + d.toNat * 0x40 + i.toNat
  | .li16 d i => 0x2000 + d.toNat * 0x40 + i.toNat
  | .slli16 d h => 0x2400 + d.toNat * 0x40 + h.toNat
  | .srli16 d h => 0x2800 + d.toNat * 0x40 + h.toNat
  | .srai16 d h => 0x2C00 + d.toNat * 0x40 + h.toNat
  | .ldd16 d u => 0x3000 + d.toNat * 0x40 + u.toNat
  | .std16 d u => 0x3400 + d.toNat * 0x40 + u.toNat
  | .j16 o => 0x3800 + o.toNat
  | .ret16 => 0x3C00
  | .nop16 => 0x4000
  | .deferredTrap _ => 0
  | .checkerReissue _ => 0
  | .memoryReply _ => 0
  | .ownershipRecall _ _ => 0
  | .l2Fill _ _ _ => 0
  | .mwaitTimeout _ => 0
  | .tentFullTimeout _ => 0
  | .unseal _ => 0
  | .leaseExpiry _ => 0
  | .leaseRevocation _ => 0
  | .leaseRefusal _ => 0
  | .windowBoundary => 0
  | .timeSync _ => 0
  | .vectorAccept _ => 0
  | .vectorComplete _ => 0
  | .engineCommandBegin _ _ => 0
  | .engineCommandComplete _ _ => 0
  | .engineCheckpointTimeout _ _ => 0
  | .nredResult _ _ => 0
  | .nredYieldTimeout _ => 0
  | .taskRecord _ => 0
  | .headTake _ => 0
  | .stealRequest _ _ _ => 0
  | .dispenserDispatch _ => 0
  | .thresholdUpdate _ => 0
  | .creationNotice _ => 0
  | .retirementNotice _ => 0
  | .clusterQuiescent _ _ => 0
  | .childStatusWord _ => 0
  | .launchComplete _ => 0
  | .callArrival _ => 0
  | .replyArrival _ => 0
  | .ackArrival _ => 0
  | .loneAcknowledgement _ => 0
  | .callerTimer _ => 0
  | .retractionTimer _ _ => 0
  | .retractionPass _ => 0
  | .migrationArrival _ => 0
  | .messageArrival _ => 0
  | .backPressureNak _ => 0
  | .phaseRequest => 0
  | .programLoad _ _ => 0
  | .walkComplete _ _ => 0
  | .pageServiceComplete _ => 0
  | .pageOut _ _ => 0
  | .pgshoot _ _ => 0
  | .shootdownComplete _ => 0
  | .viewRegisterWrite _ _ => 0
  | .wlenWrite _ _ => 0
  | .hotnessDecay _ => 0
  | .hostMemrd _ _ _ => 0
  | .hostMemwr _ _ _ => 0
  | .hostOwnershipRequest _ _ => 0
  | .birspi _ _ => 0
  | .expanderBisnp _ => 0
  | .biasFlipToHost _ => 0
  | .biasFlipToDevice _ => 0
  | .linkDown _ => 0
  | .spdmRequest _ => 0
  | .gangSwitch _ => 0
  | .saveComplete _ => 0
  | .gangResume _ => 0
  | .supervisorRecovery _ => 0
  | .hang _ => 0
  | .selfTestResult _ _ => 0
  | .controlInterval _ => 0
  | .tcapUpdate _ => 0
  | .clockRaise _ => 0
  | .stackTemperature _ _ => 0
  | .registerWrite _ _ => 0
  | .claimCommand _ => 0
  | .handover _ => 0
  | .reset _ => 0
  | .load _ => 0
  | .policy _ => 0
  | .policyAddKey _ => 0
  | .launch _ => 0
  | .query _ => 0
  | .queryDevice _ => 0
  | .preempt _ => 0
  | .preemptResume _ => 0
  | .kill _ => 0
  | .dump _ => 0
  | .checkpoint _ => 0
  | .attest _ => 0
  | .update _ => 0
  | .coldReset => 0
  | .remotePackageAccess _ _ _ _ => 0
  | .softError _ _ _ => 0
  | .linkUp _ _ => 0
  | .powerOff => 0

/-- The bytes of an instruction as memory holds them, from its address up; none for a happening. -/
def encode (i : Instr) : List Byte :=
  if i.size = 0 then [] else wordBytes (8 * i.size) (encodeWord i)

end Sys2Proof
end

