-- ==== Sys2Proof/Machine/Happening.lean ====
section
/-! DEFINITION.
The happenings that can wait to be performed: the constructors of Instr that have no encoding, under the same names and
with the same operands.  (A type of its own, because the queue of the state holds nothing else.)
-/

namespace Sys2Proof.Machine

/-- A happening that waits to be performed. -/
inductive Happening where
  | deferredTrap (t : Nat)
  | checkerReissue (t : Nat)
  | memoryReply (t : Nat)
  | ownershipRecall (core : Nat) (addr : Nat)
  | l2Fill (slice : Nat) (cls : Nat) (addr : Nat)
  | mwaitTimeout (t : Nat)
  | tentFullTimeout (t : Nat)
  | unseal (t : Nat)
  | leaseExpiry (n : Nat)
  | leaseRevocation (n : Nat)
  | leaseRefusal (n : Nat)
  | windowBoundary
  | timeSync (time : Nat)
  | vectorAccept (tile : Nat)
  | vectorComplete (t : Nat)
  | engineCommandBegin (core : Nat) (eng : EngineSel)
  | engineCommandComplete (core : Nat) (eng : EngineSel)
  | engineCheckpointTimeout (core : Nat) (eng : EngineSel)
  | nredResult (home : Nat) (n : Nat)
  | nredYieldTimeout (home : Nat)
  | taskRecord (n : Nat)
  | headTake (home : Nat)
  | stealRequest (cluster : Nat) (home : Nat) (epoch : Nat)
  | dispenserDispatch (cluster : Nat)
  | thresholdUpdate (home : Nat)
  | creationNotice (n : Nat)
  | retirementNotice (n : Nat)
  | clusterQuiescent (cluster : Nat) (epoch : Nat)
  | childStatusWord (n : Nat)
  | launchComplete (epoch : Nat)
  | callArrival (n : Nat)
  | replyArrival (n : Nat)
  | ackArrival (n : Nat)
  | loneAcknowledgement (t : Nat)
  | callerTimer (t : Nat)
  | retractionTimer (unit : Nat) (n : Nat)
  | retractionPass (n : Nat)
  | migrationArrival (n : Nat)
  | messageArrival (n : Nat)
  | backPressureNak (n : Nat)
  | phaseRequest
  | programLoad (core : Nat) (epoch : Nat)
  | walkComplete (cluster : Nat) (n : Nat)
  | pageServiceComplete (n : Nat)
  | pageOut (epoch : Nat) (page : Nat)
  | pgshoot (cluster : Nat) (value : Nat)
  | shootdownComplete (cluster : Nat)
  | viewRegisterWrite (addr : Nat) (value : Nat)
  | wlenWrite (iodie : Nat) (value : Nat)
  | hotnessDecay (ctrl : Nat)
  | hostMemrd (port : Nat) (addr : Nat) (excl : Bool)
  | hostMemwr (port : Nat) (addr : Nat) (data : List Byte)
  | hostOwnershipRequest (port : Nat) (addr : Nat)
  | birspi (port : Nat) (addr : Nat)
  | expanderBisnp (addr : Nat)
  | biasFlipToHost (page : Nat)
  | biasFlipToDevice (page : Nat)
  | linkDown (port : Nat)
  | spdmRequest (req : List Byte)
  | gangSwitch (epoch : Nat)
  | saveComplete (epoch : Nat)
  | gangResume (epoch : Nat)
  | supervisorRecovery (core : Nat)
  | hang (core : Nat)
  | selfTestResult (core : Nat) (lasting : Bool)
  | controlInterval (cluster : Nat)
  | tcapUpdate (cluster : Nat)
  | clockRaise (tile : Nat)
  | stackTemperature (stack : Nat) (temp : Nat)
  | registerWrite (addr : Nat) (value : Nat)
  | claimCommand (m : Nat)
  | handover (m : Nat)
  | reset (m : Nat)
  | load (m : Nat)
  | policy (m : Nat)
  | policyAddKey (m : Nat)
  | launch (m : Nat)
  | query (m : Nat)
  | queryDevice (m : Nat)
  | preempt (m : Nat)
  | preemptResume (m : Nat)
  | kill (m : Nat)
  | dump (m : Nat)
  | checkpoint (m : Nat)
  | attest (m : Nat)
  | update (m : Nat)
  | coldReset
  | remotePackageAccess (op : ForeignOp) (pkg : Nat) (addr : Nat) (data : List Byte)
  | softError (site : ErrSite) (bit : Nat) (double : Bool)
  | linkUp (port : Nat) (rate : Nat)
  | powerOff
  deriving DecidableEq, Repr

end Sys2Proof.Machine

namespace Sys2Proof

/-- What the world outside and the free-running timers add to the happenings at the end of each step: any happening may
come at any time (log 3). -/
opaque Config.input : Nat → List Machine.Happening

end Sys2Proof
end

