-- ==== Sys2Proof/Machine/Table.lean ====
section
/-! DEFINITION.
Tables: finite maps from a number to data, held as lists in rising order of the number, and the canonical byte memory.

A table lists the entries something has written; reading another key gives the caller's default.
A memory lists the bytes that are not zero: what an unlisted address reads as is `Memory.background`.
-/

namespace Sys2Proof.Machine

/-- A finite map from a number to data, in rising order of the number. -/
abbrev Tab (α : Type) := List (Nat × α)

/-- What the table holds under a key, or the default. -/
def Tab.get {α : Type} (d : α) : Tab α → Nat → α
  | [], _ => d
  | (j, a) :: t, k => if j = k then a else Tab.get d t k

/-- The entry under a key, if one is listed. -/
def Tab.find {α : Type} : Tab α → Nat → Option α
  | [], _ => none
  | (j, a) :: t, k => if j = k then some a else Tab.find t k

/-- The table with the data under a key replaced. -/
def Tab.put {α : Type} : Tab α → Nat → α → Tab α
  | [], k, a => [(k, a)]
  | (j, b) :: t, k, a =>
    if k < j then (k, a) :: (j, b) :: t
    else if k = j then (k, a) :: t
    else (j, b) :: Tab.put t k a

/-- The table without the entry under a key. -/
def Tab.drop {α : Type} : Tab α → Nat → Tab α
  | [], _ => []
  | (j, a) :: t, k => if j = k then t else (j, a) :: Tab.drop t k

/-- A byte memory: the bytes that differ from the background, in rising order of address. -/
abbrev Memory := List (Nat × Byte)

/-- What a byte reads as when nothing has written it: zero (log 2). -/
def Memory.background : Byte := 0

/-- The canonical form: addresses strictly rising, no byte equal to the background. -/
def Memory.wf : Memory → Bool
  | [] => true
  | [(_, b)] => b != Memory.background
  | (i, b) :: (j, c) :: t => b != Memory.background && (i < j && Memory.wf ((j, c) :: t))

/-- The byte at an address. -/
def Memory.read : Memory → Nat → Byte
  | [], _ => Memory.background
  | (j, b) :: t, a => if j = a then b else if a < j then Memory.background else Memory.read t a

/-- The memory with one byte written; writing the background removes the entry. -/
def Memory.write : Memory → Nat → Byte → Memory
  | [], a, b => if b = Memory.background then [] else [(a, b)]
  | (j, c) :: t, a, b =>
    if a < j then (if b = Memory.background then (j, c) :: t else (a, b) :: (j, c) :: t)
    else if a = j then (if b = Memory.background then t else (a, b) :: t)
    else (j, c) :: Memory.write t a b

/-- n bytes from an address up. -/
def Memory.readN (m : Memory) (a : Nat) : Nat → List Byte
  | 0 => []
  | n + 1 => m.read a :: Memory.readN m (a + 1) n

/-- A byte list written from an address up. -/
def Memory.writeN (m : Memory) (a : Nat) : List Byte → Memory
  | [] => m
  | b :: t => Memory.writeN (m.write a b) (a + 1) t

/-- The number a byte list holds, little-endian (R4). -/
def leNat : List Byte → Nat
  | [] => 0
  | b :: t => b.toNat + 256 * leNat t

/-- The n low bytes of a number, little-endian (R4). -/
def leBytes : Nat → Nat → List Byte
  | 0, _ => []
  | n + 1, v => BitVec.ofNat 8 v :: leBytes n (v / 256)

end Sys2Proof.Machine
end

