-- ==== Sys2Proof/Machine/State.lean ====
section
/-! DEFINITION.
The state of the package, as plain data: everything INVENTORY.md lists under State, and the machine after reset.

Units are held in tables under the numbers of R26: a thread under its 24-bit local identifier, a core (compute, vent or
control) under the identifier of its thread 0, a cluster under DIE * 64 + CLUSTER, a home under P (0 to 511) or under
512 + m for the second-tier queue of memory port m.  A unit that no table lists is as reset leaves it.
Memory is keyed by PACKAGE * 2^44 + local address, first tier under its channel-local alias (R16, R20).
-/

namespace Sys2Proof.Machine

/-- The machine stops with one of these. -/
inductive Fault where
  /-- Raised by `step` when the package has no power and no cold reset is due (R356).  Safe: the machine stops. -/
  | powerOff
  deriving DecidableEq, Repr

/-- No meaning. -/
inductive Refusal where
  /-- Raised by an arm of `exec` that has no meaning yet.  Safe: the machine stops. -/
  | notModelled (mnemonic : String)
  deriving DecidableEq, Repr

/-- The trap causes (R334). -/
inductive Cause where
  | illegal | priv | window | align | physAbsent | class_ | fpe | trap | residue | check | mixsize | leaseExpired
  | barrier | tentBusy | tentFull | sinter | stream | poison | range | unclaimed | spmeta | mckSingle | mck | task
  | nearmem | rank | remoteSubset | remoteFault | remoteTrap | remoteTimeout | bias | hostatom | double | killed | hang
  deriving DecidableEq, Repr

/-! ## Threads -/

/-- A scalar or extension register: its value and its residue RES (R137). -/
structure Reg where
  val : Word
  res : BitVec 4
  deriving DecidableEq, Repr

/-- What a thread in WAIT waits for (R31). -/
inductive Wait where
  /-- a pending mark of a register its instruction names (R135) -/
  | mark
  /-- a dependency count to fall from 15 (R104), the engine's queue to have room (R31), commands that RELS, MCHK and the
  like name to complete (R243, R256), a fifth NRED to be possible (R275) -/
  | engine
  /-- a command issued with .s to complete (R31); pc is past it -/
  | command
  /-- WAITD (R270) -/
  | counts
  /-- CLAIM (R242) -/
  | claim
  /-- MWAIT (R205) -/
  | monitor
  /-- BARW, on the dword at a key (R207) -/
  | barrier (key : Nat)
  /-- JOIN, on the dword at a key (R283) -/
  | join (key : Nat)
  /-- RCALL, until its outcome (R286) -/
  | call
  /-- SPAWN to a full queue (R43) -/
  | spawn
  /-- SPAWN until its home accepts the record (R280); pc is past it -/
  | accept
  /-- TSTW or TSTD to a full pair buffer (R211) -/
  | pairBuffer
  /-- the service of the page whose leaf lies at a key (R313) -/
  | page (leafAt : Nat)
  /-- a write to a sealed sinter region (R174) -/
  | sealed
  /-- a demand access to an armed compute region (R194) -/
  | armed
  /-- SCPY with a saturated copy count (R173) -/
  | copies
  /-- a vector input position, datapath or iterative pipe (R222, R37), or the completion of the vector instruction -/
  | vector
  /-- a release: a window boundary (R176) or bias flips (R326) -/
  | fence
  /-- the completion of PHASE (R296); pc is past it -/
  | phase
  /-- RECV (R295) -/
  | recv
  /-- SEND until the message is accepted (R294) -/
  | send
  /-- the result of an NRED with SYNC (R275); pc is past it -/
  | nred
  /-- a memory reply: a host's answer, another package, a page in transition (R31, R322, R327) -/
  | memory
  /-- a page walk (R308) -/
  | walk
  /-- the sector at a key to arrive at its L2 home (R167, R180) -/
  | fill (key : Nat)
  /-- DONE or WFW before it takes effect (R381) -/
  | ending
  /-- a self-test of the core (R354) or a gang switch (R339) -/
  | stopped
  deriving DecidableEq, Repr

/-- The states of R30.  HELD is a READY or WAIT thread whose slot is removed, so it is not a state of its own. -/
inductive Status where
  | idle
  | ready
  | wait (w : Wait)
  | wfw
  deriving DecidableEq, Repr

/-- An address monitor (R203, R340): the memory key of its dword, armed, latch. -/
structure Monitor where
  addr  : Nat
  armed : Bool
  latch : Bool
  deriving DecidableEq, Repr

/-- What kind of work a thread runs (R59, R284). -/
inductive Job where
  /-- an anchored task: its home and SEQ, near body or far body -/
  | task (home seq : Nat) (far : Bool)
  /-- a deque child with its join word -/
  | child (join : Word)
  deriving DecidableEq, Repr

/-- The current work record: what it is, and its origin cluster (R55). -/
structure Work where
  job    : Job
  origin : Nat
  deriving DecidableEq, Repr

/-- A call a thread serves (R287, R288): caller, identifier, epoch, origin, and the cluster it is confined to. -/
structure Callee where
  caller  : Nat
  callId  : BitVec 16
  epoch   : BitVec 16
  origin  : Nat
  confine : Nat
  deriving DecidableEq, Repr

/-- A caller's outstanding call (R286, R290). -/
structure OutCall where
  callId  : BitVec 16
  target  : Word
  unit    : Nat
  entry   : Word
  payload : List Word
  origin  : Nat
  sync    : Bool
  pc      : Word
  resends : Nat
  /-- gtime at which its timer expires (R290). -/
  due     : Nat
  /-- The limit in ns and the number of resends, from rcto and rcretry as they stood at issue (R153). -/
  limit   : Nat
  retries : Nat
  deriving DecidableEq, Repr

/-- A message in a mailbox or among the late messages (R294, R340): kind 1 is a message, kind 2 a reply, which is among the late
messages only (the codes: log 16). -/
structure Mail where
  kind   : Nat
  sender : Word
  body   : BitVec 512
  deriving DecidableEq, Repr

/-- A bias request (R326): the page's effective address, the target bias, the identifier of its flip once it has reached the
home, and its outcome once it has one. -/
structure BiasReq where
  ea      : Word
  toHost  : Bool
  key     : Option Nat
  /-- The page it waits for: its leaf's key (R313). -/
  page    : Option Nat
  outcome : Option Bool
  deriving DecidableEq, Repr

/-- A cause waiting for the thread's next instruction boundary (R11): code, tval, and the pc and identifier of a parked
command. -/
structure Deferred where
  cause  : Cause
  tval   : Word
  parked : Option Word
  cmd    : Option Nat
  deriving DecidableEq, Repr

/-- An inline child that is open, as FORK left it (R282, R284): s12, s14 and s15, and the four dwords saved. -/
structure Inline where
  join  : Word
  top   : Word
  back  : Word
  saved : Vector Word 4
  deriving DecidableEq, Repr

/-- One hardware thread: travelling and resident context (R29, R96) and what waits on its behalf. -/
structure Thread where
  regs    : Vector Reg 16
  pc      : Word
  trapm   : Bool
  supv    : Bool
  remote  : Bool
  dbg     : Bool
  epoch   : BitVec 16
  pend    : BitVec 16
  win     : Vector (BitVec 128) 8
  ext     : Vector Reg 8
  dep     : Vector (BitVec 4) 4
  vec     : Vector VecReg 8
  msk     : Vector MaskReg 8
  fpctl   : Word
  mon     : Vector Monitor 4
  str     : Vector (BitVec 512) 4
  tcause  : Word
  epc     : Word
  tval    : Word
  tvec    : Word
  rcto    : BitVec 32
  rcretry : BitVec 4
  dbgdrop : BitVec 16
  sticky  : BitVec 4
  status  : Status
  /-- Pages that the thread's parked commands wait for (R246). -/
  pages   : List Nat
  work    : Option Work
  callee  : Option Callee
  callId  : BitVec 16
  call    : Option OutCall
  /-- Acknowledgements owed (R290): the unit and the call, oldest first. -/
  acks    : List (Nat × BitVec 16)
  mail    : List Mail
  isSealed : Bool
  late    : List Mail
  bias    : List BiasReq
  lease   : Option Word
  causes  : List Deferred
  /-- Window number of the latest write to another package's memory, while a release must still wait for it (R176). -/
  window  : Option Nat
  /-- The instruction at pc has mismatched once in the checker (R139). -/
  reissue : Bool
  /-- The vector unit has accepted the waiting instruction (R222); its long-latency instruction has completed (R223). -/
  taken   : Bool
  finished : Bool
  /-- MWAIT's limit has passed (R205), or TST's 4,096 cycles (R211). -/
  expired : Bool
  /-- The reply, grant or acknowledgement that the waiting access needs has come (R31, R164). -/
  answered : Bool
  /-- gtime at which the present wait began, where R347 bounds it. -/
  since   : Option Nat
  /-- The wait in which the present instruction, which is not over, was last: nothing before it has waited (R69, R217, R238). -/
  begun   : Option Wait
  /-- NREDs issued and not yet written (R275). -/
  nreds   : Nat
  /-- The command an .s instruction waits for (R31). -/
  sync    : Option Nat
  /-- Dependency slots whose commands with REL have completed and have not been observed yet (R171). -/
  relDone : BitVec 4
  /-- The command whose halt made the record in e6 (R103, R243). -/
  record  : Option Nat
  /-- Open inline children, innermost first: what R284 says a child must not change. -/
  inlines : List Inline
  deriving DecidableEq, Repr

/-! ## Cores -/

/-- Checksum state of an accumulator (R250). -/
inductive CkState where
  | none | zero | i32 | f32 | f64
  deriving DecidableEq, Repr

/-- The check report of an accumulator (R258): exceeding rows and columns, SINGLE, MULTI, the two residues. -/
structure Report where
  row    : Nat
  col    : Nat
  single : Bool
  multi  : Bool
  nrows  : Nat
  ncols  : Nat
  rho    : Word
  sigma  : Word
  deriving DecidableEq, Repr

/-- An accumulator's checksum pair (R250): state and predictions, as bit patterns of the prediction format. -/
structure Checks where
  state : CkState
  rows  : Vector Word 16
  cols  : Vector Word 16
  deriving DecidableEq, Repr

/-- An accumulator (R96, R240): contents, checksum pair, report, shadow copy of contents and pair. -/
structure Acc where
  bits   : Block
  checks : Checks
  report : Option Report
  shadow : Block × Checks
  deriving DecidableEq, Repr

/-- An engine command with the snapshots it took at issue (R104, R244, R271). -/
structure Command where
  id     : Nat
  thread : Nat
  op     : Instr
  pc     : Word
  epoch  : BitVec 16
  /-- Identifiers of the earlier commands it waits for (R104). -/
  deps   : List Nat
  setd   : Option Nat
  win    : Vector (BitVec 128) 8
  ext    : Vector Word 8
  dst    : BitVec 512
  src    : BitVec 512
  vmeta  : VecReg
  /-- First key of the sealed region whose copy count an SCPY holds (R216). -/
  sealedAt : Option Nat
  /-- The page, by its leaf's key, whose service the command has waited for (R313, R314). -/
  waited : Option Nat
  deriving DecidableEq, Repr

/-- A parked command (R246): the cause it met, or the page it waits for; its cause has been taken, and RTE puts it back. -/
structure Parked where
  cmd   : Command
  cause : Option Deferred
  page  : Option Nat
  handled : Bool
  deriving DecidableEq, Repr

/-- A matrix or copy engine (R31, R244, R246), and gtime at which the running command began (R347). -/
structure Engine where
  running : Option Command
  queue   : List Command
  parked  : List Parked
  since   : Nat
  deriving DecidableEq, Repr

/-- Who comes after an access to operand memory: a thread, an engine command by its identifier, a thread once it has
observed a dependency slot (R171), or whoever acquires, since somebody who comes after it has released (R182, log 19). -/
inductive Actor where
  | thread (t : Nat)
  | cmd (id : Nat)
  | slot (t n : Nat)
  | released
  deriving DecidableEq, Repr

/-- Bytes of an operand slot (0 to 31) or accumulator (32 to 39) that an access through the on-chip map, or a matrix command
that has completed, has touched, and who is ordered after it (R25, log 30). -/
structure Touch where
  matrix : Bool
  actor  : Actor
  res    : Nat
  first  : Nat
  len    : Nat
  write  : Bool
  after  : List Actor
  deriving DecidableEq, Repr

/-- An entry of a deque (R40). -/
structure Child where
  entry  : Word
  args   : Vector Word 4
  join   : Word
  origin : Nat
  epoch  : BitVec 16
  deriving DecidableEq, Repr

/-- A word of an L1 (R164): value, owned by this core, dirty bytes, held under an NC page, the thread that wrote the dirty
bytes (R168). -/
structure L1Word where
  val   : BitVec 32
  owned : Bool
  dirty : BitVec 4
  nc    : Bool
  writer : Nat
  deriving DecidableEq, Repr

/-- A claim that waits (R242): the thread and the resources its CLAIM names. -/
structure Waiting where
  thread : Nat
  set    : List Nat
  deriving DecidableEq, Repr

/-- The hint in force on a core (R365). -/
inductive Hint where
  | none | comp | mem | wait
  deriving DecidableEq, Repr

/-- A word that holds an uncorrectable error (R353). -/
inductive Place where
  | mem (dword : Nat)
  /-- The former value of the tentative cell at a key, in its pair-buffer entry. -/
  | pair (key : Nat)
  | tile (core dword : Nat)
  | slot (core n dword : Nat)
  | acc (core n dword : Nat)
  | vec (thread n dword : Nat)
  | msk (thread n dword : Nat)
  deriving DecidableEq, Repr

/-- An error whose self-test has not ended (R354): the event's kind, code, unit, address and time, and, for storage, the word
under test (in memory its line of 64 bytes), for which accesses to it wait. -/
structure Suspect where
  kind : Nat
  code : Nat
  unit : Nat
  addr : Word
  time : Nat
  place : Option Place
  deriving DecidableEq, Repr

/-- A compute core, vent core or control core. -/
structure Core where
  cycle   : Nat
  slots   : Vector Block 32
  accs    : Vector Acc 8
  claims  : Vector (Option Nat) 40
  waiting : List Waiting
  matrix  : Engine
  copy    : Engine
  /-- What has touched operand memory since each resource was last claimed (R25). -/
  touches : List Touch
  deque   : List Child
  l1      : Tab L1Word
  /-- Words that the core's threads have loaded ahead of the loads that will return them, and whether PREFL read them in NC
  memory (R160, R191, log 12). -/
  ahead   : Tab (BitVec 32 × Bool)
  /-- The instruction store (32 KiB), and the address its first byte was loaded for (R69, log 5). -/
  istore  : Memory
  ibase   : Word
  /-- The tile-memory partition or the vent local memory (R23). -/
  tile    : Memory
  hint    : Hint
  removed : BitVec 8
  stopped : Bool
  /-- The store has failed its parity and is to be reloaded from the image that firmware keeps (R352). -/
  reload  : Bool
  killed  : Bool
  /-- The epoch it was killed under; 0 for a core that ran no launch (R351). -/
  killedIn : BitVec 16
  /-- Its error was classified lasting (R351, R354). -/
  lasting : Bool
  /-- Its datapaths are under test: its threads stand still (R354). -/
  testing : Bool
  suspects : List Suspect
  /-- A vent core's one iterative pipe, and its vector datapath, are held by these threads (R37). -/
  pipe    : Option Nat
  datapath : Option Nat
  deriving DecidableEq, Repr

/-- What a tile's cores share (R222, R223, R362): the rotating pointer, the threads that wait to present an instruction in
the order they came, whether it needs the iterative pipe and the event it counts as, the thread holding that pipe, and the tile's operating point, the point a raise in
progress goes to, the target of the last interval boundary, and the sensor's last reading. -/
structure Tile where
  pointer : Nat
  queue   : List (Nat × Bool × Nat)
  pipe    : Option Nat
  point   : Nat
  raising : Option Nat
  wanted  : Nat
  temp    : Nat
  deriving DecidableEq, Repr

/-! ## Servers of calls: vent cores and clusters -/

/-- A remote call on its way or waiting (R286), and the acknowledgements to its unit that ride on it (R290). -/
structure Call where
  caller  : Nat
  callId  : BitVec 16
  epoch   : BitVec 16
  origin  : Nat
  unit    : Nat
  target  : Word
  entry   : Word
  payload : List Word
  acks    : List (BitVec 16)
  deriving DecidableEq, Repr

/-- The outcome of a call (R286, R288). -/
inductive Answer where
  | reply (vals : List Word)
  | status (cause : Cause) (tval : Word)
  deriving DecidableEq, Repr

/-- A reply-cache entry (R290): the answer, or the unit the call was forwarded to; while neither, it is running. -/
structure Cached where
  caller  : Nat
  callId  : BitVec 16
  epoch   : BitVec 16
  answer  : Option Answer
  forward : Option Call
  /-- The unit that forwarded the call here, which the acknowledgement is passed back to. -/
  back    : Option Nat
  /-- Keys of the cells tentative under the call (R288). -/
  cells   : List Nat
  /-- gtime at which the unit retracts without an acknowledgement (R290). -/
  due     : Nat
  deriving DecidableEq, Repr

/-- A unit that serves calls (R287, R290): its threads in WFW by entry, the calls that wait, the reply cache. -/
structure Server where
  order : List Nat
  calls : List Call
  cache : List Cached
  deriving DecidableEq, Repr

/-! ## Clusters -/

/-- Counts of one launch at one origin cluster (R65 to R67). -/
structure Counts where
  unretired : Nat
  completed : Nat
  failed    : Nat
  /-- Fault code and gtime of the earliest failed retirement (R337). -/
  fault     : Option (Nat × Nat)
  /-- Status words of the geyser-tree children that have reported. -/
  heard     : List Word
  reported  : Bool
  deriving DecidableEq, Repr

/-- A translation held by a pager (R305): the root slot it came from, its epoch, page base, size in bytes and leaf. -/
structure Held where
  slot : Nat
  epoch : BitVec 16
  base : Nat
  size : Nat
  leaf : Word
  /-- The sixteen entries of a 64 KiB page differ (R302). -/
  mixed : Bool
  deriving DecidableEq, Repr

/-- A walk in progress (R308): virtual address, epoch, GEN at its start. -/
structure Walk where
  va    : Nat
  epoch : BitVec 16
  gen   : BitVec 32
  deriving DecidableEq, Repr

/-- The answer of a completed walk that the cache may not hold: an invalid entry, or a page not present with its entry's key. -/
structure Walked where
  va     : Nat
  epoch  : BitVec 16
  answer : Option (Word × Nat)
  deriving DecidableEq, Repr

/-- A pager (R300 to R307): 16 roots, GEN, BUSY, pending shootdowns, the translation cache (most recent first). -/
structure Pager where
  roots : Vector Word 16
  gen   : BitVec 32
  busy  : Bool
  shots : List Word
  cache : List Held
  walks : List Walk
  walked : List Walked
  /-- Leaves that have been filled since their last shootdown, and those that the shootdown in progress names: the pages
  whose lines keep their homes until it completes (R309, R310). -/
  known : List Held
  going : List Held
  deriving DecidableEq, Repr

/-- The power controller of a cluster (R361 to R368). -/
structure Power where
  cfg    : Word
  therm  : Word
  est    : BitVec 32
  level  : Nat
  trip   : Bool
  ceil   : Nat
  quiet  : Nat
  tcap   : BitVec 32
  tmax   : Nat
  static : BitVec 32
  wgt    : Vector Word 12
  req    : Vector (BitVec 16) 16
  counts : Vector (BitVec 16) 48
  /-- Intervals since reset, modulo 16 (R363). -/
  phase  : Nat
  /-- An update of TCAP that is due: T and pwtherm at the end of the sixteenth interval (R363). -/
  capDue : Option (Nat × Word)
  deriving DecidableEq, Repr

/-- A cluster: dispenser, event queue, pager, matrix and watchdog registers, power controller. -/
structure Cluster where
  /-- Rotating pointers of R58 for steps 2, 4 and 5, and the homes that refused a steal since their last change. -/
  ptr2    : Nat
  ptr4    : Nat
  ptr5    : Nat
  refused : List Nat
  counts  : Tab Counts
  evq     : Tab (BitVec 256)
  evhead  : Nat
  evtail  : Nat
  evlost  : BitVec 32
  pager   : Pager
  mcRetry : BitVec 3
  replays : BitVec 32
  mcks    : BitVec 32
  wdog    : BitVec 16
  power   : Power
  deriving DecidableEq, Repr

/-! ## Homes -/

/-- A task record (R42). -/
structure Task where
  anchor  : Word
  length  : Nat
  /-- Device-virtual address of the range's first byte: ranges of one epoch share bytes where these do (R45). -/
  va      : Nat
  nearPc  : Word
  farPc   : Word
  args    : Vector Word 4
  restart : Bool
  free    : Bool
  seq     : BitVec 32
  epoch   : BitVec 16
  origin  : Nat
  running : Bool
  /-- The thread that runs it. -/
  runner  : Option Nat
  deriving DecidableEq, Repr

/-- An entry of a merge log (R208). -/
structure Dupd where
  key   : Nat
  minor : BitVec 4
  dword : Bool
  val   : Word
  epoch : BitVec 16
  deriving DecidableEq, Repr

/-- An NRED that has issued and not yet been answered (R275). -/
structure Nred where
  id     : Nat
  thread : Nat
  dst    : BitVec 4
  op     : Nat
  fmt    : Nat
  count  : Nat
  key    : Nat
  ea     : Word
  acq    : Bool
  rel    : Bool
  deps   : List Nat
  setd   : Option Nat
  sync   : Bool
  scope  : Nat
  /-- GEN of its pager when its address was translated (R307). -/
  gen    : BitVec 32
  /-- Elements of it lie in a 64 KiB page whose sixteen entries differ (R302). -/
  mixed  : Bool
  deriving DecidableEq, Repr

/-- A home: anchored queue, merge log, armed regions, reduction tree (R43 to R52, R208, R273 to R278). -/
structure Home where
  cfg    : Word
  teff   : BitVec 8
  mean   : Nat
  seq    : BitVec 32
  queue  : List Task
  log    : List Dupd
  /-- Targets of entries merged before their launch's PHASE: key, bytes, epoch (R209). -/
  early  : List (Nat × Nat × BitVec 16)
  /-- First key and length of each armed region. -/
  armed  : List (Nat × Nat)
  nreds  : List Nred
  bound  : BitVec 16
  replays : BitVec 32
  deriving DecidableEq, Repr

/-! ## Memory-side bookkeeping -/

/-- A tentative cell (R211): key, size, former value, owner thread and epoch, observed. -/
structure Cell where
  key    : Nat
  size   : Nat
  former : Word
  owner  : Nat
  epoch  : BitVec 16
  seen   : Bool
  /-- The slice that holds its pair-buffer entry. -/
  slice  : Nat
  /-- The effective address its owner wrote it at, which a dump names (R348). -/
  ea     : Word
  /-- Its unit has retracted it, and the write of the former value waits for copies of sealed bytes (R174). -/
  leaving : Bool
  deriving DecidableEq, Repr

/-- A strong access that the homes remember (R170): its bytes, its agent, whether that agent has since released, the agents
that have read what it wrote, and those that come after it: they have acquired after such a release or such a reading
(R182, log 20). -/
structure Strong where
  key      : Nat
  size     : Nat
  agent    : Nat
  released : Bool
  read     : List Nat
  seen     : List Nat
  deriving DecidableEq, Repr

/-- A sealed sinter region (R173): die, the runs of bytes it consists of (first key and length), copy count. -/
structure Sinter where
  die    : Nat
  parts  : List (Nat × Nat)
  copies : Nat
  deriving DecidableEq, Repr

/-- A line of 512 bytes held at an L2 home slice (R167, R180): slice, set, way, first key, and which of its sectors of 32 bytes
are valid. -/
structure Line where
  slice : Nat
  set   : Nat
  way   : Nat
  key   : Nat
  valid : BitVec 16
  deriving DecidableEq, Repr

/-- Registers of one residency schedule entry (R179). -/
structure Sched where
  base : Word
  lim  : Word
  ctl  : Word
  deriving DecidableEq, Repr

/-- A format view of a memory controller (R92). -/
structure View where
  cfg   : Word
  base  : Word
  len   : Word
  scale : Word
  deriving DecidableEq, Repr

/-- A write lease (R177): word key, dword or word, grantee and granter packages, expiry, value at the grant, the value the
holder has made of it, revoked at the home. -/
structure Lease where
  key     : Nat
  dword   : Bool
  holder  : Nat
  expiry  : Nat
  granted : Word
  val     : Word
  /-- The effective address the holder used. -/
  ea      : Word
  revoked : Bool
  deriving DecidableEq, Repr

/-- A line a host holds (R322, R325): port, line key, bytes, exclusive, modified. -/
structure HostLine where
  port  : Nat
  key   : Nat
  data  : List Byte
  excl  : Bool
  dirty : Bool
  deriving DecidableEq, Repr

/-- A bias flip at its home (R326 to R328): identifier, page (4 KiB frame number), target, step reached; 0 waits for its
turn. -/
structure Flip where
  id     : Nat
  page   : Nat
  toHost : Bool
  step   : Nat
  deriving DecidableEq, Repr

/-! ## In flight -/

/-- A notice of R65 on its way to an origin cluster: its sender, the launch, when it is a retirement its fault code
(0 completed), gtime, and the step it was sent in, which orders the notices of one unit. -/
structure Notice where
  sender  : Nat
  cluster : Nat
  epoch   : BitVec 16
  code    : Nat
  time    : Nat
  tick    : Nat
  deriving DecidableEq, Repr

/-- A reply, acknowledgement or retraction on its way (R286, R290). -/
structure CallMsg where
  unit   : Nat
  caller : Nat
  callId : BitVec 16
  answer : Option Answer
  deriving DecidableEq, Repr

/-- A message on its way to a rank (R294): `rank` is s_a as SEND had it, whose bits 31:0 name the rank; `saved`: it was saved in a
gang switch and has been sent again, before any new one (R341). -/
structure Msg where
  sender : Nat
  rank   : Word
  target : Nat
  body   : BitVec 512
  saved  : Bool
  deriving DecidableEq, Repr

/-- A migrating context (R292): the thread as it left, and the cluster it goes to. -/
structure Migrant where
  ctx     : Thread
  source  : Nat
  cluster : Nat
  deriving DecidableEq, Repr

/-- A page service in progress (R313): epoch, page address, its leaf entry's key, who waits. -/
structure Service where
  epoch : BitVec 16
  page  : Nat
  leafAt : Nat
  deriving DecidableEq, Repr

/-- Everything on its way between units. -/
structure Net where
  /-- Task records: home, spawning thread, record. -/
  tasks    : List (Nat × Nat × Task)
  creates  : List Notice
  retires  : List Notice
  words    : List (Nat × Nat × BitVec 16 × Word)
  calls    : List Call
  replies  : List CallMsg
  acks     : List CallMsg
  retracts : List CallMsg
  migrants : List Migrant
  msgs     : List Msg
  naks     : List Msg
  phases   : List Nat
  services : List Service
  refusals : List Lease
  deriving DecidableEq, Repr

/-! ## Firmware and host -/

/-- An image held by firmware (R374): handle, bytes, page records by range index, digest (R377), and the local page number
at which a range that a view reads has been placed (R131, log 14). -/
structure Image where
  handle : Nat
  bytes  : List Byte
  policy : Tab Word
  digest : List Byte
  placed : Tab Nat
  deriving DecidableEq, Repr

/-- State of a launch (R374, QUERY). -/
inductive Phase where
  | running | switching | out | complete
  deriving DecidableEq, Repr

/-- A declared or window-image range of a launch (R311): page address, pages, faultable, page record. -/
structure Range where
  base    : Nat
  pages   : Nat
  faulting : Bool
  record  : Word
  /-- Key of the backing store's first byte. -/
  backing : Nat
  deriving DecidableEq, Repr

/-- A root task whose anchor waits for its page (R382): body-pair record, anchor, length, arguments, origin. -/
structure Root where
  taskEa : Word
  anchor : Word
  length : Word
  args   : Vector Word 4
  origin : Nat
  /-- The page it waits for: its leaf's key. -/
  page   : Option Nat
  deriving DecidableEq, Repr

/-- A join word that failed work has still to decrement, when its page has been made present (R313, R335, R350): the windows and
the unit it is reached with, its address, the page's leaf entry (0 for a home that is busy), the origin and code of the retirement
that follows, and the code of the work's end. -/
structure JoinLeft where
  wins   : Vector (BitVec 128) 8
  unit   : Nat
  ea     : Word
  page   : Nat
  notice : Option (Nat × Nat)
  code   : Nat
  deriving DecidableEq, Repr

/-- The save of a switched-out partition (R340 to R342): its vent threads, and the messages that left the network.  The
blocks of compute and control threads and of cores stay where they are, since nothing else uses them meanwhile; their
bytes are in the save area (log 14). -/
structure Saved where
  threads : Tab Thread
  net     : Net
  deriving DecidableEq, Repr

/-- A launch (R61 to R64). -/
structure Launch where
  /-- The master that issued LAUNCH. -/
  master   : Nat
  epoch    : BitVec 16
  slot     : Nat
  /-- Clusters in geyser order: package, then DIE * 64 + CLUSTER. -/
  clusters : List (Nat × Nat)
  windows  : Vector (BitVec 128) 8
  dequeDom : Nat
  anchorDom : Nat
  dbg      : Bool
  supervisor : Option Word
  image    : Nat
  ranges   : List Range
  /-- Frames taken for the launch's table, pages and save area, as local page numbers (local address / 4,096). -/
  frames   : List Nat
  packages : List Nat
  roots    : List Root
  joins    : List JoinLeft
  /-- Frames of the save area. -/
  area     : List Nat
  phase    : Phase
  tau      : Option Nat
  compAt   : Nat
  vector   : Nat
  word     : Option Word
  /-- State records of the dump area, each with its unit (R348). -/
  records  : List (Nat × List Byte)
  dumpFull : Bool
  chain    : List (Nat × Nat × Nat × Nat × Nat × Nat)
  saved    : Option Saved
  deriving DecidableEq, Repr

/-- A command window (R370). -/
structure Window where
  opcode : BitVec 8
  args   : Vector Word 6
  code   : BitVec 16
  busy   : Bool
  result0 : Word
  result1 : Word
  deriving DecidableEq, Repr

/-- An SPDM exchange with this device as the responder (R377): how many of GET_VERSION, GET_CAPABILITIES and
NEGOTIATE_ALGORITHMS have been answered; the messages that the next signatures cover: those of these three, those of the
digests and certificates, and those of measurements since the last signature. -/
structure Spdm where
  level : Nat
  start : List Byte
  certs : List Byte
  meas  : List Byte
  deriving DecidableEq, Repr

/-- Firmware on the management processor (R371 to R379). -/
structure Firmware where
  windows : Vector Window 4
  /-- Masters whose GO waits, in order of arrival (R371). -/
  pending : List Nat
  owner   : Option Nat
  images  : List Image
  nextHandle : Nat
  keys    : List (List Byte)
  running : List Byte
  staged  : Option (List Byte)
  launches : List Launch
  lastEpoch : BitVec 16
  /-- MSI-X raised: master and vector, latest first (R371, R375). -/
  msix    : List (Nat × Nat)
  /-- SPDM messages answered, latest first, and the exchange in progress (R377). -/
  spdm    : List (List Byte)
  exchange : Spdm
  /-- Frames that firmware keeps for itself: first local page number and number of pages (log 14). -/
  reserved : List (Nat × Nat)
  deriving DecidableEq, Repr

/-! ## The package -/

/-- Host ports, bias, snoop filter and leases. -/
structure HostSide where
  /-- Link of each CXL port is up, and its rate in GT/s (R321, R373): host ports 0 and 1, then memory ports 0 to 3. -/
  up     : Vector Bool 6
  rate   : Vector Nat 6
  /-- Lanes of each port's link: 16, or 8 or 4 when degraded (R321). -/
  width  : Vector Nat 6
  /-- Pages (4 KiB frame numbers) in host bias (R324). -/
  bias   : List Nat
  flips  : List Flip
  /-- Lines the hosts hold; the snoop filter of R322 is the list of their ports and keys. -/
  lines  : List HostLine
  /-- Lines a back-invalidate waits an answer for. -/
  snoops : List (Nat × Nat)
  /-- Line keys a host read, with the time (R329). -/
  reads  : Tab Nat
  held   : List Lease
  given  : List Lease
  /-- Host memory that the hosts have mapped: first local page number and number of pages (R17, log 13). -/
  mapped : List (Nat × Nat)
  deriving DecidableEq, Repr

/-- The machine. -/
structure State where
  /-- Thread whose instruction `exec` runs; happenings waiting to be performed; steps taken; free values used (logs 3, 11). -/
  cur      : Nat
  agenda   : List Happening
  tick     : Nat
  fresh    : Nat
  powered  : Bool
  package  : Nat
  gtime    : Nat
  synced   : Bool
  mem      : Memory
  threads  : Tab Thread
  cores    : Tab Core
  tiles    : Tab Tile
  clusters : Tab Cluster
  /-- Under DIE * 64 + CLUSTER for a cluster, under 4096 + P for a vent core. -/
  servers  : Tab Server
  homes    : Tab Home
  /-- Stack pagers (R300) and thermal registers (R364). -/
  pagers   : Tab Pager
  stthm    : Tab Word
  /-- Phase counters under die * 16 + slot (R181). -/
  phases   : Tab (BitVec 32)
  sched    : Tab Sched
  sealed   : List Sinter
  cells    : List Cell
  strong   : List Strong
  lines    : List Line
  /-- Decoded view lines: view-space local address of the line and its 64 bytes (R94). -/
  decoded  : Tab (List Byte)
  views    : Tab View
  /-- Hotness counters under (block * 8 + class), and hotctl of each controller (R319, R320). -/
  hot      : Tab (BitVec 16)
  hotctl   : Tab Word
  pgsub    : Vector Word 16
  /-- First-touch homes: 512-byte block number and cluster (R309). -/
  touched  : Tab Nat
  /-- The subset register that the homes of a page's lines follow until a shootdown of it: 4 KiB frame, value (R309, R310). -/
  homed    : Tab Word
  wlen     : Vector (BitVec 5) 2
  /-- Rank tables: epoch * 2^32 + rank (R293). -/
  ranks    : Tab Word
  poison   : List Place
  net      : Net
  host     : HostSide
  fw       : Firmware
  deriving DecidableEq, Repr

/-! ## Reset (R379, and the reset columns of the register maps) -/

/-- A register that holds zero, with its residue (R137, log 1). -/
def Reg.zero : Reg := ⟨0, 0⟩

/-- A thread in which nothing has been loaded.  Registers without a reset value hold 0 (log 1). -/
def Thread.initial : Thread where
  regs := Vector.replicate 16 Reg.zero
  pc := 0
  trapm := false
  supv := false
  remote := false
  dbg := false
  epoch := 0
  pend := 0
  win := Vector.replicate 8 0
  ext := Vector.replicate 8 Reg.zero
  dep := Vector.replicate 4 0
  vec := Vector.replicate 8 0
  msk := Vector.replicate 8 0
  fpctl := 0
  mon := Vector.replicate 4 ⟨0, false, false⟩
  str := Vector.replicate 4 0
  tcause := 0
  epc := 0
  tval := 0
  tvec := 0
  rcto := 20000
  rcretry := 3
  dbgdrop := 0
  sticky := 0
  status := .idle
  pages := []
  work := none
  callee := none
  callId := 0
  call := none
  acks := []
  mail := []
  isSealed := false
  late := []
  bias := []
  lease := none
  causes := []
  window := none
  reissue := false
  taken := false
  finished := false
  expired := false
  answered := false
  since := none
  begun := none
  nreds := 0
  sync := none
  relDone := 0
  record := none
  inlines := []

/-- A thread after reset, by its local identifier (R26): a vent thread is in WFW (R383), every other is IDLE. -/
def Thread.atReset (t : Nat) : Thread :=
  if t / 0x200000 = 2 then { Thread.initial with status := .wfw } else Thread.initial

/-- No predictions. -/
def Checks.none : Checks := ⟨.none, Vector.replicate 16 0, Vector.replicate 16 0⟩

/-- An accumulator with nothing in it. -/
def Acc.initial : Acc := ⟨0, Checks.none, Option.none, (0, Checks.none)⟩

/-- An engine with nothing to do. -/
def Engine.idle : Engine := ⟨none, [], [], 0⟩

/-- A core after reset (log 1). -/
def Core.initial : Core where
  cycle := 0
  slots := Vector.replicate 32 0
  accs := Vector.replicate 8 Acc.initial
  claims := Vector.replicate 40 none
  waiting := []
  matrix := Engine.idle
  copy := Engine.idle
  touches := []
  deque := []
  l1 := []
  ahead := []
  istore := []
  ibase := 0
  tile := []
  hint := .none
  removed := 0
  stopped := false
  reload := false
  killed := false
  killedIn := 0
  lasting := false
  testing := false
  suspects := []
  pipe := none
  datapath := none

/-- A tile after reset: CEIL is 0, so its point is P0 (R361, R362, log 1). -/
def Tile.initial : Tile := ⟨0, [], none, 0, none, 0, 0⟩

/-- No calls, nobody in WFW. -/
def Server.initial : Server := ⟨[], [], []⟩

/-- A server after reset: a vent core's eight threads entered WFW in ascending number (R383). -/
def Server.atReset (k : Nat) : Server :=
  if 4096 ≤ k then
    { Server.initial with order := (List.range 8).map fun n => 0x400000 + (k - 4096) * 0x1000 + n }
  else Server.initial

/-- Nothing counted. -/
def Counts.initial : Counts := ⟨0, 0, 0, none, [], false⟩

/-- A pager after reset (R301, R306). -/
def Pager.initial : Pager := ⟨Vector.replicate 16 0, 0, false, [], [], [], [], [], []⟩

/-- A power controller after reset (R361, R363, R368). -/
def Power.initial : Power where
  cfg := 0x1 <<< 48 ||| 0x3 <<< 45 ||| 0x1 <<< 44 ||| 0x1 <<< 43 ||| 0x6 <<< 40 ||| 0x20 <<< 32
    ||| Config.ccap.setWidth 64
  therm := Config.tcapmin.setWidth 64 <<< 32 ||| Config.ttrip.setWidth 64 <<< 20 ||| 0x10 <<< 10
    ||| Config.tlim.setWidth 64
  est := 0
  level := 0
  trip := false
  ceil := 0
  quiet := 0
  tcap := 0xFFFFFFFF
  tmax := 0
  static := Config.static
  wgt := Vector.ofFn fun n => (Config.weights n.val).setWidth 64
  req := Vector.replicate 16 0x7777
  counts := Vector.replicate 48 0
  phase := 0
  capDue := none

/-- A cluster after reset. -/
def Cluster.initial : Cluster where
  ptr2 := 0
  ptr4 := 0
  ptr5 := 0
  refused := []
  counts := []
  evq := []
  evhead := 0
  evtail := 0
  evlost := 0
  pager := Pager.initial
  mcRetry := 2
  replays := 0
  mcks := 0
  wdog := 1000
  power := Power.initial

/-- A home after reset: THRESH 0xFF, TMAX 0xFE, TARGET 0x4000, T in force 0xFF (R50, R52), BOUND_NS 200 (R278). -/
def Home.initial : Home where
  cfg := 0xFF ||| 0xFE <<< 24 ||| 0x4000 <<< 32
  teff := 0xFF
  mean := 0
  seq := 0
  queue := []
  log := []
  early := []
  armed := []
  nreds := []
  bound := 200
  replays := 0

/-- The thermal register of a stack after reset (R364). -/
def stthmReset : Word := 0x28 <<< 10 ||| Config.stackTrip.setWidth 64

/-- hotctl after reset (R320). -/
def hotctlReset : Word := 0xFFFF ||| 1000 <<< 16

/-- A residency schedule entry after reset (R179). -/
def Sched.initial : Sched := ⟨0, 0, 0xFFFFFFFF⟩

/-- A format view after reset: disabled (R92, log 1). -/
def View.initial : View := ⟨0, 0, 0, 0⟩

/-- Nothing on its way. -/
def Net.empty : Net := ⟨[], [], [], [], [], [], [], [], [], [], [], [], [], []⟩

/-- Links up at their full rate in GT/s; every page in device bias (R321, R324, R379). -/
def HostSide.initial : HostSide := 
  ⟨Vector.replicate 6 true, Vector.replicate 6 64, Vector.replicate 6 16, [], [], [], [], [], [], [], Config.hostMapped⟩

/-- A command window after bring-up: CODE OK, not BUSY (R370, R379). -/
def Window.initial : Window := ⟨0, Vector.replicate 6 0, 0, false, 0, 0⟩

/-- Firmware after bring-up (R373, R379). -/
def Firmware.initial : Firmware where
  windows := Vector.replicate 4 Window.initial
  pending := []
  owner := none
  images := []
  nextHandle := 0
  keys := []
  running := Config.romFirmware
  staged := none
  launches := []
  lastEpoch := 0
  msix := []
  spdm := []
  exchange := ⟨0, [], [], []⟩
  reserved := Config.reserved

/-- The machine right after cold reset, when the boot ROM has finished bring-up (R379). -/
def State.reset : State where
  cur := 0
  agenda := []
  tick := 0
  fresh := 0
  powered := true
  package := 0
  gtime := 0
  synced := false
  mem := []
  threads := []
  cores := []
  tiles := []
  clusters := []
  servers := []
  homes := []
  pagers := []
  stthm := []
  phases := []
  sched := []
  sealed := []
  cells := []
  strong := []
  lines := []
  decoded := []
  views := []
  hot := []
  hotctl := []
  pgsub := (Vector.replicate 16 0).set 0 0x7000
  touched := []
  homed := []
  wlen := Vector.replicate 2 4
  ranks := []
  poison := []
  net := Net.empty
  host := HostSide.initial
  fw := Firmware.initial

end Sys2Proof.Machine
end

