-- ==== Sys2Proof/Machine/Ops.lean ====
section
/-! DEFINITION.
The named operations over the units, the registers and the event queues; the operation monad in which instructions are
written; entering a trap handler and returning from it.
-/

namespace Sys2Proof.Machine

/-! ## Blocks of bytes -/

/-- Byte i of a block. -/
def blockByte (b : Block) (i : Nat) : Byte := b.extractLsb' (8 * i) 8

/-- A byte list as a number placed at byte i, over a mask. -/
def blockPut (b : Block) (i : Nat) (bs : List Byte) : Block :=
  let m : Block := BitVec.ofNat 8192 ((2 ^ (8 * bs.length) - 1) * 2 ^ (8 * i))
  (b &&& ~~~ m) ||| BitVec.ofNat 8192 (leNat bs * 2 ^ (8 * i))

def blockGet (b : Block) (i n : Nat) : List Byte := (List.range n).map fun j => blockByte b (i + j)

/-! ## Identifiers (R26 to R28) -/

/-- CLASS of a local thread identifier: 0 compute, 1 cluster control, 2 vent, 3 management processor. -/
def classOf (t : Nat) : Nat := t / 0x200000

def isCompute (t : Nat) : Bool := classOf t == 0
def isControl (t : Nat) : Bool := classOf t == 1
def isVent (t : Nat) : Bool := classOf t == 2

/-- The core a thread belongs to, under the identifier of its thread 0. -/
def coreOf (t : Nat) : Nat := t - t % 8

/-- Thread number within the core. -/
def slotOf (t : Nat) : Nat := t % 8

/-- DIE * 64 + CLUSTER of a compute or control thread. -/
def clusterOf (t : Nat) : Nat := t / 0x2000 % 256

/-- The tile of a compute thread, under its identifier without CORE and THREAD. -/
def tileOf (t : Nat) : Nat := t / 0x200

/-- CORE within the tile, and TILE within the cluster. -/
def coreInTile (t : Nat) : Nat := t / 0x80 % 4
def tileInCluster (t : Nat) : Nat := t / 0x200 % 16

/-- The pseudo-channel P of a vent thread (R28). -/
def channelOf (t : Nat) : Nat := t / 0x1000 % 512

/-- Thread n of the vent core of pseudo-channel P. -/
def ventThread (p n : Nat) : Nat := 0x400000 + p * 0x1000 + n

/-- Thread n of a cluster's control core. -/
def controlThread (c n : Nat) : Nat := 0x200000 + c * 0x2000 + n

/-- The compute die a thread's unit belongs to; a vent core belongs to the die beside its stack (R14). -/
def dieOf (t : Nat) : Nat := if isVent t then channelOf t / 128 else clusterOf t / 64

/-- The compute threads of a cluster, in order of tile, core and thread. -/
def clusterThreads (c : Nat) : List Nat := (List.range 64).flatMap fun k => (List.range 8).map fun n => c * 0x2000 + k * 0x80 + n

/-! ## Reading and replacing units -/

def State.thread (s : State) (t : Nat) : Thread := Tab.get (Thread.atReset t) s.threads t
def State.setThread (s : State) (t : Nat) (x : Thread) : State := { s with threads := Tab.put s.threads t x }
def State.core (s : State) (c : Nat) : Core := Tab.get Core.initial s.cores c
def State.setCore (s : State) (c : Nat) (x : Core) : State := { s with cores := Tab.put s.cores c x }
def State.tile (s : State) (k : Nat) : Tile := Tab.get Tile.initial s.tiles k
def State.setTile (s : State) (k : Nat) (x : Tile) : State := { s with tiles := Tab.put s.tiles k x }
def State.cluster (s : State) (c : Nat) : Cluster := Tab.get Cluster.initial s.clusters c
def State.setCluster (s : State) (c : Nat) (x : Cluster) : State := { s with clusters := Tab.put s.clusters c x }
def State.server (s : State) (k : Nat) : Server := Tab.get (Server.atReset k) s.servers k
def State.setServer (s : State) (k : Nat) (x : Server) : State := { s with servers := Tab.put s.servers k x }
def State.home (s : State) (h : Nat) : Home := Tab.get Home.initial s.homes h
def State.setHome (s : State) (h : Nat) (x : Home) : State := { s with homes := Tab.put s.homes h x }

/-- Happenings added to those that wait to be performed. -/
def State.post (s : State) (is : List Happening) : State := { s with agenda := s.agenda ++ is }

/-- The launch that holds an epoch; the newest one, which stands first. -/
def State.launch (s : State) (e : BitVec 16) : Option Launch := s.fw.launches.find? fun l => l.epoch == e

/-- τ of a gang switch of the epoch's launch has come (R339). -/
def State.pastTau (s : State) (e : BitVec 16) : Bool :=
  match s.launch e with
  | some l => l.phase == .running && l.tau.any fun tau => decide (tau ≤ s.gtime)
  | none => false

/-- The launch of an epoch is switched out, or on its way out (R339). -/
def State.offline (s : State) (e : BitVec 16) : Bool :=
  match s.launch e with
  | some l => l.phase == .out || l.phase == .switching
  | none => false

/-- The launch record of an epoch replaced. -/
def State.setLaunch (s : State) (l : Launch) : State :=
  { s with fw := { s.fw with launches := s.fw.launches.map fun x => if x.epoch == l.epoch then l else x } }

/-- The server a thread belongs to: its cluster's, or its vent core's. -/
def serverOf (t : Nat) : Nat := if isVent t then 4096 + channelOf t else clusterOf t

/-! ## Scalar and extension registers (R96, R135, R137) -/

/-- The correct residue of a value (R137). -/
def residue (x : Word) : BitVec 4 := BitVec.ofNat 4 (x.toNat % 15)

/-- A register written with a generated residue (R137). -/
def Reg.of (x : Word) : Reg := ⟨x, residue x⟩

def Thread.reg (t : Thread) (i : BitVec 4) : Reg := t.regs[i.toNat]'i.isLt
def Thread.setReg (t : Thread) (i : BitVec 4) (r : Reg) : Thread := { t with regs := t.regs.set i.toNat r i.isLt }
def Thread.extReg (t : Thread) (i : BitVec 3) : Reg := t.ext[i.toNat]'i.isLt
def Thread.setExt (t : Thread) (i : BitVec 3) (r : Reg) : Thread := { t with ext := t.ext.set i.toNat r i.isLt }
def Thread.window_ (t : Thread) (i : BitVec 3) : BitVec 128 := t.win[i.toNat]'i.isLt
/-- The bits of a window that are not reserved: all but bit 126 (R7, R100). -/
def windowMask : BitVec 128 := ~~~ (1 <<< 126 : BitVec 128)

def Thread.setWindow (t : Thread) (i : BitVec 3) (w : BitVec 128) : Thread :=
  { t with win := t.win.set i.toNat (w &&& windowMask) i.isLt }

def Thread.vecReg (t : Thread) (i : BitVec 3) : VecReg := t.vec[i.toNat]'i.isLt
def Thread.setVec (t : Thread) (i : BitVec 3) (x : VecReg) : Thread := { t with vec := t.vec.set i.toNat x i.isLt }

/-- k0 reads all ones (R96). -/
def Thread.maskReg (t : Thread) (i : BitVec 3) : MaskReg := if i = 0 then BitVec.allOnes 128 else t.msk[i.toNat]'i.isLt

/-- A write to k0 is discarded (R96). -/
def Thread.setMask (t : Thread) (i : BitVec 3) (x : MaskReg) : Thread :=
  if i = 0 then t else { t with msk := t.msk.set i.toNat x i.isLt }

/-- The pending mark of a scalar register (R135). -/
def Thread.marked (t : Thread) (i : BitVec 4) : Bool := t.pend.getLsbD i.toNat

/-- The status word of R97; NEAR and SLOT follow from which thread it is. -/
def statWord (id : Nat) (t : Thread) : Word :=
  (if t.trapm then 1 else 0) ||| (if t.supv then 2 else 0) ||| (if t.remote then 4 else 0) ||| (if t.dbg then 8 else 0)
    ||| (if isVent id then 16 else 0) ||| BitVec.ofNat 64 (slotOf id) <<< 8 ||| t.epoch.setWidth 64 <<< 16
    ||| t.pend.setWidth 64 <<< 32

/-! ## Events, counts, causes -/

/-- The code of a cause (R334). -/
def Cause.code : Cause → Nat
  | .illegal => 0x01 | .priv => 0x02 | .window => 0x03 | .align => 0x04 | .physAbsent => 0x05 | .class_ => 0x06
  | .fpe => 0x07 | .trap => 0x08 | .residue => 0x09 | .check => 0x0A | .mixsize => 0x0B | .leaseExpired => 0x0C
  | .barrier => 0x0D | .tentBusy => 0x0E | .tentFull => 0x0F | .sinter => 0x10 | .stream => 0x11 | .poison => 0x12
  | .range => 0x13 | .unclaimed => 0x14 | .spmeta => 0x15 | .mckSingle => 0x16 | .mck => 0x17 | .task => 0x18
  | .nearmem => 0x19 | .rank => 0x1A | .remoteSubset => 0x1B | .remoteFault => 0x1C | .remoteTrap => 0x1D
  | .remoteTimeout => 0x1E | .bias => 0x1F | .hostatom => 0x20 | .double => 0x40 | .killed => 0x41 | .hang => 0x42

/-- Whether a cause ends the work instead of entering the handler (R334, R335). -/
def Cause.ending : Cause → Bool
  | .range | .double | .killed | .hang => true
  | _ => false

/-- The event queue a unit posts to: its cluster's; a vent core's is DEST of its stack's hotctl (R320, R345). -/
def eventCluster (s : State) (unit : Nat) : Nat :=
  if isVent unit then
    let w := Tab.get hotctlReset s.hotctl (channelOf unit / 64)
    (w >>> 32).toNat % 4 * 64 + (w >>> 34).toNat % 64
  else clusterOf unit

/-- A 32-byte event record (R345). -/
def eventRecord (kind classify code count unit time : Nat) (addr : Word) : BitVec 256 :=
  BitVec.ofNat 256 (kind % 256 + classify % 256 * 2 ^ 8 + code % 2 ^ 16 * 2 ^ 16 + count % 2 ^ 32 * 2 ^ 32
    + unit % 2 ^ 44 * 2 ^ 64 + time % 2 ^ 64 * 2 ^ 128 + addr.toNat * 2 ^ 192)

/-- One occurrence of event n of the activity estimator, in a cluster (R358). -/
def State.countIn (s : State) (c n : Nat) (times : Nat := 1) : State :=
  let k := s.cluster c
  let x := k.power.counts.getD n 0
  s.setCluster c { k with power := { k.power with counts := k.power.counts.setIfInBounds n (BitVec.ofNat 16 (min (x.toNat + times) 0xFFFF)) } }

/-- The same in a unit; vent cores have no such controller. -/
def State.count (s : State) (unit : Nat) (n : Nat) (times : Nat := 1) : State :=
  if isVent unit then s else s.countIn (clusterOf unit) n times

/-- A record posted to a cluster's queue, or counted lost when the queue is full (R346). -/
def State.postEvent (s : State) (c kind classify code count unit : Nat) (addr : Word) : State :=
  let k := s.cluster c
  if (k.evtail + 1) % 1024 = k.evhead then
    s.setCluster c { k with evlost := if k.evlost = BitVec.allOnes 32 then k.evlost else k.evlost + 1 }
  else
    (s.setCluster c { k with
      evq := Tab.put k.evq k.evtail (eventRecord kind classify code count (s.package * 2 ^ 24 + unit) s.gtime addr)
      evtail := (k.evtail + 1) % 1024 }).countIn c 45

/-! ## Instructions as operations -/

/-- How an instruction can stop short of its effect. -/
inductive Stop where
  /-- A trap: the cause, tval, the pc that epc names when it is not the instruction's, and whether the state reached so far
  is kept (R8, R11). -/
  | trap (cause : Cause) (tval : Word) (at_ : Option Word) (keep : Bool)
  /-- The thread enters WAIT and the instruction will be issued again (R31); `keep` as above. -/
  | wait (w : Wait) (keep : Bool)
  deriving DecidableEq, Repr

/-- An instruction acts on the state, or stops. -/
abbrev Op := EStateM Stop State

/-- trap(CAUSE) of R8: every visible state as before the instruction. -/
def trap {α : Type} (c : Cause) (tval : Word := 0) : Op α := throw (.trap c tval none false)

/-- A trap that keeps the state its rule says has been reached. -/
def trapKeeping {α : Type} (c : Cause) (tval : Word) : Op α := throw (.trap c tval none true)

/-- The thread waits, and the instruction has no effect until it is issued again. -/
def waitFor {α : Type} (w : Wait) : Op α := throw (.wait w false)

/-- The thread waits, and what has been recorded for the wait stays. -/
def waitKeeping {α : Type} (w : Wait) : Op α := throw (.wait w true)

def require (ok : Bool) (c : Cause) (tval : Word := 0) : Op Unit := if ok then pure () else trap c tval

/-- The current thread's identifier and the current thread. -/
def self : Op Nat := do return (← get).cur
def me : Op Thread := do let s ← get; return s.thread s.cur
def modMe (f : Thread → Thread) : Op Unit := modify fun s => s.setThread s.cur (f (s.thread s.cur))
def myCore : Op Core := do let s ← get; return s.core (coreOf s.cur)
def modCore (f : Core → Core) : Op Unit := modify fun s => s.setCore (coreOf s.cur) (f (s.core (coreOf s.cur)))

/-- Scalar register i, whatever its residue. -/
def rs (i : BitVec 4) : Op Word := do return (← me).reg i |>.val

/-- Scalar register i, compared with its residue (R138). -/
def rsUse (i : BitVec 4) : Op Word := do
  let r := (← me).reg i
  require (r.res == residue r.val) .residue (BitVec.ofNat 64 i.toNat)
  return r.val

/-- Extension register i, compared with its residue (R138). -/
def extUse (i : BitVec 3) : Op Word := do
  let r := (← me).extReg i
  require (r.res == residue r.val) .residue (BitVec.ofNat 64 (16 + i.toNat))
  return r.val

/-- Scalar register i written with a generated residue (R137). -/
def wr (i : BitVec 4) (x : Word) : Op Unit := modMe (·.setReg i (Reg.of x))

/-- Scalar register i written with a residue of its own (R137). -/
def wrReg (i : BitVec 4) (r : Reg) : Op Unit := modMe (·.setReg i r)

/-- Waits that HANG_US does not bound (R347). -/
def Wait.exempt : Wait → Bool
  | .monitor | .barrier _ | .join _ | .recv | .claim | .spawn | .counts | .call | .page _ | .sealed => true
  | _ => false

/-- The pc moves past an instruction of n bytes, and the thread is READY. -/
def Thread.next (t : Thread) (n : Nat) : Thread :=
  { t with pc := t.pc + BitVec.ofNat 64 n, status := .ready, reissue := false, taken := false, finished := false, expired := false,
             answered := false, since := none, begun := none }

def advance (n : Nat := 4) : Op Unit := modMe (·.next n)

/-- A thread enters WAIT (R31): what its instruction, which is not over, now waits for; the time of a wait that R347 bounds. -/
def Thread.enter (t : Thread) (w : Wait) (now : Nat) : Thread :=
  { t with status := .wait w, since := if w.exempt then none else if t.begun = some w then some (t.since.getD now) else some now, begun := some w }

/-- The thread waits for what its instruction, which is done with issuing, has sent on its way. -/
def enterWait (w : Wait) : Op Unit := modify fun s =>
  s.setThread s.cur { s.thread s.cur with status := .wait w, since := some s.gtime, begun := some w }

/-- The pc becomes a target, and the thread is READY. -/
def Thread.jump (t : Thread) (a : Word) : Thread :=
  { t with pc := a, status := .ready, reissue := false, taken := false, finished := false, expired := false,
             answered := false, since := none, begun := none }

def jump (a : Word) : Op Unit := modMe (·.jump a)

/-- A code address in pc: bit 0 of pc is always 0 (R96). -/
def codeAddress (a : Word) : Word := a &&& ~~~ 1

/-! ## Windows (R99 to R101, R115) -/

/-- The rights an access needs. -/
inductive Right where
  | r | w | x | a | t
  deriving DecidableEq, Repr

namespace Win

def base (w : BitVec 128) : Nat := w.toNat % 2 ^ 64
def limit (w : BitVec 128) : Nat := w.toNat / 2 ^ 64 % 2 ^ 56
def onChip (w : BitVec 128) : Bool := w.getLsbD 125
def reserved (w : BitVec 128) : Bool := w.getLsbD 126
def valid (w : BitVec 128) : Bool := w.getLsbD 127
def rights (w : BitVec 128) : BitVec 5 := w.extractLsb' 120 5

def has (w : BitVec 128) : Right → Bool
  | .r => w.getLsbD 120
  | .w => w.getLsbD 121
  | .x => w.getLsbD 122
  | .a => w.getLsbD 123
  | .t => w.getLsbD 124

/-- R101. -/
def wellFormed (w : BitVec 128) : Bool :=
  !reserved w && decide (base w + limit w < if onChip w then 2 ^ 40 else 2 ^ 57)

/-- The value b narrows the window a (R102). -/
def narrows (a b : BitVec 128) : Bool :=
  valid a && (onChip a == onChip b) && decide (base a ≤ base b) && decide (base b + limit b ≤ base a + limit a)
    && (rights b &&& ~~~ rights a == 0)

end Win

/-- effective_address (R115). -/
def effectiveAddress (win : BitVec 3) (b o : Word) : Word := win.setWidth 64 <<< 61 + b + o

/-- Where an effective address leads: a device-virtual address or an on-chip one. -/
inductive Space where
  | virt (va : Nat)
  | chip (addr : Nat)
  deriving DecidableEq, Repr

/-- window_check (R115) against given windows: ALIGN first, then WINDOW. -/
def checkIn (wins : Vector (BitVec 128) 8) (ea : Word) (size : Nat) (rights : List Right) : Except (Cause × Word) Space :=
  let off := ea.toNat % 2 ^ 61
  let w := wins[ea.toNat / 2 ^ 61]'(by have := ea.isLt; omega)
  if off % size ≠ 0 then .error (.align, ea)
  else if !Win.valid w || rights.any (fun y => !Win.has w y) || decide (off + size - 1 > Win.limit w) then .error (.window, ea)
  else if Win.onChip w then .ok (.chip (Win.base w % 2 ^ 40 + off))
  else .ok (.virt (Win.base w + off))

/-- window_check of the current thread. -/
def windowCheck (ea : Word) (size : Nat) (rights : List Right) : Op Space := do
  match checkIn (← me).win ea size rights with
  | .ok p => return p
  | .error (c, v) => trap c v

/-! ## Entering and leaving a trap handler -/

/-- The word that trap entry writes to tcause (R333). -/
def tcauseWord (c : Cause) (parked : Option Word) : Word :=
  BitVec.ofNat 64 c.code ||| match parked with
    | none => 0
    | some pc => 0x100 ||| (pc >>> 1 &&& 0x1FFFFFFFFFFF) <<< 16 ||| (pc >>> 61) <<< 61

/-- Trap entry (R332): tcause, epc, tval, TRAPM, pc := tvec; no other register changes. -/
def Thread.enterTrap (t : Thread) (c : Cause) (parked : Option Word) (epc tval : Word) : Thread :=
  { t with
    tcause := tcauseWord c parked
    epc := epc
    tval := tval
    trapm := true
    pc := t.tvec
    status := .ready
    reissue := false
    taken := false
    finished := false
    expired := false
    answered := false
    since := none
    begun := none }

/-- RTE (R155): pc := epc and TRAPM := 0 together. -/
def Thread.leaveTrap (t : Thread) : Thread := { t.jump t.epc with trapm := false }

end Sys2Proof.Machine
end

