-- ==== Sys2Proof/Machine/Memory.lean ====
section
/-! DEFINITION.
Memory behind translation: the address map, the home of every byte, ownership in the L1s, tentative cells, monitors.
Addresses here are keys: PACKAGE * 2^44 + local address, with first tier under its channel-local alias (R16 to R20).
-/

namespace Sys2Proof.Machine

/-! ## The address map (R16 to R21) -/

/-- The pseudo-channel and offset of an interleaved first-tier address (R19). -/
def interleave (a : Nat) : Nat × Nat :=
  let g := a / 2 ^ 12
  ((g % 512) ^^^ (g / 512 % 512) ^^^ (g / 2 ^ 18 % 512), a / 2 ^ 21 % 2 ^ 18 * 2 ^ 12 + a % 2 ^ 12)

/-- The local address with the interleaved alias replaced by the channel-local one (R20). -/
def canonLocal (a : Nat) : Nat :=
  if a < 0x8000000000 then 0x8000000000 + (interleave a).1 * 2 ^ 30 + (interleave a).2 else a

/-- The interleaved alias of a channel-local address (R19, R20): `interleave` undone. -/
def interleavedOf (a : Nat) : Nat :=
  let hi := a / 2 ^ 12 % 2 ^ 18
  (hi * 512 + (((a - 0x8000000000) / 2 ^ 30 % 512) ^^^ (hi % 512) ^^^ (hi / 512))) * 2 ^ 12 + a % 2 ^ 12

/-- A page of some bytes at a frame, under the alias its frame names, holds a canonical local address (R20, R304). -/
def pageHolds (frame bytes a : Nat) : Bool :=
  let x := if decide (frame * 4096 < 0x8000000000) && decide (0x8000000000 ≤ a) && decide (a < 0x10000000000) then interleavedOf a else a
  decide (frame * 4096 ≤ x) && decide (x < frame * 4096 + bytes)

/-- The key of a device physical address (R16). -/
def keyOf (pa : Nat) : Nat := pa / 2 ^ 44 * 2 ^ 44 + canonLocal (pa % 2 ^ 44)

def packageOf (k : Nat) : Nat := k / 2 ^ 44
def localOf (k : Nat) : Nat := k % 2 ^ 44

/-- The parts of the local map (R17). -/
inductive Area where
  | firstTier | view | secondTier | host (port : Nat) | reserved
  deriving DecidableEq, Repr

def areaOf (k : Nat) : Area :=
  let a := localOf k
  if a < 0x10000000000 then .firstTier
  else if a < 0x20000000000 then .view
  else if a < 0x40000000000 then .secondTier
  else if a < 0x80000000000 then .host 0
  else if a < 0xC0000000000 then .host 1
  else .reserved

/-- Pseudo-channel of a first-tier key, and offset in its block (R20). -/
def keyChannel (k : Nat) : Nat := (localOf k - 0x8000000000) / 2 ^ 30
def keyOffset (k : Nat) : Nat := localOf k % 2 ^ 30

/-- Memory port and offset of a second-tier key (R17). -/
def keyPort (k : Nat) : Nat := (localOf k - 0x20000000000) / 2 ^ 39

/-- A page number lies in one of some runs of pages. -/
def inRuns (l : List (Nat × Nat)) (p : Nat) : Bool := l.any fun y => decide (y.1 ≤ p) && decide (p < y.1 + y.2)

/-- An enabled expander presents a byte at an offset of its port's space: one that fails verification is not enabled (R321). -/
def expanderAt : List (Nat × Bool) → Nat → Bool
  | [], _ => false
  | (n, ok) :: t, off => if off < n then ok else expanderAt t (off - n)

/-- Whether there is memory behind a key (R16, R18); a port has at most four expanders (R321). -/
def State.present (s : State) (k : Nat) : Bool :=
  match areaOf k with
  | .firstTier => true
  | .view => packageOf k == s.package
  | .secondTier => packageOf k == s.package && expanderAt ((Config.expanders (keyPort k)).take 4) ((localOf k - 0x20000000000) % 2 ^ 39)
  | .host _ => packageOf k == s.package && inRuns s.host.mapped (localOf k / 4096)
  | .reserved => false

/-- The memory controller of a key (R91): the stack's, 0 to 7, or the memory port's, 8 to 11. -/
def controllerOf (k : Nat) : Nat :=
  match areaOf k with
  | .firstTier => keyChannel k / 64
  | _ => 8 + keyPort k

/-! ## Line homes (R309, R310) -/

/-- The hash of a physical local address (R309). -/
def lineHash (a : Nat) : Nat :=
  let x := a / 512
  (x % 4096) ^^^ (x / 4096 % 4096) ^^^ (x / 2 ^ 24 % 2048)

/-- The value of the subset register that subset n follows: register 0's where COUNT or FIRST + COUNT is out of range (R309). -/
def State.subset (s : State) (n : Nat) : Word :=
  let ok := fun (w : Word) => (w >>> 8).toNat % 64 ≠ 0 && decide ((w >>> 2).toNat % 64 + (w >>> 8).toNat % 64 ≤ 48)
  if ok (s.pgsub.getD n 0) then s.pgsub.getD n 0 else s.pgsub.getD 0 0

/-- The home slice of a line of local memory under the value of a subset register (R309): DIE * 64 + CLUSTER, and SLICE. -/
def hashHome (w : Word) (a : Nat) : Nat × Nat :=
  let count := (w >>> 8).toNat % 64
  let i := lineHash a % (8 * count * (if w.getLsbD 14 then 4 else 1))
  let k := i % (8 * count)
  let die := if w.getLsbD 14 then i / (8 * count) else w.toNat % 4
  (die * 64 + (w >>> 2).toNat % 64 + k / 8, k % 8)

/-- What fixes the homes of a page's lines, as `homed` records it: the value of its subset register in bits 14:0, PLACE in
17:16, SIZE in 19:18, SLICE in 31:20; and GRAIN, which fixes what a fill of a line brings (R167), in 33:32. -/
def homing (subset : Word) (place size slice grain : Nat) : Word :=
  BitVec.ofNat 64 (subset.toNat % 2 ^ 15 + place * 2 ^ 16 + size * 2 ^ 18 + slice * 2 ^ 20 + grain * 2 ^ 32)

/-- The home slice of a line under such a record (R309): a first-touch line that an agent outside the clusters reached
first, or that nothing has reached, follows subset 0, whose value the record holds. -/
def State.homeUnder (s : State) (v : Word) (k : Nat) : Nat × Nat :=
  match v.toNat / 2 ^ 16 % 4 with
  | 1 => (v.toNat / 2 ^ 30 % 4 * 64 + v.toNat / 2 ^ 24 % 64, v.toNat / 2 ^ 20 % 8)
  | 2 =>
    match Tab.find s.touched (k / 512) with
    | some c => if c < 256 then (c, lineHash (localOf k) % 8) else hashHome v (localOf k)
    | none => hashHome v (localOf k)
  | _ => hashHome v (localOf k)

/-- Bytes of a page, from SIZE (R303). -/
def sizeBytes (n : Nat) : Nat :=
  match n with
  | 0 => 2 ^ 12
  | 1 => 2 ^ 16
  | 2 => 2 ^ 21
  | _ => 2 ^ 30

/-- What is recorded of the homes of the page that holds a key. -/
def State.homedAt (s : State) (k : Nat) : Option Word :=
  (s.homed.find? fun e => pageHolds e.1 (sizeBytes (e.2.toNat / 2 ^ 18 % 4)) (localOf k)).map (·.2)

/-- The home slice of a line by its key alone: as its page's record says; a page that has none follows subset 0. -/
def State.homeSlice (s : State) (k : Nat) : Nat × Nat :=
  match s.homedAt k with
  | some v => s.homeUnder v k
  | none => hashHome (s.subset 0) (localOf k)

/-- A line reached by an agent outside the clusters (R309): 256 stands for one. -/
def State.touchFrom (s : State) (k unit : Nat) : State :=
  match Tab.find s.touched (k / 512) with
  | some _ => s
  | none => { s with touched := Tab.put s.touched (k / 512) unit }

/-! ## Agents -/

/-- Who makes an access, for observation and monitors: a thread identifier, or 2^24 + port for a host, or 2^24 + 16 for
another package; the launch epoch; and the thread whose own monitors it does not fire (R27, R188, R204). -/
structure Agent where
  id    : Nat
  epoch : BitVec 16
  self  : Nat
  deriving DecidableEq, Repr

/-- A thread as an agent; a callee acts as its caller (R288). -/
def Thread.agent (t : Thread) (id : Nat) : Agent :=
  match t.callee with
  | some c => ⟨c.caller, c.epoch, id⟩
  | none => ⟨id, t.epoch, id⟩

def hostAgent (port : Nat) : Agent := ⟨0x1000000 + port, 0, 0x1000000 + port⟩
/-- The management processor (R26). -/
def fwAgent : Agent := ⟨0x600000, 0, 0x600000⟩
def foreignAgent : Agent := ⟨0x1000010, 0, 0x1000010⟩

/-! ## Monitors (R203, R204) -/

def overlaps (a n b m : Nat) : Bool := decide (a < b + m) && decide (b < a + n)

def Monitor.hit (m : Monitor) (k n : Nat) : Bool := m.armed && overlaps m.addr 8 k n

def Monitor.fire (m : Monitor) (k n : Nat) : Monitor := if m.hit k n then { m with armed := false, latch := true } else m

/-- A thread whose wait ends when the dword it watches is written (R204, R207, R283). -/
def Thread.watches (t : Thread) (k n : Nat) : Bool :=
  match t.status with
  | .wait .monitor => t.mon.toList.any (·.hit k n)
  | .wait (.barrier a) => overlaps a 8 k n
  | .wait (.join a) => overlaps a 8 k n
  | _ => false

/-- A write of n bytes at a key by another agent, as a thread's monitors see it. -/
def Thread.seeWrite (t : Thread) (k n : Nat) : Thread :=
  { t with mon := t.mon.map (·.fire k n), status := if t.watches k n then .ready else t.status }

/-- Monitors on n bytes at a key fire, except those of the agent's own thread. -/
def State.fireMonitors (s : State) (who k n : Nat) : State :=
  { s with threads := s.threads.map fun (t, x) => if t = who then (t, x) else (t, x.seeWrite k n) }

/-- The key under which monitors watch an on-chip dword. -/
def chipKey (a : Nat) : Nat := 2 ^ 72 + a

/-- Every thread that waits for a given thing becomes READY and issues its instruction again. -/
def State.wake (s : State) (p : Nat → Wait → Bool) : State :=
  { s with threads := s.threads.map fun (t, x) => match x.status with
      | .wait w => if p t w then (t, { x with status := .ready }) else (t, x)
      | _ => (t, x) }

/-- A JOIN on an on-chip dword: it looks again at whatever may have written it. -/
def Wait.onChip : Wait → Bool
  | .join a => decide (2 ^ 72 ≤ a)
  | _ => false

/-! ## L1 words (R164, R167) -/

/-- The bytes of a word whose mask bits are set, replaced. -/
def mergeWord (old new : BitVec 32) (mask : BitVec 4) : BitVec 32 :=
  let m : BitVec 32 := (if mask.getLsbD 0 then 0xFF else 0) ||| (if mask.getLsbD 1 then 0xFF00 else 0)
    ||| (if mask.getLsbD 2 then 0xFF0000 else 0) ||| (if mask.getLsbD 3 then 0xFF000000 else 0)
  (old &&& ~~~ m) ||| (new &&& m)

/-- The word at a word key (key / 4) as the home holds it. -/
def State.homeWord (s : State) (w : Nat) : BitVec 32 := BitVec.ofNat 32 (leNat (s.mem.readN (4 * w) 4))

/-- A word's dirty bytes merged into the home's copy: the write reaches the home, and monitors of other threads than the
writer fire (R164, R204). -/
def State.mergeHome (s : State) (w : Nat) (x : L1Word) : State :=
  if x.dirty = 0 then s
  else
    let s := s.fireMonitors x.writer (4 * w) 4
    { s with mem := s.mem.writeN (4 * w) (leBytes 4 (mergeWord (s.homeWord w) x.val x.dirty).toNat) }

/-- A dirty byte of every place: a word whose four bytes the core has written. -/
def L1Word.whole (x : L1Word) : Bool := x.dirty == 0xF

/-- Words of an L1 merged into the home; a dword of which every byte is written loses its poison (R164, R189, R353). -/
def State.mergeWords (s : State) (ws : List (Nat × L1Word)) : State :=
  let full := fun (d : Nat) => [2 * d, 2 * d + 1].all fun w => ws.any fun y => y.1 == w && y.2.whole
  let s := ws.foldl (fun s (y : Nat × L1Word) => s.mergeHome y.1 y.2) s
  { s with poison := s.poison.filter fun p => match p with
      | .mem d => !full d
      | _ => true }

/-- A core's L1 entry for a word replaced or dropped. -/
def State.setL1 (s : State) (c w : Nat) (x : Option L1Word) : State :=
  let k := s.core c
  s.setCore c { k with l1 := match x with | some y => Tab.put k.l1 w y | none => Tab.drop k.l1 w }

/-- Every core's ownership of a word recalled: dirty bytes merged, the copy dropped; one core may be spared. -/
def State.recallWord (s : State) (spare : Option Nat) (w : Nat) : State :=
  s.cores.foldl (fun s (c, k) =>
    if spare = some c then s
    else match Tab.find k.l1 w with
      | some x => if x.owned then (s.mergeHome w x).setL1 c w none else s
      | none => s) s

/-- Copies that other cores hold of a block of words and do not own, dropped. -/
def State.dropCopies (s : State) (spare : Option Nat) (w0 n : Nat) : State :=
  { s with cores := s.cores.map fun (c, k) =>
      if spare = some c then (c, k)
      else (c, { k with l1 := k.l1.filter fun (w, x) => x.owned || x.nc || decide (w < w0) || decide (w0 + n ≤ w) }) }

/-- Bytes of a coherence grain (R167). -/
def grainSize (g : Nat) : Nat :=
  match g with
  | 0 => 32
  | 1 => 128
  | _ => 512

/-- Bytes of the coherence grain, from a leaf's GRAIN. -/
def grainBytes (leaf : Word) : Nat := grainSize ((leaf >>> 11).toNat % 4)

/-- The grain of the page that holds a key; a page that no leaf has reached is filled by whole lines. -/
def State.grainAt (s : State) (k : Nat) : Nat := match s.homedAt k with
  | some v => grainSize (v.toNat / 2 ^ 32 % 4)
  | none => 512

/-! ## Tentative cells (R210 to R213) -/

/-- The cells that overlap n bytes at a key. -/
def State.cellsAt (s : State) (k n : Nat) : List Cell := s.cells.filter fun c => overlaps c.key c.size k n

/-- Some cell lies in the 64-byte line of a key. -/
def State.lineTentative (s : State) (k : Nat) : Bool := !(s.cellsAt (k / 64 * 64) 64).isEmpty

/-- Some cell lies in a word that n bytes at a key touch. -/
def State.wordsTentative (s : State) (k n : Nat) : Bool := !(s.cellsAt (k / 4 * 4) ((k + n + 3) / 4 * 4 - k / 4 * 4)).isEmpty

def Cell.ownedBy (c : Cell) (a : Agent) : Bool := c.owner == a.id && c.epoch == a.epoch

/-- Cells overlapping n bytes become observed by an agent that is not their owner (R188). -/
def State.observe (s : State) (a : Agent) (k n : Nat) : State :=
  { s with cells := s.cells.map fun c => if overlaps c.key c.size k n && !c.ownedBy a then { c with seen := true } else c }

/-! ## The host side of coherence (R322, R325) -/

def State.hostBias (s : State) (k : Nat) : Bool := areaOf k == .firstTier && s.host.bias.contains (k / 4096)

def HostLine.covers (l : HostLine) (k n : Nat) : Bool := overlaps l.key 64 k n

/-- The host port through which a home reaches a line in host bias: 0 from dies 0 and 1, 1 from the others (R325). -/
def State.biasPort (s : State) (k : Nat) : Nat := if (s.homeSlice k).1 / 64 < 2 then 0 else 1

/-- What the home of a byte reads: in host bias, the copy of the host behind its port if that holds the line (R325). -/
def State.homeByte (s : State) (k : Nat) : Byte :=
  if s.hostBias k then
    match s.host.lines.find? fun l => l.port == s.biasPort k && l.covers k 1 with
    | some l => l.data.getD (k - l.key) 0
    | none => s.mem.read k
  else s.mem.read k

def State.homeBytes (s : State) (k : Nat) : Nat → List Byte
  | 0 => []
  | n + 1 => s.homeByte k :: State.homeBytes s (k + 1) n

/-- Host lines over n bytes written back and dropped (BISnpInv, WrCur), those of one port where it is named. -/
def State.dropHostLines (s : State) (k n : Nat) (port : Option Nat := none) : State :=
  s.host.lines.foldl (fun s l =>
    if l.covers k n && (port == none || port == some l.port) then
      { s with
        mem := if l.dirty then s.mem.writeN l.key l.data else s.mem
        host := { s.host with lines := s.host.lines.filter (· != l) } }
    else s) s

/-! ## Accesses at the home -/

/-- The words that n bytes at a key lie in. -/
def wordsOf (k n : Nat) : List Nat := (List.range ((k + n - 1) / 4 + 1 - k / 4)).map (k / 4 + ·)

/-- What a thread's core has loaded ahead of n bytes at a key is given up: the thread sees the memory as it is (R184). -/
def State.dropAhead (s : State) (t k n : Nat) : State :=
  { s with cores := s.cores.map fun (c, x) =>
      (c, if c = coreOf t then { x with ahead := x.ahead.filter fun (y : Nat × BitVec 32 × Bool) => !(wordsOf k n).contains y.1 } else x) }

/-- n bytes read at their home by an agent: tentative cells become observed (R211). -/
def State.readHome (s : State) (a : Agent) (k n : Nat) : List Byte × State :=
  (s.homeBytes k n, (s.observe a k n).dropAhead a.self k n)

/-- The dwords a write covers whole lose their poison (R353). -/
def State.clearPoison (s : State) (k n : Nat) : State :=
  { s with poison := s.poison.filter fun p => match p with
      | .mem d => !(decide (k ≤ 8 * d) && decide (8 * d + 8 ≤ k + n))
      | _ => true }

/-- Bytes written at their home by an agent (R162, R164, R204, R211): owned words are recalled, copies of the grain
dropped, cells observed, monitors fired. -/
def State.writeHome (s : State) (a : Agent) (grain k : Nat) (bs : List Byte) : State :=
  let n := bs.length
  let s := (wordsOf k n).foldl (fun s w => s.recallWord none w) s
  let s := s.dropCopies none (k / grain * grain / 4) (((k + n - 1) / grain * grain + grain - k / grain * grain) / 4)
  let s := if s.hostBias k then s.dropHostLines k n (some (s.biasPort k)) else s
  let s := s.observe a k n
  let s := ((s.fireMonitors a.self k n).clearPoison k n).dropAhead a.self k n
  { s with mem := s.mem.writeN k bs }

/-! ## Accesses through a compute core's L1 -/

/-- A word as a core's L1 holds it, or as the home does. -/
def State.l1Word (s : State) (c w : Nat) : BitVec 32 :=
  match Tab.find (s.core c).l1 w with
  | some x => x.val
  | none => s.homeWord w

/-- A word's L1 copy is owned by another core. -/
def State.ownedElsewhere (s : State) (c w : Nat) : Bool := s.cores.any fun (d, k) =>
  d != c && match Tab.find k.l1 w with
    | some x => x.owned
    | none => false

/-- Words of a grain that the L1 lacks, filled from the home (R167).  A word that another core owns, and a word of a line
with a tentative cell, is not filled: it is read at its home as long as that is so, and no copy grows old (R168, R211). -/
def State.fill (s : State) (c w0 : Nat) (nc : Bool) : Nat → State
  | 0 => s
  | n + 1 =>
    let s := match Tab.find (s.core c).l1 w0 with
      | some _ => s
      | none =>
        if s.ownedElsewhere c w0 || s.lineTentative (4 * w0) then s
        else s.setL1 c w0 (some ⟨s.homeWord w0, false, 0, nc, 0⟩)
    State.fill s c (w0 + 1) nc n

/-- Bytes of an L1, in words (R12): 64 KiB. -/
def l1Words : Nat := 16384

/-- An entry of a full L1 evicted: its dirty bytes are merged into the home.  Which one is free (log 12). -/
def State.evictL1 (s : State) (c i : Nat) : State :=
  match (s.core c).l1[Config.evict s.tick i % (s.core c).l1.length]? with
  | some (w, x) => (s.mergeHome w x).setL1 c w none
  | none => s

/-- An L1 brought back to the words it can hold (R12). -/
def State.trimL1 (s : State) (c : Nat) : State :=
  (List.range ((s.core c).l1.length - l1Words)).foldl (fun s i => s.evictL1 c i) s

/-- An owned word whose dirty bytes another thread of the core wrote is merged into the home before thread t reads or
writes it (R168): no other agent reads a value that the home does not hold. -/
def State.settle (s : State) (c w t : Nat) : State :=
  match Tab.find (s.core c).l1 w with
  | some x => if x.owned && x.dirty != 0 && x.writer != t then (s.mergeHome w x).setL1 c w (some { x with dirty := 0 }) else s
  | none => s

/-- Byte k of a word key's value. -/
def wordByte (x : BitVec 32) (i : Nat) : Byte := BitVec.ofNat 8 (x.toNat / 256 ^ i)

/-- n bytes from a key up as a core's L1 holds them, or as the home does. -/
def State.l1Bytes (s : State) (c k n : Nat) : List Byte :=
  (List.range n).map fun i => wordByte (s.l1Word c ((k + i) / 4)) ((k + i) % 4)

/-- A core's L1 holds every word that n bytes at a key lie in. -/
def State.inL1 (s : State) (c k n : Nat) : Bool := (wordsOf k n).all fun w => (Tab.find (s.core c).l1 w).isSome

/-- A core owns every word that n bytes at a key lie in. -/
def State.ownsL1 (s : State) (c k n : Nat) : Bool := (wordsOf k n).all fun w =>
  match Tab.find (s.core c).l1 w with
  | some x => x.owned
  | none => false

/-- A load of n bytes by a thread of a compute core, under the page's leaf (R164, R211).  A line with a tentative cell is
filled into no L1; what the core already holds of its other words it reads. -/
def State.loadL1 (s : State) (a : Agent) (c : Nat) (leaf : Word) (k n : Nat) : List Byte × State :=
  if s.wordsTentative k n || s.hostBias k then s.readHome a k n
  else
    let g := grainBytes leaf
    let nc := (leaf >>> 9).toNat % 4 = 0
    let s := (wordsOf k n).foldl (fun s w => s.settle c w a.self) s
    let s := if s.inL1 c k n then s else s.fill c (k / g * g / 4) nc (g / 4)
    (s.l1Bytes c k n, (s.trimL1 c).dropAhead a.self k n)

/-- Ownership of a word granted to a core (R164, R167): recalled elsewhere, the grain dropped elsewhere, monitors fired.  A
word it owns already is settled for the thread. -/
def State.grantWord (s : State) (a : Agent) (c grain w : Nat) : State :=
  if s.ownsL1 c (4 * w) 4 then s.settle c w a.self
  else
    let s := (s.recallWord (some c) w).dropCopies (some c) (4 * w / grain * grain / 4) (grain / 4)
    (s.fireMonitors a.self (4 * w) 4).setL1 c w (some ⟨s.homeWord w, true, 0, false, a.self⟩)

/-- One byte of an L1 word replaced by a thread and marked dirty. -/
def L1Word.put (x : L1Word) (t i : Nat) (b : Byte) : L1Word :=
  { x with
    val := mergeWord x.val (b.setWidth 32 <<< (8 * i)) (1 <<< i)
    dirty := x.dirty ||| 1 <<< i
    writer := t }

/-- One byte stored in a core's L1 by a thread, where its word is held. -/
def State.putL1 (s : State) (c t k : Nat) (nc : Bool) (b : Byte) : State :=
  let x := match Tab.find (s.core c).l1 (k / 4) with
    | some x => x
    | none => ⟨s.homeWord (k / 4), false, 0, nc, t⟩
  s.setL1 c (k / 4) (some (x.put t (k % 4) b))

def State.putL1s (s : State) (c t k : Nat) (nc : Bool) : List Byte → State
  | [] => s
  | b :: bs => State.putL1s (s.putL1 c t k nc b) c t (k + 1) nc bs

/-- A store by a thread of a compute core (R164): in DC and SC memory the words are owned first; NC bytes stay in the L1
until FLUSH (R189); a tentative word, and a page in host bias, is written at its home (R211, R325). -/
def State.storeL1 (s : State) (a : Agent) (c : Nat) (leaf : Word) (k : Nat) (bs : List Byte) : State :=
  let g := grainBytes leaf
  let n := bs.length
  let s := s.dropAhead a.self k n
  if s.lineTentative k || s.hostBias k then s.writeHome a g k bs
  else if (leaf >>> 9).toNat % 4 = 0 then (s.putL1s c a.self k true bs).trimL1 c
  else
    let s := (wordsOf k n).foldl (fun s w => s.grantWord a c g w) s
    ((s.clearPoison k n).putL1s c a.self k false bs).trimL1 c

/-! ## Release and acquire (R164, R201) -/

/-- Every owned dirty word of a core's L1 written back to its home. -/
def State.releaseL1 (s : State) (c : Nat) : State :=
  let k := s.core c
  let s := s.mergeWords (k.l1.filter (·.2.owned))
  s.setCore c { k with l1 := k.l1.map fun (w, x) => if x.owned then (w, { x with dirty := 0 }) else (w, x) }

/-- Every L1 word of DC and SC memory that the core does not own dropped. -/
def State.acquireL1 (s : State) (c : Nat) : State :=
  let k := s.core c
  s.setCore c { k with l1 := k.l1.filter fun (_, x) => x.owned || x.nc }

/-- All of a core's L1 written back and dropped, owned and NC words alike. -/
def State.dropL1 (s : State) (c : Nat) : State :=
  let s := s.mergeWords (s.core c).l1
  s.setCore c { s.core c with l1 := [], ahead := [] }

/-- The NC words of a core's L1 written back and dropped, so that a thread that leaves the core, or comes to it, finds at
the home what its maintenance events say (R189, log 32). -/
def State.flushNC (s : State) (c : Nat) : State :=
  let s := s.mergeWords ((s.core c).l1.filter (·.2.nc))
  s.setCore c { s.core c with l1 := (s.core c).l1.filter fun (_, x) => !x.nc }

/-- What strong accesses are known to come before a release of thread t: its own, and those it comes after (R170, R182). -/
def Strong.release (x : Strong) (t : Nat) : Strong :=
  if x.agent = t || x.seen.contains t then { x with released := true } else x

/-- Thread t acquires: it comes after what has been released, and after what it has read (R170, R182). -/
def Strong.acquire (x : Strong) (t : Nat) : Strong :=
  if (x.released || x.read.contains t) && !x.seen.contains t then { x with seen := t :: x.seen } else x

/-- What thread t comes after in operand memory, whoever acquires after its release comes after too (R182, R183, log 19). -/
def Touch.release (e : Touch) (t : Nat) : Touch :=
  if (e.actor == .thread t || e.after.contains (.thread t)) && !e.after.contains .released then { e with after := .released :: e.after }
  else e

/-- Thread t, which acquires, comes after what has been released (R182, R183, log 19). -/
def Touch.acquire (e : Touch) (t : Nat) : Touch :=
  if e.after.contains .released && !e.after.contains (.thread t) then { e with after := .thread t :: e.after } else e

/-- A change to every record of strong accesses and of touched operand memory. -/
def State.reorder (s : State) (f : Strong → Strong) (g : Touch → Touch) : State :=
  { s with
    strong := s.strong.map f
    cores := s.cores.map fun (y : Nat × Core) => (y.1, { y.2 with touches := y.2.touches.map g }) }

/-- A release event of a thread: the owned dirty words of its core's L1 go to their homes (R164). -/
def State.release (s : State) (t : Nat) : State :=
  let s := s.reorder (·.release t) (·.release t)
  if isCompute t then s.releaseL1 (coreOf t) else s

/-- An acquire event of a thread: the words its core does not own leave the L1, and it has loaded nothing ahead but NC words
(R164, R182). -/
def State.acquire (s : State) (t : Nat) : State :=
  let s := s.reorder (·.acquire t) (·.acquire t)
  let s := { s with cores := s.cores.map fun (y : Nat × Core) =>
      (y.1, if y.1 = coreOf t then { y.2 with ahead := y.2.ahead.filter (·.2.2) } else y.2) }
  if isCompute t then s.acquireL1 (coreOf t) else s

/-- The NC, or the owned, words of a core's L1 within a block of keys written back to the home. -/
def State.flushL1 (s : State) (c k n : Nat) : State :=
  let x := s.core c
  let inside := fun w => decide (k / 4 ≤ w) && decide (4 * w < k + n)
  let s := s.mergeWords (x.l1.filter fun y => inside y.1)
  s.setCore c { x with l1 := x.l1.map fun (w, y) => if inside w then (w, { y with dirty := 0 }) else (w, y) }

/-- The words of a core's L1 within a block of keys that it does not own dropped, and what it has loaded ahead of them. -/
def State.invalL1 (s : State) (c k n : Nat) : State :=
  let x := s.core c
  let outside := fun (w : Nat) => decide (w < k / 4) || decide (k + n ≤ 4 * w)
  s.setCore c { x with
    l1 := x.l1.filter fun (y : Nat × L1Word) => y.2.owned || outside y.1
    ahead := x.ahead.filter fun (y : Nat × BitVec 32 × Bool) => outside y.1 }

/-- Whole blocks recalled and dropped from every L1, one core's spared where it is named (tentative lines, CARM, page-out,
bias flips: R211, R273, R316, R327). -/
def State.recallBlock (s : State) (k n : Nat) (spare : Option Nat := none) : State :=
  s.cores.foldl (fun s (c, _) =>
    if spare = some c then s
    else
    let x := s.core c
    let s := s.mergeWords (x.l1.filter fun y => decide (k / 4 ≤ y.1) && decide (4 * y.1 < k + n))
    s.setCore c { x with l1 := x.l1.filter fun (w, _) => decide (w < k / 4) || decide (k + n ≤ 4 * w) }) s

/-! ## Armed and sealed regions (R174, R194, R273) -/

/-- Some byte of n at a first-tier key lies in an armed compute region. -/
def State.isArmed (s : State) (k n : Nat) : Bool :=
  areaOf k == .firstTier && packageOf k == s.package && (s.home (keyChannel k)).armed.any fun (b, m) => overlaps b m k n

def Sinter.touches (r : Sinter) (k n : Nat) : Bool := r.parts.any fun (b, m) => overlaps b m k n

/-- The sealed regions that n bytes at a key touch. -/
def State.sealsAt (s : State) (k n : Nat) : List Sinter := s.sealed.filter (·.touches k n)

/-- A write to sealed bytes must wait while a copy count is not zero (R174). -/
def State.sealBusy (s : State) (k n : Nat) : Bool := (s.sealsAt k n).any fun r => r.copies != 0

/-- The write unseals the regions it touches (R174). -/
def State.unsealAt (s : State) (k n : Nat) : State := { s with sealed := s.sealed.filter fun r => !r.touches k n }

/-- A thread's write that unseals is an acquire event (R174, R183). -/
def State.unsealFor (s : State) (t k n : Nat) : State :=
  if (s.sealsAt k n).isEmpty then s else (s.unsealAt k n).acquire t

/-- Some dword of n bytes at a key is poisoned (R353). -/
def State.poisoned (s : State) (k n : Nat) : Bool := s.poison.any fun p => match p with
  | .mem d => overlaps (8 * d) 8 k n
  | _ => false

/-- The dwords that n bytes at an offset touch. -/
def dwordsOf (off n : Nat) : List Nat := (List.range ((off + n - 1) / 8 + 1 - off / 8)).map (off / 8 + ·)

/-- Storage that a test accepts is under self-test: an access to it waits (R354). -/
def State.underTest (s : State) (p : Place → Bool) : Bool := s.cores.any fun (y : Nat × Core) => y.2.suspects.any fun x => x.place.any p

/-- n bytes at a key touch a word's line of 64 bytes. -/
def memLine (k n : Nat) : Place → Bool
  | .mem d => overlaps (8 * d / 64 * 64) 64 k n
  | _ => false

/-- A core's threads have written every one of n bytes at a key in the core's L1, so that a load reads nothing of the home's. -/
def State.coveredL1 (s : State) (c k n : Nat) : Bool := (List.range n).all fun i =>
  match Tab.find (s.core c).l1 ((k + i) / 4) with
  | some x => x.dirty.getLsbD ((k + i) % 4)
  | none => false

/-- A dword of n bytes at a key is poisoned for a load by thread t: not one of which its core has written all that it reads. -/
def State.poisonedTo (s : State) (t k n : Nat) : Bool := s.poison.any fun p => match p with
  | .mem d => overlaps (8 * d) 8 k n
    && !(isCompute t && s.coveredL1 (coreOf t) (max k (8 * d)) (min (k + n) (8 * d + 8) - max k (8 * d)))
  | _ => false

/-! ## Values that R9 leaves undefined, in memory -/

/-- n bytes at a key become undefined (R9): no copy of the earlier ones stays. -/
def State.freeMem (s : State) (k n : Nat) : State :=
  let bs := blockGet (Config.freeBits s.fresh) 0 n
  let s := (wordsOf k n).foldl (fun s w => s.recallWord none w) { s with fresh := s.fresh + 1 }
  let s := s.dropCopies none (k / 4) ((k + n - 1) / 4 + 1 - k / 4)
  { s with mem := s.mem.writeN k bs }

/-! ## Targets of entries of a merge log (R208, R209) -/

def Dupd.size (e : Dupd) : Nat := if e.dword then 8 else 4

def Dupd.covers (e : Dupd) (b : Nat) : Bool := decide (e.key ≤ b) && decide (b < e.key + e.size)

/-- The bytes of n at a key that entries of the merge log of their home name, which nothing but DUPD may access before the merge
(R209). -/
def State.logged (s : State) (k n : Nat) : List Nat :=
  if areaOf k == .firstTier && packageOf k == s.package then
    ((List.range n).map (k + ·)).filter fun b => (s.home (keyChannel b)).log.any fun (d : Dupd) => d.covers b
  else []

/-- A byte of such a target accessed: it is undefined, now and when the entries have been merged (R10, R209). -/
def State.breachAt (s : State) (b : Nat) : State :=
  let x := s.home (keyChannel b)
  (s.freeMem b 1).setHome (keyChannel b)
    { x with early := (x.early ++ (x.log.filter fun (d : Dupd) => d.covers b).map fun (d : Dupd) => (b, 1, d.epoch)).eraseDups }

def State.breach (s : State) (bs : List Nat) : State := bs.foldl (fun s b => s.breachAt b) s

/-- An access to n bytes at a key, by whatever means but DUPD: targets of the merge log among them are undefined before it and
after it (R10, R209). -/
def breaching {α : Type} (k n : Nat) (access : Op α) : Op α := do
  let bs := (← get).logged k n
  modify (·.breach bs)
  let x ← access
  modify (·.breach bs)
  return x

/-! ## Loads ahead (R160, R191, log 12) -/

/-- What a core has loaded ahead, in place of the bytes at a key as memory has them. -/
def State.withAhead (s : State) (c k : Nat) (bs : List Byte) : List Byte :=
  if (s.core c).ahead.isEmpty then bs
  else bs.mapIdx fun i b => match Tab.find (s.core c).ahead ((k + i) / 4) with
    | some x => wordByte x.1 ((k + i) % 4)
    | none => b

/-- A core can load a word of this package's tiers ahead: it does not own it, no cell of its line is tentative, and it is sound. -/
def State.mayAhead (s : State) (c w : Nat) : Bool :=
  let k := 4 * w
  packageOf k == s.package && (areaOf k == .firstTier || areaOf k == .secondTier) && !s.hostBias k && !s.lineTentative k
    && !s.poisoned k 4 && !s.isArmed k 4 && (s.logged k 4).isEmpty
    && (match Tab.find (s.core c).l1 w with
        | some x => !x.owned && x.dirty == 0
        | none => true)

/-- What a core has loaded ahead, with one word more where it can load it and has it not yet. -/
def State.aheadAt (s : State) (c w : Nat) (nc : Bool) (a : Tab (BitVec 32 × Bool)) : Tab (BitVec 32 × Bool) :=
  if s.mayAhead c w && (Tab.find a w).isNone then Tab.put a w (s.l1Word c w, nc) else a

/-- Every core with what it has loaded ahead changed. -/
def State.mapAhead (s : State) (f : Nat → Tab (BitVec 32 × Bool) → Tab (BitVec 32 × Bool)) : State :=
  { s with cores := s.cores.map fun (y : Nat × Core) => (y.1, { y.2 with ahead := f y.1 y.2.ahead }) }

/-- Words that cores load ahead of their instructions: core and word. -/
def State.loadsAhead (s : State) (l : List (Nat × Nat)) : State :=
  s.mapAhead fun c a => l.foldl (fun a (y : Nat × Nat) => if y.1 = c then s.aheadAt c y.2 false a else a) a

end Sys2Proof.Machine
end

