-- ==== Sys2Proof/Machine/Commands.lean ====
section
/-! DEFINITION.
Engine commands as others see them: the slots and accumulators a command names, the commands of an engine, and whether an
on-chip access meets a matrix command without order (R25, R104, R243, R244).
-/

namespace Sys2Proof.Machine

/-- MFMT of a snapshot of e0 (R241). -/
def mfmtOf (e0 : Word) : Nat := (e0 >>> 16).toNat % 16

/-- The slots (0 to 31) and accumulators (32 to 39) an engine command names (R243, R244). -/
def Command.names (c : Command) : List Nat :=
  match c.op with
  | .mld x a p _ z _ _ _ _ _ _ _ => if a = 1 then (if p = 1 then [32 + z.toNat, 33 + z.toNat] else [32 + z.toNat]) else [x.toNat]
  | .mst x a p _ z _ _ _ _ _ _ _ => if a = 1 then (if p = 1 then [32 + z.toNat, 33 + z.toNat] else [32 + z.toNat]) else [x.toNat]
  | .mma x y z _ _ _ _ _ =>
    [x.toNat, y.toNat, 32 + z.toNat] ++ (if mfmtOf c.ext[0] = 5 then [33 + z.toNat] else [])
  | .mmas x y z _ _ _ _ _ _ => [x.toNat, y.toNat, 32 + z.toNat]
  | .mcmp x y _ _ _ _ _ => [x.toNat, y.toNat]
  | .mzero z _ _ _ _ => [32 + z.toNat]
  | _ => []

def Core.engine (k : Core) : EngineSel → Engine
  | .matrix => k.matrix
  | .copy => k.copy

def Core.setEngine (k : Core) : EngineSel → Engine → Core
  | .matrix, e => { k with matrix := e }
  | .copy, e => { k with copy := e }

/-- The commands of an engine that have issued and not completed. -/
def Engine.all (e : Engine) : List Command := e.running.toList ++ e.queue ++ e.parked.map (·.cmd)

/-- The commands that have neither completed nor parked. -/
def Engine.live (e : Engine) : List Command := e.running.toList ++ e.queue

def Core.commands (k : Core) : List Command := k.matrix.all ++ k.copy.all

/-- The thread has a command outstanding that records its progress in extension register i (R103). -/
def Core.recording (k : Core) (t : Nat) (i : BitVec 3) : Bool := k.commands.any fun c => c.thread == t && match c.op with
  | .mld .. => i == 6
  | .mst .. => i == 6
  | .cpy .. => i == 6 || i == 7
  | _ => false

/-- Extension register i written by an instruction.  A thread must not write e6 with an MLD, MST or CPY outstanding, nor e7
with a CPY; where it does the register is undefined (R10, R248, R272, log 11). -/
def writeExt (i : BitVec 3) (r : Reg) : Op Unit := do
  let s ← get
  if (s.core (coreOf s.cur)).recording s.cur i then
    set ({ s with fresh := s.fresh + 1 } : State)
    modMe (·.setExt i (Reg.of ((Config.freeBits s.fresh).setWidth 64)))
  else modMe (·.setExt i r)

/-! ## Formats (R241) -/

/-- Element bytes, full K and whether it is one of the formats. -/
def mfmtBytes (m : Nat) : Nat := if m ≤ 1 then 1 else if m ≤ 3 then 2 else if m = 4 then 4 else 8
def mfmtFull (m : Nat) : Nat := 64 / mfmtBytes m
def mfmtOk (m : Nat) : Bool := decide (m ≤ 5)

/-- The K count of a command: e1[6:0], where 0 means the full K. -/
def kCount (m : Nat) (e1 : Word) : Nat := if e1.toNat % 128 = 0 then mfmtFull m else e1.toNat % 128

/-! ## The bytes a command touches (R25, R247, R249, R254, R255) -/

/-- The first n bytes of each of the sixteen rows of a resource: resource, first byte, length. -/
def rowSpans (r n : Nat) : List (Nat × Nat × Nat) := (List.range 16).map fun i => (r, 64 * i, n)

/-- The bytes of operand memory that a command reads. -/
def Command.reads (c : Command) : List (Nat × Nat × Nat) :=
  match c.op with
  | .mst .. => c.names.map fun r => (r, 0, 1024)
  | .mma x y z _ _ _ _ _ =>
    let n := kCount (mfmtOf c.ext[0]) c.ext[1] * mfmtBytes (mfmtOf c.ext[0])
    rowSpans x.toNat n ++ rowSpans y.toNat n ++ (32 + z.toNat, 0, 1024) ::
      (if mfmtOf c.ext[0] = 5 then [(33 + z.toNat, 0, 1024)] else [])
  | .mmas x y z _ _ _ _ _ _ => rowSpans x.toNat 16 ++ rowSpans y.toNat 32 ++ [(32 + z.toNat, 0, 1024)]
  | .mcmp _ y _ _ _ _ _ => rowSpans y.toNat 32
  | _ => []

/-- The resources that a command writes whole. -/
def Command.writes (c : Command) : List Nat :=
  match c.op with
  | .mld .. => c.names
  | .mma _ _ z _ _ _ _ _ => (32 + z.toNat) :: (if mfmtOf c.ext[0] = 5 then [33 + z.toNat] else [])
  | .mmas _ _ z _ _ _ _ _ _ => [32 + z.toNat]
  | .mcmp x _ _ _ _ _ _ => [x.toNat]
  | .mzero z _ _ _ _ => [32 + z.toNat]
  | _ => []

/-- The spans a command touches, and whether it writes them. -/
def Command.spans (c : Command) : List (Bool × Nat × Nat × Nat) :=
  c.reads.map (fun y => (false, y)) ++ c.writes.map fun r => (true, r, 0, 1024)

/-! ## Order between on-chip accesses and matrix commands (R25, R171) -/

/-- An access by an actor, whose command waits on the commands `deps`, comes after what a touch records. -/
def Touch.before (e : Touch) (who : Actor) (deps : List Nat) : Bool :=
  e.actor == who || e.after.contains who || deps.any fun i => e.actor == .cmd i || e.after.contains (.cmd i)

/-- An access to a resource's bytes meets one of the other kind without order: what is recorded, or, for an access through
the on-chip map, a matrix command that has issued and not completed. -/
def Core.clashes (k : Core) (matrix : Bool) (who : Actor) (deps : List Nat) (write : Bool) (r first n : Nat) : Bool :=
  (k.touches.any fun e => e.matrix != matrix && e.res == r && (e.write || write) && overlaps e.first e.len first n
      && !e.before who deps)
  || (!matrix && k.matrix.all.any fun m => !deps.contains m.id
      && m.spans.any fun y => y.2.1 == r && (y.1 || write) && overlaps y.2.2.1 y.2.2.2 first n)

/-- The commands among some that wait, directly or through others, on command id. -/
def followers (cs : List Command) (id : Nat) : List Nat :=
  (List.range cs.length).foldl (fun ids _ =>
    cs.foldl (fun ids c => if !ids.contains c.id && c.deps.any (fun d => d == id || ids.contains d) then c.id :: ids else ids) ids) []

/-- A touch recorded, in place of an equal earlier one. -/
def Core.touch (k : Core) (e : Touch) : Core :=
  { k with touches := e :: k.touches.filter fun x =>
      !(x.matrix == e.matrix && x.actor == e.actor && x.res == e.res && x.first == e.first && x.len == e.len && x.write == e.write) }

/-- An access through the on-chip map to n bytes of a resource recorded. -/
def Core.noteAccess (k : Core) (who : Actor) (write : Bool) (r first n : Nat) : Core :=
  let after := match who with
    | .cmd id => (followers k.commands id).map Actor.cmd
    | _ => []
  k.touch ⟨false, who, r, first, n, write, after⟩

/-- A matrix command that has completed, recorded. -/
def Core.noteCommand (k : Core) (c : Command) : Core :=
  let after := (followers k.commands c.id).map Actor.cmd
  c.spans.foldl (fun k y => k.touch ⟨true, .cmd c.id, y.2.1, y.2.2.1, y.2.2.2, y.1, after⟩) k

/-- A command issued by thread t comes after what it waits on, and with ACQ after all that the thread comes after, its own
accesses among them (R171). -/
def Core.orderIssue (k : Core) (c : Command) (acq : Bool) : Core :=
  { k with touches := k.touches.map fun e =>
      if e.before (.cmd c.id) c.deps || (acq && e.before (.thread c.thread) []) then { e with after := .cmd c.id :: e.after } else e }

/-- What a command with REL has come after, its thread comes after once it observes the completion: at once where it waited
with .s, otherwise through dependency slot n (R171). -/
def Core.orderRelease (k : Core) (c : Command) (who : Actor) : Core :=
  { k with touches := k.touches.map fun e =>
      if e.actor == .cmd c.id || e.after.contains (.cmd c.id) then { e with after := who :: e.after } else e }

/-- Thread t has observed dependency slot n. -/
def Core.orderObserved (k : Core) (t n : Nat) : Core :=
  { k with touches := k.touches.map fun e =>
      if e.after.contains (.slot t n) then { e with after := .thread t :: e.after } else e }

/-- Nothing has touched a resource that is newly claimed. -/
def Core.untouched (k : Core) (r : Nat) : Core := { k with touches := k.touches.filter (·.res != r) }

end Sys2Proof.Machine
end

