-- ==== Sys2Proof/Machine/Operands.lean ====
section
/-! DEFINITION.
The operand forms of the encodings (R108, R115), the families of instructions and where each may run, and the order of
the checks that an instruction passes before it acts (R114).
-/

namespace Sys2Proof.Machine

/-! ## Immediates -/

/-- sign_extend of a field (R115). -/
def sext {n : Nat} (x : BitVec n) : Word := x.signExtend 64

/-- zero_extend of a field (R115). -/
def zext {n : Nat} (x : BitVec n) : Word := x.setWidth 64

/-- A branch offset counts halfwords from pc (R108). -/
def halfwords {n : Nat} (o : BitVec n) : Word := sext o <<< 1

/-- The operation width that SZ codes: 8, 16, 32 or 64 bits (R140). -/
def opBits (z : BitVec 2) : Nat := 8 <<< z.toNat

/-- The low n bits of a word read as a number, and the extension of an n-bit result to a register (R141). -/
def lowBits (n : Nat) (x : Word) : Nat := x.toNat % 2 ^ n
def extendS (n x : Nat) : Word := if x % 2 ^ n < 2 ^ (n - 1) then BitVec.ofNat 64 (x % 2 ^ n) else BitVec.ofNat 64 (2 ^ 64 - 2 ^ n + x % 2 ^ n)
def extendZ (n x : Nat) : Word := BitVec.ofNat 64 (x % 2 ^ n)

/-- Memory-format displacements: DISP11 scaled by the access size, or the index shifted by SCALE (R197). -/
def disp (i : BitVec 11) (size : Nat) : Word := sext i * BitVec.ofNat 64 size
def scaled (x : Word) (s : BitVec 2) : Word := x <<< s.toNat

/-- The registers whose bits are set in a mask. -/
def bitsIn (n : Nat) (m : Nat) : List Nat := (List.range n).filter m.testBit

/-! ## Families and subsets (R36, R114, R158, R195, R236, R267, R268) -/

/-- Instructions that the unit subsets and the remote subset treat alike. -/
inductive Family where
  | scalar | hint | loadStore | atomic | fence | barrier | cell | maintain | seal | dupd | tentative
  | vector | vectorMemory | vectorStream | matrix | copy | sinter | near | phase | spawn | task | work | call | reply
  deriving DecidableEq, Repr

/-- The near subset (R36, R195, R236, R267). -/
def Family.onVent : Family → Bool
  | .scalar | .hint | .loadStore | .atomic | .fence | .cell | .tentative | .vector | .vectorMemory | .near | .spawn
  | .work | .reply => true
  | .barrier | .maintain | .seal | .dupd | .vectorStream | .matrix | .copy | .sinter | .phase | .task | .call => false

/-- Majors 0x00 to 0x07, 0x10 to 0x14 and 0x3F (R114); COMMIT is in major 0x14, RETRACT is not. -/
def Family.onControl : Family → Bool
  | .scalar | .hint | .loadStore | .atomic | .fence | .barrier | .cell | .maintain | .seal => true
  | _ => false

/-- The remote subset (R268). -/
def Family.inRemote : Family → Bool
  | .scalar | .hint | .loadStore | .atomic | .fence | .cell | .tentative | .vector | .vectorMemory | .near | .spawn
  | .reply => true
  | _ => false

/-- Whether a unit has the family. -/
def Family.runsOn (f : Family) (t : Nat) : Bool :=
  if isVent t then f.onVent else if isControl t then f.onControl else isCompute t

/-! ## The order of the checks (R114, R135) -/

/-- Steps 3 to 5 of R114 and the wait of R135, then the instruction's own checks and effect: `priv` is step 5, `named` are
the scalar registers the instruction names.  Scalar and control-core instructions count as events 0 and 40 (R358). -/
def issue (f : Family) (named : List (BitVec 4)) (body : Op Unit) (priv : Op Unit := pure ()) : Op Unit := do
  let id ← self
  require (f.runsOn id) .illegal
  let t ← me
  if t.remote && !f.inRemote then trap .remoteSubset
  priv
  if named.any t.marked then waitFor .mark
  modify fun s => if isControl id then s.count id 40 else if f == .scalar || f == .hint then s.count id 0 else s
  body

end Sys2Proof.Machine
end

