-- ==== Sys2Proof/Machine/Translate.lean ====
section
/-! DEFINITION.
Pagers, page tables, shootdowns and line homes (R300 to R310).
-/

namespace Sys2Proof.Machine

/-! ## Leaf entries (R303) -/

namespace Leaf

def valid (e : Word) : Bool := e.getLsbD 0
def leaf (e : Word) : Bool := e.getLsbD 1
def size (e : Word) : Nat := (e >>> 2).toNat % 4
def cls (e : Word) : Nat := (e >>> 9).toNat % 4
def grain (e : Word) : Nat := (e >>> 11).toNat % 4
def place (e : Word) : Nat := (e >>> 13).toNat % 4
def sysatom (e : Word) : Bool := e.getLsbD 15
def biasmgd (e : Word) : Bool := e.getLsbD 16
def present (e : Word) : Bool := e.getLsbD 17
def remote (e : Word) : Bool := e.getLsbD 18
def slice (e : Word) : Nat := (e >>> 19).toNat % 4096
def frame (e : Word) : Nat := e.toNat / 2 ^ 32

def has (e : Word) : Right → Bool
  | .r => e.getLsbD 4
  | .w => e.getLsbD 5
  | .x => e.getLsbD 6
  | .a => e.getLsbD 7
  | .t => e.getLsbD 8

/-- Page size in bytes, by SIZE. -/
def bytes (e : Word) : Nat := sizeBytes (size e)

/-- A leaf at a level is valid (R304). -/
def leafOk (level : Nat) (e : Word) : Bool :=
  valid e && leaf e && !e.getLsbD 31
    && (match level with
        | 2 => size e == 3
        | 1 => size e == 2
        | 0 => size e == 0 || size e == 1
        | _ => false)
    && decide (frame e % (bytes e / 4096) = 0)
    && cls e != 3 && grain e != 3 && place e != 3
    && (remote e || (match place e with
        | 0 => slice e / 16 == 0
        | 1 => slice e / 8 % 2 == 0
        | _ => slice e == 0))

/-- A pointer at a level is valid: bits 31:2 are zero (R303, R304). -/
def pointerOk (level : Nat) (e : Word) : Bool := valid e && !leaf e && decide (0 < level) && e.toNat / 4 % 2 ^ 30 == 0

end Leaf

/-! ## Hotness (R319) -/

/-- The memory key of a local address of this package. -/
def State.localKey (s : State) (a : Nat) : Nat := keyOf (s.package * 2 ^ 44 + a % 2 ^ 44)

/-- hotctl of a controller. -/
def State.hotctlOf (s : State) (c : Nat) : Word := Tab.get hotctlReset s.hotctl c

/-- The identifier a controller posts events under: its stack's first vent core, or the control core beside its port. -/
def controllerUnit (c : Nat) : Nat := if c < 8 then ventThread (c * 64) 0 else controlThread ((c - 8) * 64) 0

/-- A 64-byte transfer that a memory controller performs for a request of a class (R319). -/
def State.transfer (s : State) (cls k : Nat) : State :=
  let c := controllerOf k
  let w := s.hotctlOf c
  if packageOf k ≠ s.package ∨ !(areaOf k == .firstTier || areaOf k == .secondTier) ∨ !w.getLsbD 63 then s
  else
    let i := k / 0x10000 * 8 + cls % 8
    let n := min ((Tab.get 0 s.hot i).toNat + 1) 0xFFFF
    if max 1 (w.toNat % 2 ^ 16) ≤ n then
      State.postEvent { s with hot := Tab.put s.hot i 0 } ((w >>> 32).toNat % 4 * 64 + (w >>> 34).toNat % 64) 9 0 (cls % 8) n
        (controllerUnit c) (BitVec.ofNat 64 (localOf k / 0x10000 * 0x10000))
    else { s with hot := Tab.put s.hot i (BitVec.ofNat 16 n) }

/-- The sector of 32 bytes, of the 16 of a line, that holds a key (R167). -/
def sectorOf (k : Nat) : Nat := k % 512 / 32

/-- The L2 home of a line holds the sector of a key (R167). -/
def State.resident (s : State) (k : Nat) : Bool := s.lines.any fun l => l.key == k / 512 * 512 && l.valid.getLsbD (sectorOf k)

/-- Sectors that lie in n bytes at a key, of a line at a key. -/
def sectorsIn (line k n : Nat) : BitVec 16 :=
  (List.range 16).foldl (fun (v : BitVec 16) i => if overlaps (line + 32 * i) 32 k n then v ||| 1 <<< i else v) 0

/-- The sectors in n bytes at a key leave the L2 (R167). -/
def State.dropSectors (s : State) (k n : Nat) : State :=
  { s with lines := (s.lines.map fun l => { l with valid := l.valid &&& ~~~ sectorsIn l.key k n }).filter (·.valid != 0) }

/-- The 64-byte lines that n bytes at a key lie in. -/
def linesOf (k n : Nat) : List Nat := (List.range ((k + n - 1) / 64 + 1 - k / 64)).map (k / 64 + ·)

/-- The transfers that a request of a class for n bytes makes a controller perform: one for each 64-byte line that the L2
does not hold (R319). -/
def State.requested (s : State) (cls k n : Nat) : State :=
  (linesOf k n).foldl (fun (s : State) l => if s.resident (64 * l) && s.resident (64 * l + 32) then s else s.transfer cls (64 * l)) s

/-! ## Pagers (R300) -/

/-- The pager that serves a thread: its cluster's, or its stack's under 1000 + stack. -/
def pagerOf (t : Nat) : Nat := if isVent t then 1000 + channelOf t / 64 else clusterOf t

def State.pager (s : State) (p : Nat) : Pager :=
  if p < 1000 then (s.cluster p).pager else Tab.get Pager.initial s.pagers p

def State.setPager (s : State) (p : Nat) (x : Pager) : State :=
  if p < 1000 then s.setCluster p { s.cluster p with pager := x } else { s with pagers := Tab.put s.pagers p x }

/-- The root register that serves an epoch (R300, R301). -/
def Pager.rootFor (p : Pager) (e : BitVec 16) : Option Nat :=
  (List.range 16).find? fun n => (p.roots.getD n 0).getLsbD 0 && (p.roots.getD n 0 >>> 48).toNat == e.toNat

/-- A page table entry, read at its home as a DC read (R302). -/
def State.entryAt (s : State) (k : Nat) : Word := BitVec.ofNat 64 (leNat (s.homeBytes k 8))

/-- A walk from a table at a level down: the leaf or pointer that ends it, its level and its key (R302). -/
def State.walkFrom (s : State) (va : Nat) : Nat → Nat → Option (Word × Nat × Nat)
  | 0, table =>
    let k := keyOf (s.package * 2 ^ 44 + table * 4096 + 8 * (va / 2 ^ 12 % 512))
    if Leaf.leafOk 0 (s.entryAt k) then some (s.entryAt k, 0, k) else none
  | level + 1, table =>
    let k := keyOf (s.package * 2 ^ 44 + table * 4096 + 8 * (va / 2 ^ (12 + 9 * (level + 1)) % 512))
    let e := s.entryAt k
    if Leaf.leafOk (level + 1) e then some (e, level + 1, k)
    else if Leaf.pointerOk (level + 1) e then State.walkFrom s va level (Leaf.frame e)
    else none

/-- The keys of the entries that such a walk reads. -/
def State.walkKeys (s : State) (va : Nat) : Nat → Nat → List Nat
  | 0, table => [keyOf (s.package * 2 ^ 44 + table * 4096 + 8 * (va / 2 ^ 12 % 512))]
  | level + 1, table =>
    let k := keyOf (s.package * 2 ^ 44 + table * 4096 + 8 * (va / 2 ^ (12 + 9 * (level + 1)) % 512))
    let e := s.entryAt k
    k :: if !Leaf.leafOk (level + 1) e && Leaf.pointerOk (level + 1) e then State.walkKeys s va level (Leaf.frame e) else []

/-- The sixteen entries that cover a 64 KiB page do not all hold the same value (R302). -/
def State.mixedLeaf (s : State) (e : Word) (k : Nat) : Bool :=
  Leaf.size e == 1 && (List.range 16).any fun i => s.entryAt (k / 128 * 128 + 8 * i) != e

/-- A walk from root register n: the leaf and the key of its entry, or nothing for an invalid entry (R302, R304). -/
def State.walk (s : State) (p : Pager) (n va : Nat) : Option (Word × Nat) :=
  match s.walkFrom va 4 ((p.roots.getD n 0).toNat / 2 ^ 12 % 2 ^ 32) with
  | some (e, _, k) => some (e, k)
  | none => none

/-- The compute die of a pager: a stack's lies beside it (R14). -/
def pagerDie (p : Nat) : Nat := if p < 1000 then p / 64 else (p - 1000) / 2

/-- The reads of a walk from root register n as the estimator and the controllers count them (R302, R319, R358). -/
def State.countWalk (s : State) (p n va : Nat) : State :=
  let keys := s.walkKeys va 4 (((s.pager p).roots.getD n 0).toNat / 2 ^ 12 % 2 ^ 32)
  let s := if p < 1000 then s.count (controlThread p 0) 25 keys.length else s
  keys.foldl (fun (s : State) k => s.requested (pagerDie p) k 8) s

/-- A miss in a pager's translation cache counted (R358). -/
def State.countMiss (s : State) (p : Nat) : State := if p < 1000 then s.count (controlThread p 0) 26 else s

/-- A leaf put into the translation cache, the least recently used entry of 4,096 replaced (R305); it is known from now
until a shootdown names it (R309). -/
def Pager.fill (p : Pager) (h : Held) : Pager :=
  { p with cache := (h :: p.cache).take 4096, known := if p.known.contains h then p.known else h :: p.known }

/-- The cached translation of an address under an epoch, and the cache with it most recent (R305). -/
def Pager.look (p : Pager) (e : BitVec 16) (va : Nat) : Option (Held × Pager) :=
  match p.cache.find? fun h => h.epoch == e && decide (h.base ≤ va) && decide (va < h.base + h.size) with
  | some h => some (h, { p with cache := h :: p.cache.filter (· != h) })
  | none => none

/-- What translation says of an address. -/
inductive Trans where
  /-- the leaf and the physical key; `mixed` as in R302 -/
  | ok (leaf : Word) (key : Nat) (mixed : Bool)
  /-- no root, an invalid entry or no mapping: RANGE (R300, R304, R315) -/
  | range
  /-- the leaf lacks the right: WINDOW (R304) -/
  | denied
  /-- the page is not present: its leaf's key and its address (R313) -/
  | absent (leafAt page : Nat)
  deriving DecidableEq, Repr

/-- The physical key of an address under its leaf (R304). -/
def State.physical (s : State) (e : BitVec 16) (leaf : Word) (va : Nat) : Nat :=
  let pkg := if Leaf.remote leaf then
      match s.launch e with
      | some l => l.packages.getD (Leaf.slice leaf) s.package
      | none => s.package
    else s.package
  keyOf (pkg * 2 ^ 44 + (Leaf.frame leaf * 4096 + va % Leaf.bytes leaf))

/-- The launch's range that holds a virtual address. -/
def Launch.rangeAt (l : Launch) (va : Nat) : Option Range :=
  l.ranges.find? fun r => decide (r.base ≤ va) && decide (va < r.base + r.pages * 4096)

/-- Why the backing store cannot supply a page (R314): no memory there, or a poisoned word. -/
def State.backingCause (s : State) (e : BitVec 16) (page : Nat) : Option Cause :=
  match s.launch e with
  | none => none
  | some l => match l.rangeAt page with
    | none => none
    | some r =>
      let k := r.backing + (page - r.base)
      if !s.present k then some .physAbsent
      else if s.poison.any fun p => match p with
          | .mem d => overlaps (8 * d) 8 k 4096
          | _ => false then some .poison
      else none

/-- The judgement of a leaf (R304): RIGHTS before anything else, then PRESENT. -/
def State.judge (s : State) (e : BitVec 16) (leaf : Word) (leafAt va : Nat) (rights : List Right) (mixed : Bool) : Trans :=
  if rights.any (fun y => !Leaf.has leaf y) then .denied
  else if !Leaf.present leaf then .absent leafAt (va / Leaf.bytes leaf * Leaf.bytes leaf)
  else .ok leaf (s.physical e leaf va) mixed

/-- An access that has waited for the service of a page finds it still not present because its backing store cannot supply it:
the cause it traps with (R313, R314). -/
def State.lostPage (s : State) (e : BitVec 16) (leafAt page : Nat) (waited : Option Nat) : Option Cause :=
  if waited = some leafAt then s.backingCause e page else none

/-- The page that the present instruction of a thread has waited for. -/
def Thread.waitedPage (t : Thread) : Option Nat := match t.begun with
  | some (.page a) => some a
  | _ => none

/-- Translation in one go, as engines, fetch and firmware use it: the cache, or else a walk and a fill (R300 to R305). -/
def State.translate (s : State) (p : Nat) (e : BitVec 16) (va : Nat) (rights : List Right) : Trans × State :=
  let g := s.pager p
  match g.rootFor e with
  | none => (.range, s)
  | some n =>
    match g.look e va with
    | some (h, g') => (s.judge e h.leaf 0 va rights h.mixed, s.setPager p g')
    | none =>
      let s := (s.countMiss p).countWalk p n va
      let g := s.pager p
      match s.walk g n va with
      | none => (.range, s)
      | some (leaf, k) =>
        let held : Held := ⟨n, e, va / Leaf.bytes leaf * Leaf.bytes leaf, Leaf.bytes leaf, leaf, s.mixedLeaf leaf k⟩
        (s.judge e leaf k va rights held.mixed, if Leaf.present leaf then s.setPager p (g.fill held) else s)

/-- A page service asked for (R313): the fault record of the cluster, and the service in progress, once for each page. -/
def State.askPage (s : State) (unit : Nat) (e : BitVec 16) (leafAt page : Nat) : State :=
  let s := s.postEvent (eventCluster s unit) 8 0 0 0 unit (BitVec.ofNat 64 page)
  if s.net.services.any fun v => v.leafAt == leafAt then s
  else { s with
    net := { s.net with services := s.net.services ++ [⟨e, page, leafAt⟩] }
    agenda := s.agenda ++ [.pageServiceComplete leafAt] }

/-- A walk that a thread's access starts (R308), and its completion still to come. -/
def State.startWalk (s : State) (p : Nat) (e : BitVec 16) (va : Nat) : State :=
  let g := s.pager p
  if g.walks.any fun w => w.va == va && w.epoch == e then s
  else
    ((s.setPager p { g with walks := g.walks ++ [⟨va, e, g.gen⟩] }).countMiss p).post [.walkComplete p g.walks.length]

/-- Translation as a thread's access makes it: a miss starts a walk and the thread waits for it (R31, R308). -/
def translateOp (ea : Word) (va : Nat) (rights : List Right) : Op (Word × Nat × Bool) := do
  let s ← get
  let t := s.thread s.cur
  let p := pagerOf s.cur
  let g := s.pager p
  match g.rootFor t.epoch with
  | none => trap .range ea
  | some _ =>
    let decideOn (v : Trans) : Op (Word × Nat × Bool) := do
      match v with
      | .ok leaf k m => return (leaf, k, m)
      | .range => trap .range ea
      | .denied => trap .window ea
      | .absent leafAt page =>
        if t.remote then trap .remoteFault ea
        match s.lostPage t.epoch leafAt page t.waitedPage with
        | some c => trap c ea
        | none => pure ()
        modify fun s => s.askPage s.cur t.epoch leafAt page
        waitKeeping (.page leafAt)
    match g.look t.epoch va with
    | some (h, g') =>
      modify fun s => s.setPager p g'
      decideOn (s.judge t.epoch h.leaf 0 va rights h.mixed)
    | none =>
      match g.walked.find? fun w => w.epoch == t.epoch && w.va == va with
      | some w =>
        modify fun s => s.setPager p { g with walked := g.walked.filter (· != w) }
        match w.answer with
        | none => trapKeeping .range ea
        | some (leaf, k) =>
          match s.judge t.epoch leaf k va rights false with
          | .denied => trapKeeping .window ea
          | v => decideOn v
      | none =>
        modify fun s => s.startWalk p t.epoch va
        waitKeeping .walk

/-- A walk completes (R308): with GEN unchanged its leaf is cached, or its answer kept for the access that waits; with GEN
changed it starts again from the root. -/
def State.finishWalk (s : State) (p n : Nat) : State :=
  let g := s.pager p
  match g.walks[min n (g.walks.length - 1)]? with
  | none => s
  | some w =>
    let rest := g.walks.filter (· != w)
    if w.gen ≠ g.gen then
      (s.setPager p { g with walks := rest ++ [{ w with gen := g.gen }] }).post [.walkComplete p rest.length]
    else
      let s := match g.rootFor w.epoch with
        | some n => s.countWalk p n w.va
        | none => s
      let g := { s.pager p with walks := rest }
      let found := match g.rootFor w.epoch with
        | none => none
        | some n => (s.walk g n w.va).map fun (leaf, k) => (n, leaf, k)
      let s := match found with
        | none => s.setPager p { g with walked := ⟨w.va, w.epoch, none⟩ :: g.walked }
        | some (n, leaf, k) =>
          if Leaf.present leaf then
            s.setPager p (g.fill ⟨n, w.epoch, w.va / Leaf.bytes leaf * Leaf.bytes leaf, Leaf.bytes leaf, leaf, s.mixedLeaf leaf k⟩)
          else s.setPager p { g with walked := ⟨w.va, w.epoch, some (leaf, k)⟩ :: g.walked }
      s.wake fun t v => v == .walk && pagerOf t == p

/-! ## Shootdowns (R306, R307) -/

/-- A held translation that a pgshoot value names. -/
def shot (v : Word) (h : Held) : Bool :=
  h.slot == (v >>> 3).toNat % 16
    && (v.getLsbD 2 || overlaps h.base h.size
          ((v >>> 12).toNat % 2 ^ 45 * 4096 / Leaf.bytes (v <<< 2 &&& 0xC) * Leaf.bytes (v <<< 2 &&& 0xC)) (Leaf.bytes (v <<< 2 &&& 0xC)))

/-- A write to pgshoot is performed: GEN advances, BUSY is set, cached translations go.  Accesses are whole steps here, so
the accesses translated earlier have been performed when SHOOTDOWN_COMPLETE clears BUSY, but for NREDs, for which it waits. -/
def Pager.shoot (p : Pager) (v : Word) : Pager :=
  { p with
    gen := p.gen + 1, busy := true, cache := p.cache.filter fun h => !shot v h, walked := []
    known := p.known.filter fun h => !shot v h, going := p.known.filter (shot v) }

/-- The physical block of a leaf holds a key. -/
def State.leafHolds (s : State) (leaf : Word) (k : Nat) : Bool :=
  packageOf k == s.package && pageHolds (Leaf.frame leaf) (Leaf.bytes leaf) (localOf k)

/-- A write to pgshoot performed at a pager (R307). -/
def State.shoot (s : State) (p : Nat) (v : Word) : State := s.setPager p ((s.pager p).shoot v)

/-- The shootdown of a pager completes: the pages it named keep the homes of their lines no longer (R309, R310). -/
def State.rehome (s : State) (p : Nat) : State :=
  let gone := (s.pager p).going.filter fun h => !Leaf.remote h.leaf
  let s := s.setPager p { s.pager p with going := [] }
  { s with
    homed := s.homed.filter fun (e : Nat × Word) => !gone.any fun h => Leaf.frame h.leaf == e.1
    touched := s.touched.filter fun (e : Nat × Nat) => !gone.any fun h => Leaf.place h.leaf == 2 && s.leafHolds h.leaf (e.1 * 512) }

/-! ## Line homes (R309, R310) -/

/-- What fixes the homes of a page's lines, were it reached now (R309). -/
def State.homingOf (s : State) (leaf : Word) : Word :=
  homing (s.subset (if Leaf.place leaf = 0 then Leaf.slice leaf % 16 else 0)) (Leaf.place leaf) (Leaf.size leaf) (Leaf.slice leaf) (Leaf.grain leaf)

/-- The home slice of a line of local memory (R309): as the page's homes were fixed when it was reached first. -/
def State.lineHome (s : State) (leaf : Word) (k : Nat) : Nat × Nat :=
  s.homeUnder ((Tab.find s.homed (Leaf.frame leaf)).getD (s.homingOf leaf)) k

/-- A page reached through its leaf: its homes are fixed until a shootdown of it completes (R309, R310), and the first agent
that reaches a line of a first-touch page fixes that line's cluster; 256 stands for an agent outside the clusters. -/
def State.touch (s : State) (unit : Nat) (leaf : Word) (k : Nat) : State :=
  let s := if (Tab.find s.homed (Leaf.frame leaf)).isSome || Leaf.remote leaf then s
    else { s with homed := Tab.put s.homed (Leaf.frame leaf) (s.homingOf leaf) }
  if Leaf.place leaf = 2 then s.touchFrom k (if isVent unit then 256 else clusterOf unit) else s

end Sys2Proof.Machine
end

