-- ==== Sys2Proof/Machine/Float.lean ====
section
/-! DEFINITION.
Number formats and arithmetic (R70 to R94): values are exact, and every result is formed exactly and rounded once.
-/

namespace Sys2Proof.Machine

/-! ## Integers (R70, R71) -/

/-- The signed number that n bits hold. -/
def signedOf (n x : Nat) : Int := if x % 2 ^ n < 2 ^ (n - 1) then (x % 2 ^ n : Nat) else (x % 2 ^ n : Nat) - (2 ^ n : Nat)

/-- A number wrapped to n bits. -/
def wrapTo (n : Nat) (x : Int) : Nat := (x % (2 ^ n : Nat)).toNat

/-- A number clamped to n signed bits, and to n unsigned bits. -/
def clampSigned (n : Nat) (x : Int) : Int := max (-(2 ^ (n - 1) : Nat)) (min x ((2 ^ (n - 1) : Nat) - 1))
def clampUnsigned (n : Nat) (x : Int) : Int := max 0 (min x ((2 ^ n : Nat) - 1))

/-- Quotient and remainder of R71 on n bits. -/
def divSigned (n a b : Nat) : Nat :=
  if signedOf n b = 0 then 2 ^ n - 1 else wrapTo n (Int.tdiv (signedOf n a) (signedOf n b))
def remSigned (n a b : Nat) : Nat :=
  if signedOf n b = 0 then a % 2 ^ n else wrapTo n (Int.tmod (signedOf n a) (signedOf n b))
def divUnsigned (n a b : Nat) : Nat := if b = 0 then 2 ^ n - 1 else a / b
def remUnsigned (a b : Nat) : Nat := if b = 0 then a else a % b

/-! ## Floating formats (R72 to R76) -/

/-- A floating format: an IEEE layout by its exponent and trailing bits, or a binary8 variant. -/
inductive Fmt where
  | ieee (eb tb : Nat)
  | b8 (p : Nat) (signed inf : Bool)
  deriving DecidableEq, Repr

def Fmt.f16 : Fmt := .ieee 5 10
def Fmt.bf16 : Fmt := .ieee 8 7
def Fmt.f32 : Fmt := .ieee 8 23
def Fmt.f64 : Fmt := .ieee 11 52

/-- The variant a 5-bit descriptor B8D names (R74). -/
def Fmt.ofB8D (d : BitVec 5) : Fmt := .b8 (d.toNat % 8) (d.getLsbD 3) (d.getLsbD 4)

/-- PREC = 0 is reserved (R74). -/
def b8dOk (d : BitVec 5) : Bool := d.toNat % 8 != 0

/-- Width in bits. -/
def Fmt.width : Fmt → Nat
  | .ieee eb tb => 1 + eb + tb
  | .b8 .. => 8

/-- Precision, counting the implicit bit. -/
def Fmt.prec : Fmt → Nat
  | .ieee _ tb => tb + 1
  | .b8 p .. => p

/-- Exponent of the smallest normal number. -/
def Fmt.emin : Fmt → Int
  | .ieee eb _ => 2 - (2 ^ (eb - 1) : Nat)
  | .b8 p signed _ => 1 - (2 ^ ((if signed then 7 else 8) - p) : Nat)

/-- Exponent of the smallest quantum. -/
def Fmt.qmin (f : Fmt) : Int := f.emin - ((f.prec : Int) - 1)

/-- Whether the format has infinities and negative numbers. -/
def Fmt.hasInf : Fmt → Bool
  | .ieee .. => true
  | .b8 _ _ inf => inf

def Fmt.hasNeg : Fmt → Bool
  | .ieee .. => true
  | .b8 _ signed _ => signed

/-- Code of the largest finite magnitude. -/
def Fmt.maxCode : Fmt → Nat
  | .ieee eb tb => (2 ^ eb - 1) * 2 ^ tb - 1
  | .b8 _ true inf => if inf then 0x7E else 0x7F
  | .b8 _ false inf => if inf then 0xFD else 0xFE

/-- Code of +∞, where there is one. -/
def Fmt.infCode : Fmt → Nat
  | .ieee eb tb => (2 ^ eb - 1) * 2 ^ tb
  | .b8 _ true _ => 0x7F
  | .b8 _ false _ => 0xFE

/-- Code of the canonical NaN (R72, R82). -/
def Fmt.nanCode : Fmt → Nat
  | .ieee eb tb => (2 ^ eb - 1) * 2 ^ tb + 2 ^ (tb - 1)
  | .b8 _ true _ => 0x80
  | .b8 _ false _ => 0xFF

/-- A value: NaN (signalling or not), an infinity, or plus or minus m * 2 ^ e. -/
inductive Num where
  | nan (signalling : Bool)
  | inf (neg : Bool)
  | fin (neg : Bool) (m : Nat) (e : Int)
  deriving DecidableEq, Repr

def Num.isNan : Num → Bool
  | .nan _ => true
  | _ => false

def Num.isSnan : Num → Bool
  | .nan q => q
  | _ => false

def Num.isZero : Num → Bool
  | .fin _ 0 _ => true
  | _ => false

def Num.isInf : Num → Bool
  | .inf _ => true
  | _ => false

def Num.neg : Num → Bool
  | .nan _ => false
  | .inf n => n
  | .fin n _ _ => n

/-- The magnitude of a finite code: the quantum count and its exponent. -/
def Fmt.magnitude (f : Fmt) (c : Nat) : Nat × Int :=
  let h := 2 ^ (f.prec - 1)
  if c / h = 0 then (c, f.qmin) else (h + c % h, f.qmin + ((c / h : Nat) - 1))

/-- The value of a code (R72, R74). -/
def Fmt.decode (f : Fmt) (c : Nat) : Num :=
  match f with
  | .ieee eb tb =>
    let a := c % 2 ^ (eb + tb)
    let neg := decide (c / 2 ^ (eb + tb) % 2 = 1)
    if f.infCode < a then .nan (decide (a % 2 ^ tb < 2 ^ (tb - 1)))
    else if a = f.infCode then .inf neg
    else .fin neg (f.magnitude a).1 (f.magnitude a).2
  | .b8 _ signed inf =>
    let a := c % 256
    if a = f.nanCode then .nan false
    else if signed then
      let neg := decide (128 ≤ a)
      if inf && a % 128 = 127 then .inf neg else .fin neg (f.magnitude (a % 128)).1 (f.magnitude (a % 128)).2
    else if inf && a = 0xFE then .inf false
    else .fin false (f.magnitude a).1 (f.magnitude a).2

/-! ## Rounding (R77, R79, R84, R85) -/

/-- Rounding modes (R77). -/
inductive Rm where
  | rne | rtz | rup | rdn
  deriving DecidableEq, Repr

/-- The mode that RM or FRM codes; RM 4 reads the dynamic mode. -/
def Rm.of (rm : Nat) (frm : Nat) : Rm :=
  match (if rm = 4 then frm % 4 else rm) with
  | 0 => .rne
  | 1 => .rtz
  | 2 => .rup
  | _ => .rdn

/-- Flags NX, UF, OF, DZ, NV in bits 0 to 4 (R78). -/
abbrev Flags := BitVec 5

def NX : Flags := 1
def UF : Flags := 2
def OF : Flags := 4
def DZ : Flags := 8
def NV : Flags := 16

/-- A magnitude of at least m * 2 ^ e and less than (m + 1) * 2 ^ e; it is m * 2 ^ e exactly unless `more`. -/
structure Mag where
  m    : Nat
  e    : Int
  more : Bool
  deriving DecidableEq, Repr

/-- A magnitude rounded to multiples of 2 ^ q: the count of quanta, and inexact or not.  In a binary8 format with P = 1 both
neighbours of a tie have the one-bit significand 1, so that R77's ties to even names neither; such a tie goes up in magnitude
(log 51). -/
def Mag.quantise (x : Mag) (rm : Rm) (neg : Bool) (q : Int) : Nat × Bool :=
  if q ≤ x.e then (x.m * 2 ^ (x.e - q).toNat, x.more)
  else
    let sh := (q - x.e).toNat
    let n := x.m / 2 ^ sh
    let r := x.m % 2 ^ sh
    let inexact := r != 0 || x.more
    let half := 2 ^ (sh - 1)
    let up := match rm with
      | .rne => decide (half < r) || (r == half && (x.more || n % 2 == 1))
      | .rtz => false
      | .rup => inexact && !neg
      | .rdn => inexact && neg
    (if up then n + 1 else n, inexact)

/-- The exponent of the leading bit. -/
def Mag.top (x : Mag) : Int := x.e + Nat.log2 x.m

/-- The overflow value of R84: a code magnitude, or nothing where it is NaN. -/
def Fmt.overflow (f : Fmt) (rm : Rm) (neg sat : Bool) : Option Nat :=
  let largest := sat || rm == .rtz || (rm == .rdn && !neg) || (rm == .rup && neg)
  if largest then some f.maxCode else if f.hasInf then some f.infCode else none

/-- The sign bit of a format. -/
def Fmt.signBit (f : Fmt) (neg : Bool) : Nat := if neg then 2 ^ (f.width - 1) else 0

/-- A finite nonzero magnitude with a sign, rounded into a format: the code and the flags. -/
def Fmt.roundMag (f : Fmt) (rm : Rm) (sat neg : Bool) (x : Mag) : Nat × Flags :=
  let q := max (x.top - ((f.prec : Int) - 1)) f.qmin
  let (n, inexact) := x.quantise rm neg q
  let code := (q - f.qmin).toNat * 2 ^ (f.prec - 1) + n
  -- tininess after rounding: rounded with an unbounded exponent, the result is still below the smallest normal (R79)
  let free := x.quantise rm neg (x.top - ((f.prec : Int) - 1))
  let tiny := decide (x.top < f.emin) && !(decide (x.top = f.emin - 1) && free.1 == 2 ^ f.prec)
  let flags : Flags := (if inexact then NX else 0) ||| (if inexact && tiny then UF else 0)
  if !f.hasNeg && neg then
    if n = 0 then (0, flags)                                         -- R85
    else if sat then (0, NX) else (f.nanCode, NV)
  else if f.maxCode < code then
    match f.overflow rm neg sat with
    | some c => (f.signBit neg + c, OF ||| NX)
    | none => (f.nanCode, OF ||| NX)
  else if n = 0 && (match f with | .b8 .. => true | _ => false) then (0, flags)
  else (f.signBit neg + code, flags)

/-- The code of a zero of a sign; binary8 has no −0 (R74, R85). -/
def Fmt.zero (f : Fmt) (neg : Bool) : Nat :=
  match f with
  | .ieee .. => f.signBit neg
  | .b8 .. => 0

/-- A value put into a format (R77 to R85): the code and the flags raised by the rounding. -/
def Fmt.round (f : Fmt) (rm : Rm) (sat : Bool) (x : Num) : Nat × Flags :=
  match x with
  | .nan q => (f.nanCode, if q then NV else 0)
  | .inf neg =>
    if !f.hasNeg && neg then (if sat then (0, NX) else (f.nanCode, NV))
    else if f.hasInf then (f.signBit neg + f.infCode, 0)
    else if sat then (f.signBit neg + f.maxCode, NX) else (f.nanCode, NV)
  | .fin neg m e => if m = 0 then (f.zero neg, 0) else f.roundMag rm sat neg ⟨m, e, false⟩

/-! ## Exact sums -/

/-- Terms m * 2 ^ e added exactly: the sum's m and e. -/
def addExact (x y : Int × Int) : Int × Int :=
  if x.2 ≤ y.2 then (x.1 + y.1 * (2 ^ (y.2 - x.2).toNat : Nat), x.2)
  else (x.1 * (2 ^ (x.2 - y.2).toNat : Nat) + y.1, y.2)

def sumExact (xs : List (Int × Int)) : Int × Int := xs.foldl addExact (0, 0)

/-- The signed term of a finite value. -/
def Num.term : Num → Int × Int
  | .fin neg m e => (if neg then -(m : Int) else m, e)
  | _ => (0, 0)

/-- A signed exact number as a value; an exact zero takes the sign given. -/
def Num.ofTerm (x : Int × Int) (zeroNeg : Bool) : Num :=
  if x.1 = 0 then .fin zeroNeg 0 0 else .fin (decide (x.1 < 0)) x.1.natAbs x.2

/-- NV for signalling inputs (R82). -/
def snanFlag (xs : List Num) : Flags := if xs.any Num.isSnan then NV else 0

/-! ## Operations (R79, R82, R226) -/

def Num.negate : Num → Num
  | .nan q => .nan q
  | .inf n => .inf (!n)
  | .fin n m e => .fin (!n) m e

/-- Exact product; the flag is NV for ∞ × 0. -/
def mulNum (x y : Num) : Num × Flags :=
  match x, y with
  | .nan _, _ => (.nan false, 0)
  | _, .nan _ => (.nan false, 0)
  | .inf a, .inf b => (.inf (a != b), 0)
  | .inf a, .fin b m _ => if m = 0 then (.nan false, NV) else (.inf (a != b), 0)
  | .fin a m _, .inf b => if m = 0 then (.nan false, NV) else (.inf (a != b), 0)
  | .fin a m e, .fin b n g => (.fin (a != b) (m * n) (e + g), 0)

/-- Exact sum of two values under a rounding mode, which gives the sign of an exact zero; NV for ∞ − ∞. -/
def addNum (rm : Rm) (x y : Num) : Num × Flags :=
  match x, y with
  | .nan _, _ => (.nan false, 0)
  | _, .nan _ => (.nan false, 0)
  | .inf a, .inf b => if a = b then (.inf a, 0) else (.nan false, NV)
  | .inf a, .fin .. => (.inf a, 0)
  | .fin .., .inf b => (.inf b, 0)
  | .fin a m e, .fin b n g =>
    (Num.ofTerm (addExact (Num.term (.fin a m e)) (Num.term (.fin b n g)))
      (if m = 0 ∧ n = 0 then (if a = b then a else rm == .rdn) else rm == .rdn), 0)

/-- A result with the flags of its operation, its signalling inputs and its rounding. -/
def Fmt.finish (f : Fmt) (rm : Rm) (ins : List Num) (x : Num × Flags) : Nat × Flags :=
  let r := f.round rm false x.1
  (r.1, snanFlag ins ||| x.2 ||| r.2)

def Fmt.add (f : Fmt) (rm : Rm) (x y : Num) : Nat × Flags := f.finish rm [x, y] (addNum rm x y)
def Fmt.sub (f : Fmt) (rm : Rm) (x y : Num) : Nat × Flags := f.finish rm [x, y] (addNum rm x y.negate)
def Fmt.mul (f : Fmt) (rm : Rm) (x y : Num) : Nat × Flags := f.finish rm [x, y] (mulNum x y)

/-- x × y + z rounded once. -/
def Fmt.fma (f : Fmt) (rm : Rm) (x y z : Num) : Nat × Flags :=
  let p := mulNum x y
  let r := addNum rm p.1 z
  f.finish rm [x, y, z] (r.1, p.2 ||| r.2)

/-- x ÷ y rounded once. -/
def Fmt.div (f : Fmt) (rm : Rm) (x y : Num) : Nat × Flags :=
  let fl := snanFlag [x, y]
  match x, y with
  | .nan _, _ => (f.nanCode, fl)
  | _, .nan _ => (f.nanCode, fl)
  | .inf _, .inf _ => (f.nanCode, NV)
  | .inf a, .fin b _ _ => f.round rm false (.inf (a != b))
  | .fin a _ _, .inf b => f.round rm false (.fin (a != b) 0 0)
  | .fin a m e, .fin b n g =>
    if n = 0 then
      if m = 0 then (f.nanCode, NV)
      else
        ((f.round rm false (.inf (a != b))).1, DZ)
    else if m = 0 then f.round rm false (.fin (a != b) 0 0)
    else
      let k := 64 + Nat.log2 n
      f.roundMag rm false (a != b) ⟨m * 2 ^ k / n, e - g - k, m * 2 ^ k % n != 0⟩

/-- The integer square root, bit by bit from bit k down. -/
def isqrt (x : Nat) : Nat → Nat → Nat
  | 0, r => r
  | k + 1, r => isqrt x k (if (r + 2 ^ k) * (r + 2 ^ k) ≤ x then r + 2 ^ k else r)

def natSqrt (x : Nat) : Nat := isqrt x (Nat.log2 x / 2 + 1) 0

/-- The square root rounded once. -/
def Fmt.sqrt (f : Fmt) (rm : Rm) (x : Num) : Nat × Flags :=
  match x with
  | .nan q => (f.nanCode, if q then NV else 0)
  | .inf true => (f.nanCode, NV)
  | .inf false => f.round rm false (.inf false)
  | .fin neg m e =>
    if m = 0 then f.round rm false (.fin neg 0 0)
    else if neg then (f.nanCode, NV)
    else
      let k : Nat := if e % 2 = 0 then 128 else 129
      let r := natSqrt (m * 2 ^ k)
      f.roundMag rm false false ⟨r, (e - k) / 2, r * r != m * 2 ^ k⟩

/-! ## 2 ^ a (R227) -/

/-- Bounds of 2 ^ f * 2 ^ w for the fraction f whose bits, most significant first, are listed; c and d bound 2 ^ (2 ^ -i)
for the place i of the first listed bit. -/
def exp2Bounds (w : Nat) : List Bool → Nat → Nat → Nat → Nat → Nat × Nat
  | [], _, _, lo, hi => (lo, hi)
  | b :: t, c, d, lo, hi =>
    let c' := natSqrt (c * 2 ^ w)
    let d' := natSqrt (d * 2 ^ w) + 1
    exp2Bounds w t c' d' (if b then lo * c' / 2 ^ w else lo) (if b then hi * d' / 2 ^ w + 1 else hi)

/-- The s bits of a number below 2 ^ s, most significant first. -/
def bitsOf (x : Nat) : Nat → List Bool
  | 0 => []
  | s + 1 => x.testBit s :: bitsOf x s

/-- 2 ^ a for a finite nonzero a that is no integer, as a magnitude with at least k bits.  A tiny a gives a magnitude just
above or below one; otherwise 2 ^ a lies strictly between two bounds that agree in their leading bits (log 17). -/
def exp2Mag (k : Nat) (neg : Bool) (m : Nat) (e : Int) : Mag :=
  if e + Nat.log2 m < -(k : Int) then
    if neg then ⟨2 ^ (k + 1) - 1, -((k : Int) + 1), true⟩ else ⟨2 ^ (k + 1), -((k : Int) + 1), true⟩
  else
    let s := (-e).toNat
    let x : Int := if neg then -(m : Int) else m
    let whole := x / (2 ^ s : Nat)
    let frac := (x % (2 ^ s : Nat)).toNat
    let w := 256
    let (lo, _) := exp2Bounds w (bitsOf frac s) (2 * 2 ^ w) (2 * 2 ^ w) (2 ^ w) (2 ^ w)
    ⟨lo / 2 ^ (w - k), whole - k, true⟩

/-- VEX2 (R227): 2 ^ x rounded once. -/
def Fmt.exp2 (f : Fmt) (rm : Rm) (x : Num) : Nat × Flags :=
  match x with
  | .nan q => (f.nanCode, if q then NV else 0)
  | .inf true => f.round rm false (.fin false 0 0)
  | .inf false => f.round rm false (.inf false)
  | .fin neg m e =>
    if m = 0 then f.round rm false (.fin false 1 0)
    else if 20 < e + Nat.log2 m then
      -- far beyond every format's range: the magnitude overflows or is below every quantum
      f.roundMag rm false false (if neg then ⟨1, -(2 ^ 20 : Nat), true⟩ else ⟨1, (2 ^ 20 : Nat), true⟩)
    else if 0 ≤ e then
      let a : Int := (m * 2 ^ e.toNat : Nat)
      f.roundMag rm false false ⟨1, if neg then -a else a, false⟩
    else if m % 2 ^ (-e).toNat = 0 then
      let a : Int := (m / 2 ^ (-e).toNat : Nat)
      f.roundMag rm false false ⟨1, if neg then -a else a, false⟩
    else f.roundMag rm false false (exp2Mag 70 neg m e)

/-! ## Comparisons and selections (R226, R228) -/

/-- Order of two values that are not NaN. -/
def Num.lt (x y : Num) : Bool :=
  match x, y with
  | .nan _, _ => false
  | _, .nan _ => false
  | .inf a, .inf b => a && !b
  | .inf a, .fin .. => a
  | .fin .., .inf b => !b
  | .fin a m e, .fin b n g => decide ((addExact (Num.term (.fin a m e)) (Num.term (.fin (!b) n g))).1 < 0)

def Num.eq (x y : Num) : Bool := !x.isNan && !y.isNan && !x.lt y && !y.lt x

/-! ## Conversions to and from integers (R86, R87) -/

/-- A value rounded to an integer, and inexact or not. -/
def roundInt (rm : Rm) (neg : Bool) (m : Nat) (e : Int) : Int × Bool :=
  let (n, inexact) := Mag.quantise ⟨m, e, false⟩ rm neg 0
  (if neg then -(n : Int) else n, inexact)

/-- Floating to an integer of n bits (R86). -/
def toInteger (rm : Rm) (n : Nat) (signed : Bool) (x : Num) : Nat × Flags :=
  let lo : Int := if signed then -(2 ^ (n - 1) : Nat) else 0
  let hi : Int := if signed then (2 ^ (n - 1) : Nat) - 1 else (2 ^ n : Nat) - 1
  match x with
  | .nan _ => (0, NV)
  | .inf neg => (wrapTo n (if neg then lo else hi), NV)
  | .fin neg m e =>
    let (v, inexact) := roundInt rm neg m e
    if v < lo then (wrapTo n lo, NV) else if hi < v then (wrapTo n hi, NV) else (wrapTo n v, if inexact then NX else 0)

/-- An integer as a value. -/
def Num.ofInt (x : Int) : Num := .fin (decide (x < 0)) x.natAbs 0

/-! ## Matrix sums (R88, R89) -/

/-- c plus exact products, rounded once to a format under R88. -/
def sumRounded (f : Fmt) (c : Num) (ps : List (Num × Num)) : Nat :=
  let prods := ps.map fun (x, y) => mulNum x y
  if c.isNan || ps.any (fun (x, y) => x.isNan || y.isNan) || prods.any (fun p => p.2 != 0) then f.nanCode
  else
    let terms := c :: prods.map (·.1)
    let plus := terms.any fun x => x.isInf && !x.neg
    let minus := terms.any fun x => x.isInf && x.neg
    if plus && minus then f.nanCode
    else if plus then f.infCode
    else if minus then f.signBit true + f.infCode
    else (f.round .rne false (Num.ofTerm (sumExact (terms.map Num.term)) false)).1

/-- Consecutive groups of at most n. -/
def groupsOf {α : Type} (n : Nat) (xs : List α) : Nat → List (List α)
  | 0 => []
  | k + 1 => if xs.isEmpty then [] else xs.take n :: groupsOf n (xs.drop n) k

/-- A format value of a sum's partial result. -/
def groupSum (f : Fmt) (n : Nat) (c : Nat) (ps : List (Num × Num)) : Nat :=
  (groupsOf n ps ps.length).foldl (fun c g => sumRounded f (f.decode c) g) c

end Sys2Proof.Machine
end

