-- ==== Sys2Proof/Machine/Views.lean ====
section
/-! DEFINITION.
Format views: what a read of the view space returns, and what a write of a view register does (R91 to R94).
-/

namespace Sys2Proof.Machine

/-- The view, 16 * C + v, and the offset within it, of a view-space local address (R91). -/
def viewOf (a : Nat) : Nat × Nat := ((a - 0x10000000000) / 2 ^ 32, a % 2 ^ 32)

def State.view (s : State) (n : Nat) : View := Tab.get View.initial s.views n

namespace View

def enabled (v : View) : Bool := v.cfg.getLsbD 0
def elem (v : View) : Nat := (v.cfg >>> 1).toNat % 4
def eb8d (v : View) : BitVec 5 := v.cfg.extractLsb' 3 5
def blk (v : View) : Nat := (v.cfg >>> 8).toNat % 4
def scaleB8 (v : View) : Bool := v.cfg.getLsbD 10
def sb8d (v : View) : BitVec 5 := v.cfg.extractLsb' 11 5
def fmt (v : View) : Fmt := if v.cfg.getLsbD 16 then Fmt.f32 else Fmt.bf16
def esize (v : View) : Nat := if v.cfg.getLsbD 16 then 4 else 2
def count (v : View) : Nat := v.len.toNat % 2 ^ 32

/-- The stored byte as a value (R92, R93). -/
def element (v : View) (b : Byte) : Num :=
  match elem v with
  | 0 => (Fmt.ofB8D (eb8d v)).decode b.toNat
  | 1 => Num.ofInt (signedOf 8 b.toNat)
  | _ => Num.ofInt b.toNat

/-- The scale byte as a value (R93). -/
def factor (v : View) (b : Byte) : Num :=
  if scaleB8 v then (Fmt.ofB8D (sb8d v)).decode b.toNat
  else if b = 0xFF then .nan false else .fin false 1 (b.toNat - 127)

/-- Decoded element: the exact product rounded once to the decoded format (R93).  A zero has the sign of the product, the
exclusive or of its factors' signs: R93 says nothing of it, and this is the model's choice (log 53). -/
def decodeElement (v : View) (x s : Byte) : Nat := ((fmt v).round .rne false (mulNum (element v x) (factor v s)).1).1

/-- Whether a controller has an address range of its own memory (R91). -/
def inController (c a n : Nat) : Bool :=
  if c < 8 then decide (0x8000000000 + c * 2 ^ 36 ≤ a) && decide (a + n ≤ 0x8000000000 + (c + 1) * 2 ^ 36)
  else decide (0x20000000000 + (c - 8) * 2 ^ 39 ≤ a) && decide (a + n ≤ 0x20000000000 + (c - 7) * 2 ^ 39)

/-- EN may be set only in a view that R92 accepts; c is the controller. -/
def acceptable (c : Nat) (v : View) : Bool :=
  elem v != 3 && blk v != 3 && (elem v != 0 || b8dOk (eb8d v)) && (!scaleB8 v || b8dOk (sb8d v))
    && decide (count v ≤ if esize v = 4 then 2 ^ 30 else 2 ^ 31)
    && inController c (v.base.toNat % 2 ^ 44) (count v)
    && inController c (v.scale.toNat % 2 ^ 44) ((count v + 16 * 2 ^ blk v - 1) / (16 * 2 ^ blk v))

end View

/-- A byte of a view's decoded array (R93): zero beyond the element count, which a read never reaches. -/
def State.viewByte (s : State) (n off : Nat) : Byte :=
  let v := s.view n
  let i := off / View.esize v
  if i < View.count v then
    let key := fun a => keyOf (s.package * 2 ^ 44 + a)
    let x := s.homeByte (key (v.base.toNat % 2 ^ 44 + i))
    let f := s.homeByte (key (v.scale.toNat % 2 ^ 44 + i / (16 * 2 ^ View.blk v)))
    BitVec.ofNat 8 (View.decodeElement v x f / 256 ^ (off % View.esize v))
  else 0

/-- An element of a view is made of a poisoned stored byte or scale byte (R353). -/
def State.elementPoisoned (s : State) (n i : Nat) : Bool :=
  let v := s.view n
  let key := fun a => keyOf (s.package * 2 ^ 44 + a)
  decide (i < View.count v)
    && (s.poisoned (key (v.base.toNat % 2 ^ 44 + i)) 1 || s.poisoned (key (v.scale.toNat % 2 ^ 44 + i / (16 * 2 ^ View.blk v))) 1)

/-- A read of n bytes in the view space, where no decoded line is at hand, meets a poisoned word (R353). -/
def State.viewPoisoned (s : State) (k n : Nat) : Bool :=
  let a := localOf k
  let (w, off) := viewOf a
  let size := View.esize (s.view w)
  (Tab.find s.decoded (a / 64 * 64)).isNone
    && (List.range ((off + n - 1) / size + 1 - off / size)).any fun i => s.elementPoisoned w (off / size + i)

/-- n bytes read in the view space (R94), through the decoded line that the L2 holds or comes to hold; nothing where no
enabled view answers.  A line with a poisoned element is decoded for the read alone. -/
def State.readView (s : State) (k n : Nat) : Option (List Byte × State) :=
  let a := localOf k
  let (w, off) := viewOf a
  let v := s.view w
  if View.enabled v && decide (off + n ≤ View.count v * View.esize v) then
    let line := a / 64 * 64
    match Tab.find s.decoded line with
    | some bs => some ((bs.drop (a % 64)).take n, s)
    | none =>
      let bs := (List.range 64).map fun i => s.viewByte w (off / 64 * 64 + i)
      some ((bs.drop (a % 64)).take n, if s.viewPoisoned (k - a % 64) 64 then s else { s with decoded := Tab.put s.decoded line bs })
  else none

/-- Decoded lines of a block of view space dropped. -/
def State.dropDecoded (s : State) (a n : Nat) : State :=
  { s with decoded := s.decoded.filter fun (l, _) => !overlaps l 64 a n }

/-- A write of one of a view's registers (R92, R94): every decoded line of the alias range goes, then the write takes effect;
EN stays 0 where R92 says so. -/
def State.writeView (s : State) (n reg : Nat) (x : Word) : State :=
  let v := s.view n
  let v := match reg with
    | 0 => { v with cfg := x &&& 0x1FFFF }
    | 1 => { v with base := x &&& 0xFFFFFFFFFFF }
    | 2 => { v with len := x &&& 0xFFFFFFFF }
    | _ => { v with scale := x &&& 0xFFFFFFFFFFF }
  let v := if reg == 0 && View.enabled v && !View.acceptable (n / 16) v then { v with cfg := v.cfg &&& ~~~1 } else v
  let s := s.dropDecoded (0x10000000000 + n * 2 ^ 32) (2 ^ 32)
  { s with views := Tab.put s.views n v }

end Sys2Proof.Machine
end

