-- ==== Sys2Proof/Machine/Registers.lean ====
section
/-! DEFINITION.
The device registers in the cluster, vent and I/O-die blocks of the on-chip map: what a read gives and what a write sets
(R6, R7, R50, R52, R175, R179, R252, R278, R301, R306, R310, R320, R346, R347, R364, R368, R380).
-/

namespace Sys2Proof.Machine

/-- A field of a word replaced where a mask allows. -/
def masked (old new mask : Word) : Word := (old &&& ~~~ mask) ||| (new &&& mask)

/-! ## Anchored queues (R50 to R52) -/

namespace Home

def thresh (h : Home) : Nat := h.cfg.toNat % 256
def adapt (h : Home) : Bool := h.cfg.getLsbD 8
def tmin (h : Home) : Nat := (h.cfg >>> 16).toNat % 256
def tmax (h : Home) : Nat := min ((h.cfg >>> 24).toNat % 256) 0xFE
def target (h : Home) : Nat := (h.cfg >>> 32).toNat % 2 ^ 24
def queued (h : Home) : Nat := (h.queue.filter fun t => !t.running).length
def active (h : Home) : Nat := (h.queue.filter fun t => t.running).length

/-- The configuration register written (R50, R51). -/
def configure (h : Home) (x : Word) : Home :=
  let h' := { h with cfg := x &&& 0x00FFFFFFFFFF01FF }
  if !adapt h' then { h' with teff := BitVec.ofNat 8 (thresh h'), mean := 0 }
  else if !adapt h then { h' with mean := 256 }
  else h'

/-- The status register (R52); a second-tier queue's fields are wider. -/
def status (h : Home) (second : Bool) : Word :=
  let s := if adapt h then mean h else 0
  if second then
    BitVec.ofNat 64 (queued h % 2 ^ 11 + active h % 2 ^ 11 * 2 ^ 11 + h.teff.toNat * 2 ^ 22 + s * 2 ^ 30)
  else BitVec.ofNat 64 (queued h % 2 ^ 9 + active h % 2 ^ 9 * 2 ^ 9 + h.teff.toNat * 2 ^ 18 + s * 2 ^ 26)

end Home

/-- Dispensers that have a thread in WFW look for work again, and the home may be taken from (R58). -/
def State.stir (s : State) : State :=
  s.post ((s.servers.filter fun (k, v) => decide (k < 256) && !v.order.isEmpty
      && !s.agenda.contains (.dispenserDispatch k)).map fun (k, _) => .dispenserDispatch k)

/-- A home's queue or threshold has changed: refusals of it are forgotten, dispensers search again (R58), and a SPAWN that
waits for room looks again (R43). -/
def State.homeChanged (s : State) (h : Nat) : State :=
  let s := { s with clusters := s.clusters.map fun (e : Nat × Cluster) => (e.1, { e.2 with refused := e.2.refused.filter (· != h) }) }
  State.stir (s.wake fun _ w => w == .spawn)

/-- A home of another package, which this machine names by that package's channel-local alias (R16, R42, log 18): 1024 +
PACKAGE * 512 + pseudo-channel. -/
def foreignHome (h : Nat) : Bool := decide (1024 ≤ h)

/-- A home's configuration register written (R50); one in another package is written there. -/
def State.configureHome (s : State) (h : Nat) (x : Word) : State :=
  if foreignHome h then s else (s.setHome h ((s.home h).configure x)).homeChanged h

/-! ## Pagers (R301, R306, R307) -/

/-- A write to pgshoot: performed, or held while one is in progress (R307). -/
def State.pgshoot (s : State) (p : Nat) (v : Word) : State :=
  let g := s.pager p
  if g.busy then s.setPager p { g with shots := g.shots ++ [v] }
  else (s.shoot p v).post [.shootdownComplete p]

/-- An NRED translated under an earlier GEN through an entry that the shootdown removed has still to be performed (R307). -/
def State.shotPending (s : State) (p : Nat) : Bool := s.homes.any fun (y : Nat × Home) => y.2.nreds.any fun r =>
  pagerOf r.thread == p && r.gen != (s.pager p).gen && (s.pager p).going.any fun h => s.leafHolds h.leaf r.key

/-- BUSY clears (R307); a write that waited is performed next. -/
def State.shootdownDone (s : State) (p : Nat) : State :=
  if s.shotPending p then s.post [.shootdownComplete p]
  else
  let s := s.rehome p
  let g := s.pager p
  match g.shots with
  | [] => s.setPager p { g with busy := false }
  | v :: t => ((s.setPager p { g with shots := t }).shoot p v).post [.shootdownComplete p]

def pggen (g : Pager) : Word := g.gen.setWidth 64 ||| (if g.busy then 0x100000000 else 0)

/-- The fields of a root register (R301). -/
def rootMask : Word := 0xFFFF0FFFFFFFF001

def Pager.setRoot (g : Pager) (n : Nat) (x : Word) : Pager := { g with roots := g.roots.setIfInBounds n (x &&& rootMask) }

/-! ## Power registers (R368) -/

namespace Power

def ccap (p : Power) : Nat := p.cfg.toNat % 2 ^ 32
def hyst (p : Power) : Nat := (p.cfg >>> 32).toNat % 256
def lmax (p : Power) : Nat := (p.cfg >>> 40).toNat % 8
def hintEn (p : Power) : Bool := p.cfg.getLsbD 43
def boostEn (p : Power) : Bool := p.cfg.getLsbD 44
def hmemPt (p : Power) : Nat := (p.cfg >>> 45).toNat % 8
def hwaitPt (p : Power) : Nat := (p.cfg >>> 48).toNat % 8
def tlim (p : Power) : Nat := p.therm.toNat % 1024
def thyst (p : Power) : Nat := (p.therm >>> 10).toNat % 1024
def ttrip (p : Power) : Nat := (p.therm >>> 20).toNat % 1024
def tcapmin (p : Power) : Nat := (p.therm >>> 32).toNat
def weight (p : Power) (n : Nat) : Nat := (p.wgt.getD (n / 4) 0 >>> (12 * (n % 4))).toNat % 4096

def pwstat (p : Power) : Word :=
  p.est.setWidth 64 ||| BitVec.ofNat 64 (p.level * 2 ^ 32 + (if p.trip then 2 ^ 35 else 0) + p.ceil * 2 ^ 36 + p.quiet * 2 ^ 39)

def pwtcap (p : Power) : Word := p.tcap.setWidth 64 ||| BitVec.ofNat 64 (p.tmax % 1024 * 2 ^ 32)

end Power

/-! ## Slots and stack temperatures (R360, R364, R366) -/

/-- Sticky bits set in a thread (R366). -/
def State.stick (s : State) (t : Nat) (bits : BitVec 4) : State :=
  if bits = 0 then s else s.setThread t { s.thread t with sticky := (s.thread t).sticky ||| bits }

/-- A core's removed slots replaced; threads that lose their slot see SLOT_REMOVED (R366). -/
def State.removeSlots (s : State) (c : Nat) (m : BitVec 8) : State :=
  let k := s.core c
  if k.removed = m then s
  else
    let fresh := m &&& ~~~ k.removed
    (List.range 8).foldl (fun (s : State) n => if fresh.getLsbD n then s.stick (c + n) 1 else s) (s.setCore c { k with removed := m })

/-- stthm with a new reading. -/
def stackReading (w : Word) (temp : Nat) : Word :=
  let trip := w.toNat % 1024
  let hyst := (w >>> 10).toNat % 1024
  let t := temp % 1024
  let tripped := if trip ≤ t then true else if w.getLsbD 20 && decide (t + hyst ≤ trip) then false else w.getLsbD 20
  (w &&& 0xFFFFF) ||| (if tripped then 0x100000 else 0) ||| BitVec.ofNat 64 t <<< 32

/-- A stack's register replaced: while it says TRIPPED, slots 0 to 5 of the stack's vent cores are removed (R364). -/
def State.judgeStack (s : State) (g : Nat) (w : Word) : State :=
  let s := { s with stthm := Tab.put s.stthm g w }
  let mask : BitVec 8 := if w.getLsbD 20 then 0x3F else 0
  ((List.range 64).map (g * 64 + ·)).foldl (fun (s : State) p => s.removeSlots (ventThread p 0) mask) s

/-! ## Reads and writes by on-chip address -/

/-- Cluster of a CLASS 1 address, offset of any. -/
def regCluster (a : Nat) : Nat := a / 2 ^ 29 % 256
def regOffset (a : Nat) : Nat := a % 2 ^ 23

/-- A dword of an event queue slot (R346). -/
def evqDword (k : Cluster) (off : Nat) : Word := (Tab.get 0 k.evq (off / 32) >>> (64 * (off / 8 % 4))).setWidth 64

/-- The dword at a register address, where a register stands there.  An offset of a defined block at which no register stands
is treated as one in no defined block (R22, log 51). -/
def State.readReg (s : State) (a : Nat) : Option Word :=
  let off := regOffset a
  match a / 2 ^ 37 with
  | 1 =>
    let c := regCluster a
    let k := s.cluster c
    if off = 0x10000 ∧ c % 64 = 0 then some (s.home (512 + c / 64)).cfg
    else if off = 0x10008 ∧ c % 64 = 0 then some ((s.home (512 + c / 64)).status true)
    else if off = 0x20000 then some (k.mcRetry.setWidth 64)
    else if off = 0x20008 then some (k.replays.setWidth 64 ||| k.mcks.setWidth 64 <<< 32)
    else if 0x30000 ≤ off ∧ off < 0x32000 ∧ c % 64 = 0 then
      let e := Tab.get Sched.initial s.sched (c / 64 * 256 + (off - 0x30000) / 32)
      some (match off / 8 % 4 with | 0 => e.base | 1 => e.lim | 2 => e.ctl | _ => 0)
    else if 0x40000 ≤ off ∧ off < 0x40080 then some (k.pager.roots.getD ((off - 0x40000) / 8) 0)
    else if off = 0x40080 then some 0
    else if off = 0x40088 then some (pggen k.pager)
    else if 0x50000 ≤ off ∧ off < 0x58000 then some (evqDword k (off - 0x50000))
    else if off = 0x58000 then some (BitVec.ofNat 64 k.evhead)
    else if off = 0x58008 then some (BitVec.ofNat 64 k.evtail ||| k.evlost.setWidth 64 <<< 32)
    else if off = 0x58010 then some (k.wdog.setWidth 64)
    else if off = 0x60000 then some k.power.cfg
    else if off = 0x60008 then some k.power.therm
    else if off = 0x60010 then some k.power.pwstat
    else if off = 0x60018 then some k.power.pwtcap
    else if off = 0x60020 then some (k.power.static.setWidth 64)
    else if 0x60100 ≤ off ∧ off < 0x60160 then some (k.power.wgt.getD ((off - 0x60100) / 8) 0)
    else if 0x60200 ≤ off ∧ off < 0x60280 then some ((k.power.req.getD ((off - 0x60200) / 8) 0).setWidth 64)
    else none
  | 2 =>
    let p := a / 2 ^ 28 % 512
    let h := s.home p
    if off = 0x140000 then some h.cfg
    else if off = 0x140008 then some (h.status false)
    else if off = 0x140010 then some (h.bound.setWidth 64 ||| 8 <<< 16 ||| h.replays.setWidth 64 <<< 32)
    else if p % 64 ≠ 0 then none
    else if 0x140100 ≤ off ∧ off < 0x140180 then some ((s.pager (1000 + p / 64)).roots.getD ((off - 0x140100) / 8) 0)
    else if off = 0x140180 then some 0
    else if off = 0x140188 then some (pggen (s.pager (1000 + p / 64)))
    else if off = 0x140200 then some (Tab.get stthmReset s.stthm (p / 64))
    else none
  | 3 =>
    let iod := a / 2 ^ 36 % 2
    if off = 0x100 then some ((s.wlen.getD iod 4).setWidth 64 ||| 250 <<< 16 ||| (if s.synced then 1 <<< 63 else 0))
    else if iod = 0 ∧ 0x1000 ≤ off ∧ off < 0x1080 then some (s.pgsub.getD ((off - 0x1000) / 8) 0)
    else if iod = 0 ∧ 0x2000 ≤ off ∧ off < 0x20C0 ∧ off / 8 % 2 = 0 then some (Tab.get hotctlReset s.hotctl ((off - 0x2000) / 16))
    else none
  | _ => none

/-- A write to wlen: values outside 1 to 16 are ignored (R175). -/
def State.writeWlen (s : State) (iod : Nat) (x : Word) : State :=
  let v := x.toNat % 32
  if 1 ≤ v ∧ v ≤ 16 then { s with wlen := s.wlen.setIfInBounds iod (BitVec.ofNat 5 v) } else s

/-- A write of the dword at a register address: only writable fields change (R6, R7). -/
def State.writeReg (s : State) (a : Nat) (x : Word) : Option State :=
  let off := regOffset a
  match a / 2 ^ 37 with
  | 1 =>
    let c := regCluster a
    let k := s.cluster c
    let pw := fun (p : Power) => some (s.setCluster c { k with power := p })
    if off = 0x10000 ∧ c % 64 = 0 then some (s.configureHome (512 + c / 64) x)
    else if off = 0x20000 then some (s.setCluster c { k with mcRetry := x.setWidth 3 })
    else if 0x30000 ≤ off ∧ off < 0x32000 ∧ c % 64 = 0 then
      let n := c / 64 * 256 + (off - 0x30000) / 32
      let e := Tab.get Sched.initial s.sched n
      let e := match off / 8 % 4 with
        | 0 => { e with base := x &&& 0xFFFFFFFFFC0 }
        | 1 => { e with lim := x &&& 0xFFFFFFFFFC0 }
        | 2 => { e with ctl := x &&& 0x800000FFFFFFFFFF }
        | _ => e
      some { s with sched := Tab.put s.sched n e }
    else if 0x40000 ≤ off ∧ off < 0x40080 then
      some (s.setPager c ((s.pager c).setRoot ((off - 0x40000) / 8) x))
    else if off = 0x40080 then some (s.pgshoot c x)
    else if off = 0x58000 then some (s.setCluster c { k with evhead := x.toNat % 1024 })
    else if off = 0x58010 then some (s.setCluster c { k with wdog := x.setWidth 16 })
    else if off = 0x60000 then pw { k.power with cfg := x &&& 0x0007FFFFFFFFFFFF }
    else if off = 0x60008 then pw { k.power with therm := x &&& 0xFFFFFFFF3FFFFFFF }
    else if off = 0x60020 then pw { k.power with static := x.setWidth 32 }
    else if 0x60100 ≤ off ∧ off < 0x60160 then
      pw { k.power with wgt := k.power.wgt.setIfInBounds ((off - 0x60100) / 8) (x &&& 0xFFFFFFFFFFFF) }
    else if 0x60200 ≤ off ∧ off < 0x60280 then
      pw { k.power with req := k.power.req.setIfInBounds ((off - 0x60200) / 8) (x.setWidth 16 &&& 0x7777) }
    else if (s.readReg a).isSome then some s
    else none
  | 2 =>
    let p := a / 2 ^ 28 % 512
    let h := s.home p
    let st := 1000 + p / 64
    if off = 0x140000 then some (s.configureHome p x)
    else if off = 0x140010 then some (s.setHome p { h with bound := x.setWidth 16 })
    else if p % 64 = 0 ∧ 0x140100 ≤ off ∧ off < 0x140180 then
      some (s.setPager st ((s.pager st).setRoot ((off - 0x140100) / 8) x))
    else if p % 64 = 0 ∧ off = 0x140180 then some (s.pgshoot st x)
    else if p % 64 = 0 ∧ off = 0x140200 then
      let w := masked (Tab.get stthmReset s.stthm (p / 64)) x 0xFFFFF
      some (s.judgeStack (p / 64) (stackReading w (w >>> 32).toNat))
    else if (s.readReg a).isSome then some s
    else none
  | 3 =>
    let iod := a / 2 ^ 36 % 2
    if off = 0x100 then some (s.writeWlen iod x)
    else if iod = 0 ∧ 0x1000 ≤ off ∧ off < 0x1080 then
      some { s with pgsub := s.pgsub.setIfInBounds ((off - 0x1000) / 8) (x &&& 0x7FFF) }
    else if iod = 0 ∧ 0x2000 ≤ off ∧ off < 0x20C0 ∧ off / 8 % 2 = 0 then
      some { s with hotctl := Tab.put s.hotctl ((off - 0x2000) / 16) (x &&& 0x800000FFFFFFFFFF) }
    else none
  | _ => none

end Sys2Proof.Machine
end

