-- ==== Sys2Proof/Machine/Access.lean ====
section
/-! DEFINITION.
The accesses of a thread, from effective address to bytes: window_check, the on-chip map, translation, confinement of
callees, and the read, the write and the indivisible read-modify-write of what is found there
(R22 to R25, R99, R115, R162 to R174, R192 to R194, R211, R288, R300 to R315, R322, R325, R353, R380).
-/

namespace Sys2Proof.Machine

/-! ## The on-chip map (R22 to R24) -/

/-- What an address leads to. -/
inductive Target where
  /-- memory under a leaf; `mixed` as in R302 -/
  | mem (leaf : Word) (key : Nat) (mixed : Bool)
  /-- a unit's tile-memory partition or vent local memory -/
  | tile (unit off : Nat) (addr : Nat)
  | slots (core off : Nat)
  | accs (core off : Nat)
  | istore (core off : Nat)
  /-- the register file of a thread -/
  | file (thread off : Nat)
  /-- a register block of a cluster, a vent core or an I/O die (R380) -/
  | regs (addr : Nat)
  deriving DecidableEq, Repr

/-- The block an on-chip address lies in (R22, R23); nothing for an address that names none. -/
def chipBlock (a : Nat) : Option Target :=
  let off := a % 2 ^ 23
  match a / 2 ^ 37 with
  | 0 =>
    let core := a / 2 ^ 23 % 2 ^ 14 * 2 ^ 7
    if 48 ≤ a / 2 ^ 29 % 64 then none
    else if off < 0x40000 then some (.tile core off a)
    else if 0x100000 ≤ off ∧ off < 0x108000 then some (.slots core (off - 0x100000))
    else if 0x110000 ≤ off ∧ off < 0x112000 then some (.accs core (off - 0x110000))
    else if 0x120000 ≤ off ∧ off < 0x128000 then some (.istore core (off - 0x120000))
    else if 0x130000 ≤ off ∧ off < 0x132000 then some (.file (core + (off - 0x130000) / 0x400) (off % 0x400))
    else none
  | 1 => if 48 ≤ a / 2 ^ 29 % 64 ∨ a / 2 ^ 23 % 64 ≠ 0 then none else some (.regs a)
  | 2 =>
    let vent := ventThread (a / 2 ^ 28 % 512) 0
    if a / 2 ^ 23 % 32 ≠ 0 then none
    else if off < 0x20000 then some (.tile vent off a)
    else if 0x130000 ≤ off ∧ off < 0x132000 then some (.file (vent + (off - 0x130000) / 0x400) (off % 0x400))
    else if 0x140000 ≤ off ∧ off < 0x150000 then some (.regs a)
    else none
  | 3 => if a / 2 ^ 23 % 2 ^ 13 ≠ 0 then none else some (.regs a)
  | _ => none

/-- The thread that a register-file block belongs to, and whether it is in WFW (R23). -/
def State.inWfw (s : State) (t : Nat) : Bool := (s.thread t).status == .wfw

/-- A control thread that acts for firmware: one that runs under no launch; the body of a launch's supervisor carries its epoch
(log 29). -/
def State.actsForFirmware (s : State) (id : Nat) : Bool := isControl id && (s.thread id).epoch == 0

/-- A thread may reach a register block: its own cluster's, any other only for firmware (R380). -/
def State.reachesRegs (s : State) (id a : Nat) : Bool :=
  if a / 2 ^ 37 = 1 then isControl id && clusterOf id == a / 2 ^ 29 % 256 else s.actsForFirmware id

/-- A register that only firmware writes: the roots of a cluster's pager, pwcfg and pwtherm (R301, R368). -/
def firmwareWrites (a : Nat) : Bool :=
  a / 2 ^ 37 == 1 && (decide (0x40000 ≤ regOffset a ∧ regOffset a < 0x40080) || decide (0x60000 ≤ regOffset a ∧ regOffset a < 0x60010))

/-- Whether a thread may read a block through the on-chip map (R23, R380). -/
def Target.readableBy (s : State) (id : Nat) : Target → Bool
  | .istore core _ => isControl id && clusterOf id == clusterOf core
  | .file t _ => isControl id && isCompute t && clusterOf id == clusterOf t
  | .regs a => s.reachesRegs id a
  | _ => true

/-- Whether a thread may write a block through the on-chip map (R23, R380). -/
def Target.writableBy (s : State) (id : Nat) : Target → Bool
  | .istore core _ => isControl id && clusterOf id == clusterOf core && (s.core core).stopped
  | .file t _ => isControl id && isCompute t && clusterOf id == clusterOf t && s.inWfw t
  | .regs a => s.reachesRegs id a && (!firmwareWrites a || s.actsForFirmware id)
  | _ => true

/-- The core whose death makes a block unreachable (R349). -/
def Target.unit : Target → Option Nat
  | .tile u _ _ => some u
  | .slots u _ => some u
  | .accs u _ => some u
  | .istore u _ => some u
  | .file t _ => some (coreOf t)
  | _ => none

/-! ## Where an access goes -/

/-- A callee reaches its own pseudo-channel and local memory, or its own tile and the lines homed in the cluster it serves
for (R288). -/
def State.confined (s : State) (t : Thread) (id : Nat) (g : Target) : Bool :=
  match t.callee with
  | none => true
  | some c =>
    match g with
    | .mem leaf k _ =>
      if isVent id then areaOf k == .firstTier && packageOf k == s.package && keyChannel k == channelOf id
      else packageOf k == s.package && (s.lineHome leaf k).1 == c.confine
    | .tile u _ _ => if isVent id then u == coreOf id else tileOf u == tileOf id
    | _ => false

/-- From an effective address to its target, with every check that comes before the access itself (R115, R192).  A block of a
killed core that its columns forbid as well answers POISON: R24 and R349 give no order (log 51).  SPAWN alone of the remote subset is
not confined (R288). -/
def locate (ea : Word) (size : Nat) (rights : List Right) (confine : Bool := true) : Op Target := do
  let p ← windowCheck ea size rights
  let id ← self
  match p with
  | .virt va =>
    let (leaf, k, mixed) ← translateOp ea va rights
    let s ← get
    if !s.present k then trap .physAbsent ea
    if confine && !s.confined (s.thread id) id (.mem leaf k mixed) then trap .remoteSubset ea
    modify fun s => s.touch id leaf k
    return .mem leaf k mixed
  | .chip a =>
    let s ← get
    match chipBlock a with
    | none => trap .window ea
    | some g =>
      if confine && !s.confined (s.thread id) id g then trap .remoteSubset ea
      match g.unit with
      | some u => if (s.core u).killed then trap .poison ea
      | none => pure ()
      if rights.contains .w || rights.contains .t then require (g.writableBy s id) .window ea
      else require (g.readableBy s id) .window ea
      return g

/-! ## On-chip storage -/

/-- Bytes of a thread's register file (R23): s0 to s15, pc, stat, w0 to w7; the rest reads as zero. -/
def fileWord (id : Nat) (t : Thread) (off : Nat) : Word :=
  if off < 0x80 then (t.reg (BitVec.ofNat 4 (off / 8))).val
  else if off / 8 = 0x10 then t.pc
  else if off / 8 = 0x11 then statWord id t
  else if 0x100 ≤ off ∧ off < 0x180 then
    (t.window_ (BitVec.ofNat 3 ((off - 0x100) / 16)) >>> (64 * (off / 8 % 2))).setWidth 64
  else 0

/-- A dword of a thread's register file written (R23, R24, R137): the status word's fields are not writable here. -/
def fileSet (t : Thread) (off : Nat) (x : Word) : Thread :=
  if off < 0x80 then t.setReg (BitVec.ofNat 4 (off / 8)) (Reg.of x)
  else if off / 8 = 0x10 then { t with pc := x &&& ~~~1 }
  else if 0x100 ≤ off ∧ off < 0x180 then
    let i := BitVec.ofNat 3 ((off - 0x100) / 16)
    let w := t.window_ i
    t.setWindow i (if off / 8 % 2 = 0 then w.extractLsb' 64 64 ++ x else x ++ w.extractLsb' 0 64)
  else t

/-- Some dword that an access touches is poisoned (R353). -/
def State.poisonedAt (s : State) (place : Nat → Place) (off n : Nat) : Bool := (dwordsOf off n).any fun d => s.poison.contains (place d)

/-- Bytes i to i + n of a dword. -/
def wordBytes8 (x : Word) (i n : Nat) : List Byte := ((leBytes 8 x.toNat).drop i).take n

/-- A dword with bytes i up replaced. -/
def wordPut (x : Word) (i : Nat) (bs : List Byte) : Word :=
  BitVec.ofNat 64 (leNat ((leBytes 8 x.toNat).take i ++ bs ++ (leBytes 8 x.toNat).drop (i + bs.length)))

/-- Dwords written whole lose their poison (R353). -/
def State.unpoison (s : State) (place : Nat → Place) (off n : Nat) : State :=
  let whole := ((dwordsOf off n).filter fun d => decide (off ≤ 8 * d) && decide (8 * d + 8 ≤ off + n)).map place
  if whole.isEmpty then s else { s with poison := s.poison.filter fun p => !whole.contains p }

/-- Bytes read from, and written to, a thread's register file. -/
def fileBytes (id : Nat) (t : Thread) (off n : Nat) : List Byte :=
  (List.range n).map fun i => (wordBytes8 (fileWord id t ((off + i) / 8 * 8)) ((off + i) % 8) 1).headD 0

def filePut (id : Nat) (t : Thread) (off : Nat) : List Byte → Thread
  | [] => t
  | b :: bs => filePut id (fileSet t (off / 8 * 8) (wordPut (fileWord id t (off / 8 * 8)) (off % 8) [b])) (off + 1) bs

/-- The page of a key is in transition between biases (R327, R328). -/
def State.inTransition (s : State) (k : Nat) : Bool := s.host.flips.any fun f => f.page == k / 4096 && f.step != 0

/-- A host line that must be snooped before a device access (R322): exclusive or modified for a read, any for a write. -/
def State.snoopFor (s : State) (leaf : Word) (k n : Nat) (write : Bool) : Option HostLine :=
  if Leaf.cls leaf == 2 && areaOf k == .firstTier && !s.hostBias k then
    s.host.lines.find? fun l => l.covers k n && (write || l.excl || l.dirty)
  else none

/-- A back-invalidate sent for a host line; the answer is still to come (R322, BIRSPI). -/
def State.snoop (s : State) (l : HostLine) : State :=
  if s.host.snoops.contains (l.port, l.key) then s
  else { s with host := { s.host with snoops := (l.port, l.key) :: s.host.snoops } }.post [.birspi l.port l.key]

/-! ## Write leases (R177, R178) -/

/-- GUARD_NS (R175). -/
def guardNs : Nat := 250

def Lease.bytes (l : Lease) : Nat := if l.dword then 8 else 4

/-- The holder writes a leased word back; a home that has revoked the lease refuses, and the refusal is on its way
(R177, R178). -/
def State.endLease (s : State) (l : Lease) : State :=
  let s := { s with host := { s.host with held := s.host.held.filter (· != l) } }
  if l.revoked then
    State.post { s with net := { s.net with refusals := s.net.refusals ++ [l] } } [.leaseRefusal s.net.refusals.length]
  else { s with mem := s.mem.writeN l.key (leBytes l.bytes l.val.toNat) }

/-- Leases on n bytes at a key written back and ended, as a recall by the home does (R177). -/
def State.recallLeases (s : State) (k n : Nat) : State :=
  s.host.held.foldl (fun (s : State) l => if overlaps l.key l.bytes k n then s.endLease l else s) s

/-! ## Waits -/

/-- The access of a thread cannot be served by an L1: it is performed at its home (R162, R164, R169, R211, R325).  A write
of NC memory needs no home (R189); one of DC or SC memory needs the words owned. -/
def State.needsHome (s : State) (t : Nat) (leaf : Word) (k n : Nat) (write : Bool) : Bool :=
  !isCompute t || packageOf k != s.package || s.hostBias k || areaOf k == .view
    || (if write then s.lineTentative k || (Leaf.cls leaf != 0 && !s.ownsL1 (coreOf t) k n)
        else s.wordsTentative k n || !s.inL1 (coreOf t) k n)

/-- A request for a thread goes to the home of a line (R31, R180): where the L2 does not hold the line a fill is asked for
and the thread waits for it, otherwise for a reply; an armed region is reached at the bank, whose controller counts it (R194, R319). -/
def State.askHome (s : State) (t : Nat) (leaf : Word) (k : Nat) : Wait × State :=
  if packageOf k != s.package || !(areaOf k == .firstTier || areaOf k == .secondTier) || s.hostBias k || s.resident k then
    (.memory, s.post [.memoryReply t])
  else if s.isArmed k 1 then (.memory, (s.requested (dieOf t) k 1).post [.memoryReply t])
  else
    let home := s.lineHome leaf k
    let g := grainBytes leaf
    let asked := s.agenda.any fun h => match h with
      | .l2Fill _ _ a => s.localKey a / g == k / g
      | _ => false
    (.fill (k / 32 * 32), if asked then s else s.post [.l2Fill (home.1 * 8 + home.2) (dieOf t) (localOf k)])

/-- The thread waits until the reply, grant or acknowledgement that its access needs has come (R31, R164, R180); one such
wait stands for all those of an instruction (log 12). -/
def awaitHome (leaf : Word) (k : Nat) : Op Unit := do
  if (← me).answered then return ()
  let s ← get
  let (w, s) := s.askHome s.cur leaf k
  set s
  waitKeeping w

/-- The same wait where no line is fetched (R208). -/
def awaitReply : Op Unit := do
  if (← me).answered then return ()
  modify fun s => s.post [.memoryReply s.cur]
  waitKeeping .memory

/-- Waits that an access to memory makes at the home before it is performed: a page in transition (R327), a word leased to
another package (R177), a host's copy (R322), storage under self-test (R354), an armed compute region (R194), a sealed sinter region (R174). -/
def homeWaits (leaf : Word) (k n : Nat) (write : Bool) : Op Unit := do
  let s ← get
  if s.inTransition k || s.host.given.any (fun l => overlaps l.key l.bytes k n) || s.underTest (memLine k n) then waitFor .memory
  match s.snoopFor leaf k n write with
  | some l =>
    modify fun s => s.snoop l
    waitKeeping .memory
  | none => pure ()
  if isCompute s.cur && s.isArmed k n then waitFor .armed
  if write && s.sealBusy k n then waitFor .sealed

/-- A write of the current thread that unseals is an acquire event (R174, R183). -/
def unsealing (k n : Nat) : Op Unit := modify fun s => s.unsealFor s.cur k n

/-- The window number of a time (R175), by the wlen register of I/O die 0; which die's rules where the two differ is left
open (log 51). -/
def State.windowNow (s : State) : Nat := s.gtime / ((s.wlen.getD 0 4).toNat * 1000)

/-- Values that R9 leaves undefined: 8,192 free bits, each asked for once (log 11). -/
def freeBlock : Op Block := do
  let s ← get
  set { s with fresh := s.fresh + 1 }
  return Config.freeBits s.fresh

def freeBytes (n : Nat) : Op (List Byte) := do return blockGet (← freeBlock) 0 n

/-! ## Operand memory (R25) -/

/-- An access to n bytes of a resource of a core, by the current thread or by an engine command with the commands it waits
on, is recorded; it says whether it meets a matrix command without order. -/
def meetCommands (who : Option (Nat × List Nat)) (write : Bool) (c r first n : Nat) : Op Bool := do
  let s ← get
  let (a, deps) : Actor × List Nat := match who with
    | some (id, deps) => (.cmd id, deps)
    | none => (.thread s.cur, [])
  set (s.setCore c ((s.core c).noteAccess a write r first n))
  return (s.core c).clashes false a deps write r first n

def Core.slot (k : Core) (n : Nat) : Block := k.slots.getD n 0
def Core.setSlot (k : Core) (n : Nat) (x : Block) : Core := { k with slots := k.slots.setIfInBounds n x }
def Core.acc (k : Core) (n : Nat) : Acc := k.accs.getD n Acc.initial
def Core.setAcc (k : Core) (n : Nat) (x : Acc) : Core := { k with accs := k.accs.setIfInBounds n x }

/-- The contents of a slot (0 to 31) or an accumulator (32 to 39). -/
def Core.resource (k : Core) (r : Nat) : Block := if r < 32 then k.slot r else (k.acc (r - 32)).bits
def Core.setResource (k : Core) (r : Nat) (b : Block) : Core :=
  if r < 32 then k.setSlot r b else k.setAcc (r - 32) { k.acc (r - 32) with bits := b }

/-- The poisoned dwords of a resource. -/
def resourcePlace (c r : Nat) : Nat → Place := if r < 32 then .slot c r else .acc c (r - 32)

/-- Storage on the chip that is under self-test is waited for (R354). -/
def awaitTest (place : Nat → Place) (off n : Nat) : Op Unit := do
  if (← get).underTest fun p => (dwordsOf off n).any fun d => p == place d then waitFor .memory

/-- Bytes of a resource read through the on-chip map. -/
def readOperand (ea : Word) (n : Nat) (who : Option (Nat × List Nat)) (c r first : Nat) : Op (List Byte) := do
  awaitTest (resourcePlace c r) first n
  if (← get).poisonedAt (resourcePlace c r) first n then trap .poison ea
  if ← meetCommands who false c r first n then
    let bs ← freeBytes n
    modify fun s => s.setCore c ((s.core c).setResource r (blockPut ((s.core c).resource r) first bs))
    return bs
  else return blockGet (((← get).core c).resource r) first n

/-- Bytes of a resource written through the on-chip map. -/
def writeOperand (bs : List Byte) (who : Option (Nat × List Nat)) (c r first : Nat) : Op Unit := do
  awaitTest (resourcePlace c r) first bs.length
  let bs ← if ← meetCommands who true c r first bs.length then freeBytes bs.length else pure bs
  modify fun s =>
    let s := s.unpoison (resourcePlace c r) first bs.length
    State.wake (s.setCore c ((s.core c).setResource r (blockPut ((s.core c).resource r) first bs))) fun _ w => w.onChip

/-! ## Reads and writes -/

/-- A read of n bytes in the view space (R94, R353). -/
def viewRead (ea : Word) (k n : Nat) : Op (List Byte) := do
  let s ← get
  match s.readView k n with
  | none => trap .window ea
  | some (bs, s') =>
    if s.viewPoisoned k n then trap .poison ea
    set s'
    return bs

/-- An ordinary read of n bytes at a target, by the current thread or in its name by an engine command (R163, R164, R197,
R211).  A leased word of another package is recalled by its home first (R177). -/
def readTarget (ea : Word) (n : Nat) (g : Target) (who : Option (Nat × List Nat) := none) : Op (List Byte) := do
  match g with
  | .mem leaf k mixed =>
    let s ← get
    if s.needsHome s.cur leaf k n false then awaitHome leaf k
    if areaOf k == .view then return (← viewRead ea k n)
    homeWaits leaf k n false
    let s ← get
    if s.poisonedTo s.cur k n then trap .poison ea
    breaching k n do
      let s ← get
      let a := (s.thread s.cur).agent s.cur
      let (bs, s') := if packageOf k != s.package then (s.recallLeases k n).readHome a k n
        else if isCompute s.cur then s.loadL1 a (coreOf s.cur) leaf k n
        else s.readHome a k n
      set s'
      let bs := if who.isNone then s.withAhead (coreOf s.cur) k bs else bs
      if mixed then freeBytes n else return bs
  | .tile u off _ =>
    awaitTest (.tile u) off n
    let s ← get
    if s.poisonedAt (.tile u) off n then trap .poison ea
    return (s.core u).tile.readN off n
  | .slots c off => readOperand ea n who c (off / 1024) (off % 1024)
  | .accs c off => readOperand ea n who c (32 + off / 1024) (off % 1024)
  | .istore c off => return ((← get).core c).istore.readN off n
  | .file t off =>
    let s ← get
    return fileBytes t (s.thread t) off n
  | .regs a =>
    match (← get).readReg (a / 8 * 8) with
    | some x => return wordBytes8 x (a % 8) n
    | none => trap .window ea

/-- Bytes of tile memory, or of a vent core's local memory, written at their one home (R163): monitors of other threads
fire, poison goes. -/
def State.writeTile (s : State) (who u off a : Nat) (bs : List Byte) : State :=
  let s := (s.fireMonitors who (chipKey a) bs.length).unpoison (.tile u) off bs.length
  s.setCore u { s.core u with tile := (s.core u).tile.writeN off bs }

/-- An ordinary write at a target, by the current thread or in its name by an engine command (R163, R164, R174, R197, R211).
An access narrower than a dword to a device register, for which the spec states no width, writes the dword with the other
bytes as they read (log 51). -/
def writeTarget (ea : Word) (bs : List Byte) (g : Target) (who : Option (Nat × List Nat) := none) : Op Unit := do
  match g with
  | .mem leaf k mixed =>
    let n := bs.length
    if areaOf k == .view then trap .window ea
    let s ← get
    if s.needsHome s.cur leaf k n true then awaitHome leaf k
    homeWaits leaf k n true
    unsealing k n
    breaching k n do
      let s ← get
      let a := (s.thread s.cur).agent s.cur
      let bs ← if mixed then freeBytes n else pure bs
      modify fun s =>
        if packageOf k != s.package then
          let s := (s.recallLeases k n).writeHome a 32 k bs
          s.setThread s.cur { s.thread s.cur with window := some s.windowNow }
        else if isCompute s.cur then s.storeL1 a (coreOf s.cur) leaf k bs
        else s.writeHome a (grainBytes leaf) k bs
  | .tile u off a =>
    awaitTest (.tile u) off bs.length
    modify fun s => s.writeTile s.cur u off a bs
  | .slots c off => writeOperand bs who c (off / 1024) (off % 1024)
  | .accs c off => writeOperand bs who c (32 + off / 1024) (off % 1024)
  | .istore c off => modify fun s => s.setCore c { s.core c with istore := (s.core c).istore.writeN off bs }
  | .file t off => modify fun s => s.setThread t (filePut t (s.thread t) off bs)
  | .regs a =>
    let s ← get
    match s.readReg (a / 8 * 8) with
    | none => trap .window ea
    | some x =>
      match s.writeReg (a / 8 * 8) (wordPut x (a % 8) bs) with
      | some s => set s
      | none => trap .window ea

end Sys2Proof.Machine
end

