-- ==== Sys2Proof/Machine/Sync.lean ====
section
/-! DEFINITION.
Releases, acquires, indivisible read-modify-writes, write leases and tentative cells (R164, R169 to R178, R188, R201,
R207, R210 to R213, R326).
-/

namespace Sys2Proof.Machine

/-! ## Release and acquire -/

def releaseEvent : Op Unit := modify fun s => s.release s.cur
def acquireEvent : Op Unit := modify fun s => s.acquire s.cur

/-- The earliest bias request that failed (R326). -/
def Thread.failedBias (t : Thread) : Option Word := (t.bias.find? fun b => b.outcome == some false).map (·.ea)

/-- The release of FENCE.REL, FENCE.ALL and DONE (R176, R178, R201, R326): write-back, the window boundary, the bias flips,
then the acquire of a FENCE.ALL; a refused lease or a failed flip traps after every other effect. -/
def releaseFence (acquires : Bool := false) : Op Unit := do
  releaseEvent
  let s ← get
  let t ← me
  match t.window with
  | some n => if s.windowNow < n + 2 then waitKeeping .fence
  | none => pure ()
  if t.bias.any fun b => b.outcome == none then waitKeeping .fence
  modMe fun t => { t with window := none }
  if acquires then acquireEvent
  match t.lease with
  | some a =>
    modMe fun t => { t with lease := none }
    trapKeeping .leaseExpired a
  | none => pure ()
  modMe fun t => { t with bias := [] }
  match t.failedBias with
  | some ea => trapKeeping .bias ea
  | none => pure ()

/-! ## Write leases (R177, R178) -/

/-- The lease of a thread on a word, while its clock reads before E − GUARD_NS. -/
def State.leaseOn (s : State) (t k : Nat) (dword : Bool) : Option Lease :=
  s.host.held.find? fun l => l.key == k && l.dword == dword && l.holder == t && decide (s.gtime + guardNs < l.expiry)

/-! ## Read-modify-write -/

/-- How a read-modify-write answers the old value: the new one, where it writes one. -/
abbrev Update := Nat → Option Nat

/-- An atomic at the L2 home of a line of this package counted (R358). -/
def State.countHome (s : State) (k : Nat) : State := if packageOf k = s.package then s.countIn (s.homeSlice k).1 30 else s

/-- The read-modify-write of n bytes at the home: owned words recalled, then read and written in one step. -/
def State.rmwHome (s : State) (a : Agent) (grain k n : Nat) (f : Update) : Nat × State :=
  let s := s.countHome k
  let s := (wordsOf k n).foldl (fun s w => s.recallWord none w) s
  let (bs, s) := s.readHome a k n
  let old := leNat bs
  match f old with
  | some x => (old, s.writeHome a grain k (leBytes n x))
  | none => (old, s)

/-- A word's dirty bytes merged into the home; the core keeps the word. -/
def State.publish (s : State) (c w : Nat) : State :=
  match Tab.find (s.core c).l1 w with
  | some x => if x.dirty = 0 then s else (s.mergeHome w x).setL1 c w (some { x with dirty := 0 })
  | none => s

/-- The read-modify-write in a core's L1, the words owned first (R169).  What it writes is at the home at once: atomics of
race-free programs are in one total order with all other accesses (R187, R190). -/
def State.rmwL1 (s : State) (a : Agent) (c : Nat) (leaf : Word) (k n : Nat) (f : Update) : Nat × State :=
  let s := (wordsOf k n).foldl (fun s w => s.grantWord a c (grainBytes leaf) w) (s.dropAhead a.self k n)
  let old := leNat (s.l1Bytes c k n)
  match f old with
  | some x =>
    let s := (s.clearPoison k n).putL1s c a.self k false (leBytes n x)
    (old, ((wordsOf k n).foldl (fun s w => s.publish c w) s).trimL1 c)
  | none => (old, s.trimL1 c)

/-- An atomic on another package's memory (R177): with SYS its word is held under a write lease. -/
def State.rmwForeign (s : State) (a : Agent) (t : Nat) (ea : Word) (k n : Nat) (sys : Bool) (f : Update) : Nat × State :=
  if sys then
    let (l, s) := match s.leaseOn t k (n == 8) with
      | some l => (l, s)
      | none =>
        let s := s.recallLeases k n
        let v := BitVec.ofNat 64 (leNat (s.homeBytes k n))
        let l : Lease := ⟨k, n == 8, t, s.gtime + 2 * ((s.wlen.getD 0 4).toNat * 1000), v, v, ea, false⟩
        (l, { s with host := { s.host with held := l :: s.host.held } }.post
          [.leaseExpiry s.host.held.length, .leaseRevocation s.host.held.length])
    let old := l.val.toNat
    match f old with
    | some x =>
      (old, { s with host := { s.host with held := s.host.held.map fun m => if m == l then { m with val := BitVec.ofNat 64 x } else m } })
    | none => (old, s)
  else (s.recallLeases k n).rmwHome a 32 k n f

/-! ## Strong accesses of mixed sizes (R170) -/

/-- A remembered strong access of another size, by another agent, that overlaps n bytes at a key and does not happen-before
an access of agent t. -/
def Strong.clashes (x : Strong) (t k n : Nat) : Bool :=
  overlaps x.key x.size k n && x.size != n && x.agent != t && !x.seen.contains t

/-- A strong access of n bytes at a key by agent t remembered; it has read what the others have made of the bytes (R170, R182). -/
def State.noteStrong (s : State) (t k n : Nat) : State :=
  let earlier := (s.strong.filter fun x => !(x.agent == t && x.key == k && x.size == n)).map fun x =>
    if overlaps x.key x.size k n && x.agent != t && !x.read.contains t then { x with read := t :: x.read } else x
  { s with strong := ⟨k, n, t, false, [], []⟩ :: earlier }

/-- n bytes at a key, of memory or of tile memory, become undefined (R9). -/
def State.freeAt (s : State) (k n : Nat) : State :=
  if 2 ^ 72 ≤ k then
    match chipBlock (k - 2 ^ 72) with
    | some (.tile u off _) =>
      { s.setCore u { s.core u with tile := (s.core u).tile.writeN off (blockGet (Config.freeBits s.fresh) 0 n) } with fresh := s.fresh + 1 }
    | _ => s
  else s.freeMem k n

/-- The bytes in which a strong access meets earlier ones of other sizes (R170). -/
def State.strongClash (s : State) (t k n : Nat) : List (Nat × Nat) :=
  (s.strong.filter fun x => x.clashes t k n).map fun x => (max k x.key, min (k + n) (x.key + x.size) - max k x.key)

/-- A strong access of n bytes at a key (R170): with stat.DBG it traps with MIXSIZE where it meets one of another size that
does not happen-before it; otherwise the overlapped bytes are undefined, for this access and after it. -/
def strongly {α : Type} (ea : Word) (k n : Nat) (access : Op α) : Op α := do
  let s ← get
  let clash := s.strongClash s.cur k n
  if !clash.isEmpty && (s.thread s.cur).dbg then trap .mixsize ea
  let free := fun (s : State) => clash.foldl (fun (s : State) y => s.freeAt y.1 y.2) s
  modify fun s => (free s).noteStrong s.cur k n
  let x ← access
  modify free
  return x

/-- A host port has read the line of a SYSATOM = 0 SC page within 1 microsecond (R329). -/
def State.hostReadLately (s : State) (g : Target) : Bool :=
  match g with
  | .mem leaf k _ =>
    Leaf.cls leaf == 2 && !Leaf.sysatom leaf && areaOf k == .firstTier && packageOf k == s.package
      && (match Tab.find s.host.reads (k / 64) with
          | some at_ => decide (s.gtime ≤ at_ + 1000)
          | none => false)
  | _ => false

/-- With stat.DBG set, such a line has just been read (R329). -/
def State.hostRaced (s : State) (t : Nat) (g : Target) : Bool := (s.thread t).dbg && s.hostReadLately g

/-- One indivisible read-modify-write at a target; the kinds of memory have been checked (R169, R177, R193). -/
def rmwTarget (ea : Word) (n : Nat) (sys : Bool) (f : Update) (g : Target) : Op Nat := do
  match g with
  | .mem leaf k mixed =>
    let s ← get
    let foreign := packageOf k != s.package
    let leased := foreign && sys && (s.leaseOn s.cur k (n == 8)).isSome
    if !leased && (Leaf.cls leaf == 0 || s.needsHome s.cur leaf k n true) then awaitHome leaf k
    homeWaits leaf k n true
    if (← get).poisoned k n then trap .poison ea
    breaching k n <| strongly ea k n do
      unsealing k n
      let s ← get
      let a := (s.thread s.cur).agent s.cur
      let (old, s') :=
        if foreign then s.rmwForeign a s.cur ea k n sys f
        else if isCompute s.cur && Leaf.cls leaf != 0 && !s.lineTentative k && !s.hostBias k then
          s.rmwL1 a (coreOf s.cur) leaf k n f
        else if isCompute s.cur then
          -- NC memory: performed at the home, no copy left in the L1 (R169)
          (s.flushL1 (coreOf s.cur) k n |>.invalL1 (coreOf s.cur) k n).rmwHome a (grainBytes leaf) k n f
        else s.rmwHome a (grainBytes leaf) k n f
      set s'
      if foreign then modMe fun t => { t with window := some s.windowNow }
      if mixed then return leNat (← freeBytes n) else return old
  | .tile u off a =>
    awaitTest (.tile u) off n
    if (← get).poisonedAt (.tile u) off n then trap .poison ea
    strongly ea (chipKey a) n do
      let s ← get
      let old := leNat ((s.core u).tile.readN off n)
      match f old with
      | some x => modify fun s => s.writeTile s.cur u off a (leBytes n x)
      | none => pure ()
      return old
  | _ => trap .window ea

/-- A strong read of n bytes at the home, which sees every earlier write and leaves no owner (R203, R207, R283); in view
space the decoded elements are read (R94). -/
def strongRead (ea : Word) (n : Nat) (g : Target) : Op Nat := do
  match g with
  | .mem leaf k mixed =>
    if areaOf k == .view then return leNat (← readTarget ea n g)
    awaitHome leaf k
    homeWaits leaf k n false
    if (← get).poisoned k n then trap .poison ea
    breaching k n <| strongly ea k n do
      modify fun s => (wordsOf k n).foldl (fun s w => s.recallWord none w) (s.recallLeases k n)
      let s ← get
      let (bs, s) := s.readHome ((s.thread s.cur).agent s.cur) k n
      set s
      if mixed then return leNat (← freeBytes n) else return leNat bs
  | g => rmwTarget ea n false (fun _ => none) g

/-! ## Where strong operations are legal (R193) -/

/-- The columns of R193. -/
inductive Kind where
  | local_ | coherent (second : Bool) | nonCoherent | foreign | hostSpace | other
  deriving DecidableEq, Repr

def State.kindOf (s : State) : Target → Kind
  | .tile _ _ _ => .local_
  | .mem leaf k _ =>
    if packageOf k != s.package then .foreign
    else match areaOf k with
      | .host _ => .hostSpace
      | .firstTier => if Leaf.cls leaf == 0 then .nonCoherent else .coherent false
      | .secondTier => if Leaf.cls leaf == 0 then .nonCoherent else .coherent true
      | _ => .other
  | _ => .other

/-- Atomics, MARM: everywhere but in host memory space; on-chip blocks other than local memory answer WINDOW. -/
def Kind.atomic : Kind → Bool
  | .local_ | .coherent _ | .nonCoherent | .foreign => true
  | _ => false

/-- BARA, BARD, BARW. -/
def Kind.barrier : Kind → Bool
  | .local_ | .coherent _ | .foreign => true
  | _ => false

/-- A write of view space traps with WINDOW, whatever instruction makes it (R18, R94). -/
def refuseView (ea : Word) (g : Target) : Op Unit := do
  match g with
  | .mem _ k _ => require (areaOf k != .view) .window ea
  | _ => pure ()

/-- Refuses a strong operation on memory of the wrong kind: WINDOW for an on-chip block, CLASS otherwise (R193). -/
def requireKind (ea : Word) (ok : Kind → Bool) (g : Target) : Op Unit := do
  match g with
  | .mem _ _ _ | .tile _ _ _ => require (ok ((← get).kindOf g)) .class_ ea
  | _ => trap .window ea

/-! ## Tentative cells (R210 to R213) -/

/-- The tentative cell that begins at a key under an owner. -/
def State.cellOf (s : State) (a : Agent) (k : Nat) : Option Cell := s.cells.find? fun c => c.key == k && c.ownedBy a

/-- A unit no longer counts a cell among those tentative under the calls of its owner (R288). -/
def Server.dropCell (v : Server) (c : Cell) : Server :=
  { v with cache := v.cache.map fun e =>
      if e.caller = c.owner ∧ e.epoch = c.epoch then { e with cells := e.cells.filter (· != c.key) } else e }

/-- The cell's tentative state ends; NEW stands. -/
def State.endCell (s : State) (c : Cell) : State :=
  State.wake { s with
    cells := s.cells.filter (· != c), poison := s.poison.filter (· != .pair c.key)
    servers := s.servers.map fun (y : Nat × Server) => (y.1, y.2.dropCell c) } fun _ w => w == .pairBuffer

/-- The home's own name as one who fires monitors: no thread's. -/
def homeSelf : Nat := 0x1000020

/-- A successful RETRACT by thread `who` (R174, R188, R204, R213): the former value is written, no copy of the new one stays,
monitors of the others fire.  A former value that is poisoned leaves its word poisoned (R353). -/
def State.restoreCell (s : State) (who : Nat) (c : Cell) : State :=
  let bad := s.poison.contains (.pair c.key)
  let s := ((s.unsealAt c.key c.size).endCell c).dropCopies none (c.key / 4) ((c.size + 3) / 4)
  let s := (s.fireMonitors who c.key c.size).clearPoison c.key c.size
  { s with
    mem := s.mem.writeN c.key (leBytes c.size c.former.toNat)
    poison := if bad && !s.poison.contains (.mem (c.key / 8)) then .mem (c.key / 8) :: s.poison else s.poison }

/-- A cell retracted by its unit (R288, R290, R350): an observed one keeps its new value and is logged.  The write of the former
value waits, at the home, while a copy of sealed bytes is outstanding (R174). -/
def State.retractCell (s : State) (unit : Nat) (c : Cell) : State :=
  if c.seen then (s.endCell c).postEvent (eventCluster s unit) 12 0 0 0 unit (BitVec.ofNat 64 c.key)
  else if s.sealBusy c.key c.size then { s with cells := s.cells.map fun x => if x == c then { x with leaving := true } else x }
  else s.restoreCell homeSelf c

/-- The retractions that waited for copies of sealed bytes (R174): a cell observed meanwhile keeps its new value (R188). -/
def State.retractLeaving (s : State) : State :=
  (s.cells.filter (·.leaving)).foldl (fun (s : State) c => s.retractCell (controlThread (c.slice / 8) 0) c) s

/-- Entries of a slice's pair buffer in use, of 128 (R211). -/
def State.pairUse (s : State) (slice : Nat) : Nat := (s.cells.filter fun c => c.slice == slice).length

end Sys2Proof.Machine
end

