-- ==== Sys2Proof/Machine/Claims.lean ====
section
/-! DEFINITION.
Claims on slots and accumulators, and the life of engine commands that other instructions see: dependency counts,
completion, discarding (R104, R242, R243, R246).
-/

namespace Sys2Proof.Machine

/-! ## Commands -/

/-- Identifiers of a thread's earlier commands with SETV that a WAIT mask names (R104); the NREDs among them stand at their
homes. -/
def State.depsOf (s : State) (t : Nat) (mask : Nat) : List Nat :=
  (((s.core (coreOf t)).commands.filter fun c => c.thread == t && match c.setd with
      | some d => mask.testBit d
      | none => false).map (·.id))
  ++ s.homes.flatMap fun (_, h) => (h.nreds.filter fun r => r.thread == t && match r.setd with
      | some d => mask.testBit d
      | none => false).map (·.id)

/-- A command with an identifier has issued and not completed. -/
def State.outstanding (s : State) (id : Nat) : Bool :=
  (s.cores.any fun (_, k) => k.commands.any fun c => c.id == id)
    || s.homes.any fun (_, h) => h.nreds.any fun r => r.id == id

/-- One less in a dependency slot (R104). -/
def Thread.lower (t : Thread) (d : Option Nat) : Thread :=
  match d with
  | none => t
  | some n => { t with dep := t.dep.setIfInBounds n (t.dep.getD n 0 - 1) }

def Thread.raise (t : Thread) (d : Option Nat) : Thread :=
  match d with
  | none => t
  | some n => { t with dep := t.dep.setIfInBounds n (t.dep.getD n 0 + 1) }

/-- Waits that the end of a command may clear. -/
def endsWait : Wait → Bool
  | .counts | .engine | .ending | .copies => true
  | w => w.onChip

/-- An engine of a core with a waiting command and nothing running looks at the head of its queue. -/
def State.kickOne (s : State) (c : Nat) (e : EngineSel) : State :=
  let g := (s.core c).engine e
  if g.running.isNone && !g.queue.isEmpty && !s.agenda.contains (.engineCommandBegin c e) then s.post [.engineCommandBegin c e]
  else s

def State.kick (s : State) (c : Nat) : State := (s.kickOne c .matrix).kickOne c .copy

/-- Every engine looks at its queue: something that element accesses wait for has ended. -/
def State.kickAll (s : State) : State := s.cores.foldl (fun (s : State) (y : Nat × Core) => s.kick y.1) s

/-- First key of a sealed region, its name. -/
def Sinter.first (r : Sinter) : Option Nat := r.parts.head?.map (·.1)

/-- A copy count falls (R173): when it reaches zero, the writes that wait for it are looked at again. -/
def State.lowerSeal (s : State) (key : Nat) : State :=
  let s := { s with sealed := s.sealed.map fun (r : Sinter) => if r.first = some key then { r with copies := r.copies - 1 } else r }
  let s := s.wake fun _ w => w == .copies
  if s.sealed.any fun (r : Sinter) => r.first == some key && r.copies == 0 then
    let waiting := (s.threads.filter fun (y : Nat × Thread) => y.2.status == .wait .sealed).map (·.1)
    let s := s.post (waiting.map Happening.unseal)
    let s := if s.net.phases.isEmpty || s.agenda.contains .phaseRequest then s else s.post [.phaseRequest]
    s.retractLeaving.kickAll
  else s

/-- The dependency waits of an NRED are over: it departs (R104, R275). -/
def State.nredReady (s : State) (r : Nred) : Bool := !r.deps.any s.outstanding

/-- NREDs that waited for a command that is over depart. -/
def State.departNreds (s : State) (id : Nat) : State :=
  s.post (s.homes.flatMap fun (y : Nat × Home) =>
    (y.2.nreds.filter fun q => q.deps.contains id && s.nredReady q).map fun _ => .nredResult y.1 0)

/-- A command has completed or has been discarded: its count falls and waits on it are looked at again (R104, R31). -/
def State.commandOver (s : State) (c : Command) : State :=
  let x := (s.thread c.thread).lower c.setd
  let x := if x.sync = some c.id then
      { x with sync := none, status := if x.status = .wait .command then .ready else x.status, since := none, begun := none } else x
  let s := (s.setThread c.thread x).departNreds c.id
  State.kick (s.wake fun t w => coreOf t == coreOf c.thread && endsWait w) (coreOf c.thread)

/-- SRC of the progress record a command leaves in e6 (R103): 0 for MLD and MST, 1 for CPY. -/
def Command.recordSrc (c : Command) : Option Bool :=
  match c.op with
  | .mld .. | .mst .. => some false
  | .cpy .. => some true
  | _ => none

/-- e6 cleared if it records a discarded command, and e7 with a CPY's (R243). -/
def Thread.clearRecord (t : Thread) (c : Command) : Thread :=
  match c.recordSrc with
  | some src =>
    if (t.extReg 6).val.getLsbD 63 && (t.extReg 6).val.getLsbD 62 == src && t.record == some c.id then
      let t := { t.setExt 6 Reg.zero with record := none }
      if src then t.setExt 7 Reg.zero else t
    else t
  | none => t

/-- A parked command discarded, and with it the cause it would still have raised (R243). -/
def State.discard (s : State) (p : Parked) : State :=
  let t := (s.thread p.cmd.thread).clearRecord p.cmd
  let s := s.setThread p.cmd.thread { t with causes := t.causes.filter (·.cmd != some p.cmd.id) }
  let s := match p.cmd.sealedAt with
    | some key => s.lowerSeal key
    | none => s
  s.commandOver p.cmd

/-- The parked commands of a thread, on one engine, from the first that satisfies a test on; and the others (R243). -/
def splitParked (t : Nat) (hit : Command → Bool) : List Parked → List Parked × List Parked
  | [] => ([], [])
  | p :: ps =>
    if p.cmd.thread == t && hit p.cmd then (p :: ps.filter (·.cmd.thread == t), ps.filter (·.cmd.thread != t))
    else
      let (a, b) := splitParked t hit ps
      (a, p :: b)

/-- A thread waits for the pages of the commands it still has parked (R246). -/
def State.keepPages (s : State) (t : Nat) : State :=
  let k := s.core (coreOf t)
  let x := s.thread t
  s.setThread t { x with pages := x.pages.filter fun a => (k.matrix.parked ++ k.copy.parked).any fun p => p.cmd.thread == t && p.page == some a }

/-- Parked commands of a thread that satisfy a test discarded, each with those behind it on its engine (R243). -/
def State.discardParked (s : State) (t : Nat) (hit : Command → Bool) : State :=
  [EngineSel.matrix, EngineSel.copy].foldl (fun s e =>
    let k := s.core (coreOf t)
    let (gone, kept) := splitParked t hit (k.engine e).parked
    let s := s.setCore (coreOf t) (k.setEngine e { k.engine e with parked := kept })
    gone.foldl State.discard s) s |>.keepPages t

/-! ## Parked commands that re-enter the queue (R246) -/

/-- Parked behind another: it has met no cause and waits for no page of its own. -/
def Parked.plain (p : Parked) : Bool := p.cause.isNone && p.page.isNone && !p.handled

/-- The parked commands of a thread that go back together: each that satisfies a test, and those parked behind it. -/
def returning (t : Nat) (start : Parked → Bool) : Bool → List Parked → List Parked
  | _, [] => []
  | going, p :: ps =>
    if p.cmd.thread != t then returning t start going ps
    else if start p || (going && p.plain) then p :: returning t start true ps
    else returning t start false ps

/-- They re-enter the queue at its tail in their former order (R246).  Where the queue then holds more than its two entries
(R31, R104), none of them waits: no rule names a place for the others, and this is the model's choice (log 53). -/
def State.requeue (s : State) (t : Nat) (e : EngineSel) (start : Parked → Bool) : State :=
  let c := coreOf t
  let g := (s.core c).engine e
  let again := returning t start false g.parked
  if again.isEmpty then s
  else
    let g := { g with
      parked := g.parked.filter (fun p => !again.contains p)
      queue := g.queue ++ again.map (·.cmd) }
    (s.setCore c ((s.core c).setEngine e g)).kickOne c e

/-! ## Claims (R242, R243) -/

/-- The resources that s_a and s_b name (R242). -/
def claimSet (a b : Word) : List Nat := bitsIn 32 a.toNat ++ (bitsIn 8 b.toNat).map (32 + ·)

def Core.holds (k : Core) (t r : Nat) : Bool := k.claims.getD r none == some t

/-- Every resource of a set is free or held by the thread. -/
def Core.canTake (k : Core) (t : Nat) (rs : List Nat) : Bool :=
  rs.all fun r => k.claims.getD r none == none || k.holds t r

/-- A resource newly taken: undefined contents, and for an accumulator NONE and a cleared report (R9, R242, log 11). -/
def State.takeOne (s : State) (c t r : Nat) : State :=
  let k := s.core c
  if k.holds t r then s
  else
    let k := { k.untouched r with claims := k.claims.setIfInBounds r (some t) }
    let bits := Config.freeBits s.fresh
    let k := if r < 32 then { k with slots := k.slots.setIfInBounds r bits }
      else { k with accs := k.accs.setIfInBounds (r - 32) { k.accs.getD (r - 32) Acc.initial with
              bits := bits, checks := Checks.none, report := none } }
    { s.setCore c k with fresh := s.fresh + 1 }

def State.take (s : State) (c t : Nat) (rs : List Nat) : State := rs.foldl (fun s r => s.takeOne c t r) s

/-- Waiting CLAIMs examined in the order they began to wait; each whose whole set is free is granted (R242). -/
def State.grant (s : State) (c : Nat) : List Waiting → State
  | [] => s
  | w :: ws =>
    if (s.thread w.thread).status ≠ .wait .claim then
      State.grant (s.setCore c { s.core c with waiting := (s.core c).waiting.filter (· != w) }) c ws
    else if (s.core c).canTake w.thread w.set then
      let s := s.take c w.thread w.set
      let s := s.setCore c { s.core c with waiting := (s.core c).waiting.filter (· != w) }
      State.grant (s.setThread w.thread ((s.thread w.thread).next 4)) c ws
    else State.grant s c ws

def State.grantClaims (s : State) (c : Nat) : State := s.grant c (s.core c).waiting

/-- The resources of a set that a thread holds freed, and waiting claims granted (R243). -/
def State.freeClaims (s : State) (t : Nat) (rs : List Nat) : State :=
  let k := s.core (coreOf t)
  let claims := rs.foldl (fun v r => if k.holds t r then v.setIfInBounds r none else v) k.claims
  (s.setCore (coreOf t) { k with claims := claims, waiting := k.waiting.filter (·.thread != t) }).grantClaims (coreOf t)

def allResources : List Nat := List.range 40

/-- A thread's claims and parked commands given up (R243, R335, R381). -/
def State.giveUp (s : State) (t : Nat) : State :=
  if isCompute t then (s.discardParked t fun _ => true).freeClaims t allResources else s

end Sys2Proof.Machine
end

