-- ==== Sys2Proof/Machine/Calls.lean ====
section
/-! DEFINITION.
Units that serve calls: who is in WFW, dispatch of a call, the reply cache, the end of a call (R57, R286 to R290, R383).
-/

namespace Sys2Proof.Machine

/-! ## WFW (R57, R285, R383) -/

/-- Slot removed by the power controller (R32). -/
def State.slotRemoved (s : State) (t : Nat) : Bool := (s.core (coreOf t)).removed.getLsbD (slotOf t)

/-- What a unit with a thread newly in WFW may now do: a vent home takes its queue's head, a dispenser looks for work. -/
def wfwHappening (t : Nat) : Happening :=
  if isVent t then .headTake (channelOf t) else .dispenserDispatch (clusterOf t)

/-- A cluster of a launch looks whether it is quiescent (R66). -/
def State.askQuiet (s : State) (c : Nat) (e : BitVec 16) : State :=
  if s.agenda.contains (.clusterQuiescent c e.toNat) then s else s.post [.clusterQuiescent c e.toNat]

/-- The thread enters WFW, last in its unit's order (R57, R383). -/
def State.enterWfw (s : State) (t : Nat) : State :=
  let x := s.thread t
  let s := s.setThread t { x with
    status := .wfw, remote := false, callee := none, work := none, reissue := false, taken := false, finished := false
    expired := false, answered := false, since := none, begun := none, inlines := [] }
  let k := serverOf t
  let s := s.setServer k { s.server k with order := (s.server k).order.filter (· != t) ++ [t] }
  let s := if isCompute t then s.askQuiet (clusterOf t) x.epoch else s
  if s.agenda.contains (wfwHappening t) then s else s.post [wfwHappening t]

/-- The thread leaves its unit's order. -/
def State.leaveOrder (s : State) (t : Nat) : State :=
  let k := serverOf t
  s.setServer k { s.server k with order := (s.server k).order.filter (· != t) }

/-- The thread that an arriving call is given to: of a vent core, thread 6 or 7, whichever entered WFW earlier, or else
the earliest of 0 to 5 (R383); of a cluster, the earliest whose slot is not removed (R57, R58).  One whose core stands still for a
program load or a test keeps its place: only a removed slot is passed over. -/
def State.callThread (s : State) (k : Nat) : Option Nat :=
  let order := (s.server k).order
  if 4096 ≤ k then
    match order.find? fun t => decide (6 ≤ slotOf t) with
    | some t => some t
    | none => order.head?
  else order.find? fun t => isCompute t && !s.slotRemoved t

/-! ## The reply cache (R290) -/

def Server.entry (v : Server) (caller : Nat) (id : BitVec 16) : Option Cached :=
  v.cache.find? fun e => e.caller == caller && e.callId == id

def Server.setEntry (v : Server) (e : Cached) : Server :=
  { v with cache := v.cache.map fun x => if x.caller == e.caller && x.callId == e.callId then e else x }

def Server.dropEntry (v : Server) (caller : Nat) (id : BitVec 16) : Server :=
  { v with cache := v.cache.filter fun x => !(x.caller == caller && x.callId == id) }

/-! ## Sending (R286, R288, R290) -/

def State.sendCall (s : State) (c : Call) : State :=
  let m : Call := c
  State.post { s with net := { s.net with calls := s.net.calls ++ [m] } } [.callArrival s.net.calls.length]

def State.sendAnswer (s : State) (unit caller : Nat) (id : BitVec 16) (a : Answer) : State :=
  let m : CallMsg := ⟨unit, caller, id, some a⟩
  State.post { s with net := { s.net with replies := s.net.replies ++ [m] } } [.replyArrival s.net.replies.length]

def State.sendAck (s : State) (unit caller : Nat) (id : BitVec 16) : State :=
  let m : CallMsg := ⟨unit, caller, id, none⟩
  State.post { s with net := { s.net with acks := s.net.acks ++ [m] } } [.ackArrival s.net.acks.length]

def State.sendRetract (s : State) (unit caller : Nat) (id : BitVec 16) : State :=
  let m : CallMsg := ⟨unit, caller, id, none⟩
  State.post { s with net := { s.net with retracts := s.net.retracts ++ [m] } } [.retractionPass s.net.retracts.length]

/-! ## Dispatch of a call (R287) -/

/-- The window set of an epoch's launch. -/
def State.windowsOf (s : State) (e : BitVec 16) : Vector (BitVec 128) 8 :=
  match s.launch e with
  | some l => l.windows
  | none => Vector.replicate 8 0

/-- What dispatch of a call writes: s7 := 3, s8 up := payload, the rest of s8 to s13 := 0, pc, REMOTE, the windows, tvec. -/
def Thread.startCall (t : Thread) (c : Call) (w : Vector (BitVec 128) 8) (confine : Nat) : Thread :=
  let arg := fun n => Reg.of (c.payload.getD n 0)
  let t := (((t.setReg 7 (Reg.of 3)).setReg 8 (arg 0)).setReg 9 (arg 1)).setReg 10 (arg 2)
  let t := ((t.setReg 11 (arg 3)).setReg 12 (arg 4)).setReg 13 (arg 5)
  { t with
    pc := codeAddress c.entry, remote := true, win := w, tvec := 0, epoch := c.epoch, status := .ready
    callee := some ⟨c.caller, c.callId, c.epoch, c.origin, confine⟩ }

/-- Calls that wait at a unit given to its threads, in order of arrival, while there are both; each takes a cache entry. -/
def State.serveCalls (s : State) (k : Nat) : Nat → State
  | 0 => s
  | n + 1 =>
    match (s.server k).calls.find? (fun c => !s.offline c.epoch), s.callThread k with
    | some c, some t =>
      if 16 ≤ (s.server k).cache.length then s
      else
        let v := s.server k
        let s := s.setServer k { v with calls := v.calls.erase c, cache := v.cache ++ [⟨c.caller, c.callId, c.epoch, none, none, none, [], 0⟩] }
        let s := (s.leaveOrder t).setThread t ((s.thread t).startCall c (s.windowsOf c.epoch) k)
        let s := s.acquire t
        State.serveCalls (s.count t 32) k n
    | _, _ => s

def State.serve (s : State) (k : Nat) : State := s.serveCalls k (s.server k).calls.length

/-! ## The end of a call (R288 to R290) -/

/-- The cells tentative under a call at a unit. -/
def State.callCells (s : State) (e : Cached) : List Cell :=
  s.cells.filter fun c => e.cells.contains c.key && c.owner == e.caller && c.epoch == e.epoch

/-- A callee's call ends with a status (R288): its cells are retracted, the status is recorded and sent, and the thread
returns to WFW. -/
def State.endCall (s : State) (t : Nat) (c : Callee) (cause : Cause) (tval : Word) : State :=
  let k := serverOf t
  let s := match (s.server k).entry c.caller c.callId with
    | some e => (s.callCells e).foldl (fun (s : State) x => s.retractCell t x) s
    | none => s
  let s := match (s.server k).entry c.caller c.callId with
    | some e => (s.setServer k ((s.server k).setEntry { e with answer := some (.status cause tval), cells := [], due := s.gtime + 100000 })).post
        [.retractionTimer k (c.callId.toNat * 2 ^ 24 + c.caller)]
    | none => s
  let s := s.sendAnswer k c.caller c.callId (.status cause tval)
  (s.setThread t { s.thread t with trapm := false, causes := [] }).enterWfw t

end Sys2Proof.Machine
end

