-- ==== Sys2Proof/Machine/Save.lean ====
section
/-! DEFINITION.
The thread block and the core block in which firmware saves and dumps state, and the dump area of a launch
(R340, R348).
-/

namespace Sys2Proof.Machine

/-- dslot (R104). -/
def dslotWord (t : Thread) : Word :=
  BitVec.ofNat 64 ((t.dep.getD 0 0).toNat + (t.dep.getD 1 0).toNat * 16 + (t.dep.getD 2 0).toNat * 256 + (t.dep.getD 3 0).toNat * 4096)

/-- Bytes of a word list, each of n bytes. -/
def packed (n : Nat) (xs : List Nat) : List Byte := xs.flatMap (leBytes n)

/-- The call state of R340: next identifier and outstanding call; its target, entry, length of payload and resends; what is
left of its paused timer.  R340 leaves their order open (log 16). -/
def callBlock (t : Thread) : List Byte :=
  match t.call with
  | none => packed 8 [t.callId.toNat, 0, 0, 0, 0, 0]
  | some c => packed 8 [t.callId.toNat, 2 ^ 16 + c.callId.toNat, c.target.toNat, c.entry.toNat, c.payload.length + c.resends * 2 ^ 8, c.due]

def monitorBlock (m : Monitor) : List Byte :=
  packed 8 [m.addr, (if m.armed then 1 else 0) + (if m.latch then 2 else 0)]

/-- The current work record: kind, home or join word, SEQ, origin; in an order R340 leaves open (log 16). -/
def workBlock (t : Thread) : List Byte :=
  match t.work with
  | none => packed 8 [0, 0, 0, 0, 0, 0, 0, 0]
  | some w =>
    match w.job with
    | .task h q far => packed 8 [if far then 2 else 1, h, q, w.origin, 0, 0, 0, 0]
    | .child j => packed 8 [3, j.toNat, 0, w.origin, 0, 0, 0, 0]

def mailBlock (m : Mail) : List Byte := leBytes 64 m.body.toNat

def lateBlock (m : Mail) : List Byte := packed 8 [m.kind, m.sender.toNat] ++ leBytes 64 m.body.toNat

/-- A byte list brought to n bytes with zeros. -/
def padTo (n : Nat) (bs : List Byte) : List Byte := bs.take n ++ List.replicate (n - bs.length) 0

/-- LATE_COUNT and the late messages, as they stand from offset 0x900 of a thread block on. -/
def lateBytes (t : Thread) : List Byte := padTo 64 (packed 8 [t.late.length]) ++ padTo 5120 (t.late.flatMap lateBlock)

/-- The 8,192-byte thread block (R340). -/
def threadBlock (id : Nat) (t : Thread) : List Byte :=
  packed 8 (t.regs.toList.map (·.val.toNat)) ++ packed 8 [t.pc.toNat, (statWord id t).toNat, t.fpctl.toNat, (dslotWord t).toNat]
  ++ packed 8 [t.epc.toNat, t.tval.toNat, t.tcause.toNat, t.tvec.toNat, t.rcto.toNat, t.rcretry.toNat] ++ callBlock t
  ++ packed 16 (t.win.toList.map (·.toNat)) ++ packed 8 (t.ext.toList.map (·.val.toNat))
  ++ t.mon.toList.flatMap monitorBlock
  ++ packed 16 ((List.range 8).map fun i => (t.maskReg (BitVec.ofNat 3 i)).toNat)
  ++ packed 128 (t.vec.toList.map (·.toNat)) ++ packed 64 (t.str.toList.map (·.toNat)) ++ workBlock t
  ++ padTo 64 (packed 8 [t.mail.length]) ++ padTo 256 (t.mail.flatMap mailBlock)
  ++ lateBytes t ++ List.replicate 704 0

/-- An accumulator's checksum state, report and predictions (R250, R258), 1,024 bytes.  A shadow is live only while a command
runs, and R340's 16 KiB have no room for it (log 16). -/
def checkBlock (a : Acc) : List Byte :=
  let report := match a.report with
    | none => [0, 0, 0, 0]
    | some r => [1 + r.row * 2 + r.col * 2 ^ 5 + r.single.toNat * 2 ^ 9 + r.multi.toNat * 2 ^ 10, r.nrows + r.ncols * 2 ^ 8, r.rho.toNat, r.sigma.toNat]
  let state := match a.checks.state with | .none => 0 | .zero => 1 | .i32 => 2 | .f32 => 3 | .f64 => 4
  padTo 1024 (packed 8 (state :: report ++ a.checks.rows.toList.map (·.toNat) ++ a.checks.cols.toList.map (·.toNat)))

/-- An engine command with its snapshots and, where it is parked, whether it has met a cause, a page or its handler. -/
def commandBlock (c : Command) (parked : Nat) : List Byte :=
  packed 8 ([c.pc.toNat, encodeWord c.op, c.thread, c.epoch.toNat, match c.setd with | some d => 16 + d | none => 0, parked]
    ++ c.ext.toList.map (·.toNat))
  ++ packed 16 (c.win.toList.map (·.toNat)) ++ packed 64 [c.dst.toNat, c.src.toNat] ++ packed 128 [c.vmeta.toNat]

def engineBlock (g : Engine) : List Byte :=
  let parked := fun (p : Parked) => 1 + (if p.cause.isSome then 2 else 0) + (if p.page.isSome then 4 else 0) + (if p.handled then 8 else 0)
  padTo 0x7E00 ((g.running.toList ++ g.queue).flatMap (commandBlock · 0) ++ g.parked.flatMap fun p => commandBlock p.cmd (parked p))

/-- The core block (R340): tile memory, slots, accumulators with their checks, then the claim map and both engines' queues,
whose inner order R340 leaves open (log 16). -/
def coreBlock (k : Core) : List Byte :=
  k.tile.readN 0 0x40000 ++ packed 1024 (k.slots.toList.map (·.toNat)) ++ packed 1024 (k.accs.toList.map (·.bits.toNat))
  ++ k.accs.toList.flatMap checkBlock
  ++ padTo 0x400 (packed 8 (k.claims.toList.map fun c => match c with | some t => 2 ^ 24 + t | none => 0))
  ++ engineBlock k.matrix ++ engineBlock k.copy

/-! ## Late messages in the save area (R340, R342) -/

/-- Bytes of a cluster in the save area: the blocks of its 516 threads and of its 64 compute cores (log 14). -/
def clusterArea : Nat := 516 * 8192 + 64 * 0x5C000

/-- Where a thread's block lies in the save area of its launch: the clusters of this package one after another, then the vent
threads that have been saved (log 14). -/
def Launch.blockAt (l : Launch) (package t : Nat) : Option Nat :=
  let cs := (l.clusters.filter (·.1 == package)).map (·.2)
  if isVent t then (l.saved.bind fun v => v.threads.findIdx? fun (y : Nat × Thread) => y.1 == t).map fun i => cs.length * clusterArea + 8192 * i
  else (cs.findIdx? (· == clusterOf t)).map fun i =>
    i * clusterArea + 8192 * (if isControl t then 512 + slotOf t else t / 0x80 % 64 * 8 + slotOf t)

/-- Bytes of a page of a launch's save area written by firmware. -/
def State.writeArea (s : State) (l : Launch) (off : Nat) (bs : List Byte) : State :=
  match l.area[off / 4096]? with
  | some f => { s with mem := s.mem.writeN (keyOf (s.package * 2 ^ 44 + f * 4096) + off % 4096) bs }
  | none => s

/-- A context that has been saved has a late message more: its block says so. -/
def State.noteLate (s : State) (l : Launch) (t : Nat) (x : Thread) : State :=
  match l.phase, l.blockAt s.package t with
  | .out, some at_ => (s.writeArea l (at_ + 0x900) ((lateBytes x).take 0x700)).writeArea l (at_ + 0x1000) ((lateBytes x).drop 0x700)
  | _, _ => s

/-! ## The dump area (R348) -/

/-- Bytes of a launch's dump area in use: header, cause chain, records. -/
def Launch.dumpUsed (l : Launch) : Nat := 64 + 32 * l.chain.length + (l.records.map (·.2.length)).sum

/-- A cause-chain entry and its state record added to the launch's dump; a full area takes no record.  The entry has the time of
its event where that is earlier. -/
def State.dump (s : State) (e : BitVec 16) (code parent unit : Nat) (addr : Word) (body : List Byte) (time : Option Nat := none) : State :=
  match s.launch e with
  | none => s
  | some l =>
    let full := l.dumpFull || decide (Config.dumpSize < l.dumpUsed + 32 + body.length)
    let kept := !full && !body.isEmpty
    s.setLaunch { l with
      chain := l.chain ++ [(code, parent, if kept then l.records.length else 0xFFFFFFFF, s.package * 2 ^ 24 + unit, time.getD s.gtime, addr.toNat)]
      records := if kept then l.records ++ [(unit, body)] else l.records
      dumpFull := full }

/-- Index of the entry the next dump will have as its parent. -/
def State.lastEntry (s : State) (e : BitVec 16) : Nat :=
  match s.launch e with
  | some l => l.chain.length - 1
  | none => 0xFFFF

/-- The dump area as its bytes (R348): header, cause chain, records. -/
def Launch.dumpBytes (l : Launch) : List Byte :=
  packed 1 [0x47, 0x58, 0x44, 0x00] ++ packed 4 [l.chain.length, if l.dumpFull then 0xFFFFFFFF else l.records.length]
  ++ List.replicate 52 0
  ++ l.chain.flatMap (fun (c, p, r, u, t, a) => packed 2 [c, p] ++ packed 4 [r] ++ packed 8 [u, t, a])
  ++ l.records.flatMap (·.2)

/-- The list of tentative cells retracted on a unit's behalf (R348): 16 bytes each. -/
def cellList (cs : List Cell) : List Byte := cs.flatMap fun c => packed 8 [c.ea.toNat, if c.seen then 1 else 0]

/-- Bytes added to the newest record of a unit, the cells retracted on its behalf. -/
def State.dumpMore (s : State) (e : BitVec 16) (unit : Nat) (bs : List Byte) : State :=
  match s.launch e with
  | none => s
  | some l =>
    match (List.range l.records.length).reverse.find? fun i => (l.records.getD i (0, [])).1 == unit with
    | none => s
    | some i =>
      let full := l.dumpFull || decide (Config.dumpSize < l.dumpUsed + bs.length)
      let r := l.records.getD i (0, [])
      s.setLaunch { l with records := if full then l.records else l.records.set i (unit, r.2 ++ bs), dumpFull := full }

end Sys2Proof.Machine
end

