-- ==== Sys2Proof/Machine/Work.lean ====
section
/-! DEFINITION.
Work: its origin, the creation and retirement notices, how a task or a child retires, join words changed on another
unit's behalf, and the killing of a core (R43 to R55, R65, R282 to R284, R335 to R337, R349, R382).
-/

namespace Sys2Proof.Machine

/-! ## Operations tried on behalf of a unit -/

/-- The outcome of an operation run as a thread's, its replies at hand, with the state it reached; nothing where it stops. -/
def State.attempt {α : Type} (s : State) (t : Nat) (x : Op α) : Option (α × State) :=
  let had := (s.thread t).answered
  match x { s.setThread t { s.thread t with answered := true } with cur := t } with
  | .ok a s' => some (a, { s'.setThread t { s'.thread t with answered := had } with cur := s.cur })
  | .error _ _ => none

/-- What `reach` finds. -/
inductive Reach where
  | ok (g : Target)
  | cause (c : Cause) (tval : Word)
  | page (leafAt page : Nat)
  deriving DecidableEq, Repr

/-- From an effective address to its target for a unit that acts with windows and an epoch it was given, translating in one
go: engines, dispatchers and supervisors (R99, R115, R192, R244); `waited` is the page it has waited for (R314). -/
def State.reach (s : State) (wins : Vector (BitVec 128) 8) (unit : Nat) (e : BitVec 16) (ea : Word) (size : Nat)
    (rights : List Right) (waited : Option Nat := none) : Reach × State :=
  match checkIn wins ea size rights with
  | .error (c, v) => (.cause c v, s)
  | .ok (.chip a) =>
    match chipBlock a with
    | none => (.cause .window ea, s)
    | some g =>
      if (match g.unit with | some u => (s.core u).killed | none => false) then (.cause .poison ea, s)
      else if (if rights.contains .w || rights.contains .t then g.writableBy s unit else g.readableBy s unit) then (.ok g, s)
      else (.cause .window ea, s)
  | .ok (.virt va) =>
    match s.translate (pagerOf unit) e va rights with
    | (.range, s) => (.cause .range ea, s)
    | (.denied, s) => (.cause .window ea, s)
    | (.absent leafAt page, s) => match s.lostPage e leafAt page waited with
      | some c => (.cause c ea, s)
      | none => (.page leafAt page, s)
    | (.ok leaf k mixed, s) =>
      if s.present k then (.ok (.mem leaf k mixed), s.touch unit leaf k) else (.cause .physAbsent ea, s)

/-! ## Join words -/

/-- A host's copy of n bytes written back and dropped before a device access that waits for nobody (R322). -/
def State.settleHost (s : State) (leaf : Word) (k n : Nat) (write : Bool) : State :=
  if (s.snoopFor leaf k n write).isSome then s.dropHostLines k n else s

/-- A join word after a change by d: below zero it must not go, and where it would, it is undefined (R10, R283). -/
def joinUpdate (free : Nat) (d : Word) : Update := fun old =>
  some (if old = 0 ∧ d = -1 then free % 2 ^ 64 else (BitVec.ofNat 64 old + d).toNat)

/-- What becomes of a join word that a unit is to change: it is changed, its page is waited for (R313), its home is busy (R174,
R177, R327, R354), or it cannot be changed. -/
inductive Joined where
  | done
  | page (leafAt page : Nat)
  | later
  | failed
  deriving DecidableEq, Repr

/-- The home of a dword holds back a read-modify-write. -/
def State.homeBusy (s : State) (k n : Nat) : Bool :=
  s.inTransition k || s.sealBusy k n || (s.host.given.any fun l => overlaps l.key l.bytes k n) || s.underTest (memLine k n)

/-- A strong read-modify-write of n bytes at their home for a unit that no instruction has there (R170, R174, R209, R322); where
it meets a strong access of another size without order the bytes are undefined. -/
def State.rmwFor (s : State) (a : Agent) (leaf : Word) (k n : Nat) (f : Update) : State :=
  let clash := s.strongClash a.id k n
  let logged := s.logged k n
  let s := ((s.breach logged).settleHost leaf k n true).unsealAt k n
  let s := ((s.rmwHome a (grainBytes leaf) k n f).2).noteStrong a.id k n
  (clash.foldl (fun (s : State) y => s.freeAt y.1 y.2) s).breach logged

/-- A join word changed by an amount, indivisibly, by a unit that acts in a thread's windows (R282, R284, R335, R350).  Under DEBUG
a line that a host has just read is left alone, as any atomic leaves it (R329). -/
def State.joinBy (s : State) (wins : Vector (BitVec 128) 8) (unit : Nat) (e : BitVec 16) (ea : Word) (d : Word)
    (waited : Option Nat := none) : Joined × State :=
  match s.reach wins unit e ea 8 [.a, .w] waited with
  | (.page leafAt page, s) => (.page leafAt page, s)
  | (.cause _ _, s) => (.failed, s)
  | (.ok g, s) =>
    let free := (Config.freeBits s.fresh).toNat
    let s := { s with fresh := s.fresh + 1 }
    match g with
    | .mem leaf k mixed =>
      let raced := s.hostReadLately g && match s.launch e with
        | some l => l.dbg
        | none => false
      if !(s.kindOf g).atomic || s.poisoned k 8 || raced then (.failed, s)
      else if s.homeBusy k 8 then (.later, s)
      else (.done, s.rmwFor ⟨unit, e, unit⟩ leaf k 8 (if mixed then fun _ => some (free % 2 ^ 64) else joinUpdate free d))
    | .tile _ _ _ => match s.attempt unit (rmwTarget ea 8 false (joinUpdate free d) g) with
      | some (_, s) => (.done, s)
      | none => (.failed, s)
    | _ => (.failed, s)

/-! ## Notices (R55, R65) -/

/-- The origin that work created by a thread inherits: PACKAGE * 256 + DIE * 64 + CLUSTER (R55). -/
def State.originOf (s : State) (t : Nat) : Nat :=
  match (s.thread t).callee, (s.thread t).work with
  | some c, _ => c.origin
  | none, some w => w.origin
  | none, none => s.package * 256 + clusterOf t

/-- A creation notice sent to an origin cluster; one to another package leaves this one (log 18). -/
def State.sendCreation (s : State) (unit origin : Nat) (e : BitVec 16) : State :=
  if origin / 256 ≠ s.package then s
  else
    let n : Notice := ⟨unit, origin % 256, e, 0, s.gtime, s.tick⟩
    State.post { s with net := { s.net with creates := s.net.creates ++ [n] } } [.creationNotice s.net.creates.length]

/-- A retirement notice sent: code 0 is completed (R65, R67). -/
def State.sendRetirement (s : State) (unit origin : Nat) (e : BitVec 16) (code : Nat) : State :=
  if origin / 256 ≠ s.package then s
  else
    let n : Notice := ⟨unit, origin % 256, e, code, s.gtime, s.tick⟩
    State.post { s with net := { s.net with retires := s.net.retires ++ [n] } } [.retirementNotice s.net.retires.length]

/-! ## Anchored tasks -/

/-- The home of a first-tier key is its pseudo-channel, of a second-tier key 512 + its memory port (R43). -/
def homeOf (k : Nat) : Option Nat :=
  match areaOf k with
  | .firstTier => some (keyChannel k)
  | .secondTier => some (512 + keyPort k)
  | _ => none

/-- The thread and cluster that a home's logic acts in: its vent core, or cluster 0 of its die. -/
def homeUnit (h : Nat) : Nat := if h < 512 then ventThread h 0 else controlThread ((h - 512) * 64) 0

/-- The service mean after a near body ran for d home cycles (R51): signed arithmetic, clamped. -/
def serviceMean (m d : Nat) : Nat :=
  let d := min d (2 ^ 22 - 1)
  let x : Int := (m : Int) + ((d : Int) - (m : Int)) / 16
  (max 1 (min x (2 ^ 22 - 1))).toNat

/-- An entry of a home retires (R44, R51, R65).  How many home cycles it ran is timing: a free value (log 11). -/
def State.retireTask (s : State) (t h q : Nat) (e : BitVec 16) (far : Bool) (origin code : Nat) : State :=
  let x := s.home h
  let x := { x with queue := x.queue.filter fun r => !(r.seq.toNat == q && r.epoch == e && r.runner == some t) }
  let x := if !far && Home.adapt x then
      { x with mean := serviceMean x.mean ((Config.freeBits s.fresh).toNat % 2 ^ 22) } else x
  let s := State.homeChanged { s.setHome h x with fresh := s.fresh + 1 } h
  let s := if s.agenda.contains (.headTake h) then s else s.post [.headTake h]
  -- the cluster that holds a second-tier queue may be quiescent now (R66)
  let s := if 512 ≤ h then s.askQuiet ((h - 512) * 64) e else s
  s.sendRetirement t origin e code

/-- R49 for a task whose unit is gone or whose work has ended by an Ending cause: a restartable entry is queued again where
it stood, after its unit's open cells have been listed in the dump (R348) and
retracted; any other retires as failed. -/
def State.failTask (s : State) (t h q : Nat) (e : BitVec 16) (far : Bool) (origin code : Nat) : State :=
  match (s.home h).queue.find? fun r => r.seq.toNat == q && r.epoch == e && r.runner == some t with
  | none => s
  | some r =>
    if r.restart then
      let cs := s.cells.filter fun c => c.owner == t && c.epoch == e && !c.leaving
      let s := cs.foldl (fun (s : State) c => s.retractCell t c) (if cs.isEmpty then s else s.dumpMore e t (cellList cs))
      let x := s.home h
      let s := (s.setHome h { x with queue := x.queue.map fun y => if y == r then { y with running := false, runner := none } else y }).homeChanged h
      if s.agenda.contains (.headTake h) then s else s.post [.headTake h]
    else s.retireTask t h q e far origin code

/-- A retirement that follows a join word's change: origin and code. -/
def State.retireAfter (s : State) (unit : Nat) (e : BitVec 16) (notice : Option (Nat × Nat)) : State :=
  match notice with
  | some (origin, code) => s.sendRetirement unit origin e code
  | none => s

/-- A join word that failed work decrements, as DONE does, and the retirement that follows it (R335, R350): where the word's page
is not present or its home is busy, both are kept until it can be done; where it cannot be done at all, the dump says so. -/
def State.failJoin (s : State) (wins : Vector (BitVec 128) 8) (unit : Nat) (e : BitVec 16) (ea : Word) (code : Nat)
    (notice : Option (Nat × Nat)) (waited : Option Nat := none) : State :=
  let keep := fun (s : State) (page : Nat) => match s.launch e with
    | some l => s.setLaunch { l with joins := l.joins ++ [⟨wins, unit, ea, page, notice, code⟩] }
    | none => s
  match s.joinBy wins unit e ea (-1) waited with
  | (.done, s) => s.retireAfter unit e notice
  | (.page leafAt page, s) => (keep s leafAt).askPage unit e leafAt page
  | (.later, s) =>
    let s := keep s 0
    if s.agenda.contains (.pageServiceComplete 0) then s else s.post [.pageServiceComplete 0]
  | (.failed, s) => (s.dump e code 0xFFFF unit ea []).retireAfter unit e notice

/-- A thread's work retires as failed with a code (R335, R350): a task under R49, a child with its join word decremented
after a release. -/
def State.failWork (s : State) (t : Nat) (w : Work) (wins : Vector (BitVec 128) 8) (e : BitVec 16) (code : Nat) : State :=
  match w.job with
  | .task h q far => s.failTask t h q e far w.origin code
  | .child j => (s.release t).failJoin wins t e j code (some (w.origin, code))

/-! ## Open inline children (R284, R335) -/

/-- The dword at an address, read as the thread's own, translated in one go; nothing where it cannot be read. -/
def State.readFrame (s : State) (t : Nat) (ea : Word) : Option (Word × State) :=
  let x := s.thread t
  match s.reach x.win t x.epoch ea 8 [.r] with
  | (.ok g, s) => (s.attempt t (readTarget ea 8 g)).map fun (bs, s) => (BitVec.ofNat 64 (leNat bs), s)
  | _ => none

/-- The four saved dwords of an inline child's frame. -/
def State.readFrames (s : State) (t : Nat) (ea : Word) : Option (Word × Word × Word × Word × State) := do
  let (a, s) ← s.readFrame t ea
  let (b, s) ← s.readFrame t (ea + 8)
  let (c, s) ← s.readFrame t (ea + 16)
  let (d, s) ← s.readFrame t (ea + 24)
  return (a, b, c, d, s)

/-- A word that an open inline child must leave as FORK set it: undefined where the child has changed it (R10, R284, log 11). -/
def keptOr (now : Word) (set : Option Word) (free : Word) : Word := match set with
  | some x => if now = x then now else free
  | none => now

/-- s12 and s14 as the end of the innermost open inline child finds them. -/
def Thread.joinAddress (t : Thread) (free : Block) : Word := keptOr (t.reg 12).val (t.inlines.head?.map (·.join)) (free.extractLsb' 512 64)
def Thread.frameTop (t : Thread) (free : Block) : Word := keptOr (t.reg 14).val (t.inlines.head?.map (·.top)) (free.extractLsb' 576 64)

/-- Open inline children closed, innermost first (R335, step 3); the bound is never reached, since each step moves s14 up
the window. -/
def State.closeInline (s : State) (t code : Nat) : Nat → State
  | 0 => s
  | n + 1 =>
    let x := s.thread t
    if (x.reg 7).val ≠ 4 then s
    else
      let free := Config.freeBits s.fresh
      let s := State.release { s with fresh := s.fresh + 1 } t
      let s := s.sendRetirement t (s.originOf t) x.epoch code
      let join := x.joinAddress free
      let top := x.frameTop free
      match s.joinBy x.win t x.epoch join (-1) with
      | (.failed, s) => s.dump x.epoch code 0xFFFF t join []
      | (r, s) =>
        let s := if r = .done then s else s.failJoin x.win t x.epoch join code none
        match s.readFrames t (1 <<< 61 + top) with
        | none => s.dump x.epoch code 0xFFFF t (1 <<< 61 + top) []
        | some (a, b, c, d, s) =>
          let y := ((((s.thread t).setReg 7 (Reg.of a)).setReg 12 (Reg.of b)).setReg 13 (Reg.of c)).setReg 15 (Reg.of d)
          let y := { y with inlines := y.inlines.drop 1 }
          State.closeInline (s.setThread t (y.setReg 14 (Reg.of (top + 32)))) t code n

/-! ## Ranks (R293) -/

/-- Rank entries of an epoch that a test accepts, changed. -/
def State.mapRanks (s : State) (hit : Word → Bool) (f : Word → Word) : State :=
  { s with ranks := s.ranks.map fun (e : Nat × Word) => if hit e.2 then (e.1, f e.2) else e }

def rankThread (w : Word) : Nat := w.toNat % 2 ^ 44
def rankValid (w : Word) : Bool := w.getLsbD 44
def rankTransit (w : Word) : Bool := w.getLsbD 45
def rankDead (w : Word) : Bool := w.getLsbD 46

/-! ## Killing a core (R349) -/

/-- A thread of a killed core: it stops at once, holding what it was doing for the supervisor to recover; its outstanding call
is given up, so that nothing more of it is sent, answered or acknowledged (R349, R350). -/
def Thread.killed (t : Thread) : Thread :=
  { t with isSealed := true, status := .wait .stopped, call := none, acks := [], causes := [] }

/-- A core is killed (R349): its threads and engines stop, its ranks become DEAD and its mailboxes are sealed, its state is
dumped with the cause chain, its L1 is written back and dropped; the supervisor's recovery follows (R350). -/
def State.killCore (s : State) (c code parent : Nat) (e : BitVec 16) (addr : Word) : State :=
  if (s.core c).killed then s
  else
    let s := (List.range 8).foldl (fun (s : State) j => s.setThread (c + j) (s.thread (c + j)).killed) s
    let s := { s with servers := s.servers.map fun (y : Nat × Server) => (y.1, { y.2 with order := y.2.order.filter fun t => coreOf t != c }) }
    let s := s.mapRanks (fun w => rankValid w && coreOf (rankThread w % 2 ^ 24) == c) (· ||| 1 <<< 46)
    let s := s.dump e code parent c addr (coreBlock (s.core c))
    let k := s.core c
    let s := (k.commands.filterMap Command.sealedAt).foldl (fun (s : State) a => s.lowerSeal a) s
    let k := s.core c
    let s := s.setCore c { k with killed := true, killedIn := e, matrix := Engine.idle, copy := Engine.idle, waiting := [] }
    let s := if isCompute c then s.dropL1 c else s
    s.post [.supervisorRecovery c]

/-- The epoch of the launch a core runs: that of the launch whose cluster set holds its cluster. -/
def State.epochOfCluster (s : State) (c : Nat) : BitVec 16 :=
  match s.fw.launches.find? fun l => l.phase != .complete && l.clusters.contains (s.package, c) with
  | some l => l.epoch
  | none => 0

/-- Compute cores of a cluster. -/
def clusterCores (c : Nat) : List Nat := (List.range 64).map fun k => c * 0x2000 + k * 0x80

/-! ## Detected errors and self-tests (R345, R354) -/

/-- An event of kinds 1 to 4: posted, and the core's threads stop for a self-test (R354). -/
def State.logicEvent (s : State) (unit kind code : Nat) (addr : Word) : State :=
  let s := s.postEvent (eventCluster s unit) kind 0 code 0 unit addr
  let c := coreOf unit
  let k := s.core c
  (s.setCore c { k with testing := true, suspects := k.suspects ++ [⟨kind, code, unit, addr, s.gtime, none⟩] }).post
    [.selfTestResult c (Config.lasting s.tick)]

end Sys2Proof.Machine
end

