-- ==== Sys2Proof/Machine/Ending.lean ====
section
/-! DEFINITION.
How a cause is taken: by the handler (R332), by ending the thread's work (R335), or by ending the call it serves (R288);
deferred causes (R11, R246); and how the outcome of an instruction becomes the next state.
-/

namespace Sys2Proof.Machine

/-! ## Ending causes (R335, R338) -/

/-- Bound on the inline children that can be open: a frame takes 32 bytes of a window of less than 2^57 bytes. -/
def frameBound : Nat := 2 ^ 52

/-- The chain entries and the thread block of an Ending cause (R335 step 1, R348). -/
def State.dumpThread (s : State) (t : Nat) (c : Cause) (raised : Cause) (tval : Word) : State :=
  let x := s.thread t
  if c = .double then
    let s := s.dump x.epoch raised.code 0xFFFF t tval []
    s.dump x.epoch c.code (s.lastEntry x.epoch) t tval (threadBlock t x)
  else s.dump x.epoch c.code 0xFFFF t tval (threadBlock t x)

/-- A failed retirement with no work behind it, against a cluster's own count (R335, R67). -/
def State.recordFault (s : State) (t : Nat) (e : BitVec 16) (code : Nat) : State :=
  let c := clusterOf t
  let k := s.cluster c
  let n := Tab.get Counts.initial k.counts e.toNat
  let n := match n.fault with
    | none => { n with fault := some (code, s.gtime) }
    | some _ => n
  s.setCluster c { k with counts := Tab.put k.counts e.toNat n }

/-- The thread's current work ends (R335): dump, claims and parked commands given up, open inline children and then the
work itself retired as failed, TRAPM cleared, WFW.  A thread with no work records the code against its own cluster. -/
def State.endWork (s : State) (t : Nat) (c raised : Cause) (tval : Word) : State :=
  let s := s.dumpThread t c raised tval
  let s := if c = .double then s.postEvent (eventCluster s t) 14 0 c.code 0 t tval else s
  let s := s.giveUp t
  let s := s.closeInline t c.code frameBound
  let x := s.thread t
  let s := match x.work with
    | some w => s.failWork t w x.win x.epoch c.code
    | none => s.recordFault t x.epoch c.code
  let s := s.setThread t { s.thread t with trapm := false, causes := [] }
  let s := s.enterWfw t
  if isControl t && c == .double then
    -- R338: every compute core of the cluster in the launch is killed
    let e := s.epochOfCluster (clusterOf t)
    (clusterCores (clusterOf t)).foldl (fun (s : State) k => s.killCore k Cause.killed.code 0xFFFF e 0) s
  else s

/-! ## Taking a cause -/

/-- A trap of a remote callee ends its call with a status (R288). -/
def State.trapRemote (s : State) (t : Nat) (k : Callee) (c : Cause) (tval : Word) : State :=
  match c with
  | .remoteSubset => s.endCall t k .remoteSubset (s.thread t).pc
  | .remoteFault => s.endCall t k .remoteFault tval
  | c => s.endCall t k .remoteTrap (BitVec.ofNat 64 c.code)

/-- The event that goes with a detected error (R138, R237, R354). -/
def State.causeEvent (s : State) (t : Nat) (c : Cause) (tval : Word) : State :=
  match c with
  | .residue => s.logicEvent t (if tval.toNat < 24 then 2 else 3) c.code tval
  | _ => s

/-- A cause is raised by an instruction of a thread, or by work that has left it: the handler is entered, or the work or
the call ends (R288, R332, R335). -/
def State.takeCause (s : State) (t : Nat) (c : Cause) (tval : Word) (epc : Option Word) (parked : Option Word) : State :=
  let s := s.causeEvent t c tval
  let x := s.thread t
  match x.callee with
  | some k => s.trapRemote t k c tval
  | none =>
    if c.ending then s.endWork t c c tval
    else if x.trapm then s.endWork t .double c tval
    else s.setThread t (x.enterTrap c parked (epc.getD x.pc) tval)

/-! ## Deferred causes (R11, R246, R332) -/

/-- Waits that a deferred cause does not abandon: what has left the thread, or has reached its home, completes first (R217,
R298). -/
def Wait.kept : Wait → Bool
  | .call | .send | .phase | .accept | .stopped | .memory | .fill _ | .fence => true
  | _ => false

/-- A Handled cause of a parked command, raised or taken while a handler runs, is held until its RTE (R332). -/
def Deferred.held (d : Deferred) : Bool := d.parked.isSome && !d.cause.ending

/-- The deferred cause that a thread takes at its next instruction boundary: the first that is not held (R332, R335). -/
def Thread.due (t : Thread) : Option Deferred := t.causes.find? fun d => !(t.trapm && d.held)

/-- A READY thread has begun its next instruction, which waited and is to be issued again: it is not at a boundary. -/
def Thread.midway (t : Thread) : Bool := t.status == .ready && t.begun.isSome && t.due.isNone

/-- Waits that a gang switch, or the loss of the slot, abandons: the instruction runs again later.  What the vector unit has
accepted, and an access or fence that has reached its home, completes first (R217, R238, R298). -/
def Wait.abandoned (w : Wait) (taken : Bool) : Bool :=
  match w with
  | .mark | .engine | .counts | .claim | .monitor | .barrier _ | .join _ | .spawn | .pairBuffer | .page _ | .walk | .sealed | .armed
  | .copies | .recv | .ending => true
  | .vector => !taken
  | .command | .call | .accept | .phase | .send | .nred | .stopped | .memory | .fill _ | .fence => false

/-- It has begun one that completes whatever becomes of its slot or its launch (R217, R238, R369). -/
def Thread.underway (t : Thread) : Bool := t.midway && t.begun.any fun w => !w.abandoned t.taken

/-- A cause kept for the thread's next instruction boundary (a thread whose work has ended takes none, R381); unless it is
held, it ends the thread's wait. -/
def Thread.defer (t : Thread) (d : Deferred) : Thread :=
  if t.status = .wfw ∨ t.status = .idle then t
  else { t with
    causes := t.causes ++ [d]
    status := if t.trapm && d.held then t.status else match t.status with
      | .wait w => if w.kept then t.status else .ready
      | st => st }

/-- A time limit of a wait that is over (R205, R211). -/
def State.dropLimits (s : State) (t : Nat) : State :=
  { s with agenda := s.agenda.filter fun h => h != .mwaitTimeout t && h != .tentFullTimeout t }

/-- A cause deferred; with the wait that it ends goes the wait's time limit. -/
def State.defer (s : State) (t : Nat) (d : Deferred) : State :=
  let x := (s.thread t).defer d
  let s := s.setThread t x
  if x.status = .ready then s.dropLimits t else s

/-- A cause of an instruction that has left its thread is taken where the instruction stands; a thread without its slot is
HELD and takes it when the slot is restored (R360, R369). -/
def State.takeAt (s : State) (t : Nat) (c : Cause) (tval : Word) (epc : Word) : State :=
  if s.slotRemoved t then
    (s.setThread t { s.thread t with pc := epc, status := .ready, since := none, begun := none }).defer t ⟨c, tval, none, none⟩
  else s.takeCause t c tval (some epc) none

/-! ## From an operation to the next state -/

/-- The state after an instruction of the current thread, which began in the state given (R8, R11, R31). -/
def State.finish (s : State) (r : EStateM.Result Stop State Unit) : State :=
  match r with
  | .ok _ s' => s'
  | .error (.trap c v epc keep) s' => (if keep then s' else s).takeCause s.cur c v epc none
  | .error (.wait w keep) s' =>
    let b := if keep then s' else s
    b.setThread s.cur ((b.thread s.cur).enter w s.gtime)

/-- An instruction of the current thread, run. -/
def run (x : Op Unit) (s : State) : Host.Outcome State Fault Refusal := .next (s.finish (x s))

/-- A happening: the machine goes on. -/
def happen (f : State → State) (s : State) : Host.Outcome State Fault Refusal := .next (f s)

end Sys2Proof.Machine
end

