-- ==== Sys2Proof/Machine/LoadStore.lean ====
section
/-! DEFINITION.
Loads and stores of majors 0x10 to 0x12 (R196, R197).
-/

namespace Sys2Proof.Machine

/-- Base and index residues, then the effective address (R115, R138, R197). -/
def addressMD (w : BitVec 3) (b : BitVec 4) (i : BitVec 11) (size : Nat) : Op Word := do
  return effectiveAddress w (← rsUse b) (disp i size)

def addressMX (w : BitVec 3) (b x : BitVec 4) (sh : BitVec 2) : Op Word := do
  let base ← rsUse b
  return effectiveAddress w base (scaled (← rsUse x) sh)

/-- read_mem (R115): check, translate, read. -/
def readMem (ea : Word) (size : Nat) (rights : List Right := [.r]) (confine : Bool := true) : Op Nat := do
  let g ← locate ea size rights confine
  return leNat (← readTarget ea size g)

/-- write_mem (R115). -/
def writeMem (ea : Word) (size : Nat) (x : Nat) (rights : List Right := [.w]) : Op Unit := do
  let g ← locate ea size rights
  writeTarget ea (leBytes size x) g

/-- A load of size bytes, extended to the register (R197). -/
def load (d : BitVec 4) (named : List (BitVec 4)) (address : Op Word) (size : Nat) (signed : Bool) (n : Nat := 4) : Op Unit :=
  issue .loadStore (d :: named) do
    let x ← readMem (← address) size
    wr d (if signed then extendS (8 * size) x else extendZ (8 * size) x)
    advance n

/-- A store of the low bytes of s_d, whose residue is compared (R138, R197). -/
def store (d : BitVec 4) (named : List (BitVec 4)) (address : Op Word) (size : Nat) (n : Nat := 4) : Op Unit :=
  issue .loadStore (d :: named) do
    let ea ← address
    let x ← rsUse d
    writeMem ea size (lowBits (8 * size) x)
    advance n

def execLdb (d b : BitVec 4) (w : BitVec 3) (i : BitVec 11) (s : State) : Host.Outcome State Fault Refusal :=
  run (load d [b] (addressMD w b i 1) 1 true) s

def execLdbu (d b : BitVec 4) (w : BitVec 3) (i : BitVec 11) (s : State) : Host.Outcome State Fault Refusal :=
  run (load d [b] (addressMD w b i 1) 1 false) s

def execLdh (d b : BitVec 4) (w : BitVec 3) (i : BitVec 11) (s : State) : Host.Outcome State Fault Refusal :=
  run (load d [b] (addressMD w b i 2) 2 true) s

def execLdhu (d b : BitVec 4) (w : BitVec 3) (i : BitVec 11) (s : State) : Host.Outcome State Fault Refusal :=
  run (load d [b] (addressMD w b i 2) 2 false) s

def execLdw (d b : BitVec 4) (w : BitVec 3) (i : BitVec 11) (s : State) : Host.Outcome State Fault Refusal :=
  run (load d [b] (addressMD w b i 4) 4 true) s

def execLdwu (d b : BitVec 4) (w : BitVec 3) (i : BitVec 11) (s : State) : Host.Outcome State Fault Refusal :=
  run (load d [b] (addressMD w b i 4) 4 false) s

def execLdd (d b : BitVec 4) (w : BitVec 3) (i : BitVec 11) (s : State) : Host.Outcome State Fault Refusal :=
  run (load d [b] (addressMD w b i 8) 8 false) s

def execStb (d b : BitVec 4) (w : BitVec 3) (i : BitVec 11) (s : State) : Host.Outcome State Fault Refusal :=
  run (store d [b] (addressMD w b i 1) 1) s

def execSth (d b : BitVec 4) (w : BitVec 3) (i : BitVec 11) (s : State) : Host.Outcome State Fault Refusal :=
  run (store d [b] (addressMD w b i 2) 2) s

def execStw (d b : BitVec 4) (w : BitVec 3) (i : BitVec 11) (s : State) : Host.Outcome State Fault Refusal :=
  run (store d [b] (addressMD w b i 4) 4) s

def execStd (d b : BitVec 4) (w : BitVec 3) (i : BitVec 11) (s : State) : Host.Outcome State Fault Refusal :=
  run (store d [b] (addressMD w b i 8) 8) s

def execLdbX (d b x : BitVec 4) (w : BitVec 3) (h : BitVec 2) (s : State) : Host.Outcome State Fault Refusal :=
  run (load d [b, x] (addressMX w b x h) 1 true) s

def execLdbuX (d b x : BitVec 4) (w : BitVec 3) (h : BitVec 2) (s : State) : Host.Outcome State Fault Refusal :=
  run (load d [b, x] (addressMX w b x h) 1 false) s

def execLdhX (d b x : BitVec 4) (w : BitVec 3) (h : BitVec 2) (s : State) : Host.Outcome State Fault Refusal :=
  run (load d [b, x] (addressMX w b x h) 2 true) s

def execLdhuX (d b x : BitVec 4) (w : BitVec 3) (h : BitVec 2) (s : State) : Host.Outcome State Fault Refusal :=
  run (load d [b, x] (addressMX w b x h) 2 false) s

def execLdwX (d b x : BitVec 4) (w : BitVec 3) (h : BitVec 2) (s : State) : Host.Outcome State Fault Refusal :=
  run (load d [b, x] (addressMX w b x h) 4 true) s

def execLdwuX (d b x : BitVec 4) (w : BitVec 3) (h : BitVec 2) (s : State) : Host.Outcome State Fault Refusal :=
  run (load d [b, x] (addressMX w b x h) 4 false) s

def execLddX (d b x : BitVec 4) (w : BitVec 3) (h : BitVec 2) (s : State) : Host.Outcome State Fault Refusal :=
  run (load d [b, x] (addressMX w b x h) 8 false) s

def execStbX (d b x : BitVec 4) (w : BitVec 3) (h : BitVec 2) (s : State) : Host.Outcome State Fault Refusal :=
  run (store d [b, x] (addressMX w b x h) 1) s

def execSthX (d b x : BitVec 4) (w : BitVec 3) (h : BitVec 2) (s : State) : Host.Outcome State Fault Refusal :=
  run (store d [b, x] (addressMX w b x h) 2) s

def execStwX (d b x : BitVec 4) (w : BitVec 3) (h : BitVec 2) (s : State) : Host.Outcome State Fault Refusal :=
  run (store d [b, x] (addressMX w b x h) 4) s

def execStdX (d b x : BitVec 4) (w : BitVec 3) (h : BitVec 2) (s : State) : Host.Outcome State Fault Refusal :=
  run (store d [b, x] (addressMX w b x h) 8) s

end Sys2Proof.Machine
end

