-- ==== Sys2Proof/Machine/Atomic.lean ====
section
/-! DEFINITION.
Atomics of major 0x13 (R169, R177, R193, R198, R199, R329).
-/

namespace Sys2Proof.Machine

/-- The width SZ codes for an atomic or a DUPD, of which the decoder keeps the low bit: 32 or 64 bits (R198). -/
def atomBits (z : BitVec 1) : Nat := if z = 1 then 64 else 32

/-- An atomic (R199): residues, address, kind of memory, then release, read-modify-write and acquire.  `f` answers the new
value from the width, the old value, the value operand and the comparand; `signed` is how the old value is extended. -/
def atomic (d b v : BitVec 4) (w : BitVec 3) (z : BitVec 1) (o : BitVec 2) (y : BitVec 1) (signed : Bool)
    (f : Nat → Nat → Nat → Nat → Option Nat) (reads : Bool := false) : Op Unit :=
  issue .atomic [d, b, v] do
    let n := atomBits z
    let ea := effectiveAddress w (← rsUse b) 0
    let x := lowBits n (← rsUse v)
    let c ← if reads then rsUse d else rs d
    let g ← locate ea (n / 8) [.a, .w]
    refuseView ea g
    requireKind ea Kind.atomic g
    if (← get).hostRaced (← self) g then trap .hostatom ea
    if o.getLsbD 1 then releaseEvent
    let old ← rmwTarget ea (n / 8) (y == 1) (fun old => (f n old x (lowBits n c)).map (· % 2 ^ n)) g
    if o.getLsbD 0 then acquireEvent
    wr d (if signed then extendS n old else extendZ n old)
    advance

def execAadd (d b v : BitVec 4) (w : BitVec 3) (z : BitVec 1) (o : BitVec 2) (y : BitVec 1) (s : State) :
    Host.Outcome State Fault Refusal :=
  run (atomic d b v w z o y true fun _ old x _ => some (old + x)) s

def execAmin (d b v : BitVec 4) (w : BitVec 3) (z : BitVec 1) (o : BitVec 2) (y : BitVec 1) (s : State) :
    Host.Outcome State Fault Refusal :=
  run (atomic d b v w z o y true fun n old x _ => some (if signedOf n old ≤ signedOf n x then old else x)) s

def execAminu (d b v : BitVec 4) (w : BitVec 3) (z : BitVec 1) (o : BitVec 2) (y : BitVec 1) (s : State) :
    Host.Outcome State Fault Refusal :=
  run (atomic d b v w z o y false fun _ old x _ => some (Nat.min old x)) s

def execAmax (d b v : BitVec 4) (w : BitVec 3) (z : BitVec 1) (o : BitVec 2) (y : BitVec 1) (s : State) :
    Host.Outcome State Fault Refusal :=
  run (atomic d b v w z o y true fun n old x _ => some (if signedOf n old ≤ signedOf n x then x else old)) s

def execAmaxu (d b v : BitVec 4) (w : BitVec 3) (z : BitVec 1) (o : BitVec 2) (y : BitVec 1) (s : State) :
    Host.Outcome State Fault Refusal :=
  run (atomic d b v w z o y false fun _ old x _ => some (Nat.max old x)) s

def execAand (d b v : BitVec 4) (w : BitVec 3) (z : BitVec 1) (o : BitVec 2) (y : BitVec 1) (s : State) :
    Host.Outcome State Fault Refusal :=
  run (atomic d b v w z o y true fun _ old x _ => some (old &&& x)) s

def execAor (d b v : BitVec 4) (w : BitVec 3) (z : BitVec 1) (o : BitVec 2) (y : BitVec 1) (s : State) :
    Host.Outcome State Fault Refusal :=
  run (atomic d b v w z o y true fun _ old x _ => some (old ||| x)) s

def execAxor (d b v : BitVec 4) (w : BitVec 3) (z : BitVec 1) (o : BitVec 2) (y : BitVec 1) (s : State) :
    Host.Outcome State Fault Refusal :=
  run (atomic d b v w z o y true fun _ old x _ => some (old ^^^ x)) s

def execAswap (d b v : BitVec 4) (w : BitVec 3) (z : BitVec 1) (o : BitVec 2) (y : BitVec 1) (s : State) :
    Host.Outcome State Fault Refusal :=
  run (atomic d b v w z o y true fun _ _ x _ => some x) s

/-- ACAS writes only when the old value is the comparand in s_d, which is read before it is written (R199). -/
def execAcas (d b v : BitVec 4) (w : BitVec 3) (z : BitVec 1) (o : BitVec 2) (y : BitVec 1) (s : State) :
    Host.Outcome State Fault Refusal :=
  run (atomic d b v w z o y true (fun _ old x c => if old = c then some x else none) (reads := true)) s

end Sys2Proof.Machine
end

