-- ==== Sys2Proof/Machine/Flags.lean ====
section
/-! DEFINITION.
The floating-point control register and how flags are accrued or trapped (R77 to R81, R115).
-/

namespace Sys2Proof.Machine

/-- The bits of fpctl that a write reaches: flags, TRAPEN and FRM (R78). -/
def fpctlMask : Word := 0x31F1F

/-- The dynamic rounding mode fpctl.FRM. -/
def frmOf (fpctl : Word) : Nat := (fpctl >>> 16).toNat % 4

/-- The TRAPEN bits. -/
def trapEnables (fpctl : Word) : Flags := fpctl.extractLsb' 8 5

/-- The rounding mode an RM field selects for a thread (R77). -/
def Thread.rounding (t : Thread) (r : BitVec 3) : Rm := Rm.of r.toNat (frmOf t.fpctl)

/-- Flags ORed into fpctl (R80). -/
def Thread.accrue (t : Thread) (f : Flags) : Thread := { t with fpctl := t.fpctl ||| f.setWidth 64 }

/-- accrue(flags): FPE when a raised flag is enabled, or the flags are ORed into fpctl (R80, R115). -/
def accrue (f : Flags) : Op Unit := do
  require (f &&& trapEnables (← me).fpctl == 0) .fpe (f.setWidth 64)
  modMe (·.accrue f)

/-- The flags of a comparison of integers for a branch (R147). -/
inductive Cond where
  | eq | ne | lt | ge | ltu | geu
  deriving DecidableEq, Repr

/-- When a branch is taken (R147). -/
def Cond.holds (c : Cond) (a b : Word) : Bool :=
  match c with
  | .eq => a == b
  | .ne => a != b
  | .lt => a.slt b
  | .ge => !a.slt b
  | .ltu => a.ult b
  | .geu => !a.ult b

end Sys2Proof.Machine
end

