-- ==== Sys2Proof/Machine/Control.lean ====
section
/-! DEFINITION.
Control transfer: branches, jumps, traps and the return from a trap (R147 to R151, R154, R155).
-/

namespace Sys2Proof.Machine

/-- A branch (R147). -/
def branch (c : Cond) (a b : BitVec 4) (o : BitVec 14) : Op Unit :=
  issue .scalar [a, b] do
    let t ← me
    if c.holds (t.reg a).val (t.reg b).val then jump (t.pc + halfwords o) else advance

def execBeq (a b : BitVec 4) (o : BitVec 14) (s : State) : Host.Outcome State Fault Refusal :=
  run (branch .eq a b o) s

def execBne (a b : BitVec 4) (o : BitVec 14) (s : State) : Host.Outcome State Fault Refusal :=
  run (branch .ne a b o) s

def execBlt (a b : BitVec 4) (o : BitVec 14) (s : State) : Host.Outcome State Fault Refusal :=
  run (branch .lt a b o) s

def execBge (a b : BitVec 4) (o : BitVec 14) (s : State) : Host.Outcome State Fault Refusal :=
  run (branch .ge a b o) s

def execBltu (a b : BitVec 4) (o : BitVec 14) (s : State) : Host.Outcome State Fault Refusal :=
  run (branch .ltu a b o) s

def execBgeu (a b : BitVec 4) (o : BitVec 14) (s : State) : Host.Outcome State Fault Refusal :=
  run (branch .geu a b o) s

/-- A jump by an offset counted from the jump itself (R148, R161). -/
def jumpBy (d : Word) : Op Unit := issue .scalar [] do jump ((← me).pc + d)

def execJ (o : BitVec 25) (s : State) : Host.Outcome State Fault Refusal :=
  run (jumpBy (halfwords o)) s

/-- CALL links before it jumps (R148). -/
def execCall (o : BitVec 25) (s : State) : Host.Outcome State Fault Refusal :=
  run (issue .scalar [15] do
    let pc := (← me).pc
    wr 15 (pc + 4)
    jump (pc + halfwords o)) s

/-- A jump to the address in a register: residue first, then ALIGN for an odd one (R150). -/
def jumpTo (a : BitVec 4) (link : Bool) : Op Unit := do
  let t ← rsUse a
  require (!t.getLsbD 0) .align t
  if link then wr 15 ((← me).pc + 4)
  jump t

def execJr (a : BitVec 4) (s : State) : Host.Outcome State Fault Refusal :=
  run (issue .scalar [a] (jumpTo a false)) s

def execCallr (a : BitVec 4) (s : State) : Host.Outcome State Fault Refusal :=
  run (issue .scalar [a, 15] (jumpTo a true)) s

def execRet (s : State) : Host.Outcome State Fault Refusal :=
  run (issue .scalar [15] (jumpTo 15 false)) s

/-- TRAP: the cause with its code in tval, and epc after the instruction (R154). -/
def execTrap (c : BitVec 7) (s : State) : Host.Outcome State Fault Refusal :=
  run (issue .scalar [] do
    throw (.trap .trap (zext c) (some ((← me).pc + 4)) false)) s

/-- RTE (R155, R246). -/
def execRte (s : State) : Host.Outcome State Fault Refusal :=
  run (issue .scalar [] (priv := do require (← me).trapm .priv) do
    let t ← self
    modMe Thread.leaveTrap
    modify fun s => (s.requeue t .matrix (·.handled)).requeue t .copy (·.handled)) s

end Sys2Proof.Machine
end

