-- ==== Sys2Proof/Machine/Hints.lean ====
section
/-! DEFINITION.
The hints of major 0x3F (R113, R159, R160, R297, R365) and the halfword NOP.
-/

namespace Sys2Proof.Machine

/-- NOP takes the slot and has no other effect (R113). -/
def execNop (s : State) : Host.Outcome State Fault Refusal :=
  run (issue .hint [] advance) s

/-- PAUSE counts as an event for the activity estimator (R159, R358). -/
def execPause (s : State) : Host.Outcome State Fault Refusal :=
  run (issue .hint [] do
    modify fun s => s.count s.cur 34
    advance) s

/-- n words from a word key up read ahead of a load in NC memory. -/
def State.keepAhead (s : State) (c w n : Nat) : State :=
  s.mapAhead fun x a => if x = c then (List.range n).foldl (fun a i => s.aheadAt c (w + i) true a) a else a

/-- A line prefetched for a thread (R160): where the page is translated without a walk, is present, and the line lies in no
armed region, its fill into its L2 home is asked for.  An NC line is read now: a later load of the thread's core may return
these bytes, so a free choice keeps them for it (log 12).  No L1 is filled. -/
def State.prefetch (s : State) (t : Nat) (va : Nat) : State :=
  let x := s.thread t
  let p := pagerOf t
  match (s.pager p).rootFor x.epoch, (s.pager p).look x.epoch va with
  | some _, some (h, g) =>
    let s := s.setPager p g
    match s.judge x.epoch h.leaf 0 va [.r] h.mixed with
    | .ok leaf k _ =>
      if packageOf k != s.package || !(areaOf k == .firstTier || areaOf k == .secondTier) || !s.present k || s.isArmed k 1
          || s.hostBias k || s.inTransition k || s.poisoned (k / 64 * 64) 64 || !s.confined x t (.mem leaf k false) then s
      else
        let s := s.touch t leaf k
        let s := if s.resident k then s else (s.askHome t leaf k).2
        if Leaf.cls leaf = 0 then
          let s := { s with fresh := s.fresh + 1 }
          if (Config.freeBits (s.fresh - 1)).getLsbD 0 then s.keepAhead (coreOf t) (k / 64 * 16) 16 else s
        else s
    | _ => s
  | _, _ => s

/-- PREFL (R160): window_check with right R is a test only, and what fails it does nothing. -/
def execPrefl (a : BitVec 4) (i : BitVec 16) (s : State) : Host.Outcome State Fault Refusal :=
  run (issue .hint [a] do
    let ea := (← rs a) + sext i
    match checkIn (← me).win ea 1 [.r] with
    | .ok (.virt va) => modify fun s => s.prefetch s.cur va
    | _ => pure ()
    advance) s

/-- The hint state of the issuing core; on vent cores and cluster control cores the hints act as NOP (R365). -/
def hint (h : Hint) : Op Unit :=
  issue .hint [] do
    if isCompute (← self) then modCore fun k => { k with hint := h }
    advance

def execHcomp (s : State) : Host.Outcome State Fault Refusal :=
  run (hint .comp) s

def execHmem (s : State) : Host.Outcome State Fault Refusal :=
  run (hint .mem) s

def execHwait (s : State) : Host.Outcome State Fault Refusal :=
  run (hint .wait) s

end Sys2Proof.Machine
end

