-- ==== Sys2Proof/Machine/Scalar.lean ====
section
/-! DEFINITION.
The scalar instructions of majors 0x00 to 0x03 and the moves of major 0x07: arithmetic, logic, immediates, extension
registers and selection (R135 to R146).
-/

namespace Sys2Proof.Machine

/-! ## Residues that are predicted (R137) -/

/-- A residue as the sum of numbers modulo 15. -/
def resMod (x : Nat) : BitVec 4 := BitVec.ofNat 4 (x % 15)

/-- RES of a 64-bit sum. -/
def addResidue (a b : Reg) : BitVec 4 :=
  resMod (a.res.toNat + b.res.toNat + 15 - (a.val.toNat + b.val.toNat) / 2 ^ 64)

/-- RES of a 64-bit difference. -/
def subResidue (a b : Reg) : BitVec 4 :=
  resMod (a.res.toNat + 15 - b.res.toNat + (if a.val.toNat < b.val.toNat then 1 else 0))

/-- RES of the low half of a 64-bit product. -/
def mulResidue (a b : Reg) : BitVec 4 :=
  resMod (a.res.toNat * b.res.toNat + 15 - a.val.toNat * b.val.toNat / 2 ^ 64 % 15)

/-! ## Bit counts -/

def oneBits (n a : Nat) : Nat := ((List.range n).filter a.testBit).length

def trailingZeros (n a : Nat) : Nat := ((List.range n).find? a.testBit).getD n

def leadingZeros (n a : Nat) : Nat := ((List.range n).find? fun i => a.testBit (n - 1 - i)).getD n

/-- The bytes of an n-bit number in reverse order. -/
def swapBytes (n a : Nat) : Nat := leNat ((leBytes (n / 8) a).reverse)

/-! ## The shape of major 0x00 (R141) -/

/-- Whether the n-bit result is sign- or zero-extended. -/
inductive Extend where
  | s | z
  deriving DecidableEq, Repr

def Extend.apply (x : Extend) (n t : Nat) : Word :=
  match x with
  | .s => extendS n t
  | .z => extendZ n t

/-- s_d := f of the low n bits of s_a and s_b, extended; the residue is generated. -/
def alu (d a b : BitVec 4) (z : BitVec 2) (x : Extend) (f : Nat → Nat → Nat → Nat) : Op Unit :=
  issue .scalar [d, a, b] do
    let t ← me
    let n := opBits z
    wr d (x.apply n (f n (lowBits n (t.reg a).val) (lowBits n (t.reg b).val)))
    advance

/-- As `alu`, with a residue predicted when the width is 64 bits (R137). -/
def aluPredicted (d a b : BitVec 4) (z : BitVec 2) (f : Nat → Nat → Nat → Nat) (p : Reg → Reg → BitVec 4) : Op Unit :=
  issue .scalar [d, a, b] do
    let t ← me
    let n := opBits z
    let v := extendS n (f n (lowBits n (t.reg a).val) (lowBits n (t.reg b).val))
    wrReg d (if z = 3 then ⟨v, p (t.reg a) (t.reg b)⟩ else Reg.of v)
    advance

/-- The unary minors. -/
def unary (d a : BitVec 4) (z : BitVec 2) (x : Extend) (f : Nat → Nat → Nat) : Op Unit :=
  issue .scalar [d, a] do
    let n := opBits z
    wr d (x.apply n (f n (lowBits n (← rs a))))
    advance

/-! ## Major 0x00 -/

def execAdd (d a b : BitVec 4) (z : BitVec 2) (s : State) : Host.Outcome State Fault Refusal :=
  run (aluPredicted d a b z (fun _ a b => a + b) addResidue) s

def execSub (d a b : BitVec 4) (z : BitVec 2) (s : State) : Host.Outcome State Fault Refusal :=
  run (aluPredicted d a b z (fun n a b => a + (2 ^ n - b)) subResidue) s

def execMul (d a b : BitVec 4) (z : BitVec 2) (s : State) : Host.Outcome State Fault Refusal :=
  run (aluPredicted d a b z (fun _ a b => a * b) mulResidue) s

def execMulh (d a b : BitVec 4) (z : BitVec 2) (s : State) : Host.Outcome State Fault Refusal :=
  run (alu d a b z .s fun n a b => wrapTo n (signedOf n a * signedOf n b / (2 ^ n : Nat))) s

def execMulhu (d a b : BitVec 4) (z : BitVec 2) (s : State) : Host.Outcome State Fault Refusal :=
  run (alu d a b z .z fun n a b => a * b / 2 ^ n) s

def execDiv (d a b : BitVec 4) (z : BitVec 2) (s : State) : Host.Outcome State Fault Refusal :=
  run (alu d a b z .s fun n a b => divSigned n a b) s

def execDivu (d a b : BitVec 4) (z : BitVec 2) (s : State) : Host.Outcome State Fault Refusal :=
  run (alu d a b z .z fun n a b => divUnsigned n a b) s

def execRem (d a b : BitVec 4) (z : BitVec 2) (s : State) : Host.Outcome State Fault Refusal :=
  run (alu d a b z .s fun n a b => remSigned n a b) s

def execRemu (d a b : BitVec 4) (z : BitVec 2) (s : State) : Host.Outcome State Fault Refusal :=
  run (alu d a b z .z fun _ a b => remUnsigned a b) s

def execAnd (d a b : BitVec 4) (z : BitVec 2) (s : State) : Host.Outcome State Fault Refusal :=
  run (alu d a b z .s fun _ a b => a &&& b) s

def execOr (d a b : BitVec 4) (z : BitVec 2) (s : State) : Host.Outcome State Fault Refusal :=
  run (alu d a b z .s fun _ a b => a ||| b) s

def execXor (d a b : BitVec 4) (z : BitVec 2) (s : State) : Host.Outcome State Fault Refusal :=
  run (alu d a b z .s fun _ a b => a ^^^ b) s

def execAndn (d a b : BitVec 4) (z : BitVec 2) (s : State) : Host.Outcome State Fault Refusal :=
  run (alu d a b z .s fun n a b => a &&& (2 ^ n - 1 - b)) s

def execSll (d a b : BitVec 4) (z : BitVec 2) (s : State) : Host.Outcome State Fault Refusal :=
  run (alu d a b z .s fun n a b => a <<< (b % n)) s

def execSrl (d a b : BitVec 4) (z : BitVec 2) (s : State) : Host.Outcome State Fault Refusal :=
  run (alu d a b z .z fun n a b => a >>> (b % n)) s

def execSra (d a b : BitVec 4) (z : BitVec 2) (s : State) : Host.Outcome State Fault Refusal :=
  run (alu d a b z .s fun n a b => wrapTo n (signedOf n a >>> (b % n))) s

def execRol (d a b : BitVec 4) (z : BitVec 2) (s : State) : Host.Outcome State Fault Refusal :=
  run (alu d a b z .s fun n a b => a <<< (b % n) ||| a >>> ((n - b % n) % n)) s

def execRor (d a b : BitVec 4) (z : BitVec 2) (s : State) : Host.Outcome State Fault Refusal :=
  run (alu d a b z .s fun n a b => a >>> (b % n) ||| a <<< ((n - b % n) % n)) s

def execMin (d a b : BitVec 4) (z : BitVec 2) (s : State) : Host.Outcome State Fault Refusal :=
  run (alu d a b z .s fun n a b => if signedOf n a ≤ signedOf n b then a else b) s

def execMinu (d a b : BitVec 4) (z : BitVec 2) (s : State) : Host.Outcome State Fault Refusal :=
  run (alu d a b z .z fun _ a b => Nat.min a b) s

def execMax (d a b : BitVec 4) (z : BitVec 2) (s : State) : Host.Outcome State Fault Refusal :=
  run (alu d a b z .s fun n a b => if signedOf n a ≤ signedOf n b then b else a) s

def execMaxu (d a b : BitVec 4) (z : BitVec 2) (s : State) : Host.Outcome State Fault Refusal :=
  run (alu d a b z .z fun _ a b => Nat.max a b) s

def execAdds (d a b : BitVec 4) (z : BitVec 2) (s : State) : Host.Outcome State Fault Refusal :=
  run (alu d a b z .s fun n a b => wrapTo n (clampSigned n (signedOf n a + signedOf n b))) s

def execSubs (d a b : BitVec 4) (z : BitVec 2) (s : State) : Host.Outcome State Fault Refusal :=
  run (alu d a b z .s fun n a b => wrapTo n (clampSigned n (signedOf n a - signedOf n b))) s

def execAddsu (d a b : BitVec 4) (z : BitVec 2) (s : State) : Host.Outcome State Fault Refusal :=
  run (alu d a b z .z fun n a b => wrapTo n (clampUnsigned n ((a : Int) + b))) s

def execSubsu (d a b : BitVec 4) (z : BitVec 2) (s : State) : Host.Outcome State Fault Refusal :=
  run (alu d a b z .z fun n a b => wrapTo n (clampUnsigned n ((a : Int) - b))) s

def execSlt (d a b : BitVec 4) (z : BitVec 2) (s : State) : Host.Outcome State Fault Refusal :=
  run (alu d a b z .z fun n a b => if signedOf n a < signedOf n b then 1 else 0) s

def execSltu (d a b : BitVec 4) (z : BitVec 2) (s : State) : Host.Outcome State Fault Refusal :=
  run (alu d a b z .z fun _ a b => if a < b then 1 else 0) s

def execSeq (d a b : BitVec 4) (z : BitVec 2) (s : State) : Host.Outcome State Fault Refusal :=
  run (alu d a b z .z fun _ a b => if a = b then 1 else 0) s

def execClz (d a : BitVec 4) (z : BitVec 2) (s : State) : Host.Outcome State Fault Refusal :=
  run (unary d a z .z fun n a => leadingZeros n a) s

def execCtz (d a : BitVec 4) (z : BitVec 2) (s : State) : Host.Outcome State Fault Refusal :=
  run (unary d a z .z fun n a => trailingZeros n a) s

def execPopc (d a : BitVec 4) (z : BitVec 2) (s : State) : Host.Outcome State Fault Refusal :=
  run (unary d a z .z fun n a => oneBits n a) s

def execSext (d a : BitVec 4) (z : BitVec 2) (s : State) : Host.Outcome State Fault Refusal :=
  run (unary d a z .s fun _ a => a) s

def execZext (d a : BitVec 4) (z : BitVec 2) (s : State) : Host.Outcome State Fault Refusal :=
  run (unary d a z .z fun _ a => a) s

def execBswap (d a : BitVec 4) (z : BitVec 2) (s : State) : Host.Outcome State Fault Refusal :=
  run (unary d a z .z fun n a => swapBytes n a) s

/-- MOV copies the value and its residue (R137, R142). -/
def execMov (d a : BitVec 4) (s : State) : Host.Outcome State Fault Refusal :=
  run (issue .scalar [d, a] do
    wrReg d ((← me).reg a)
    advance) s

/-! ## Immediates and upper constants (R143 to R145) -/

/-- s_d := f of s_a, with a generated residue; n is the instruction's length. -/
def immediate (d a : BitVec 4) (f : Word → Word) (n : Nat := 4) : Op Unit :=
  issue .scalar [d, a] do
    wr d (f (← rs a))
    advance n

/-- ADDI: the residue is predicted from res(imm) (R137). -/
def addImmediate (d a : BitVec 4) (imm : Word) (n : Nat := 4) : Op Unit :=
  issue .scalar [d, a] do
    let x := (← me).reg a
    wrReg d ⟨x.val + imm, addResidue x (Reg.of imm)⟩
    advance n

/-- s_d := imm. -/
def loadImmediate (d : BitVec 4) (imm : Word) (n : Nat := 4) : Op Unit :=
  issue .scalar [d] do
    wr d imm
    advance n

def execAddi (d a : BitVec 4) (i : BitVec 13) (s : State) : Host.Outcome State Fault Refusal :=
  run (addImmediate d a (sext i)) s

def execAndi (d a : BitVec 4) (i : BitVec 13) (s : State) : Host.Outcome State Fault Refusal :=
  run (immediate d a fun x => x &&& sext i) s

def execOri (d a : BitVec 4) (i : BitVec 13) (s : State) : Host.Outcome State Fault Refusal :=
  run (immediate d a fun x => x ||| sext i) s

def execXori (d a : BitVec 4) (i : BitVec 13) (s : State) : Host.Outcome State Fault Refusal :=
  run (immediate d a fun x => x ^^^ sext i) s

def execSlli (d a : BitVec 4) (h : BitVec 6) (s : State) : Host.Outcome State Fault Refusal :=
  run (immediate d a fun x => x <<< h.toNat) s

def execSrli (d a : BitVec 4) (h : BitVec 6) (s : State) : Host.Outcome State Fault Refusal :=
  run (immediate d a fun x => x >>> h.toNat) s

def execSrai (d a : BitVec 4) (h : BitVec 6) (s : State) : Host.Outcome State Fault Refusal :=
  run (immediate d a fun x => x.sshiftRight h.toNat) s

def execSlti (d a : BitVec 4) (i : BitVec 13) (s : State) : Host.Outcome State Fault Refusal :=
  run (immediate d a fun x => if x.slt (sext i) then 1 else 0) s

def execSltiu (d a : BitVec 4) (i : BitVec 13) (s : State) : Host.Outcome State Fault Refusal :=
  run (immediate d a fun x => if x.ult (sext i) then 1 else 0) s

/-- MULI: the residue is predicted (R137). -/
def execMuli (d a : BitVec 4) (i : BitVec 13) (s : State) : Host.Outcome State Fault Refusal :=
  run (issue .scalar [d, a] do
    let x := (← me).reg a
    wrReg d ⟨x.val * sext i, mulResidue x (Reg.of (sext i))⟩
    advance) s

def execLi (d : BitVec 4) (i : BitVec 13) (s : State) : Host.Outcome State Fault Refusal :=
  run (loadImmediate d (sext i)) s

def execLih (d : BitVec 4) (i : BitVec 19) (s : State) : Host.Outcome State Fault Refusal :=
  run (loadImmediate d (sext i <<< 13)) s

/-- ADPC adds to the address of the ADPC itself (R144). -/
def execAdpc (d : BitVec 4) (i : BitVec 19) (s : State) : Host.Outcome State Fault Refusal :=
  run (issue .scalar [d] do
    wr d ((← me).pc + sext i <<< 13)
    advance) s

/-- Sixteen bits of a word replaced at halfword p, or the word made of them alone (R145). -/
def extImmediate (old : Word) (p : BitVec 2) (keep : Bool) (i : BitVec 16) : Word :=
  let sh := 16 * p.toNat
  if keep then (old &&& ~~~((0xFFFF : Word) <<< sh)) ||| zext i <<< sh else zext i <<< sh

def execExti (e : BitVec 3) (p : BitVec 2) (k : BitVec 1) (i : BitVec 16) (s : State) : Host.Outcome State Fault Refusal :=
  run (issue .scalar [] do
    writeExt e (Reg.of (extImmediate ((← me).extReg e).val p (k == 1) i))
    advance) s

/-! ## Extension registers and selection (R146) -/

/-- EXT copies the residue (R137). -/
def execExt (n : BitVec 3) (a : BitVec 4) (s : State) : Host.Outcome State Fault Refusal :=
  run (issue .scalar [a] do
    writeExt n ((← me).reg a)
    advance) s

def execMfe (d : BitVec 4) (n : BitVec 3) (s : State) : Host.Outcome State Fault Refusal :=
  run (issue .scalar [d] do
    wrReg d ((← me).extReg n)
    advance) s

/-- CSEL: s_d is both the condition and the destination, and the residue is copied. -/
def execCsel (d a b : BitVec 4) (s : State) : Host.Outcome State Fault Refusal :=
  run (issue .scalar [d, a, b] do
    let t ← me
    wrReg d (if (t.reg d).val ≠ 0 then t.reg a else t.reg b)
    advance) s

end Sys2Proof.Machine
end

