-- ==== Sys2Proof/Machine/Compact.lean ====
section
/-! DEFINITION.
The 16-bit instructions (R110, R161): the effect of their 32-bit equivalents at SZ = 3, counted at their own length.
-/

namespace Sys2Proof.Machine

/-- The 64-bit ALU instruction d := f d a, two bytes long. -/
def compact (d a : BitVec 4) (f : Word → Word → Word) (p : Option (Reg → Reg → BitVec 4)) : Op Unit :=
  issue .scalar [d, a] do
    let t ← me
    let v := f (t.reg d).val (t.reg a).val
    wrReg d (match p with
      | some g => ⟨v, g (t.reg d) (t.reg a)⟩
      | none => Reg.of v)
    advance 2

def execMov16 (d a : BitVec 4) (s : State) : Host.Outcome State Fault Refusal :=
  run (issue .scalar [d, a] do
    wrReg d ((← me).reg a)
    advance 2) s

def execAdd16 (d a : BitVec 4) (s : State) : Host.Outcome State Fault Refusal :=
  run (compact d a (fun x y => x + y) (some addResidue)) s

def execSub16 (d a : BitVec 4) (s : State) : Host.Outcome State Fault Refusal :=
  run (compact d a (fun x y => x - y) (some subResidue)) s

def execAnd16 (d a : BitVec 4) (s : State) : Host.Outcome State Fault Refusal :=
  run (compact d a (fun x y => x &&& y) none) s

def execOr16 (d a : BitVec 4) (s : State) : Host.Outcome State Fault Refusal :=
  run (compact d a (fun x y => x ||| y) none) s

def execXor16 (d a : BitVec 4) (s : State) : Host.Outcome State Fault Refusal :=
  run (compact d a (fun x y => x ^^^ y) none) s

def execAddi16 (d : BitVec 4) (i : BitVec 6) (s : State) : Host.Outcome State Fault Refusal :=
  run (addImmediate d d (sext i) 2) s

def execLi16 (d : BitVec 4) (i : BitVec 6) (s : State) : Host.Outcome State Fault Refusal :=
  run (loadImmediate d (sext i) 2) s

def execSlli16 (d : BitVec 4) (h : BitVec 6) (s : State) : Host.Outcome State Fault Refusal :=
  run (immediate d d (fun x => x <<< h.toNat) 2) s

def execSrli16 (d : BitVec 4) (h : BitVec 6) (s : State) : Host.Outcome State Fault Refusal :=
  run (immediate d d (fun x => x >>> h.toNat) 2) s

def execSrai16 (d : BitVec 4) (h : BitVec 6) (s : State) : Host.Outcome State Fault Refusal :=
  run (immediate d d (fun x => x.sshiftRight h.toNat) 2) s

/-- The address of LDD and STD on the stack: w1, s14, and DISP11 = UIMM6 (R110). -/
def stackAddress (u : BitVec 6) : Op Word := addressMD 1 14 (u.setWidth 11) 8

def execLdd16 (d : BitVec 4) (u : BitVec 6) (s : State) : Host.Outcome State Fault Refusal :=
  run (load d [14] (stackAddress u) 8 false 2) s

def execStd16 (d : BitVec 4) (u : BitVec 6) (s : State) : Host.Outcome State Fault Refusal :=
  run (store d [14] (stackAddress u) 8 2) s

def execJ16 (o : BitVec 10) (s : State) : Host.Outcome State Fault Refusal :=
  run (jumpBy (halfwords o)) s

def execRet16 (s : State) : Host.Outcome State Fault Refusal :=
  run (issue .scalar [15] (jumpTo 15 false)) s

def execNop16 (s : State) : Host.Outcome State Fault Refusal :=
  run (issue .hint [] (advance 2)) s

end Sys2Proof.Machine
end

