-- ==== Sys2Proof/Machine/Fetch.lean ====
section
/-! DEFINITION.
Fetching an instruction at the pc of the current thread (R69, R107, R114): each halfword is checked with right X; a
virtual address inside the 32 KiB that the core's instruction store was loaded for is read there, any other at its home;
an on-chip window with right X is read as the block it leads to (log 5).
-/

namespace Sys2Proof.Machine

/-- Size of an instruction store in bytes (R23). -/
def istoreSize : Nat := 0x8000

/-- A virtual address lies in the range that the core's instruction store was loaded for (R69, log 5). -/
def Core.stores (k : Core) (va : Nat) : Bool := decide (k.ibase.toNat ≤ va) && decide (va < k.ibase.toNat + istoreSize)

/-- The bytes of a halfword in an instruction store. -/
def Core.storedHalf (k : Core) (va : Nat) : Nat := leNat (k.istore.readN (va - k.ibase.toNat) 2)

/-- The halfword at a code address, fetched with right X (R107): from the instruction store, through translation as a read
at its home (R94, R302, R322, R327, R353), or from an on-chip block that the thread may read (R23, R24, R349, R380). -/
def fetchHalf (a : Word) : Op Nat := do
  match ← windowCheck a 2 [.x] with
  | .virt va =>
    let k ← myCore
    if k.stores va then return k.storedHalf va
    else
      let (leaf, key, mixed) ← translateOp a va [.x]
      let s ← get
      if !s.present key then trap .physAbsent a
      modify fun s => s.touch s.cur leaf key
      if areaOf key == .view then return leNat (← viewRead a key 2)
      homeWaits leaf key 2 false
      if (← get).poisoned key 2 then trap .poison a
      breaching key 2 do
        let s ← get
        let (bs, s') := (if packageOf key != s.package then s.recallLeases key 2 else s).readHome ((s.thread s.cur).agent s.cur) key 2
        set s'
        return leNat (← if mixed then freeBytes 2 else pure bs)
  | .chip x =>
    let s ← get
    match chipBlock x with
    | some g =>
      match g.unit with
      | some u => if (s.core u).killed then trap .poison a
      | none => pure ()
      require (g.readableBy s s.cur) .window a
      return leNat (← readTarget a 2 g)
    | none => trap .window a

/-- The instruction at pc; a word that decodes to none traps with ILLEGAL (R107, R112, R114). -/
def fetch : Op Instr := do
  let pc := (← me).pc
  let h ← fetchHalf pc
  let w ← if h < 2 ^ 15 then pure h else do
    let l ← fetchHalf (pc + 2)
    pure (h * 2 ^ 16 + l)
  match decodeWord (decide (2 ^ 15 ≤ h)) w with
  | .ok i => return i
  | .error _ => trap .illegal

end Sys2Proof.Machine
end

