-- ==== Sys2Proof/Machine/Stream.lean ====
section
/-! DEFINITION.
Stream pattern records: their fields, the check of STRM, and the address of each element (R105, R106).
-/

namespace Sys2Proof.Machine

/-- A 64-byte stream pattern record (R105). -/
abbrev Pattern := BitVec 512

namespace Pattern

/-- Dword n of a record. -/
def dword (q : Pattern) (n : Nat) : Word := q.extractLsb' (64 * n) 64

def base (q : Pattern) : Word := q.dword 0
def esize (q : Pattern) : Nat := (q.dword 1).toNat % 8
def ndim (q : Pattern) : Nat := (q.dword 1 >>> 4).toNat % 4
def indEn (q : Pattern) : Bool := (q.dword 1).getLsbD 6
def indSigned (q : Pattern) : Bool := (q.dword 1).getLsbD 7
def indDim (q : Pattern) : Nat := (q.dword 1 >>> 8).toNat % 4
def indBytes (q : Pattern) : Nat := 2 ^ ((q.dword 1 >>> 10).toNat % 4)
def indBase (q : Pattern) : Word := q.dword 6

/-- Element bytes. -/
def bytes (q : Pattern) : Nat := 2 ^ q.esize

/-- C_d: the count of a dimension in use, 1 of another. -/
def count (q : Pattern) (d : Nat) : Nat := if d ≤ q.ndim then (q.extractLsb' (128 + 32 * d) 32).toNat else 1

/-- The stride of a dimension as a signed number of bytes. -/
def stride (q : Pattern) (d : Nat) : Word := (q.extractLsb' (256 + 32 * d) 32).signExtend 64

/-- The number of elements. -/
def elements (q : Pattern) : Nat := q.count 0 * q.count 1 * q.count 2 * q.count 3

/-- The check of STRM (R106). -/
def acceptable (q : Pattern) : Bool :=
  !(q.dword 1).getLsbD 3 && decide ((q.dword 1).toNat / 2 ^ 12 = 0) && q.dword 7 == 0 && q.esize != 7
    && (!q.indEn || decide (q.indDim ≤ q.ndim)) && decide (q.elements ≤ 2 ^ 32 - 1)

/-- Index i_d of element n. -/
def index (q : Pattern) (n d : Nat) : Nat :=
  match d with
  | 0 => n % q.count 0
  | 1 => n / q.count 0 % q.count 1
  | 2 => n / (q.count 0 * q.count 1) % q.count 2
  | _ => n / (q.count 0 * q.count 1 * q.count 2) % q.count 3

/-- Address of the index that element n reads, where the indirect level is enabled. -/
def indexAddress (q : Pattern) (n : Nat) : Option Word :=
  if q.indEn then some (q.indBase + BitVec.ofNat 64 (q.index n q.indDim * q.indBytes)) else none

/-- The index read, extended (R106). -/
def extendIndex (q : Pattern) (x : Nat) : Word :=
  if q.indSigned then extendS (8 * q.indBytes) x else extendZ (8 * q.indBytes) x

/-- j_d of element n, given the index read. -/
def place (q : Pattern) (n : Nat) (x : Option Word) (d : Nat) : Word :=
  match x with
  | some x => if d = q.indDim then x else BitVec.ofNat 64 (q.index n d)
  | none => BitVec.ofNat 64 (q.index n d)

/-- Address of element n, given the index read. -/
def address (q : Pattern) (n : Nat) (x : Option Word) : Word :=
  q.base + q.place n x 0 * q.stride 0 + q.place n x 1 * q.stride 1 + q.place n x 2 * q.stride 2 + q.place n x 3 * q.stride 3

end Pattern

/-- Address of element n of a pattern, its index read as the thread's own access. -/
def elementAddress (q : Pattern) (n : Nat) : Op Word := do
  match q.indexAddress n with
  | none => return q.address n none
  | some a => return q.address n (some (q.extendIndex (← readMem a q.indBytes)))

end Sys2Proof.Machine
end

