-- ==== Sys2Proof/Machine/Vector.lean ====
section
/-! DEFINITION.
Vector instructions, majors 0x20 to 0x26, and the tile unit that accepts them (R219 to R239).
-/

namespace Sys2Proof.Machine

/-! ## Lanes (R219) -/

/-- Lane width of a lane type code. -/
def laneBits (t : BitVec 4) : Nat :=
  match t.toNat with
  | 0 => 8 | 4 => 8 | 12 => 8
  | 1 => 16 | 5 => 16 | 8 => 16 | 9 => 16
  | 2 => 32 | 6 => 32 | 10 => 32
  | _ => 64

/-- Codes 8 and above are floating. -/
def isFloatType (t : BitVec 4) : Bool := decide (8 ≤ t.toNat)

/-- Integer codes 0 to 3 are signed. -/
def isSignedType (t : BitVec 4) : Bool := decide (t.toNat < 4)

/-- The format of a floating code; code 12 takes the variant given. -/
def laneFmt (t : BitVec 4) (b8d : BitVec 5) : Fmt :=
  match t.toNat with
  | 8 => .f16
  | 9 => .bf16
  | 10 => .f32
  | 11 => .f64
  | _ => Fmt.ofB8D b8d

/-- Lane i of a vector register. -/
def laneOf (w : Nat) (v : VecReg) (i : Nat) : Nat := v.toNat / 2 ^ (w * i) % 2 ^ w

/-- A vector register from its lanes. -/
def ofLanes (w : Nat) : List Nat → Nat
  | [] => 0
  | x :: t => x % 2 ^ w + 2 ^ w * ofLanes w t

/-- The number of lanes. -/
def laneCount (w : Nat) : Nat := 1024 / w

/-! ## Registers with uncorrectable errors (R353) -/

/-- A value that the spec leaves open, as a word (log 11). -/
def freeWord : Op Word := do return (← freeBlock).setWidth 64

/-- No dword of a v or k register that is read is poisoned; what tval then holds is not stated (log 11).  One under self-test is
waited for (R354). -/
def checkPoison (bad : Place → Bool) : Op Unit := do
  if (← get).underTest bad then waitFor .memory
  if (← get).poison.any bad then trapKeeping .poison (← freeWord)

/-- A metadata register waits for the MCMP that will write it (R254). -/
def awaitMeta (n : BitVec 3) : Op Unit := do
  let s ← get
  let busy := (s.core (coreOf s.cur)).matrix.all.any fun c => c.thread == s.cur && match c.op with
    | .mcmp _ _ _ _ _ _ m => m == n
    | _ => false
  if busy then waitFor .engine

/-- A vector register of which the first dwords are read. -/
def readVecPart (n : BitVec 3) (dwords : Nat) : Op VecReg := do
  let id ← self
  awaitMeta n
  checkPoison fun p => match p with
    | .vec t m d => t == id && m == n.toNat && decide (d < dwords)
    | _ => false
  return (← me).vecReg n

def readVec (n : BitVec 3) : Op VecReg := readVecPart n 16

def readMask (n : BitVec 3) : Op MaskReg := do
  let id ← self
  checkPoison fun p => match p with
    | .msk t m _ => t == id && m == n.toNat
    | _ => false
  return (← me).maskReg n

/-- A whole vector register written; the dwords listed have been written whole. -/
def writeVec (n : BitVec 3) (x : VecReg) (whole : List Nat) : Op Unit := do
  awaitMeta n
  modMe (·.setVec n x)
  modify fun s => { s with poison := s.poison.filter fun p => match p with
    | .vec t m d => !(t == s.cur && m == n.toNat && whole.contains d)
    | _ => true }

/-- A whole mask register written. -/
def writeMask (n : BitVec 3) (x : MaskReg) : Op Unit := do
  modMe (·.setMask n x)
  modify fun s => { s with poison := s.poison.filter fun p => match p with
    | .msk t m _ => !(t == s.cur && m == n.toNat)
    | _ => true }

/-! ## The vector unit (R222, R223, R37) -/

/-- The event that the acceptance of an instruction counts as, by its lane width (R358). -/
def vectorEvent (w : Nat) : Nat := if w ≤ 16 then 1 else if w = 32 then 2 else 3

/-- The instruction is presented.  The tile unit accepts it at once when nothing waits; otherwise the thread waits for the
unit, and an instruction for the iterative pipe waits until that pipe has finished it.  A vent core's datapath takes one
instruction at a time, and the thread waits until its own has completed (R37). -/
def present (iterative : Bool) (w : Nat) : Op Unit := do
  let s ← get
  let id := s.cur
  let t ← me
  if isVent id then
    if !t.finished then
      let k := s.core (coreOf id)
      if k.datapath.isSome || (iterative && k.pipe.isSome) then waitFor .vector
      set ((s.setCore (coreOf id) { k with datapath := some id, pipe := if iterative then some id else k.pipe }).post
        [.vectorComplete id])
      modMe fun t => { t with taken := true }
      waitKeeping .vector
  else if t.finished || (t.taken && !iterative) then pure ()
  else
    let k := s.tile (tileOf id)
    if k.queue.isEmpty && !iterative then
      set ((s.setTile (tileOf id) { k with pointer := (coreInTile id + 1) % 4 }).count id (vectorEvent w))
      modMe fun t => { t with taken := true }
    else
      let queue := k.queue.filter (fun q => q.1 != id) ++ [(id, iterative, vectorEvent w)]
      set ((s.setTile (tileOf id) { k with queue := queue }).post [.vectorAccept (tileOf id)])
      waitKeeping .vector

/-- A queued thread still waits to be accepted. -/
def State.presents (s : State) (t : Nat) : Bool := (s.thread t).status == .wait .vector && !(s.thread t).taken

/-- The instruction of a queued thread accepted (R222): a fixed-latency one completes, an iterative one takes the pipe. -/
def State.acceptOne (s : State) (k : Nat) (q : Nat × Bool × Nat) : State :=
  let x := s.thread q.1
  let u := s.tile k
  let u := { u with
    queue := u.queue.filter (· != q)
    pointer := (coreInTile q.1 + 1) % 4
    pipe := if q.2.1 then some q.1 else u.pipe }
  let s := (s.setTile k u).count q.1 q.2.2
  let s := s.setThread q.1 { x with taken := true, status := if q.2.1 then x.status else .ready }
  if q.2.1 then s.post [.vectorComplete q.1] else s

/-- The cores from p on, each offering the instruction in its input position, until n are accepted. -/
def State.acceptFrom (s : State) (k : Nat) : Nat → List Nat → State
  | 0, _ => s
  | _, [] => s
  | n + 1, c :: cs =>
    match (s.tile k).queue.find? fun q => coreInTile q.1 == c with
    | some q => if !q.2.1 || (s.tile k).pipe.isNone then State.acceptFrom (s.acceptOne k q) k n cs else State.acceptFrom s k (n + 1) cs
    | none => State.acceptFrom s k (n + 1) cs

/-- One cycle of the tile unit (R222). -/
def State.vectorAccept (s : State) (k : Nat) : State :=
  let u := s.tile k
  let s := s.setTile k { u with queue := u.queue.filter fun q => s.presents q.1 }
  let before := (s.tile k).queue.length
  let p := (s.tile k).pointer
  let s := s.acceptFrom k 2 [p % 4, (p + 1) % 4, (p + 2) % 4, (p + 3) % 4]
  let after := (s.tile k).queue.length
  if after < before && 0 < after then s.post [.vectorAccept k] else s

def execVectorAccept (tile : Nat) (s : State) : Host.Outcome State Fault Refusal := happen (·.vectorAccept tile) s

/-- The vector instruction that a thread waits for has completed (R223). -/
def State.vectorOver (s : State) (t : Nat) : State :=
  let x := s.thread t
  if x.status = .wait .vector ∧ x.taken then s.setThread t { x with finished := true, status := .ready } else s

/-- An instruction leaves a vent core's datapath after its 4 cycles, or the iterative pipe after its whole latency, and whoever
waits for either is looked at; an iterative instruction leaves the datapath first (R37). -/
def State.ventVectorComplete (s : State) (t : Nat) : State :=
  let k := s.core (coreOf t)
  let s := if k.datapath = some t then
      let s := s.setCore (coreOf t) { k with datapath := none }
      if k.pipe = some t then s.post [.vectorComplete t] else s.vectorOver t
    else if k.pipe = some t then (s.setCore (coreOf t) { k with pipe := none }).vectorOver t
    else s
  s.wake fun u w => coreOf u == coreOf t && w == .vector && !(s.thread u).taken

/-- An instruction leaves a pipe: its thread is READY, and whoever waits for the pipe is looked at (R37, R223). -/
def State.vectorComplete (s : State) (t : Nat) : State :=
  if isVent t then s.ventVectorComplete t
  else
    let s := s.vectorOver t
    let u := s.tile (tileOf t)
    if u.pipe = some t then
      let s := s.setTile (tileOf t) { u with pipe := none }
      if u.queue.isEmpty then s else s.post [.vectorAccept (tileOf t)]
    else s

def execVectorComplete (t : Nat) (s : State) : Host.Outcome State Fault Refusal := happen (·.vectorComplete t) s

/-! ## Checks of the fields (R219, R221, R225) -/

/-- Which lane types an instruction takes. -/
inductive LaneUse where
  | int | float | both | width
  deriving DecidableEq, Repr

/-- B8D of vector lanes, and of a VCVT's target (R219, R229). -/
def b8dOf (e0 : Word) : BitVec 5 := e0.setWidth 5
def b8dTarget (e0 : Word) : BitVec 5 := (e0 >>> 8).setWidth 5

/-- Every reserved or unused value traps with ILLEGAL. -/
def laneCheck (u : LaneUse) (t : BitVec 4) (r : BitVec 3 := 0) : Op Unit := do
  require (vtOk t && rmOk r) .illegal
  match u with
  | .width => pure ()
  | .int => require (!isFloatType t) .illegal
  | .float => require (isFloatType t) .illegal
  | .both => pure ()
  if u != .width then
    if isFloatType t then require (t != 12 || b8dOk (b8dOf (← me).ext[0].val)) .illegal
    else require (r == 0) .illegal

/-- The frame of every instruction of majors 0x20 to 0x25. -/
def vectorOp (check : Op Unit) (iterative : Bool) (w : Nat) (body : Op Unit) : Op Unit :=
  issue .vector [] (do
    present iterative w
    body
    advance) check

/-! ## Writing lanes (R220) -/

/-- The dwords of which every lane is written. -/
def wholeDwords (w : Nat) (written : Nat → Bool) : List Nat :=
  (List.range 16).filter fun d => (List.range (64 / w)).all fun j => written (d * (64 / w) + j)

/-- The lanes of vd after a lane-wise instruction: active ones from a list of results, the others by ZM. -/
def mergeLanes (w : Nat) (old : VecReg) (k : MaskReg) (z : BitVec 1) (r : List Nat) : Nat :=
  ofLanes w ((List.range (laneCount w)).map fun i =>
    if k.getLsbD i then r.getD i 0 else if z = 1 then 0 else laneOf w old i)

/-- Flags of the active lanes (R79). -/
def maskedFlags (k : MaskReg) (fs : List Flags) : Flags :=
  (List.range fs.length).foldl (fun a i => if k.getLsbD i then a ||| fs.getD i 0 else a) 0

/-- vd written from the results of all lanes, flags accrued first (R220). -/
def writeLanes (w : Nat) (d k : BitVec 3) (z : BitVec 1) (r : List (Nat × Flags)) : Op Unit := do
  let m ← readMask k
  accrue (maskedFlags m (r.map (·.2)))
  let old := (← me).vecReg d
  writeVec d (BitVec.ofNat 1024 (mergeLanes w old m z (r.map (·.1)))) (wholeDwords w fun i => z == 1 || m.getLsbD i)

/-- A lane function of a and b. -/
def lanewise2 (w : Nat) (d a b k : BitVec 3) (z : BitVec 1) (f : Nat → Nat → Nat × Flags) : Op Unit := do
  let x ← readVec a
  let y ← readVec b
  writeLanes w d k z ((List.range (laneCount w)).map fun i => f (laneOf w x i) (laneOf w y i))

/-- A lane function of a. -/
def lanewise1 (w : Nat) (d a k : BitVec 3) (z : BitVec 1) (f : Nat → Nat × Flags) : Op Unit := do
  let x ← readVec a
  writeLanes w d k z ((List.range (laneCount w)).map fun i => f (laneOf w x i))

/-- A lane function of a, b and d. -/
def lanewise3 (w : Nat) (d a b k : BitVec 3) (z : BitVec 1) (f : Nat → Nat → Nat → Nat × Flags) : Op Unit := do
  let x ← readVec a
  let y ← readVec b
  let v ← readVec d
  writeLanes w d k z ((List.range (laneCount w)).map fun i => f (laneOf w x i) (laneOf w y i) (laneOf w v i))

/-- The format and the rounding mode of a floating lane instruction. -/
def floatLanes (t : BitVec 4) (r : BitVec 3) : Op (Fmt × Rm) := do
  let x ← me
  return (laneFmt t (b8dOf x.ext[0].val), x.rounding r)

/-! ## Lane functions of major 0x20 (R225, R226) -/

/-- The number an integer lane holds, by the signedness of VT. -/
def laneInt (t : BitVec 4) (x : Nat) : Int := if isSignedType t then signedOf (laneBits t) x else x

def plain (x : Nat) : Nat × Flags := (x, 0)

/-- A binary operation with an integer and a floating form. -/
def arith2 (t : BitVec 4) (f : Fmt) (int : Int → Int → Int) (flt : Num → Num → Nat × Flags) (x y : Nat) : Nat × Flags :=
  if isFloatType t then flt (f.decode x) (f.decode y) else plain (wrapTo (laneBits t) (int (laneInt t x) (laneInt t y)))

/-- The smaller or larger of two floating lanes (R226). -/
def Fmt.least (f : Fmt) (x y : Nat) : Nat × Flags :=
  let a := f.decode x
  let b := f.decode y
  let fl := snanFlag [a, b]
  if a.isNan || b.isNan then (f.nanCode, fl)
  else if a.lt b then (x, 0)
  else if b.lt a then (y, 0)
  else if a.neg then (x, 0) else (y, 0)

def Fmt.greatest (f : Fmt) (x y : Nat) : Nat × Flags :=
  let a := f.decode x
  let b := f.decode y
  let fl := snanFlag [a, b]
  if a.isNan || b.isNan then (f.nanCode, fl)
  else if a.lt b then (y, 0)
  else if b.lt a then (x, 0)
  else if a.neg then (y, 0) else (x, 0)

def laneMin (t : BitVec 4) (f : Fmt) (x y : Nat) : Nat × Flags :=
  if isFloatType t then f.least x y else plain (if laneInt t y < laneInt t x then y else x)

def laneMax (t : BitVec 4) (f : Fmt) (x y : Nat) : Nat × Flags :=
  if isFloatType t then f.greatest x y else plain (if laneInt t x < laneInt t y then y else x)

/-- VABS of a floating lane. -/
def Fmt.absolute (f : Fmt) (x : Nat) : Nat × Flags :=
  let a := f.decode x
  if a.isNan then (f.nanCode, snanFlag [a])
  else if f.hasNeg then plain (x % 2 ^ (f.width - 1)) else plain x

/-- VNEG of a floating lane. -/
def Fmt.negative (f : Fmt) (x : Nat) : Nat × Flags :=
  let a := f.decode x
  if a.isNan then (f.nanCode, snanFlag [a]) else f.round .rne false a.negate

/-- A shift amount: b AND (w − 1). -/
def laneShift (t : BitVec 4) (y : Nat) : Nat := y % laneBits t

/-- Clamped to the range of VT (R70). -/
def laneClamp (t : BitVec 4) (x : Int) : Nat :=
  wrapTo (laneBits t) (if isSignedType t then clampSigned (laneBits t) x else clampUnsigned (laneBits t) x)

def execVadd (d a b k : BitVec 3) (z : BitVec 1) (t : BitVec 4) (r : BitVec 3) (s : State) : Host.Outcome State Fault Refusal :=
  run (vectorOp (laneCheck .both t r) false (laneBits t) do
    let (f, m) ← floatLanes t r
    lanewise2 (laneBits t) d a b k z (arith2 t f (· + ·) (f.add m))) s

def execVsub (d a b k : BitVec 3) (z : BitVec 1) (t : BitVec 4) (r : BitVec 3) (s : State) : Host.Outcome State Fault Refusal :=
  run (vectorOp (laneCheck .both t r) false (laneBits t) do
    let (f, m) ← floatLanes t r
    lanewise2 (laneBits t) d a b k z (arith2 t f (· - ·) (f.sub m))) s

def execVmul (d a b k : BitVec 3) (z : BitVec 1) (t : BitVec 4) (r : BitVec 3) (s : State) : Host.Outcome State Fault Refusal :=
  run (vectorOp (laneCheck .both t r) false (laneBits t) do
    let (f, m) ← floatLanes t r
    lanewise2 (laneBits t) d a b k z (arith2 t f (· * ·) (f.mul m))) s

def execVmulh (d a b k : BitVec 3) (z : BitVec 1) (t : BitVec 4) (s : State) : Host.Outcome State Fault Refusal :=
  run (vectorOp (laneCheck .int t) false (laneBits t) do
    lanewise2 (laneBits t) d a b k z fun x y =>
      plain (wrapTo (laneBits t) (laneInt t x * laneInt t y / (2 ^ laneBits t : Nat)))) s

def execVdiv (d a b k : BitVec 3) (z : BitVec 1) (t : BitVec 4) (r : BitVec 3) (s : State) : Host.Outcome State Fault Refusal :=
  run (vectorOp (laneCheck .both t r) true (laneBits t) do
    let (f, m) ← floatLanes t r
    lanewise2 (laneBits t) d a b k z fun x y =>
      if isFloatType t then f.div m (f.decode x) (f.decode y)
      else plain (if isSignedType t then divSigned (laneBits t) x y else divUnsigned (laneBits t) x y)) s

def execVsqrt (d a k : BitVec 3) (z : BitVec 1) (t : BitVec 4) (r : BitVec 3) (s : State) : Host.Outcome State Fault Refusal :=
  run (vectorOp (laneCheck .float t r) true (laneBits t) do
    let (f, m) ← floatLanes t r
    lanewise1 (laneBits t) d a k z fun x => f.sqrt m (f.decode x)) s

def execVmin (d a b k : BitVec 3) (z : BitVec 1) (t : BitVec 4) (s : State) : Host.Outcome State Fault Refusal :=
  run (vectorOp (laneCheck .both t) false (laneBits t) do
    let (f, _) ← floatLanes t 0
    lanewise2 (laneBits t) d a b k z (laneMin t f)) s

def execVmax (d a b k : BitVec 3) (z : BitVec 1) (t : BitVec 4) (s : State) : Host.Outcome State Fault Refusal :=
  run (vectorOp (laneCheck .both t) false (laneBits t) do
    let (f, _) ← floatLanes t 0
    lanewise2 (laneBits t) d a b k z (laneMax t f)) s

def execVabs (d a k : BitVec 3) (z : BitVec 1) (t : BitVec 4) (s : State) : Host.Outcome State Fault Refusal :=
  run (vectorOp (laneCheck .both t) false (laneBits t) do
    let (f, _) ← floatLanes t 0
    lanewise1 (laneBits t) d a k z fun x =>
      if isFloatType t then f.absolute x else plain (wrapTo (laneBits t) (laneInt t x).natAbs)) s

def execVneg (d a k : BitVec 3) (z : BitVec 1) (t : BitVec 4) (s : State) : Host.Outcome State Fault Refusal :=
  run (vectorOp (laneCheck .both t) false (laneBits t) do
    let (f, _) ← floatLanes t 0
    lanewise1 (laneBits t) d a k z fun x =>
      if isFloatType t then f.negative x else plain (wrapTo (laneBits t) (-(laneInt t x)))) s

def execVfma (d a b k : BitVec 3) (z : BitVec 1) (t : BitVec 4) (r : BitVec 3) (s : State) : Host.Outcome State Fault Refusal :=
  run (vectorOp (laneCheck .both t r) false (laneBits t) do
    let (f, m) ← floatLanes t r
    lanewise3 (laneBits t) d a b k z fun x y v =>
      if isFloatType t then f.fma m (f.decode x) (f.decode y) (f.decode v)
      else plain (wrapTo (laneBits t) (laneInt t x * laneInt t y + laneInt t v))) s

def execVfms (d a b k : BitVec 3) (z : BitVec 1) (t : BitVec 4) (r : BitVec 3) (s : State) : Host.Outcome State Fault Refusal :=
  run (vectorOp (laneCheck .both t r) false (laneBits t) do
    let (f, m) ← floatLanes t r
    lanewise3 (laneBits t) d a b k z fun x y v =>
      if isFloatType t then f.fma m (f.decode x).negate (f.decode y) (f.decode v)
      else plain (wrapTo (laneBits t) (laneInt t v - laneInt t x * laneInt t y))) s

def execVex2 (d a k : BitVec 3) (z : BitVec 1) (t : BitVec 4) (r : BitVec 3) (s : State) : Host.Outcome State Fault Refusal :=
  run (vectorOp (laneCheck .float t r) (t == 11) (laneBits t) do
    let (f, m) ← floatLanes t r
    lanewise1 (laneBits t) d a k z fun x => f.exp2 m (f.decode x)) s

def execVand (d a b k : BitVec 3) (z : BitVec 1) (t : BitVec 4) (s : State) : Host.Outcome State Fault Refusal :=
  run (vectorOp (laneCheck .width t) false (laneBits t) do
    lanewise2 (laneBits t) d a b k z fun x y => plain (x &&& y)) s

def execVor (d a b k : BitVec 3) (z : BitVec 1) (t : BitVec 4) (s : State) : Host.Outcome State Fault Refusal :=
  run (vectorOp (laneCheck .width t) false (laneBits t) do
    lanewise2 (laneBits t) d a b k z fun x y => plain (x ||| y)) s

def execVxor (d a b k : BitVec 3) (z : BitVec 1) (t : BitVec 4) (s : State) : Host.Outcome State Fault Refusal :=
  run (vectorOp (laneCheck .width t) false (laneBits t) do
    lanewise2 (laneBits t) d a b k z fun x y => plain (x ^^^ y)) s

def execVsll (d a b k : BitVec 3) (z : BitVec 1) (t : BitVec 4) (s : State) : Host.Outcome State Fault Refusal :=
  run (vectorOp (laneCheck .int t) false (laneBits t) do
    lanewise2 (laneBits t) d a b k z fun x y => plain (x * 2 ^ laneShift t y % 2 ^ laneBits t)) s

def execVsrl (d a b k : BitVec 3) (z : BitVec 1) (t : BitVec 4) (s : State) : Host.Outcome State Fault Refusal :=
  run (vectorOp (laneCheck .int t) false (laneBits t) do
    lanewise2 (laneBits t) d a b k z fun x y => plain (x / 2 ^ laneShift t y)) s

def execVsra (d a b k : BitVec 3) (z : BitVec 1) (t : BitVec 4) (s : State) : Host.Outcome State Fault Refusal :=
  run (vectorOp (laneCheck .int t) false (laneBits t) do
    lanewise2 (laneBits t) d a b k z fun x y =>
      plain (wrapTo (laneBits t) (signedOf (laneBits t) x / (2 ^ laneShift t y : Nat)))) s

def execVadds (d a b k : BitVec 3) (z : BitVec 1) (t : BitVec 4) (s : State) : Host.Outcome State Fault Refusal :=
  run (vectorOp (laneCheck .int t) false (laneBits t) do
    lanewise2 (laneBits t) d a b k z fun x y => plain (laneClamp t (laneInt t x + laneInt t y))) s

def execVsubs (d a b k : BitVec 3) (z : BitVec 1) (t : BitVec 4) (s : State) : Host.Outcome State Fault Refusal :=
  run (vectorOp (laneCheck .int t) false (laneBits t) do
    lanewise2 (laneBits t) d a b k z fun x y => plain (laneClamp t (laneInt t x - laneInt t y))) s

/-- VSEL: the mask selects, and every lane is written (R225). -/
def execVsel (d a b k : BitVec 3) (t : BitVec 4) (s : State) : Host.Outcome State Fault Refusal :=
  run (vectorOp (laneCheck .width t) false (laneBits t) do
    let w := laneBits t
    let x ← readVec a
    let y ← readVec b
    let m ← readMask k
    writeVec d (BitVec.ofNat 1024 (ofLanes w ((List.range (laneCount w)).map fun i =>
      if m.getLsbD i then laneOf w x i else laneOf w y i))) (List.range 16)) s

/-! ## Compares: major 0x21 (R228) -/

/-- kd from the results of all lanes: inactive bits by ZM, bits from L up zero. -/
def writeCompare (w : Nat) (d k : BitVec 3) (z : BitVec 1) (r : List (Bool × Flags)) : Op Unit := do
  let m ← readMask k
  accrue (maskedFlags m (r.map (·.2)))
  let old := (← me).maskReg d
  let bits := (List.range (laneCount w)).map fun i =>
    if m.getLsbD i then (r.getD i (false, 0)).1 else if z = 1 then false else old.getLsbD i
  writeMask d (BitVec.ofNat 128 (ofLanes 1 (bits.map Bool.toNat)))

/-- A compare of two lanes; `quiet` compares raise NV for signalling NaNs only. -/
def compareLanes (d a b k : BitVec 3) (z : BitVec 1) (t : BitVec 4) (unordered quiet : Bool) (int : Int → Int → Bool)
    (flt : Num → Num → Bool) : Op Unit := do
  let w := laneBits t
  let (f, _) ← floatLanes t 0
  let x ← readVec a
  let y ← readVec b
  writeCompare w d k z ((List.range (laneCount w)).map fun i =>
    let p := laneOf w x i
    let q := laneOf w y i
    if isFloatType t then
      let u := f.decode p
      let v := f.decode q
      if u.isNan || v.isNan then (unordered, if quiet then snanFlag [u, v] else NV) else (flt u v, 0)
    else (int (laneInt t p) (laneInt t q), 0))

def execVceq (d a b k : BitVec 3) (z : BitVec 1) (t : BitVec 4) (s : State) : Host.Outcome State Fault Refusal :=
  run (vectorOp (laneCheck .both t) false (laneBits t)
    (compareLanes d a b k z t false true (fun x y => x == y) (fun x y => x.eq y))) s

def execVcne (d a b k : BitVec 3) (z : BitVec 1) (t : BitVec 4) (s : State) : Host.Outcome State Fault Refusal :=
  run (vectorOp (laneCheck .both t) false (laneBits t)
    (compareLanes d a b k z t true true (fun x y => x != y) (fun x y => !x.eq y))) s

def execVclt (d a b k : BitVec 3) (z : BitVec 1) (t : BitVec 4) (s : State) : Host.Outcome State Fault Refusal :=
  run (vectorOp (laneCheck .both t) false (laneBits t)
    (compareLanes d a b k z t false false (fun x y => decide (x < y)) (fun x y => x.lt y))) s

def execVcle (d a b k : BitVec 3) (z : BitVec 1) (t : BitVec 4) (s : State) : Host.Outcome State Fault Refusal :=
  run (vectorOp (laneCheck .both t) false (laneBits t)
    (compareLanes d a b k z t false false (fun x y => decide (x ≤ y)) (fun x y => !y.lt x))) s

def execVcun (d a b k : BitVec 3) (z : BitVec 1) (t : BitVec 4) (s : State) : Host.Outcome State Fault Refusal :=
  run (vectorOp (laneCheck .float t) false (laneBits t)
    (compareLanes d a b k z t true true (fun _ _ => false) (fun _ _ => false))) s

/-! ## Conversion: major 0x22 (R83 to R87, R229) -/

/-- The exact conversions of R83, by lane type codes. -/
def exactConversion (t u : BitVec 4) : Bool :=
  match t.toNat, u.toNat with
  | 8, 10 => true | 8, 11 => true
  | 9, 10 => true | 9, 11 => true
  | 10, 11 => true
  | 12, 9 => true | 12, 10 => true | 12, 11 => true
  | _, _ => false

/-- The checks of VCVT (R229): what a case leaves unused is zero. -/
def convertCheck (t u : BitVec 4) (r : BitVec 3) (sat : BitVec 1) : Op Unit := do
  require (vtOk t && vtOk u && rmOk r) .illegal
  let e0 := (← me).ext[0].val
  require (t != 12 || b8dOk (b8dOf e0)) .illegal
  require (u != 12 || b8dOk (b8dTarget e0)) .illegal
  let rounds := isFloatType t && !exactConversion t u || isFloatType u && !isFloatType t
  let saturates := (!isFloatType t) || (isFloatType u && !exactConversion t u)
  require ((rounds || r == 0) && (saturates || sat == 0)) .illegal

/-- One element converted. -/
def convertLane (t u : BitVec 4) (f g : Fmt) (m : Rm) (sat : Bool) (x : Nat) : Nat × Flags :=
  let n := laneBits u
  match isFloatType t, isFloatType u with
  | true, true => g.round m sat (f.decode x)
  | true, false => toInteger m n (isSignedType u) (f.decode x)
  | false, true => g.round m sat (Num.ofInt (laneInt t x))
  | false, false => plain (if sat then laneClamp u (laneInt t x) else wrapTo n (laneInt t x))

def execVcvt (d a : BitVec 3) (u : BitVec 4) (k : BitVec 3) (t : BitVec 4) (r : BitVec 3) (sat z : BitVec 1) (s : State) :
    Host.Outcome State Fault Refusal :=
  run (vectorOp (convertCheck t u r sat) false (laneBits t) do
    let x ← me
    let f := laneFmt t (b8dOf x.ext[0].val)
    let g := laneFmt u (b8dTarget x.ext[0].val)
    let ws := laneBits t
    let wt := laneBits u
    let n := 1024 / max ws wt
    let v ← readVec a
    let m ← readMask k
    let res := (List.range n).map fun i => convertLane t u f g (x.rounding r) (sat == 1) (laneOf ws v i)
    accrue (maskedFlags m (res.map (·.2)))
    let old := (← me).vecReg d
    writeVec d (BitVec.ofNat 1024 (ofLanes wt ((List.range (laneCount wt)).map fun i =>
      if i < n ∧ m.getLsbD i then (res.getD i (0, 0)).1 else if z = 1 then 0 else laneOf wt old i)))
      (wholeDwords wt fun i => z == 1 || (decide (i < n) && m.getLsbD i))) s

/-! ## Reductions: major 0x23 (R230) -/

/-- A node of the tree. -/
def treeNode (f : Nat → Nat → Nat × Flags) : Option Nat → Option Nat → Option Nat × Flags
  | some x, some y => (some (f x y).1, (f x y).2)
  | some x, none => (some x, 0)
  | none, y => (y, 0)

/-- One level: neighbours combined, and the flags raised. -/
def treeLevel (f : Nat → Nat → Nat × Flags) : List (Option Nat) → List (Option Nat) × Flags
  | x :: y :: t =>
    let n := treeNode f x y
    let r := treeLevel f t
    (n.1 :: r.1, n.2 ||| r.2)
  | l => (l, 0)

/-- n levels. -/
def tree (f : Nat → Nat → Nat × Flags) : Nat → List (Option Nat) → Option Nat × Flags
  | 0, l => (l.headD none, 0)
  | n + 1, l =>
    let r := treeLevel f l
    let q := tree f n r.1
    (q.1, r.2 ||| q.2)

/-- A reduction: the root into lane 0, or the identity where no lane is active. -/
def reduce (t : BitVec 4) (d a k : BitVec 3) (z : BitVec 1) (identity : Nat) (f : Nat → Nat → Nat × Flags) : Op Unit := do
  let w := laneBits t
  let x ← readVec a
  let m ← readMask k
  let (root, flags) := tree f (Nat.log2 (laneCount w)) ((List.range (laneCount w)).map fun i =>
    if m.getLsbD i then some (laneOf w x i) else none)
  accrue flags
  let old := (← me).vecReg d
  writeVec d (BitVec.ofNat 1024 (ofLanes w ((List.range (laneCount w)).map fun i =>
    if i = 0 then root.getD identity else if z = 1 then 0 else laneOf w old i)))
    (wholeDwords w fun i => z == 1 || i == 0)

/-- The identity of VRMIN, and of VRMAX. -/
def largestOf (t : BitVec 4) (f : Fmt) : Nat :=
  if isFloatType t then (if f.hasInf then f.infCode else f.maxCode)
  else if isSignedType t then 2 ^ (laneBits t - 1) - 1 else 2 ^ laneBits t - 1

def smallestOf (t : BitVec 4) (f : Fmt) : Nat :=
  if isFloatType t then (if f.hasNeg then f.signBit true + (if f.hasInf then f.infCode else f.maxCode) else 0)
  else if isSignedType t then 2 ^ (laneBits t - 1) else 0

def execVrsum (d a k : BitVec 3) (z : BitVec 1) (t : BitVec 4) (r : BitVec 3) (s : State) : Host.Outcome State Fault Refusal :=
  run (vectorOp (laneCheck .both t r) false (laneBits t) do
    let (f, m) ← floatLanes t r
    reduce t d a k z 0 (arith2 t f (· + ·) (f.add m))) s

def execVrmin (d a k : BitVec 3) (z : BitVec 1) (t : BitVec 4) (s : State) : Host.Outcome State Fault Refusal :=
  run (vectorOp (laneCheck .both t) false (laneBits t) do
    let (f, _) ← floatLanes t 0
    reduce t d a k z (largestOf t f) (laneMin t f)) s

def execVrmax (d a k : BitVec 3) (z : BitVec 1) (t : BitVec 4) (s : State) : Host.Outcome State Fault Refusal :=
  run (vectorOp (laneCheck .both t) false (laneBits t) do
    let (f, _) ← floatLanes t 0
    reduce t d a k z (smallestOf t f) (laneMax t f)) s

def execVrand (d a k : BitVec 3) (z : BitVec 1) (t : BitVec 4) (s : State) : Host.Outcome State Fault Refusal :=
  run (vectorOp (laneCheck .width t) false (laneBits t)
    (reduce t d a k z (2 ^ laneBits t - 1) fun x y => plain (x &&& y))) s

def execVror (d a k : BitVec 3) (z : BitVec 1) (t : BitVec 4) (s : State) : Host.Outcome State Fault Refusal :=
  run (vectorOp (laneCheck .width t) false (laneBits t) (reduce t d a k z 0 fun x y => plain (x ||| y))) s

def execVrxor (d a k : BitVec 3) (z : BitVec 1) (t : BitVec 4) (s : State) : Host.Outcome State Fault Refusal :=
  run (vectorOp (laneCheck .width t) false (laneBits t) (reduce t d a k z 0 fun x y => plain (x ^^^ y))) s

/-! ## Permutes and moves: major 0x24 (R231, R232) -/

def execVperm (d a b k : BitVec 3) (z : BitVec 1) (t : BitVec 4) (s : State) : Host.Outcome State Fault Refusal :=
  run (vectorOp (laneCheck .width t) false (laneBits t) do
    let w := laneBits t
    let x ← readVec a
    lanewise1 w d b k z fun y => plain (laneOf w x (y % laneCount w))) s

def execVbcast (d e k : BitVec 3) (z : BitVec 1) (t : BitVec 4) (s : State) : Host.Outcome State Fault Refusal :=
  run (vectorOp (laneCheck .width t) false (laneBits t) do
    let x := ((← me).extReg e).val
    writeLanes (laneBits t) d k z (List.replicate (laneCount (laneBits t)) (plain (lowBits (laneBits t) x)))) s

/-- A slide: lane i from a lane of va, or vd kept where there is none. -/
def slide (t : BitVec 4) (d a k : BitVec 3) (z : BitVec 1) (source : Nat → Nat → Option Nat) : Op Unit := do
  let w := laneBits t
  let n := (← me).ext[3].val.toNat % 256
  let x ← readVec a
  let m ← readMask k
  let old := (← me).vecReg d
  writeVec d (BitVec.ofNat 1024 (ofLanes w ((List.range (laneCount w)).map fun i =>
    if m.getLsbD i then
      match source n i with
      | some j => laneOf w x j
      | none => laneOf w old i
    else if z = 1 then 0 else laneOf w old i)))
    (wholeDwords w fun i => if m.getLsbD i then (source n i).isSome else z == 1)

def execVslup (d a k : BitVec 3) (z : BitVec 1) (t : BitVec 4) (s : State) : Host.Outcome State Fault Refusal :=
  run (vectorOp (laneCheck .width t) false (laneBits t)
    (slide t d a k z fun n i => if n ≤ i then some (i - n) else none)) s

def execVsldn (d a k : BitVec 3) (z : BitVec 1) (t : BitVec 4) (s : State) : Host.Outcome State Fault Refusal :=
  run (vectorOp (laneCheck .width t) false (laneBits t)
    (slide t d a k z fun n i => if i + n < laneCount (laneBits t) then some (i + n) else none)) s

/-- The lane that e3 selects (R231). -/
def laneSelector (w : Nat) : Op Nat := do return (← me).ext[3].val.toNat % 128 % laneCount w

def execVins (d e k : BitVec 3) (t : BitVec 4) (s : State) : Host.Outcome State Fault Refusal :=
  run (vectorOp (laneCheck .width t) false (laneBits t) do
    let w := laneBits t
    let j ← laneSelector w
    let x := ((← me).extReg e).val
    let m ← readMask k
    let old := (← me).vecReg d
    writeVec d (BitVec.ofNat 1024 (ofLanes w ((List.range (laneCount w)).map fun i =>
      if i = j ∧ m.getLsbD i then lowBits w x else laneOf w old i)))
      (wholeDwords w fun i => i == j && m.getLsbD i)) s

def execVext (e a : BitVec 3) (t : BitVec 4) (s : State) : Host.Outcome State Fault Refusal :=
  run (vectorOp (laneCheck .width t) false (laneBits t) do
    let w := laneBits t
    let j ← laneSelector w
    let x := laneOf w (← readVec a) j
    writeExt e (Reg.of (if isSignedType t then extendS w x else extendZ w x))) s

def execVmov (d a k : BitVec 3) (z : BitVec 1) (t : BitVec 4) (s : State) : Host.Outcome State Fault Refusal :=
  run (vectorOp (laneCheck .width t) false (laneBits t) (lanewise1 (laneBits t) d a k z plain)) s

/-- Element j of row r of an accumulator of 32-bit elements (R240). -/
def accElement (b : Block) (r j : Nat) : Nat := leNat (blockGet b (64 * r + 4 * j) 4)

/-- VACCR (R232). -/
def execVaccr (d n k : BitVec 3) (z : BitVec 1) (t : BitVec 4) (s : State) : Host.Outcome State Fault Refusal :=
  run (vectorOp (do
      require (t == 2 || t == 6 || t == 10) .illegal
      require (!isVent (← self)) .illegal) false 32 do
    let s ← get
    let c := coreOf s.cur
    let core := s.core c
    require (core.holds s.cur (32 + n.toNat)) .unclaimed (BitVec.ofNat 64 (32 + n.toNat))
    if core.matrix.all.any fun m => m.thread == s.cur && m.names.contains (32 + n.toNat) then waitFor .engine
    let e3 := (← me).ext[3].val.toNat
    let r0 := e3 % 16
    let r1 := e3 / 256 % 16
    checkPoison fun p => match p with
      | .acc u m w => u == c && m == n.toNat && (w / 8 == r0 || w / 8 == r1)
      | _ => false
    let b := (core.accs.getD n.toNat Acc.initial).bits
    writeLanes 32 d k z ((List.range 32).map fun i => plain (accElement b (if i < 16 then r0 else r1) (i % 16)))) s

/-! ## Mask operations: major 0x25 (R233) -/

def maskOp (body : Op Unit) : Op Unit := vectorOp (pure ()) false 8 body

def maskOp2 (d a b : BitVec 3) (f : MaskReg → MaskReg → MaskReg) : Op Unit := maskOp do
  let x ← readMask a
  writeMask d (f x (← readMask b))

def execKand (d a b : BitVec 3) (s : State) : Host.Outcome State Fault Refusal := run (maskOp2 d a b (· &&& ·)) s
def execKor (d a b : BitVec 3) (s : State) : Host.Outcome State Fault Refusal := run (maskOp2 d a b (· ||| ·)) s
def execKxor (d a b : BitVec 3) (s : State) : Host.Outcome State Fault Refusal := run (maskOp2 d a b (· ^^^ ·)) s
def execKnot (d a : BitVec 3) (s : State) : Host.Outcome State Fault Refusal := run (maskOp do writeMask d (~~~ (← readMask a))) s
def execKmov (d a : BitVec 3) (s : State) : Host.Outcome State Fault Refusal := run (maskOp do writeMask d (← readMask a)) s

def execKpopc (e a : BitVec 3) (s : State) : Host.Outcome State Fault Refusal :=
  run (maskOp do
    let x ← readMask a
    writeExt e (Reg.of (BitVec.ofNat 64 (bitsIn 128 x.toNat).length))) s

/-! ## Vector memory: major 0x26 (R234 to R236) -/

/-- s in bytes. -/
def accessBytes (l : BitVec 2) : Nat := 1 <<< l.toNat

/-- Addresses of the lanes: nothing for a lane that makes no access. -/
abbrev Lanes := List (Option Word)

/-- One lane checked: window_check, the checks of R16 to R18, among them a view alias in no enabled view, and a write to view
space (R94). -/
def locateLane (n : Nat) (write : Bool) (ea : Word) : Op Target := do
  let g ← locate ea n [if write then .w else .r]
  match g with
  | .mem _ k _ => if areaOf k == .view && (write || ((← get).readView k n).isNone) then trap .window ea
  | _ => pure ()
  return g

/-- Every active lane checked in ascending order, before any is performed (R235). -/
def locateLanes (n : Nat) (write : Bool) : Lanes → Op (List (Option (Word × Target)))
  | [] => return []
  | none :: t => do return none :: (← locateLanes n write t)
  | some ea :: t => do
    let g ← locateLane n write ea
    return some (ea, g) :: (← locateLanes n write t)

/-- The waits at the homes of all lanes, before any lane is performed. -/
def awaitEach (n : Nat) (write : Bool) : List (Option (Word × Target)) → Op Unit
  | [] => return ()
  | some (_, .mem leaf k _) :: t => do
    let s ← get
    if s.needsHome s.cur leaf k n write then awaitHome leaf k
    if areaOf k != .view then homeWaits leaf k n write
    awaitEach n write t
  | _ :: t => awaitEach n write t

/-- All of those waits, after which no lane waits again: one wait for a reply stands for all (log 12). -/
def awaitLanes (n : Nat) (write : Bool) (l : List (Option (Word × Target))) : Op Unit := do
  awaitEach n write l
  modMe fun t => { t with answered := true }

/-- The lanes performed in ascending order. -/
def loadLanes (n : Nat) : List (Option (Word × Target)) → Op (List Nat)
  | [] => return []
  | none :: t => do return 0 :: (← loadLanes n t)
  | some (ea, g) :: t => do
    let x := leNat (← readTarget ea n g)
    return x :: (← loadLanes n t)

def storeLanes (n : Nat) : List (Option (Word × Target)) → List Nat → Op Unit
  | some (ea, g) :: t, x :: xs => do
    writeTarget ea (leBytes n x) g
    storeLanes n t xs
  | _ :: t, _ :: xs => storeLanes n t xs
  | _, _ => return ()

/-- The lanes that are active under a mask. -/
def activeOnly (m : MaskReg) (l : Lanes) : Lanes := (List.range l.length).map fun i => if m.getLsbD i then l.getD i none else none

/-- The lanes that access memory, as a mask. -/
def accessMask (l : Lanes) : MaskReg := BitVec.ofNat 128 (ofLanes 1 (l.map fun o => o.isSome.toNat))

/-- A vector load. -/
def vectorLoad (fam : Family) (d k : BitVec 3) (z : BitVec 1) (b : BitVec 4) (l : BitVec 2) (addresses : MaskReg → Op Lanes) : Op Unit :=
  issue fam [b] do
    let n := accessBytes l
    present false (8 * n)
    let m ← readMask k
    let ls ← addresses m
    let gs ← locateLanes n false ls
    awaitLanes n false gs
    let xs ← loadLanes n gs
    let act := accessMask ls
    let old := (← me).vecReg d
    writeVec d (BitVec.ofNat 1024 (mergeLanes (8 * n) old act z xs)) (wholeDwords (8 * n) fun i => z == 1 || act.getLsbD i)
    advance

/-- A vector store. -/
def vectorStore (fam : Family) (d k : BitVec 3) (b : BitVec 4) (l : BitVec 2) (addresses : MaskReg → Op Lanes) : Op Unit :=
  issue fam [b] do
    let n := accessBytes l
    present false (8 * n)
    let m ← readMask k
    let x ← readVec d
    let ls ← addresses m
    let gs ← locateLanes n true ls
    awaitLanes n true gs
    storeLanes n gs ((List.range (laneCount (8 * n))).map fun i => laneOf (8 * n) x i)
    advance

/-- Lanes next to each other. -/
def unitLanes (w : BitVec 3) (b : BitVec 4) (l : BitVec 2) (m : MaskReg) : Op Lanes := do
  let base ← rsUse b
  let n := accessBytes l
  return activeOnly m ((List.range (laneCount (8 * n))).map fun i => some (effectiveAddress w base (BitVec.ofNat 64 (i * n))))

/-- Lanes indexed by a vector register. -/
def indexedLanes (w : BitVec 3) (b : BitVec 4) (x : BitVec 3) (l : BitVec 2) (m : MaskReg) : Op Lanes := do
  let base ← rsUse b
  let n := accessBytes l
  let v ← readVec x
  return activeOnly m ((List.range (laneCount (8 * n))).map fun i =>
    some (effectiveAddress w base (extendS (8 * n) (laneOf (8 * n) v i) * BitVec.ofNat 64 n)))

/-- Elements first to first + count − 1 of a pattern; the lane after a check of the ones before it. -/
def patternLanes (q : Pattern) (write : Bool) (n first : Nat) (m : MaskReg) : Nat → Nat → Op Lanes
  | 0, _ => return []
  | c + 1, i => do
    if m.getLsbD i && decide (first + i < q.elements) then
      let ea ← elementAddress q (first + i)
      let _ ← locateLane n write ea
      return some ea :: (← patternLanes q write n first m c (i + 1))
    else return none :: (← patternLanes q write n first m c (i + 1))

/-- Lanes of the pattern in a stream slot (R234). -/
def streamLanes (q : BitVec 2) (b : BitVec 4) (l : BitVec 2) (write : Bool) (m : MaskReg) : Op Lanes := do
  let first ← rsUse b
  let n := accessBytes l
  let pat : Pattern := (← me).str[q.toNat]'(by have := q.isLt; omega)
  require (pat.bytes == n) .stream
  patternLanes pat write n first.toNat m (laneCount (8 * n)) 0

def execVld (d k : BitVec 3) (z : BitVec 1) (b : BitVec 4) (w : BitVec 3) (l : BitVec 2) (s : State) : Host.Outcome State Fault Refusal :=
  run (vectorLoad .vectorMemory d k z b l (unitLanes w b l)) s

def execVst (d k : BitVec 3) (b : BitVec 4) (w : BitVec 3) (l : BitVec 2) (s : State) : Host.Outcome State Fault Refusal :=
  run (vectorStore .vectorMemory d k b l (unitLanes w b l)) s

def execVlds (d : BitVec 3) (q : BitVec 2) (k : BitVec 3) (z : BitVec 1) (b : BitVec 4) (l : BitVec 2) (s : State) :
    Host.Outcome State Fault Refusal :=
  run (vectorLoad .vectorStream d k z b l (streamLanes q b l false)) s

def execVsts (d : BitVec 3) (q : BitVec 2) (k : BitVec 3) (b : BitVec 4) (l : BitVec 2) (s : State) :
    Host.Outcome State Fault Refusal :=
  run (vectorStore .vectorStream d k b l (streamLanes q b l true)) s

def execVgath (d k : BitVec 3) (z : BitVec 1) (b : BitVec 4) (w x : BitVec 3) (l : BitVec 2) (s : State) :
    Host.Outcome State Fault Refusal :=
  run (vectorLoad .vectorMemory d k z b l (indexedLanes w b x l)) s

def execVscat (d k : BitVec 3) (b : BitVec 4) (w x : BitVec 3) (l : BitVec 2) (s : State) :
    Host.Outcome State Fault Refusal :=
  run (vectorStore .vectorMemory d k b l (indexedLanes w b x l)) s

end Sys2Proof.Machine
end

