-- ==== Sys2Proof/Machine/Matrix.lean ====
section
/-! DEFINITION.
Tiles in slots and accumulators, the sums of the matrix engine and their checksums, and the instructions of major 0x2E
(R88 to R90, R240 to R243, R249 to R261).
-/

namespace Sys2Proof.Machine

/-! ## Formats (R241) -/

/-- The prediction format of a floating MFMT; INT8 predicts in INT32. -/
def predictFmt (m : Nat) : Fmt := if m = 5 then .f64 else .f32

/-- The value of an operand element under MFMT and its B8D. -/
def operandNum (m : Nat) (b8d : BitVec 5) (x : Nat) : Num :=
  match m with
  | 0 => Num.ofInt (signedOf 8 x)
  | 1 => (Fmt.ofB8D b8d).decode x
  | 2 => Fmt.f16.decode x
  | 3 => Fmt.bf16.decode x
  | 4 => Fmt.f32.decode x
  | _ => Fmt.f64.decode x

/-! ## Tiles (R240) -/

/-- Element k of row r of a slot, of n bytes. -/
def slotElement (b : Block) (n r k : Nat) : Nat := leNat (blockGet b (64 * r + n * k) n)

/-- The 256 elements of an accumulator, row by row; of a binary64 pair, when there is a second. -/
def accElements (a : Block) (b : Option Block) : List Nat :=
  (List.range 256).map fun i =>
    match b with
    | none => leNat (blockGet a (4 * i) 4)
    | some b => leNat (blockGet a (4 * i) 4) + 2 ^ 32 * leNat (blockGet b (4 * i) 4)

/-- An accumulator from the low, or the high, words of its elements. -/
def accFrom (xs : List Nat) (high : Bool) : Block :=
  BitVec.ofNat 8192 (ofLanes 32 (xs.map fun x => if high then x / 2 ^ 32 else x))

/-- A 16 by n operand as rows of values. -/
abbrev Rows := List (List Num)

def operandRows (m : Nat) (b8d : BitVec 5) (b : Block) (k : Nat) : Rows :=
  (List.range 16).map fun r => (List.range k).map fun j => operandNum m b8d (slotElement b (mfmtBytes m) r j)

/-- The integers of rows. -/
def Num.int (x : Num) : Int := match x with
  | .fin neg m _ => if neg then -(m : Int) else m
  | _ => 0

/-! ## Sums (R88, R89) -/

/-- One element: c and the products of a row of A with a row of B's columns (R89). -/
def matsum (m c : Nat) (ps : List (Num × Num)) : Nat :=
  match m with
  | 0 => wrapTo 32 (signedOf 32 c + ps.foldl (fun s (p : Num × Num) => s + p.1.int * p.2.int) 0)
  | 1 => sumRounded .f32 (Fmt.f32.decode c) ps
  | 2 => sumRounded .f32 (Fmt.f32.decode c) ps
  | 3 => sumRounded .f32 (Fmt.f32.decode c) ps
  | 4 => groupSum .f32 8 c ps
  | _ => groupSum .f64 1 c ps

/-- C := C + A × B (R249). -/
def multiply (m : Nat) (cs : List Nat) (a b : Rows) : List Nat :=
  (List.range 256).map fun i => matsum m (cs.getD i 0) ((a.getD (i / 16) []).zip (b.getD (i % 16) []))

/-! ## Predictions (R250, R251) -/

/-- A value of the prediction format: the sum of values formed exactly and rounded once; INT32 wraps. -/
def predict (m : Nat) (c : Num) (ps : List (Num × Num)) : Nat :=
  if m = 0 then wrapTo 32 (c.int + ps.foldl (fun s (p : Num × Num) => s + p.1.int * p.2.int) 0)
  else sumRounded (predictFmt m) c ps

/-- A bit pattern of the prediction format as a value. -/
def predictNum (m x : Nat) : Num := if m = 0 then Num.ofInt (signedOf 32 x) else (predictFmt m).decode x

/-- An exact sum of values: NaN and infinities as in R88. -/
def sumNum (xs : List Num) : Num :=
  if xs.any Num.isNan || (xs.any (fun x => x.isInf && x.neg) && xs.any fun x => x.isInf && !x.neg) then .nan false
  else match xs.find? Num.isInf with
    | some x => x
    | none => Num.ofTerm (sumExact (xs.map Num.term)) false

def one : Num := .fin false 1 0

/-- fmt of the sum of elements of C. -/
def predictSum (m : Nat) (xs : List Nat) : Nat := predict m (.fin false 0 0) (xs.map fun x => (predictNum m x, one))

/-- Row r and column j of C. -/
def rowOf (cs : List Nat) (r : Nat) : List Nat := (cs.drop (16 * r)).take 16
def colOf (cs : List Nat) (j : Nat) : List Nat := (List.range 16).map fun r => cs.getD (16 * r + j) 0

/-- The state that names the prediction format of an MFMT. -/
def ckOf (m : Nat) : CkState := if m = 0 then .i32 else if m = 5 then .f64 else .f32

/-- The MFMT class in which a state's predictions are held. -/
def ckFormat : CkState → Nat
  | .i32 => 0
  | .f64 => 5
  | _ => 4

def words16 (xs : List Nat) : Vector Word 16 := Vector.ofFn fun i => BitVec.ofNat 64 (xs.getD i.val 0)

/-- The predictions a checked command starts from (R251, step 2). -/
def startChecks (m : Nat) (cs : List Nat) (k : Checks) (zero : Bool) : List Nat × List Nat :=
  if k.state = ckOf m then (k.rows.toList.map BitVec.toNat, k.cols.toList.map BitVec.toNat)
  else if zero then (List.replicate 16 0, List.replicate 16 0)
  else ((List.range 16).map fun i => predictSum m (rowOf cs i), (List.range 16).map fun j => predictSum m (colOf cs j))

/-- The predictions after the command (R251, step 3). -/
def nextChecks (m : Nat) (p : List Nat × List Nat) (a b : Rows) (k : Nat) : List Nat × List Nat :=
  let bs := (List.range k).map fun n => sumNum ((List.range 16).map fun j => (b.getD j []).getD n (.fin false 0 0))
  let as := (List.range k).map fun n => sumNum ((List.range 16).map fun i => (a.getD i []).getD n (.fin false 0 0))
  ((List.range 16).map fun i => predict m (predictNum m (p.1.getD i 0)) ((a.getD i []).zip bs),
   (List.range 16).map fun j => predict m (predictNum m (p.2.getD j 0)) (as.zip (b.getD j [])))

/-! ## The tolerance rule (R257) -/

/-- A residue: fmt of the difference of a sum and its prediction, 0 when both are NaN or the same infinity. -/
def residueOf (m sum p : Nat) : Nat :=
  if m = 0 then wrapTo 32 (signedOf 32 sum - signedOf 32 p)
  else
    let x := predictNum m sum
    let y := predictNum m p
    if (x.isNan && y.isNan) || (x.isInf && y.isInf && x.neg == y.neg) then 0
    else sumRounded (predictFmt m) x [(y.negate, one)]

/-- A residue exceeds the tolerance in e2. -/
def exceeds (m r : Nat) (e2 : Word) : Bool :=
  if m = 0 then decide (e2.toNat % 2 ^ 32 < (signedOf 32 r).natAbs)
  else
    let tau := if m = 5 then Fmt.f64.decode e2.toNat else Fmt.f32.decode (e2.toNat % 2 ^ 32)
    let mag := match predictNum m r with
      | .inf _ => Num.inf false
      | .fin _ n e => .fin false n e
      | x => x
    mag.isNan || tau.isNan || tau.lt mag

/-- The residues of rows and columns. -/
def residues (m : Nat) (cs : List Nat) (p : List Nat × List Nat) : List Nat × List Nat :=
  ((List.range 16).map fun i => residueOf m (predictSum m (rowOf cs i)) (p.1.getD i 0),
   (List.range 16).map fun j => residueOf m (predictSum m (colOf cs j)) (p.2.getD j 0))

/-- The indexes of the residues that exceed. -/
def exceeding (m : Nat) (rs : List Nat) (e2 : Word) : List Nat := (List.range 16).filter fun i => exceeds m (rs.getD i 0) e2

/-! ## Accumulators of a core -/

/-- The contents an accumulator holds, with its neighbour's for a binary64 pair. -/
def Core.elements (k : Core) (n : Nat) (pair : Bool) : List Nat :=
  accElements (k.acc n).bits (if pair then some (k.acc (n + 1)).bits else none)

/-! ## CLAIM, CLAIM_T and RELS (R242, R243) -/

def execClaim (a b : BitVec 4) (s : State) : Host.Outcome State Fault Refusal :=
  run (issue .matrix [a, b] do
    let x ← rsUse a
    let set := claimSet x (← rsUse b)
    let s ← get
    let c := coreOf s.cur
    if (s.core c).canTake s.cur set then
      modify fun s => s.take c s.cur set
      advance
    else
      modify fun s => s.setCore c { s.core c with waiting := (s.core c).waiting.filter (·.thread != s.cur) ++ [⟨s.cur, set⟩] }
      waitKeeping .claim) s

def execClaimT (a b : BitVec 4) (s : State) : Host.Outcome State Fault Refusal :=
  run (issue .matrix [a, b, 0] do
    let x ← rsUse a
    let set := claimSet x (← rsUse b)
    let s ← get
    if (s.core (coreOf s.cur)).canTake s.cur set then
      modify fun s => s.take (coreOf s.cur) s.cur set
      wr 0 1
    else wr 0 0
    advance) s

/-- A command of the thread names a resource of a set and has neither completed nor parked. -/
def State.namedLive (s : State) (t : Nat) (set : List Nat) : Bool :=
  (s.core (coreOf t)).matrix.live.any fun c => c.thread == t && c.names.any set.contains

/-- An earlier command of the thread names a resource of a set and has not completed; a parked one has not (R256). -/
def State.namedBy (s : State) (t : Nat) (set : List Nat) : Bool :=
  (s.core (coreOf t)).matrix.all.any fun c => c.thread == t && c.names.any set.contains

def execRels (a b : BitVec 4) (s : State) : Host.Outcome State Fault Refusal :=
  run (issue .matrix [a, b] do
    let x ← rsUse a
    let set := claimSet x (← rsUse b)
    let s ← get
    if s.namedLive s.cur set then waitFor .engine
    modify fun s => (s.discardParked s.cur fun c => c.names.any set.contains).freeClaims s.cur set
    advance) s

/-! ## MCHK, MFIX, ACCINJ, AMOV, MCVTA (R256 to R261) -/

/-- The resource is held by the thread (R243). -/
def requireClaim (r : Nat) : Op Unit := do
  require ((← myCore).holds (← self) r) .unclaimed (BitVec.ofNat 64 r)

/-- The accumulator, and for an F64 state its pair, held and free of the thread's earlier commands (R256). -/
def useAcc (n : Nat) (more : List Nat := []) : Op Acc := do
  let k ← myCore
  let set := (if (k.acc n).checks.state = .f64 then [32 + n, 33 + n] else [32 + n]) ++ more
  set.forM requireClaim
  let s ← get
  if s.namedBy s.cur set then waitFor .engine
  return k.acc n

/-- The dwords of the accumulators that an instruction reads hold no error (R353): all of them, or those of element i. -/
def readAcc (accs : List Nat) (element : Option Nat := none) : Op Unit := do
  let id ← self
  checkPoison fun p => match p with
    | .acc u m d => u == coreOf id && accs.contains m && (match element with
        | some i => d == i / 2
        | none => true)
    | _ => false

/-- The accumulator, with its neighbour for an F64 state. -/
def Acc.pair (x : Acc) (n : Nat) : List Nat := if x.checks.state = .f64 then [n, n + 1] else [n]

def modAcc (n : Nat) (f : Acc → Acc) : Op Unit := modCore fun k => k.setAcc n (f (k.acc n))

/-- The tval of MCK_SINGLE and MCK (R263). -/
def mckTval (n : Nat) (r : Report) : Word :=
  if r.single then BitVec.ofNat 64 (r.row + 16 * r.col + 256 * n)
  else BitVec.ofNat 64 (256 * n + 2 ^ 16 * r.nrows + 2 ^ 24 * r.ncols)

/-- A residue as AMOV reads it: binary32 zero-extended, binary64 whole, INT32 sign-extended (R258). -/
def residueWord (m x : Nat) : Word := if m = 0 then extendS 32 x else BitVec.ofNat 64 x

/-- The check of an accumulator whose state is not NONE (R257). -/
def checkReport (k : Core) (n : Nat) (e2 : Word) : Report :=
  let x := k.acc n
  let m := ckFormat x.checks.state
  let cs := k.elements n (x.checks.state == .f64)
  let (rho, sigma) := if x.checks.state = .zero then (List.replicate 16 0, List.replicate 16 0)
    else residues m cs (x.checks.rows.toList.map BitVec.toNat, x.checks.cols.toList.map BitVec.toNat)
  let rows := if x.checks.state = .zero then (List.range 16).filter fun i => (rowOf cs i).any (· != 0) else exceeding m rho e2
  let cols := if x.checks.state = .zero then (List.range 16).filter fun j => (colOf cs j).any (· != 0) else exceeding m sigma e2
  let single := rows.length == 1 && cols.length == 1
  { row := if rows.length = 1 then rows.headD 0 else 0
    col := if cols.length = 1 then cols.headD 0 else 0
    single := single
    multi := !single && !(rows.isEmpty && cols.isEmpty)
    nrows := rows.length
    ncols := cols.length
    rho := if rows.length = 1 then residueWord m (rho.getD (rows.headD 0) 0) else 0
    sigma := if cols.length = 1 then residueWord m (sigma.getD (cols.headD 0) 0) else 0 }

def execMchk (d : BitVec 4) (n : BitVec 3) (s : State) : Host.Outcome State Fault Refusal :=
  run (issue .matrix [d] do
    let x ← useAcc n.toNat
    if x.checks.state = .none then
      modAcc n.toNat fun x => { x with report := none }
      wr d 1
      advance
    else
      readAcc (x.pair n.toNat)
      let r := checkReport (← myCore) n.toNat (← me).ext[2].val
      if r.nrows = 0 ∧ r.ncols = 0 then
        modAcc n.toNat fun x => { x with report := none }
        wr d 0
        advance
      else
        modAcc n.toNat fun x => { x with report := some r }
        trapKeeping (if r.single then .mckSingle else .mck) (mckTval n.toNat r)) s

/-- An element of C replaced. -/
def Core.setElement (k : Core) (n : Nat) (pair : Bool) (i x : Nat) : Core :=
  let cs := (k.elements n pair).set i x
  let k := k.setAcc n { k.acc n with bits := accFrom cs false }
  if pair then k.setAcc (n + 1) { k.acc (n + 1) with bits := accFrom cs true } else k

def execMfix (n : BitVec 3) (i j : BitVec 4) (s : State) : Host.Outcome State Fault Refusal :=
  run (issue .matrix [i, j] do
    let r ← rsUse i
    let c ← rsUse j
    let x ← useAcc n.toNat
    let bad : Word := match x.report with
      | some q => mckTval n.toNat { q with single := false }
      | none => BitVec.ofNat 64 (256 * n.toNat)
    match x.report with
    | some q =>
      require (q.single && q.row == r.toNat && q.col == c.toNat) .mck bad
      let m := ckFormat x.checks.state
      let pair := x.checks.state == .f64
      let at_ := 16 * q.row + q.col
      if x.checks.state ≠ .zero then readAcc (x.pair n.toNat) at_
      let old := ((← myCore).elements n.toNat pair).getD at_ 0
      let rho := (if m = 5 then q.rho else q.rho.setWidth 32 |>.setWidth 64).toNat
      let new := if x.checks.state = .zero then 0
        else if m = 0 then wrapTo 32 (signedOf 32 old - signedOf 32 rho)
        else sumRounded (predictFmt m) (predictNum m old) [((predictNum m rho).negate, one)]
      modCore fun k => k.setElement n.toNat pair at_ new
      modAcc n.toNat fun x => { x with report := none }
      advance
    | none => trap .mck bad) s

/-- ACCINJ (R260): privileged under R114.  The bit number has five bits, so it is never above 31. -/
def execAccinj (n : BitVec 3) (a : BitVec 4) (s : State) : Host.Outcome State Fault Refusal :=
  run (issue .matrix [a] (do
      let v ← rsUse a
      let _ ← useAcc n.toNat
      let i := v.toNat % 16 * 16 + v.toNat / 16 % 16
      readAcc [n.toNat] i
      modAcc n.toNat fun x => { x with bits := x.bits ^^^ (1 <<< (32 * i + v.toNat / 256 % 32)) }
      advance)
    (priv := do
      let t ← me
      require (t.supv || t.dbg) .priv)) s

/-- The report word of AMOV (R258). -/
def Report.word (r : Report) : Word :=
  BitVec.ofNat 64 (r.row + 2 ^ 4 * r.col + 2 ^ 8 * r.single.toNat + 2 ^ 9 * r.multi.toNat + 2 ^ 16 * r.nrows + 2 ^ 24 * r.ncols)

def execAmovRead (d : BitVec 4) (n : BitVec 3) (sel : BitVec 7) (s : State) : Host.Outcome State Fault Refusal :=
  run (issue .matrix [d] (do
      require (sel.toNat == 0 || sel.toNat == 2 || sel.toNat == 3 || sel.toNat == 4) .illegal
      let e3 := (← me).ext[3].val.toNat
      let x ← useAcc n.toNat
      match sel.toNat with
      | 0 =>
        readAcc [n.toNat] (e3 % 16 * 16 + e3 / 16 % 16)
        wr d (BitVec.ofNat 64 (accElement x.bits (e3 % 16) (e3 / 16 % 16)))
      | 2 => wr d (match x.report with | some r => r.word | none => 0)
      | 3 => wr d (match x.report with | some r => r.rho | none => 0)
      | _ => wr d (match x.report with | some r => r.sigma | none => 0)
      advance)) s

def execAmovWrite (n : BitVec 3) (b : BitVec 4) (s : State) : Host.Outcome State Fault Refusal :=
  run (issue .matrix [b] do
    let v ← rsUse b
    let e3 := (← me).ext[3].val.toNat
    let _ ← useAcc n.toNat
    modCore fun k => k.setElement n.toNat false (e3 % 16 * 16 + e3 / 16 % 16) (lowBits 32 v)
    modAcc n.toNat fun x => { x with checks := Checks.none, report := none }
    advance) s

/-- An element converted by MCVTA (R261). -/
def mcvtaElement (t : BitVec 4) (b8d : BitVec 5) (sat : Bool) (x : Nat) : Nat :=
  if t = 0 then wrapTo 8 (if sat then clampSigned 8 (signedOf 32 x) else signedOf 32 x)
  else ((laneFmt t b8d).round .rne sat (Fmt.f32.decode x)).1

def execMcvta (n : BitVec 3) (t : BitVec 4) (sat : BitVec 1) (x : BitVec 5) (s : State) : Host.Outcome State Fault Refusal :=
  run (issue .matrix [] (do
      require (t == 0 || t == 8 || t == 9 || t == 12) .illegal
      require (t != 12 || b8dOk (b8dOf (← me).ext[0].val)) .illegal
      requireClaim x.toNat
      let a ← useAcc n.toNat [x.toNat]
      readAcc [n.toNat]
      let b8d := b8dOf (← me).ext[0].val
      let w := if t = 8 ∨ t = 9 then 16 else 8
      let cs := accElements a.bits none
      let rows := (List.range 16).map fun r =>
        ofLanes w ((rowOf cs r).map fun y => mcvtaElement t b8d (sat == 1) y)
      modCore fun k => k.setSlot x.toNat (BitVec.ofNat 8192 (ofLanes 512 rows))
      modify fun s => { s with poison := s.poison.filter fun p => match p with
        | .slot u m _ => !(u == coreOf s.cur && m == x.toNat)
        | _ => true }
      advance)) s

end Sys2Proof.Machine
end

