-- ==== Sys2Proof/Machine/Tentative.lean ====
section
/-! DEFINITION.
Tentative stores, COMMIT and RETRACT; sealing; the merge log (R173, R174, R208 to R214, R288).
-/

namespace Sys2Proof.Machine

/-! ## Tentative cells -/

/-- Memory that R193 allows for TSTW, TSTD, COMMIT and RETRACT: first or second tier of this package, DC or SC, device
bias, the cell's bytes outside armed compute regions. -/
def State.tentable (s : State) (g : Target) (n : Nat) : Bool :=
  match g with
  | .mem _ k _ =>
    (match s.kindOf g with
      | .coherent _ => true
      | _ => false) && !s.hostBias k && !s.isArmed k n
  | _ => false

/-- An access to a page in transition between biases is held, before anything is asked of the page's bias (R327, R328). -/
def awaitFlip (g : Target) : Op Unit := do
  match g with
  | .mem _ k _ => if (← get).inTransition k then waitFor .memory
  | _ => pure ()

/-- CLASS for memory of the wrong kind, WINDOW for an on-chip block other than local memory (R193). -/
def requireTentable (ea : Word) (g : Target) (n : Nat) : Op Unit := do
  awaitFlip g
  match g with
  | .mem _ _ _ | .tile _ _ _ => require ((← get).tentable g n) .class_ ea
  | _ => trap .window ea

def Target.key : Target → Nat
  | .mem _ k _ => k
  | _ => 0

def Target.leaf : Target → Word
  | .mem l _ _ => l
  | _ => 0

/-- A cell that becomes tentative under a call is recorded at the unit that serves it (R288). -/
def State.recordCell (s : State) (t k : Nat) : State :=
  match (s.thread t).callee with
  | none => s
  | some c =>
    let u := serverOf t
    match (s.server u).entry c.caller c.callId with
    | some e => s.setServer u ((s.server u).setEntry { e with cells := k :: e.cells })
    | none => s

/-- A cell becomes tentative, or takes another value, at its home (R211): its word is in no L1 afterwards, its line only in
the owner's core's. -/
def State.writeCell (s : State) (a : Agent) (leaf : Word) (k n x slice : Nat) (new : Bool) (ea : Word) : State :=
  let t := s.cur
  let s := s.unsealFor t k n
  if new then
    let s := (wordsOf k n).foldl (fun s w => s.recallWord none w) s
    let s := s.recallBlock (k / 64 * 64) 64 (if isCompute t then some (coreOf t) else none)
    let former := BitVec.ofNat 64 (leNat (s.homeBytes k n))
    let bad := s.poisoned k n
    let s := s.writeHome a (grainBytes leaf) k (leBytes n x)
    let s := { s with
      cells := ⟨k, n, former, a.id, a.epoch, false, slice, ea, false⟩ :: s.cells
      poison := if bad then .pair k :: s.poison else s.poison }
    { s.recordCell t k with agenda := s.agenda.filter (· != .tentFullTimeout t) }
  else s.writeHome a (grainBytes leaf) k (leBytes n x)

/-- TSTW and TSTD at the home (R210, R211): the data is written as NEW under the thread's owner identity. -/
def tentative (d b : BitVec 4) (w : BitVec 3) (i : BitVec 11) (n : Nat) : Op Unit :=
  issue .tentative [d, b] do
    let ea ← addressMD w b i n
    let x := lowBits (8 * n) (← rsUse d)
    let g ← locate ea n [.t, .w]
    refuseView ea g
    requireTentable ea g n
    match g with
    | .mem leaf k mixed =>
      awaitHome leaf k
      homeWaits leaf k n true
      let s ← get
      let a := (s.thread s.cur).agent s.cur
      let (c, sl) := s.lineHome leaf k
      let slice := c * 8 + sl
      let new ← match s.cellsAt k n with
        | [] =>
          if 128 ≤ s.pairUse slice then
            if (← me).expired then trap .tentFull ea
            modify fun s => if s.agenda.contains (.tentFullTimeout s.cur) then s else s.post [.tentFullTimeout s.cur]
            waitKeeping .pairBuffer
          pure true
        | [c] =>
          require (c.key == k && c.size == n && c.ownedBy a) .tentBusy ea
          pure false
        | _ => trap .tentBusy ea
      let x ← if mixed then do pure (leNat (← freeBytes n)) else pure x
      breaching k n <| strongly ea k n do modify fun s => s.writeCell a leaf k n x slice new ea
      modify fun s => s.count s.cur 31
      advance
    | _ => trap .class_ ea

def execTstw (d b : BitVec 4) (w : BitVec 3) (i : BitVec 11) (s : State) : Host.Outcome State Fault Refusal :=
  run (tentative d b w i 4) s

def execTstd (d b : BitVec 4) (w : BitVec 3) (i : BitVec 11) (s : State) : Host.Outcome State Fault Refusal :=
  run (tentative d b w i 8) s

/-- The cell that begins at an address under the thread's owner identity, after the checks of R212 and R213 and the home's
reply. -/
def cellNamed (ea : Word) : Op (Option Cell) := do
  let g ← locate ea 4 [.t, .w]
  let s ← get
  let cell := s.cellOf ((s.thread s.cur).agent s.cur) g.key
  requireTentable ea g (match cell with
    | some c => c.size
    | none => 4)
  match g with
  | .mem leaf k _ =>
    awaitHome leaf k
    if (← get).underTest (memLine k 4) then waitFor .memory
  | _ => pure ()
  return cell

def execCommit (a : BitVec 4) (s : State) : Host.Outcome State Fault Refusal :=
  run (issue .cell [a] do
    let ea ← rs a
    match ← cellNamed ea with
    | some c => strongly ea c.key c.size do modify fun s => (s.endCell c).count s.cur 31
    | none => pure ()
    advance) s

/-- RETRACT falls through only when it has restored the former value (R213), a write that a sealed region may hold back
(R174). -/
def execRetract (a : BitVec 4) (o : BitVec 14) (s : State) : Host.Outcome State Fault Refusal :=
  run (issue .tentative [a] do
    let target := (← me).pc + halfwords o
    let ea ← rs a
    match ← cellNamed ea with
    | none => jump target
    | some c =>
      if c.seen then
        strongly ea c.key c.size do modify fun s => (s.endCell c).count s.cur 31
        jump target
      else
        if (← get).sealBusy c.key c.size then waitFor .sealed
        breaching c.key c.size <| strongly ea c.key c.size do
          unsealing c.key c.size
          modify fun s => (s.restoreCell s.cur c).count s.cur 31
        advance) s

/-! ## SEAL (R173, R214) -/

/-- The runs of bytes that a virtual region consists of, page by page; a page that is not present is waited for. -/
def partsOf (ea : Word) : Nat → Nat → Op (List (Nat × Nat))
  | 0, _ => return []
  | fuel + 1, n => do
    if n = 0 then return []
    let here := min n (4096 - ea.toNat % 4096)
    let g ← locate ea 1 [.w]
    let s ← get
    match g with
    | .mem leaf k _ =>
      require (Leaf.cls leaf == 1 && packageOf k == s.package && (areaOf k == .firstTier || areaOf k == .secondTier)) .class_ ea
      return (k, here) :: (← partsOf (ea + BitVec.ofNat 64 here) fuel (n - here))
    | .tile _ _ _ => trap .class_ ea
    | _ => trap .window ea

def execSeal (a b : BitVec 4) (s : State) : Host.Outcome State Fault Refusal :=
  run (issue .seal [a, b] do
    let ea ← rs a
    let n ← rs b
    require (decide (ea.toNat % 64 = 0)) .align ea
    require (decide (n ≠ 0 ∧ n.toNat % 64 = 0 ∧ n.toNat ≤ 2 ^ 24)) .sinter ea
    let _ ← windowCheck ea 1 [.w]
    let _ ← windowCheck (ea + n - 1) 1 [.w]
    let parts ← partsOf ea 4098 n.toNat
    let s ← get
    if s.sealed.any fun r => r.parts == parts then releaseEvent
    else
      if s.sealed.any fun r => parts.any fun (k, m) => r.touches k m then trap .sinter ea
      let die := dieOf s.cur
      if 256 ≤ (s.sealed.filter fun r => r.die == die).length then trap .sinter ea
      releaseEvent
      modify fun s => { s with sealed := s.sealed ++ [⟨die, parts, 0⟩] }
    advance) s

/-! ## The merge log (R208, R209) -/

/-- What an entry makes of the old value. -/
def Dupd.apply (e : Dupd) (old : Nat) : Nat :=
  let n := if e.dword then 64 else 32
  let x := lowBits n e.val
  let f := if e.dword then Fmt.f64 else Fmt.f32
  match e.minor.toNat with
  | 0 => (old + x) % 2 ^ n
  | 1 => (f.add .rne (f.decode old) (f.decode x)).1
  | 2 => if signedOf n old ≤ signedOf n x then old else x
  | 3 => if signedOf n old ≤ signedOf n x then x else old
  | 4 => old &&& x
  | 5 => old ||| x
  | _ => old ^^^ x

/-- Entries in order of target address, and within one address in log order. -/
def insertEntry (e : Dupd) : List Dupd → List Dupd
  | [] => [e]
  | f :: t => if e.key < f.key then e :: f :: t else f :: insertEntry e t

def sortEntries (es : List Dupd) : List Dupd := es.foldl (fun t e => insertEntry e t) []

/-- The bytes in which entries overlap one another, or targets merged earlier, without being equal (R209). -/
def mixedBytes (es : List Dupd) (early : List (Nat × Nat)) : List Nat :=
  es.flatMap fun e => ((List.range e.size).map (e.key + ·)).filter fun k =>
    (es.map (fun f => (f.key, f.size)) ++ early).any fun f =>
      (f.1 != e.key || f.2 != e.size) && decide (f.1 ≤ k) && decide (k < f.1 + f.2)

/-- Some entry's application must wait (R174, R177, R327, R354). -/
def State.mergeBusy (s : State) (h : Nat) (mine : Dupd → Bool) : Bool :=
  ((s.home h).log.filter mine).any fun e => s.homeBusy e.key e.size

/-- One entry applied by the vent threads of home h as a strong read-modify-write (R170, R209).  Where it meets a strong
access of another size without order the bytes are undefined; under DBG it is not performed, and nothing can trap, since no
instruction asks for it (log 20). -/
def State.applyEntry (s : State) (h : Nat) (e : Dupd) : State :=
  let v := ventThread h 0
  let clash := s.strongClash v e.key e.size
  let dbg := match s.launch e.epoch with
    | some l => l.dbg
    | none => false
  if (!clash.isEmpty && dbg) || s.poisoned e.key e.size then s
  else
    let s := s.unsealAt e.key e.size
    let s := if s.hostBias e.key then s else s.dropHostLines e.key e.size
    let s := ((s.rmwHome ⟨v, e.epoch, v⟩ 32 e.key e.size fun old => some (e.apply old)).2).noteStrong v e.key e.size
    clash.foldl (fun (s : State) y => s.freeAt y.1 y.2) s

/-- The entries of a launch at a home applied, and taken out of the log (R209): with its PHASE, or early when the log is
full. -/
def State.merge (s : State) (h : Nat) (e : BitVec 16) (atPhase : Bool) : State :=
  let x := s.home h
  let mine := fun (d : Dupd) => d.epoch == e
  let es := x.log.filter mine
  let before := (x.early.filter fun y => y.2.2 == e).map fun y => (y.1, y.2.1)
  let now := (es.map fun d => (d.key, d.size, e)).eraseDups
  let s := s.setHome h { x with
    log := x.log.filter fun d => !mine d
    early := if atPhase then x.early.filter fun y => y.2.2 != e else (x.early ++ now).eraseDups }
  let v := ventThread h 0
  let s := (sortEntries es).foldl (fun (s : State) d => s.applyEntry h d) (s.acquire v)
  let s := (mixedBytes es before).foldl (fun (s : State) k => s.freeAt k 1) s
  s.release v

/-- The launches that have entries in a home's log. -/
def Home.epochs (x : Home) : List (BitVec 16) := (x.log.map (·.epoch)).eraseDups

/-- DUPD (R208): the entry joins its home's log; a full log is merged at once, the entries of every launch in it. -/
def dupd (b v : BitVec 4) (w : BitVec 3) (z : BitVec 1) (minor : BitVec 4) : Op Unit :=
  issue .dupd [b, v] do
    let dword := z == 1
    let n := if dword then 8 else 4
    let ea := effectiveAddress w (← rsUse b) 0
    let x ← rsUse v
    let g ← locate ea n [.a, .w]
    refuseView ea g
    awaitFlip g
    let s ← get
    match g with
    | .mem _ k mixed =>
      require (s.kindOf g == .coherent false && !s.hostBias k) .class_ ea
      awaitReply
      let h := keyChannel k
      if 16384 ≤ (s.home h).log.length then
        if (s.home h).log.any fun e => s.sealBusy e.key e.size then waitFor .sealed
        if s.mergeBusy h fun _ => true then waitFor .memory
        modify fun s => (s.home h).epochs.foldl (fun s e => s.merge h e false) s
      let x ← if mixed then do
          modify fun s => s.freeAt k n
          pure ((← freeBlock).setWidth 64)
        else pure x
      let e : Dupd := ⟨k, minor, dword, x, (s.thread s.cur).epoch⟩
      modify fun s => s.setHome h { s.home h with log := (s.home h).log ++ [e] }
      advance
    | .tile _ _ _ => trap .class_ ea
    | _ => trap .window ea

def execDupdAdd (b v : BitVec 4) (w : BitVec 3) (z : BitVec 1) (s : State) : Host.Outcome State Fault Refusal :=
  run (dupd b v w z 0) s

def execDupdFadd (b v : BitVec 4) (w : BitVec 3) (z : BitVec 1) (s : State) : Host.Outcome State Fault Refusal :=
  run (dupd b v w z 1) s

def execDupdMin (b v : BitVec 4) (w : BitVec 3) (z : BitVec 1) (s : State) : Host.Outcome State Fault Refusal :=
  run (dupd b v w z 2) s

def execDupdMax (b v : BitVec 4) (w : BitVec 3) (z : BitVec 1) (s : State) : Host.Outcome State Fault Refusal :=
  run (dupd b v w z 3) s

def execDupdAnd (b v : BitVec 4) (w : BitVec 3) (z : BitVec 1) (s : State) : Host.Outcome State Fault Refusal :=
  run (dupd b v w z 4) s

def execDupdOr (b v : BitVec 4) (w : BitVec 3) (z : BitVec 1) (s : State) : Host.Outcome State Fault Refusal :=
  run (dupd b v w z 5) s

def execDupdXor (b v : BitVec 4) (w : BitVec 3) (z : BitVec 1) (s : State) : Host.Outcome State Fault Refusal :=
  run (dupd b v w z 6) s

end Sys2Proof.Machine
end

