-- ==== Sys2Proof/Machine/Engine.lean ====
section
/-! DEFINITION.
Engine commands: their issue, their execution by the matrix and the copy engine, parking, completion, and the stream and
dependency instructions (R31, R103, R104, R171, R174, R215, R216, R244 to R255, R269 to R272).
-/

namespace Sys2Proof.Machine

/-! ## Issue (R104, R244) -/

/-- The matrix engine's or the copy engine's command. -/
def engineOf : Instr → EngineSel
  | .cpy .. => .copy
  | .scpy .. => .copy
  | _ => .matrix

/-- Whether a command carries ACQ, REL. -/
def Command.flags (c : Command) : Bool × Bool :=
  match c.op with
  | .mld _ _ _ _ _ _ _ _ _ a r _ => (a == 1, r == 1)
  | .mst _ _ _ _ _ _ _ _ _ a r _ => (a == 1, r == 1)
  | .cpy _ _ _ _ _ _ a r _ => (a == 1, r == 1)
  | .scpy _ _ _ _ _ _ a r _ => (a == 1, r == 1)
  | _ => (false, false)

/-- A release at system scope, whose reach includes other packages (R176). -/
def Command.systemRelease (c : Command) : Bool :=
  c.flags.2 && match c.op with
    | .mld _ _ _ _ _ _ _ _ _ _ _ o => o == 2
    | .mst _ _ _ _ _ _ _ _ _ _ _ o => o == 2
    | .cpy _ _ _ _ _ _ _ _ o => o == 2
    | .scpy _ _ _ _ _ _ _ _ o => o == 2
    | _ => false

/-- A command as it would be queued now: its snapshots (R244). -/
def snapshot (op : Instr) (dst src : Pattern) (vmeta : VecReg) (w : BitVec 4) (e : BitVec 2) (v : BitVec 1) : Op Command := do
  let s ← get
  let t ← me
  return { id := s.fresh, thread := s.cur, op := op, pc := t.pc, epoch := t.epoch
           deps := s.depsOf s.cur w.toNat, setd := if v = 1 then some e.toNat else none
           win := t.win, ext := t.ext.map (·.val), dst := dst, src := src, vmeta := vmeta, sealedAt := none, waited := none }

/-- The queue takes the command, or the thread waits (R31, R104); with .s it then waits for the completion. -/
def enqueue (c : Command) (sy : BitVec 1) : Op Unit := do
  let s ← get
  let g := (s.core (coreOf s.cur)).engine (engineOf c.op)
  if 2 ≤ g.queue.length then waitFor .engine
  match c.setd with
  | some n => if (← me).dep.getD n 0 = 15 then waitFor .engine
  | none => pure ()
  modify fun s => { s with fresh := s.fresh + 1 }
  modMe (·.raise c.setd)
  modCore fun k => k.setEngine (engineOf c.op) { k.engine (engineOf c.op) with queue := (k.engine (engineOf c.op)).queue ++ [c] }
  modCore (·.orderIssue c c.flags.1)
  modify fun s => s.kick (coreOf s.cur)
  advance
  if sy = 1 then
    modMe fun t => { t with sync := some c.id }
    enterWait .command

/-- Every slot and accumulator that a command names is held, looked at in ascending number (R243, log 24). -/
def requireNames (c : Command) : Op Unit := ((List.range 40).filter c.names.contains).forM requireClaim

/-- The pattern in a stream slot. -/
def patternIn (q : BitVec 2) : Op Pattern := do return (← me).str[q.toNat]'(by have := q.isLt; omega)

/-- The configuration checks of the engine commands (R241, R244). -/
def formatCheck (two : Bool) : Op Unit := do
  let e0 := (← me).ext[0].val
  require (mfmtOk (mfmtOf e0)) .illegal
  if mfmtOf e0 = 1 then require (b8dOk (b8dOf e0) && (!two || b8dOk (b8dTarget e0))) .illegal

/-- MLD and MST (R247).  R247 calls X, Z and PAIR unused fields in the forms that do not name them, and R244 has the ILLEGAL of
R247 come after the remote check: they are looked at after that check, Y[2] when the word is decoded, which is the model's
choice (log 53). -/
def issueTransfer (op : Instr) (x : BitVec 5) (c p : BitVec 1) (q : BitVec 2) (z : BitVec 3) (w : BitVec 4) (e : BitVec 2)
    (v sy : BitVec 1) (o : BitVec 2) : Op Unit :=
  issue .matrix [] (do
      let r ← patternIn q
      let cmd ← snapshot op r r 0 w e v
      requireNames cmd
      require (r.elements * r.bytes == 1024 * cmd.names.length) .stream
      enqueue cmd sy)
    (priv := do
      require (scopeOk o) .illegal
      if c = 1 then
        require (x == 0) .illegal
        require (p == 0 || z.toNat % 2 == 0) .illegal
      else require (z == 0 && p == 0) .illegal)

def execMld (x : BitVec 5) (c p : BitVec 1) (q : BitVec 2) (z : BitVec 3) (w : BitVec 4) (e : BitVec 2) (v sy a r : BitVec 1)
    (o : BitVec 2) (s : State) : Host.Outcome State Fault Refusal :=
  run (issueTransfer (.mld x c p q z w e v sy a r o) x c p q z w e v sy o) s

def execMst (x : BitVec 5) (c p : BitVec 1) (q : BitVec 2) (z : BitVec 3) (w : BitVec 4) (e : BitVec 2) (v sy a r : BitVec 1)
    (o : BitVec 2) (s : State) : Host.Outcome State Fault Refusal :=
  run (issueTransfer (.mst x c p q z w e v sy a r o) x c p q z w e v sy o) s

def execMma (x y : BitVec 5) (z : BitVec 3) (w : BitVec 4) (e : BitVec 2) (v sy c : BitVec 1) (s : State) :
    Host.Outcome State Fault Refusal :=
  run (issue .matrix [] (do
      let cmd ← snapshot (.mma x y z w e v sy c) 0 0 0 w e v
      requireNames cmd
      enqueue cmd sy)
    (priv := do
      formatCheck true
      let t ← me
      let m := mfmtOf t.ext[0].val
      require (decide (kCount m t.ext[1].val ≤ mfmtFull m) && (m != 5 || z.toNat % 2 == 0)) .illegal)) s

/-- The lowest byte of 64 that has other than four bits set (R255). -/
def badMeta (v : VecReg) : Option Nat := (List.range 64).find? fun i => (bitsIn 8 (v.toNat / 2 ^ (8 * i) % 256)).length != 4

def execMmas (x y : BitVec 5) (z : BitVec 3) (w : BitVec 4) (e : BitVec 2) (v sy c : BitVec 1) (m : BitVec 3) (s : State) :
    Host.Outcome State Fault Refusal :=
  run (issue .matrix [] (do
      let cmd ← snapshot (.mmas x y z w e v sy c m) 0 0 0 w e v
      requireNames cmd
      let md ← readVecPart m 8
      match badMeta md with
      | some i => trap .spmeta (BitVec.ofNat 64 i)
      | none => enqueue { cmd with vmeta := md } sy)
    (priv := do
      formatCheck true
      require (decide (mfmtOf (← me).ext[0].val ≤ 1)) .illegal)) s

def execMcmp (x y : BitVec 5) (w : BitVec 4) (e : BitVec 2) (v sy : BitVec 1) (m : BitVec 3) (s : State) :
    Host.Outcome State Fault Refusal :=
  run (issue .matrix [] (do
      let cmd ← snapshot (.mcmp x y w e v sy m) 0 0 0 w e v
      requireNames cmd
      awaitMeta m
      enqueue cmd sy)
    (priv := do
      formatCheck false
      require (decide (mfmtOf (← me).ext[0].val ≤ 1)) .illegal)) s

def execMzero (z : BitVec 3) (w : BitVec 4) (e : BitVec 2) (v sy : BitVec 1) (s : State) : Host.Outcome State Fault Refusal :=
  run (issue .matrix [] do
    let cmd ← snapshot (.mzero z w e v sy) 0 0 0 w e v
    requireNames cmd
    enqueue cmd sy) s

/-- CPY (R271). -/
def execCpy (x y : BitVec 2) (w : BitVec 4) (e : BitVec 2) (v sy a r : BitVec 1) (o : BitVec 2) (s : State) :
    Host.Outcome State Fault Refusal :=
  run (issue .copy [] (do
      let d ← patternIn x
      let q ← patternIn y
      let cmd ← snapshot (.cpy x y w e v sy a r o) d q 0 w e v
      require (q.elements * q.bytes == d.elements * d.bytes) .stream
      enqueue cmd sy)
    (priv := require (scopeOk o) .illegal)) s

/-! ## SCPY (R215, R216) -/

/-- The addresses of all elements of a pattern without an indirect level. -/
def Pattern.addresses (q : Pattern) : List Word := (List.range q.elements).map fun n => q.address n none

/-- The lowest and the highest byte of a pattern's elements. -/
def Pattern.extent (q : Pattern) : Option (Word × Word) :=
  match q.addresses with
  | [] => none
  | x :: xs =>
    let lo := xs.foldl (fun (a : Word) b => if b.toNat < a.toNat then b else a) x
    let hi := xs.foldl (fun (a : Word) b => if a.toNat < b.toNat then b else a) x
    some (lo, hi + BitVec.ofNat 64 (q.bytes - 1))

/-- The sealed region that holds the byte at an address; SINTER where there is none, also for an address that leads nowhere or
to a page that is not present, for which SCPY asks no service (R215, R216). -/
def sealedByte (ea : Word) : Op Sinter := do
  let t ← me
  let s ← get
  match s.reach t.win s.cur t.epoch ea 1 [] with
  | (.ok (.mem _ k _), s') =>
    set s'
    match s'.sealsAt k 1 with
    | x :: _ => return x
    | [] => trap .sinter ea
  | _ => trap .sinter ea

/-- Every destination element of an SCPY lies in a tile-memory partition, an operand slot or an accumulator. -/
def scpyDest (q : Pattern) : List Word → Op Unit
  | [] => return ()
  | ea :: t => do
    match ← windowCheck ea q.bytes [.w] with
    | .chip a =>
      match chipBlock a with
      | some (.tile u _ _) => require (isCompute u) .window ea
      | some (.slots _ _) => pure ()
      | some (.accs _ _) => pure ()
      | _ => trap .window ea
    | .virt _ => trap .window ea
    scpyDest q t

/-- The one sealed region that holds the lowest and the highest byte of a source pattern (R215); none where it has no element. -/
def sealedSource (q : Pattern) : Op (Option Sinter) := do
  match q.extent with
  | none => return none
  | some (lo, hi) =>
    let a ← sealedByte lo
    let b ← sealedByte hi
    require (a == b) .sinter lo
    return some a

/-- The command of an SCPY that has passed its checks; the copy count of its region is one more, or the thread waits
(R173, R216). -/
def holdSeal (cmd : Command) (region : Option Sinter) : Op Command := do
  match region with
  | none => return cmd
  | some a =>
    if a.copies = 65535 then waitFor .copies
    modify fun s => { s with sealed := s.sealed.map fun x => if x == a then { x with copies := x.copies + 1 } else x }
    return { cmd with sealedAt := a.first }

def execScpy (x y : BitVec 2) (w : BitVec 4) (e : BitVec 2) (v sy a r : BitVec 1) (o : BitVec 2) (s : State) :
    Host.Outcome State Fault Refusal :=
  run (issue .sinter [] (do
      let d ← patternIn x
      let q ← patternIn y
      let cmd ← snapshot (.scpy x y w e v sy a r o) d q 0 w e v
      require (d.esize == q.esize && d.elements == q.elements) .stream
      require (decide (q.elements * q.bytes ≤ 32768)) .stream
      require (!q.indEn) .stream
      let region ← sealedSource q
      if d.indEn then
        (List.range d.elements).forM fun n => do
          let ea ← elementAddress d n
          scpyDest d [ea]
      else scpyDest d d.addresses
      enqueue (← holdSeal cmd region) sy)
    (priv := require (scopeOk o) .illegal)) s

/-! ## Element accesses of an engine (R171, R174, R194, R244, R247, R271) -/

/-- Why an element access does not go on. -/
inductive Halt where
  | cause (c : Cause) (tval : Word)
  | page (leafAt page : Nat)
  | wait
  deriving DecidableEq, Repr

/-- An operation run in a thread's name, its stop told apart. -/
def State.tryAs {α : Type} (s : State) (t : Nat) (x : Op α) : Except Halt (α × State) :=
  match x { s with cur := t } with
  | .ok a s' => .ok (a, { s' with cur := s.cur })
  | .error (.trap c v _ _) _ => .error (.cause c v)
  | .error (.wait _ _) _ => .error .wait

/-- Where an element lies, and a number that no other byte of the machine has; a CPY also writes register files (R23). -/
def State.engineReach (s : State) (c : Command) (ea : Word) (n : Nat) (write : Bool) : Except Halt (Target × Nat × State) :=
  let loc := fun (g : Target) => match g, checkIn c.win ea n [] with
    | .mem _ k _, _ => k
    | _, .ok (.chip a) => chipKey a
    | _, _ => 0
  let r := s.reach c.win c.thread c.epoch ea n [if write then .w else .r] c.waited
  match r with
  | (.ok g, s') => .ok (g, loc g, s')
  | (.page l p, _) => .error (.page l p)
  | (.cause v tv, s') =>
    match write && engineOf c.op == .copy, checkIn c.win ea n [.w] with
    | true, .ok (.chip a) =>
      match chipBlock a with
      | some (.file t off) => if s.inWfw t then .ok (.file t off, chipKey a, s') else .error (.cause v tv)
      | _ => .error (.cause v tv)
    | _, _ => .error (.cause v tv)

/-- Memory at its home is in transition, leased to another package, under test, armed, or, for a write, sealed with copies
outstanding. -/
def State.engineWaits (s : State) (k n : Nat) (write : Bool) : Bool :=
  s.inTransition k || s.underTest (memLine k n) || s.host.given.any (fun l => overlaps l.key l.bytes k n) || s.isArmed k n || (write && s.sealBusy k n)

/-- Who performs a command's element accesses: its thread, whose own monitors an engine write fires too (R170, R204). -/
def Command.agent (c : Command) : Agent := ⟨c.thread, c.epoch, homeSelf⟩

/-- One element read at its home. -/
def State.engineRead (s : State) (c : Command) (ea : Word) (n : Nat) : Except Halt (List Byte × Nat × State) :=
  match s.engineReach c ea n false with
  | .error h => .error h
  | .ok (.mem leaf k mixed, loc, s) =>
    if areaOf k == .view then
      match s.readView k n with
      | some (bs, s') => if s.viewPoisoned k n then .error (.cause .poison ea) else .ok (bs, loc, s')
      | none => .error (.cause .window ea)
    else if s.engineWaits k n false then .error .wait
    else if s.poisoned k n then .error (.cause .poison ea)
    else
      let logged := s.logged k n
      let s := (s.breach logged).settleHost leaf k n false
      let s := if packageOf k != s.package then s.recallLeases k n else s
      let (bs, s) := s.readHome c.agent k n
      let s := s.breach logged
      if mixed then .ok (blockGet (Config.freeBits s.fresh) 0 n, loc, { s with fresh := s.fresh + 1 }) else .ok (bs, loc, s)
  | .ok (g, loc, s) =>
    match s.tryAs c.thread (readTarget ea n g (some (c.id, c.deps))) with
    | .ok (bs, s) => .ok (bs, loc, s)
    | .error h => .error h

/-- One element written at its home. -/
def State.engineWrite (s : State) (c : Command) (ea : Word) (bs : List Byte) : Except Halt (Nat × State) :=
  let n := bs.length
  match s.engineReach c ea n true with
  | .error h => .error h
  | .ok (.mem leaf k mixed, loc, s) =>
    if areaOf k == .view then .error (.cause .window ea)
    else if s.engineWaits k n true then .error .wait
    else
      let logged := s.logged k n
      let s := ((s.breach logged).unsealFor c.thread k n).settleHost leaf k n true
      let bs := if mixed then blockGet (Config.freeBits s.fresh) 0 n else bs
      let s := if mixed then { s with fresh := s.fresh + 1 } else s
      let foreign := packageOf k != s.package
      let s := if foreign then s.recallLeases k n else s
      let s := (s.writeHome c.agent (if foreign then 32 else grainBytes leaf) k bs).breach logged
      .ok (loc, if foreign then s.setThread c.thread { s.thread c.thread with window := some s.windowNow } else s)
  | .ok (.tile u off a, loc, s) =>
    if s.underTest fun p => (dwordsOf off n).any fun d => p == .tile u d then .error .wait
    else .ok (loc, s.writeTile homeSelf u off a bs)
  | .ok (g, loc, s) =>
    match s.tryAs c.thread (writeTarget ea bs g (some (c.id, c.deps))) with
    | .ok (_, s) => .ok (loc, s)
    | .error h => .error h

/-- The address of an element, its index read at its home (R106). -/
def State.engineAddress (s : State) (c : Command) (q : Pattern) (n : Nat) : Except Halt (Word × State) :=
  match q.indexAddress n with
  | none => .ok (q.address n none, s)
  | some a =>
    match s.engineRead c a q.indBytes with
    | .ok (bs, _, s) => .ok (q.address n (some (q.extendIndex (leNat bs))), s)
    | .error h => .error h

/-- A transfer of the line of an element counted, once for elements next to each other (R319). -/
def State.countLine (s : State) (last : Option Nat) (loc n : Nat) : State :=
  if last = some (loc / 64) then s else s.requested 7 loc n

/-- Where a run of elements stands: bytes, the number of elements, and what halted it. -/
structure Gathered where
  bytes : List Byte
  count : Nat
  halt  : Option Halt
  deriving Repr

/-- Elements n to n + count − 1 read in order, as far as they can be; `last` is the line read last. -/
def State.gather (s : State) (c : Command) (q : Pattern) (last : Option Nat) : Nat → Nat → Gathered × State
  | _, 0 => (⟨[], 0, none⟩, s)
  | n, count + 1 =>
    match s.engineAddress c q n with
    | .error h => (⟨[], 0, some h⟩, s)
    | .ok (ea, s1) =>
      match s1.engineRead c ea q.bytes with
      | .error h => (⟨[], 0, some h⟩, s)
      | .ok (bs, loc, s2) =>
        let (r, s3) := State.gather (s2.countLine last loc q.bytes) c q (some (loc / 64)) (n + 1) count
        (⟨bs ++ r.bytes, r.count + 1, r.halt⟩, s3)

/-- Where the elements of a source pattern lie, as far as they can be found: all of them, whichever a resumed command still
reads (R271). -/
def State.sourceSpans (s : State) (c : Command) (q : Pattern) : List (Nat × Nat) :=
  (List.range q.elements).filterMap fun n =>
    match s.engineAddress c q n with
    | .ok (ea, s) => match s.engineReach c ea q.bytes false with
      | .ok (_, loc, _) => some (loc, q.bytes)
      | .error _ => none
    | .error _ => none

/-- Bytes of a destination element that are source bytes too are undefined (R271). -/
def undefinedBytes (locs : List (Nat × Nat)) (loc : Nat) (free bs : List Byte) : List Byte :=
  (List.range bs.length).map fun i =>
    if locs.any fun l => decide (l.1 ≤ loc + i) && decide (loc + i < l.1 + l.2) then free.getD i 0 else bs.getD i 0

/-- Elements n to n + count − 1 written in order from bytes, as far as bytes and addresses allow: how many were, and the halt. -/
def State.scatter (s : State) (c : Command) (q : Pattern) (locs : List (Nat × Nat)) (last : Option Nat) :
    Nat → Nat → List Byte → Nat × Option Halt × State
  | n, 0, _ => (n, none, s)
  | n, count + 1, bs =>
    if bs.length < q.bytes then (n, none, s)
    else
      match s.engineAddress c q n with
      | .error h => (n, some h, s)
      | .ok (ea, s1) =>
        match s1.engineReach c ea q.bytes true with
        | .error h => (n, some h, s)
        | .ok (_, loc, s2) =>
          let touches := locs.any fun l => overlaps l.1 l.2 loc q.bytes
          let data := bs.take q.bytes
          let data := if touches then undefinedBytes locs loc (blockGet (Config.freeBits s2.fresh) 0 q.bytes) data else data
          let s2 := if touches then { s2 with fresh := s2.fresh + 1 } else s2
          match s2.engineWrite c ea data with
          | .error h => (n, some h, s)
          | .ok (_, s3) =>
            State.scatter (s3.countLine last loc q.bytes) c q locs (some (loc / 64)) (n + 1) count (bs.drop q.bytes)

/-! ## Parking (R246, R248, R272) -/

/-- What a command leaves when it stops short, or none. -/
inductive Ended where
  /-- completed -/
  | done
  /-- it cannot begin yet -/
  | later
  /-- parked with a cause or for a page -/
  | parked (h : Halt)
  deriving DecidableEq, Repr

/-- The command and every later one of its thread on the engine are parked; the others go on (R246). -/
def State.park (s : State) (k : Nat) (e : EngineSel) (c : Command) (cause : Option Deferred) (page : Option Nat) : State :=
  let g := (s.core k).engine e
  let mine := g.queue.filter fun q => q.thread == c.thread && q.id != c.id
  let g := { g with
    running := none
    queue := g.queue.filter fun q => q.thread != c.thread
    parked := g.parked ++ ⟨c, cause, page, false⟩ :: mine.map fun q => ⟨q, none, none, false⟩ }
  State.wake (s.setCore k ((s.core k).setEngine e g)) fun t w => coreOf t == k && endsWait w

/-- The pc of a parked command, as tcause names it: a window from which commands are fetched must have LIMIT < 2^46, and where it
has not, PPC is undefined (R10, R333, log 11). -/
def Command.parkedPc (c : Command) (free : Word) : Word :=
  if Win.limit (c.win.getD (c.pc.toNat / 2 ^ 61) 0) < 2 ^ 46 then c.pc else free

/-- A command that has halted is parked; its thread traps, or waits for the page, at its next instruction boundary. -/
def State.parkFor (s : State) (k : Nat) (e : EngineSel) (c : Command) (h : Halt) : State :=
  match h with
  | .cause v tval =>
    let d : Deferred := ⟨v, tval, some (c.parkedPc ((Config.freeBits s.fresh).setWidth 64)), some c.id⟩
    (State.park { s with fresh := s.fresh + 1 } k e c (some d) none).defer c.thread d
  | .page leafAt page =>
    let s := (s.park k e { c with waited := some leafAt } none (some leafAt)).askPage c.thread c.epoch leafAt page
    let t := s.thread c.thread
    s.setThread c.thread { t with pages := if t.pages.contains leafAt then t.pages else t.pages ++ [leafAt] }
  | .wait => s

/-- The record in e6 is VALID with a given SRC (R103). -/
def recordIn (x : Word) (copy : Bool) : Bool := x.getLsbD 63 && x.getLsbD 62 == copy

/-- A progress word (R103). -/
def progressWord (copy : Bool) (n : Nat) : Word := BitVec.ofNat 64 (2 ^ 63 + (if copy then 2 ^ 62 else 0) + n % 2 ^ 32)

/-- A halted transfer: the record made, or nothing at all while e6 holds another command's record (R248, R272). -/
def State.halted (before after : State) (c : Command) (copy : Bool) (n n7 : Nat) (h : Halt) : Ended × State :=
  let e6 := ((before.thread c.thread).extReg 6).val
  if h = .wait ∨ recordIn e6 (!copy) then (.later, before)
  else
    let t := { (after.thread c.thread).setExt 6 (Reg.of (progressWord copy n)) with record := some c.id }
    (.parked h, after.setThread c.thread (if copy then t.setExt 7 (Reg.of (progressWord true n7)) else t))

/-! ## MLD and MST (R247, R248) -/

/-- The resource, and the byte of it, that byte i of an image is (R247). -/
def imageSource (rs : List Nat) (i : Nat) : Nat × Nat :=
  match rs with
  | [a, b] => (if i % 8 < 4 then a else b, i / 8 * 4 + i % 4)
  | _ => (rs.headD 0, i)

/-- The resources of a transfer, in image order. -/
def imageBytes (k : Core) (rs : List Nat) : List Byte :=
  match rs with
  | [a, b] => (List.range 256).flatMap fun m => blockGet (k.resource a) (4 * m) 4 ++ blockGet (k.resource b) (4 * m) 4
  | _ => blockGet (k.resource (rs.headD 0)) 0 1024

/-- Whole image rows written into the resources from byte i of the image. -/
def putImage (k : Core) (rs : List Nat) (i : Nat) (bs : List Byte) : Core :=
  match rs with
  | [a, b] =>
    let img := (imageBytes k rs).take i ++ bs ++ (imageBytes k rs).drop (i + bs.length)
    let half := fun (o : Nat) => (List.range 256).flatMap fun m => (img.drop (8 * m + o)).take 4
    (k.setResource a (blockPut 0 0 (half 0))).setResource b (blockPut 0 0 (half 4))
  | _ => k.setResource (rs.headD 0) (blockPut (k.resource (rs.headD 0)) i bs)

/-- The accumulators of a set lose their predictions and reports. -/
def clearChecks (k : Core) (rs : List Nat) : Core :=
  rs.foldl (fun (k : Core) r => if r < 32 then k else k.setAcc (r - 32) { k.acc (r - 32) with checks := Checks.none, report := none }) k

/-- What a completed transfer clears, as the pseudocode of R247 and R271 has it: e6 where its SRC is the command's own, and e7
for a CPY; a record of the other kind stays (log 52). -/
def Thread.transferOver (t : Thread) (copy : Bool) : Thread :=
  let t := if (t.extReg 6).val.getLsbD 62 == copy then { t.setExt 6 Reg.zero with record := none } else t
  if copy then t.setExt 7 Reg.zero else t

def State.transferOver (s : State) (c : Command) (copy : Bool) : State := s.setThread c.thread ((s.thread c.thread).transferOver copy)

/-- Some byte of an image from i to i + n is poisoned. -/
def State.imagePoisoned (s : State) (k : Nat) (rs : List Nat) (i n : Nat) : Bool := (List.range n).any fun j =>
  let y := imageSource rs (i + j)
  s.poison.contains (resourcePlace k y.1 (y.2 / 8))

/-- An MLD whose elements have been read up to n: the image rows that are complete are written, of those elements the ones
from n0 on (R247, R248). -/
def State.loadImage (s : State) (k : Nat) (rs : List Nat) (es n0 n : Nat) (bs : List Byte) : State :=
  let last := n * es / 64 * 64
  let bs := bs.take (last - n0 * es)
  (s.setCore k (putImage (clearChecks (s.core k) rs) rs (n0 * es) bs))

/-- MLD and MST executed (R247, R248).  An MST that meets a poisoned element in its image halts with that element's address
(R263). -/
def State.runTransfer (s : State) (k : Nat) (c : Command) (load : Bool) : Ended × State :=
  let e6 := ((s.thread c.thread).extReg 6).val
  let took := recordIn e6 false
  let n0 := if took then e6.toNat % 2 ^ 32 else 0
  let q : Pattern := c.src
  let rs := c.names
  let row := 64 / q.bytes
  if load then
    let (g, s1) := s.gather c q none n0 (q.elements - n0)
    let n := n0 + g.count
    let s1 := s1.loadImage k rs q.bytes n0 n g.bytes
    let s1 := s1.count c.thread 12 (n / row - n0 / row)
    match g.halt with
    | none => (.done, s1.transferOver c false)
    | some h => State.halted s s1 c false (n / row * row) 0 h
  else match (List.range (q.elements - n0)).find? fun i => s.imagePoisoned k rs ((n0 + i) * q.bytes) q.bytes with
    | some i => match s.engineAddress c q (n0 + i) with
      | .ok (ea, s1) => State.halted s s1 c false (n0 / row * row) 0 (.cause .poison ea)
      | .error h => State.halted s s c false (n0 / row * row) 0 h
    | none =>
      let img := imageBytes (s.core k) rs
      let (n, h, s1) := s.scatter c q [] none n0 (q.elements - n0) (img.drop (n0 * q.bytes))
      let s1 := s1.count c.thread 12 ((n - n0) / row)
      match h with
      | none => (.done, s1.transferOver c false)
      | some h => State.halted s s1 c false (n / row * row) 0 h

/-! ## CPY and SCPY (R216, R271, R272) -/

def State.runCopy (s : State) (c : Command) : Ended × State :=
  let t := s.thread c.thread
  let took := recordIn (t.extReg 6).val true
  let d0 := if took then (t.extReg 6).val.toNat % 2 ^ 32 else 0
  let t0 := if took then (t.extReg 7).val.toNat % 2 ^ 32 else 0
  let qs : Pattern := c.src
  let qd : Pattern := c.dst
  let (g, s1) := s.gather c qs none t0 (qs.elements - t0)
  let bytes := g.bytes.drop (d0 * qd.bytes - t0 * qs.bytes)
  let (d, h, s2) := s1.scatter c qd (s.sourceSpans c qs) none d0 (qd.elements - d0) bytes
  let s2 := s2.count c.thread 13 (d - d0)
  match h, g.halt with
  | some h, _ => State.halted s s2 c true d (d * qd.bytes / qs.bytes) h
  | none, some h => State.halted s s2 c true d (d * qd.bytes / qs.bytes) h
  | none, none => (.done, s2.transferOver c true)

/-- SCPY takes no page fault (R216): where the indexes of its destination lie in a page that is not present, the page is asked
for and the engine holds its queue until it is there. -/
def State.runScpy (s : State) (c : Command) : Ended × State :=
  let qs : Pattern := c.src
  let qd : Pattern := c.dst
  let (g, s1) := s.gather c qs none 0 qs.elements
  let (d, h, s2) := s1.scatter c qd [] none 0 qd.elements g.bytes
  let s2 := s2.count c.thread 13 d
  match h.orElse (fun _ => g.halt) with
  | some .wait => (.later, s)
  | some (.page leafAt page) => (.later, s.askPage c.thread c.epoch leafAt page)
  | some h => (.parked h, s2)
  | none =>
    (.done, match c.sealedAt with
      | some key => s2.lowerSeal key
      | none => s2)

/-! ## MZERO, MCMP, MMA, MMAS (R249 to R255) -/

def State.runMzero (s : State) (k : Nat) (z : Nat) : State :=
  let x := s.core k
  s.setCore k (x.setAcc z { x.acc z with bits := 0, checks := ⟨.zero, Vector.replicate 16 0, Vector.replicate 16 0⟩, report := none })

/-- Rank of a dense element: NaN above infinities above finite magnitudes (R254). -/
def outranks (m : Nat) (b8d : BitVec 5) (x y : Nat) : Bool :=
  let u := operandNum m b8d x
  let v := operandNum m b8d y
  let mag := fun (n : Num) => match n with
    | .fin _ a e => Num.fin false a e
    | .inf _ => .inf false
    | n => n
  if v.isNan then false else if u.isNan then true else (mag v).lt (mag u)

/-- The columns of a group of eight that rank among the first four, in ascending order. -/
def keptColumns (m : Nat) (b8d : BitVec 5) (xs : List Nat) : List Nat :=
  (List.range 8).filter fun i =>
    let x := xs.getD i 0
    let before := (List.range 8).filter fun j =>
      let y := xs.getD j 0
      outranks m b8d y x || (!outranks m b8d x y && decide (j < i))
    decide (before.length < 4)

def State.runMcmp (s : State) (k : Nat) (c : Command) (x y v : Nat) : State :=
  let m := mfmtOf c.ext[0]
  let b8d := b8dOf c.ext[0]
  let dense := (s.core k).slot y
  let group := fun i g => (List.range 8).map fun b => slotElement dense 1 i (8 * g + b)
  let kept := fun i g => keptColumns m b8d (group i g)
  let row := fun i => ofLanes 8 ((List.range 4).flatMap fun g => (kept i g).map fun b => (group i g).getD b 0)
  let mask := fun i g => (kept i g).foldl (fun a b => a + 2 ^ b) 0
  let s := s.setCore k ((s.core k).setSlot x (BitVec.ofNat 8192 (ofLanes 512 ((List.range 16).map row))))
  let s := s.count c.thread 11 16
  s.setThread c.thread ((s.thread c.thread).setVec (BitVec.ofNat 3 v)
    (BitVec.ofNat 1024 (ofLanes 8 ((List.range 64).map fun i => mask (i / 4) (i % 4)))))

/-- A' of R255: the kept values of each row, spread by the metadata. -/
def spreadRows (m : Nat) (b8d : BitVec 5) (vals : Block) (md : VecReg) : Rows :=
  (List.range 16).map fun i => (List.range 32).map fun j =>
    let byte := md.toNat / 2 ^ (8 * (4 * i + j / 8)) % 256
    let set := bitsIn 8 byte
    if byte.testBit (j % 8) then operandNum m b8d (slotElement vals 1 i (4 * (j / 8) + (set.filter (· < j % 8)).length))
    else .fin false 0 0

/-- One execution of a multiplication: the new elements, the new predictions, and how many rows and columns exceed. -/
def multiplyChecked (m : Nat) (cs : List Nat) (a b : Rows) (k : Nat) (old : Checks) (zero : Bool) (e2 : Word) :
    List Nat × Checks × Bool :=
  let c := multiply m cs a b
  let p := nextChecks m (startChecks m cs old zero) a b k
  let r := residues m c p
  (c, ⟨ckOf m, words16 p.1, words16 p.2⟩, (exceeding m r.1 e2).isEmpty && (exceeding m r.2 e2).isEmpty)

/-- Engine cycles of one execution (R245). -/
def mmaCycles (m : Nat) : Nat := if m = 4 then 64 else if m = 5 then 128 else 32
def mmaEvent (m : Nat) : Nat := if m ≤ 1 then 5 else if m ≤ 3 then 6 else if m = 4 then 7 else 8

/-- n failed checks: an event record for each, and the counters of mestat (R251, R252). -/
def State.failedChecks (s : State) (t : Nat) (z : Nat) : Nat → State
  | 0 => s
  | n + 1 => State.failedChecks (s.logicEvent t 4 Cause.mck.code (BitVec.ofNat 64 (256 * z))) t z n

/-- A saturating 32-bit count raised. -/
def satAdd (x : BitVec 32) (n : Nat) : BitVec 32 := BitVec.ofNat 32 (min (x.toNat + n) (2 ^ 32 - 1))

def State.runMultiply (s : State) (k : Nat) (c : Command) (m z kc : Nat) (a b : Rows) (ck sparse : Bool) : Ended × State :=
  let x := s.core k
  let pair := m == 5
  let cs := x.elements z pair
  let cost := if sparse then 8 else mmaCycles m
  let event := if sparse then 9 else mmaEvent m
  let put := fun (x : Core) (ns : List Nat) (chk : Checks) =>
    let x := x.setAcc z { x.acc z with bits := accFrom ns false, checks := chk, report := none }
    if pair then x.setAcc (z + 1) { x.acc (z + 1) with bits := accFrom ns true, checks := Checks.none, report := none } else x
  if ck then
    let shadow := fun (x : Core) n => x.setAcc n { x.acc n with shadow := ((x.acc n).bits, (x.acc n).checks), report := none }
    let x := shadow x z
    let x := if pair then shadow x (z + 1) else x
    let zero := (x.acc z).checks.state == .zero && (!pair || (x.acc (z + 1)).checks.state == .zero)
    let (ns, chk, ok) := multiplyChecked m cs a b kc (x.acc z).checks zero c.ext[2]
    let cl := s.cluster (clusterOf k)
    if ok then
      (.done, ((s.setCore k (put x ns chk)).count c.thread event cost).count c.thread 10 8)
    else
      let n := cl.mcRetry.toNat
      let s := s.setCore k x
      let s := s.failedChecks c.thread z (n + 1)
      let s := s.setCluster (clusterOf k) { s.cluster (clusterOf k) with replays := satAdd cl.replays n, mcks := satAdd cl.mcks 1 }
      let s := (s.count c.thread event (cost * (n + 1))).count c.thread 10 (8 * (n + 1))
      (.parked (.cause .mck (BitVec.ofNat 64 (256 * z))), s)
  else (.done, (s.setCore k (put x (multiply m cs a b) Checks.none)).count c.thread event cost)

/-! ## The engines -/

/-- The operand memory that an MMA, MMAS or MCMP reads holds a poisoned dword (R353). -/
def State.readsPoisoned (s : State) (k : Nat) (c : Command) : Bool :=
  c.reads.any fun y => s.poisonedAt (resourcePlace k y.1) y.2.1 y.2.2

/-- What a completed command has written whole loses its poison: resources, and the metadata register of an MCMP (R353). -/
def State.cleanse (s : State) (k : Nat) (c : Command) : State :=
  let vmeta := match c.op with
    | .mcmp _ _ _ _ _ _ m => some m.toNat
    | _ => none
  { s with poison := s.poison.filter fun p => match p with
      | .slot u n _ => !(u == k && c.writes.contains n)
      | .acc u n _ => !(u == k && c.writes.contains (32 + n))
      | .vec t n _ => !(t == c.thread && vmeta == some n)
      | _ => true }

/-- The bytes of operand memory in which a command meets accesses through the on-chip map without order (R25). -/
def Core.clashSpans (k : Core) (c : Command) : List (Nat × Nat × Nat) :=
  c.spans.flatMap fun y =>
    (k.touches.filter fun e => !e.matrix && e.res == y.2.1 && (e.write || y.1) && overlaps e.first e.len y.2.2.1 y.2.2.2
        && !e.before (.cmd c.id) c.deps).map fun e =>
      (e.res, max e.first y.2.2.1, min (e.first + e.len) (y.2.2.1 + y.2.2.2) - max e.first y.2.2.1)

/-- Bytes of operand memory become undefined (R9, R25, log 11). -/
def State.freeSpans (s : State) (k : Nat) (l : List (Nat × Nat × Nat)) : State :=
  l.foldl (fun (s : State) y =>
    let x := s.core k
    { s.setCore k (x.setResource y.1 (blockPut (x.resource y.1) y.2.1 (blockGet (Config.freeBits s.fresh) 0 y.2.2))) with
      fresh := s.fresh + 1 }) s

/-- A command's own effect. -/
def State.perform (s : State) (k : Nat) (c : Command) : Ended × State :=
  let m := mfmtOf c.ext[0]
  match c.op with
  | .mld .. => s.runTransfer k c true
  | .mst .. => s.runTransfer k c false
  | .cpy .. => s.runCopy c
  | .scpy .. => s.runScpy c
  | .mzero z _ _ _ _ => (.done, s.runMzero k z.toNat)
  | .mcmp x y _ _ _ _ v => (.done, s.runMcmp k c x.toNat y.toNat v.toNat)
  | .mma x y z _ _ _ _ ck =>
    let n := kCount m c.ext[1]
    s.runMultiply k c m z.toNat n (operandRows m (b8dOf c.ext[0]) ((s.core k).slot x.toNat) n)
      (operandRows m (b8dTarget c.ext[0]) ((s.core k).slot y.toNat) n) (ck == 1) false
  | .mmas x y z _ _ _ _ ck _ =>
    s.runMultiply k c m z.toNat 32 (spreadRows m (b8dOf c.ext[0]) ((s.core k).slot x.toNat) c.vmeta)
      (operandRows m (b8dTarget c.ext[0]) ((s.core k).slot y.toNat) 32) (ck == 1) true
  | _ => (.done, s)

/-- A command executed: bytes that it and an on-chip access touch without order are undefined for it and after it (R25). -/
def State.execute (s : State) (k : Nat) (c : Command) : Ended × State :=
  let multiplies := match c.op with
    | .mma .. => true
    | .mmas .. => true
    | .mcmp .. => true
    | _ => false
  if multiplies && s.readsPoisoned k c then
    (.parked (.cause .poison (Config.freeBits s.fresh |>.setWidth 64)), { s with fresh := s.fresh + 1 })
  else
    let clash := (s.core k).clashSpans c
    match (s.freeSpans k clash).perform k c with
    | (.later, s1) => (.later, s1)
    | (.parked h, s1) => (.parked h, s1.freeSpans k clash)
    | (.done, s1) =>
      let s1 := (s1.freeSpans k clash).cleanse k c
      (.done, s1.setCore k ((s1.core k).noteCommand c))

/-- A slot or accumulator that a command names is under self-test (R354). -/
def State.namesTested (s : State) (k : Nat) (c : Command) : Bool := s.underTest fun p => match p with
  | .slot u n _ => u == k && c.names.contains n
  | .acc u n _ => u == k && c.names.contains (32 + n)
  | _ => false

/-- The head of a queue begins once the commands it waits for have completed (R104, R244); one of a launch whose switch time has
come is saved as it is queued (R262, R339). -/
def State.beginCommand (s : State) (k : Nat) (e : EngineSel) : State :=
  let x := s.core k
  let g := x.engine e
  if x.killed || x.testing then s
  else match g.running, g.queue with
    | none, c :: rest =>
      if s.offline c.epoch || s.pastTau c.epoch || s.namesTested k c || c.deps.any s.outstanding then s
      else
        let s1 := if c.flags.1 then s.releaseL1 k else s
        match s1.execute k c with
        | (.later, s2) => s2
        | (.parked h, s2) => State.kickOne (s2.parkFor k e c h) k e
        | (.done, s2) =>
          let y := s2.core k
          let s2 := s2.setCore k (y.setEngine e { y.engine e with running := some c, queue := rest, since := s2.gtime })
          State.post (s2.wake fun t w => coreOf t == k && w == .engine) [.engineCommandComplete k e]
    | _, _ => s

def execEngineCommandBegin (core : Nat) (eng : EngineSel) (s : State) : Host.Outcome State Fault Refusal :=
  happen (·.beginCommand core eng) s

/-- The release of a command with REL, before it completes (R171): what is ordered before its completion is so before whoever
observes it, its thread at once where it waited with .s, otherwise through a dependency slot; a refused lease traps the
thread (R178). -/
def State.releaseCommand (s : State) (k : Nat) (c : Command) : State :=
  if !c.flags.2 then s
  else
    let waited := (s.thread c.thread).sync == some c.id
    let x := s.core k
    let x := if waited then x.orderRelease c (.thread c.thread) else x
    let x := match c.setd with
      | some n => x.orderRelease c (.slot c.thread n)
      | none => x
    let s := s.setCore k x
    let s := if waited then s.acquire c.thread else s
    let t := s.thread c.thread
    let t := match c.setd with
      | some n => { t with relDone := t.relDone ||| 1 <<< n }
      | none => t
    match t.lease with
    | some a => (s.setThread c.thread { t with lease := none }).defer c.thread ⟨.leaseExpired, a, none, none⟩
    | none => s.setThread c.thread t

/-- A release at system scope completes no earlier than the second window after that of its thread's latest write to another
package's memory (R176). -/
def State.windowHolds (s : State) (t : Nat) : Bool :=
  match (s.thread t).window with
  | some n => decide (s.windowNow < n + 2)
  | none => false

/-- The completion of the running command: what observes it with REL acquires (R171).  While a window boundary holds it, it is
looked at again. -/
def State.completeCommand (s : State) (k : Nat) (e : EngineSel) : State :=
  let x := s.core k
  match (x.engine e).running with
  | none => s
  | some c =>
    if c.systemRelease && s.windowHolds c.thread then s.post [.engineCommandComplete k e]
    else ((s.setCore k (x.setEngine e { x.engine e with running := none })).releaseCommand k c).commandOver c

def execEngineCommandComplete (core : Nat) (eng : EngineSel) (s : State) : Host.Outcome State Fault Refusal :=
  happen (·.completeCommand core eng) s

/-- A transfer that has not completed 4,096 cycles after the switch time stops at a boundary: all it has performed is in its
record, and it heads the saved queue (R248, R272).  A command of another kind completes. -/
def State.checkpoint (s : State) (k : Nat) (e : EngineSel) : State :=
  let x := s.core k
  match (x.engine e).running with
  | none => s
  | some c =>
    match c.recordSrc with
    | none => s
    | some copy =>
      let t := s.thread c.thread
      if !s.offline c.epoch || (t.extReg 6).val.getLsbD 63 then s
      else
        let q : Pattern := if copy then c.dst else c.src
        let t := { t.setExt 6 (Reg.of (progressWord copy q.elements)) with record := some c.id }
        let t := if copy then t.setExt 7 (Reg.of (progressWord true (Pattern.elements c.src))) else t
        (s.setThread c.thread t).setCore k (x.setEngine e { x.engine e with running := none, queue := c :: (x.engine e).queue })

def execEngineCheckpointTimeout (core : Nat) (eng : EngineSel) (s : State) : Host.Outcome State Fault Refusal :=
  happen (·.checkpoint core eng) s

/-! ## STRM and WAITD (R269, R270) -/

/-- Dwords read one after another. -/
def readDwords (a : Word) (n : Nat) (confine : Bool := true) : Op (List Word) :=
  match n with
  | 0 => return []
  | n + 1 => do
    let x ← readMem a 8 [.r] confine
    return BitVec.ofNat 64 x :: (← readDwords (a + 8) n confine)

/-- The record that dwords make. -/
def recordOf (xs : List Word) : BitVec 512 := BitVec.ofNat 512 (ofLanes 64 (xs.map BitVec.toNat))

def execStrm (n : BitVec 2) (a : BitVec 4) (s : State) : Host.Outcome State Fault Refusal :=
  run (issue .copy [a] do
    let p := recordOf (← readDwords (← rs a) 8)
    require (Pattern.acceptable p) .stream
    modMe fun t => { t with str := t.str.set n.toNat p n.isLt }
    advance) s

def execWaitd (k : BitVec 4) (s : State) : Host.Outcome State Fault Refusal :=
  run (issue .copy [] do
    let t ← me
    if (bitsIn 4 k.toNat).any fun n => t.dep.getD n 0 != 0 then waitFor .counts
    modCore fun x => (bitsIn 4 k.toNat).foldl (fun (x : Core) n => x.orderObserved (s.cur) n) x
    if t.relDone &&& k != 0 then
      acquireEvent
      modMe fun t => { t with relDone := t.relDone &&& ~~~ k }
    advance) s

end Sys2Proof.Machine
end

