-- ==== Sys2Proof/Machine/Order.lean ====
section
/-! DEFINITION.
Fences, maintenance, monitors and barriers of major 0x14 (R200 to R207).
-/

namespace Sys2Proof.Machine

/-! ## Fences (R201) -/

def execFenceAcq (s : State) : Host.Outcome State Fault Refusal :=
  run (issue .fence [] do
    acquireEvent
    advance) s

def execFenceRel (s : State) : Host.Outcome State Fault Refusal :=
  run (issue .fence [] do
    releaseFence
    advance) s

def execFenceAll (s : State) : Host.Outcome State Fault Refusal :=
  run (issue .fence [] do
    releaseFence true
    advance) s

/-! ## FLUSH and INVAL (R202) -/

/-- Translation in one go for a thread's own access to many pages; a page that is not present is waited for (R313). -/
def translateNow (ea : Word) (rights : List Right) : Op (Option (Word × Nat)) := do
  match ← windowCheck ea 1 rights with
  | .chip _ => return none
  | .virt va =>
    let s ← get
    let (v, s) := s.translate (pagerOf s.cur) (s.thread s.cur).epoch va rights
    set s
    match v with
    | .range => trap .range ea
    | .denied => trap .window ea
    | .absent leafAt page =>
      if (← me).remote then trap .remoteFault ea
      match (← get).lostPage (← me).epoch leafAt page (← me).waitedPage with
      | some c => trap c ea
      | none => pure ()
      modify fun s => s.askPage s.cur (s.thread s.cur).epoch leafAt page
      waitKeeping (.page leafAt)
    | .ok leaf k _ =>
      if !(← get).present k then trap .physAbsent ea
      return some (leaf, k)

/-- What FLUSH or INVAL does to whole lines of 64 bytes in one page of memory; INVAL of NC lines drops them from the L2 home
too. -/
def State.maintain (s : State) (c : Nat) (drop : Bool) (leaf : Word) (k n : Nat) : State :=
  let a := k / 64 * 64
  let m := (k + n + 63) / 64 * 64 - a
  if areaOf k == .view then if drop then s.dropDecoded (localOf a) m else s
  else if packageOf k != s.package then s
  else if Leaf.cls leaf == 0 then
    let s := s.flushL1 c a m
    if drop then (s.invalL1 c a m).dropSectors a m else s
  else if drop then s.invalL1 c a m else s.flushL1 c a m

/-- The covered bytes page by page. -/
def maintainFrom (drop : Bool) (ea : Word) : Nat → Nat → Op Unit
  | 0, _ => pure ()
  | fuel + 1, n => do
    if n = 0 then return
    let here := min n (4096 - ea.toNat % 4096)
    match ← translateNow ea [.r] with
    | none => pure ()
    | some (leaf, k) => modify fun s => s.maintain (coreOf s.cur) drop leaf k here
    maintainFrom drop (ea + BitVec.ofNat 64 here) fuel (n - here)

def maintain (a b : BitVec 4) (drop : Bool) : Op Unit :=
  issue .maintain [a, b] do
    let ea ← rs a
    let n ← rs b
    require (decide (n.toNat ≤ 2 ^ 24)) .window n
    if n ≠ 0 then
      let _ ← windowCheck ea 1 [.r]
      let _ ← windowCheck (ea + n - 1) 1 [.r]
      maintainFrom drop ea 4098 n.toNat
    advance

def execFlush (a b : BitVec 4) (s : State) : Host.Outcome State Fault Refusal :=
  run (maintain a b false) s

def execInval (a b : BitVec 4) (s : State) : Host.Outcome State Fault Refusal :=
  run (maintain a b true) s

/-! ## Monitors (R203 to R205) -/

/-- The key that monitors of a dword watch. -/
def Target.watchKey : Target → Nat
  | .mem _ k _ => k
  | .tile _ _ a => chipKey a
  | _ => 0

/-- Memory on which a monitor fires at once: NC, and another package's (R203). -/
def Kind.firesAtOnce : Kind → Bool
  | .nonCoherent | .foreign => true
  | _ => false

def execMarm (d a : BitVec 4) (n : BitVec 2) (s : State) : Host.Outcome State Fault Refusal :=
  run (issue .fence [d, a] do
    let ea ← rs a
    let g ← locate ea 8 [.r]
    requireKind ea Kind.atomic g
    let x ← strongRead ea 8 g
    let once := Kind.firesAtOnce ((← get).kindOf g)
    modMe fun t => { t with mon := t.mon.set n.toNat ⟨g.watchKey, !once, once⟩ n.isLt }
    acquireEvent
    wr d (BitVec.ofNat 64 x)
    advance) s

/-- The latches as a number (R205). -/
def Thread.latches (t : Thread) : Nat :=
  ((List.range 4).filter fun i => (t.mon.toList.map (·.latch)).getD i false).foldl (fun x i => x + 2 ^ i) 0

/-- MWAIT writes the latches and clears them; a time limit that has not passed is dropped with the wait. -/
def endMwait (d : BitVec 4) (x : Nat) : Op Unit := do
  modMe fun t => { t with mon := t.mon.map fun m => { m with latch := false } }
  modify fun s => { s with agenda := s.agenda.filter (· != .mwaitTimeout s.cur) }
  wr d (BitVec.ofNat 64 x)
  advance

def execMwait (d a : BitVec 4) (s : State) : Host.Outcome State Fault Refusal :=
  run (issue .fence [d, a] do
    let t ← me
    if t.latches ≠ 0 then endMwait d t.latches
    else if t.expired || !t.mon.toList.any (·.armed) then endMwait d 0
    else
      if (← rs a) ≠ 0 then
        modify fun s => if s.agenda.contains (.mwaitTimeout s.cur) then s else s.post [.mwaitTimeout s.cur]
      waitKeeping .monitor) s

def execMdis (k : BitVec 4) (s : State) : Host.Outcome State Fault Refusal :=
  run (issue .fence [] do
    modMe fun t => { t with mon := t.mon.mapIdx fun i m => if k.getLsbD i then { m with armed := false, latch := false } else m }
    advance) s

/-! ## Barriers (R206, R207) -/

def barExpected (b : Nat) : Nat := b % 2 ^ 16
def barPending (b : Nat) : Nat := b / 2 ^ 16 % 2 ^ 16
def barPhase (b : Nat) : Nat := b / 2 ^ 32 % 2 ^ 32

/-- A barrier that cannot take an arrival. -/
def barBroken (b : Nat) : Bool := barPending b == 0 || barExpected b == 0 || decide (barExpected b < barPending b)

/-- The dword after an arrival, which leaves EXPECTED as it is or one less (R207). -/
def barArrive (b : Nat) (leaves : Bool) : Nat :=
  let e := if leaves then barExpected b - 1 else barExpected b
  let p := barPending b - 1
  if p = 0 then e + e * 2 ^ 16 + (barPhase b + 1) % 2 ^ 32 * 2 ^ 32
  else e + p * 2 ^ 16 + barPhase b * 2 ^ 32

def arrive (d a : BitVec 4) (leaves : Bool) : Op Unit :=
  issue .barrier [d, a] do
    let ea ← rs a
    let g ← locate ea 8 [.a, .w]
    refuseView ea g
    requireKind ea Kind.barrier g
    releaseEvent
    let b ← rmwTarget ea 8 false (fun b => if barBroken b then none else some (barArrive b leaves)) g
    if barBroken b then trap .barrier ea
    wr d (BitVec.ofNat 64 (barPhase b))
    advance

def execBara (d a : BitVec 4) (s : State) : Host.Outcome State Fault Refusal :=
  run (arrive d a false) s

def execBard (d a : BitVec 4) (s : State) : Host.Outcome State Fault Refusal :=
  run (arrive d a true) s

def execBarw (a b : BitVec 4) (s : State) : Host.Outcome State Fault Refusal :=
  run (issue .barrier [a, b] do
    let ea ← rs a
    let g ← locate ea 8 [.r]
    requireKind ea Kind.barrier g
    let x ← strongRead ea 8 g
    if barPhase x = lowBits 32 (← rs b) then waitKeeping (.barrier g.watchKey)
    acquireEvent
    advance) s

end Sys2Proof.Machine
end

