-- ==== Sys2Proof/Machine/Near.lean ====
section
/-! DEFINITION.
Compute regions, the reduction trees under the stacks, and the phase sequencer (R273 to R279, R296).
-/

namespace Sys2Proof.Machine

/-- A leaf whose frame lies in the channel-local alias of some package's first tier (R16, R17). -/
def channelFrame (leaf : Word) : Bool :=
  let a := Leaf.frame leaf * 4096 % 2 ^ 44
  decide (0x8000000000 ≤ a) && decide (a < 0x10000000000)

/-- It lies in this package's. -/
def channelLocal (leaf : Word) : Bool := !Leaf.remote leaf && channelFrame leaf

/-- The key of an address that translates to the channel-local alias, and whether its page's entries differ (R302); NEARMEM where
it does not. -/
def nearKey (ea : Word) (size : Nat) (right : Right) (tval : Word) : Op (Nat × Bool) := do
  match ← locate ea size [right] with
  | .mem leaf k mixed =>
    require (channelLocal leaf) .nearmem tval
    return (k, mixed)
  | _ => trap .nearmem tval

/-! ## CARM (R273, R274) -/

/-- The window_checks on the first and on the last byte or element, before anything else is checked (R273 to R275). -/
def rangeChecks (a b : Word) (size : Nat) (right : Right) : Op Unit := do
  let _ ← windowCheck a size [right]
  let _ ← windowCheck b size [right]

/-- Every page of a region is DC or SC, and as far from the first frame as it lies from the first page.  A page in host bias
traps with CLASS, as R325 says of CARM by name; R273 counts device bias among what it answers with NEARMEM (log 54). -/
def regionPages (ea tval : Word) (k : Nat) : Nat → Op Unit
  | 0 => return ()
  | n + 1 => do
    match ← translateNow ea [.w] with
    | some (leaf, k') =>
      let s ← get
      require (channelLocal leaf && k' == k && (Leaf.cls leaf == 1 || Leaf.cls leaf == 2)) .nearmem tval
      if s.inTransition k then waitFor .memory
      require (!s.hostBias k) .class_ tval
    | none => trap .nearmem tval
    regionPages (ea + 4096) tval (k + 4096) n

/-- Every cached copy of a region gone, those of hosts too, its dirty words and lines at the banks (R273, R322). -/
def State.uncache (s : State) (k n : Nat) : State :=
  let s := (s.recallBlock k n).dropHostLines k n
  s.dropSectors k n

def execCarmArm (a b : BitVec 4) (s : State) : Host.Outcome State Fault Refusal :=
  run (issue .near [a, b] do
    let ea ← rs a
    let n ← rsUse b
    rangeChecks ea (ea + n - 1) 1 .w
    let (k, _) ← nearKey ea 1 .w ea
    let (last, _) ← nearKey (ea + n - 1) 1 .w ea
    require (decide (ea.toNat % 4096 = 0 ∧ n.toNat % 4096 = 0 ∧ 4096 ≤ n.toNat ∧ n.toNat ≤ 2 ^ 30)) .nearmem ea
    require (packageOf k == (← get).package && last == k + n.toNat - 1 && keyChannel last == keyChannel k) .nearmem ea
    regionPages ea ea k (n.toNat / 4096)
    let s ← get
    let h := keyChannel k
    let x := s.home h
    require (!s.isArmed k n.toNat && decide (x.armed.length < 16) && (s.cellsAt k n.toNat).isEmpty) .nearmem ea
    releaseEvent
    modify fun s => (s.uncache k n.toNat).setHome h { s.home h with armed := (s.home h).armed ++ [(k, n.toNat)] }
    acquireEvent
    advance) s

/-! ## The reduction (R275, R276) -/

/-- Element formats of FMT: bytes, and the floating format. -/
def nredBytes (f : Nat) : Nat := if f = 0 ∨ f = 2 then 4 else 8
def nredFmt (f : Nat) : Fmt := if f = 2 then .f32 else .f64

/-- A sum whose exact zero is +0. -/
def treeAdd (f : Fmt) (x y : Nat) : Nat :=
  let r := (f.add .rne (f.decode x) (f.decode y)).1
  if r = f.signBit true then 0 else r

/-- A node of the sum and of the maximum. -/
def nredNode (op f x y : Nat) : Nat :=
  let n := 8 * nredBytes f
  match op, decide (f ≤ 1) with
  | 0, true => (x + y) % 2 ^ n
  | 0, false => treeAdd (nredFmt f) x y
  | _, true => if signedOf n x < signedOf n y then y else x
  | _, false => ((nredFmt f).greatest x y).1

/-- log2 e in binary32. -/
def log2e : Nat := 0x3FB8AA3B

/-- A node of the scaled-exponential sum (R276). -/
def scaledNode (x y : Nat × Nat) : Nat × Nat :=
  let f := Fmt.f32
  let m := (f.greatest x.1 y.1).1
  let factor := fun (a : Nat) =>
    if (f.decode a).eq (f.decode m) then 0x3F800000
    else
      let d := (f.sub .rne (f.decode a) (f.decode m)).1
      (f.exp2 .rne (f.decode (f.mul .rne (f.decode d) (f.decode log2e)).1)).1
  let part := fun (a : Nat × Nat) => (f.mul .rne (f.decode a.2) (f.decode (factor a.1))).1
  (m, (f.add .rne (f.decode (part x)) (f.decode (part y))).1)

/-- The running value of a bank group. -/
def foldGroup {α : Type} (node : α → α → α) : List α → Option α
  | [] => none
  | x :: xs => some (xs.foldl node x)

/-- A node with absent inputs. -/
def pairUp {α : Type} (node : α → α → α) : Option α → Option α → Option α
  | some x, some y => some (node x y)
  | some x, none => some x
  | none, y => y

/-- Bank groups folded and combined in pairs, pairs of pairs, and the root. -/
def bankTree {α : Type} (node : α → α → α) (xs : List (Nat × α)) : Option α :=
  let g := fun (b : Nat) => foldGroup node ((xs.filter fun x => x.1 == b).map (·.2))
  pairUp node (pairUp node (pairUp node (g 0) (g 1)) (pairUp node (g 2) (g 3)))
    (pairUp node (pairUp node (g 4) (g 5)) (pairUp node (g 6) (g 7)))

/-- The elements of a range with their bank groups, in ascending address order. -/
def State.bankElements (s : State) (k b : Nat) (count : Nat) : List (Nat × Nat) :=
  (List.range count).map fun i => (keyOffset (k + b * i) / 64 % 8, leNat (s.mem.readN (k + b * i) b))

/-- What the root writes to s_d. -/
def State.nredValue (s : State) (r : Nred) : Word :=
  let xs := s.bankElements r.key (nredBytes r.fmt) r.count
  if r.op = 2 then
    let p := (bankTree scaledNode (xs.map fun x => (x.1, (x.2, 0x3F800000)))).getD (0, 0)
    BitVec.ofNat 64 (p.1 + 2 ^ 32 * p.2)
  else
    let x := (bankTree (nredNode r.op r.fmt) xs).getD 0
    if r.fmt = 0 then extendS 32 x else BitVec.ofNat 64 x

/-- The fields of e3. -/
def nredOp (e3 : Word) : Nat := e3.toNat % 4
def nredFormat (e3 : Word) : Nat := e3.toNat / 4 % 8

/-- A departed NRED of the thread has not yet written its result (R298, R381). -/
def State.departed (s : State) (t : Nat) : Bool := s.homes.any fun (_, h) => h.nreds.any fun r => r.thread == t && s.nredReady r

/-- The NREDs of a thread that have not departed are given up with its work (R381). -/
def State.dropNreds (s : State) (t : Nat) : State :=
  let gone := s.homes.flatMap fun (_, h) => h.nreds.filter fun r => r.thread == t && !s.nredReady r
  let x := gone.foldl (fun (x : Thread) r => { x.lower r.setd with
    nreds := x.nreds - 1, pend := x.pend &&& ~~~((1 : BitVec 16) <<< r.dst.toNat) }) (s.thread t)
  { s.setThread t x with homes := s.homes.map fun (h, y) => (h, { y with nreds := y.nreds.filter fun r => !gone.contains r }) }

def execNred (d a w : BitVec 4) (e : BitVec 2) (v sy h r : BitVec 1) (o : BitVec 2) (s : State) :
    Host.Outcome State Fault Refusal :=
  run (issue .near [d, a] (do
      let t ← me
      let e3 := t.ext[3].val
      require (nredOp e3 != 3 && decide (nredFormat e3 ≤ 3) && (nredOp e3 != 2 || nredFormat e3 == 2)) .illegal
      let e3 ← extUse 3
      let count := (← extUse 4).toNat % 2 ^ 32
      let ea ← rs a
      let f := nredFormat e3
      let n := nredBytes f
      require (decide (1 ≤ count ∧ count ≤ 2 ^ 24)) .nearmem ea
      let last := ea + BitVec.ofNat 64 (n * (count - 1))
      rangeChecks ea last n .r
      let (k, m) ← nearKey ea n .r ea
      let (k', m') ← nearKey last n .r ea
      require (packageOf k == (← get).package && k' == k + n * (count - 1) && keyChannel k' == keyChannel k) .nearmem ea
      let s ← get
      if 4 ≤ t.nreds then waitFor .engine
      if v = 1 ∧ t.dep.getD e.toNat 0 = 15 then waitFor .engine
      let setd := if v = 1 then some e.toNat else none
      let q : Nred := ⟨s.fresh, s.cur, d, nredOp e3, f, count, k, ea, h == 1, r == 1, s.depsOf s.cur w.toNat, setd, sy == 1, o.toNat,
        (s.pager (pagerOf s.cur)).gen, m || m'⟩
      let home := keyChannel k
      modify fun s => { s.setHome home { s.home home with nreds := (s.home home).nreds ++ [q] } with fresh := s.fresh + 1 }
      if s.nredReady q then modify fun s => s.post [.nredResult home ((s.home home).nreds.length - 1)]
      modMe fun t => { (t.raise setd) with nreds := t.nreds + 1, pend := t.pend ||| 1 <<< d.toNat }
      advance
      if sy = 1 then
        modMe fun t => { t with sync := some q.id }
        enterWait .nred)
    (priv := do
      require (scopeOk o) .illegal
      if isVent (← self) then require (w == 0 && e == 0 && v == 0) .illegal)) s

/-- An NRED is over: its mark and its count fall, and what waits for it goes on (R104, R135, R275); with REL it is a release,
which a refused lease traps (R178). -/
def State.nredOver (s : State) (h : Nat) (r : Nred) (value : Option Word) : State :=
  let x := s.home h
  let s := s.setHome h { x with nreds := x.nreds.filter (·.id != r.id) }
  let t := (s.thread r.thread).lower r.setd
  let t := match value with
    | some v => t.setReg r.dst (Reg.of v)
    | none => t
  let mine := t.sync == some r.id
  let t := { t with
    pend := t.pend &&& ~~~((1 : BitVec 16) <<< r.dst.toNat)
    nreds := t.nreds - 1
    sync := if mine then none else t.sync
    status := if mine && t.status == .wait .nred then .ready else t.status
    since := if mine then none else t.since
    begun := if mine then none else t.begun
    relDone := match r.setd with
      | some n => if r.rel then t.relDone ||| 1 <<< n else t.relDone
      | none => t.relDone }
  let s := s.setThread r.thread t
  let s := if mine && r.rel then s.acquire r.thread else s
  let s := s.wake fun u w => u == r.thread && (endsWait w || w == .mark)
  let s := s.kick (coreOf r.thread)
  let s := match r.rel, (s.thread r.thread).lease with
    | true, some a => (s.setThread r.thread { s.thread r.thread with lease := none }).defer r.thread ⟨.leaseExpired, a, none, none⟩
    | _, _ => s
  s.departNreds r.id

/-- The bytes of an NRED's elements. -/
def Nred.size (r : Nred) : Nat := nredBytes r.fmt * r.count

/-- Its reads wait at the banks for a word leased to another package (R177), for a page in transition (R327), or for storage
under test (R354). -/
def State.nredBlocked (s : State) (r : Nred) : Bool :=
  (s.host.given.any fun l => overlaps l.key l.bytes r.key r.size) || (s.host.flips.any fun f => f.step != 0 && overlaps (f.page * 4096) 4096 r.key r.size)
    || s.underTest (memLine r.key r.size)

/-- A departed NRED performed at its channel (R275, R276): what hosts hold of its lines comes back first (R322); elements that
are targets of the merge log (R209), or lie under entries that differ (R302), make the result undefined. -/
def State.performNred (s : State) (h : Nat) (r : Nred) : State :=
  let n := r.size
  let s := if r.acq && isCompute r.thread then s.releaseL1 (coreOf r.thread) else s
  if !(s.home h).armed.any fun (b, m) => decide (b ≤ r.key) && decide (r.key + n ≤ b + m) then
    (s.nredOver h r none).defer r.thread ⟨.nearmem, r.ea, none, none⟩
  else if s.poisoned r.key n then (s.nredOver h r none).defer r.thread ⟨.poison, r.ea, none, none⟩
  else
    let logged := s.logged r.key n
    let s := ((s.breach logged).dropHostLines r.key n).requested (dieOf r.thread) r.key n
    let s := s.observe ⟨r.thread, (s.thread r.thread).epoch, r.thread⟩ r.key n
    let value := if r.mixed then (Config.freeBits s.fresh).setWidth 64 else s.nredValue r
    (State.breach { s with fresh := s.fresh + 1 } logged).nredOver h r (some value)

/-- A departed NRED comes to its end; a release at system scope waits for its window boundary (R176). -/
def State.endNred (s : State) (h : Nat) (r : Nred) : State :=
  if s.nredBlocked r || r.rel && r.scope == 2 && s.windowHolds r.thread then s.post [.nredResult h 0] else s.performNred h r

/-- The n-th NRED of a home, if it has departed; otherwise the first that has. -/
def State.nredResult (s : State) (h n : Nat) : State :=
  let q := (s.home h).nreds
  match q[min n (q.length - 1)]? with
  | none => s
  | some r =>
    if s.nredReady r then s.endNred h r
    else match q.find? s.nredReady with
      | some r => s.endNred h r
      | none => s

def execNredResult (home n : Nat) (s : State) : Host.Outcome State Fault Refusal := happen (·.nredResult home n) s

/-- BOUND_NS expires during a burst (R279): the burst replays, and no value changes. -/
def State.nredYield (s : State) (h : Nat) : State :=
  let x := s.home h
  if x.nreds.any s.nredReady then s.setHome h { x with replays := satAdd x.replays 1 } else s

def execNredYieldTimeout (home : Nat) (s : State) : Host.Outcome State Fault Refusal := happen (·.nredYield home) s

/-! ## DFENCE and disarming (R274, R277) -/

/-- Every NRED that has reached a channel finishes its reads. -/
def State.drainNreds (s : State) (h : Nat) : State := ((s.home h).nreds.filter s.nredReady).foldl (fun (s : State) r => s.performNred h r) s

/-- DFENCE waits until they can (R277). -/
def awaitNreds (h : Nat) : Op Unit := do
  let s ← get
  if ((s.home h).nreds.filter s.nredReady).any s.nredBlocked then waitFor .memory

def execDfence (a : BitVec 4) (s : State) : Host.Outcome State Fault Refusal :=
  run (issue .near [a] do
    let ea ← rs a
    let (k, _) ← nearKey ea 1 .r ea
    require (packageOf k == (← get).package) .nearmem ea
    awaitNreds (keyChannel k)
    modify fun s => s.drainNreds (keyChannel k)
    advance) s

/-- A region disarmed (R274): accesses that wait for it go on. -/
def State.disarm (s : State) (h k n : Nat) : State :=
  let s := s.drainNreds h
  let x := s.home h
  let s := s.setHome h { x with armed := x.armed.filter (· != (k, n)) }
  State.kickAll (s.wake fun _ w => w == .armed)

def execCarmDisarm (a b : BitVec 4) (s : State) : Host.Outcome State Fault Refusal :=
  run (issue .near [a, b] do
    let ea ← rs a
    let n ← rsUse b
    rangeChecks ea (ea + n - 1) 1 .w
    let (k, _) ← nearKey ea 1 .w ea
    let s ← get
    require (packageOf k == s.package && (s.home (keyChannel k)).armed.contains (k, n.toNat)) .nearmem ea
    awaitNreds (keyChannel k)
    modify fun s => s.disarm (keyChannel k) k n.toNat
    advance) s

/-! ## PHASE (R181, R209, R296) -/

def execPhase (s : State) : Host.Outcome State Fault Refusal :=
  run (issue .phase [] do
    let id ← self
    advance
    enterWait .phase
    modify fun s =>
      let s := { s with net := { s.net with phases := s.net.phases ++ [id] } }
      if s.agenda.contains .phaseRequest then s else s.post [.phaseRequest]) s

/-- The launch's phase counter on every die is one more (R181). -/
def State.bumpPhase (s : State) (slot : Nat) : State :=
  { s with phases := (List.range 4).foldl (fun p d => Tab.put p (d * 16 + slot) (Tab.get 0 p (d * 16 + slot) + 1)) s.phases }

/-- The sequencer serves the oldest request (R296): every home merges the launch's entries, the counters rise, and the PHASE
completes with an acquire.  While an entry's target is sealed with copies outstanding, it waits (R174). -/
def State.phaseRequest (s : State) : State :=
  match s.net.phases with
  | [] => s
  | t :: rest =>
    let e := (s.thread t).epoch
    if s.homes.any fun (y : Nat × Home) => s.mergeBusy y.1 fun d => d.epoch == e then s.post [.phaseRequest]
    else
      let s := s.homes.foldl (fun (s : State) (y : Nat × Home) => s.merge y.1 e true) s
      let s := match s.launch e with
        | some l => s.bumpPhase l.slot
        | none => s
      let s := State.acquire { s with net := { s.net with phases := rest } } t
      let x := s.thread t
      let s := if x.status = .wait .phase then s.setThread t { x with status := .ready, since := none, begun := none } else s
      if rest.isEmpty then s else s.post [.phaseRequest]

def execPhaseRequest (s : State) : Host.Outcome State Fault Refusal := happen State.phaseRequest s

end Sys2Proof.Machine
end

