-- ==== Sys2Proof/Machine/Tasks.lean ====
section
/-! DEFINITION.
Tasks, children, migration and messages (R280 to R285, R292 to R295, R381).
-/

namespace Sys2Proof.Machine

/-! ## SPAWN and QCFG (R42, R43, R280, R281) -/

/-- The home of an anchor: its pseudo-channel where the leaf gives the channel-local alias, of this package or of another, or its
memory port's queue (R16, R42). -/
def State.anchorHome (s : State) (leaf : Word) (k : Nat) : Option Nat :=
  if packageOf k != s.package then
    if areaOf k == .firstTier && channelFrame leaf then some (1024 + packageOf k * 512 + keyChannel k) else none
  else match areaOf k with
    | .firstTier => if channelLocal leaf then homeOf k else none
    | .secondTier => homeOf k
    | _ => none

/-- An anchor's key and home, reached with a right; TASK where it has none. -/
def anchorAt (ea : Word) (right : Right) (tval : Word) (confine : Bool := true) : Op (Nat × Nat) := do
  match ← locate ea 1 [right] confine with
  | .mem leaf k _ =>
    match (← get).anchorHome leaf k with
    | some h => return (k, h)
    | none => trap .task tval
  | _ => trap .task tval

/-- The device-virtual address of an effective address, as the windows say. -/
def virtualOf (wins : Vector (BitVec 128) 8) (ea : Word) : Nat :=
  Win.base (wins[ea.toNat / 2 ^ 61]'(by have := ea.isLt; omega)) + ea.toNat % 2 ^ 61

/-- Entries that a home's queue holds (R43). -/
def queueSize (h : Nat) : Nat := if h < 512 then 256 else 1024

/-- Records on their way to a home. -/
def State.inbound (s : State) (h : Nat) : Nat := (s.net.tasks.filter fun q => q.1 == h).length

/-- A record sent to its home, and its creation notice (R65, R280). -/
def State.sendTask (s : State) (h unit : Nat) (r : Task) : State :=
  let s := s.sendCreation unit r.origin r.epoch
  State.post { s with net := { s.net with tasks := s.net.tasks ++ [(h, unit, r)] } } [.taskRecord s.net.tasks.length]

def execSpawn (a : BitVec 4) (s : State) : Host.Outcome State Fault Refusal :=
  run (issue .spawn [a, 8, 9, 10, 11, 12, 13] do
    let rec_ ← readDwords (← rs a) 4 false
    let g0 ← rsUse 8
    let g1 ← rsUse 9
    let g2 ← rsUse 10
    let g3 ← rsUse 11
    let anchor ← rsUse 12
    let n := (← rsUse 13).toNat
    let flags := rec_.getD 2 0
    require (decide (flags.toNat < 4 ∧ 1 ≤ n ∧ n ≤ 2 ^ 30)) .task anchor
    let (_, h) ← anchorAt anchor .r anchor false
    let (_, h') ← anchorAt (anchor + BitVec.ofNat 64 (n - 1)) .r anchor false
    require (h == h') .task anchor
    let s ← get
    require (foreignHome h || !(s.core (coreOf (homeUnit h))).killed) .poison anchor
    if !foreignHome h && decide (queueSize h ≤ (s.home h).queue.length + s.inbound h) then waitFor .spawn
    let r : Task := {
      anchor := anchor, length := n, va := virtualOf (s.thread s.cur).win anchor, nearPc := rec_.getD 0 0, farPc := rec_.getD 1 0
      args := ⟨#[g0, g1, g2, g3], rfl⟩
      restart := flags.getLsbD 0, free := flags.getLsbD 1, seq := 0, epoch := (s.thread s.cur).epoch
      origin := s.originOf s.cur, running := false, runner := none }
    releaseEvent
    modify fun s => s.sendTask h s.cur r
    advance
    enterWait .accept) s

/-- A search for a home that fails traps with TASK, whatever it failed by (R281, log 25). -/
def orTask {α : Type} (tval : Word) (x : Op α) : Op α := fun s =>
  match x s with
  | .error (.trap _ _ e keep) s' => .error (.trap .task tval e keep) s'
  | r => r

def execQcfg (a b : BitVec 4) (s : State) : Host.Outcome State Fault Refusal :=
  run (issue .task [a, b] do
    let ea ← rs a
    let x ← rsUse b
    let (_, h) ← orTask ea (anchorAt ea .w ea)
    modify fun s => s.configureHome h x
    advance) s

/-! ## FORK and JOIN (R40, R282, R283) -/

/-- A trap keeps what has been stored so far. -/
def keepTraps {α : Type} (x : Op α) : Op α := fun s =>
  match x s with
  | .error (.trap c v e _) s' => .error (.trap c v e true) s'
  | r => r

/-- A join word changed by an amount, as AADD sz=64 ord=rel (R282, R284). -/
def addJoin (ea d : Word) (g : Target) : Op Unit := do
  if (← get).hostRaced (← self) g then trap .hostatom ea
  releaseEvent
  let free := (← freeBlock).toNat
  let _ ← rmwTarget ea 8 false (joinUpdate free d) g

/-- The dword of a join word, checked as an atomic's (R193). -/
def locateJoin (ea : Word) : Op Target := do
  let g ← locate ea 8 [.a, .w]
  refuseView ea g
  requireKind ea Kind.atomic g
  return g

/-- w1 offset as an effective address. -/
def frameAddress (x : Word) : Word := effectiveAddress 1 x 0

/-- The four dwords that FORK saves below s14, as ordinary stores. -/
def saveFrame (b : Word) : List (BitVec 4 × Word) → Op Unit
  | [] => return ()
  | (i, off) :: t => do
    let x ← rsUse i
    writeMem (b - off) 8 x.toNat
    saveFrame b t

def execFork (a b : BitVec 4) (s : State) : Host.Outcome State Fault Refusal :=
  run (issue .task [a, b, 7, 8, 9, 10, 11, 12, 13, 14, 15] do
    let s ← get
    let t := s.cur
    if (s.core (coreOf t)).deque.length < 64 then
      let entry ← rsUse a
      let join ← rsUse b
      let g0 ← rsUse 8
      let g1 ← rsUse 9
      let g2 ← rsUse 10
      let g3 ← rsUse 11
      let g ← locateJoin join
      addJoin join 1 g
      let c : Child := ⟨entry, ⟨#[g0, g1, g2, g3], rfl⟩, join, s.originOf t, (s.thread t).epoch⟩
      modify fun s =>
        let s := s.sendCreation t (s.originOf t) (s.thread t).epoch
        State.stir (s.setCore (coreOf t) { s.core (coreOf t) with deque := (s.core (coreOf t)).deque ++ [c] })
      advance
    else
      let entry ← rs a
      let join ← rs b
      let g ← locateJoin join
      let top ← rsUse 14
      let x ← me
      keepTraps do
        saveFrame (frameAddress top) [(7, 32), (12, 24), (13, 16), (15, 8)]
        addJoin join 1 g
      modify fun s => s.sendCreation t (s.originOf t) (s.thread t).epoch
      wr 14 (top - 32)
      wr 15 (x.pc + 4)
      wr 7 4
      wr 12 join
      wr 13 0
      let saved := fun (i : BitVec 4) => (x.reg i).val
      modMe fun t => { t with inlines := ⟨join, top - 32, x.pc + 4, ⟨#[saved 7, saved 12, saved 13, saved 15], rfl⟩⟩ :: t.inlines }
      jump (codeAddress entry)) s

/-- The dword of a JOIN: a strong read where there is a home to order it, a plain one in a slot or an accumulator. -/
def readJoin (ea : Word) (g : Target) : Op Nat := do
  match g with
  | .mem _ _ _ | .tile _ _ _ => strongRead ea 8 g
  | g => return leNat (← readTarget ea 8 g)

/-- The key that a JOIN watches. -/
def Target.joinKey : Target → Nat
  | .mem _ k _ => k
  | .tile _ _ a => chipKey a
  | _ => chipKey 0

/-- JOIN reads wherever right R lets it: R193 does not name it among the strong operations. -/
def execJoin (a : BitVec 4) (s : State) : Host.Outcome State Fault Refusal :=
  run (issue .task [a] do
    let ea ← rs a
    let g ← locate ea 8 [.r]
    let x ← readJoin ea g
    if x ≠ 0 then waitKeeping (.join g.joinKey)
    acquireEvent
    advance) s

/-! ## WFW and DONE (R284, R285, R381) -/

/-- What a DONE that ends work and a WFW wait for (R381). -/
def State.endingBusy (s : State) (t : Nat) : Bool :=
  let k := s.core (coreOf t)
  s.departed t || !(s.thread t).pages.isEmpty
    || (isCompute t && (k.matrix.live ++ k.copy.live).any fun c => c.thread == t)

/-- What a thread's work leaves behind is given up: NREDs that have not departed, parked commands, claims (R243, R381). -/
def State.leaveWork (s : State) (t : Nat) : State := (s.dropNreds t).giveUp t

/-- The thread's commands, claims and held causes are given up, and it is in WFW (R285, R381). -/
def State.intoWfw (s : State) (t : Nat) : State :=
  let s := s.leaveWork t
  State.enterWfw (s.setThread t { s.thread t with causes := [], relDone := 0 }) t

/-- s7 to s13 that WFW is answered with come later; until then nothing else changes. -/
def execWfw (s : State) : Host.Outcome State Fault Refusal :=
  run (issue .work [] do
    let t ← me
    require t.work.isNone .task
    if (← get).endingBusy (← self) then waitFor .ending
    modMe (·.next 4)
    modify fun s => s.intoWfw s.cur) s

/-- The fault code of a DONE: 0 where the status is 0 (R337). -/
def doneCode (x : Word) : Nat := if lowBits 16 x = 0 then 0 else 0x8000 + lowBits 15 x

/-- The innermost open inline child has left s12, s14, s15 and the four dwords of its frame as FORK set them (R284). -/
def Thread.inlineKept (t : Thread) (frame : List Word) : Bool :=
  match t.inlines with
  | i :: _ => (t.reg 12).val == i.join && (t.reg 14).val == i.top && (t.reg 15).val == i.back && frame == i.saved.toList
  | [] => true

/-- End of an inline child (R284).  Its frame is read before anything is done, so that a trap leaves everything as it was (R8);
where the child has broken what R284 asks of it, the registers and the pc that depend on it are undefined (R10, log 11). -/
def doneInline (code : Nat) : Op Unit := do
  let free ← freeBlock
  let _ ← rsUse 14
  let t ← me
  let join := t.joinAddress free
  let g ← locateJoin join
  let top := t.frameTop free
  let frame ← readDwords (frameAddress top) 4
  releaseFence
  addJoin join (-1) g
  modify fun s => s.sendRetirement s.cur (s.originOf s.cur) (s.thread s.cur).epoch code
  let back ← rs 15
  let kept := (← me).inlineKept frame
  let or_ := fun (n : Nat) (x : Word) => if kept then x else free.extractLsb' (64 * n) 64
  wr 7 (or_ 0 (frame.getD 0 0))
  wr 12 (or_ 1 (frame.getD 1 0))
  wr 13 (or_ 2 (frame.getD 2 0))
  wr 15 (or_ 3 (frame.getD 3 0))
  wr 14 (or_ 4 (top + 32))
  modMe fun t => { t with trapm := false, inlines := t.inlines.drop 1 }
  jump (codeAddress (or_ 5 back))

/-- s7 as a DONE finds it: undefined where an open inline child has changed it (R10, R284). -/
def doneKind : Op Word := do
  let t ← me
  if t.inlines.isEmpty || (t.reg 7).val == 4 then return (t.reg 7).val else return (← freeBlock).setWidth 64

def execDone (a : BitVec 4) (s : State) : Host.Outcome State Fault Refusal :=
  run (issue .work [a, 7] do
    let code := doneCode (← rsUse a)
    let kind ← doneKind
    let t ← me
    if kind = 4 then
      if [(12 : BitVec 4), 13, 14, 15].any t.marked then waitFor .mark
      doneInline code
    else match t.work with
      | none => trap .task
      | some w =>
        if (← get).endingBusy (← self) then waitFor .ending
        match w.job with
        | .task h q far =>
          releaseFence
          modify fun s => s.retireTask s.cur h q t.epoch far w.origin code
        | .child join =>
          let g ← locateJoin join
          releaseFence
          addJoin join (-1) g
          modify fun s => s.sendRetirement s.cur w.origin t.epoch code
        modMe fun t => { t with trapm := false }
        modMe (·.next 4)
        modify fun s => s.intoWfw s.cur) s

/-! ## Where a call or a thread goes (R286, R292) -/

/-- The cluster of a launch that stands in for a cluster outside its set: the lowest geyser number on the same die, or
geyser number 0. -/
def State.standIn (s : State) (e : BitVec 16) (c : Nat) : Nat :=
  match s.launch e with
  | none => c
  | some l =>
    if l.clusters.contains (s.package, c) then c
    else match l.clusters.find? fun y => y.1 == s.package && y.2 / 64 == c / 64 with
      | some y => y.2
      | none => match l.clusters with
        | y :: _ => y.2
        | [] => c

/-! ## MIGR (R292) -/

/-- Scalar registers whose values leave the core (R138). -/
def leaveCore : List (BitVec 4) → Op Unit
  | [] => return ()
  | i :: t => do
    let _ ← rsUse i
    leaveCore t

def allScalars : List (BitVec 4) := (List.range 16).map (BitVec.ofNat 4)

/-- The context that travels: s0 to s15, pc, which is past the MIGR, the status word and w0 to w7, with the work record (R29,
R292); and what the model keeps of the thread itself: mailbox, lease, window, bias requests and open inline children
(log 32). -/
def Thread.travelling (t : Thread) : Thread :=
  { Thread.initial with
    regs := t.regs, pc := t.pc + 4, trapm := t.trapm, supv := t.supv, dbg := t.dbg, epoch := t.epoch, pend := t.pend
    win := t.win, work := t.work, mail := t.mail, window := t.window, lease := t.lease, bias := t.bias, inlines := t.inlines }

/-- The slot that a migrating thread leaves behind. -/
def Thread.left (t : Thread) : Thread :=
  { t with status := .idle, work := none, mail := [], pend := 0, mon := Thread.initial.mon, causes := [], lease := none
           window := none, bias := [], inlines := [], since := none, begun := none, answered := false }

/-- The context that has arrived in a slot: its resident context is zero, its system registers are the slot's (R29, log 32). -/
def Thread.arrive (slot ctx : Thread) : Thread :=
  { ctx with
    tcause := slot.tcause, epc := slot.epc, tval := slot.tval, tvec := slot.tvec, rcto := slot.rcto, rcretry := slot.rcretry
    dbgdrop := slot.dbgdrop, callId := slot.callId, status := .ready }

def execMigr (a : BitVec 4) (s : State) : Host.Outcome State Fault Refusal :=
  run (issue .task (a :: allScalars) do
    let ea ← rs a
    leaveCore allScalars
    match ← locate ea 1 [.r] with
    | .mem leaf k _ =>
      if (← get).endingBusy (← self) then waitFor .ending
      modify fun s => s.leaveWork s.cur
      releaseEvent
      modify fun s =>
        let s := s.flushNC (coreOf s.cur)
        let t := s.cur
        let x := s.thread t
        let g := s.package * 2 ^ 24 + t
        let s := s.mapRanks (fun w => rankValid w && rankThread w == g) (· ||| 1 <<< 45)
        let s := (s.setThread t x.left).askQuiet (clusterOf t) x.epoch
        if packageOf k != s.package then s
        else
          let m : Migrant := ⟨x.travelling, t, s.standIn x.epoch (s.lineHome leaf k).1⟩
          State.post { s with net := { s.net with migrants := s.net.migrants ++ [m] } } [.migrationArrival s.net.migrants.length]
    | _ => trap .window ea) s

/-! ## SEND and RECV (R293 to R295) -/

/-- The rank-table entry of a rank in an epoch. -/
def State.rankEntry (s : State) (e : BitVec 16) (r : Nat) : Word := Tab.get 0 s.ranks (e.toNat * 2 ^ 32 + r)

/-- The rank of a thread in its launch. -/
def State.rankOf (s : State) (e : BitVec 16) (t : Nat) : Word :=
  match s.ranks.find? fun (y : Nat × Word) => y.1 / 2 ^ 32 == e.toNat && rankValid y.2 && rankThread y.2 == s.package * 2 ^ 24 + t with
  | some y => BitVec.ofNat 64 (y.1 % 2 ^ 32)
  | none => 0

/-- A message on its way. -/
def State.sendMsg (s : State) (m : Msg) : State :=
  State.post { s with net := { s.net with msgs := s.net.msgs ++ [m] } } [.messageArrival s.net.msgs.length]

def execSend (a b : BitVec 4) (s : State) : Host.Outcome State Fault Refusal :=
  run (issue .task [a, b] do
    let rank ← rsUse a
    let ea ← rs b
    let s ← get
    let w := s.rankEntry (s.thread s.cur).epoch (rank.toNat % 2 ^ 32)
    require (rankValid w) .rank rank
    require (!rankDead w) .poison rank
    require (!isVent (rankThread w % 2 ^ 24)) .rank rank
    let g ← locate ea 64 [.r]
    let bs ← readTarget ea 64 g
    releaseEvent
    modify fun s =>
      (s.sendMsg ⟨s.cur, rank, rankThread w, BitVec.ofNat 512 (leNat bs), false⟩).count s.cur 33
    waitKeeping .send) s

def execRecv (d a : BitVec 4) (s : State) : Host.Outcome State Fault Refusal :=
  run (issue .task [d, a] do
    match (← me).mail with
    | [] => waitFor .recv
    | m :: rest =>
      let ea ← rs a
      let g ← locate ea 64 [.w]
      writeTarget ea (leBytes 64 m.body.toNat) g
      modMe fun t => { t with mail := rest ++ t.late.take 1, late := t.late.drop 1 }
      acquireEvent
      wr d (m.sender.setWidth 32 |>.setWidth 64)
      advance) s

end Sys2Proof.Machine
end

