-- ==== Sys2Proof/Machine/Remote.lean ====
section
/-! DEFINITION.
Remote calls: RCALL, RCALLA, REPLY, RFWD, and the messages and timers of the call protocol (R286 to R291).
-/

namespace Sys2Proof.Machine

/-! ## The unit of a call (R286) -/

/-- The unit that a target names: a vent core of this package under 4096 + P, a cluster, or a vent core of another package
under 2^16 + PACKAGE * 512 + P. -/
def State.callUnit (s : State) (e : BitVec 16) (leaf : Word) (k : Nat) : Nat :=
  match areaOf k with
  | .firstTier => if packageOf k == s.package then 4096 + keyChannel k else 2 ^ 16 + packageOf k * 512 + keyChannel k
  | _ => s.standIn e (s.lineHome leaf k).1

/-- The target's unit, from its effective address: window_check and translation; an on-chip window traps with WINDOW. -/
def locateUnit (ea : Word) : Op Nat := do
  match ← windowCheck ea 1 [.r] with
  | .chip _ => trap .window ea
  | .virt va =>
    let (leaf, k, _) ← translateOp ea va [.r]
    let s ← get
    return s.callUnit (s.thread s.cur).epoch leaf k

/-- s8 to s8 + n − 1. -/
def payloadRegs (n : Nat) : List (BitVec 4) := (List.range n).map fun i => BitVec.ofNat 4 (8 + i)

/-- Their values, residues compared (R138). -/
def payload : List (BitVec 4) → Op (List Word)
  | [] => return []
  | i :: t => do
    let x ← rsUse i
    return x :: (← payload t)

/-! ## RCALL and RCALLA (R286) -/

/-- TIMEOUT_NS, of which values below 1,000 act as 1,000 (R291). -/
def Thread.timeoutNs (t : Thread) : Nat := max 1000 t.rcto.toNat

/-- The acknowledgements that a thread owes a unit leave with its next message there, but for those that DROP_ACK discards
(R290, R291). -/
def State.takeAcks (s : State) (t u : Nat) : List (BitVec 16) × State :=
  let x := s.thread t
  let mine := (x.acks.filter (·.1 == u)).map (·.2)
  let n := min mine.length (x.dbgdrop.toNat / 256)
  (mine.drop n, s.setThread t { x with
    acks := x.acks.filter (·.1 != u), dbgdrop := x.dbgdrop - BitVec.ofNat 16 (n * 256) })

/-- An outstanding call sent, or sent again. -/
def State.resendCall (s : State) (t : Nat) (e : BitVec 16) (c : OutCall) : State :=
  if 2 ^ 16 ≤ c.unit then s
  else
    let (acks, s) := s.takeAcks t c.unit
    s.sendCall ⟨t, c.callId, e, c.origin, c.unit, c.target, c.entry, c.payload, acks⟩

def remoteCall (t e : BitVec 4) (n : BitVec 3) (sync : Bool) : Op Unit :=
  issue .call ([t, e, 8, 9, 10, 11] ++ payloadRegs n.toNat) (do
      let target ← rsUse t
      let entry ← rsUse e
      let args ← payload (payloadRegs n.toNat)
      let unit ← locateUnit target
      releaseEvent
      let s ← get
      let x ← me
      let c : OutCall := ⟨x.callId, target, unit, entry, args, s.originOf s.cur, sync, x.pc, 0, s.gtime + x.timeoutNs,
        x.timeoutNs, x.rcretry.toNat⟩
      modMe fun x => { x with callId := x.callId + 1, call := some c }
      modify fun s => State.post ((s.resendCall s.cur x.epoch c).count s.cur 33) [.callerTimer s.cur]
      if sync then waitKeeping .call
      modMe fun x => { x with pend := x.pend ||| 0x0F00 }
      advance)
    (priv := require (countOk n) .illegal)

def execRcall (t e : BitVec 4) (n : BitVec 3) (s : State) : Host.Outcome State Fault Refusal := run (remoteCall t e n true) s
def execRcalla (t e : BitVec 4) (n : BitVec 3) (s : State) : Host.Outcome State Fault Refusal := run (remoteCall t e n false) s

/-! ## REPLY and RFWD (R289) -/

/-- The call that the current thread serves; ILLEGAL outside remote mode. -/
def serving : Op Callee := do
  match (← me).callee with
  | some c => return c
  | none => trap .illegal

/-- 100 µs (R290). -/
def retractionNs : Nat := 100000

def execReply (n : BitVec 3) (s : State) : Host.Outcome State Fault Refusal :=
  run (issue .reply (payloadRegs n.toNat) (do
      let c ← serving
      let vals ← payload (payloadRegs n.toNat)
      let id ← self
      if (← get).endingBusy id then waitFor .ending
      releaseEvent
      modify fun s =>
        let k := serverOf id
        let s := match (s.server k).entry c.caller c.callId with
          | some e => (s.setServer k ((s.server k).setEntry { e with answer := some (.reply vals), due := s.gtime + retractionNs })).post
              [.retractionTimer k (c.callId.toNat * 2 ^ 24 + c.caller)]
          | none => s
        ((s.sendAnswer k c.caller c.callId (.reply vals)).count id 33).intoWfw id)
    (priv := do
      require ((← me).remote && (← me).callee.isSome) .illegal
      require (decide (n.toNat ≤ 4)) .illegal)) s

def execRfwd (a b : BitVec 4) (n : BitVec 3) (s : State) : Host.Outcome State Fault Refusal :=
  run (issue .reply ([a, b] ++ payloadRegs n.toNat) (do
      let c ← serving
      let target ← rsUse a
      let entry ← rsUse b
      let args ← payload (payloadRegs n.toNat)
      let id ← self
      let unit ← locateUnit target
      if (← get).endingBusy id then waitFor .ending
      releaseEvent
      modify fun s =>
        let k := serverOf id
        let call : Call := ⟨c.caller, c.callId, c.epoch, c.origin, unit, target, entry, args, []⟩
        let s := match (s.server k).entry c.caller c.callId with
          | some e => s.setServer k ((s.server k).setEntry { e with forward := some call })
          | none => s
        ((if unit < 2 ^ 16 then s.sendCall call else s).count id 33).intoWfw id)
    (priv := do
      require ((← me).remote && (← me).callee.isSome) .illegal
      require (countOk n) .illegal)) s

/-! ## Calls at their unit (R287, R288, R290) -/

/-- A killed unit, or one with no core left, answers a call with an error (R288). -/
def State.unitDead (s : State) (u : Nat) : Bool :=
  if 4096 ≤ u then (s.core (ventThread (u - 4096) 0)).killed else (clusterCores u).all fun c => (s.core c).killed

/-- A call reaches its unit: answered by an error, from the reply cache or by its forward, or queued (R287, R288, R290). -/
def State.arrivesAt (s : State) (c : Call) : State :=
  let u := c.unit
  if s.unitDead u then s.sendAnswer u c.caller c.callId (.status .poison c.target)
  else
    let v := s.server u
    match v.entry c.caller c.callId with
    | some e =>
      match e.answer, e.forward with
      | some a, _ => s.sendAnswer u c.caller c.callId a
      | none, some f => if f.unit < 2 ^ 16 then s.sendCall f else s
      | none, none => s
    | none =>
      if v.calls.any fun d => d.caller == c.caller && d.callId == c.callId then s
      else (s.setServer u { v with calls := v.calls ++ [c] }).serve u

/-! ## Outcomes at the caller (R286, R288, R290) -/

/-- s8 to s11 after a reply: the values, and zero for the rest. -/
def Thread.takeReply (t : Thread) (vals : List Word) : Thread :=
  (((t.setReg 8 (Reg.of (vals.getD 0 0))).setReg 9 (Reg.of (vals.getD 1 0))).setReg 10 (Reg.of (vals.getD 2 0))).setReg 11
    (Reg.of (vals.getD 3 0))

/-- The call is over: no timer, no marks. -/
def Thread.callOver (t : Thread) : Thread := { t with call := none, pend := t.pend &&& 0xF0FF }

/-- The caller of an outstanding call meets a cause: at the RCALL, or at the next instruction boundary of an RCALLA (R288).  A
call to a killed unit, and a timeout, name the target. -/
def State.failCall (s : State) (t : Nat) (c : OutCall) (cause : Cause) (tval : Word) : State :=
  let x := (s.thread t).callOver
  let s := s.setThread t x
  let s := s.wake fun u w => u == t && w == .mark
  if c.sync then State.takeAt (s.setThread t { s.thread t with status := .ready, since := none, begun := none }) t cause tval c.pc
  else s.defer t ⟨cause, tval, none, none⟩

/-- A reply or status reaches its caller. -/
def State.outcome (s : State) (m : CallMsg) : State :=
  let x := s.thread m.caller
  if x.dbgdrop.toNat % 256 ≠ 0 then s.setThread m.caller { x with dbgdrop := x.dbgdrop - 1 }
  else match x.call, m.answer with
    | some c, some a =>
      if c.callId ≠ m.callId then s
      else
        let s := s.setThread m.caller { x with acks := x.acks ++ [(m.unit, m.callId)] }
        let s := s.post [.loneAcknowledgement m.caller]
        match a with
        | .reply vals =>
          let y := ((s.thread m.caller).takeReply vals).callOver
          let y := if c.sync then y.next 4 else y
          let s := s.setThread m.caller y
          State.acquire (s.wake fun u w => u == m.caller && w == .mark) m.caller
        | .status cause tval => s.failCall m.caller c cause (if cause = .poison then c.target else tval)
    | _, _ => s

/-- The switched-out context that a reply is for, with its launch and its save (R298, R340): a saved vent thread's slot serves
others. -/
def State.awayOf (s : State) (m : CallMsg) : Option (Launch × Saved × Thread) :=
  match s.fw.launches.findSome? fun l => l.saved.bind fun v => (Tab.find v.threads m.caller).bind fun x =>
      if x.call.any fun c => c.callId == m.callId then some (l, v, x) else none with
  | some r => some r
  | none => (s.launch (s.thread m.caller).epoch).bind fun l => l.saved.map fun v => (l, v, s.thread m.caller)

/-- A reply as a late message (R342); kind and sender's form: log 16. -/
def CallMsg.late (m : CallMsg) : Mail :=
  ⟨2, BitVec.ofNat 64 (m.unit * 2 ^ 16 + m.callId.toNat), match m.answer with
    | some (.reply vals) => BitVec.ofNat 512 (leNat (packed 8 (vals.map (·.toNat))))
    | some (.status c v) => BitVec.ofNat 512 (2 ^ 504 + c.code + v.toNat * 2 ^ 64)
    | none => 0⟩

/-- The n-th reply on its way reaches its caller; one for a switched-out caller is a late message (R298, R340, R342). -/
def State.replyArrival (s : State) (n : Nat) : State :=
  let q := s.net.replies
  match q[min n (q.length - 1)]? with
  | none => s
  | some m => match s.awayOf m with
    | none => State.outcome { s with net := { s.net with replies := q.erase m } } m
    | some (l, v, x) =>
      if x.late.length < 64 then
        let x := { x with late := x.late ++ [m.late] }
        let s := State.noteLate { s with net := { s.net with replies := q.erase m } } l m.caller x
        let v := { v with net := { v.net with replies := v.net.replies ++ [m] } }
        if (Tab.find v.threads m.caller).isSome then s.setLaunch { l with saved := some { v with threads := Tab.put v.threads m.caller x } }
        else (s.setThread m.caller x).setLaunch { l with saved := some v }
      else s.post [.replyArrival n]

def execReplyArrival (n : Nat) (s : State) : Host.Outcome State Fault Refusal := happen (·.replyArrival n) s

/-- The instruction at a thread's pc, where it can be fetched. -/
def State.nextInstr (s : State) (t : Nat) : Option Instr := (s.attempt t fetch).map (·.1)

/-- A COMMIT or RETRACT of the thread is outstanding: a lone acknowledgement waits for it (R290). -/
def State.settling (s : State) (t : Nat) : Bool :=
  (s.thread t).begun.isSome && match s.nextInstr t with
    | some (.commit _) => true
    | some (.retract _ _) => true
    | _ => false

/-- The oldest acknowledgement that a thread owes is sent alone, unless DROP_ACK discards it (R290, R291). -/
def State.sendOwedAck (s : State) (t : Nat) : State :=
  let x := s.thread t
  match x.acks with
  | [] => s
  | (u, id) :: rest =>
    if s.offline x.epoch then s
    else if s.settling t then s.post [.loneAcknowledgement t]
    else if x.dbgdrop.toNat / 256 ≠ 0 then s.setThread t { x with acks := rest, dbgdrop := x.dbgdrop - 0x100 }
    else (s.setThread t { x with acks := rest }).sendAck u t id

def execLoneAcknowledgement (t : Nat) (s : State) : Host.Outcome State Fault Refusal := happen (·.sendOwedAck t) s

/-- The caller's timer (R290): before its time it only runs on; that of a switched-out context pauses (R298). -/
def State.callerTimer (s : State) (t : Nat) : State :=
  let x := s.thread t
  match x.call with
  | none => s
  | some c =>
    if s.offline x.epoch then s
    else if s.gtime < c.due then s.post [.callerTimer t]
    else if c.resends < c.retries then
      let c := { c with resends := c.resends + 1, due := s.gtime + c.limit }
      State.post ((s.setThread t { x with call := some c }).resendCall t x.epoch c) [.callerTimer t]
    else s.failCall t c .remoteTimeout c.target

def execCallerTimer (t : Nat) (s : State) : Host.Outcome State Fault Refusal := happen (·.callerTimer t) s

/-! ## Acknowledgement and retraction (R290) -/

/-- The unit whose entry forwarded a call to a unit. -/
def State.forwarder (s : State) (u caller : Nat) (id : BitVec 16) : Option Nat :=
  (s.servers.find? fun (y : Nat × Server) => y.1 != u && match y.2.entry caller id with
    | some e => match e.forward with
      | some f => f.unit == u
      | none => false
    | none => false).map (·.1)

/-- The cells still tentative under a call are committed and its entry is freed; calls that wait for an entry go on. -/
def State.settleEntry (s : State) (u caller : Nat) (id : BitVec 16) (keep : Bool) : State :=
  match (s.server u).entry caller id with
  | none => s
  | some e =>
    let s := (s.callCells e).foldl (fun (s : State) c => if keep then s.endCell c else s.retractCell (if 4096 ≤ u then ventThread (u - 4096) 0 else controlThread u 0) c) s
    (s.setServer u ((s.server u).dropEntry caller id)).serve u

/-- An acknowledgement takes effect at a unit and is passed back along the chain. -/
def State.ackAt (s : State) (u caller : Nat) (id : BitVec 16) : State :=
  let back := s.forwarder u caller id
  let s := s.settleEntry u caller id true
  match back with
  | some v => s.sendAck v caller id
  | none => s

/-- The n-th acknowledgement on its way reaches its unit. -/
def State.ackArrival (s : State) (n : Nat) : State :=
  let q := s.net.acks
  match q[min n (q.length - 1)]? with
  | none => s
  | some m => State.ackAt { s with net := { s.net with acks := q.erase m } } m.unit m.caller m.callId

def execAckArrival (n : Nat) (s : State) : Host.Outcome State Fault Refusal := happen (·.ackArrival n) s

/-- The n-th call on its way reaches its unit, and then the acknowledgements that ride on it take effect (R290). -/
def State.callArrival (s : State) (n : Nat) : State :=
  let q := s.net.calls
  match q[min n (q.length - 1)]? with
  | none => s
  | some c =>
    let s := State.arrivesAt { s with net := { s.net with calls := q.erase c } } c
    if s.unitDead c.unit then s else c.acks.foldl (fun (s : State) id => s.ackAt c.unit c.caller id) s

def execCallArrival (n : Nat) (s : State) : Host.Outcome State Fault Refusal := happen (·.callArrival n) s

/-- A retraction at a unit, passed back along the chain. -/
def State.retractEntry (s : State) (u caller : Nat) (id : BitVec 16) : State :=
  let back := s.forwarder u caller id
  let s := s.settleEntry u caller id false
  match back with
  | some v => s.sendRetract v caller id
  | none => s

/-- 100 µs after the reply of the unit's entry n (its identifier * 2^24 + its caller) without an acknowledgement; before that
time the timer only runs on. -/
def State.retractionTimer (s : State) (u n : Nat) : State :=
  let caller := n % 2 ^ 24
  let id := BitVec.ofNat 16 (n / 2 ^ 24)
  match (s.server u).entry caller id with
  | none => s
  | some e =>
    if e.answer.isNone || s.offline e.epoch then s
    else if s.gtime < e.due then s.post [.retractionTimer u n]
    else s.retractEntry u caller id

def execRetractionTimer (unit n : Nat) (s : State) : Host.Outcome State Fault Refusal := happen (·.retractionTimer unit n) s

/-- The n-th retraction passed back takes effect. -/
def State.retractionPass (s : State) (n : Nat) : State :=
  let q := s.net.retracts
  match q[min n (q.length - 1)]? with
  | none => s
  | some m => State.retractEntry { s with net := { s.net with retracts := q.erase m } } m.unit m.caller m.callId

def execRetractionPass (n : Nat) (s : State) : Host.Outcome State Fault Refusal := happen (·.retractionPass n) s

end Sys2Proof.Machine
end

