-- ==== Sys2Proof/Machine/Replies.lean ====
section
/-! DEFINITION.
What reaches threads and homes from inside the package: deferred causes, the checker, replies, recalls, fills, time
limits, leases and time (R11, R139, R164, R174, R176 to R180, R205, R211, R237, R308, R319, R378).
-/

namespace Sys2Proof.Machine

/-! ## Deferred causes (R11, R246, R332) -/

/-- A parked command whose cause is being taken waits for nothing more: RTE puts it back, and those behind it (R246). -/
def Engine.causeTaken (g : Engine) (id : Nat) : Engine :=
  { g with parked := g.parked.map fun p => if p.cmd.id = id then { p with cause := none, handled := true } else p }

/-- The deferred cause that is due at a thread that stands at an instruction boundary is taken.  A core that stops for a
program load takes none: they go with the commands that it discards (R69). -/
def State.deferredTrap (s : State) (t : Nat) : State :=
  let x := s.thread t
  if x.status ≠ .ready ∨ s.slotRemoved t = true ∨ (s.core (coreOf t)).stopped = true then s
  else match x.due with
    | none => s
    | some d =>
      let s := s.setThread t { x with causes := x.causes.erase d }
      let s := match d.cmd with
        | none => s
        | some id =>
          let k := s.core (coreOf t)
          s.setCore (coreOf t) { k with matrix := k.matrix.causeTaken id, copy := k.copy.causeTaken id }
      s.takeCause t d.cause d.tval none d.parked

def execDeferredTrap (t : Nat) (s : State) : Host.Outcome State Fault Refusal := happen (·.deferredTrap t) s

/-! ## The checker (R139) and the lane residues (R237) -/

/-- The major of an instruction of 32 bits. -/
def majorOf (i : Instr) : Nat := encodeWord i / 2 ^ 25 % 64

/-- The checker recomputes majors 0x00 to 0x07 and their 16-bit equivalents (R139). -/
def checkerSees (i : Instr) : Bool :=
  if i.size = 4 then decide (majorOf i ≤ 7)
  else match i with
    | .ldd16 .. | .std16 .. | .nop16 => false
    | _ => true

/-- The destination VD of an instruction on floating lanes that forms significand products or sums, which carry residues
(R237): not the bitwise ones, selections, signs, minima and maxima. -/
def laneDest (i : Instr) : Option Nat :=
  let forms : Bool := match i with
    | .vadd .. | .vsub .. | .vmul .. | .vdiv .. | .vsqrt .. | .vfma .. | .vfms .. | .vex2 .. | .vrsum .. => true
    | _ => false
  if forms ∧ 8 ≤ encodeWord i / 2 ^ 8 % 16 then some (encodeWord i / 2 ^ 22 % 8) else none

/-- A thread whose core issues nothing: killed, under test or stopped, or the thread's slot is removed (R34, R69, R349, R354). -/
def State.silent (s : State) (t : Nat) : Bool :=
  let k := s.core (coreOf t)
  k.killed || k.testing || k.stopped || s.slotRemoved t

/-- The recomputation of a thread's next instruction differs: it issues again, and traps when it differs again.  A corrected
mismatch has no cause code (R345, R348). -/
def State.mismatch (s : State) (t : Nat) : State :=
  let x := s.thread t
  if x.status ≠ .ready ∨ s.silent t = true then s
  else match s.nextInstr t with
    | none => s
    | some i =>
      if checkerSees i then
        let s := (s.count t 37).logicEvent t 1 (if x.reissue then Cause.check.code else 0) 0
        if x.reissue then State.takeCause (s.setThread t { s.thread t with reissue := false }) t .check 0 none none
        else s.setThread t { s.thread t with reissue := true }
      else match laneDest i with
        | none => s
        | some d =>
          let s := s.count t 38
          if x.reissue then State.takeCause (s.setThread t { s.thread t with reissue := false }) t .residue (BitVec.ofNat 64 (24 + d)) none none
          else State.logicEvent (s.setThread t { s.thread t with reissue := true }) t 3 0 0

def execCheckerReissue (t : Nat) (s : State) : Host.Outcome State Fault Refusal := happen (·.mismatch t) s

/-! ## Replies, time limits and seals (R31, R205, R211, R174) -/

/-- A thread that waits for what a test accepts becomes READY; `limit` says that a time limit has passed. -/
def State.ready (s : State) (t : Nat) (test : Wait → Bool) (limit : Bool) : State :=
  let x := s.thread t
  match x.status with
  | .wait w => if test w then s.setThread t { x with status := .ready, expired := x.expired || limit } else s
  | _ => s

/-- The reply, grant or acknowledgement has come: the thread issues its instruction again, and waits for no other. -/
def State.memoryReply (s : State) (t : Nat) : State :=
  let x := s.thread t
  if x.status = .wait .memory then s.setThread t { x with status := .ready, answered := true } else s

def execMemoryReply (t : Nat) (s : State) : Host.Outcome State Fault Refusal := happen (·.memoryReply t) s

def execMwaitTimeout (t : Nat) (s : State) : Host.Outcome State Fault Refusal :=
  happen (·.ready t (· == .monitor) true) s

def execTentFullTimeout (t : Nat) (s : State) : Host.Outcome State Fault Refusal :=
  happen (·.ready t (· == .pairBuffer) true) s

def execUnseal (t : Nat) (s : State) : Host.Outcome State Fault Refusal :=
  happen (·.ready t (· == .sealed) false) s

/-! ## Recalls and fills (R164, R177, R179, R180, R204, R319) -/

/-- The word at a key leaves a core's L1, its dirty bytes merged: a recall by the home, or an eviction.  A word of another
package's memory is recalled from the lease that holds it (R177). -/
def State.recallAt (s : State) (c k : Nat) : State :=
  if packageOf k ≠ s.package then s.recallLeases (k / 4 * 4) 4
  else match Tab.find (s.core c).l1 (k / 4) with
    | some x => (s.mergeHome (k / 4) x).setL1 c (k / 4) none
    | none => s

def execOwnershipRecall (core addr : Nat) (s : State) : Host.Outcome State Fault Refusal :=
  happen (fun s => s.recallAt core (keyOf addr)) s

/-- The schedule entry of a line on a die: the lowest-numbered valid one that covers it (R180). -/
def State.schedOf (s : State) (die k : Nat) : Option Sched :=
  let a := localOf k
  ((List.range 256).map fun n => Tab.get Sched.initial s.sched (die * 256 + n)).find? fun e =>
    e.ctl.getLsbD 63 && decide (e.base.toNat ≤ a) && decide (a ≤ e.lim.toNat)

def Sched.prio (e : Sched) : Nat := (e.ctl >>> 32).toNat % 16

/-- The line's range is dead on a die (R179). -/
def State.lineDead (s : State) (die : Nat) (l : Line) : Bool :=
  match s.schedOf die l.key with
  | some e =>
    e.ctl.toNat % 2 ^ 32 != 0xFFFFFFFF
      && decide (e.ctl.toNat % 2 ^ 32 < (Tab.get 0 s.phases (die * 16 + (e.ctl >>> 36).toNat % 16)).toNat)
  | none => false

def State.linePrio (s : State) (die : Nat) (l : Line) : Nat :=
  match s.schedOf die l.key with
  | some e => e.prio
  | none => 0

/-- A way with a miss outstanding, or one that holds a tentative cell, is never a victim (R180). -/
def State.linePinned (s : State) (l : Line) : Bool :=
  !(s.cellsAt l.key 512).isEmpty || s.agenda.any fun h => match h with
    | .l2Fill sl _ a => sl == l.slice && s.localKey a / 512 * 512 == l.key
    | _ => false

/-- The line of a list that a measure makes least; the first of equals. -/
def leastLine (f : Line → Nat) : List Line → Option Line
  | [] => none
  | l :: t => match leastLine f t with
    | some m => if f m < f l then some m else some l
    | none => some l

/-- The victim among the lines of a set (R180). -/
def State.victim (s : State) (die : Nat) (set : List Line) : Option Line :=
  let free := set.filter fun l => !s.linePinned l
  match leastLine Line.way (free.filter (s.lineDead die)) with
  | some l => some l
  | none =>
    let least := free.foldl (fun m l => min m (s.linePrio die l)) 16
    leastLine Line.way (free.filter fun l => s.linePrio die l == least)

/-- The L2 loses a line: monitors on it fire (R204). -/
def State.loseLine (s : State) (l : Line) : State :=
  State.fireMonitors { s with lines := s.lines.filter (· != l) } 0x1000020 l.key 512

/-- Lines of an L2 home slice of 512 KiB (R12), and the ways of each of its sets. -/
def sliceLines : Nat := 1024
def sliceWays : Nat := 2 ^ (Config.ways % 11)

/-- Threads that wait for a sector of n bytes at a key at its L2 home go on; with the sector there they wait for no other reply
(R167, R180). -/
def State.fillCame (s : State) (key n : Nat) : State :=
  { s with threads := s.threads.map fun (y : Nat × Thread) => match y.2.status with
      | .wait (.fill k) =>
        if key ≤ k ∧ k < key + n then (y.1, { y.2 with status := .ready, answered := y.2.answered || s.resident k }) else y
      | _ => y }

/-- The 64-byte transfers of a fill of n bytes counted, and those of the write-back of a victim, as many of its lines as are valid
and dirty: which are dirty is free, since the home's memory holds every line's bytes (R319, R358, log 12). -/
def State.countFill (s : State) (cls cluster key n : Nat) (victim : Option Line) : State :=
  let s := (linesOf key n).foldl (fun (s : State) l => s.transfer cls (64 * l)) (s.countIn cluster 19)
  match victim with
  | none => s
  | some v =>
    let dirty := Config.freeBits s.fresh
    ((linesOf v.key 512).zipIdx.foldl (fun (s : State) (l, i) =>
        if dirty.getLsbD i && (v.valid.getLsbD (2 * i) || v.valid.getLsbD (2 * i + 1)) then s.transfer cls (64 * l) else s)
      { s with fresh := s.fresh + 1 })

/-- The data of a miss arrives at the home slice of its line: the sectors of one coherence grain (R167, R180).  Nothing in host bias
or of an armed region comes into an L2 (R273, R325): whoever waits for it looks again. -/
def State.l2Fill (s : State) (slice cls a : Nat) : State :=
  let k := s.localKey a
  let line := k / 512 * 512
  let g := s.grainAt k
  let key := k / g * g
  let home := s.homeSlice line
  let at_ := home.1 * 8 + home.2
  let set := Config.setOf line % (sliceLines / sliceWays)
  let new := fun (w : Nat) => (⟨at_, set, w, line, sectorsIn line key g⟩ : Line)
  if s.hostBias k || s.isArmed key g || s.inTransition k || s.resident k then s.fillCame key g
  else if s.lines.any fun l => l.key == line then
    let lines := s.lines.map fun l => if l.key = line then { l with valid := l.valid ||| sectorsIn line key g } else l
    (State.countFill { s with lines := lines } cls home.1 key g none).fillCame key g
  else
    let held := s.lines.filter fun l => l.slice == at_ && l.set == set
    match (List.range sliceWays).find? fun w => !held.any fun l => l.way == w with
    | some w => (State.countFill { s with lines := new w :: s.lines } cls home.1 key g none).fillCame key g
    | none => match s.victim (at_ / 512) held with
      | some v =>
        let s := s.loseLine v
        (State.countFill { s with lines := new v.way :: s.lines } cls home.1 key g (some v)).fillCame key g
      | none => s.post [.l2Fill slice cls a]

def execL2Fill (slice cls addr : Nat) (s : State) : Host.Outcome State Fault Refusal := happen (·.l2Fill slice cls addr) s

/-- Every counter of a controller halved, unless DECAY_US is 0 (R319, R320). -/
def State.decay (s : State) (c : Nat) : State :=
  if (s.hotctlOf c >>> 16).toNat % 2 ^ 16 = 0 then s
  else { s with hot := s.hot.map fun (e : Nat × BitVec 16) => if controllerOf (e.1 / 8 * 0x10000) = c then (e.1, e.2 >>> 1) else e }

def execHotnessDecay (ctrl : Nat) (s : State) : Host.Outcome State Fault Refusal := happen (·.decay ctrl) s

/-! ## Leases and windows (R175 to R178, R378) -/

/-- The n-th of a list that satisfies a test, or else the first that does. -/
def nthOr {α : Type} (n : Nat) (test : α → Bool) (xs : List α) : Option α :=
  match xs[n]? with
  | some x => if test x then some x else xs.find? test
  | none => xs.find? test

/-- A holder's clock reaches E − GUARD_NS: it writes the word back.  Before that its timer runs on. -/
def State.leaseExpiry (s : State) (n : Nat) : State :=
  match nthOr n (fun (l : Lease) => decide (l.expiry ≤ s.gtime + guardNs)) s.host.held with
  | some l => s.endLease l
  | none => if s.host.held.isEmpty then s else s.post [.leaseExpiry n]

def execLeaseExpiry (n : Nat) (s : State) : Host.Outcome State Fault Refusal := happen (·.leaseExpiry n) s

/-- A home that has had no write-back by E + GUARD_NS revokes a lease, of this package's memory or of another's: the word
keeps its value at the grant, and accesses that wait for it go on. -/
def State.leaseRevocation (s : State) (n : Nat) : State :=
  let due := fun (l : Lease) => !l.revoked && decide (l.expiry + guardNs ≤ s.gtime)
  match nthOr n due s.host.given with
  | some l =>
    let s := { s with host := { s.host with given := s.host.given.filter (· != l) } }
    State.kickAll (s.wake fun _ w => w == .memory)
  | none => match nthOr n due s.host.held with
    | some l => { s with host := { s.host with held := s.host.held.map fun m => if m == l then { m with revoked := true } else m } }
    | none => if s.host.given.isEmpty && s.host.held.all (·.revoked) then s else s.post [.leaseRevocation n]

def execLeaseRevocation (n : Nat) (s : State) : Host.Outcome State Fault Refusal := happen (·.leaseRevocation n) s

/-- A refusal reaches the holder: its next release traps with LEASE_EXPIRED. -/
def State.leaseRefusal (s : State) (n : Nat) : State :=
  let q := s.net.refusals
  match q[min n (q.length - 1)]? with
  | none => s
  | some l =>
    let s := { s with net := { s.net with refusals := q.erase l } }
    let x := s.thread l.holder
    s.setThread l.holder { x with lease := match x.lease with
      | some a => some a
      | none => some l.ea }

def execLeaseRefusal (n : Nat) (s : State) : Host.Outcome State Fault Refusal := happen (·.leaseRefusal n) s

/-- Releases that wait for a window look at the clock again; each completes once its window has started. -/
def execWindowBoundary (s : State) : Host.Outcome State Fault Refusal :=
  happen (fun s => State.kickAll (s.wake fun _ w => w == .fence)) s

/-- The clock disciplined by the grandmaster (R153, R175): it does not go back, and SYNCED says whether it is now within
GUARD_NS. -/
def execTimeSync (time : Nat) (s : State) : Host.Outcome State Fault Refusal :=
  happen (fun s => { s with gtime := max s.gtime time, synced := Config.inGuard s.tick }) s

/-! ## Walks and shootdowns (R307, R308), view registers (R94), wlen (R175) -/

def execWalkComplete (cluster n : Nat) (s : State) : Host.Outcome State Fault Refusal := happen (·.finishWalk cluster n) s

def execPgshoot (cluster value : Nat) (s : State) : Host.Outcome State Fault Refusal :=
  happen (·.pgshoot cluster (BitVec.ofNat 64 value)) s

def execShootdownComplete (cluster : Nat) (s : State) : Host.Outcome State Fault Refusal := happen (·.shootdownDone cluster) s

/-- Register `addr` mod 4 (VCFG, VBASE, VLEN, VSCALE) of view `addr` / 4, which is 16 * C + v (R91, R92). -/
def execViewRegisterWrite (addr value : Nat) (s : State) : Host.Outcome State Fault Refusal :=
  happen (fun s => if addr / 4 < 192 then s.writeView (addr / 4) (addr % 4) (BitVec.ofNat 64 value) else s) s

def execWlenWrite (iodie value : Nat) (s : State) : Host.Outcome State Fault Refusal :=
  happen (·.writeWlen iodie (BitVec.ofNat 64 value)) s

/-! ## Other packages at this home (R16, R177, R178) -/

/-- What an atomic of a minor makes of the old value (R199). -/
def foreignUpdate (minor n old x c : Nat) : Option Nat :=
  match minor with
  | 0 => some ((old + x) % 2 ^ n)
  | 1 => some (if signedOf n old ≤ signedOf n x then old else x)
  | 2 => some (Nat.min old x)
  | 3 => some (if signedOf n old ≤ signedOf n x then x else old)
  | 4 => some (Nat.max old x)
  | 5 => some (old &&& x)
  | 6 => some (old ||| x)
  | 7 => some (old ^^^ x)
  | 8 => some x
  | _ => if old = c then some x else none

/-- An access of another package waits at the home as any other does (R174, R177, R322, R327, R354). -/
def State.foreignWaits (s : State) (k n : Nat) (write : Bool) : Bool :=
  s.inTransition k || s.underTest (memLine k n) || (s.host.given.any fun l => overlaps l.key l.bytes k n)
    || (!s.hostBias k && s.host.lines.any fun l => l.covers k n && (write || l.excl || l.dirty)) || (write && s.sealBusy k n)

/-- The back-invalidates that such an access asks for. -/
def State.foreignSnoops (s : State) (k n : Nat) : State :=
  if s.hostBias k then s else (s.host.lines.filter (·.covers k n)).foldl (fun (s : State) l => s.snoop l) s

def foreignBytes (op : ForeignOp) (data : List Byte) : Nat :=
  match op with
  | .read n => max 1 n
  | .write => data.length
  | .atomic _ d | .lease d | .writeBack d => if d then 8 else 4

/-- The write-back of a lease: accepted while the lease stands, otherwise refused to its sender, which is not this machine. -/
def State.foreignWriteBack (s : State) (pkg k : Nat) (dword : Bool) (data : List Byte) : State :=
  match s.host.given.find? fun l => l.key == k && l.dword == dword && l.holder == pkg with
  | none => s
  | some l =>
    let s := { s with host := { s.host with given := s.host.given.filter (· != l) } }
    let s := s.writeHome foreignAgent 512 k (leBytes l.bytes (leNat data))
    State.kickAll (s.wake fun _ w => w == .memory)

/-- A strong access of n bytes by another package: where it meets one of another size without order the bytes are undefined
(R170). -/
def State.foreignStrong (s : State) (k n : Nat) (access : State → State) : State :=
  let clash := s.strongClash foreignAgent.id k n
  let free := fun (s : State) => clash.foldl (fun (s : State) y => s.freeAt y.1 y.2) s
  free (access ((free s).noteStrong foreignAgent.id k n))

/-- An access of another package performed; what it answers leaves this machine (log 18). -/
def State.foreignPerform (s : State) (op : ForeignOp) (pkg k : Nat) (data : List Byte) : State :=
  let s := (s.touchFrom k 256).requested 6 k (foreignBytes op data)
  let logged := s.logged k (foreignBytes op data)
  let s := s.breach logged
  State.breach (match op with
  | .read n => (s.readHome foreignAgent k n).2
  | .write => (s.unsealAt k data.length).writeHome foreignAgent 512 k data
  | .atomic minor d =>
    let n := if d then 8 else 4
    let x := leNat (data.take n)
    let c := leNat ((data.drop n).take n)
    s.foreignStrong k n fun s => ((s.unsealAt k n).rmwHome foreignAgent 512 k n fun old => foreignUpdate minor (8 * n) old x c).2
  | .lease d =>
    let n := if d then 8 else 4
    let s := s.foreignStrong k n fun s => s
    let s := (wordsOf k n).foldl (fun (s : State) w => s.recallWord none w) s
    let s := (s.dropCopies none (k / 512 * 128) 128).observe foreignAgent k n
    let v := BitVec.ofNat 64 (leNat (s.homeBytes k n))
    let l : Lease := ⟨k, d, pkg, s.gtime + 2 * ((s.wlen.getD 0 4).toNat * 1000), v, v, 0, false⟩
    State.post { s with host := { s.host with given := l :: s.host.given } } [.leaseRevocation 0]
  | .writeBack d => s.foreignWriteBack pkg k d data) logged

/-- An access of another package arrives: only the first-tier aliases are reached, whole and aligned; anything else is
refused.  A poisoned word is refused too (R16, R353). -/
def State.foreignAccess (s : State) (op : ForeignOp) (pkg a : Nat) (data : List Byte) : State :=
  let k := s.localKey a
  let n := foreignBytes op data
  let write := match op with
    | .read _ => false
    | _ => true
  let back := match op with
    | .writeBack _ => true
    | _ => false
  let aligned := match op with
    | .read _ | .write => true
    | _ => k % n == 0
  if areaOf k != .firstTier || pkg == s.package || decide (4096 < k % 4096 + n) || !aligned || n == 0 then s
  else if back then s.foreignPerform op pkg k data
  else if s.foreignWaits k n write then (s.foreignSnoops k n).post [.remotePackageAccess op pkg a data]
  else if s.poisoned k n && (match op with | .write => false | _ => true) then s
  else s.foreignPerform op pkg k data

def execRemotePackageAccess (op : ForeignOp) (pkg addr : Nat) (data : List Byte) (s : State) :
    Host.Outcome State Fault Refusal := happen (·.foreignAccess op pkg addr data) s

end Sys2Proof.Machine
end

