-- ==== Sys2Proof/Machine/Dispenser.lean ====
section
/-! DEFINITION.
How queued work reaches threads: task records, head takes, steals, the dispensers, the adaptive threshold, the notices, and
how a launch comes to its end (R41 to R68, R213, R290, R337, R351, R375, R383).
-/

namespace Sys2Proof.Machine

/-! ## Posting -/

/-- A happening posted unless it waits already. -/
def State.postOnce (s : State) (h : Happening) : State := if s.agenda.contains h then s else s.post [h]

/-! ## Eligible entries (R44, R45) -/

/-- Two ranges of one epoch share at least one byte. -/
def Task.overlapsTask (a b : Task) : Bool := overlaps a.va a.length b.va b.length

/-- The eligible entries of a queue, given the older ones. -/
def eligibleFrom (older : List Task) : List Task → List Task
  | [] => []
  | r :: rest =>
    let tail := eligibleFrom (older ++ [r]) rest
    if !r.running && (r.free || !older.any fun o => o.epoch == r.epoch && o.overlapsTask r) then r :: tail else tail

def Home.eligible (h : Home) : List Task := eligibleFrom [] h.queue

/-! ## Task records (R42, R43) -/

/-- A record accepted by its home: SEQ assigned, queued at the young end, the spawner READY.  A home of another package does the
same there (log 18). -/
def State.acceptTask (s : State) (h unit : Nat) (r : Task) : State :=
  let x := s.home h
  let s := if foreignHome h then s
    else State.postOnce (State.homeChanged (s.setHome h { x with seq := x.seq + 1, queue := x.queue ++ [{ r with seq := x.seq }] }) h) (.headTake h)
  if (s.thread unit).status = .wait .accept then s.setThread unit { s.thread unit with status := .ready, since := none, begun := none } else s

/-- A record that reaches a killed home: the SPAWN traps with POISON, and the record counts as failed (R349, R350). -/
def State.refuseTask (s : State) (h unit : Nat) (r : Task) : State :=
  let s := s.sendRetirement (homeUnit h) r.origin r.epoch Cause.killed.code
  let x := s.thread unit
  if x.status = .wait .accept then
    State.takeAt (s.setThread unit { x with status := .ready, since := none, begun := none }) unit .poison r.anchor (x.pc - 4)
  else s

/-- The n-th record on its way reaches its home; it waits there while the queue is full (R43, R382). -/
def State.taskRecord (s : State) (n : Nat) : State :=
  let q := s.net.tasks
  match q[min n (q.length - 1)]? with
  | none => s
  | some (h, unit, r) =>
    let dead := (s.core (coreOf (homeUnit h))).killed && decide (h < 512)
    if !dead && !foreignHome h && decide (queueSize h ≤ (s.home h).queue.length) then s.post [.taskRecord n]
    else
      let s := { s with net := { s.net with tasks := q.erase (h, unit, r) } }
      if dead then s.refuseTask h unit r else s.acceptTask h unit r

def execTaskRecord (n : Nat) (s : State) : Host.Outcome State Fault Refusal := happen (·.taskRecord n) s

/-! ## Dispatch of tasks and children (R48, R53, R59, R383) -/

/-- The registers that dispatch writes. -/
def Thread.dispatch (t : Thread) (kind : Nat) (args : Vector Word 4) (x12 x13 pc : Word) : Thread :=
  let arg := fun n => Reg.of (args.getD n 0)
  let t := ((((t.setReg 7 (Reg.of (BitVec.ofNat 64 kind))).setReg 8 (arg 0)).setReg 9 (arg 1)).setReg 10 (arg 2)).setReg 11 (arg 3)
  let t := (t.setReg 12 (Reg.of x12)).setReg 13 (Reg.of x13)
  { t with pc := codeAddress pc, tvec := 0, status := .ready }

/-- An entry of home h given to a thread: it becomes running, the range is acquired, the registers are written; a near
body takes its launch's windows, and a vent thread the work's epoch.  stat.DBG stays 0 on a vent thread whatever the launch's
DEBUG flag: the spec's lists of what dispatch writes do not name it (log 51). -/
def State.giveTask (s : State) (h t : Nat) (r : Task) (far : Bool) : State :=
  let x := s.home h
  let s := s.setHome h { x with queue := x.queue.map fun y => if y == r then { y with running := true, runner := some t } else y }
  let s := s.leaveOrder t
  let y := (s.thread t).dispatch (if far then 1 else 0) r.args r.anchor (BitVec.ofNat 64 r.length) (if far then r.farPc else r.nearPc)
  let y := { y with work := some ⟨.task h r.seq.toNat far, r.origin⟩ }
  let y := if far then y else { y with win := s.windowsOf r.epoch }
  let y := if isVent t then { y with epoch := r.epoch } else y
  State.acquire ((s.setThread t y).count t 32) t

/-- A child given to a thread. -/
def State.giveChild (s : State) (t : Nat) (c : Child) : State :=
  let s := s.leaveOrder t
  let y := (s.thread t).dispatch 2 c.args c.join 0 c.entry
  let y := { y with work := some ⟨.child c.join, c.origin⟩ }
  State.acquire ((s.setThread t y).count t 32) t

/-! ## Head takes (R47) -/

/-- The cluster that serves a second-tier queue for a launch (R47); nothing where it lies in another package. -/
def State.serverCluster (s : State) (h : Nat) (e : BitVec 16) : Option Nat :=
  match s.launch e with
  | none => none
  | some l =>
    if l.clusters.contains (s.package, (h - 512) * 64) then some ((h - 512) * 64)
    else match l.clusters with
      | (p, c) :: _ => if p = s.package then some c else none
      | [] => none

/-- The threads of a cluster in WFW that can be given work, in order: only one whose slot is removed is passed over, and one whose
core stands still begins its work when the core goes on (R57, R58, R60). -/
def State.waiters (s : State) (c : Nat) : List Nat := (s.server c).order.filter fun t => isCompute t && !s.slotRemoved t

/-- The oldest eligible entry of a second-tier queue that a cluster serves for an epoch. -/
def State.secondHead (s : State) (h c : Nat) (e : BitVec 16) : Option Task :=
  (s.home h).eligible.find? fun r => r.epoch == e && s.serverCluster h e == some c

/-- The head take of a vent home. -/
def State.ventTake (s : State) (p : Nat) : State :=
  let s := s.serve (4096 + p)
  let order := (s.server (4096 + p)).order.filter fun t => decide (slotOf t < 6)
  match order, (s.home p).eligible.find? fun r => !s.offline r.epoch with
  | t :: _, some r => (s.giveTask p t r false).postOnce (.headTake p)
  | _, _ => s

/-- The head take of a second-tier queue: the dispensers of the clusters that serve it for the launches of its entries look for
work, and take at their step 3 (R47, R57). -/
def State.secondTake (s : State) (h : Nat) : State :=
  let servers := (((s.home h).eligible.filter fun r => !s.offline r.epoch).filterMap fun r => s.serverCluster h r.epoch).eraseDups
  servers.foldl (fun (s : State) c => if (s.waiters c).isEmpty then s else s.postOnce (.dispenserDispatch c)) s

def State.headTake (s : State) (h : Nat) : State :=
  if (s.core (coreOf (homeUnit h))).killed && decide (h < 512) then s
  else if h < 512 then s.ventTake h else s.secondTake h

def execHeadTake (home : Nat) (s : State) : Host.Outcome State Fault Refusal := happen (·.headTake home) s

/-! ## Steals (R46, R56) -/

/-- Q exceeds T, and T permits stealing. -/
def Home.stealable (h : Home) : Bool := h.teff != 255 && decide (h.teff.toNat < Home.queued h)

/-- Anchored homes that a cluster of a launch can reach. -/
def anchorReach (dom c : Nat) : List Nat :=
  match dom with
  | 0 => []
  | 1 => if c % 64 = 0 then [512 + c / 64] else []
  | 2 => (List.range 128).map (c / 64 * 128 + ·) ++ [512 + c / 64]
  | _ => List.range 516

/-- A list from a rotating pointer on: first the entries above it, then the others.  R58 says only that the order is fixed: that it
is the ascending one of core and home numbers, with the queues of the second tier behind the pseudo-channels, is the model's
choice (log 53). -/
def rotated (p : Nat) (xs : List Nat) : List Nat := xs.filter (p ≤ ·) ++ xs.filter (· < p)

/-- A steal request of a cluster judged at a home: granted to the first thread of the epoch that waits, or refused. -/
def State.steal (s : State) (c h : Nat) (e : BitVec 16) : State :=
  let x := s.home h
  let refuse := fun (s : State) =>
    let k := s.cluster c
    let s := s.setCluster c { k with refused := h :: k.refused }
    if (s.waiters c).isEmpty then s else s.postOnce (.dispenserDispatch c)
  if s.offline e || ((s.core (coreOf (homeUnit h))).killed && decide (h < 512)) || !x.stealable then refuse s
  else match (x.eligible.filter fun r => r.epoch == e).getLast?, (s.waiters c).find? fun t => (s.thread t).epoch == e with
    | some r, some t =>
      let s := s.giveTask h t r true
      let s := s.setCluster c { s.cluster c with ptr4 := h + 1 }
      if (s.waiters c).isEmpty then s else s.postOnce (.dispenserDispatch c)
    | none, _ => refuse s
    | some _, none => s

def execStealRequest (cluster home epoch : Nat) (s : State) : Host.Outcome State Fault Refusal :=
  happen (·.steal cluster home (BitVec.ofNat 16 epoch)) s

/-! ## The dispenser (R57, R58) -/

/-- The core of a cluster with an index from 0 to 63. -/
def clusterCore (c i : Nat) : Nat := c * 0x2000 + i * 0x80

def coreIndex (t : Nat) : Nat := t / 0x80 % 64

/-- An entry at the top end of a core's deque, and the deque without it (R41). -/
def State.topChild (s : State) (k : Nat) (e : BitVec 16) : Option (Child × State) :=
  let x := s.core k
  match x.deque with
  | d :: rest => if d.epoch == e && !x.killed then some (d, s.setCore k { x with deque := rest }) else none
  | [] => none

/-- An entry at the bottom end. -/
def State.bottomChild (s : State) (k : Nat) (e : BitVec 16) : Option (Child × State) :=
  let x := s.core k
  match x.deque.getLast? with
  | some d => if d.epoch == e && !x.killed then some (d, s.setCore k { x with deque := x.deque.dropLast }) else none
  | none => none

/-- The first core of a list that has a child to give. -/
def State.findChild (s : State) (e : BitVec 16) : List Nat → Option (Nat × Child × State)
  | [] => none
  | k :: ks => match s.topChild k e with
    | some (d, s') => some (k, d, s')
    | none => State.findChild s e ks

/-- A deque that a child has left may have been the last that kept a cluster from being quiescent. -/
def State.tookChild (s : State) (k : Nat) (e : BitVec 16) : State := s.askQuiet (clusterOf k) e

/-- Step 2: the thread's own deque from below, then the others that DEQUE_DOMAIN reaches in the cluster from above. -/
def State.stepDeques (s : State) (c t : Nat) (l : Launch) : Option State :=
  match s.bottomChild (coreOf t) l.epoch with
  | some (d, s) => some ((s.giveChild t d).tookChild (coreOf t) l.epoch)
  | none =>
    let others := ((rotated (s.cluster c).ptr2 (List.range 64)).map (clusterCore c)).filter fun k =>
      k != coreOf t && (l.dequeDom != 0 || tileOf k == tileOf t)
    match s.findChild l.epoch others with
    | some (k, d, s) =>
      let s := (s.giveChild t d).tookChild k l.epoch
      some (s.setCluster c { s.cluster c with ptr2 := (coreIndex k + 1) % 64 })
    | none => none

/-- Step 3: the head take of a second-tier queue that the cluster serves: its own, or, for geyser number 0, one whose own cluster
is not in the set (R47). -/
def State.stepSecond (s : State) (c t : Nat) (l : Launch) : Option State :=
  (List.range 4).findSome? fun d => (s.secondHead (512 + d) c l.epoch).map fun r => s.giveTask (512 + d) t r false

/-- Step 4: a steal request to the next home in ANCHOR_DOMAIN whose Q exceeds T and that has not refused one since it
changed. -/
def State.stepSteal (s : State) (c : Nat) (l : Launch) : Option State :=
  let k := s.cluster c
  if s.agenda.any fun h => match h with
      | .stealRequest d _ _ => d == c
      | _ => false then some s
  else match (rotated k.ptr4 (anchorReach l.anchorDom c)).find? fun h => (s.home h).stealable && !k.refused.contains h with
    | some h => some (s.post [.stealRequest c h l.epoch.toNat])
    | none => none

/-- Step 5: the top ends of deques in DEQUE_DOMAIN outside the cluster. -/
def State.stepFar (s : State) (c t : Nat) (l : Launch) : Option State :=
  if l.dequeDom < 2 then none
  else
    let clusters := (l.clusters.filter fun y => y.1 == s.package && y.2 != c && (l.dequeDom != 2 || y.2 / 64 == c / 64)).map (·.2)
    let cores := (rotated (s.cluster c).ptr5 (clusters.flatMap fun d => (List.range 64).map fun i => d * 64 + i)).map fun n =>
      clusterCore (n / 64) (n % 64)
    match s.findChild l.epoch cores with
    | some (k, d, s) =>
      let s := (s.giveChild t d).tookChild k l.epoch
      some (s.setCluster c { s.cluster c with ptr5 := clusterOf k * 64 + coreIndex k + 1 })
    | none => none

/-- The first of several steps that yields work. -/
def firstOf : List (Unit → Option State) → Option State
  | [] => none
  | f :: fs => match f () with
    | some s => some s
    | none => firstOf fs

/-- Calls first, then the search for the thread at the head of the order. -/
def State.dispense (s : State) (c : Nat) : State :=
  let s := s.serve c
  match s.waiters c with
  | [] => s
  | t :: _ => match s.launch (s.thread t).epoch with
    | none => s
    | some l =>
      if l.phase ≠ .running then s
      else match firstOf [fun _ => s.stepDeques c t l, fun _ => s.stepSecond c t l, fun _ => s.stepSteal c l, fun _ => s.stepFar c t l] with
        | some s => if (s.waiters c).isEmpty || (s.waiters c).head? == some t then s else s.postOnce (.dispenserDispatch c)
        | none => s

def execDispenserDispatch (cluster : Nat) (s : State) : Host.Outcome State Fault Refusal := happen (·.dispense cluster) s

/-! ## The adaptive threshold (R51) -/

/-- W: 6, or the threads that serve near bodies of a second-tier queue, over every launch with an entry in it. -/
def State.serversOf (s : State) (h : Nat) : Nat :=
  if h < 512 then 6
  else
    let es := ((s.home h).queue.map (·.epoch)).eraseDups
    max 1 ((es.map fun e => match s.serverCluster h e with
      | some c => ((s.server c).order.filter fun t => isCompute t && (s.thread t).epoch == e).length
      | none => 0).sum)

/-- T in adaptive mode. -/
def Home.adaptive (h : Home) (w : Nat) : Nat := min (max (Home.target h * w / max 1 h.mean) (Home.tmin h)) (Home.tmax h)

def State.thresholdUpdate (s : State) (h : Nat) : State :=
  let x := s.home h
  if Home.adapt x then
    let t := BitVec.ofNat 8 (x.adaptive (s.serversOf h))
    if t = x.teff then s else (s.setHome h { x with teff := t }).homeChanged h
  else s

def execThresholdUpdate (home : Nat) (s : State) : Host.Outcome State Fault Refusal := happen (·.thresholdUpdate home) s

/-! ## Notices and the geyser tree (R64 to R67, R337) -/

def State.countsOf (s : State) (c : Nat) (e : BitVec 16) : Counts := Tab.get Counts.initial (s.cluster c).counts e.toNat

def State.setCounts (s : State) (c : Nat) (e : BitVec 16) (n : Counts) : State :=
  s.setCluster c { s.cluster c with counts := Tab.put (s.cluster c).counts e.toNat n }

def State.created (s : State) (m : Notice) : State :=
  let n := s.countsOf m.cluster m.epoch
  s.setCounts m.cluster m.epoch { n with unretired := n.unretired + 1 }

/-- The earliest failed retirement by gtime. -/
def earliest (a : Option (Nat × Nat)) (code time : Nat) : Option (Nat × Nat) :=
  match a with
  | some (c, t) => if time < t then some (code, time) else some (c, t)
  | none => some (code, time)

def State.retired (s : State) (m : Notice) : State :=
  let n := s.countsOf m.cluster m.epoch
  let n := { n with unretired := n.unretired - 1 }
  let n := if m.code = 0 then { n with completed := min (n.completed + 1) 0xFFFFFFFF }
    else { n with failed := min (n.failed + 1) 0xFFFF, fault := earliest n.fault m.code m.time }
  (s.setCounts m.cluster m.epoch n).askQuiet m.cluster m.epoch

/-- Two notices go from one unit to one cluster. -/
def Notice.sameWay (a b : Notice) : Bool := a.sender == b.sender && a.cluster == b.cluster

/-- Creation notices counted, in order. -/
def State.countCreates (s : State) (ms : List Notice) : State :=
  ms.foldl (fun (s : State) m => State.created { s with net := { s.net with creates := s.net.creates.erase m } } m) s

/-- Retirement notices counted, in order. -/
def State.countRetires (s : State) (ms : List Notice) : State :=
  ms.foldl (fun (s : State) m => State.retired { s with net := { s.net with retires := s.net.retires.erase m } } m) s

/-- The n-th creation notice on its way arrives, behind what its sender has sent to that cluster before it. -/
def State.creationNotice (s : State) (n : Nat) : State :=
  match s.net.creates[min n (s.net.creates.length - 1)]? with
  | none => s
  | some m =>
    let first := s.net.retires.filter fun x => x.sameWay m && decide (x.tick < m.tick)
    (s.countCreates ((s.net.creates.takeWhile (· != m)).filter (·.sameWay m) ++ [m])).countRetires first

def execCreationNotice (n : Nat) (s : State) : Host.Outcome State Fault Refusal := happen (·.creationNotice n) s

/-- The n-th retirement notice arrives, behind what its sender has sent to that cluster before it, and behind every creation
notice of the same cluster and launch that was sent no later: those that the work's own body caused are among them (log 35). -/
def State.retirementNotice (s : State) (n : Nat) : State :=
  match s.net.retires[min n (s.net.retires.length - 1)]? with
  | none => s
  | some m =>
    let mine := fun (x : Notice) => decide (x.tick ≤ m.tick) && (x.sameWay m || (x.cluster == m.cluster && x.epoch == m.epoch))
    (s.countCreates (s.net.creates.filter mine)).countRetires ((s.net.retires.takeWhile (· != m)).filter (·.sameWay m) ++ [m])

def execRetirementNotice (n : Nat) (s : State) : Host.Outcome State Fault Refusal := happen (·.retirementNotice n) s

/-- The order in which fault codes win. -/
def faultRank (c : Nat) : Nat :=
  if c = 0x41 then 0 else if c = 0x42 then 1 else if c = 0x40 then 2 else if c = 0x13 then 3 else c + 4

/-- The winner of two fault codes; 0 is none. -/
def worseFault (a b : Nat) : Nat := if a = 0 then b else if b = 0 then a else if faultRank b < faultRank a then b else a

def wordFault (w : Word) : Nat := (w >>> 48).toNat
def wordFailed (w : Word) : Nat := (w >>> 32).toNat % 2 ^ 16
def wordCompleted (w : Word) : Nat := w.toNat % 2 ^ 32

/-- A status word (R67). -/
def statusWord (fault failed completed : Nat) : Word :=
  BitVec.ofNat 64 (fault % 2 ^ 16 * 2 ^ 48 + failed % 2 ^ 16 * 2 ^ 32 + completed % 2 ^ 32)

/-- Two words combined (R67). -/
def combineWords (a b : Word) : Word :=
  statusWord (worseFault (wordFault a) (wordFault b)) (min (wordFailed a + wordFailed b) 0xFFFF)
    (min (wordCompleted a + wordCompleted b) 0xFFFFFFFF)

/-- A cluster's word: its own counts combined with its children's. -/
def Counts.word (n : Counts) : Word :=
  n.heard.foldl combineWords (statusWord (match n.fault with | some (c, _) => c | none => 0) n.failed n.completed)

/-- The geyser number of a cluster in its launch. -/
def Launch.geyser (l : Launch) (pkg c : Nat) : Option Nat := l.clusters.findIdx? (· == (pkg, c))

/-- How many children a geyser number has. -/
def Launch.children (l : Launch) (i : Nat) : Nat := min 4 (l.clusters.length - (4 * i + 1))

/-- Some thread of the launch on the cluster's cores is READY, WAIT or HELD; a killed core takes no part (R351).  Whether a control
thread of the launch counts is left open: it is not counted, which is the model's choice (log 53). -/
def State.busyThreads (s : State) (c : Nat) (e : BitVec 16) : Bool :=
  s.threads.any fun (y : Nat × Thread) => isCompute y.1 && clusterOf y.1 == c && y.2.epoch == e && y.2.status != .idle
    && y.2.status != .wfw && !(s.core (coreOf y.1)).killed

/-- Creation notices on their way to a cluster for a launch: that work is unretired though it is not counted yet. -/
def State.createsFor (s : State) (c : Nat) (e : BitVec 16) : Nat := (s.net.creates.filter fun n => n.cluster == c && n.epoch == e).length

/-- Retirement notices on their way: that work is counted yet though it has retired. -/
def State.retiresFor (s : State) (c : Nat) (e : BitVec 16) : Nat := (s.net.retires.filter fun n => n.cluster == c && n.epoch == e).length

/-- The cluster is quiescent for a launch (R66). -/
def State.quiescent (s : State) (l : Launch) (i c : Nat) : Bool :=
  let n := s.countsOf c l.epoch
  n.unretired == 0 && s.createsFor c l.epoch == 0 && !s.busyThreads c l.epoch
    && !(clusterCores c).any (fun k => (s.core k).deque.any fun d => d.epoch == l.epoch)
    && !(decide (c % 64 = 0) && (s.home (512 + c / 64)).queue.any fun r => r.epoch == l.epoch)
    && decide (l.children i ≤ n.heard.length)

/-- Firmware as the receiver of a status word. -/
def firmware : Nat := 256

/-- A quiescent cluster reports, once. -/
def State.clusterQuiescent (s : State) (c : Nat) (e : BitVec 16) : State :=
  match s.launch e with
  | none => s
  | some l => match l.geyser s.package c with
    | none => s
    | some i =>
      let n := s.countsOf c e
      if l.phase ≠ .running ∨ n.reported ∨ !s.quiescent l i c then s
      else
        let s := s.setCounts c e { n with reported := true }
        if i = 0 then
          State.post { s with net := { s.net with words := s.net.words ++ [(c, firmware, e, n.word)] } } [.launchComplete e.toNat]
        else match l.clusters[(i - 1) / 4]? with
          | some (p, d) =>
            if p ≠ s.package then s
            else State.post { s with net := { s.net with words := s.net.words ++ [(c, d, e, n.word)] } }
              [.childStatusWord s.net.words.length]
          | none => s

def execClusterQuiescent (cluster epoch : Nat) (s : State) : Host.Outcome State Fault Refusal :=
  happen (·.clusterQuiescent cluster (BitVec.ofNat 16 epoch)) s

/-- The n-th status word on its way to a cluster arrives. -/
def State.childStatusWord (s : State) (n : Nat) : State :=
  let q := s.net.words.filter fun (y : Nat × Nat × BitVec 16 × Word) => y.2.1 != firmware
  match q[min n (q.length - 1)]? with
  | none => s
  | some (a, c, e, w) =>
    let s := { s with net := { s.net with words := s.net.words.erase (a, c, e, w) } }
    let x := s.countsOf c e
    (s.setCounts c e { x with heard := x.heard ++ [w] }).askQuiet c e

def execChildStatusWord (n : Nat) (s : State) : Host.Outcome State Fault Refusal := happen (·.childStatusWord n) s

/-! ## The end of a launch (R68, R213, R290, R351, R375) -/

/-- The key of a host address as master m's host port maps it (R17, R370). -/
def State.hostKey (s : State) (m a : Nat) : Nat :=
  keyOf (s.package * 2 ^ 44 + (if m < 2 then 0x40000000000 else 0x80000000000) + a % 2 ^ 42)

/-- The calls of an epoch are forgotten: its cells commit, its reply-cache entries are freed, calls that waited for an
entry are served. -/
def State.settleLaunch (s : State) (e : BitVec 16) : State :=
  let s := (s.cells.filter fun c => c.epoch == e).foldl State.endCell s
  let full := s.servers.filter fun (y : Nat × Server) => y.2.cache.any fun x => x.epoch == e
  let s := { s with servers := s.servers.map fun (y : Nat × Server) => (y.1, { y.2 with cache := y.2.cache.filter fun x => x.epoch != e }) }
  full.foldl (fun (s : State) y => s.serve y.1) s

/-- A vent core that was killed serves again: its threads are in WFW as after reset (R351). -/
def State.reviveVent (s : State) (c : Nat) : State :=
  { s with
    threads := s.threads.filter fun (y : Nat × Thread) => coreOf y.1 != c
    servers := Tab.drop s.servers (4096 + channelOf c) }

/-- The key of a local page number. -/
def State.pageKey (s : State) (f : Nat) : Nat := keyOf (s.package * 2 ^ 44 + f * 4096)

/-- What the package remembers of a page goes with the page: host copies, host bias, the homes of its lines (R309, R324). -/
def State.forgetPage (s : State) (k : Nat) : State :=
  let s := s.dropHostLines k 4096
  { s with
    host := { s.host with bias := s.host.bias.filter (· != k / 4096) }
    homed := s.homed.filter fun (y : Nat × Word) => s.pageKey y.1 != k
    touched := s.touched.filter fun (y : Nat × Nat) => !overlaps (y.1 * 512) 512 k 4096 }

/-- A core rejoins service with the end of a launch: it was killed under it, or while it ran none and none is left; a core
classified lasting never does (R351). -/
def State.rejoins (s : State) (l : Launch) (k : Core) : Bool :=
  k.killed && !k.lasting && (k.killedIn == l.epoch || (k.killedIn == 0 && s.fw.launches.all fun x => x.phase == .complete))

/-- The launch's resources are free again: its root registers, its ranks, its frames, and the cores killed under it that were
not classified lasting (log 14). -/
def State.freeLaunch (s : State) (l : Launch) : State :=
  let mine := fun (h : Held) => h.slot == l.slot && h.epoch == l.epoch
  let unload := fun (p : Pager) => { p with
    roots := p.roots.map fun (w : Word) => if w.getLsbD 0 && w >>> 48 == l.epoch.setWidth 64 then 0 else w
    cache := p.cache.filter fun h => !mine h
    walked := p.walked.filter fun w => w.epoch != l.epoch
    known := p.known.filter fun h => !mine h }
  let back := (s.cores.filter fun (y : Nat × Core) => s.rejoins l y.2).map (·.1)
  let s := (back.filter isVent).foldl State.reviveVent s
  let s := (l.frames.map s.pageKey).foldl State.forgetPage s
  { s with
    clusters := s.clusters.map fun (y : Nat × Cluster) => (y.1, { y.2 with pager := unload y.2.pager })
    pagers := s.pagers.map fun (y : Nat × Pager) => (y.1, unload y.2)
    ranks := s.ranks.filter fun (y : Nat × Word) => y.1 / 2 ^ 32 != l.epoch.toNat
    homes := s.homes.map fun (y : Nat × Home) => (y.1, { y.2 with early := y.2.early.filter fun d => d.2.2 != l.epoch })
    cores := s.cores.map fun (y : Nat × Core) => if back.contains y.1 then (y.1, { y.2 with killed := false, killedIn := 0 }) else y }

/-- The completion word written and the MSI-X vector raised (R375). -/
def State.announce (s : State) (l : Launch) (w : Word) : State :=
  let s := s.writeHome fwAgent 32 (s.hostKey l.master l.compAt) (leBytes 8 w.toNat ++ leBytes 8 l.epoch.toNat)
  { s with fw := { s.fw with msix := (l.master, l.vector) :: s.fw.msix } }

/-- A launch is complete with a status word. -/
def State.completeLaunch (s : State) (e : BitVec 16) (w : Word) : State :=
  match s.launch e with
  | none => s
  | some l =>
    let s := (s.settleLaunch e).announce l w
    (s.setLaunch { l with phase := .complete, word := some w, frames := [], saved := none }).freeLaunch l

/-- The root's word reaches firmware. -/
def State.launchComplete (s : State) (e : BitVec 16) : State :=
  match s.net.words.find? fun (y : Nat × Nat × BitVec 16 × Word) => y.2.1 == firmware && y.2.2.1 == e with
  | none => s
  | some (a, b, e, w) => State.completeLaunch { s with net := { s.net with words := s.net.words.erase (a, b, e, w) } } e w

def execLaunchComplete (epoch : Nat) (s : State) : Host.Outcome State Fault Refusal :=
  happen (·.launchComplete (BitVec.ofNat 16 epoch)) s

end Sys2Proof.Machine
end

