-- ==== Sys2Proof/Machine/Net.lean ====
section
/-! DEFINITION.
Migrating threads and messages at the units they reach (R292 to R295, R341, R342, R349).
-/

namespace Sys2Proof.Machine

/-! ## Migration (R292) -/

/-- The first IDLE hardware thread of a cluster, in order of tile, core and thread. -/
def State.idleThread (s : State) (c : Nat) : Option Nat :=
  (clusterThreads c).find? fun t => (s.thread t).status == .idle && !(s.core (coreOf t)).killed && !(s.core (coreOf t)).stopped

/-- The home's entry of a migrated task names its new thread. -/
def State.moveRunner (s : State) (a b : Nat) (x : Thread) : State :=
  match x.work with
  | some ⟨.task h q _, _⟩ =>
    let y := s.home h
    s.setHome h { y with queue := y.queue.map fun r =>
      if r.seq.toNat == q && r.epoch == x.epoch && r.runner == some a then { r with runner := some b } else r }
  | _ => s

/-- A context placed in a thread: READY, its rank entries and leases renamed, the arrival acquire performed.  NC words that
the core holds go first, so that the thread's own uses of those lines stay in order (R189).  Messages held for its ranks go
on. -/
def State.land (s : State) (m : Migrant) (t : Nat) : State :=
  let s := s.flushNC (coreOf t)
  let s := (s.setThread t ((s.thread t).arrive m.ctx)).moveRunner m.source t m.ctx
  let old := s.package * 2 ^ 24 + m.source
  let s := s.mapRanks (fun w => rankValid w && rankTransit w && rankThread w == old)
    (fun w => (w &&& ~~~ 0x2FFF_FFFF_FFFF) ||| BitVec.ofNat 64 (s.package * 2 ^ 24 + t))
  let moved := fun (l : Lease) => if l.holder = m.source then { l with holder := t } else l
  let s := { s with
    host := { s.host with held := s.host.held.map moved }
    net := { s.net with refusals := s.net.refusals.map moved } }
  let s := s.acquire t
  s.post (s.net.msgs.map fun _ => Happening.messageArrival 0)

/-- The n-th context on its way: placed, or waiting while its cluster has no IDLE thread. -/
def State.migrationArrival (s : State) (n : Nat) : State :=
  let q := s.net.migrants
  match q[min n (q.length - 1)]? with
  | none => s
  | some m => match s.idleThread m.cluster with
    | none => s.post [.migrationArrival n]
    | some t => State.land { s with net := { s.net with migrants := q.erase m } } m t

def execMigrationArrival (n : Nat) (s : State) : Host.Outcome State Fault Refusal := happen (·.migrationArrival n) s

/-! ## Messages (R293, R294, R342) -/

/-- The SEND of a message is done: its thread goes on. -/
def State.sent (s : State) (t : Nat) : State :=
  let x := s.thread t
  if x.status = .wait .send then s.setThread t (x.next 4) else s

/-- The SEND of a message traps. -/
def State.sendFails (s : State) (m : Msg) (c : Cause) : State :=
  let x := s.thread m.sender
  if x.status = .wait .send then State.takeAt (s.setThread m.sender { x with status := .ready }) m.sender c m.rank x.pc else s

/-- A message at its receiver: accepted by the mailbox, kept as a late message, or refused with a NAK. -/
def State.deliver (s : State) (m : Msg) (u : Nat) : State :=
  let x := s.thread u
  let mail : Mail := ⟨1, s.rankOf (s.thread m.sender).epoch m.sender, m.body⟩
  let nak := fun (s : State) => State.post { s with net := { s.net with naks := s.net.naks ++ [m] } } [.backPressureNak s.net.naks.length]
  if x.isSealed then s.sendFails m .poison
  else if s.offline x.epoch then
    if x.late.length < 64 then
      let y := { x with late := x.late ++ [mail] }
      let s := s.setThread u y
      State.sent (match s.launch x.epoch with
        | some l => s.noteLate l u y
        | none => s) m.sender
    else nak s
  else if x.mail.length < 4 ∧ x.late = [] then
    State.sent ((s.setThread u { x with mail := x.mail ++ [mail] }).wake fun t w => t == u && w == .recv) m.sender
  else nak s

/-- Two messages go to the same rank of the same launch. -/
def State.sameRank (s : State) (a b : Msg) : Bool :=
  (s.thread a.sender).epoch == (s.thread b.sender).epoch && a.rank.setWidth 32 == b.rank.setWidth 32

/-- The message that arrives where m would: one of the same rank that a gang switch has saved goes before a new one (R341), and
while that has been refused, the new one waits. -/
def State.nextMessage (s : State) (m : Msg) : Option Msg :=
  if m.saved then some m
  else match s.net.msgs.find? fun x => x.saved && s.sameRank x m with
    | some x => some x
    | none => if s.net.naks.any fun x => x.saved && s.sameRank x m then none else some m

/-- The n-th message on its way: held while its rank is in transit, otherwise delivered where the rank table says.  One for
another package leaves this machine (log 18). -/
def State.messageArrival (s : State) (n : Nat) : State :=
  let q := s.net.msgs
  match (q[min n (q.length - 1)]?).bind s.nextMessage with
  | none => if q.isEmpty then s else s.post [.messageArrival n]
  | some m =>
    let w := s.rankEntry (s.thread m.sender).epoch (m.rank.toNat % 2 ^ 32)
    if rankTransit w && !rankDead w then s
    else
      let s := { s with net := { s.net with msgs := q.erase m } }
      if !rankValid w || rankDead w then s.sendFails m .poison
      else if rankThread w / 2 ^ 24 ≠ s.package then s.sent m.sender
      else s.deliver m (rankThread w % 2 ^ 24)

def execMessageArrival (n : Nat) (s : State) : Host.Outcome State Fault Refusal := happen (·.messageArrival n) s

/-- The n-th NAK reaches its sender, which sends the message again. -/
def State.resendMessage (s : State) (n : Nat) : State :=
  let q := s.net.naks
  match q[min n (q.length - 1)]? with
  | none => s
  | some m => State.sendMsg { s with net := { s.net with naks := q.erase m } } m

def execBackPressureNak (n : Nat) (s : State) : Host.Outcome State Fault Refusal := happen (·.resendMessage n) s

end Sys2Proof.Machine
end

