-- ==== Sys2Proof/Machine/Images.lean ====
section
/-! DEFINITION.
GXO images as firmware reads them: header, sections, views, manifest, signature, and what LOAD refuses (R127 to R134,
R374, R376).
-/

namespace Sys2Proof.Machine

/-! ## Status codes (R372) -/

namespace Code

def ok : Nat := 0
def badOpcode : Nat := 1
def notOwner : Nat := 2
def owned : Nat := 3
def badArg : Nat := 4
def malformed : Nat := 5
def badSignature : Nat := 6
def badView : Nat := 7
def noResource : Nat := 8
def leaseFail : Nat := 9
def wlenMismatch : Nat := 10
def notSynced : Nat := 11
def tooLate : Nat := 12

end Code

/-- n bytes at an offset of a byte list, as a number. -/
def fieldAt (bs : List Byte) (off n : Nat) : Nat := leNat ((bs.drop off).take n)

/-- n bytes at an offset are all zero. -/
def zerosAt (bs : List Byte) (off n : Nat) : Bool := ((bs.drop off).take n).all (· == 0)

/-! ## Header and sections (R127, R128) -/

namespace Gxo

def flags (b : List Byte) : Nat := fieldAt b 0x08 8
def isSigned (b : List Byte) : Bool := (flags b).testBit 0
def hasManifest (b : List Byte) : Bool := (flags b).testBit 1
def sectOff (b : List Byte) : Nat := fieldAt b 0x10 8
def sectCount (b : List Byte) : Nat := fieldAt b 0x18 4
def symCount (b : List Byte) : Nat := fieldAt b 0x1C 4
def symOff (b : List Byte) : Nat := fieldAt b 0x20 8
def strOff (b : List Byte) : Nat := fieldAt b 0x28 8
def strSize (b : List Byte) : Nat := fieldAt b 0x30 8
def viewOff (b : List Byte) : Nat := fieldAt b 0x38 8
def viewCount (b : List Byte) : Nat := fieldAt b 0x40 4
def manOff (b : List Byte) : Nat := fieldAt b 0x48 8
def manSize (b : List Byte) : Nat := fieldAt b 0x50 8
def sigOff (b : List Byte) : Nat := fieldAt b 0x58 8
def sigSize (b : List Byte) : Nat := fieldAt b 0x60 8

/-- A table lies in the file. -/
def inFile (b : List Byte) (off n : Nat) : Bool := decide (off + n ≤ b.length)

/-- A section: type, flags, offset in its window, contents, window. -/
structure Section where
  kind    : Nat
  align   : Nat
  flags   : Nat
  woff    : Nat
  fileOff : Nat
  size    : Nat
  relocs  : Nat
  window  : Nat
  clean   : Bool
  deriving DecidableEq, Repr

def sectionAt (b : List Byte) (i : Nat) : Section :=
  let o := sectOff b + 64 * i
  { kind := fieldAt b (o + 4) 2, align := fieldAt b (o + 6) 2, flags := fieldAt b (o + 8) 8, woff := fieldAt b (o + 0x10) 8
    fileOff := fieldAt b (o + 0x18) 8, size := fieldAt b (o + 0x20) 8, relocs := fieldAt b (o + 0x30) 4
    window := fieldAt b (o + 0x34) 1, clean := zerosAt b (o + 0x35) 11 }

/-- Every section but the null one. -/
def sections (b : List Byte) : List Section := (List.range (sectCount b - 1)).map fun i => sectionAt b (i + 1)

/-! ## Manifest (R132) -/

def man (b : List Byte) (off n : Nat) : Nat := fieldAt b (manOff b + off) n
def mflags (b : List Byte) : Nat := man b 4 4
def superPc (b : List Byte) : Nat := man b 8 8
def nRange (b : List Byte) : Nat := man b 0x10 2
def nClust (b : List Byte) : Nat := man b 0x12 2
def nRoot (b : List Byte) : Nat := man b 0x14 2
def nEntry (b : List Byte) : Nat := man b 0x16 2
def window (b : List Byte) (i : Nat) : BitVec 128 := BitVec.ofNat 128 (man b (0x40 + 16 * i) 16)
def clustOff (b : List Byte) : Nat := 0xC0 + 32 * nRange b
def rootOff (b : List Byte) : Nat := clustOff b + 8 * nClust b
def entryOff (b : List Byte) : Nat := rootOff b + 64 * nRoot b
def manEnd (b : List Byte) : Nat := entryOff b + 16 * nEntry b

/-- A declared range: effective address, length, faultable. -/
def rangeOf (b : List Byte) (i : Nat) : Nat × Nat × Bool :=
  let o := 0xC0 + 32 * i
  (man b o 8, man b (o + 8) 8, man b (o + 0x10) 1 == 1)

/-- A cluster run: package index, first, count. -/
def runOf (b : List Byte) (i : Nat) : Nat × Nat × Nat :=
  let o := clustOff b + 8 * i
  (man b o 2, man b (o + 2) 2, man b (o + 4) 2)

/-- Root j, with its origin still to be found. -/
def rootOf (b : List Byte) (j : Nat) : Root :=
  let o := rootOff b + 64 * j
  let w := fun n => BitVec.ofNat 64 (man b (o + 8 * n) 8)
  ⟨w 0, w 1, w 2, ⟨#[w 3, w 4, w 5, w 6], rfl⟩, 0, none⟩

/-- An entry: pc and mask of slots. -/
def entryOf (b : List Byte) (i : Nat) : Nat × Nat :=
  let o := entryOff b + 16 * i
  (man b o 8, man b (o + 8) 1)

/-- The signature block is what R133 says: 200 bytes that end the file, their reserved field zero. -/
def signatureFits (b : List Byte) : Bool := sigSize b == 200 && sigOff b + 200 == b.length && zerosAt b (sigOff b + 4) 4

/-- The header and the tables it names (R127, R134).  R134 lists KIND, VERSION, reserved fields and tables that run past the file; a
header value outside the limits of R127 is refused with the same status, and so is a section or a manifest value outside those of
R128 and R132, which R134 does not list: the model's choice (log 53). -/
def headerOk (b : List Byte) : Bool :=
  decide (128 ≤ b.length) && fieldAt b 0 4 == 0x004F5847 && fieldAt b 4 2 == 1 && fieldAt b 6 2 == 2
    && decide (flags b < 4) && decide (1 ≤ sectCount b ∧ sectCount b ≤ 65535) && decide (viewCount b ≤ 192)
    && zerosAt b 0x44 4 && zerosAt b 0x68 24
    && inFile b (sectOff b) (64 * sectCount b) && inFile b (symOff b) (32 * symCount b) && inFile b (strOff b) (strSize b)
    && inFile b (viewOff b) (48 * viewCount b) && inFile b (manOff b) (manSize b)
    && (if isSigned b then signatureFits b else sigSize b == 0)

/-- The section table: limits as R128 gives them, contents in the file, each section within its window (R134, log 53). -/
def sectionsOk (b : List Byte) : Bool :=
  zerosAt b (sectOff b) 64
    && (sections b).all fun t =>
      t.clean && (t.kind == 1 || t.kind == 2) && decide (t.align ≤ 12 ∧ t.flags < 8 ∧ t.window < 8) && t.relocs == 0
        && (t.kind == 2 || inFile b t.fileOff t.size)
        && (!hasManifest b || t.size == 0 || decide (t.woff + t.size - 1 ≤ Win.limit (window b t.window)))

def symbolsOk (b : List Byte) : Bool := (List.range (symCount b)).all fun i => zerosAt b (symOff b + 32 * i + 0x18) 8

/-- The manifest: windows well formed, reserved fields zero, and its values within the limits of R132 (R134, log 53). -/
def manifestOk (b : List Byte) : Bool :=
  man b 0 4 == 0x004D5847 && decide (mflags b < 128) && decide (mflags b % 8 ≤ 4 ∧ mflags b / 8 % 8 ≤ 4)
    && decide (nRange b ≤ 1024 ∧ 1 ≤ nClust b ∧ nClust b ≤ 4096 ∧ nEntry b ≤ 8) && zerosAt b (manOff b + 0x18) 40
    && decide (manEnd b ≤ manSize b)
    && (List.range 8).all (fun i => Win.wellFormed (window b i))
    && (List.range (nRange b)).all (fun i => zerosAt b (manOff b + 0xC0 + 32 * i + 0x11) 15 && decide (man b (0xC0 + 32 * i + 0x10) 1 ≤ 1))
    && (List.range (nClust b)).all (fun i => let (_, f, n) := runOf b i
        decide (f ≤ 191 ∧ f + n ≤ 192) && man b (clustOff b + 8 * i + 6) 2 == 0)
    && (List.range (nRoot b)).all (fun i => zerosAt b (manOff b + rootOff b + 64 * i + 0x38) 8)
    && (List.range (nEntry b)).all (fun i => zerosAt b (manOff b + entryOff b + 16 * i + 9) 7)

/-- The reserved fields of a view-table entry are zero, those of its VCFG and VLEN included (R92, R131). -/
def viewClean (b : List Byte) (i : Nat) : Bool :=
  let o := viewOff b + 48 * i
  decide (fieldAt b o 8 < 2 ^ 17 ∧ fieldAt b (o + 0x18) 8 < 2 ^ 32) && zerosAt b (o + 0x22) 2 && zerosAt b (o + 0x28) 8

/-- What R134 asks of an image. -/
def acceptable (b : List Byte) : Bool :=
  headerOk b && sectionsOk b && symbolsOk b && (!hasManifest b || manifestOk b)
    && (List.range (viewCount b)).all (viewClean b)

/-! ## Signature (R133, R376) -/

def keyId (b : List Byte) : List Byte := (b.drop (sigOff b + 8)).take 48
def digest (b : List Byte) : List Byte := (b.drop (sigOff b + 0x38)).take 48
def signature (b : List Byte) : List Byte := (b.drop (sigOff b + 0x68)).take 96

/-- A signature by a given key: algorithm, KEY_ID, DIGEST of the file, and the signature over DIGEST. -/
def signedBy (b key : List Byte) : Bool :=
  fieldAt b (sigOff b) 4 == 1 && keyId b == Config.sha384 key
    && digest b == Config.sha384 (b.take (sigOff b)) && Config.ecdsaOk key (digest b) (signature b)

/-- LOAD's verdict with the keys it holds. -/
def accepted (keys : List (List Byte)) (b : List Byte) : Bool :=
  if isSigned b then keys.any (signedBy b) else keys.isEmpty

/-- Measurement of a loaded image (R377). -/
def measure (b : List Byte) : List Byte := if isSigned b then digest b else Config.sha384 b

end Gxo

/-! ## Firmware's frames (log 14) -/

/-- The first of the numbers below m that is acceptable, looked for from i on and around, n of them at most. -/
def firstFrom (ok : Nat → Bool) (m : Nat) : Nat → Nat → Option Nat
  | 0, _ => none
  | n + 1, i => if ok (i % m) then some (i % m) else firstFrom ok m n (i + 1)

/-- The first k of them. -/
def firstsFrom (ok : Nat → Bool) (m : Nat) : Nat → Nat → Nat → Option (List Nat)
  | _, _, 0 => some []
  | 0, _, _ + 1 => none
  | n + 1, i, k + 1 => if ok (i % m) then (firstsFrom ok m n (i + 1) k).map (i % m :: ·) else firstsFrom ok m n (i + 1) (k + 1)

/-- Frames of a range of pages from a first page number. -/
def framesFrom (f n : Nat) : List Nat := (List.range n).map (f + ·)

/-- Pages that a declared range covers: those of its bytes, from the page of its first byte. -/
def rangePages (ea len : Nat) : Nat := (ea % 4096 + len + 4095) / 4096

/-- A launch that exists: running or switched out (R61). -/
def Launch.exists_ (l : Launch) : Bool := l.phase != .complete

/-- A frame that a launch holds or firmware keeps. -/
def State.frameTaken (s : State) (f : Nat) : Bool :=
  inRuns s.fw.reserved f || s.fw.launches.any fun l => l.exists_ && l.frames.contains f

/-- A frame placed for a range that a view of some image reads. -/
def State.framePlaced (s : State) (f : Nat) : Bool :=
  s.fw.images.any fun i => i.placed.any fun (r, p) =>
    let (ea, len, _) := Gxo.rangeOf i.bytes r
    decide (p ≤ f) && decide (f < p + rangePages ea len)

/-! ## Views at LOAD (R131) -/

/-- The declared range of an image that holds an effective address. -/
def rangeHolding (b : List Byte) (ea : Nat) : Option Nat :=
  if Gxo.hasManifest b then
    (List.range (Gxo.nRange b)).find? fun i => let (e, n, _) := Gxo.rangeOf b i
      decide (e ≤ ea) && decide (ea < e + n)
  else none

/-- First page, and count of pages, of a controller's own memory (R91). -/
def controllerPages (c : Nat) : Nat × Nat :=
  if c < 8 then (0x8000000 + c * 2 ^ 24, 2 ^ 24) else (0x20000000 + (c - 8) * 2 ^ 27, 2 ^ 27)

/-- A run of n free pages in a controller's memory, from where firmware looks first. -/
def State.freeRun (s : State) (placed : Tab Nat) (b : List Byte) (c n hint : Nat) : Option Nat :=
  let (p0, count) := controllerPages c
  let mine := fun f => placed.any fun (r, p) => let (ea, len, _) := Gxo.rangeOf b r
    decide (p ≤ f) && decide (f < p + rangePages ea len)
  let ok := fun i => decide (i + n ≤ count) && (framesFrom (p0 + i) n).all fun f =>
    !s.frameTaken f && !s.framePlaced f && !mine f && s.present (keyOf (s.package * 2 ^ 44 + f * 4096))
  (firstFrom ok count count hint).map (p0 + ·)

/-- The range placed in a controller's memory, unless it has its place; where no run of frames is free there, first tier is
unavailable (R372). -/
def State.place (s : State) (handle : Nat) (b : List Byte) (c r : Nat) (placed : Tab Nat) : Except Nat (Tab Nat) :=
  match Tab.find placed r with
  | some _ => .ok placed
  | none =>
    let (ea, len, _) := Gxo.rangeOf b r
    match s.freeRun placed b c (rangePages ea len) (Config.viewHint handle r) with
    | some p => .ok (Tab.put placed r p)
    | none => .error Code.noResource

/-- The local address at which an effective address in a placed range lies. -/
def placedAt (b : List Byte) (placed : Tab Nat) (ea : Nat) : Option Nat :=
  match rangeHolding b ea with
  | none => none
  | some r => (Tab.find placed r).map fun p => let (e, _, _) := Gxo.rangeOf b r
      p * 4096 + e % 4096 + (ea - e)

/-- What a view-table entry names: its ranges, and its view. -/
structure ViewEntry where
  base  : Nat
  scale : Nat
  ctrl  : Nat
  slot  : Nat
  cfg   : Word
  len   : Word
  deriving DecidableEq, Repr

def viewEntryOf (b : List Byte) (i : Nat) : ViewEntry :=
  let o := Gxo.viewOff b + 48 * i
  { base := fieldAt b (o + 8) 8, scale := fieldAt b (o + 0x10) 8, ctrl := fieldAt b (o + 0x20) 1, slot := fieldAt b (o + 0x21) 1
    cfg := BitVec.ofNat 64 (fieldAt b o 8), len := BitVec.ofNat 64 (fieldAt b (o + 0x18) 8) }

/-- The view of an entry whose arrays lie at local addresses. -/
def ViewEntry.view (e : ViewEntry) (x y : Nat) : View := ⟨e.cfg, BitVec.ofNat 64 x, e.len, BitVec.ofNat 64 y⟩

/-- An entry that no place in its controller's memory could make good: an address in no declared range, CTRL or SLOT out of range, EN
= 0, or a VCFG, VLEN or array that R92 would not let be enabled.  R131 names a status for the first and for R91 alone; the model
refuses the others with it too (log 53). -/
def ViewEntry.bad (e : ViewEntry) (b : List Byte) : Bool :=
  let p := (controllerPages e.ctrl).1 * 4096
  decide (11 < e.ctrl ∨ 15 < e.slot) || (rangeHolding b e.base).isNone || (rangeHolding b e.scale).isNone
    || !View.enabled (e.view p p) || !View.acceptable e.ctrl (e.view p p)

/-- One view-table entry: its ranges placed, and the view's number and registers, or the status it is refused with. -/
def State.viewEntry (s : State) (handle : Nat) (b : List Byte) (i : Nat) (placed : Tab Nat) : Except Nat (Tab Nat × Nat × View) := do
  let e := viewEntryOf b i
  let range := fun ea => (rangeHolding b ea).elim (.error Code.badView) .ok
  let placed ← s.place handle b e.ctrl (← range e.base) placed
  let placed ← s.place handle b e.ctrl (← range e.scale) placed
  match placedAt b placed e.base, placedAt b placed e.scale with
  | some x, some y =>
    let v := e.view x y
    if View.acceptable e.ctrl v then .ok (placed, 16 * e.ctrl + e.slot, v) else .error Code.badView
  | _, _ => .error Code.badView

/-- Two entries of the first n name one view. -/
def viewTwice (b : List Byte) (n : Nat) : Bool :=
  let ks := (List.range n).map fun i => 16 * (viewEntryOf b i).ctrl + (viewEntryOf b i).slot
  decide (ks.eraseDups.length < n)

/-- The first n entries of the view table placed one after another. -/
def State.placeViews (s : State) (handle : Nat) (b : List Byte) : Nat → Except Nat (Tab Nat × List (Nat × View))
  | 0 => .ok ([], [])
  | n + 1 => do
    let (placed, vs) ← State.placeViews s handle b n
    let (placed, k, v) ← s.viewEntry handle b n placed
    return (placed, vs ++ [(k, v)])

/-- The view table of an image (R131): refused with BAD_VIEW for what it says, before first tier is looked for (log 53). -/
def State.viewTable (s : State) (handle : Nat) (b : List Byte) (n : Nat) : Except Nat (Tab Nat × List (Nat × View)) :=
  if viewTwice b n || (List.range n).any fun i => (viewEntryOf b i).bad b then .error Code.badView
  else s.placeViews handle b n

/-- The views of an image written, EN last (R92).  A view that an earlier image's LOAD has written is written again: R131 speaks only
of two entries of one table, and this is the model's choice (log 53). -/
def State.loadViews (s : State) (vs : List (Nat × View)) : State :=
  vs.foldl (fun (s : State) (y : Nat × View) =>
    ((((s.writeView y.1 0 0).writeView y.1 1 y.2.base).writeView y.1 2 y.2.len).writeView y.1 3 y.2.scale).writeView y.1 0 y.2.cfg) s

end Sys2Proof.Machine
end

