-- ==== Sys2Proof/Machine/Attest.lean ====
section
/-! DEFINITION.
SPDM 1.2 over DOE with this device as the responder: the seven requests of R377.  The rule names the standard and does not repeat
it: codes, fields and the order of the exchange are the standard's (DMTF DSP0274, log 9).
-/

namespace Sys2Proof.Machine

namespace Spdm

/-- Version 1.2; GET_VERSION and its answer have 1.0. -/
def version : Byte := 0x12

/-- A message: version, code, two parameters, and what follows. -/
def message (code p1 p2 : Byte) (body : List Byte) : List Byte := [version, code, p1, p2] ++ body

/-- ERROR with its code and data. -/
def failure (code data : Byte) : List Byte := message 0x7F code data []

def invalidRequest : List Byte := failure 0x01 0
def unexpectedRequest : List Byte := failure 0x04 0
def versionMismatch : List Byte := failure 0x41 0
def unsupported (code : Byte) : List Byte := failure 0x07 code

def code (req : List Byte) : Byte := req.getD 1 0
def param1 (req : List Byte) : Byte := req.getD 2 0
def param2 (req : List Byte) : Byte := req.getD 3 0

/-- VERSION: one entry, 1.2. -/
def versions : List Byte := [0x10, 0x04, 0, 0, 0, 1, 0x00, 0x12]

/-- CAPABILITIES: certificates, challenges, and measurements with signatures; the sizes and the exponent of the time a signature takes
are the implementation's. -/
def capabilities : List Byte :=
  message 0x61 0 0 ([0, BitVec.ofNat 8 Config.spdmExponent, 0, 0] ++ packed 4 [0x16, Config.spdmTransfer, Config.spdmMessage])

/-- ALGORITHMS: ECDSA over P-384, SHA-384 and DMTF measurements by SHA-384, each where the request offers it. -/
def algorithms (req : List Byte) : List Byte :=
  let asym := fieldAt req 8 4 &&& 0x80
  let hash := fieldAt req 12 4 &&& 0x02
  message 0x63 0 0 (packed 2 [36] ++ [req.getD 6 0 &&& 1, 0] ++ packed 4 [4, asym, hash] ++ List.replicate 12 0 ++ [0, 0, 0, 0])

/-- The request offers both algorithms of R377. -/
def agreed (req : List Byte) : Bool := (fieldAt req 8 4).testBit 7 && (fieldAt req 12 4).testBit 1

def digests : List Byte := message 0x01 0 1 (Config.sha384 Config.certChain)

/-- CERTIFICATE: the part of the chain that the request names, and how much of it remains. -/
def certificate (req : List Byte) : List Byte :=
  let off := fieldAt req 4 2
  let part := (Config.certChain.drop off).take (fieldAt req 6 2)
  message 0x02 0 0 (packed 2 [part.length, Config.certChain.length - off - part.length] ++ part)

/-- Index, DMTF specification, sizes, and value of a measurement; 1 is firmware, 2 is images. -/
def block (index : Nat) (value : List Byte) : List Byte :=
  [BitVec.ofNat 8 index, 1] ++ packed 2 [value.length + 3] ++ [1] ++ packed 2 [value.length] ++ value

/-- Measurement 1 is the running firmware's digest, measurement 2 those of the loaded images (R377). -/
def blocks (ms : List (List Byte)) : List (List Byte) := [block 1 (ms.headD []), block 2 (ms.drop 1).flatten]

/-- Which blocks a GET_MEASUREMENTS asks for: none, all, or one. -/
def chosen (ms : List (List Byte)) (op : Byte) : Option (List (List Byte)) :=
  if op = 0 then some []
  else if op = 0xFF then some (blocks ms)
  else ((blocks ms)[op.toNat - 1]?).map fun b => [b]

def ascii (t : List Char) : List Byte := t.map fun c => BitVec.ofNat 8 c.toNat

/-- What is signed: the prefix of version 1.2, the context in 36 bytes, and the digest of the messages. -/
def signed (context : List Char) (messages : List Byte) : List Byte :=
  let prefix_ := ascii "dmtf-spdm-v1.2.*".toList
  let c := ascii context
  Config.identitySign (prefix_ ++ prefix_ ++ prefix_ ++ prefix_ ++ List.replicate (36 - c.length) 0 ++ c ++ Config.sha384 messages)

/-- CHALLENGE_AUTH: the chain's digest, a nonce, the digest of the measurements where it is asked for, and the signature over the
exchange. -/
def challengeAuth (x : Spdm) (ms : List (List Byte)) (tick : Nat) (req : List Byte) : List Byte :=
  let summary := if param2 req = 0 then [] else Config.sha384 (blocks ms).flatten
  let body := message 0x03 0 1 (Config.sha384 Config.certChain ++ Config.nonce tick ++ summary ++ [0, 0])
  body ++ signed "responder-challenge_auth signing".toList (x.start ++ x.certs ++ req ++ body)

/-- MEASUREMENTS without its signature. -/
def measured (tick : Nat) (req : List Byte) (bs : List (List Byte)) : List Byte :=
  message 0x60 (if param2 req = 0 then 2 else 0) 0
    ([BitVec.ofNat 8 bs.length] ++ packed 3 [bs.flatten.length] ++ bs.flatten ++ Config.nonce tick ++ [0, 0])

/-- The answer to a request, and the exchange after it.  The messages that a signature of measurements covers are those since the last
one, without another request between. -/
def answer (x : Spdm) (ms : List (List Byte)) (tick : Nat) (req : List Byte) : List Byte × Spdm :=
  let y := { x with meas := [] }
  let level := fun (n : Nat) (r : List Byte × Spdm) => if n ≤ x.level then r else (unexpectedRequest, y)
  if req.length < 4 then (invalidRequest, x)
  else if code req = 0x84 then (versions, ⟨1, req ++ versions, [], []⟩)
  else if req.getD 0 0 ≠ version then (versionMismatch, x)
  else if code req = 0xE1 then level 1 (capabilities, { y with level := 2, start := x.start ++ req ++ capabilities })
  else if code req = 0xE3 then
    level 2 (algorithms req, { y with level := if agreed req then 3 else 2, start := x.start ++ req ++ algorithms req })
  else if code req = 0x81 then level 3 (digests, { y with certs := x.certs ++ req ++ digests })
  else if code req = 0x82 then
    if param1 req ≠ 0 ∨ Config.certChain.length < fieldAt req 4 2 then level 3 (invalidRequest, y)
    else level 3 (certificate req, { y with certs := x.certs ++ req ++ certificate req })
  else if code req = 0x83 then
    if param1 req ≠ 0 ∨ req.length < 36 then level 3 (invalidRequest, y)
    else level 3 (challengeAuth x ms tick req, { y with certs := [] })
  else if code req = 0xE0 then
    match chosen ms (param2 req) with
    | none => level 3 (invalidRequest, y)
    | some bs =>
      let m := measured tick req bs
      let said := x.meas ++ req ++ m
      if (param1 req).getLsbD 0 then level 3 (m ++ signed "responder-measurements signing".toList (x.start ++ said), y)
      else level 3 (m, { x with meas := said })
  else (unsupported (code req), x)

end Spdm

/-- Measurement 1, then the digest of each loaded image (R377). -/
def State.measurements (s : State) : List (List Byte) :=
  Config.sha384 s.fw.running :: s.fw.images.map fun i => Gxo.measure i.bytes

/-- An SPDM request answered: the answer in the mailbox, the exchange further on (R377). -/
def State.answerSpdm (s : State) (req : List Byte) : State :=
  let r := Spdm.answer s.fw.exchange s.measurements s.tick req
  { s with fw := { s.fw with spdm := r.1 :: s.fw.spdm, exchange := r.2 } }

def execSpdmRequest (req : List Byte) (s : State) : Host.Outcome State Fault Refusal := happen (·.answerSpdm req) s

end Sys2Proof.Machine
end

