-- ==== Sys2Proof/Machine/System.lean ====
section
/-! DEFINITION.
System registers: MFS and MTS for every register of R98, bias requests, and the right to reach each (R97, R98, R102, R152,
R153, R158, R291, R326, R366).
-/

namespace Sys2Proof.Machine

/-! ## Which registers a unit has, and who may reach them -/

/-- A unit lacks dslot and biascmd unless it is a compute thread; a control thread lacks phase too (R158). -/
def unitHas (t r : Nat) : Bool :=
  if isCompute t then true
  else if isControl t then r != 6 && r != 14 && r != 15
  else r != 6 && r != 14

/-- Rights to read (R98). -/
def Thread.mayRead (t : Thread) (r : Nat) : Bool :=
  if r = 8 ∨ r = 9 ∨ r = 10 then t.trapm
  else if r = 24 then t.dbg
  else true

/-- Rights to write a register other than a window (R97, R98). -/
def Thread.mayWrite (t : Thread) (r : Nat) : Bool :=
  if r = 0 ∨ r = 11 then t.supv
  else if r = 9 then t.trapm
  else if r = 24 then t.dbg
  else true

/-- Rights to write a window (R102): any value in trap mode or for a supervisor, otherwise an invalid or narrower one. -/
def Thread.mayWindow (t : Thread) (i : BitVec 3) (x : BitVec 128) : Bool :=
  t.trapm || t.supv || !Win.valid x || Win.narrows (t.window_ i) x

/-! ## Values -/

/-- dslot (R104). -/
def Thread.dslot (t : Thread) : Word :=
  (t.dep.getD 0 0).setWidth 64 ||| (t.dep.getD 1 0).setWidth 64 <<< 4 ||| (t.dep.getD 2 0).setWidth 64 <<< 8
    ||| (t.dep.getD 3 0).setWidth 64 <<< 12

/-- thrstat (R366). -/
def State.thrstat (s : State) (t : Nat) : Word :=
  let point := if isCompute t then (s.tile (tileOf t)).point else 0
  let level := if isVent t then 0 else (s.cluster (clusterOf t)).power.level
  (s.thread t).sticky.setWidth 64 ||| BitVec.ofNat 64 (point % 8 * 2 ^ 8 + level % 8 * 2 ^ 16)

/-- The phase counter of the thread's launch on the thread's die (R181). -/
def State.phaseOf (s : State) (t : Nat) : Word :=
  match s.launch (s.thread t).epoch with
  | some l => (Tab.get 0 s.phases (dieOf t * 16 + l.slot)).setWidth 64
  | none => 0

/-- The value of a system register other than a window (R98). -/
def State.sysReg (s : State) (t r : Nat) : Word :=
  let x := s.thread t
  match r with
  | 0 => statWord t x
  | 1 => x.fpctl
  | 2 => s.thrstat t
  | 3 => BitVec.ofNat 64 (s.package % 2 ^ 20 * 2 ^ 24 + t % 2 ^ 24)
  | 4 => BitVec.ofNat 64 (s.core (coreOf t)).cycle
  | 5 => BitVec.ofNat 64 s.gtime
  | 6 => x.dslot
  | 8 => x.tcause
  | 9 => x.epc
  | 10 => x.tval
  | 11 => x.tvec
  | 12 => x.rcto.setWidth 64
  | 13 => x.rcretry.setWidth 64
  | 15 => s.phaseOf t
  | 24 => x.dbgdrop.setWidth 64
  | _ => 0

/-- The window a register number names. -/
def windowNumber (r : BitVec 7) : BitVec 3 := r.setWidth 3

def isWindow (r : BitVec 7) : Bool := decide (16 ≤ r.toNat ∧ r.toNat < 24)

/-- MFS (R152). -/
def execMfs (d : BitVec 4) (r : BitVec 7) (s : State) : Host.Outcome State Fault Refusal :=
  run (issue .scalar (if isWindow r then [d, d + 1] else [d])
    (priv := do
      require (unitHas (← self) r.toNat) .illegal
      if isWindow r && d.getLsbD 0 then trap .illegal
      require ((← me).mayRead r.toNat) .priv) do
    let s ← get
    if isWindow r then
      let w := (s.thread s.cur).window_ (windowNumber r)
      wr d (w.extractLsb' 0 64)
      wr (d + 1) (w.extractLsb' 64 64)
    else wr d (s.sysReg s.cur r.toNat)
    advance) s

/-! ## Bias requests (R326) -/

/-- The home's check of a page: first tier, BIASMGD, SC, nothing tentative, armed or sealed in it. -/
def State.biasOk (s : State) (leaf : Word) (k : Nat) : Bool :=
  let p := k / 4096 * 4096
  areaOf k == .firstTier && packageOf k == s.package && Leaf.biasmgd leaf && Leaf.cls leaf == 2
    && (s.cellsAt p 4096).isEmpty && !s.isArmed p 4096 && (s.sealsAt p 4096).isEmpty

/-- A request that has reached its home: the flip joins those of its page, in order of arrival. -/
def State.askFlip (s : State) (page : Nat) (toHost : Bool) : State :=
  let s := { s with fresh := s.fresh + 1, host := { s.host with flips := s.host.flips ++ [(⟨s.fresh, page, toHost, 0⟩ : Flip)] } }
  s.post [if toHost then .biasFlipToHost page else .biasFlipToDevice page]

/-- A request looked at: it fails, waits for its page, or goes to its home; where it has waited for its page already, a backing
store that cannot supply it fails it (R314). -/
def State.checkBias (s : State) (t : Nat) (b : BiasReq) : BiasReq × State :=
  let x := s.thread t
  let (waited, b) := (b.page, { b with page := none })
  match s.reach x.win t x.epoch b.ea 1 [.w] waited with
  | (.cause _ _, s) => ({ b with outcome := some false }, s)
  | (.page leafAt page, s) => ({ b with page := some leafAt }, s.askPage t x.epoch leafAt page)
  | (.ok (.mem leaf k _), s) =>
    if s.biasOk leaf k then ({ b with key := some s.fresh }, s.askFlip (k / 4096) b.toHost)
    else ({ b with outcome := some false }, s)
  | (.ok _, s) => ({ b with outcome := some false }, s)

/-- MTS biascmd (R326). -/
def biasCommand (x : Word) : Op Unit := do
  let t ← me
  let open_ := t.bias.filter fun b => b.outcome.isNone
  if 8 ≤ open_.length || (x >>> 1).toNat % 2 ^ 11 ≠ 0 then trap .bias x
  let s ← get
  let (b, s) := s.checkBias s.cur ⟨x >>> 12 <<< 12, x.getLsbD 0, none, none, none⟩
  set s
  modMe fun t => { t with bias := t.bias ++ [b] }

/-! ## MTS -/

/-- A thread with a system register other than a window written: only writable fields change (R7, R97, R98, R153, R291). -/
def Thread.putSys (t : Thread) (r : Nat) (x : Word) : Thread :=
  match r with
  | 0 => { t with trapm := x.getLsbD 0 }
  | 1 => { t with fpctl := x &&& fpctlMask }
  | 2 => { t with sticky := t.sticky &&& ~~~(x.setWidth 4) }
  | 9 => { t with epc := x &&& ~~~1 }
  | 11 => { t with tvec := x &&& ~~~1 }
  | 12 => { t with rcto := x.setWidth 32 }
  | 13 => { t with rcretry := x.setWidth 4 }
  | 24 => { t with dbgdrop := x.setWidth 16 }
  | _ => t

/-- MTS (R97, R102, R152). -/
def execMts (a : BitVec 4) (r : BitVec 7) (s : State) : Host.Outcome State Fault Refusal :=
  run (issue .scalar (if isWindow r then [a, a + 1] else [a])
    (priv := do
      require (unitHas (← self) r.toNat) .illegal
      if isWindow r && a.getLsbD 0 then trap .illegal
      let t ← me
      if isWindow r then
        if !t.marked a && !t.marked (a + 1) then
          require (t.mayWindow (windowNumber r) ((t.reg (a + 1)).val ++ (t.reg a).val)) .priv
      else require (t.mayWrite r.toNat) .priv) do
    let t ← me
    if isWindow r then
      let x : BitVec 128 := (t.reg (a + 1)).val ++ (t.reg a).val
      require (Win.wellFormed x) .window (t.reg a).val
      modMe fun t => t.setWindow (windowNumber r) x
    else if r.toNat = 14 then biasCommand (t.reg a).val
    else modMe fun t => t.putSys r.toNat (t.reg a).val
    advance) s

end Sys2Proof.Machine
end

