-- ==== Sys2Proof/Machine/Launching.lean ====
section
/-! DEFINITION.
LAUNCH: the cluster set, windows, frames, page table, backing store, initial contents, roots, ranks, threads; page services
and page-out; the loading of instruction stores (R61 to R64, R69, R293, R311 to R316, R374, R382).  What the spec leaves
to firmware is chosen through Config (log 14).
-/

namespace Sys2Proof.Machine

/-! ## The cluster set (R63, R64, R132) -/

/-- A number put into an ascending list without repeats. -/
def insertNew (x : Nat) : List Nat → List Nat
  | [] => [x]
  | y :: t => if x < y then x :: y :: t else if x = y then y :: t else y :: insertNew x t

/-- The clusters that an image's runs name, in geyser order. -/
def clusterSet (b : List Byte) (p0 : Nat) : List (Nat × Nat) :=
  let all := (List.range (Gxo.nClust b)).flatMap fun i =>
    let (p, f, n) := Gxo.runOf b i
    (List.range n).map fun j => (p0 + p) * 256 + (f + j) / 48 * 64 + (f + j) % 48
  (all.foldl (fun t x => insertNew x t) []).map fun x => (x / 256, x % 256)

/-- The clusters of a set in this package. -/
def State.ours (s : State) (cs : List (Nat × Nat)) : List Nat := (cs.filter fun y => y.1 == s.package).map (·.2)

/-! ## Windows (R311) -/

/-- Pages of a window's reach. -/
def windowPages (w : BitVec 128) : Nat := (Win.limit w + 4096) / 4096

def isVirt (w : BitVec 128) : Bool := Win.valid w && !Win.onChip w

/-- A window of type virt with firmware's base.  A manifest's own BASE there, which R132 says is 0, is neither refused nor
kept: no rule says what becomes of another value (log 51). -/
def withBase (w : BitVec 128) (a : Nat) : BitVec 128 :=
  if isVirt w then w >>> 64 <<< 64 ||| BitVec.ofNat 128 (a % 2 ^ 64) else w

/-- Bases one above the other. -/
def packedBases : Nat → List (BitVec 128) → List Nat
  | _, [] => []
  | a, w :: t => a :: packedBases (if isVirt w then a + 4096 * windowPages w else a) t

/-- Windows are well formed and those of type virt share no address. -/
def windowsOk : List (BitVec 128) → Bool
  | [] => true
  | w :: t => (!isVirt w || (Win.wellFormed w && t.all fun v => !isVirt v || !overlaps (Win.base w) (4096 * windowPages w) (Win.base v) (4096 * windowPages v)))
      && windowsOk t

/-- The window set of a launch: at firmware's bases where they do, otherwise packed. -/
def windowSet (b : List Byte) (e : Nat) : Option (Vector (BitVec 128) 8) :=
  let ws := (List.range 8).map (Gxo.window b)
  let hinted := (List.range 8).map fun i => withBase (Gxo.window b i) (Config.baseHint e i % 2 ^ 45 * 4096)
  let stacked := (ws.zip (packedBases 0 ws)).map fun y => withBase y.1 y.2
  let pack := fun (xs : List (BitVec 128)) => Vector.ofFn fun (i : Fin 8) => xs.getD i.val 0
  if windowsOk hinted then some (pack hinted) else if windowsOk stacked then some (pack stacked) else none

/-! ## Ranges (R132, R311, R374) -/

/-- The settings of a range without a record: all five rights, DC, 128-byte grain, PLACE 0 with subset 0, second tier. -/
def defaultRecord : Word := 0x1F0 ||| 1 <<< 9 ||| 1 <<< 11

/-- A leaf for a page record: a 4 KiB page at a local page number. -/
def leafFor (record : Word) (present : Bool) (page : Nat) : Word :=
  (record &&& 0x7FF9FFF0) ||| 3 ||| (if present then 1 <<< 17 else 0) ||| BitVec.ofNat 64 (page % 2 ^ 32) <<< 32

def chlocal (record : Word) : Bool := record.getLsbD 34

/-- Local page number of page j of a CHLOCAL range. -/
def chlocalPage (record : Word) (j : Nat) : Nat :=
  0x8000000 + (record >>> 35).toNat % 512 * 2 ^ 18 + (record >>> 44).toNat % 2 ^ 18 + j

/-- Bytes of a window's image (R129). -/
def imageSize (b : List Byte) (i : Nat) : Nat :=
  ((Gxo.sections b).filter fun t => t.window == i && t.size != 0).foldl (fun m t => max m (t.woff + t.size)) 0

/-- A byte of the image at a virtual address; zero where no section has contents.  R128 does not say what SFLAGS bit 0 (alloc) = 0 does
to a section here, nor whose contents win where sections overlap in a window: the model reads no flag and takes the first section in
table order (log 53). -/
def imageByte (b : List Byte) (wins : Vector (BitVec 128) 8) (va : Nat) : Byte :=
  match (Gxo.sections b).find? fun t =>
      let a := Win.base (wins.getD t.window 0) + t.woff
      t.kind == 1 && isVirt (wins.getD t.window 0) && decide (a ≤ va) && decide (va < a + t.size) with
  | some t => b.getD (t.fileOff + (va - (Win.base (wins.getD t.window 0) + t.woff))) 0
  | none => 0

/-- A page's image contents. -/
def imagePage (b : List Byte) (wins : Vector (BitVec 128) 8) (va : Nat) : List Byte := (List.range 4096).map fun i => imageByte b wins (va + i)

/-- The ranges of a launch in the order in which they claim a page: the declared ones, then the window images.  Backing
stores are still to be chosen. -/
def rangesOf (b : List Byte) (i : Image) (wins : Vector (BitVec 128) 8) : List Range :=
  let declared := (List.range (Gxo.nRange b)).map fun r =>
    let (ea, len, faulting) := Gxo.rangeOf b r
    let va := Win.base (wins.getD (ea / 2 ^ 61) 0) + ea % 2 ^ 61
    (⟨va / 4096 * 4096, rangePages va len, faulting, Tab.get defaultRecord i.policy r, 0⟩ : Range)
  let images := (List.range 8).filterMap fun n =>
    let w := wins.getD n 0
    if isVirt w && imageSize b n != 0 then
      some (⟨Win.base w / 4096 * 4096, rangePages (Win.base w) (imageSize b n), false, defaultRecord, 0⟩ : Range)
    else none
  declared ++ images

/-! ## Frames and page tables -/

/-- A frame that nobody holds, as an index from the first tier's first page. -/
def State.frameFree (s : State) (taken : List Nat) (i : Nat) : Bool :=
  !s.frameTaken (0x8000000 + i) && !s.framePlaced (0x8000000 + i) && !taken.contains (0x8000000 + i)

/-- A first-tier frame that nobody holds, from where firmware looks first. -/
def State.takeFrame (s : State) (e : Nat) (taken : List Nat) : Option Nat :=
  (firstFrom (s.frameFree taken) (2 ^ 27) (2 ^ 27) (Config.frameHint e taken.length)).map (0x8000000 + ·)

/-- n frames more, in the order in which firmware finds them. -/
def State.takeFrames (s : State) (e n : Nat) (taken : List Nat) : Option (List Nat) :=
  (firstsFrom (s.frameFree taken) (2 ^ 27) (2 ^ 27) (Config.frameHint e taken.length) n).map fun fs =>
    (fs.map (0x8000000 + ·)).reverse ++ taken

/-- The interleaved alias of a first-tier frame (R19). -/
def interleavedPage (f : Nat) : Nat :=
  let x := f - 0x8000000
  let o := x % 2 ^ 18
  o * 512 + ((x / 2 ^ 18) ^^^ (o % 512) ^^^ (o / 512))

/-- The L2 lines of n bytes at a key are lost: monitors on them fire (R204). -/
def State.loseLines (s : State) (k n : Nat) : State :=
  (s.lines.filter fun l => overlaps l.key 512 k n).foldl State.loseLine s

/-- A page given contents by firmware: every cached copy goes, poison goes, and what the package remembers of the page that was
there. -/
def State.setPage (s : State) (k : Nat) (bs : List Byte) : State :=
  let s := ((s.recallBlock k 4096).forgetPage k).loseLines k 4096
  { s with
    mem := s.mem.writeN k bs
    poison := s.poison.filter fun p => match p with
      | .mem d => !(decide (k ≤ 8 * d) && decide (8 * d < k + 4096))
      | _ => true }

/-- A page copied by firmware: the source is written back first, and its poisoned words stay poisoned in the copy (R353). -/
def State.copyPage (s : State) (src dst : Nat) : State :=
  let s := (s.recallBlock src 4096).dropHostLines src 4096
  let bad := s.poison.filterMap fun p => match p with
    | .mem d => if overlaps (8 * d) 8 src 4096 then some (Place.mem (d - src / 8 + dst / 8)) else none
    | _ => none
  let s := s.setPage dst (s.homeBytes src 4096)
  { s with poison := bad ++ s.poison }

def zeroPage : List Byte := List.replicate 4096 0

/-- A page table entry written by firmware. -/
def State.setEntry (s : State) (k : Nat) (e : Word) : State := s.writeHome fwAgent 32 k (leBytes 8 e.toNat)

/-- A leaf put into the table at a level, missing tables made on the way; the frames taken grow. -/
def State.mapLeaf (s : State) (e va : Nat) (leaf : Word) : Nat → Nat → List Nat → Option (State × List Nat)
  | 0, table, taken => some (s.setEntry (keyOf (s.package * 2 ^ 44 + table * 4096 + 8 * (va / 2 ^ 12 % 512))) leaf, taken)
  | level + 1, table, taken =>
    let k := keyOf (s.package * 2 ^ 44 + table * 4096 + 8 * (va / 2 ^ (12 + 9 * (level + 1)) % 512))
    let x := s.entryAt k
    if Leaf.valid x then State.mapLeaf s e va leaf level (Leaf.frame x) taken
    else match s.takeFrame e taken with
      | none => none
      | some f =>
        let s := s.setPage (s.pageKey f) zeroPage
        State.mapLeaf (s.setEntry k (1 ||| BitVec.ofNat 64 f <<< 32)) e va leaf level f (f :: taken)

/-! ## Backing store (R311, R374) -/

/-- A local page is in some backing store. -/
def backed (rs : List Range) (k : Nat) : Bool := rs.any fun r => r.faulting && overlaps r.backing (r.pages * 4096) k 4096

/-- The key of the first byte of a backing store for n pages: second tier, or the host's memory behind the master's port. -/
def State.backingFor (s : State) (m e n : Nat) (r : Range) (used : List Range) : Option Nat :=
  let host := (r.record >>> 32).toNat % 4 == 1
  let p0 := if host then (if m < 2 then 0x40000000 else 0x80000000) else 0x20000000
  let count := if host then 2 ^ 30 else 2 ^ 29
  let all := used ++ (s.fw.launches.filter Launch.exists_).flatMap (·.ranges)
  let ok := fun p => (framesFrom p r.pages).all fun f => s.present (s.pageKey f) && !backed all (s.pageKey f)
  (firstFrom (fun i => decide (i + r.pages ≤ count) && ok (p0 + i)) count count (Config.backingHint e n)).map fun i => s.pageKey (p0 + i)

/-- Backing stores chosen for the faultable ranges. -/
def State.backings (s : State) (m e : Nat) : Nat → List Range → List Range → Option (List Range)
  | _, done, [] => some done
  | n, done, r :: rest =>
    if r.faulting then match s.backingFor m e n r done with
      | some k => State.backings s m e (n + 1) (done ++ [{ r with backing := k }]) rest
      | none => none
    else State.backings s m e (n + 1) (done ++ [r]) rest

/-! ## Mapping the ranges (R311, R312) -/

/-- The page numbers of the ranges, each page once: range index, range, page index. -/
def pagesOf (rs : List Range) : List (Nat × Range × Nat) :=
  (rs.zipIdx).flatMap fun (r, i) =>
    ((List.range r.pages).filter fun j => !(rs.take i).any fun q => decide (q.base ≤ r.base + 4096 * j) && decide (r.base + 4096 * j < q.base + q.pages * 4096)).map
      fun j => (i, r, j)

/-- The frame of a page of a range: as its record or its view says, or one that firmware chooses.  A CHLOCAL record goes before
the frames that a view of the image was given at LOAD; the view's registers stay as LOAD wrote them (log 51). -/
def State.frameFor (s : State) (e : Nat) (im : Image) (i : Nat) (r : Range) (j : Nat) (taken : List Nat) : Except Nat Nat :=
  if chlocal r.record then
    let f := chlocalPage r.record j
    if s.frameTaken f || taken.contains f then .error Code.noResource else .ok f
  else match Tab.find im.placed i with
    | some p => if s.frameTaken (p + j) || taken.contains (p + j) then .error Code.noResource else .ok (p + j)
    | none => match s.takeFrame e taken with
      | some f => .ok f
      | none => .error Code.leaseFail

/-- The page number a leaf names for a frame: the interleaved alias where firmware prefers it. -/
def leafPage (e n : Nat) (fixed : Bool) (f : Nat) : Nat :=
  if !fixed && f < 0x10000000 && Config.interleaved e n then interleavedPage f else f

/-- One page mapped and given its contents: present in its frame, or waiting in its backing store. -/
def State.mapPage (s : State) (e : Nat) (im : Image) (wins : Vector (BitVec 128) 8) (root : Nat) (y : Nat × Range × Nat)
    (taken : List Nat) : Except Nat (State × List Nat) :=
  let (i, r, j) := y
  let va := r.base + 4096 * j
  let bs := imagePage im.bytes wins va
  if r.faulting then
    -- a chosen frame is judged now, though the page comes into it later (R374)
    let f := chlocalPage r.record j
    if chlocal r.record && (s.frameTaken f || taken.contains f) then .error Code.noResource else
    let s := s.setPage (r.backing + 4096 * j) bs
    match s.mapLeaf e va (leafFor r.record false 0) 4 root taken with
    | some x => .ok x
    | none => .error Code.noResource
  else match s.frameFor e im i r j taken with
    | .error c => .error c
    | .ok f =>
      let s := s.setPage (s.pageKey f) bs
      let fixed := chlocal r.record || (Tab.find im.placed i).isSome
      match s.mapLeaf e va (leafFor r.record true (leafPage e taken.length fixed f)) 4 root (f :: taken) with
      | some x => .ok x
      | none => .error Code.noResource

def State.mapPages (s : State) (e : Nat) (im : Image) (wins : Vector (BitVec 128) 8) (root : Nat) :
    List (Nat × Range × Nat) → List Nat → Except Nat (State × List Nat)
  | [], taken => .ok (s, taken)
  | y :: ys, taken => match s.mapPage e im wins root y taken with
    | .error c => .error c
    | .ok (s, taken) => State.mapPages s e im wins root ys taken

/-! ## Instruction stores (R69) -/

/-- A byte at a key, in view space decoded (R94). -/
def State.anyByte (s : State) (k : Nat) : Byte :=
  if areaOf k == .view then ((s.readView k 1).map fun y => y.1.getD 0 0).getD 0 else s.homeByte k

/-- The bytes that lie at virtual addresses in a launch, where its table maps them. -/
def State.virtualByte (s : State) (p slot : Nat) (e : BitVec 16) (va : Nat) : Byte :=
  match s.walk (s.pager p) slot va with
  | some (leaf, _) => if Leaf.present leaf then s.anyByte (s.physical e leaf va) else 0
  | none => 0

/-- The first 32 KiB of w0, as a cluster's pager reaches them (log 5). -/
def State.storeBytes (s : State) (c : Nat) (l : Launch) : Memory :=
  Memory.writeN [] 0 ((List.range 0x8000).map fun i => s.virtualByte c l.slot l.epoch (Win.base (l.windows.getD 0 0) + i))

/-- The same bytes in the image that firmware keeps (R352). -/
def State.imageStore (s : State) (l : Launch) : Memory :=
  match s.fw.images.find? fun i => i.handle == l.image with
  | some i => Memory.writeN [] 0 ((List.range 0x8000).map fun n => imageByte i.bytes l.windows (Win.base (l.windows.getD 0 0) + n))
  | none => []

/-- A core with contents in its instruction store, its hint reset (R365), running. -/
def State.putStore (s : State) (c : Nat) (l : Launch) (m : Memory) : State :=
  s.setCore c { s.core c with istore := m, ibase := BitVec.ofNat 64 (Win.base (l.windows.getD 0 0)), hint := .none, stopped := false, reload := false }

/-- A stopped core's store rewritten, from the launch's memory or, where its parity has failed, from the image that firmware keeps
(R352); the core runs again. -/
def State.loadStore (s : State) (c : Nat) (l : Launch) : State :=
  State.postOnce (s.putStore c l (if (s.core c).reload then s.imageStore l else s.storeBytes (clusterOf c) l)) (.dispenserDispatch (clusterOf c))

/-- A core whose program load has nothing left to load runs again. -/
def State.unstop (s : State) (c : Nat) : State :=
  if (s.core c).stopped then s.setCore c { s.core c with stopped := false, reload := false } else s

/-- Waits that are over by themselves once engines have drained and parked commands are gone.  R69 does not say what becomes
of a thread in another wait (JOIN, MWAIT, CLAIM, RCALL, a page service and the like): the load awaits it no more than it abandons it, and the
thread runs its instruction again from the new store when its wait ends (log 51). -/
def Wait.short : Wait → Bool
  | .mark | .engine | .command | .counts | .vector | .fence | .phase | .nred | .memory | .walk | .fill _ | .ending => true
  | _ => false

/-- A thread stands at its boundary, or in a wait that a program load does not await. -/
def Thread.halting (t : Thread) : Bool :=
  match t.status with
  | .wait w => !w.short
  | _ => !t.midway

/-- R69 for one core: its threads stop at their boundaries, its engines drain, parked commands are discarded with their causes,
and then the store is rewritten and the core restarts.  While its launch is switched out the load waits for the resume. -/
def State.programLoad (s : State) (c : Nat) (e : BitVec 16) : State :=
  match s.launch e with
  | none => s.unstop c
  | some l =>
    let k := s.core c
    if l.phase = .complete ∨ !l.clusters.contains (s.package, clusterOf c) ∨ !isCompute c ∨ k.killed then s.unstop c
    else if l.phase ≠ .running then s.post [.programLoad c e.toNat]
    else
      let s := s.setCore c { k with stopped := true }
      let s := (List.range 8).foldl (fun (s : State) n => s.discardParked (c + n) fun _ => true) s
      let k := s.core c
      if (k.matrix.live ++ k.copy.live).isEmpty && (List.range 8).all (fun n => (s.thread (c + n)).halting) then s.loadStore c l
      else s.post [.programLoad c e.toNat]

def execProgramLoad (core epoch : Nat) (s : State) : Host.Outcome State Fault Refusal :=
  happen (·.programLoad core (BitVec.ofNat 16 epoch)) s

/-! ## Root tasks (R382) -/

/-- What becomes of a root. -/
inductive Fate where
  | task (h : Nat) (r : Task)
  | fails
  | page (leafAt page : Nat)
  deriving DecidableEq, Repr

/-- A dword read for firmware through a launch's windows, in view space decoded (R94), where table entries differ undefined (R302). -/
def State.fwDword (s : State) (l : Launch) (unit : Nat) (waited : Option Nat) (free : Word) (ea : Word) : Except Fate Word :=
  match s.reach l.windows unit l.epoch ea 8 [.r] waited with
  | (.ok (.mem _ k mixed), s) =>
    if areaOf k == .view then match s.viewPoisoned k 8, s.readView k 8 with
      | false, some (bs, _) => .ok (if mixed then free else BitVec.ofNat 64 (leNat bs))
      | _, _ => .error .fails
    else if s.poisoned k 8 then .error .fails
    else .ok (if mixed then free else BitVec.ofNat 64 (leNat (s.homeBytes k 8)))
  | (.page a p, _) => .error (.page a p)
  | _ => .error .fails

/-- An anchor's key and home. -/
def State.fwAnchor (s : State) (l : Launch) (unit : Nat) (waited : Option Nat) (ea : Word) : Except Fate (Nat × Nat) :=
  match s.reach l.windows unit l.epoch ea 1 [.r] waited with
  | (.ok (.mem leaf k _), s) => match s.anchorHome leaf k with
    | some h => .ok (k, h)
    | none => .error .fails
  | (.page a p, _) => .error (.page a p)
  | _ => .error .fails

/-- The task a root becomes. -/
def State.buildRoot (s : State) (l : Launch) (unit : Nat) (r : Root) : Except Fate (Nat × Task) := do
  let free := fun (n : Nat) => (Config.freeBits s.fresh).extractLsb' (64 * n) 64
  let near ← s.fwDword l unit r.page (free 0) r.taskEa
  let far ← s.fwDword l unit r.page (free 1) (r.taskEa + 8)
  let flags ← s.fwDword l unit r.page (free 2) (r.taskEa + 16)
  let _ ← s.fwDword l unit r.page (free 3) (r.taskEa + 24)
  if 4 ≤ flags.toNat ∨ r.length = 0 ∨ 2 ^ 30 < r.length.toNat then .error .fails
  let (_, h) ← s.fwAnchor l unit r.page r.anchor
  let (_, h') ← s.fwAnchor l unit r.page (r.anchor + (r.length - 1))
  if h ≠ h' ∨ (!foreignHome h && (s.core (coreOf (homeUnit h))).killed) then .error .fails
  return (h, { anchor := r.anchor, length := r.length.toNat, va := virtualOf l.windows r.anchor, nearPc := near, farPc := far, args := r.args
               restart := flags.getLsbD 0, free := flags.getLsbD 1, seq := 0, epoch := l.epoch, origin := r.origin
               running := false, runner := none })

/-- The unit whose pager firmware translates a root with: the control core of its origin, or another of this package that serves the
launch. -/
def State.rootUnit (s : State) (l : Launch) (r : Root) : Nat :=
  if r.origin / 256 = s.package then controlThread (r.origin % 256) 0
  else match s.ours l.clusters with
    | c :: _ => controlThread c 0
    | [] => ventThread 0 0

/-- Firmware's part in a task record: it is no hardware thread. -/
def fwUnit : Nat := 0x600000

/-- A root queued at its home, on its way there where the home has no room, failed, or kept for its page. -/
def State.startRoot (s : State) (e : BitVec 16) (r : Root) : State :=
  match s.launch e with
  | none => s
  | some l =>
    let unit := s.rootUnit l r
    let found := s.buildRoot l unit r
    let s := { s with fresh := s.fresh + 1 }
    match found with
    | .ok (h, t) =>
      if foreignHome h || decide (s.inbound h = 0 ∧ (s.home h).queue.length < queueSize h) then s.acceptTask h fwUnit t
      else State.post { s with net := { s.net with tasks := s.net.tasks ++ [(h, fwUnit, t)] } } [.taskRecord s.net.tasks.length]
    | .error (.page a p) => (s.setLaunch { l with roots := l.roots ++ [{ r with page := some a }] }).askPage unit e a p
    | .error _ =>
      if r.origin / 256 ≠ s.package then s
      else s.retired ⟨fwUnit, r.origin % 256, e, Cause.task.code, s.gtime, s.tick⟩

/-- The roots of an image, with their origins (R64). -/
def rootsOf (b : List Byte) (cs : List (Nat × Nat)) : List Root :=
  (List.range (Gxo.nRoot b)).map fun j =>
    let (p, c) := cs.getD (j % max 1 cs.length) (0, 0)
    { Gxo.rootOf b j with origin := p * 256 + c }

/-- Every root counted at its origin, then built. -/
def State.startRoots (s : State) (e : BitVec 16) (rs : List Root) : State :=
  let s := rs.foldl (fun (s : State) r =>
    if r.origin / 256 ≠ s.package then s else s.created ⟨fwUnit, r.origin % 256, e, 0, s.gtime, s.tick⟩) s
  rs.foldl (fun (s : State) r => s.startRoot e r) s

/-! ## Ranks (R293) -/

/-- The rank table of a launch: the compute threads of its clusters, and the vent threads of its packages under the indices of
R63. -/
def State.rankTable (s : State) (l : Launch) : List (Nat × Word) :=
  let entry := fun (t : Nat) => BitVec.ofNat 64 (s.package * 2 ^ 24 + t) ||| 1 <<< 44 ||| (if (s.core (coreOf t)).killed then 1 <<< 46 else 0)
  let compute := l.clusters.zipIdx.flatMap fun ((p, c), i) =>
    if p = s.package then (List.range 512).map fun n => (l.epoch.toNat * 2 ^ 32 + i * 512 + n, entry (c * 0x2000 + n / 8 * 0x80 + n % 8))
    else (List.range 512).map fun n =>
      (l.epoch.toNat * 2 ^ 32 + i * 512 + n, BitVec.ofNat 64 (p * 2 ^ 24 + c * 0x2000 + n / 8 * 0x80 + n % 8) ||| 1 <<< 44)
  let vents := (l.packages.zipIdx.filter fun y => y.1 == s.package || l.clusters.any (·.1 == y.1)).flatMap fun (p, i) =>
    (List.range 4096).map fun n =>
      let t := ventThread (n / 8) (n % 8)
      (l.epoch.toNat * 2 ^ 32 + 0x80000000 + i * 4096 + n, if p = s.package then entry t else BitVec.ofNat 64 (p * 2 ^ 24 + t) ||| 1 <<< 44)
  compute ++ vents

def State.writeRanks (s : State) (l : Launch) : State :=
  { s with ranks := (s.rankTable l).foldl (fun t (y : Nat × Word) => Tab.put t y.1 y.2) s.ranks }

/-! ## The cores and threads of a launch (R62) -/

/-- n blocks of free values as bytes (R9, log 11). -/
def freeFill (f : Nat) : Nat → Memory
  | 0 => []
  | n + 1 => (freeFill f n).writeN (1024 * n) (blockGet (Config.freeBits (f + n)) 0 1024)

/-- A core as LAUNCH leaves it: no claim, no command, no child; undefined contents; accumulators NONE. -/
def State.freshCore (s : State) (c : Nat) : State :=
  let k := s.core c
  let f := s.fresh
  let acc := fun (i : Nat) => { Acc.initial with bits := Config.freeBits (f + 32 + i) }
  let s := s.setCore c { Core.initial with
    cycle := k.cycle, suspects := k.suspects, killed := k.killed, killedIn := k.killedIn, lasting := k.lasting, removed := k.removed, testing := k.testing, l1 := k.l1
    slots := Vector.ofFn fun i => Config.freeBits (f + i.val)
    accs := Vector.ofFn fun i => acc i.val
    tile := freeFill (f + 40) 256 }
  { s with fresh := f + 296 }

/-- A vent core that serves nobody has undefined local memory. -/
def State.freshVent (s : State) (p : Nat) : State :=
  let c := ventThread p 0
  if (s.server (4096 + p)).order.length = 8 then
    { s.setCore c { s.core c with tile := freeFill s.fresh 128 } with fresh := s.fresh + 128 }
  else s

/-- An entry thread (R62).  R62 gives no value of tcause, epc, tval, the sticky bits of thrstat or the next call identifier at LAUNCH: the
model's choice is zero for each (log 53). -/
def Thread.entry (pc : Nat) (l : Launch) : Thread :=
  { Thread.initial with pc := codeAddress (BitVec.ofNat 64 pc), epoch := l.epoch, dbg := l.dbg, win := l.windows, status := .ready }

/-- The core or thread of a register or memory that is poisoned; nothing for a dword of package memory or a pair buffer. -/
def Place.unit : Place → Option Nat
  | .mem _ | .pair _ => none
  | .tile c _ | .slot c _ _ | .acc c _ _ => some c
  | .vec t _ _ | .msk t _ _ => some t

/-- A cluster of a launch before its threads start: they are IDLE, its dispenser and counts fresh, its stores loaded.  What was
poisoned in its cores has gone with its contents. -/
def State.readyCluster (s : State) (l : Launch) (c : Nat) : State :=
  let s := { s with poison := s.poison.filter fun (p : Place) => !(p.unit.any fun u => clusterOf u == c && !isVent u) }
  let s := { s with threads := s.threads.filter fun (y : Nat × Thread) => !(clusterOf y.1 == c && !isVent y.1) }
  let s := s.setServer c { s.server c with order := [], calls := [] }
  let s := s.setCluster c { s.cluster c with counts := Tab.put (s.cluster c).counts l.epoch.toNat Counts.initial, refused := [] }
  let s := { s with tiles := s.tiles.map fun (y : Nat × Tile) => if y.1 / 16 = c then (y.1, { y.2 with queue := [], pipe := none }) else y }
  let s := (clusterCores c).foldl State.freshCore s
  let m := s.storeBytes c l
  (clusterCores c).foldl (fun (s : State) k => s.putStore k l m) s

/-- The threads of a cluster start: the entries, and the supervisor.  Where masks of two entries share a bit, which R126 makes an error
of the linker alone, the later entry of the table has the thread (log 53). -/
def State.startCluster (s : State) (b : List Byte) (l : Launch) (c : Nat) : State :=
  let start := fun (s : State) (k : Nat) => (List.range (Gxo.nEntry b)).foldl (fun (s : State) i =>
    let (pc, mask) := Gxo.entryOf b i
    (bitsIn 8 mask).foldl (fun (s : State) n => if (s.core k).killed then s else s.setThread (k + n) (Thread.entry pc l)) s) s
  let s := (clusterCores c).foldl start s
  match l.supervisor with
  | some pc => s.setThread (controlThread c 0) { Thread.entry pc.toNat l with supv := true }
  | none => s

/-! ## LAUNCH -/

/-- The next epoch (R61). -/
def State.nextEpoch (s : State) : BitVec 16 :=
  let held := fun (e : Nat) => s.fw.launches.any fun l => l.exists_ && l.epoch.toNat == e
  BitVec.ofNat 16 ((firstFrom (fun e => !held (e + 1)) 0xFFFE 0xFFFE s.fw.lastEpoch.toNat).getD 0 + 1)

/-- Pagers that serve a launch in this package. -/
def State.pagersOf (s : State) (cs : List (Nat × Nat)) : List Nat := s.ours cs ++ (List.range 8).map (1000 + ·)

/-- A slot free on every pager concerned. -/
def State.freeSlot (s : State) (cs : List (Nat × Nat)) : Option Nat :=
  (List.range 16).find? fun n => (s.pagersOf cs).all fun p => !((s.pager p).roots.getD n 0).getLsbD 0

/-- What LAUNCH finds wrong with the set itself. -/
def State.setFault (s : State) (cs : List (Nat × Nat)) : Option Nat :=
  let wlen := fun (p : Nat) => if p = s.package then (s.wlen.getD 0 4).toNat else Config.peerWlen p
  if s.fw.launches.any fun l => l.exists_ && cs.any fun y => l.clusters.contains y then some Code.noResource
  else if ((cs.map fun y => wlen y.1).eraseDups).length > 1 then some Code.wlenMismatch
  else if cs.any fun y => if y.1 = s.package then !s.synced else !Config.peerSynced y.1 then some Code.notSynced
  else none

/-- Frames of a save area: two for each thread block, 92 for each core block (R340). -/
def areaFrames (n : Nat) : Nat := n * (516 * 2 + 64 * 92) + 8192

/-- The root registers of a launch (R301). -/
def State.loadRoots (s : State) (cs : List (Nat × Nat)) (slot root : Nat) (e : BitVec 16) : State :=
  (s.pagersOf cs).foldl (fun (s : State) p =>
    s.setPager p ((s.pager p).setRoot slot (1 ||| BitVec.ofNat 64 root <<< 12 ||| e.setWidth 64 <<< 48))) s

/-- The package table of a launch (R63): index i names package P0 + i. -/
def packageTable (p0 : Nat) (cs : List (Nat × Nat)) : List Nat :=
  (List.range ((cs.foldl (fun m y => max m y.1) p0) + 1 - p0)).map (p0 + ·)

/-- LAUNCH of an image for a master: the launch, or a status code with nothing of it created. -/
def State.launchImage (s : State) (m : Nat) (im : Image) (compAt vector : Nat) : Except Nat (BitVec 16 × State) := do
  let b := im.bytes
  if !Gxo.hasManifest b then .error Code.malformed
  let cs := clusterSet b s.package
  match s.setFault cs with
  | some c => .error c
  | none => pure ()
  let e := s.nextEpoch
  let slot ← (s.freeSlot cs).elim (.error Code.noResource) .ok
  let wins ← (windowSet b e.toNat).elim (.error Code.noResource) .ok
  let ranges ← (s.backings m e.toNat 0 [] (rangesOf b im wins)).elim (.error Code.noResource) .ok
  let root ← (s.takeFrame e.toNat []).elim (.error Code.noResource) .ok
  let (s, taken) ← (s.setPage (s.pageKey root) zeroPage).mapPages e.toNat im wins root (pagesOf ranges) [root]
  let all ← (s.takeFrames e.toNat (areaFrames (s.ours cs).length) taken).elim (.error Code.noResource) .ok
  let l : Launch := {
    master := m, epoch := e, slot := slot, clusters := cs, windows := wins, dequeDom := Gxo.mflags b % 8
    anchorDom := Gxo.mflags b / 8 % 8, dbg := (Gxo.mflags b).testBit 6
    supervisor := if Gxo.superPc b = 0 then none else some (BitVec.ofNat 64 (Gxo.superPc b)), image := im.handle
    ranges := ranges, frames := all, packages := packageTable s.package cs, roots := [], joins := []
    area := all.take (all.length - taken.length), phase := .running, tau := none, compAt := compAt, vector := vector, word := none
    records := [], dumpFull := false, chain := [], saved := none }
  let s := { s with fw := { s.fw with launches := l :: s.fw.launches.filter (·.epoch != e), lastEpoch := e } }
  let s := s.loadRoots cs slot root e
  let s := { s with phases := (List.range 4).foldl (fun t d => Tab.put t (d * 16 + slot) 0) s.phases }
  let s := s.writeRanks l
  let s := (List.range 512).foldl (fun (s : State) p => s.freshVent p) s
  let s := (s.ours cs).foldl (fun (s : State) c => s.readyCluster l c) s
  let s := s.startRoots e (rootsOf b cs)
  let s := (s.ours cs).foldl (fun (s : State) c => s.startCluster b l c) s
  .ok (e, (s.ours cs).foldl (fun (s : State) c => s.askQuiet c e) s)

/-! ## Page services (R313 to R317) -/

/-- The frame that a served page goes to, if it is free. -/
def State.serviceFrame (s : State) (l : Launch) (r : Range) (j : Nat) : Option Nat :=
  let placed := match s.fw.images.find? fun i => i.handle == l.image with
    | some i => (l.ranges.findIdx? (· == r)).bind (Tab.find i.placed)
    | none => none
  let ifFree := fun (f : Nat) => if s.frameTaken f then none else some f
  if chlocal r.record then ifFree (chlocalPage r.record j)
  else match placed with
    | some p => ifFree (p + j)
    | none => s.takeFrame l.epoch.toNat l.frames

/-- A page made present: copied from its backing store into a frame, its leaf written. -/
def State.bringIn (s : State) (l : Launch) (v : Service) (r : Range) (f : Nat) : State :=
  let j := (v.page - r.base) / 4096
  let bs := s.homeBytes (r.backing + 4096 * j) 4096
  let s := (s.setPage (s.pageKey f) bs).setEntry v.leafAt
    (leafFor r.record true (leafPage l.epoch.toNat l.frames.length (chlocal r.record) f))
  s.setLaunch { l with frames := f :: l.frames }

/-- Parked commands of an engine that wait for a page go back to the queue (R246). -/
def State.unpark (s : State) (c : Nat) (e : EngineSel) (leafAt : Nat) : State :=
  let ts := ((((s.core c).engine e).parked.filter fun p => p.page == some leafAt).map fun p => p.cmd.thread).eraseDups
  ts.foldl (fun (s : State) t => s.requeue t e (·.page == some leafAt)) s

/-- Bias requests that waited for a page are looked at again (R326). -/
def State.recheckBias (s : State) (leafAt t : Nat) : State :=
  let (bs, s) := (s.thread t).bias.foldl (fun (y : List BiasReq × State) b =>
    if b.page = some leafAt then let (b', s) := y.2.checkBias t b; (y.1 ++ [b'], s) else (y.1 ++ [b], y.2)) ([], s)
  s.setThread t { s.thread t with bias := bs }

/-- Join words that waited for a page, or with 0 for a busy home, are decremented (R335, R350). -/
def State.retryJoins (s : State) (e : BitVec 16) (page : Nat) : State :=
  match s.launch e with
  | none => s
  | some l =>
    let (mine, others) := l.joins.partition (·.page == page)
    mine.foldl (fun (s : State) j => s.failJoin j.wins j.unit e j.ea j.code j.notice (some page)) (s.setLaunch { l with joins := others })

/-- Everything that waits for a page is released. -/
def State.releasePage (s : State) (v : Service) : State :=
  let s := { s with
    net := { s.net with services := s.net.services.filter (· != v) }
    threads := s.threads.map fun (y : Nat × Thread) => (y.1, { y.2 with pages := y.2.pages.filter (· != v.leafAt) }) }
  let s := s.cores.foldl (fun (s : State) (y : Nat × Core) => (s.unpark y.1 .matrix v.leafAt).unpark y.1 .copy v.leafAt) s
  let s := s.wake fun _ w => w == .page v.leafAt || w == .ending || w == .fence
  let waiting := (s.threads.filter fun (y : Nat × Thread) => y.2.bias.any fun b => b.page == some v.leafAt).map (·.1)
  let s := State.kickAll (waiting.foldl (fun (s : State) t => s.recheckBias v.leafAt t) s)
  match s.launch v.epoch with
  | none => s
  | some l =>
    let (mine, others) := l.roots.partition fun r => r.page == some v.leafAt
    State.retryJoins (mine.foldl (fun (s : State) r => s.startRoot v.epoch r) (s.setLaunch { l with roots := others })) v.epoch v.leafAt

/-- Firmware serves a page: brought in where its backing store supplies it and a frame is free; otherwise the accesses that
wait find why (R314), or ask again.  0 names no page: the join words that wait for a busy home are tried. -/
def State.pageService (s : State) (leafAt : Nat) : State :=
  match s.net.services.find? fun v => v.leafAt == leafAt with
  | none => if leafAt = 0 then s.fw.launches.foldl (fun (s : State) l => s.retryJoins l.epoch 0) s else s
  | some v => match s.launch v.epoch with
    | none => { s with net := { s.net with services := s.net.services.filter (· != v) } }
    | some l => match l.rangeAt v.page with
      | none => s.releasePage v
      | some r =>
        if Leaf.present (s.entryAt leafAt) || (s.backingCause v.epoch v.page).isSome then s.releasePage v
        else match s.serviceFrame l r ((v.page - r.base) / 4096) with
          | some f => State.releasePage (s.bringIn l v r f) v
          | none => s.post [.pageServiceComplete leafAt]

def execPageServiceComplete (n : Nat) (s : State) : Host.Outcome State Fault Refusal := happen (·.pageService n) s

/-- What keeps firmware from a page-out (R316). -/
def State.pageHeld (s : State) (k : Nat) : Bool :=
  !(s.cellsAt k 4096).isEmpty || s.isArmed k 4096 || !(s.sealsAt k 4096).isEmpty || s.hostBias k
    || (s.host.flips.any fun f => f.page == k / 4096)
    || s.homes.any fun (y : Nat × Home) => y.2.log.any fun d => overlaps d.key d.size k 4096

/-- A page of a faultable range made non-present: leaf, shootdown, write-back, copy to the backing store, frame free; not before
the pagers have finished their earlier shootdowns, so that this one is performed at once (R307). -/
def State.pageOut (s : State) (e : BitVec 16) (va : Nat) : State :=
  match s.launch e with
  | none => s
  | some l => match l.rangeAt va, s.walk (s.pager 1000) l.slot va with
    | some r, some (leaf, at_) =>
      let k := s.physical e leaf va / 4096 * 4096
      if !l.exists_ || !r.faulting || !Leaf.present leaf || s.pageHeld k then s
      else if (s.pagersOf l.clusters).any fun p => (s.pager p).busy then s.post [.pageOut e.toNat va]
      else
        let s := s.setEntry at_ (leaf &&& ~~~ ((1 : Word) <<< 17))
        let v : Word := BitVec.ofNat 64 (va / 4096 % 2 ^ 45 * 4096 + l.slot * 8)
        let s := (s.pagersOf l.clusters).foldl (fun (s : State) p => s.pgshoot p v) s
        let s := s.copyPage k (r.backing + (va / 4096 * 4096 - r.base))
        let s := s.loseLines k 4096
        s.setLaunch { l with frames := l.frames.filter (· != localOf k / 4096) }
    | _, _ => s

def execPageOut (epoch page : Nat) (s : State) : Host.Outcome State Fault Refusal :=
  happen (·.pageOut (BitVec.ofNat 16 epoch) page) s

end Sys2Proof.Machine
end

