-- ==== Sys2Proof/Machine/Host.lean ====
section
/-! DEFINITION.
The hosts and the CXL ports: reads, writes and ownership requests of hosts, answers to back-invalidates, bias flips, snoops
of expanders, links (R321 to R330, R373).
-/

namespace Sys2Proof.Machine

/-! ## What the home knows of a page (R322, R324) -/

/-- The leaf under which a launch maps the page of a key, where one does. -/
def Launch.leafOf (l : Launch) (s : State) (k : Nat) : Option Word :=
  l.ranges.findSome? fun r => (List.range r.pages).findSome? fun j =>
    match s.walk (s.pager 1000) l.slot (r.base + 4096 * j) with
    | some (leaf, _) => if Leaf.present leaf && s.physical l.epoch leaf (r.base + 4096 * j) / 4096 == k / 4096 then some leaf else none
    | none => none

/-- The leaf of a key's page in any launch that exists (log 13). -/
def State.leafOf (s : State) (k : Nat) : Option Word :=
  (s.fw.launches.filter Launch.exists_).findSome? fun l => l.leafOf s k

/-- The page is of class SC. -/
def State.isSc (s : State) (k : Nat) : Bool := (s.leafOf k).any fun e => Leaf.cls e == 2

/-- The home may grant a host exclusive ownership of the page's lines (R325, R329). -/
def State.mayOwn (s : State) (k : Nat) : Bool := s.hostBias k || (s.leafOf k).any fun e => Leaf.cls e == 2 && Leaf.sysatom e

/-- The key of an HDM offset (R322). -/
def State.hdmKey (s : State) (a : Nat) : Nat := keyOf (s.package * 2 ^ 44 + a % 2 ^ 39)

/-- An address from 2^42 on in a host's request names the host's own memory behind the port, one below it an HDM offset
(log 13). -/
def ownMemory (a : Nat) : Bool := decide (2 ^ 42 ≤ a)

/-- The key of an address in the memory of the host behind a port (R17). -/
def State.hostMemoryKey (s : State) (port a : Nat) : Nat := keyOf (s.package * 2 ^ 44 + 0x40000000000 * (port + 1) + a % 2 ^ 42)

/-- The host port that a happening is a request of. -/
def Happening.hostPort : Happening → Option Nat
  | .hostMemrd p _ _ => some p
  | .hostMemwr p _ _ => some p
  | .hostOwnershipRequest p _ => some p
  | _ => none

/-- A request held at the home stands before every later one of its port: they are performed in the order in which they
arrived (R323). -/
def State.holdRequest (s : State) (h : Happening) : State :=
  let (later, others) := s.agenda.partition fun x => x.hostPort == h.hostPort
  { s with agenda := others ++ h :: later }

/-! ## Accesses of a host (R322 to R325) -/

/-- A host's line in the snoop filter, in place of any that its port holds there. -/
def State.grantLine (s : State) (port k : Nat) (excl : Bool) : State :=
  let l : HostLine := ⟨port, k / 64 * 64, s.homeBytes (k / 64 * 64) 64, excl, false⟩
  { s with host := { s.host with lines := l :: s.host.lines.filter fun x => !(x.port == port && x.key == l.key) } }

/-- Lines that keep a host's access waiting: those another port holds exclusive or modified, or for a write or a grant any it
holds.  A page in host bias is the hosts' own affair. -/
def State.rivals (s : State) (port k : Nat) (write : Bool) : List HostLine :=
  if s.hostBias k then []
  else s.host.lines.filter fun l => l.covers (k / 64 * 64) 64 && l.port != port && (write || l.excl || l.dirty)

/-- What keeps a host's access to n bytes waiting at the home. -/
def State.hostWaits (s : State) (port k n : Nat) (write : Bool) : Bool :=
  s.inTransition k || (s.host.given.any fun l => overlaps l.key l.bytes k n) || (write && s.sealBusy k n)
    || s.underTest (memLine k n) || !(s.rivals port k write).isEmpty

/-- Some core's L1 owns a word of n bytes at a key. -/
def State.ownedAnywhere (s : State) (k n : Nat) : Bool := s.cores.any fun (y : Nat × Core) =>
  (wordsOf k n).any fun w => (Tab.find y.2.l1 w).any (·.owned)

def State.snoopRivals (s : State) (port k : Nat) (write : Bool) : State := (s.rivals port k write).foldl (fun (s : State) l => s.snoop l) s

/-- A host's access to its own memory snoops the device copies of the line under the host's protocol (R323): what the device
has made of it is written back; for a write the copies are dropped. -/
def State.snoopDevice (s : State) (k : Nat) (write : Bool) : State :=
  let s := (wordsOf (k / 64 * 64) 64).foldl (fun (s : State) w => s.recallWord none w) s
  if write then (s.lines.filter fun l => l.key == k / 512 * 512).foldl (fun (s : State) l => s.loseLine l) s else s

/-- A host reads the line at an HDM offset; in host bias it may take the line exclusive.  Or it reads its own memory.  The home does
not recall what a device L1 owns; while one owns a word of the line, the host is given its bytes and no copy to keep, so that the
owner's release finds no older value at a host (R166, R168, R322, log 13). -/
def State.hostRead (s : State) (port a : Nat) (excl : Bool) : State :=
  let k := s.hdmKey (a / 64 * 64)
  if !s.host.up.getD port false || 2 ≤ port then s
  else if ownMemory a then s.snoopDevice (s.hostMemoryKey port a) excl
  else if s.hostWaits port k 64 false then (s.snoopRivals port k false).holdRequest (.hostMemrd port a excl)
  else
    let s := (s.touchFrom k 256).breach (s.logged k 64)
    let s := ((s.readHome (hostAgent port) k 64).2).requested (4 + port) k 64
    if s.hostBias k then
      let s := if excl then s.dropHostLines k 64 else s
      s.grantLine port k excl
    else if s.isSc k then
      let s := { s with host := { s.host with reads := Tab.put s.host.reads (k / 64) s.gtime } }
      if s.ownedAnywhere k 64 then s else s.grantLine port k false
    else s

def execHostMemrd (port addr : Nat) (excl : Bool) (s : State) : Host.Outcome State Fault Refusal :=
  happen (·.hostRead port addr excl) s

/-- Bytes put into a line. -/
def HostLine.put (l : HostLine) (k : Nat) (bs : List Byte) : HostLine :=
  { l with data := l.data.take (k - l.key) ++ bs ++ l.data.drop (k - l.key + bs.length), dirty := true }

/-- A port's shared copy follows the write its port has made at the home. -/
def HostLine.refresh (port k : Nat) (bs : List Byte) (l : HostLine) : HostLine :=
  if l.port = port ∧ l.covers k bs.length = true then { l.put k bs with dirty := l.dirty } else l

/-- A host writes bytes of one line: into the copy that its port holds exclusive, or at the home (R322); or in its own memory. -/
def State.hostWrite (s : State) (port a : Nat) (bs : List Byte) : State :=
  let k := s.hdmKey a
  let n := bs.length
  if !s.host.up.getD port false || 2 ≤ port || n == 0 || decide (64 < a % 64 + n) then s
  else if ownMemory a then
    let k := s.hostMemoryKey port a
    if s.present k then State.kickAll ((s.snoopDevice k true).writeHome (hostAgent port) 512 k bs) else s
  else match s.host.lines.find? fun l => l.port == port && l.excl && l.covers k n with
    | some l => { s with host := { s.host with lines := s.host.lines.map fun x => if x == l then l.put k bs else x } }
    | none =>
      if s.hostWaits port k n true then (s.snoopRivals port k true).holdRequest (.hostMemwr port a bs)
      else
        let logged := s.logged k n
        let s := (((s.touchFrom k 256).breach logged).unsealAt k n).writeHome (hostAgent port) 512 k bs
        let s := { s with host := { s.host with lines := s.host.lines.map (HostLine.refresh port k bs) } }
        State.kickAll ((s.requested (4 + port) k n).breach logged)

def execHostMemwr (port addr : Nat) (data : List Byte) (s : State) : Host.Outcome State Fault Refusal :=
  happen (·.hostWrite port addr data) s

/-- A host asks for a line exclusive (R329): device ownership is recalled, device copies go, monitors fire. -/
def State.hostOwn (s : State) (port a : Nat) : State :=
  let k := s.hdmKey (a / 64 * 64)
  if !s.host.up.getD port false || 2 ≤ port || !s.mayOwn k then s
  else if s.hostWaits port k 64 true then (s.snoopRivals port k true).holdRequest (.hostOwnershipRequest port a)
  else
    let s := (s.touchFrom k 256).breach (s.logged k 64)
    let s := (wordsOf k 64).foldl (fun (s : State) w => s.recallWord none w) s
    let s := (s.dropCopies none (k / 512 * 128) 128).observe (hostAgent port) k 64
    let s := (s.fireMonitors 0x1000020 k 64).requested (4 + port) k 64
    let s := if s.hostBias k then s.dropHostLines k 64 else s
    s.grantLine port k true

def execHostOwnershipRequest (port addr : Nat) (s : State) : Host.Outcome State Fault Refusal :=
  happen (·.hostOwn port addr) s

/-! ## Answers to back-invalidates (R322, R327, R328) -/

/-- The flip of a page that waits for answers goes on. -/
def State.resumeFlip (s : State) (page : Nat) : State :=
  match s.host.flips.find? fun f => f.page == page && f.step != 0 with
  | some f => s.post [if f.toHost then .biasFlipToHost page else .biasFlipToDevice page]
  | none => s

/-- Accesses that a host's answer or the end of a flip lets go on. -/
def State.hostAnswered (s : State) : State := State.kickAll (s.wake fun _ w => w == .memory || w == .fence)

/-- A port gives up its lines among n bytes: modified data is written back first. -/
def State.giveLines (s : State) (port k n : Nat) : State :=
  (s.host.lines.filter fun l => l.port == port && l.covers k n).foldl (fun (s : State) l =>
    let s := { s with host := { s.host with lines := s.host.lines.filter (· != l) } }
    if l.dirty then (s.writeHome (hostAgent port) 512 l.key l.data).requested (4 + port) l.key 64 else s) s

/-- A BIRspI: one line, or four in a flip to device bias (R328). -/
def State.birspi (s : State) (port k : Nat) : State :=
  let wide := s.host.flips.any fun f => f.page == k / 4096 && f.step != 0 && !f.toHost
  let n := if wide then 256 else 64
  let s := s.giveLines port (k / n * n) n
  let s := { s with host := { s.host with snoops := s.host.snoops.filter (· != (port, k / n * n)) } }
  (s.resumeFlip (k / 4096)).hostAnswered

def execBirspi (port addr : Nat) (s : State) : Host.Outcome State Fault Refusal := happen (·.birspi port addr) s

/-- A back-invalidate of an expander (R321): written back, dropped at its L2 home. -/
def State.bisnp (s : State) (a : Nat) : State :=
  let k := s.localKey a / 512 * 512
  if areaOf k != .secondTier then s
  else
    let s := s.recallBlock k 512
    (s.lines.filter fun l => l.key == k).foldl (fun (s : State) l => s.loseLine l) s

def execExpanderBisnp (addr : Nat) (s : State) : Host.Outcome State Fault Refusal := happen (·.bisnp addr) s

/-! ## Bias flips (R326 to R328) -/

/-- The flip whose turn it is at a page. -/
def State.flipAt (s : State) (page : Nat) (toHost : Bool) : Option Flip :=
  match s.host.flips.find? fun f => f.page == page with
  | some f => if f.toHost == toHost then some f else none
  | none => none

def State.setStep (s : State) (f : Flip) (n : Nat) : State :=
  { s with host := { s.host with flips := s.host.flips.map fun x => if x.id = f.id then { x with step := n } else x } }

/-- The request of a flip is complete, or has failed. -/
def Thread.flipped (id : Nat) (ok : Bool) (t : Thread) : Thread :=
  { t with bias := t.bias.map fun b => if b.key = some id then { b with outcome := some ok } else b }

def Migrant.flipped (id : Nat) (ok : Bool) (m : Migrant) : Migrant := { m with ctx := m.ctx.flipped id ok }

/-- A flip is over: its thread's request is complete or has failed, the next flip of the page begins, held accesses go on. -/
def State.endFlip (s : State) (f : Flip) (ok : Bool := true) : State :=
  let s := { s with
    host := { s.host with flips := s.host.flips.filter fun x => x.id != f.id }
    threads := s.threads.map fun (y : Nat × Thread) => (y.1, y.2.flipped f.id ok)
    net := { s.net with migrants := s.net.migrants.map (Migrant.flipped f.id ok) } }
  let s := match s.host.flips.find? fun x => x.page == f.page with
    | some g => s.post [if g.toHost then .biasFlipToHost f.page else .biasFlipToDevice f.page]
    | none => s
  s.hostAnswered

/-- The key of a page's first byte. -/
def pageFirst (page : Nat) : Nat := page * 4096

/-- Answers are still to come from a port for the page. -/
def State.flipAsked (s : State) (page : Nat) : Bool := s.host.snoops.any fun y => y.2 / 4096 == page

/-- A flip that is to begin finds the page free of tentative cells and of armed and sealed regions, as the check of its request
did (R326). -/
def State.flipOk (s : State) (page : Nat) : Bool :=
  (s.cellsAt (pageFirst page) 4096).isEmpty && !s.isArmed (pageFirst page) 4096 && (s.sealsAt (pageFirst page) 4096).isEmpty

/-- Steps 1 to 3 of a flip to host bias: recalls, write-backs, drops, snoops of the lines the filter names. -/
def State.beginToHost (s : State) (page : Nat) : State :=
  let k := pageFirst page
  let s := (s.recallBlock k 4096).fireMonitors 0x1000020 k 4096
  let s := s.loseLines k 4096
  (s.host.lines.filter fun l => l.covers k 4096).foldl (fun (s : State) l => s.snoop l) s

def State.flipToHost (s : State) (page : Nat) : State :=
  match s.flipAt page true with
  | none => s
  | some f =>
    if f.step = 0 && s.host.bias.contains page then s.endFlip f
    else if f.step = 0 && !s.flipOk page then s.endFlip f false
    else
      let s := if f.step = 0 then (s.setStep f 3).beginToHost page else s
      if s.flipAsked page then s
      else State.endFlip { s with host := { s.host with bias := insertNew page s.host.bias } } f

def execBiasFlipToHost (page : Nat) (s : State) : Host.Outcome State Fault Refusal := happen (·.flipToHost page) s

/-- Step 2 of a flip to device bias: sixteen snoops on each host port whose link is up. -/
def State.beginToDevice (s : State) (page : Nat) : State :=
  let asks := ((List.range 2).filter fun p => s.host.up.getD p false).flatMap fun p =>
    (List.range 16).map fun i => (p, pageFirst page + 256 * i)
  State.post { s with host := { s.host with snoops := asks ++ s.host.snoops } } (asks.map fun (y : Nat × Nat) => .birspi y.1 y.2)

def State.flipToDevice (s : State) (page : Nat) : State :=
  match s.flipAt page false with
  | none => s
  | some f =>
    if f.step = 0 && !s.host.bias.contains page then s.endFlip f
    else if f.step = 0 && !s.flipOk page then s.endFlip f false
    else
      let s := if f.step = 0 then (s.setStep f 2).beginToDevice page else s
      if s.flipAsked page then s
      else State.endFlip { s with host := { s.host with
        bias := s.host.bias.filter (· != page), lines := s.host.lines.filter fun l => !l.covers (pageFirst page) 4096 } } f

def execBiasFlipToDevice (page : Nat) (s : State) : Host.Outcome State Fault Refusal := happen (·.flipToDevice page) s

/-! ## Links (R321, R373) -/

/-- A link is lost: nothing more comes from a host port, whose lines and answers are gone, and an owner on it is none
(log 13). -/
def State.linkDown (s : State) (port : Nat) : State :=
  let s := { s with host := { s.host with up := s.host.up.setIfInBounds port false } }
  if 2 ≤ port then s
  else
    let pages := ((s.host.snoops.filter fun y => y.1 == port).map fun y => y.2 / 4096).eraseDups
    let s := { s with
      host := { s.host with
        lines := s.host.lines.filter fun l => l.port != port
        snoops := s.host.snoops.filter fun y => y.1 != port }
      fw := { s.fw with owner := match s.fw.owner with
        | some m => if m / 2 = port then none else some m
        | none => none } }
    State.hostAnswered (pages.foldl (fun (s : State) p => s.resumeFlip p) s)

def execLinkDown (port : Nat) (s : State) : Host.Outcome State Fault Refusal := happen (·.linkDown port) s

/-- The lanes of a link that has trained: all sixteen, or eight or four when degraded (R321). -/
def lanesOf (width : Nat) : Nat := if width ≤ 4 then 4 else if width ≤ 8 then 8 else 16

/-- A link trains at a rate from 8 to 64 GT/s and a width of 16, 8 or 4 lanes, which is free (R321, log 13). -/
def State.linkUp (s : State) (port rate : Nat) : State :=
  { s with host := { s.host with
    up := s.host.up.setIfInBounds port true, rate := s.host.rate.setIfInBounds port (max 8 (min rate 64))
    width := s.host.width.setIfInBounds port (lanesOf (Config.lanes s.tick)) } }

def execLinkUp (port rate : Nat) (s : State) : Host.Outcome State Fault Refusal := happen (·.linkUp port rate) s

end Sys2Proof.Machine
end

