-- ==== Sys2Proof/Machine/Gang.lean ====
section
/-! DEFINITION.
Gang switches: stopping a partition, saving it, and resuming it (R216, R217, R238, R246, R248, R262, R272, R298, R317, R339
to R344).
-/

namespace Sys2Proof.Machine

/-! ## The threads of a partition (R63) -/

/-- A compute or control thread of the launch's clusters, or a vent thread that runs work of the launch. -/
def State.inPartition (s : State) (l : Launch) (t : Nat) (x : Thread) : Bool :=
  if isVent t then x.epoch == l.epoch && x.status != .wfw && x.status != .idle
  else l.clusters.contains (s.package, clusterOf t)

/-- The partition's threads. -/
def State.partitionThreads (s : State) (l : Launch) : List Nat :=
  (s.threads.filter fun (y : Nat × Thread) => s.inPartition l y.1 y.2).map (·.1)

/-- The launch's compute cores that have been touched. -/
def State.partitionCores (s : State) (l : Launch) : List Nat :=
  (s.cores.filter fun (y : Nat × Core) => isCompute y.1 && l.clusters.contains (s.package, clusterOf y.1)).map (·.1)

/-! ## Stopping (R217, R238, R298, R317, R339) -/

/-- A monitor is saved: an armed one has fired (R204). -/
def Monitor.saved (m : Monitor) : Monitor := if m.armed then { m with armed := false, latch := true } else m

/-- What is left of a time limit. -/
def leftOf (due now : Nat) : Nat := due - now

/-- A thread's call timer paused (R298). -/
def Thread.pauseCall (t : Thread) (now : Nat) : Thread := { t with call := t.call.map fun c => { c with due := leftOf c.due now } }

/-- The wait of a thread, or what its instruction has begun, outlasts a switch. -/
def Thread.goesOn (t : Thread) : Bool :=
  match t.status with
  | .wait w => !w.abandoned t.taken
  | _ => t.underway

/-- A thread stops at a switch: its wait, and an instruction that has not reached its home, abandoned, its monitors fired. -/
def Thread.stopAt (t : Thread) : Thread :=
  { t with
    mon := t.mon.map Monitor.saved
    expired := false
    since := if t.goesOn then t.since else none
    begun := if t.goesOn then t.begun else none
    taken := t.taken && t.goesOn
    answered := t.answered && t.goesOn
    status := match t.status with
      | .wait w => if w.abandoned t.taken then .ready else .wait w
      | st => st }

/-- A thread that stands at its boundary with a cause takes it first (R339). -/
def State.boundaryTrap (s : State) (t : Nat) : State := s.deferredTrap t

/-- Everything that waited on behalf of a stopped thread is forgotten. -/
def State.unwait (s : State) (t : Nat) : State :=
  let k := s.core (coreOf t)
  let s := if k.waiting.isEmpty then s
    else s.setCore (coreOf t) { k with waiting := k.waiting.filter fun w => w.thread != t }
  let s := if isCompute t then
      let u := s.tile (tileOf t)
      if u.queue.isEmpty then s else s.setTile (tileOf t) { u with queue := u.queue.filter fun q => q.1 != t }
    else s
  { s with agenda := s.agenda.filter fun h => h != .mwaitTimeout t && h != .tentFullTimeout t }

/-- The first register of a thread whose residue is wrong (R138). -/
def Thread.badResidue (t : Thread) : Option Nat :=
  ((List.range 16).find? fun n => (t.reg (BitVec.ofNat 4 n)).res != residue (t.reg (BitVec.ofNat 4 n)).val).or
    (((List.range 8).find? fun n => (t.extReg (BitVec.ofNat 3 n)).res != residue (t.extReg (BitVec.ofNat 3 n)).val).map (16 + ·))

/-- A thread that stands at its boundary waits for nothing. -/
def State.haltThread (s : State) (t : Nat) : State := (s.unwait t).setThread t (s.thread t).stopAt

def State.stopThread (s : State) (t : Nat) : State :=
  let s := (s.boundaryTrap t).haltThread t
  s.setThread t ((s.thread t).pauseCall s.gtime)

/-- The save of a thread compares its residues (R138): a wrong one traps at the boundary where the thread stands, or at the next
one where its instruction has left it and is still to end; a thread with no instruction to trap posts the event (log 41). -/
def State.saveCheck (s : State) (t : Nat) : State :=
  match (s.thread t).badResidue with
  | none => s
  | some n => match (s.thread t).status with
    | .ready => s.takeCause t .residue (BitVec.ofNat 64 n) none none
    | .wait _ => s.defer t ⟨.residue, BitVec.ofNat 64 n, none, none⟩
    | _ => s.causeEvent t .residue (BitVec.ofNat 64 n)

/-! ## Messages in flight (R341) -/

/-- The part of what is on its way that belongs to a launch. -/
def State.netOf (s : State) (e : BitVec 16) : Net :=
  let mine := fun (t : Nat) => (s.thread t).epoch == e
  let msg := fun (m : CallMsg) => mine m.caller
  { Net.empty with
    tasks := s.net.tasks.filter fun (y : Nat × Nat × Task) => y.2.2.epoch == e
    creates := s.net.creates.filter fun n => n.epoch == e
    retires := s.net.retires.filter fun n => n.epoch == e
    words := s.net.words.filter fun (y : Nat × Nat × BitVec 16 × Word) => y.2.2.1 == e
    calls := s.net.calls.filter fun c => c.epoch == e
    replies := s.net.replies.filter msg
    acks := s.net.acks.filter msg
    retracts := s.net.retracts.filter msg
    migrants := s.net.migrants.filter fun m => m.ctx.epoch == e
    msgs := s.net.msgs.filter fun m => mine m.sender
    naks := s.net.naks.filter fun m => mine m.sender }

/-- What is left in the network. -/
def Net.without (n m : Net) : Net :=
  { n with
    tasks := n.tasks.filter fun x => !m.tasks.contains x
    creates := n.creates.filter fun x => !m.creates.contains x
    retires := n.retires.filter fun x => !m.retires.contains x
    words := n.words.filter fun x => !m.words.contains x
    calls := n.calls.filter fun x => !m.calls.contains x
    replies := n.replies.filter fun x => !m.replies.contains x
    acks := n.acks.filter fun x => !m.acks.contains x
    retracts := n.retracts.filter fun x => !m.retracts.contains x
    migrants := n.migrants.filter fun x => !m.migrants.contains x
    msgs := n.msgs.filter fun x => !m.msgs.contains x
    naks := n.naks.filter fun x => !m.naks.contains x }

/-- A saved message sent again (R341). -/
def Msg.again (m : Msg) : Msg := { m with saved := true }

/-- The saved messages ahead of those in the network. -/
def Net.join (m n : Net) : Net :=
  { n with
    tasks := m.tasks ++ n.tasks
    creates := m.creates ++ n.creates
    retires := m.retires ++ n.retires
    words := m.words ++ n.words
    calls := m.calls ++ n.calls
    replies := m.replies ++ n.replies
    acks := m.acks ++ n.acks
    retracts := m.retracts ++ n.retracts
    migrants := m.migrants ++ n.migrants
    msgs := m.msgs.map Msg.again ++ n.msgs
    naks := m.naks.map Msg.again ++ n.naks }

/-- One arrival for each message put back. -/
def Net.arrivals (m : Net) (e : Nat) : List Happening :=
  m.tasks.map (fun _ => .taskRecord 0) ++ m.creates.map (fun _ => .creationNotice 0) ++ m.retires.map (fun _ => .retirementNotice 0)
  ++ m.words.map (fun (y : Nat × Nat × BitVec 16 × Word) => if y.2.1 = firmware then .launchComplete e else .childStatusWord 0)
  ++ m.calls.map (fun _ => .callArrival 0) ++ m.replies.map (fun _ => .replyArrival 0) ++ m.acks.map (fun _ => .ackArrival 0)
  ++ m.retracts.map (fun _ => .retractionPass 0) ++ m.migrants.map (fun _ => .migrationArrival 0)
  ++ m.msgs.map (fun _ => .messageArrival 0) ++ m.naks.map (fun _ => .backPressureNak 0)

/-! ## GANG_SWITCH -/

/-- Every task and child has retired and every thread is in WFW (R343); notices on their way count as received. -/
def State.allDone (s : State) (l : Launch) : Bool :=
  ((s.ours l.clusters).all fun c =>
    (s.countsOf c l.epoch).unretired + s.createsFor c l.epoch == s.retiresFor c l.epoch && !s.busyThreads c l.epoch
    && !(clusterCores c).any fun k => (s.core k).deque.any fun d => d.epoch == l.epoch)
  && !s.threads.any fun (y : Nat × Thread) => isVent y.1 && s.inPartition l y.1 y.2

/-- The retraction timers of a launch's calls paused, or running again (R298). -/
def State.mapTimers (s : State) (e : BitVec 16) (f : Nat → Nat) : State :=
  { s with servers := s.servers.map fun (y : Nat × Server) =>
      (y.1, { y.2 with cache := y.2.cache.map fun x => if x.epoch = e then { x with due := f x.due } else x }) }

/-- The launch on its way out. -/
def State.beginSwitch (s : State) (l : Launch) : State :=
  let s := (s.partitionThreads l).foldl State.stopThread s
  let s := s.mapTimers l.epoch (fun d => leftOf d s.gtime)
  let m := s.netOf l.epoch
  let s := { s with net := s.net.without m }
  let s := s.setLaunch { (s.launch l.epoch).getD l with phase := .switching, tau := none, saved := some ⟨[], m⟩ }
  let timers := (s.partitionCores l).flatMap fun c =>
    (if (s.core c).matrix.running.isSome then [Happening.engineCheckpointTimeout c .matrix] else [])
      ++ (if (s.core c).copy.running.isSome then [Happening.engineCheckpointTimeout c .copy] else [])
  s.post (timers ++ [.saveComplete l.epoch.toNat])

def State.gangSwitch (s : State) (e : BitVec 16) : State :=
  match s.launch e with
  | none => s
  | some l => match l.phase, l.tau with
    | .running, some tau =>
      if s.gtime < tau then s.post [.gangSwitch e.toNat]
      else if s.allDone l then s.setLaunch { l with tau := none }
      else s.beginSwitch l
    | _, _ => s

def execGangSwitch (epoch : Nat) (s : State) : Host.Outcome State Fault Refusal :=
  happen (·.gangSwitch (BitVec.ofNat 16 epoch)) s

/-! ## SAVE_COMPLETE (R339, R340) -/

/-- A thread's instruction has begun and completes before the thread stops (R217, R238). -/
def Thread.finishing (t : Thread) : Bool :=
  t.underway || match t.status with
    | .wait .memory | .wait (.fill _) | .wait .fence => true
    | .wait .vector => t.taken
    | _ => false

/-- Something of the partition is still to finish: an engine command, a self-test, a departed NRED, an instruction that has
begun. -/
def State.saveBusy (s : State) (l : Launch) : Bool :=
  ((s.partitionCores l).any fun c => (s.core c).matrix.running.isSome || (s.core c).copy.running.isSome)
  || ((s.partitionCores l ++ (s.partitionThreads l).map coreOf).any fun c => !(s.core c).suspects.isEmpty)
  || (s.partitionThreads l).any fun t => s.departed t || (s.thread t).finishing

/-- The blocks of a partition: the threads and the cores of each cluster, then the vent threads (log 14). -/
def State.saveBytes (s : State) (l : Launch) : List Byte :=
  ((s.ours l.clusters).flatMap fun c =>
    (clusterThreads c ++ (List.range 4).map (controlThread c)).flatMap (fun t => threadBlock t (s.thread t))
      ++ (clusterCores c).flatMap fun k => coreBlock (s.core k))
  ++ ((s.partitionThreads l).filter isVent).flatMap fun t => threadBlock t (s.thread t)

/-- Bytes put into frames, a page each. -/
def State.storeFrames (s : State) (bs : List Byte) : List Nat → State
  | [] => s
  | f :: fs => if bs.isEmpty then s else State.storeFrames (s.setPage (s.pageKey f) (padTo 4096 bs)) (bs.drop 4096) fs

/-- A vent thread that has been saved serves others: it is in WFW, with nothing of the launch waiting in it. -/
def State.vacate (s : State) (t : Nat) : State :=
  let x := s.thread t
  let s := s.setThread t { x with
    epoch := 0, trapm := false, call := none, acks := [], mail := [], late := [], bias := [], lease := none, causes := []
    window := none, pages := [] }
  s.enterWfw t

def State.saveComplete (s : State) (e : BitVec 16) : State :=
  match s.launch e with
  | none => s
  | some l => match l.phase, l.saved with
    | .switching, some v =>
      if s.saveBusy l then s.post [.saveComplete e.toNat]
      else
        let s := (s.partitionThreads l).foldl (fun (s : State) t => (s.haltThread t).saveCheck t) s
        let vents := (s.partitionThreads l).filter isVent
        let s := s.storeFrames (s.saveBytes l) l.area
        let saved := vents.foldl (fun (t : Tab Thread) u => Tab.put t u (s.thread u)) []
        let s := vents.foldl State.vacate s
        s.setLaunch { (s.launch l.epoch).getD l with phase := .out, saved := some { v with threads := saved } }
    | _, _ => s

def execSaveComplete (epoch : Nat) (s : State) : Host.Outcome State Fault Refusal :=
  happen (·.saveComplete (BitVec.ofNat 16 epoch)) s

/-! ## GANG_RESUME (R342, R344) -/

/-- Late messages enter the mailbox, oldest first, as far as it has room; RECV takes the others from behind it.  The replies among
them are delivered as replies (R342). -/
def Thread.takeLate (t : Thread) : Thread :=
  let n := 4 - t.mail.length
  let late := t.late.filter (·.kind != 2)
  { t with mail := t.mail ++ late.take n, late := late.drop n }

/-- A context restored: its residues are generated (R137). -/
def Thread.restored (t : Thread) : Thread :=
  { t with regs := t.regs.map fun r => Reg.of r.val, ext := t.ext.map fun r => Reg.of r.val }

/-- A thread starts again: late messages in, its call's timer running, a wait that R347 bounds counted from now. -/
def State.restart (s : State) (t : Nat) : State :=
  let x := (s.thread t).takeLate.restored
  let s := s.setThread t { x with
    since := x.since.map fun _ => s.gtime
    call := x.call.map fun c => { c with due := s.gtime + c.due } }
  s.post ((if x.call.isSome then [Happening.callerTimer t] else []) ++ (if x.acks.isEmpty then [] else [.loneAcknowledgement t]))

/-- The retraction timers of a launch run again. -/
def State.restartTimers (s : State) (e : BitVec 16) : State :=
  let s := s.mapTimers e (s.gtime + ·)
  s.post (s.servers.flatMap fun (y : Nat × Server) =>
    (y.2.cache.filter fun x => x.epoch == e && x.answer.isSome).map fun x =>
      .retractionTimer y.1 (x.callId.toNat * 2 ^ 24 + x.caller))

/-- Homes and units that hold work of the launch look at it again. -/
def State.wakeWork (s : State) (l : Launch) : State :=
  let s := s.servers.foldl (fun (s : State) (y : Nat × Server) => if y.2.calls.any fun c => c.epoch == l.epoch then s.serve y.1 else s) s
  let s := s.homes.foldl (fun (s : State) (y : Nat × Home) =>
    if y.2.queue.any fun r => r.epoch == l.epoch then s.postOnce (.headTake y.1) else s) s
  let s := (s.ours l.clusters).foldl (fun (s : State) c => (s.postOnce (.dispenserDispatch c)).askQuiet c l.epoch) s
  (s.partitionCores l).foldl State.kick s

def State.gangResume (s : State) (e : BitVec 16) : State :=
  match s.launch e with
  | none => s
  | some l => match l.phase, l.saved, l.tau with
    | .out, some v, some tau =>
      if decide (s.gtime < tau) || v.threads.any fun (y : Nat × Thread) => (s.thread y.1).status != .wfw then s.post [.gangResume e.toNat]
      else
        let s := v.threads.foldl (fun (s : State) (y : Nat × Thread) => (s.leaveOrder y.1).setThread y.1 y.2) s
        let s := s.setLaunch { l with phase := .running, tau := none, saved := none }
        let s := State.post { s with net := v.net.join s.net } (v.net.arrivals e.toNat)
        let s := (s.partitionThreads l).foldl State.restart s
        (s.restartTimers e).wakeWork l
    | _, _, _ => s

def execGangResume (epoch : Nat) (s : State) : Host.Outcome State Fault Refusal :=
  happen (·.gangResume (BitVec.ofNat 16 epoch)) s

end Sys2Proof.Machine
end

