-- ==== Sys2Proof/Machine/Reliability.lean ====
section
/-! DEFINITION.
Errors that appear by themselves, self-tests, hangs, and what the cluster supervisor does for a killed core (R49, R346 to
R354).
-/

namespace Sys2Proof.Machine

/-! ## The launch a core runs -/

/-- The epoch under which a core is killed: its cluster's launch, or the launch whose work a vent core runs. -/
def State.coreEpoch (s : State) (c : Nat) : BitVec 16 :=
  if isVent c then
    match ((List.range 8).map (c + ·)).find? fun t => (s.thread t).work.isSome || (s.thread t).callee.isSome with
    | some t => (s.thread t).epoch
    | none => 0
  else s.epochOfCluster (clusterOf c)

/-- The code a core was killed with, from the launch's cause chain (R348). -/
def State.killCode (s : State) (e : BitVec 16) (c : Nat) : Nat :=
  match s.launch e with
  | some l => match (l.chain.filter fun (y : Nat × Nat × Nat × Nat × Nat × Nat) =>
      y.2.2.2.1 == s.package * 2 ^ 24 + c && (y.1 == Cause.hang.code || y.1 == Cause.killed.code)).getLast? with
    | some y => y.1
    | none => Cause.killed.code
  | none => Cause.killed.code

/-! ## SUPERVISOR_RECOVERY (R350) -/

/-- Step 1: the cells tentative under the core's threads, listed behind the core's state record (R348). -/
def State.recoverCells (s : State) (c : Nat) (e : BitVec 16) : State :=
  let cs := s.cells.filter fun x => coreOf x.owner == c
  cs.foldl (fun (s : State) x => s.retractCell c x) (s.dumpMore e c (cellList cs))

/-- A call that a killed core was serving is answered with an error (R288, R349). -/
def State.recoverCall (s : State) (t : Nat) (k : Callee) : State :=
  let u := serverOf t
  match (s.server u).entry k.caller k.callId with
  | none => s.sendAnswer u k.caller k.callId (.status .poison 0)
  | some e =>
    let s := (s.callCells e).foldl (fun (s : State) x => s.retractCell t x) s
    let s := s.setServer u ((s.server u).setEntry { e with answer := some (.status .poison 0), cells := [], due := s.gtime + retractionNs })
    (s.post [.retractionTimer u (k.callId.toNat * 2 ^ 24 + k.caller)]).sendAnswer u k.caller k.callId (.status .poison 0)

/-- Step 3 for a thread: the call it served, or its open inline children and its work. -/
def State.recoverThread (s : State) (t code : Nat) : State :=
  let x := s.thread t
  let s := match x.callee, x.work with
    | some k, _ => s.recoverCall t k
    | none, some w =>
      let s := s.closeInline t Cause.killed.code frameBound
      s.failWork t w (s.thread t).win x.epoch (match w.job with
        | .task _ _ _ => code
        | .child _ => Cause.killed.code)
    | none, none => s
  s.setThread t { s.thread t with work := none, callee := none, causes := [] }

/-- A child of a core's deque that has not started retires as failed: its join word decremented with a release, then its notice. -/
def State.failChild (s : State) (c : Nat) (d : Child) (code : Nat) : State :=
  let unit := controlThread (clusterOf c) 0
  (s.release unit).failJoin (s.windowsOf d.epoch) unit d.epoch d.join code (some (d.origin, code))

/-- Step 3 for an unstarted entry of the core's deque. -/
def State.recoverChild (s : State) (c : Nat) (d : Child) : State :=
  s.failChild c d Cause.killed.code

def State.recoverDeque (s : State) (c : Nat) : State :=
  let ds := (s.core c).deque
  ds.foldl (fun (s : State) d => s.recoverChild c d) (s.setCore c { s.core c with deque := [] })

/-- The queue of a killed vent core retires as failed, but for entries that run elsewhere. -/
def State.recoverQueue (s : State) (c : Nat) : State :=
  let h := channelOf c
  let x := s.home h
  let gone := x.queue.filter fun r => match r.runner with
    | some t => coreOf t == c
    | none => true
  let s := s.setHome h { x with queue := x.queue.filter fun r => !gone.contains r }
  let s := gone.foldl (fun (s : State) r => s.sendRetirement c r.origin r.epoch Cause.killed.code) s
  s.homeChanged h

/-- Calls that wait at a unit with no core left are answered with an error. -/
def State.recoverServer (s : State) (u : Nat) : State :=
  if s.unitDead u then
    let v := s.server u
    v.calls.foldl (fun (s : State) m => s.sendAnswer u m.caller m.callId (.status .poison m.target)) (s.setServer u { v with calls := [] })
  else s

def State.recover (s : State) (c : Nat) : State :=
  if !(s.core c).killed then s
  else
    let e := s.coreEpoch c
    let code := s.killCode e c
    let s := s.recoverCells c e
    let s := s.setCore c { s.core c with claims := Vector.replicate 40 none, waiting := [] }
    let s := ((List.range 8).map (c + ·)).foldl (fun (s : State) t => s.recoverThread t code) s
    let s := if isVent c then s.recoverQueue c else s.recoverDeque c
    let s := s.recoverServer (serverOf c)
    let s := s.postEvent (eventCluster s c) 13 (if (s.core c).lasting then 2 else 0) code 0 c 0
    if isVent c then s else s.askQuiet (clusterOf c) e

def execSupervisorRecovery (core : Nat) (s : State) : Host.Outcome State Fault Refusal := happen (·.recover core) s

/-! ## HANG (R347) -/

/-- HANG_US for a core. -/
def State.hangUs (s : State) (c : Nat) : Nat := (s.cluster (eventCluster s c)).wdog.toNat

/-- A thread waits for a memory reply, a grant, an acknowledgement or a vector input position. -/
def Thread.hangs (t : Thread) : Bool :=
  match t.status with
  | .wait .memory | .wait (.fill _) | .wait .walk | .wait .fence | .wait .send | .wait .armed => true
  | .wait .vector => !t.taken
  | _ => false

/-- The bound of a core has passed since a gtime. -/
def State.overdue (s : State) (c since : Nat) : Bool := decide (since + 1000 * s.hangUs c < s.gtime)

def State.engineHangs (s : State) (c : Nat) (g : Engine) : Bool := g.running.isSome && s.overdue c g.since

/-- A core on which a bounded wait or an engine command has lasted longer than HANG_US is killed. -/
def State.hang (s : State) (c : Nat) : State :=
  let k := s.core c
  let stuck := (((List.range 8).map (c + ·)).any fun t => (s.thread t).hangs && (s.thread t).since.any (s.overdue c))
    || s.engineHangs c k.matrix || s.engineHangs c k.copy
  let e := s.coreEpoch c
  if k.killed || k.testing || s.hangUs c == 0 || !stuck || s.offline e then s
  else (s.postEvent (eventCluster s c) 15 0 Cause.hang.code 0 c 0).killCore c Cause.hang.code 0xFFFF e 0

def execHang (core : Nat) (s : State) : Host.Outcome State Fault Refusal := happen (fun s => s.hang (coreOf core)) s

/-! ## Self-tests (R354) -/

/-- The chain code of an event: its cause's, or its kind with 0x100 added (R348). -/
def Suspect.chainCode (x : Suspect) : Nat := if x.code = 0 then x.kind + 0x100 else x.code

/-- A lasting error kills its unit, the event as the parent, with the time of the event (R348). -/
def State.killLasting (s : State) (c : Nat) (x : Suspect) : State :=
  let e := s.coreEpoch c
  let s := s.setCore c { s.core c with lasting := true }
  let s := s.dump e x.chainCode 0xFFFF c x.addr [] (some x.time)
  s.killCore c Cause.killed.code (s.lastEntry e) e x.addr

/-- An event that has a core's datapaths tested (R354). -/
def Suspect.logic (x : Suspect) : Bool := decide (x.kind ≤ 4)

/-- A core whose datapath test has ended goes on, unless another is still to come. -/
def State.testOver (s : State) (c : Nat) : State :=
  let s := (s.setCore c { s.core c with testing := (s.core c).suspects.any Suspect.logic }).kick c
  if isCompute c && !(s.waiters (clusterOf c)).isEmpty then s.postOnce (.dispenserDispatch (clusterOf c)) else s

/-- Accesses that have waited for storage under self-test are tried again (R354). -/
def State.tested (s : State) : State := State.kickAll (s.wake fun _ w => w == .memory || w == .fence)

/-- The oldest self-test of a core ends: kinds 1 to 4 tested its datapaths, the others its storage, which may be accessed again. -/
def State.selfTest (s : State) (c : Nat) (lasting : Bool) : State :=
  let k := s.core c
  match k.suspects with
  | [] => s
  | x :: rest =>
    let s := s.setCore c { k with suspects := rest }
    let report := fun (s : State) (classify : Nat) => s.postEvent (eventCluster s c) 11 classify x.code 0 x.unit x.addr
    if x.logic then
      let s := s.testOver c
      if lasting then s.killLasting c x else report s 1
    else if !lasting then report s.tested 1
    else if Config.spareLeft s.tick then report s.tested 2
    else State.tested (s.killLasting c x)

def execSelfTestResult (core : Nat) (lasting : Bool) (s : State) : Host.Outcome State Fault Refusal :=
  happen (·.selfTest core lasting) s

/-! ## SOFT_ERROR (R137, R139, R352, R353) -/

/-- An event of kinds 5 to 7, and the self-test of the storage at a place; a correction by SEC-DED is counted (R358). -/
def State.storageEvent (s : State) (unit kind number : Nat) (addr : Word) (place : Option Place := none) : State :=
  let s := if kind = 5 then s.count unit 46 else s
  let s := s.postEvent (eventCluster s unit) kind 0 0 number unit addr
  let c := coreOf unit
  let k := s.core c
  (s.setCore c { k with suspects := k.suspects ++ [⟨kind, 0, unit, addr, s.gtime, place⟩] }).post [.selfTestResult c (Config.lasting s.tick)]

/-- A word under SEC-DED: one bit is corrected, two poison it. -/
def State.secded (s : State) (unit number : Nat) (addr : Word) (p : Place) (double : Bool) : State :=
  if double then State.storageEvent { s with poison := if s.poison.contains p then s.poison else p :: s.poison } unit 6 number addr (some p)
  else s.storageEvent unit 5 number addr (some p)

/-- A register with a bit of its value, or of its residue, turned over. -/
def Reg.flip (r : Reg) (bit : Nat) : Reg :=
  if bit % 68 < 64 then { r with val := r.val ^^^ (1 : Word) <<< (bit % 68) } else { r with res := r.res ^^^ (1 : BitVec 4) <<< (bit % 68 - 64) }

/-- An error in memory: first tier by its own code; behind a memory port or a host only poison shows. -/
def State.memoryError (s : State) (k : Nat) (double : Bool) : State :=
  match areaOf k with
  | .firstTier => s.secded (ventThread (keyChannel k) 0) 0 (BitVec.ofNat 64 (localOf k)) (.mem (k / 8)) double
  | .secondTier | .host _ => if double then { s with poison := if s.poison.contains (.mem (k / 8)) then s.poison else .mem (k / 8) :: s.poison } else s
  | _ => s

/-- An error in an L1 word: a clean one is fetched again, a dirty one is under SEC-DED; with two bits wrong it goes home, poisoned. -/
def State.l1Error (s : State) (c k : Nat) (double : Bool) : State :=
  match Tab.find (s.core c).l1 (k / 4) with
  | none => s
  | some x =>
    if x.dirty = 0 then State.storageEvent (s.setL1 c (k / 4) (if x.owned then some { x with val := s.homeWord (k / 4) } else none)) c 7 0 (BitVec.ofNat 64 (localOf k)) (some (.mem (k / 8)))
    else
      let s := if double then (s.mergeHome (k / 4) x).setL1 c (k / 4) none else s
      s.secded c 0 (BitVec.ofNat 64 (localOf k)) (.mem (k / 8)) double

/-- An error in a line at its L2 home: whether the line is dirty is free, since the home's memory holds its bytes (log 12); a
clean one is fetched again, a dirty one is under SEC-DED. -/
def State.l2Error (s : State) (k : Nat) (double : Bool) : State :=
  if !s.resident k then s
  else
    let unit := controlThread (s.homeSlice k).1 0
    let addr := BitVec.ofNat 64 (localOf k)
    let s := { s with fresh := s.fresh + 1 }
    if (Config.freeBits (s.fresh - 1)).getLsbD 0 then s.secded unit 0 addr (.mem (k / 8)) double else s.storageEvent unit 7 0 addr (some (.mem (k / 8)))

/-- An error in the pair-buffer entry of a cell. -/
def State.pairError (s : State) (k : Nat) (double : Bool) : State :=
  match s.cells.find? fun c => c.key == k with
  | none => s
  | some c => s.secded (controlThread (c.slice / 8) 0) 0 (BitVec.ofNat 64 (localOf k)) (.pair k) double

/-- A word of a unit's reply cache or queue with two bits wrong is poisoned, and whoever reads it finds that out (R352, R353): a call whose
answer it held is answered with POISON, as R349 answers one; a task or a child that it described cannot be read and retires as failed
with POISON.  Which entry it is is free, and how a queue's own read traps is read from those rules (log 15). -/
def State.entryError (s : State) (u : Nat) : State :=
  let i := (Config.freeBits s.fresh).toNat
  let s := { s with fresh := s.fresh + 1 }
  let v := serverOf u
  let answers := (s.server v).cache.filter fun e => e.answer.isSome
  let h := if isVent u then channelOf u else 512 + dieOf u
  let tasks := if isCompute u then [] else (s.home h).queue.filter fun r => !r.running
  let children := if isCompute u then (s.core (coreOf u)).deque else []
  let n := i % (answers.length + tasks.length + children.length)
  match answers[n]?, tasks[n - answers.length]?, children[n - answers.length - tasks.length]? with
  | some e, _, _ => s.setServer v ((s.server v).setEntry { e with answer := some (.status .poison 0) })
  | none, some r, _ =>
    let x := s.home h
    State.homeChanged ((s.setHome h { x with queue := x.queue.filter (· != r) }).sendRetirement u r.origin r.epoch Cause.poison.code) h
  | none, none, some d =>
    let k := s.core (coreOf u)
    (s.setCore (coreOf u) { k with deque := k.deque.filter (· != d) }).failChild (coreOf u) d Cause.poison.code
  | none, none, none => s

/-- A core stops at its instruction boundaries for its store to be loaded again from the image that firmware keeps (R69, R352). -/
def State.stopForReload (s : State) (c : Nat) : State :=
  if isCompute c && !(s.core c).killed then
    (s.setCore c { s.core c with stopped := true, reload := true }).postOnce (.programLoad c (s.epochOfCluster (clusterOf c)).toNat)
  else s

def State.softError (s : State) (site : ErrSite) (bit : Nat) (double : Bool) : State :=
  match site with
  | .scalar t n =>
    let i := BitVec.ofNat 4 n
    s.setThread t ((s.thread t).setReg i (((s.thread t).reg i).flip bit))
  | .ext t n =>
    let i := BitVec.ofNat 3 n
    s.setThread t ((s.thread t).setExt i (((s.thread t).extReg i).flip bit))
  | .vector t n => s.secded t (n % 8) 0 (.vec t (n % 8) (bit / 64 % 16)) double
  | .mask t n => s.secded t (n % 8) 0 (.msk t (n % 8) (bit / 64 % 2)) double
  | .slot c n => s.secded c (n % 32) 0 (.slot c (n % 32) (bit / 64 % 128)) double
  | .acc c n => s.secded c (n % 8) 0 (.acc c (n % 8) (bit / 64 % 128)) double
  | .localMem u n => s.secded u 0 (BitVec.ofNat 64 n) (.tile u (n / 8)) double
  | .l1 c k => s.l1Error c (keyOf k) double
  | .memory k => s.memoryError (keyOf k) double
  | .l2 k => s.l2Error (keyOf k) double
  | .pair k => s.pairError (keyOf k) double
  | .entry u => State.storageEvent (if double then s.entryError u else s) u (if double then 6 else 5) 0 0
  | .istore c n => (s.storageEvent c 7 0 (BitVec.ofNat 64 n)).stopForReload (coreOf c)
  | .logic t => s.post [.checkerReissue t]

def execSoftError (site : ErrSite) (bit : Nat) (double : Bool) (s : State) : Host.Outcome State Fault Refusal :=
  happen (·.softError site bit double) s

end Sys2Proof.Machine
end

