-- ==== Sys2Proof/Machine/PowerControl.lean ====
section
/-! DEFINITION.
The controllers of power, current and heat: control intervals, operating points, the thermal loop, the stacks (R357 to
R368).
-/

namespace Sys2Proof.Machine

/-! ## The estimate (R358) -/

/-- Events whose counts this machine keeps exactly; the others happen below the instruction set, and their counts are free
values (log 11). -/
def countedEvents : List Nat := [0, 1, 2, 3, 5, 6, 7, 8, 9, 10, 11, 12, 13, 19, 25, 26, 30, 31, 32, 33, 34, 37, 38, 40, 45, 46]

/-- C_n of the interval that ends. -/
def Power.countOf (p : Power) (free : Block) (n : Nat) : Nat :=
  if n = 47 then 0
  else if countedEvents.contains n then (p.counts.getD n 0).toNat
  else free.toNat / 2 ^ (16 * n) % 2 ^ 16

/-- E. -/
def Power.estimate (p : Power) (free : Block) : Nat :=
  min (p.static.toNat + ((List.range 48).map fun n => p.weight n * p.countOf free n).sum) (2 ^ 32 - 1)

/-! ## The level, the ceiling and the quiet count (R359 to R361) -/

def Power.cap (p : Power) : Nat := min p.tcap.toNat p.ccap

def Power.band (p : Power) : Nat := p.cap * p.hyst / 256

/-- The highest point that the ceiling may reach. -/
def Power.ctop (p : Power) : Nat := if p.boostEn then 7 else 5

/-- L, CEIL and QUIET after an interval with estimate e, TRIP being set already. -/
def Power.control (p : Power) (e : Nat) : Power :=
  let p := if p.trip then { p with level := p.lmax, ceil := 0, quiet := 0 }
    else if p.cap < e then
      let p := { p with quiet := 0, ceil := min p.ceil 5 }
      if p.level < p.lmax then { p with level := min (p.level + 2) p.lmax }
      else { p with ceil := p.ceil - 1 }
    else if e + p.band ≤ p.cap then
      let p := { p with quiet := min (p.quiet + 1) 4 }
      if 0 < p.level then { p with level := p.level - 1 }
      else if p.quiet = 4 ∧ p.ceil < p.ctop then { p with ceil := p.ceil + 1, quiet := 0 }
      else p
    else { p with quiet := 0 }
  { p with ceil := min p.ceil p.ctop }

/-- TRIP for the hottest sensor's reading (R363). -/
def Power.tripFor (p : Power) (t : Nat) : Bool :=
  if p.ttrip ≤ t then true else if p.trip && decide (t + p.thyst ≤ p.ttrip) then false else p.trip

/-! ## Slots (R360) -/

/-- The slots of a core that level l removes: those it covers, but not slot 0, nor a slot newly covered whose thread is in
trap mode. -/
def State.removedSlots (s : State) (c l : Nat) : BitVec 8 :=
  ((List.range 8).filter fun n => n != 0 && decide (8 - l ≤ n)
      && (!(s.thread (c + n)).trapm || (s.core c).removed.getLsbD n)).foldl
    (fun (m : BitVec 8) n => m ||| 1 <<< n) 0

/-! ## Operating points (R362) -/

/-- A core's effective request. -/
def State.request (s : State) (c : Nat) : Nat :=
  let p := (s.cluster (clusterOf c)).power
  let req := (p.req.getD (tileInCluster c) 0 >>> (4 * coreInTile c)).toNat % 8
  match p.hintEn, (s.core c).hint with
  | false, _ => req
  | true, .none => req
  | true, .comp => min req 7
  | true, .mem => min req p.hmemPt
  | true, .wait => min req p.hwaitPt

/-- The four cores of a tile. -/
def tileCores (k : Nat) : List Nat := (List.range 4).map fun n => k * 0x200 + n * 0x80

/-- A tile's target. -/
def State.target (s : State) (k : Nat) : Nat :=
  min (s.cluster (k / 16)).power.ceil (((tileCores k).map s.request).foldl max 0)

/-- A tile at an interval boundary with a new target. -/
def Tile.aim (x : Tile) (target : Nat) : Tile :=
  let x := { x with wanted := target }
  match x.raising with
  | some r => if target ≤ x.point then { x with point := target, raising := none } else { x with raising := some (min r target) }
  | none => if target ≤ x.point then { x with point := target } else { x with raising := some target }

/-- A tile aimed; a raise that begins is over 256 cluster cycles later. -/
def State.aimTile (s : State) (k : Nat) : State :=
  let x := s.tile k
  let y := x.aim (s.target k)
  let s := s.setTile k y
  if x.raising.isNone && y.raising.isSome then s.postOnce (.clockRaise k) else s

/-- A raise completes: the clock follows, and a higher target that has come meanwhile begins a raise of its own. -/
def State.clockRaise (s : State) (k : Nat) : State :=
  let x := s.tile k
  match x.raising with
  | none => s
  | some r =>
    if r < x.wanted then (s.setTile k { x with point := r, raising := some x.wanted }).postOnce (.clockRaise k)
    else s.setTile k { x with point := r, raising := none }

def execClockRaise (tile : Nat) (s : State) : Host.Outcome State Fault Refusal := happen (·.clockRaise tile) s

/-! ## Sticky bits (R366) -/

/-- FREQ_CAPPED and BOOST_DENIED of a compute thread's core, and TRIPPED of every thread of the cluster when TRIP becomes 1. -/
def State.stickyBits (s : State) (c : Nat) (tripped : Bool) (t : Nat) : BitVec 4 :=
  if !isCompute t then (if tripped then 8 else 0)
  else
    let r := s.request (coreOf t)
    (if (s.tile (tileOf t)).point < r then 2 else 0) ||| (if 5 < r && decide ((s.cluster c).power.ceil ≤ 5) then 4 else 0)
      ||| (if tripped then 8 else 0)

def State.markThreads (s : State) (c : Nat) (tripped : Bool) : State :=
  (clusterThreads c ++ (List.range 4).map (controlThread c)).foldl (fun (s : State) t => s.stick t (s.stickyBits c tripped t)) s

/-! ## TCAP (R363) -/

/-- TCAP updated for a reading of the hottest sensor and a value of pwtherm. -/
def Power.tcapFor (p : Power) (t : Nat) (therm : Word) : BitVec 32 :=
  let q := { p with therm := therm }
  if q.tlim ≤ t then BitVec.ofNat 32 (max (p.tcap.toNat - p.tcap.toNat / 8) q.tcapmin)
  else if t + q.thyst ≤ q.tlim then BitVec.ofNat 32 (min (p.tcap.toNat + p.tcap.toNat / 32 + 1) (2 ^ 32 - 1))
  else p.tcap

/-- The update of TCAP that is due carried out; nothing where none is. -/
def Power.thermal (p : Power) : Power :=
  match p.capDue with
  | some (t, therm) => { p with tcap := p.tcapFor t therm, capDue := none }
  | none => p

/-- After every sixteenth interval an update for its reading is due. -/
def Power.sixteenth (p : Power) (t : Nat) : Power := if p.phase = 0 then { p with capDue := some (t, p.therm) } else p

/-! ## CONTROL_INTERVAL -/

/-- The sensors of a cluster's tiles read. -/
def State.readSensors (s : State) (c : Nat) : State :=
  ((List.range 16).map (c * 16 + ·)).foldl (fun (s : State) k =>
    s.setTile k { s.tile k with temp := (Config.temperature s.tick k).toNat }) s

/-- The record of a throttle (R367). -/
def State.throttleEvent (s : State) (c : Nat) (before after : Power) (e : Nat) : State :=
  if before.level = after.level ∧ before.ceil = after.ceil ∧ before.trip = after.trip then s
  else
    let code := (if after.ccap < e then 1 else 0) + (if after.tcap.toNat < e then 2 else 0) + (if after.trip then 4 else 0)
      + (if before.level < after.level || decide (after.ceil < before.ceil) then 8 else 0)
    s.postEvent c 10 0 code e (controlThread c 0) (BitVec.ofNat 64 (after.level + after.ceil * 2 ^ 8 + after.tcap.toNat * 2 ^ 32))

/-- The power controller of a cluster after an interval: estimate, TRIP, L, CEIL and QUIET; the counts are cleared. -/
def Power.interval (p : Power) (t e : Nat) : Power :=
  let p := { p with trip := p.tripFor t, tmax := t }
  Power.sixteenth { p.control e with est := BitVec.ofNat 32 e, counts := Vector.replicate 48 0, phase := (p.phase + 1) % 16 } t

/-- The end of a control interval.  An update of TCAP still due from the one before is carried out first. -/
def State.controlInterval (s : State) (c : Nat) : State :=
  let s := s.readSensors c
  let t := ((List.range 16).map fun k => (s.tile (c * 16 + k)).temp).foldl max 0
  let before := (s.cluster c).power.thermal
  let e := before.estimate (Config.freeBits s.fresh)
  let after := before.interval t e
  let s := State.setCluster { s with fresh := s.fresh + 1 } c { s.cluster c with power := after }
  let s := s.throttleEvent c before after e
  let s := (clusterCores c).foldl (fun (s : State) k => s.removeSlots k (s.removedSlots k after.level)) s
  let s := ((List.range 16).map (c * 16 + ·)).foldl State.aimTile s
  let s := s.markThreads c (after.trip && !before.trip)
  let s := if after.phase = 0 then s.postOnce (.tcapUpdate c) else s
  if after.level < before.level && !(s.waiters c).isEmpty then s.postOnce (.dispenserDispatch c) else s

def execControlInterval (cluster : Nat) (s : State) : Host.Outcome State Fault Refusal := happen (·.controlInterval cluster) s

/-! ## TCAP_UPDATE (R363) -/

def execTcapUpdate (cluster : Nat) (s : State) : Host.Outcome State Fault Refusal :=
  happen (fun s => s.setCluster cluster { s.cluster cluster with power := (s.cluster cluster).power.thermal }) s

/-! ## STACK_TEMPERATURE (R364) -/

def State.stackTemperature (s : State) (g temp : Nat) : State := s.judgeStack g (stackReading (Tab.get stthmReset s.stthm g) temp)

def execStackTemperature (stack temp : Nat) (s : State) : Host.Outcome State Fault Refusal :=
  happen (fun s => if stack < 8 then s.stackTemperature stack temp else s) s

end Sys2Proof.Machine
end

