-- ==== Sys2Proof/Machine/Firmware.lean ====
section
/-! DEFINITION.
The host interface: command windows, the firmware commands, RESET, cold reset and loss of power (R6, R349, R356, R370 to
R379).
-/

namespace Sys2Proof.Machine

/-! ## Command windows (R370, R371) -/

def State.setWindow (s : State) (m : Nat) (w : Window) : State :=
  { s with fw := { s.fw with windows := s.fw.windows.setIfInBounds m w } }

def State.window (s : State) (m : Nat) : Window := s.fw.windows.getD m Window.initial

def Window.arg (w : Window) (n : Nat) : Word := w.args.getD n 0

/-- The happening that runs a master's command; nothing for an opcode that is not in the table. -/
def Window.command (w : Window) (m : Nat) : Option Happening :=
  match w.opcode.toNat with
  | 0x01 => some (.claimCommand m)
  | 0x02 => some (.handover m)
  | 0x03 => some (.reset m)
  | 0x04 => some (.load m)
  | 0x05 => some (if w.arg 1 = 0xFFFF then .policyAddKey m else .policy m)
  | 0x06 => some (.launch m)
  | 0x07 => some (if w.arg 0 = 0xFFFF then .queryDevice m else .query m)
  | 0x08 => some (if w.arg 2 = 1 then .preemptResume m else .preempt m)
  | 0x09 => some (.kill m)
  | 0x0A => some (.dump m)
  | 0x0B => some (.checkpoint m)
  | 0x0C => some (.attest m)
  | 0x0D => some (.update m)
  | _ => none

/-- What a command answers: its status code, and the results it writes. -/
structure Reply where
  code    : Nat
  result0 : Option Word := none
  result1 : Option Word := none
  deriving DecidableEq, Repr

/-- CODE and the results written, BUSY cleared, vector 0 raised, the command off the queue. -/
def State.answer (s : State) (m : Nat) (r : Reply) : State :=
  let w := s.window m
  let s := s.setWindow m { w with
    code := BitVec.ofNat 16 r.code, busy := false, result0 := r.result0.getD w.result0, result1 := r.result1.getD w.result1 }
  { s with fw := { s.fw with msix := (m, 0) :: s.fw.msix, pending := s.fw.pending.drop 1 } }

/-- The command at the head of the queue begins; one whose opcode is not in the table is answered at once. -/
def State.nextCommand (s : State) : Nat → State
  | 0 => s
  | n + 1 => match s.fw.pending with
    | [] => s
    | m :: _ => match (s.window m).command m with
      | some h => s.postOnce h
      | none => State.nextCommand (s.answer m { code := Code.badOpcode }) n

/-- A command is done. -/
def State.finishCommand (s : State) (m : Nat) (r : Reply) : State := (s.answer m r).nextCommand 4

/-- A write at BAR0: master m's window; ignored while BUSY, or while the port has no link. -/
def State.writeBar (s : State) (off : Nat) (x : Word) : State :=
  let m := off / 0x1000
  let w := s.window m
  if 4 ≤ m ∨ w.busy ∨ !s.host.up.getD (m / 2) false then s
  else if off % 0x1000 = 0 then
    let w := { w with opcode := x.setWidth 8, busy := x.getLsbD 8 }
    let s := s.setWindow m w
    if w.busy then
      let first := s.fw.pending.isEmpty
      let s := { s with fw := { s.fw with pending := s.fw.pending ++ [m] } }
      if first then s.nextCommand 4 else s
    else s
  else if off % 8 = 0 ∧ 8 ≤ off % 0x1000 ∧ off % 0x1000 ≤ 0x30 then
    s.setWindow m { w with args := w.args.setIfInBounds (off % 0x1000 / 8 - 1) x }
  else s

/-- What a master reads at BAR0 (R370): cmd with GO while BUSY, ARG0 to ARG5, status with BUSY and OWNER, and the results;
every other byte, and every window past the fourth, is zero. -/
def State.readBar (s : State) (off : Nat) : Word :=
  let m := off / 0x1000
  let w := s.window m
  let bit := fun (b : Bool) (n : Nat) => if b then (1 : Word) <<< n else 0
  if 4 ≤ m ∨ off % 8 ≠ 0 then 0
  else match off % 0x1000 / 8 with
    | 0 => w.opcode.setWidth 64 ||| bit w.busy 8
    | 7 => w.code.setWidth 64 ||| bit w.busy 16 ||| bit (s.fw.owner == some m) 17
    | 8 => w.result0
    | 9 => w.result1
    | n => if n < 7 then w.args.getD (n - 1) 0 else 0

/-- First address of BAR0 as REGISTER_WRITE names it, which hosts write; on-chip registers stand below it, and those the agent
of firmware writes that R380 admits to the block: the management processor in CLASS 3, a cluster control core in CLASS 1 and in
the vent register blocks. -/
def barBase : Nat := 2 ^ 48

/-- A device register written (R6). -/
def State.registerWrite (s : State) (a value : Nat) : State :=
  if barBase ≤ a then s.writeBar (a - barBase) (BitVec.ofNat 64 value)
  else match chipBlock (a / 8 * 8) with
    | some (.regs b) => (s.writeReg b (BitVec.ofNat 64 value)).getD s
    | _ => s

def execRegisterWrite (addr value : Nat) (s : State) : Host.Outcome State Fault Refusal := happen (·.registerWrite addr value) s

/-! ## Carrying out a command (R371, R373, R374) -/

/-- Arguments from number n on are zero. -/
def Window.zerosFrom (w : Window) (n : Nat) : Bool := (List.range 6).all fun i => decide (i < n) || w.arg i == 0

/-- A command of master m: it runs when it heads the queue, in the form of its opcode that the arguments give; then NOT_OWNER, then
BAD_ARG for an argument that its row does not name, then what the command does. -/
def State.command (s : State) (m opcode : Nat) (owner : Bool) (named : Nat) (act : Window → Reply × State)
    (form : Window → Bool := fun _ => true) : State :=
  let w := s.window m
  if s.fw.pending.head? ≠ some m ∨ w.opcode.toNat ≠ opcode ∨ form w = false then s
  else if owner && s.fw.owner != some m then s.finishCommand m { code := Code.notOwner }
  else if !w.zerosFrom named then s.finishCommand m { code := Code.badArg }
  else
    let r := act w
    r.2.finishCommand m r.1

def done (s : State) : Reply × State := ({ code := Code.ok }, s)
def refuse (s : State) (c : Nat) : Reply × State := ({ code := c }, s)

/-- n bytes of host memory that master m names lie in mapped memory (R18). -/
def State.hostReadable (s : State) (m a n : Nat) : Bool :=
  decide (a + n ≤ 2 ^ 42) && (List.range ((a % 4096 + n + 4095) / 4096)).all fun i => s.present (s.hostKey m (a / 4096 * 4096 + i * 4096))

/-- Host bytes read, or written, by firmware. -/
def State.hostBytes (s : State) (m a n : Nat) : List Byte := s.homeBytes (s.hostKey m a) n

def State.putHost (s : State) (m a : Nat) (bs : List Byte) : State :=
  if bs.isEmpty then s else s.writeHome fwAgent 32 (s.hostKey m a) bs

/-! ## CLAIM and HANDOVER (R373) -/

def State.claimDevice (s : State) (m : Nat) : Reply × State :=
  match s.fw.owner with
  | none => done { s with fw := { s.fw with owner := some m } }
  | some n => if n = m then done s else refuse s Code.owned

def execClaimCommand (m : Nat) (s : State) : Host.Outcome State Fault Refusal :=
  happen (fun s => s.command m 0x01 false 0 fun _ => s.claimDevice m) s

def State.handover (s : State) (m : Nat) (w : Window) : Reply × State :=
  let n := (w.arg 0).toNat
  if 4 ≤ n ∨ n = m then refuse s Code.badArg else done { s with fw := { s.fw with owner := some n } }

def execHandover (m : Nat) (s : State) : Host.Outcome State Fault Refusal :=
  happen (fun s => s.command m 0x02 true 1 fun w => s.handover m w) s

/-- A launch's status word so far: the counts of its clusters in this package combined. -/
def State.wordSoFar (s : State) (l : Launch) : Word :=
  match l.word with
  | some w => w
  | none => (s.ours l.clusters).foldl (fun w c => combineWords w { s.countsOf c l.epoch with heard := [] }.word) 0

/-! ## RESET (R374) -/

/-- A core out of service for good. -/
def Core.out : Core := { Core.initial with killed := true, lasting := true }

/-- Cores that were classified lasting stay out of service. -/
def lastingCores (cores : Tab Core) : Tab Core :=
  (cores.filter fun (y : Nat × Core) => y.2.lasting).map fun (y : Nat × Core) => (y.1, Core.out)

/-- The status word of a launch that RESET kills: what has retired, and the work that has not as failed with KILLED (R67, R349). -/
def State.resetWord (s : State) (l : Launch) : Word :=
  let left := ((s.ours l.clusters).map fun c => (s.countsOf c l.epoch).unretired + s.createsFor c l.epoch - s.retiresFor c l.epoch).sum
  combineWords (s.wordSoFar l) (statusWord Cause.killed.code (min left 0xFFFF) 0)

/-- A launch that is complete with a status word. -/
def Launch.endedWith (l : Launch) (w : Word) : Launch :=
  { l with phase := .complete, word := some w, frames := [], saved := none, roots := [], joins := [] }

/-- The launches that exist are complete, and say so (R375). -/
def State.endAll (s : State) : State :=
  (s.fw.launches.filter Launch.exists_).foldl (fun (s : State) l => (s.announce l (s.resetWord l)).setLaunch (l.endedWith (s.resetWord l))) s

/-- Every core of the launches that exist killed: their dirty words are written back, their state is dumped; open cells and
leases end. -/
def State.killAll (s : State) : State :=
  let s := (s.fw.launches.filter Launch.exists_).foldl (fun (s : State) l =>
    (s.partitionCores l).foldl (fun (s : State) c => s.killCore c Cause.killed.code 0xFFFF l.epoch 0) s) s
  let s := s.cells.foldl (fun (s : State) c => s.retractCell c.owner c) s
  s.host.held.foldl State.endLease s

/-- A supervisor's recovery, which RESET makes void. -/
def Happening.isRecovery : Happening → Bool
  | .supervisorRecovery _ => true
  | _ => false

/-- The launches are killed and complete; every register is at its reset value; memory, links, bias, images and running firmware stay
(log 47). -/
def State.resetDevice (s : State) : State :=
  let s := s.killAll.endAll
  { State.reset with
    cur := s.cur, agenda := s.agenda.filter fun h => !h.isRecovery, tick := s.tick, fresh := s.fresh, powered := s.powered, package := s.package
    gtime := s.gtime, mem := s.mem, poison := s.poison, host := s.host, lines := s.lines
    cores := lastingCores s.cores
    fw := { s.fw with
      windows := Firmware.initial.windows, pending := [], owner := none, keys := [] } }

def State.resetCommand (s : State) (m : Nat) : State :=
  let w := s.window m
  if s.fw.pending.head? ≠ some m ∨ w.opcode.toNat ≠ 0x03 then s
  else if s.fw.owner ≠ some m then s.finishCommand m { code := Code.notOwner }
  else if !w.zerosFrom 0 then s.finishCommand m { code := Code.badArg }
  else (s.answer m { code := Code.ok }).resetDevice

def execReset (m : Nat) (s : State) : Host.Outcome State Fault Refusal := happen (·.resetCommand m) s

/-! ## LOAD and POLICY (R131, R134, R374, R376) -/

def State.imageOf (s : State) (h : Word) : Option Image := s.fw.images.find? fun i => i.handle == h.toNat

def State.setImage (s : State) (i : Image) : State :=
  { s with fw := { s.fw with images := s.fw.images.map fun x => if x.handle = i.handle then i else x } }

/-- LOAD: R134, then the signature, then the view table.  R374 lists the three without an order of their statuses; this one is the model's
choice (log 53). -/
def State.load (s : State) (m : Nat) (w : Window) : Reply × State :=
  let a := (w.arg 0).toNat
  let n := (w.arg 1).toNat
  if !s.hostReadable m a n then refuse s Code.badArg
  else
    let b := s.hostBytes m a n
    if !Gxo.acceptable b then refuse s Code.malformed
    else if !Gxo.accepted s.fw.keys b then refuse s Code.badSignature
    else match s.viewTable s.fw.nextHandle b (Gxo.viewCount b) with
      | .error c => refuse s c
      | .ok (placed, vs) =>
        let h := s.fw.nextHandle
        let s := s.loadViews vs
        ({ code := Code.ok, result0 := some (BitVec.ofNat 64 h) },
          { s with fw := { s.fw with
            images := s.fw.images ++ [⟨h, b, [], Gxo.measure b, placed⟩], nextHandle := (h + 1) % 2 ^ 32 } })

def execLoad (m : Nat) (s : State) : Host.Outcome State Fault Refusal :=
  happen (fun s => s.command m 0x04 true 2 fun w => s.load m w) s

/-- A page record is within its limits for a range of some pages (R304, R374). -/
def recordOk (r : Word) (pages : Nat) : Bool :=
  r &&& 0xC00000008006000F == 0 && decide ((r >>> 32).toNat % 4 ≤ 1) && Leaf.leafOk 0 (leafFor r true 0)
    && (if chlocal r then decide ((r >>> 44).toNat % 2 ^ 18 + pages ≤ 2 ^ 18) else (r >>> 35).toNat % 2 ^ 27 == 0)

def State.policy (s : State) (w : Window) : Reply × State :=
  match s.imageOf (w.arg 0) with
  | none => refuse s Code.badArg
  | some i =>
    let n := (w.arg 1).toNat
    let r := w.arg 2
    if !Gxo.hasManifest i.bytes || decide (Gxo.nRange i.bytes ≤ n) then refuse s Code.badArg
    else
      let (ea, len, _) := Gxo.rangeOf i.bytes n
      let pages := rangePages ea len
      if !recordOk r pages then refuse s Code.badArg
      else if chlocal r && (List.range pages).any fun j => s.frameTaken (chlocalPage r j) then refuse s Code.noResource
      else done (s.setImage { i with policy := Tab.put i.policy n r })

def execPolicy (m : Nat) (s : State) : Host.Outcome State Fault Refusal :=
  happen (fun s => s.command m 0x05 true 3 (fun w => s.policy w) fun w => w.arg 1 != 0xFFFF) s

def State.addKey (s : State) (m : Nat) (w : Window) : Reply × State :=
  let a := (w.arg 2).toNat
  if w.arg 0 ≠ 0 ∨ !s.hostReadable m a 97 then refuse s Code.badArg
  else if 8 ≤ s.fw.keys.length then refuse s Code.noResource
  else done { s with fw := { s.fw with keys := s.fw.keys ++ [s.hostBytes m a 97] } }

def execPolicyAddKey (m : Nat) (s : State) : Host.Outcome State Fault Refusal :=
  happen (fun s => s.command m 0x05 true 3 (fun w => s.addKey m w) fun w => w.arg 1 == 0xFFFF) s

/-! ## LAUNCH and QUERY (R61, R374) -/

def State.launchCommand (s : State) (m : Nat) (w : Window) : Reply × State :=
  match s.imageOf (w.arg 0) with
  | none => refuse s Code.badArg
  | some i =>
    let at_ := (w.arg 1).toNat
    let v := (w.arg 2).toNat
    if at_ % 64 ≠ 0 ∨ v < 1 ∨ 15 < v ∨ !s.hostReadable m at_ 16 then refuse s Code.badArg
    else match s.launchImage m i at_ v with
      | .error c => refuse s c
      | .ok (e, s') => ({ code := Code.ok, result0 := some (e.setWidth 64) }, s')

def execLaunch (m : Nat) (s : State) : Host.Outcome State Fault Refusal :=
  happen (fun s => s.command m 0x06 true 3 fun w => s.launchCommand m w) s

def Phase.code : Phase → Word
  | .running | .switching => 1
  | .out => 2
  | .complete => 3

def State.query (s : State) (w : Window) : Reply × State :=
  match s.launch (BitVec.ofNat 16 (w.arg 0).toNat), decide ((w.arg 0).toNat < 2 ^ 16) with
  | some l, true => ({ code := Code.ok, result0 := some l.phase.code, result1 := some (s.wordSoFar l) }, s)
  | _, _ => ({ code := Code.ok, result0 := some 0, result1 := some 0 }, s)

def execQuery (m : Nat) (s : State) : Host.Outcome State Fault Refusal :=
  happen (fun s => s.command m 0x07 false 1 (fun w => s.query w) fun w => w.arg 0 != 0xFFFF) s

def State.queryDevice (s : State) : Reply × State :=
  ({ code := Code.ok, result0 := some (BitVec.ofNat 64 (s.fw.launches.filter Launch.exists_).length)
     result1 := some (match s.fw.owner with
       | some m => BitVec.ofNat 64 m
       | none => BitVec.allOnes 64) }, s)

def execQueryDevice (m : Nat) (s : State) : Host.Outcome State Fault Refusal :=
  happen (fun s => s.command m 0x07 false 1 (fun _ => s.queryDevice) fun w => w.arg 0 == 0xFFFF) s

/-! ## PREEMPT (R339, R344) -/

/-- The launch that an epoch argument names. -/
def State.namedLaunch (s : State) (x : Word) : Option Launch :=
  if x.toNat < 2 ^ 16 then s.launch (x.setWidth 16) else none

def State.preempt (s : State) (w : Window) (out : Bool) : Reply × State :=
  match s.namedLaunch (w.arg 0) with
  | none => refuse s Code.badArg
  | some l =>
    let tau := (w.arg 1).toNat
    if 1 < (w.arg 2).toNat ∨ l.tau.isSome ∨ l.phase ≠ (if out then .running else .out) then refuse s Code.badArg
    else if tau < s.gtime + 20000 then refuse s Code.tooLate
    else done ((s.setLaunch { l with tau := some tau }).post
      [if out then .gangSwitch l.epoch.toNat else .gangResume l.epoch.toNat])

def execPreempt (m : Nat) (s : State) : Host.Outcome State Fault Refusal :=
  happen (fun s => s.command m 0x08 true 3 (fun w => s.preempt w true) fun w => w.arg 2 != 1) s

def execPreemptResume (m : Nat) (s : State) : Host.Outcome State Fault Refusal :=
  happen (fun s => s.command m 0x08 true 3 (fun w => s.preempt w false) fun w => w.arg 2 == 1) s

/-! ## KILL, DUMP, CHECKPOINT (R348, R349, R374) -/

/-- The compute cores that a KILL names. -/
def State.killTargets (s : State) (l : Launch) (x : Word) : Option (List Nat) :=
  if x = BitVec.allOnes 64 then some ((s.ours l.clusters).flatMap clusterCores)
  else
    let t := x.toNat % 2 ^ 24
    if x.toNat / 2 ^ 24 = s.package ∧ isCompute t = true ∧ t % 0x80 = 0 ∧ l.clusters.contains (s.package, clusterOf t) = true then some [t]
    else none

def State.killCommand (s : State) (w : Window) : Reply × State :=
  match s.namedLaunch (w.arg 0) with
  | none => refuse s Code.badArg
  | some l =>
    if !l.exists_ then refuse s Code.badArg
    else match s.killTargets l (w.arg 1) with
      | none => refuse s Code.badArg
      | some cs => done (cs.foldl (fun (s : State) c => s.killCore c Cause.killed.code 0xFFFF l.epoch 0) s)

def execKill (m : Nat) (s : State) : Host.Outcome State Fault Refusal :=
  happen (fun s => s.command m 0x09 true 2 fun w => s.killCommand w) s

def State.dumpCommand (s : State) (m : Nat) (w : Window) : Reply × State :=
  match s.namedLaunch (w.arg 0) with
  | none => refuse s Code.badArg
  | some l =>
    let bs := l.dumpBytes.take (w.arg 2).toNat
    if !s.hostReadable m (w.arg 1).toNat bs.length then refuse s Code.badArg
    else ({ code := Code.ok, result0 := some (BitVec.ofNat 64 bs.length) }, s.putHost m (w.arg 1).toNat bs)

def execDump (m : Nat) (s : State) : Host.Outcome State Fault Refusal :=
  happen (fun s => s.command m 0x0A true 3 fun w => s.dumpCommand m w) s

/-- Pages copied one behind the other to a key. -/
def State.copyPages (s : State) (k : Nat) : List Nat → State
  | [] => s
  | f :: fs => State.copyPages (s.copyPage (s.pageKey f) k) (k + 4096) fs

/-- CHECKPOINT of a switched-out launch: its first-tier pages one behind the other, the first taken first (log 14). -/
def State.checkpointCommand (s : State) (m : Nat) (w : Window) : Reply × State :=
  match s.namedLaunch (w.arg 0) with
  | none => refuse s Code.badArg
  | some l =>
    let pages := l.frames.reverse
    if l.phase ≠ .out ∨ 1 < (w.arg 1).toNat then refuse s Code.badArg
    else if w.arg 1 = 1 then
      if s.hostReadable m (w.arg 2).toNat (4096 * pages.length) then done (s.copyPages (s.hostKey m (w.arg 2).toNat) pages)
      else refuse s Code.badArg
    else match s.backingFor m l.epoch.toNat l.ranges.length ⟨0, pages.length, true, 0, 0⟩ [] with
      | some k => done (s.copyPages k pages)
      | none => refuse s Code.noResource

def execCheckpoint (m : Nat) (s : State) : Host.Outcome State Fault Refusal :=
  happen (fun s => s.command m 0x0B true 3 fun w => s.checkpointCommand m w) s

/-! ## ATTEST and UPDATE (R376, R377) -/

def execAttest (m : Nat) (s : State) : Host.Outcome State Fault Refusal :=
  happen (fun s => s.command m 0x0C false 0 fun _ => ({ code := Code.ok, result0 := some Config.doeOffset }, s)) s

/-- A firmware image that ends with the signature block of R133, signed with the fused key. -/
def firmwareOk (b : List Byte) : Bool := Gxo.isSigned b && Gxo.signatureFits b && Gxo.signedBy b Config.fusedKey

def State.update (s : State) (m : Nat) (w : Window) : Reply × State :=
  let a := (w.arg 0).toNat
  let n := (w.arg 1).toNat
  if !s.hostReadable m a n then refuse s Code.badArg
  else
    let b := s.hostBytes m a n
    if firmwareOk b then done { s with fw := { s.fw with staged := some b } } else refuse s Code.badSignature

def execUpdate (m : Nat) (s : State) : Host.Outcome State Fault Refusal :=
  happen (fun s => s.command m 0x0D true 2 fun w => s.update m w) s

/-! ## Cold reset and loss of power (R356, R376, R379) -/

/-- Memory that is not the package's own: behind the memory ports and the hosts. -/
def outside (k : Nat) : Bool := areaOf k != .firstTier

def outsidePlace : Place → Bool
  | .mem d => outside (8 * d)
  | _ => false

/-- The firmware that the boot ROM runs: what has been staged, where it verifies. -/
def Firmware.booted (f : Firmware) : Firmware :=
  { Firmware.initial with running := match f.staged with
      | some b => if firmwareOk b then b else f.running
      | none => f.running }

/-- Cores in which the self-test of every array finds a lasting fault are mapped out with those known before (R379); which those are
is free (log 15). -/
def coresAtBoot (cores : Tab Core) (found : List Nat) : Tab Core :=
  (found.filter fun c => (isCompute c || isVent c) && coreOf c == c).foldl (fun t c => Tab.put t c Core.out) (lastingCores cores)

/-- A cold reset, whole: first tier is clear, everything else as `State.reset` has it. -/
def State.coldReset (s : State) : State :=
  { State.reset with
    cur := s.cur, tick := s.tick, fresh := s.fresh, package := s.package
    mem := s.mem.filter fun (y : Nat × Byte) => outside y.1
    poison := s.poison.filter outsidePlace
    cores := coresAtBoot s.cores (Config.bootFaults s.tick)
    fw := s.fw.booted }

def execColdReset (s : State) : Host.Outcome State Fault Refusal := happen State.coldReset s

/-- The package loses power: nothing is left but fuses, firmware in its store, and memory outside the package. -/
def State.losePower (s : State) : State :=
  { State.reset with
    powered := false, cur := s.cur, tick := s.tick, fresh := s.fresh, package := s.package
    mem := s.mem.filter fun (y : Nat × Byte) => outside y.1
    poison := s.poison.filter outsidePlace
    cores := lastingCores s.cores
    fw := { Firmware.initial with running := s.fw.running, staged := s.fw.staged } }

def execPowerOff (s : State) : Host.Outcome State Fault Refusal := happen State.losePower s

end Sys2Proof.Machine
end

