-- ==== Sys2Proof/Machine/Dispatch.lean ====
section
/-! DEFINITION.
What each instruction and each happening does: one arm each, its meaning called directly.
-/

namespace Sys2Proof.Machine

def exec (i : Instr) (s : State) : Host.Outcome State Fault Refusal :=
  match i with
  | .add d a b z => Sys2Proof.Machine.execAdd d a b z s
  | .sub d a b z => Sys2Proof.Machine.execSub d a b z s
  | .mul d a b z => Sys2Proof.Machine.execMul d a b z s
  | .mulh d a b z => Sys2Proof.Machine.execMulh d a b z s
  | .mulhu d a b z => Sys2Proof.Machine.execMulhu d a b z s
  | .div d a b z => Sys2Proof.Machine.execDiv d a b z s
  | .divu d a b z => Sys2Proof.Machine.execDivu d a b z s
  | .rem d a b z => Sys2Proof.Machine.execRem d a b z s
  | .remu d a b z => Sys2Proof.Machine.execRemu d a b z s
  | .and d a b z => Sys2Proof.Machine.execAnd d a b z s
  | .or d a b z => Sys2Proof.Machine.execOr d a b z s
  | .xor d a b z => Sys2Proof.Machine.execXor d a b z s
  | .andn d a b z => Sys2Proof.Machine.execAndn d a b z s
  | .sll d a b z => Sys2Proof.Machine.execSll d a b z s
  | .srl d a b z => Sys2Proof.Machine.execSrl d a b z s
  | .sra d a b z => Sys2Proof.Machine.execSra d a b z s
  | .rol d a b z => Sys2Proof.Machine.execRol d a b z s
  | .ror d a b z => Sys2Proof.Machine.execRor d a b z s
  | .min d a b z => Sys2Proof.Machine.execMin d a b z s
  | .minu d a b z => Sys2Proof.Machine.execMinu d a b z s
  | .max d a b z => Sys2Proof.Machine.execMax d a b z s
  | .maxu d a b z => Sys2Proof.Machine.execMaxu d a b z s
  | .adds d a b z => Sys2Proof.Machine.execAdds d a b z s
  | .subs d a b z => Sys2Proof.Machine.execSubs d a b z s
  | .addsu d a b z => Sys2Proof.Machine.execAddsu d a b z s
  | .subsu d a b z => Sys2Proof.Machine.execSubsu d a b z s
  | .slt d a b z => Sys2Proof.Machine.execSlt d a b z s
  | .sltu d a b z => Sys2Proof.Machine.execSltu d a b z s
  | .seq d a b z => Sys2Proof.Machine.execSeq d a b z s
  | .clz d a z => Sys2Proof.Machine.execClz d a z s
  | .ctz d a z => Sys2Proof.Machine.execCtz d a z s
  | .popc d a z => Sys2Proof.Machine.execPopc d a z s
  | .mov d a => Sys2Proof.Machine.execMov d a s
  | .sext d a z => Sys2Proof.Machine.execSext d a z s
  | .zext d a z => Sys2Proof.Machine.execZext d a z s
  | .bswap d a z => Sys2Proof.Machine.execBswap d a z s
  | .addi d a imm => Sys2Proof.Machine.execAddi d a imm s
  | .andi d a imm => Sys2Proof.Machine.execAndi d a imm s
  | .ori d a imm => Sys2Proof.Machine.execOri d a imm s
  | .xori d a imm => Sys2Proof.Machine.execXori d a imm s
  | .slli d a h => Sys2Proof.Machine.execSlli d a h s
  | .srli d a h => Sys2Proof.Machine.execSrli d a h s
  | .srai d a h => Sys2Proof.Machine.execSrai d a h s
  | .slti d a imm => Sys2Proof.Machine.execSlti d a imm s
  | .sltiu d a imm => Sys2Proof.Machine.execSltiu d a imm s
  | .muli d a imm => Sys2Proof.Machine.execMuli d a imm s
  | .li d imm => Sys2Proof.Machine.execLi d imm s
  | .lih d imm => Sys2Proof.Machine.execLih d imm s
  | .adpc d imm => Sys2Proof.Machine.execAdpc d imm s
  | .exti e p k imm => Sys2Proof.Machine.execExti e p k imm s
  | .beq a b o => Sys2Proof.Machine.execBeq a b o s
  | .bne a b o => Sys2Proof.Machine.execBne a b o s
  | .blt a b o => Sys2Proof.Machine.execBlt a b o s
  | .bge a b o => Sys2Proof.Machine.execBge a b o s
  | .bltu a b o => Sys2Proof.Machine.execBltu a b o s
  | .bgeu a b o => Sys2Proof.Machine.execBgeu a b o s
  | .j o => Sys2Proof.Machine.execJ o s
  | .call o => Sys2Proof.Machine.execCall o s
  | .jr a => Sys2Proof.Machine.execJr a s
  | .callr a => Sys2Proof.Machine.execCallr a s
  | .ret => Sys2Proof.Machine.execRet s
  | .trap c => Sys2Proof.Machine.execTrap c s
  | .rte => Sys2Proof.Machine.execRte s
  | .mfs d r => Sys2Proof.Machine.execMfs d r s
  | .mts a r => Sys2Proof.Machine.execMts a r s
  | .ext n a => Sys2Proof.Machine.execExt n a s
  | .mfe d n => Sys2Proof.Machine.execMfe d n s
  | .csel d a b => Sys2Proof.Machine.execCsel d a b s
  | .ldb d b w imm => Sys2Proof.Machine.execLdb d b w imm s
  | .ldbu d b w imm => Sys2Proof.Machine.execLdbu d b w imm s
  | .ldh d b w imm => Sys2Proof.Machine.execLdh d b w imm s
  | .ldhu d b w imm => Sys2Proof.Machine.execLdhu d b w imm s
  | .ldw d b w imm => Sys2Proof.Machine.execLdw d b w imm s
  | .ldwu d b w imm => Sys2Proof.Machine.execLdwu d b w imm s
  | .ldd d b w imm => Sys2Proof.Machine.execLdd d b w imm s
  | .stb d b w imm => Sys2Proof.Machine.execStb d b w imm s
  | .sth d b w imm => Sys2Proof.Machine.execSth d b w imm s
  | .stw d b w imm => Sys2Proof.Machine.execStw d b w imm s
  | .std d b w imm => Sys2Proof.Machine.execStd d b w imm s
  | .ldbX d b x w sy => Sys2Proof.Machine.execLdbX d b x w sy s
  | .ldbuX d b x w sy => Sys2Proof.Machine.execLdbuX d b x w sy s
  | .ldhX d b x w sy => Sys2Proof.Machine.execLdhX d b x w sy s
  | .ldhuX d b x w sy => Sys2Proof.Machine.execLdhuX d b x w sy s
  | .ldwX d b x w sy => Sys2Proof.Machine.execLdwX d b x w sy s
  | .ldwuX d b x w sy => Sys2Proof.Machine.execLdwuX d b x w sy s
  | .lddX d b x w sy => Sys2Proof.Machine.execLddX d b x w sy s
  | .stbX d b x w sy => Sys2Proof.Machine.execStbX d b x w sy s
  | .sthX d b x w sy => Sys2Proof.Machine.execSthX d b x w sy s
  | .stwX d b x w sy => Sys2Proof.Machine.execStwX d b x w sy s
  | .stdX d b x w sy => Sys2Proof.Machine.execStdX d b x w sy s
  | .aadd d b v w z o y => Sys2Proof.Machine.execAadd d b v w z o y s
  | .amin d b v w z o y => Sys2Proof.Machine.execAmin d b v w z o y s
  | .aminu d b v w z o y => Sys2Proof.Machine.execAminu d b v w z o y s
  | .amax d b v w z o y => Sys2Proof.Machine.execAmax d b v w z o y s
  | .amaxu d b v w z o y => Sys2Proof.Machine.execAmaxu d b v w z o y s
  | .aand d b v w z o y => Sys2Proof.Machine.execAand d b v w z o y s
  | .aor d b v w z o y => Sys2Proof.Machine.execAor d b v w z o y s
  | .axor d b v w z o y => Sys2Proof.Machine.execAxor d b v w z o y s
  | .aswap d b v w z o y => Sys2Proof.Machine.execAswap d b v w z o y s
  | .acas d b v w z o y => Sys2Proof.Machine.execAcas d b v w z o y s
  | .fenceAcq => Sys2Proof.Machine.execFenceAcq s
  | .fenceRel => Sys2Proof.Machine.execFenceRel s
  | .fenceAll => Sys2Proof.Machine.execFenceAll s
  | .marm d a n => Sys2Proof.Machine.execMarm d a n s
  | .mwait d a => Sys2Proof.Machine.execMwait d a s
  | .mdis k => Sys2Proof.Machine.execMdis k s
  | .bara d a => Sys2Proof.Machine.execBara d a s
  | .bard d a => Sys2Proof.Machine.execBard d a s
  | .barw a b => Sys2Proof.Machine.execBarw a b s
  | .commit a => Sys2Proof.Machine.execCommit a s
  | .flush a b => Sys2Proof.Machine.execFlush a b s
  | .inval a b => Sys2Proof.Machine.execInval a b s
  | .seal a b => Sys2Proof.Machine.execSeal a b s
  | .tstw d b w imm => Sys2Proof.Machine.execTstw d b w imm s
  | .tstd d b w imm => Sys2Proof.Machine.execTstd d b w imm s
  | .dupdAdd b v w z => Sys2Proof.Machine.execDupdAdd b v w z s
  | .dupdFadd b v w z => Sys2Proof.Machine.execDupdFadd b v w z s
  | .dupdMin b v w z => Sys2Proof.Machine.execDupdMin b v w z s
  | .dupdMax b v w z => Sys2Proof.Machine.execDupdMax b v w z s
  | .dupdAnd b v w z => Sys2Proof.Machine.execDupdAnd b v w z s
  | .dupdOr b v w z => Sys2Proof.Machine.execDupdOr b v w z s
  | .dupdXor b v w z => Sys2Proof.Machine.execDupdXor b v w z s
  | .retract a o => Sys2Proof.Machine.execRetract a o s
  | .vadd d a b k z t r => Sys2Proof.Machine.execVadd d a b k z t r s
  | .vsub d a b k z t r => Sys2Proof.Machine.execVsub d a b k z t r s
  | .vmul d a b k z t r => Sys2Proof.Machine.execVmul d a b k z t r s
  | .vmulh d a b k z t => Sys2Proof.Machine.execVmulh d a b k z t s
  | .vdiv d a b k z t r => Sys2Proof.Machine.execVdiv d a b k z t r s
  | .vsqrt d a k z t r => Sys2Proof.Machine.execVsqrt d a k z t r s
  | .vmin d a b k z t => Sys2Proof.Machine.execVmin d a b k z t s
  | .vmax d a b k z t => Sys2Proof.Machine.execVmax d a b k z t s
  | .vabs d a k z t => Sys2Proof.Machine.execVabs d a k z t s
  | .vneg d a k z t => Sys2Proof.Machine.execVneg d a k z t s
  | .vfma d a b k z t r => Sys2Proof.Machine.execVfma d a b k z t r s
  | .vfms d a b k z t r => Sys2Proof.Machine.execVfms d a b k z t r s
  | .vex2 d a k z t r => Sys2Proof.Machine.execVex2 d a k z t r s
  | .vand d a b k z t => Sys2Proof.Machine.execVand d a b k z t s
  | .vor d a b k z t => Sys2Proof.Machine.execVor d a b k z t s
  | .vxor d a b k z t => Sys2Proof.Machine.execVxor d a b k z t s
  | .vsll d a b k z t => Sys2Proof.Machine.execVsll d a b k z t s
  | .vsrl d a b k z t => Sys2Proof.Machine.execVsrl d a b k z t s
  | .vsra d a b k z t => Sys2Proof.Machine.execVsra d a b k z t s
  | .vadds d a b k z t => Sys2Proof.Machine.execVadds d a b k z t s
  | .vsubs d a b k z t => Sys2Proof.Machine.execVsubs d a b k z t s
  | .vsel d a b k t => Sys2Proof.Machine.execVsel d a b k t s
  | .vceq d a b k z t => Sys2Proof.Machine.execVceq d a b k z t s
  | .vcne d a b k z t => Sys2Proof.Machine.execVcne d a b k z t s
  | .vclt d a b k z t => Sys2Proof.Machine.execVclt d a b k z t s
  | .vcle d a b k z t => Sys2Proof.Machine.execVcle d a b k z t s
  | .vcun d a b k z t => Sys2Proof.Machine.execVcun d a b k z t s
  | .vcvt d a u k t r sy z => Sys2Proof.Machine.execVcvt d a u k t r sy z s
  | .vrsum d a k z t r => Sys2Proof.Machine.execVrsum d a k z t r s
  | .vrmin d a k z t => Sys2Proof.Machine.execVrmin d a k z t s
  | .vrmax d a k z t => Sys2Proof.Machine.execVrmax d a k z t s
  | .vrand d a k z t => Sys2Proof.Machine.execVrand d a k z t s
  | .vror d a k z t => Sys2Proof.Machine.execVror d a k z t s
  | .vrxor d a k z t => Sys2Proof.Machine.execVrxor d a k z t s
  | .vperm d a b k z t => Sys2Proof.Machine.execVperm d a b k z t s
  | .vbcast d e k z t => Sys2Proof.Machine.execVbcast d e k z t s
  | .vslup d a k z t => Sys2Proof.Machine.execVslup d a k z t s
  | .vsldn d a k z t => Sys2Proof.Machine.execVsldn d a k z t s
  | .vins d e k t => Sys2Proof.Machine.execVins d e k t s
  | .vext e a t => Sys2Proof.Machine.execVext e a t s
  | .vmov d a k z t => Sys2Proof.Machine.execVmov d a k z t s
  | .vaccr d n k z t => Sys2Proof.Machine.execVaccr d n k z t s
  | .kand d a b => Sys2Proof.Machine.execKand d a b s
  | .kor d a b => Sys2Proof.Machine.execKor d a b s
  | .kxor d a b => Sys2Proof.Machine.execKxor d a b s
  | .knot d a => Sys2Proof.Machine.execKnot d a s
  | .kmov d a => Sys2Proof.Machine.execKmov d a s
  | .kpopc e a => Sys2Proof.Machine.execKpopc e a s
  | .vld d k z b w l => Sys2Proof.Machine.execVld d k z b w l s
  | .vst d k b w l => Sys2Proof.Machine.execVst d k b w l s
  | .vlds d q k z b l => Sys2Proof.Machine.execVlds d q k z b l s
  | .vsts d q k b l => Sys2Proof.Machine.execVsts d q k b l s
  | .vgath d k z b w x l => Sys2Proof.Machine.execVgath d k z b w x l s
  | .vscat d k b w x l => Sys2Proof.Machine.execVscat d k b w x l s
  | .mld x c p q z w e v sy a r o => Sys2Proof.Machine.execMld x c p q z w e v sy a r o s
  | .mst x c p q z w e v sy a r o => Sys2Proof.Machine.execMst x c p q z w e v sy a r o s
  | .mma x y z w e v sy c => Sys2Proof.Machine.execMma x y z w e v sy c s
  | .mmas x y z w e v sy c m => Sys2Proof.Machine.execMmas x y z w e v sy c m s
  | .mcmp x y w e v sy m => Sys2Proof.Machine.execMcmp x y w e v sy m s
  | .mzero z w e v sy => Sys2Proof.Machine.execMzero z w e v sy s
  | .claim a b => Sys2Proof.Machine.execClaim a b s
  | .claimT a b => Sys2Proof.Machine.execClaimT a b s
  | .rels a b => Sys2Proof.Machine.execRels a b s
  | .mchk d n => Sys2Proof.Machine.execMchk d n s
  | .mfix n imm j => Sys2Proof.Machine.execMfix n imm j s
  | .accinj n a => Sys2Proof.Machine.execAccinj n a s
  | .amovRead d n sy => Sys2Proof.Machine.execAmovRead d n sy s
  | .amovWrite n b => Sys2Proof.Machine.execAmovWrite n b s
  | .mcvta n t sy x => Sys2Proof.Machine.execMcvta n t sy x s
  | .cpy x y w e v sy a r o => Sys2Proof.Machine.execCpy x y w e v sy a r o s
  | .nred d a w e v sy h r o => Sys2Proof.Machine.execNred d a w e v sy h r o s
  | .scpy x y w e v sy a r o => Sys2Proof.Machine.execScpy x y w e v sy a r o s
  | .strm n a => Sys2Proof.Machine.execStrm n a s
  | .waitd k => Sys2Proof.Machine.execWaitd k s
  | .dfence a => Sys2Proof.Machine.execDfence a s
  | .carmArm a b => Sys2Proof.Machine.execCarmArm a b s
  | .carmDisarm a b => Sys2Proof.Machine.execCarmDisarm a b s
  | .phase => Sys2Proof.Machine.execPhase s
  | .spawn a => Sys2Proof.Machine.execSpawn a s
  | .qcfg a b => Sys2Proof.Machine.execQcfg a b s
  | .fork a b => Sys2Proof.Machine.execFork a b s
  | .join a => Sys2Proof.Machine.execJoin a s
  | .wfw => Sys2Proof.Machine.execWfw s
  | .done a => Sys2Proof.Machine.execDone a s
  | .migr a => Sys2Proof.Machine.execMigr a s
  | .send a b => Sys2Proof.Machine.execSend a b s
  | .recv d a => Sys2Proof.Machine.execRecv d a s
  | .reply n => Sys2Proof.Machine.execReply n s
  | .rfwd a b n => Sys2Proof.Machine.execRfwd a b n s
  | .rcall t e n => Sys2Proof.Machine.execRcall t e n s
  | .rcalla t e n => Sys2Proof.Machine.execRcalla t e n s
  | .nop => Sys2Proof.Machine.execNop s
  | .pause => Sys2Proof.Machine.execPause s
  | .prefl a imm => Sys2Proof.Machine.execPrefl a imm s
  | .hcomp => Sys2Proof.Machine.execHcomp s
  | .hmem => Sys2Proof.Machine.execHmem s
  | .hwait => Sys2Proof.Machine.execHwait s
  | .mov16 d a => Sys2Proof.Machine.execMov16 d a s
  | .add16 d a => Sys2Proof.Machine.execAdd16 d a s
  | .sub16 d a => Sys2Proof.Machine.execSub16 d a s
  | .and16 d a => Sys2Proof.Machine.execAnd16 d a s
  | .or16 d a => Sys2Proof.Machine.execOr16 d a s
  | .xor16 d a => Sys2Proof.Machine.execXor16 d a s
  | .addi16 d imm => Sys2Proof.Machine.execAddi16 d imm s
  | .li16 d imm => Sys2Proof.Machine.execLi16 d imm s
  | .slli16 d h => Sys2Proof.Machine.execSlli16 d h s
  | .srli16 d h => Sys2Proof.Machine.execSrli16 d h s
  | .srai16 d h => Sys2Proof.Machine.execSrai16 d h s
  | .ldd16 d u => Sys2Proof.Machine.execLdd16 d u s
  | .std16 d u => Sys2Proof.Machine.execStd16 d u s
  | .j16 o => Sys2Proof.Machine.execJ16 o s
  | .ret16 => Sys2Proof.Machine.execRet16 s
  | .nop16 => Sys2Proof.Machine.execNop16 s
  | .deferredTrap t => Sys2Proof.Machine.execDeferredTrap t s
  | .checkerReissue t => Sys2Proof.Machine.execCheckerReissue t s
  | .memoryReply t => Sys2Proof.Machine.execMemoryReply t s
  | .ownershipRecall core addr => Sys2Proof.Machine.execOwnershipRecall core addr s
  | .l2Fill slice cls addr => Sys2Proof.Machine.execL2Fill slice cls addr s
  | .mwaitTimeout t => Sys2Proof.Machine.execMwaitTimeout t s
  | .tentFullTimeout t => Sys2Proof.Machine.execTentFullTimeout t s
  | .unseal t => Sys2Proof.Machine.execUnseal t s
  | .leaseExpiry n => Sys2Proof.Machine.execLeaseExpiry n s
  | .leaseRevocation n => Sys2Proof.Machine.execLeaseRevocation n s
  | .leaseRefusal n => Sys2Proof.Machine.execLeaseRefusal n s
  | .windowBoundary => Sys2Proof.Machine.execWindowBoundary s
  | .timeSync time => Sys2Proof.Machine.execTimeSync time s
  | .vectorAccept tile => Sys2Proof.Machine.execVectorAccept tile s
  | .vectorComplete t => Sys2Proof.Machine.execVectorComplete t s
  | .engineCommandBegin core eng => Sys2Proof.Machine.execEngineCommandBegin core eng s
  | .engineCommandComplete core eng => Sys2Proof.Machine.execEngineCommandComplete core eng s
  | .engineCheckpointTimeout core eng => Sys2Proof.Machine.execEngineCheckpointTimeout core eng s
  | .nredResult home n => Sys2Proof.Machine.execNredResult home n s
  | .nredYieldTimeout home => Sys2Proof.Machine.execNredYieldTimeout home s
  | .taskRecord n => Sys2Proof.Machine.execTaskRecord n s
  | .headTake home => Sys2Proof.Machine.execHeadTake home s
  | .stealRequest cluster home epoch => Sys2Proof.Machine.execStealRequest cluster home epoch s
  | .dispenserDispatch cluster => Sys2Proof.Machine.execDispenserDispatch cluster s
  | .thresholdUpdate home => Sys2Proof.Machine.execThresholdUpdate home s
  | .creationNotice n => Sys2Proof.Machine.execCreationNotice n s
  | .retirementNotice n => Sys2Proof.Machine.execRetirementNotice n s
  | .clusterQuiescent cluster epoch => Sys2Proof.Machine.execClusterQuiescent cluster epoch s
  | .childStatusWord n => Sys2Proof.Machine.execChildStatusWord n s
  | .launchComplete epoch => Sys2Proof.Machine.execLaunchComplete epoch s
  | .callArrival n => Sys2Proof.Machine.execCallArrival n s
  | .replyArrival n => Sys2Proof.Machine.execReplyArrival n s
  | .ackArrival n => Sys2Proof.Machine.execAckArrival n s
  | .loneAcknowledgement t => Sys2Proof.Machine.execLoneAcknowledgement t s
  | .callerTimer t => Sys2Proof.Machine.execCallerTimer t s
  | .retractionTimer unit n => Sys2Proof.Machine.execRetractionTimer unit n s
  | .retractionPass n => Sys2Proof.Machine.execRetractionPass n s
  | .migrationArrival n => Sys2Proof.Machine.execMigrationArrival n s
  | .messageArrival n => Sys2Proof.Machine.execMessageArrival n s
  | .backPressureNak n => Sys2Proof.Machine.execBackPressureNak n s
  | .phaseRequest => Sys2Proof.Machine.execPhaseRequest s
  | .programLoad core epoch => Sys2Proof.Machine.execProgramLoad core epoch s
  | .walkComplete cluster n => Sys2Proof.Machine.execWalkComplete cluster n s
  | .pageServiceComplete n => Sys2Proof.Machine.execPageServiceComplete n s
  | .pageOut epoch page => Sys2Proof.Machine.execPageOut epoch page s
  | .pgshoot cluster value => Sys2Proof.Machine.execPgshoot cluster value s
  | .shootdownComplete cluster => Sys2Proof.Machine.execShootdownComplete cluster s
  | .viewRegisterWrite addr value => Sys2Proof.Machine.execViewRegisterWrite addr value s
  | .wlenWrite iodie value => Sys2Proof.Machine.execWlenWrite iodie value s
  | .hotnessDecay ctrl => Sys2Proof.Machine.execHotnessDecay ctrl s
  | .hostMemrd port addr excl => Sys2Proof.Machine.execHostMemrd port addr excl s
  | .hostMemwr port addr data => Sys2Proof.Machine.execHostMemwr port addr data s
  | .hostOwnershipRequest port addr => Sys2Proof.Machine.execHostOwnershipRequest port addr s
  | .birspi port addr => Sys2Proof.Machine.execBirspi port addr s
  | .expanderBisnp addr => Sys2Proof.Machine.execExpanderBisnp addr s
  | .biasFlipToHost page => Sys2Proof.Machine.execBiasFlipToHost page s
  | .biasFlipToDevice page => Sys2Proof.Machine.execBiasFlipToDevice page s
  | .linkDown port => Sys2Proof.Machine.execLinkDown port s
  | .spdmRequest req => Sys2Proof.Machine.execSpdmRequest req s
  | .gangSwitch epoch => Sys2Proof.Machine.execGangSwitch epoch s
  | .saveComplete epoch => Sys2Proof.Machine.execSaveComplete epoch s
  | .gangResume epoch => Sys2Proof.Machine.execGangResume epoch s
  | .supervisorRecovery core => Sys2Proof.Machine.execSupervisorRecovery core s
  | .hang core => Sys2Proof.Machine.execHang core s
  | .selfTestResult core lasting => Sys2Proof.Machine.execSelfTestResult core lasting s
  | .controlInterval cluster => Sys2Proof.Machine.execControlInterval cluster s
  | .tcapUpdate cluster => Sys2Proof.Machine.execTcapUpdate cluster s
  | .clockRaise tile => Sys2Proof.Machine.execClockRaise tile s
  | .stackTemperature stack temp => Sys2Proof.Machine.execStackTemperature stack temp s
  | .registerWrite addr value => Sys2Proof.Machine.execRegisterWrite addr value s
  | .claimCommand m => Sys2Proof.Machine.execClaimCommand m s
  | .handover m => Sys2Proof.Machine.execHandover m s
  | .reset m => Sys2Proof.Machine.execReset m s
  | .load m => Sys2Proof.Machine.execLoad m s
  | .policy m => Sys2Proof.Machine.execPolicy m s
  | .policyAddKey m => Sys2Proof.Machine.execPolicyAddKey m s
  | .launch m => Sys2Proof.Machine.execLaunch m s
  | .query m => Sys2Proof.Machine.execQuery m s
  | .queryDevice m => Sys2Proof.Machine.execQueryDevice m s
  | .preempt m => Sys2Proof.Machine.execPreempt m s
  | .preemptResume m => Sys2Proof.Machine.execPreemptResume m s
  | .kill m => Sys2Proof.Machine.execKill m s
  | .dump m => Sys2Proof.Machine.execDump m s
  | .checkpoint m => Sys2Proof.Machine.execCheckpoint m s
  | .attest m => Sys2Proof.Machine.execAttest m s
  | .update m => Sys2Proof.Machine.execUpdate m s
  | .coldReset => Sys2Proof.Machine.execColdReset s
  | .remotePackageAccess op pkg addr data => Sys2Proof.Machine.execRemotePackageAccess op pkg addr data s
  | .softError site bit double => Sys2Proof.Machine.execSoftError site bit double s
  | .linkUp port rate => Sys2Proof.Machine.execLinkUp port rate s
  | .powerOff => Sys2Proof.Machine.execPowerOff s

end Sys2Proof.Machine
end

