-- ==== Sys2Proof/Machine/Perform.lean ====
section
/-! DEFINITION.
A happening that waits in the agenda, performed: the meaning that `exec` gives the constructor of the same name.
-/

namespace Sys2Proof.Machine

/-- A waiting happening performed. -/
def perform (h : Happening) (s : State) : Host.Outcome State Fault Refusal :=
  match h with
  | .deferredTrap t => execDeferredTrap t s
  | .checkerReissue t => execCheckerReissue t s
  | .memoryReply t => execMemoryReply t s
  | .ownershipRecall core addr => execOwnershipRecall core addr s
  | .l2Fill slice cls addr => execL2Fill slice cls addr s
  | .mwaitTimeout t => execMwaitTimeout t s
  | .tentFullTimeout t => execTentFullTimeout t s
  | .unseal t => execUnseal t s
  | .leaseExpiry n => execLeaseExpiry n s
  | .leaseRevocation n => execLeaseRevocation n s
  | .leaseRefusal n => execLeaseRefusal n s
  | .windowBoundary => execWindowBoundary s
  | .timeSync time => execTimeSync time s
  | .vectorAccept tile => execVectorAccept tile s
  | .vectorComplete t => execVectorComplete t s
  | .engineCommandBegin core eng => execEngineCommandBegin core eng s
  | .engineCommandComplete core eng => execEngineCommandComplete core eng s
  | .engineCheckpointTimeout core eng => execEngineCheckpointTimeout core eng s
  | .nredResult home n => execNredResult home n s
  | .nredYieldTimeout home => execNredYieldTimeout home s
  | .taskRecord n => execTaskRecord n s
  | .headTake home => execHeadTake home s
  | .stealRequest cluster home epoch => execStealRequest cluster home epoch s
  | .dispenserDispatch cluster => execDispenserDispatch cluster s
  | .thresholdUpdate home => execThresholdUpdate home s
  | .creationNotice n => execCreationNotice n s
  | .retirementNotice n => execRetirementNotice n s
  | .clusterQuiescent cluster epoch => execClusterQuiescent cluster epoch s
  | .childStatusWord n => execChildStatusWord n s
  | .launchComplete epoch => execLaunchComplete epoch s
  | .callArrival n => execCallArrival n s
  | .replyArrival n => execReplyArrival n s
  | .ackArrival n => execAckArrival n s
  | .loneAcknowledgement t => execLoneAcknowledgement t s
  | .callerTimer t => execCallerTimer t s
  | .retractionTimer unit n => execRetractionTimer unit n s
  | .retractionPass n => execRetractionPass n s
  | .migrationArrival n => execMigrationArrival n s
  | .messageArrival n => execMessageArrival n s
  | .backPressureNak n => execBackPressureNak n s
  | .phaseRequest => execPhaseRequest s
  | .programLoad core epoch => execProgramLoad core epoch s
  | .walkComplete cluster n => execWalkComplete cluster n s
  | .pageServiceComplete n => execPageServiceComplete n s
  | .pageOut epoch page => execPageOut epoch page s
  | .pgshoot cluster value => execPgshoot cluster value s
  | .shootdownComplete cluster => execShootdownComplete cluster s
  | .viewRegisterWrite addr value => execViewRegisterWrite addr value s
  | .wlenWrite iodie value => execWlenWrite iodie value s
  | .hotnessDecay ctrl => execHotnessDecay ctrl s
  | .hostMemrd port addr excl => execHostMemrd port addr excl s
  | .hostMemwr port addr data => execHostMemwr port addr data s
  | .hostOwnershipRequest port addr => execHostOwnershipRequest port addr s
  | .birspi port addr => execBirspi port addr s
  | .expanderBisnp addr => execExpanderBisnp addr s
  | .biasFlipToHost page => execBiasFlipToHost page s
  | .biasFlipToDevice page => execBiasFlipToDevice page s
  | .linkDown port => execLinkDown port s
  | .spdmRequest req => execSpdmRequest req s
  | .gangSwitch epoch => execGangSwitch epoch s
  | .saveComplete epoch => execSaveComplete epoch s
  | .gangResume epoch => execGangResume epoch s
  | .supervisorRecovery core => execSupervisorRecovery core s
  | .hang core => execHang core s
  | .selfTestResult core lasting => execSelfTestResult core lasting s
  | .controlInterval cluster => execControlInterval cluster s
  | .tcapUpdate cluster => execTcapUpdate cluster s
  | .clockRaise tile => execClockRaise tile s
  | .stackTemperature stack temp => execStackTemperature stack temp s
  | .registerWrite addr value => execRegisterWrite addr value s
  | .claimCommand m => execClaimCommand m s
  | .handover m => execHandover m s
  | .reset m => execReset m s
  | .load m => execLoad m s
  | .policy m => execPolicy m s
  | .policyAddKey m => execPolicyAddKey m s
  | .launch m => execLaunch m s
  | .query m => execQuery m s
  | .queryDevice m => execQueryDevice m s
  | .preempt m => execPreempt m s
  | .preemptResume m => execPreemptResume m s
  | .kill m => execKill m s
  | .dump m => execDump m s
  | .checkpoint m => execCheckpoint m s
  | .attest m => execAttest m s
  | .update m => execUpdate m s
  | .coldReset => execColdReset s
  | .remotePackageAccess op pkg addr data => execRemotePackageAccess op pkg addr data s
  | .softError site bit double => execSoftError site bit double s
  | .linkUp port rate => execLinkUp port rate s
  | .powerOff => execPowerOff s

end Sys2Proof.Machine
end

