-- ==== Sys2Proof/Machine/Rotation.lean ====
section
/-! DEFINITION.
Who issues next: the slot rotation of a core (R32 to R35), one instruction of a thread, and what a step can choose from.
-/

namespace Sys2Proof.Machine

/-! ## The slot rotation (R32, R34) -/

/-- Issue slots of a core: eight, and four on a control core (R26). -/
def slotCount (c : Nat) : Nat := if isControl c then 4 else 8

/-- A thread begins no instruction: its slot is removed (R360), or a gang switch of its launch is due or under way (R339). -/
def State.leaving (s : State) (t : Nat) : Bool :=
  s.slotRemoved t || s.pastTau (s.thread t).epoch || s.offline (s.thread t).epoch

/-- A thread can issue: READY, no page service pending, its core neither killed nor under test.  One that is leaving goes on only with
an instruction that completes all the same; one whose core stops for a program load, with any that it has begun (R69, R217, R238, R369). -/
def State.canIssue (s : State) (t : Nat) : Bool :=
  let x := s.thread t
  let k := s.core (coreOf t)
  x.status == .ready && x.pages.isEmpty && !k.killed && !k.testing && (!s.leaving t || x.underway) && (!k.stopped || x.midway)

/-- Who issues in a slot: its owner, or else the owner's partner, in a slot that is not removed; a removed slot only lets its own
thread's instruction end; control cores lend nothing. -/
def State.issuerIn (s : State) (c slot : Nat) : Option Nat :=
  if (s.core c).removed.getLsbD slot then if s.canIssue (c + slot) then some (c + slot) else none
  else if s.canIssue (c + slot) then some (c + slot)
  else if slotCount c = 8 ∧ s.canIssue (c + slot ^^^ 4) = true then some (c + slot ^^^ 4)
  else none

/-- The first cycle from a given one on in which somebody issues, and who; within one turn of the rotation. -/
def State.nextIssue (s : State) (c : Nat) : Nat → Nat → Option (Nat × Nat)
  | _, 0 => none
  | cycle, n + 1 => match s.issuerIn c (cycle % slotCount c) with
    | some t => some (cycle, t)
    | none => State.nextIssue s c (cycle + 1) n

/-- The cores on which a thread can issue, in the order of their identifiers. -/
def State.readyCores (s : State) : List Nat := ((s.threads.filter fun (y : Nat × Thread) => s.canIssue y.1).map fun (y : Nat × Thread) => coreOf y.1).eraseDups

/-! ## One instruction of a thread -/

/-- The current thread takes its deferred cause, or fetches an instruction and executes it (R11, R107, R114). -/
def State.issueNext (s : State) : Host.Outcome State Fault Refusal :=
  match (s.thread s.cur).due with
  | some _ => execDeferredTrap s.cur s
  | none => match fetch s with
    | .ok i s' => exec i s'
    | .error e s' => .next (s.finish (.error e s'))

/-- The next instruction of a core: its cycle counter stands at the cycle of the slot. -/
def State.runCore (s : State) (c : Nat) : Host.Outcome State Fault Refusal :=
  match s.nextIssue c ((s.core c).cycle + 1) (slotCount c) with
  | none => .next s
  | some (cycle, t) => State.issueNext { s.setCore c { s.core c with cycle := cycle } with cur := t }

/-! ## The choice of a step (log 3) -/

/-- What can happen next: a happening of the agenda by its place, or an instruction of a core. -/
inductive Turn where
  | happening (n : Nat)
  | core (c : Nat)
  deriving DecidableEq, Repr

def State.turns (s : State) : List Turn := (List.range s.agenda.length).map Turn.happening ++ s.readyCores.map Turn.core

/-- What is done now because it has waited long enough: the oldest happening, and in between each core in turn.  Everything that
waits is thus done in finite time (R60). -/
def State.overdueTurn (s : State) : Option Turn :=
  let n := s.tick / (Config.patience + 1)
  if s.tick % (Config.patience + 1) ≠ Config.patience then none
  else if n % 2 = 0 then s.agenda.head?.map fun _ => Turn.happening 0
  else (s.readyCores[n / 2 % s.readyCores.length]?).map Turn.core

/-- The turn taken: the only one, or one that has waited long enough, or the one that the free choice picks; nothing when nobody
can do anything. -/
def State.turn (s : State) : Option Turn :=
  match s.turns with
  | [] => none
  | [x] => some x
  | xs => s.overdueTurn.or xs[Config.pick s.tick % xs.length]?

/-- The agenda without its n-th happening. -/
def State.withoutHappening (s : State) (n : Nat) : State := { s with agenda := s.agenda.eraseIdx n }

/-- The master whose window a host's write goes to. -/
def Happening.barMaster : Happening → Option Nat
  | .registerWrite a _ => if barBase ≤ a then some ((a - barBase) / 0x1000) else none
  | _ => none

/-- A write of GO. -/
def Happening.isGo : Happening → Bool
  | .registerWrite a v => decide (barBase ≤ a) && (a - barBase) % 0x1000 == 0 && v.testBit 8
  | _ => false

/-- Masters below a number, whose GO is written first where several arrive together (R371). -/
def State.goFirst (s : State) (m : Nat) : Option Nat :=
  (List.range (min m 4)).findSome? fun i =>
    match s.agenda.findIdx? fun h => h.barMaster == some i with
    | some j => if (s.agenda[j]?.any Happening.isGo) then some j else none
    | none => none

/-- The place of the happening that goes before the n-th: requests of one host port are performed in the order in which they
arrived (R323), and so are the writes to one master's window; GO writes that wait together go in ascending master order (R371). -/
def State.inOrder (s : State) (n : Nat) : Nat :=
  match s.agenda[n]?.bind Happening.hostPort, s.agenda[n]?.bind Happening.barMaster with
  | some p, _ => (s.agenda.findIdx? fun h => h.hostPort == some p).getD n
  | none, some m =>
    let j := (s.agenda.findIdx? fun h => h.barMaster == some m).getD n
    if s.agenda[j]?.any Happening.isGo then (s.goFirst m).getD j else j
  | none, none => n

/-- A turn taken; without power only a cold reset happens (R356). -/
def State.take_ (s : State) : Option Turn → Host.Outcome State Fault Refusal
  | none => .next s
  | some (.core c) => s.runCore c
  | some (.happening n) => match s.agenda[s.inOrder n]? with
    | some h => Sys2Proof.Machine.perform h (s.withoutHappening (s.inOrder n))
    | none => .next s

/-- A cold reset that is due. -/
def State.powerUp (s : State) : Option Nat := s.agenda.findIdx? (· == .coldReset)

/-- The turn of a machine with or without power. -/
def State.act (s : State) : Host.Outcome State Fault Refusal :=
  if s.powered then s.take_ s.turn
  else match s.powerUp with
    | some n => s.take_ (some (.happening n))
    | none => .fault .powerOff

/-- What comes with a step: time passes, the world outside and the timers add their happenings, and cores load ahead (logs 3, 8, 12). -/
def State.passTime (tick : Nat) (s : State) : State :=
  let s := s.loadsAhead (Config.ahead tick)
  { s with tick := tick + 1, gtime := s.gtime + Config.elapsed tick, agenda := s.agenda ++ Config.input tick }

/-- An outcome with its next state changed. -/
def mapNext (f : State → State) : Host.Outcome State Fault Refusal → Host.Outcome State Fault Refusal
  | .next s => .next (f s)
  | .fault r => .fault r
  | .refused r => .refused r

/-! ## A place to run one instruction (log 6) -/

/-- The bytes of an instruction in memory: the halfword that holds the opcode first, each halfword little-endian (R107). -/
def instrBytes (nbits w : Nat) : List Byte :=
  if nbits ≤ 16 then leBytes 2 w else leBytes 2 (w / 2 ^ 16) ++ leBytes 2 (w % 2 ^ 16)

/-- A window over the instruction store's 32 KiB at virtual address 0, with rights R and X. -/
def codeWindow : BitVec 128 := BitVec.ofNat 128 (2 ^ 127 + 5 * 2 ^ 120 + 0x7FFF * 2 ^ 64)

/-- Thread 0 of core 0 ready to run code at address 0. -/
def Thread.placed (t : Thread) : Thread :=
  { t with status := .ready, pc := 0, epoch := 0, pages := [], causes := [], win := t.win.set 0 codeWindow }

/-- Core 0 with an instruction at the start of its store, and running. -/
def Core.placed (k : Core) (bs : List Byte) : Core :=
  { k with istore := k.istore.writeN 0 bs, ibase := 0, stopped := false, killed := false, testing := false, removed := 0 }

/-- A thread other than the one that runs the placed instruction stands aside. -/
def Thread.aside (t : Thread) : Thread := if t.status = .ready then { t with status := .idle } else t

/-- The machine about to run one instruction, and nothing else. -/
def State.place_ (s : State) (bs : List Byte) : State :=
  let x := (s.thread 0).placed
  let s := { s with powered := true, agenda := [], threads := s.threads.map fun (y : Nat × Thread) => (y.1, y.2.aside) }
  (s.setThread 0 x).setCore 0 ((s.core 0).placed bs)

end Sys2Proof.Machine
end

