-- ==== Sys2Proof/Machine/Step.lean ====
section
/-! DEFINITION.
One step of the machine: an instruction of some thread, or something that happens to the machine (logs 3, 4).
-/

namespace Sys2Proof.Machine

/-- One step. -/
def step (s : State) : Host.Outcome State Fault Refusal := mapNext (State.passTime s.tick) s.act

/-- The state with an instruction where the next step fetches it (log 6). -/
def State.withFetchWord (s : State) (nbits w : Nat) : State := s.place_ (instrBytes nbits w)

end Sys2Proof.Machine
end

