-- ==== Sys2Proof/Safety.lean ====
section
/-! DEFINITION.
The terms in which statements speak of the machine: when an instruction passes the checks that come before its own, what
every instruction of a family does besides its effect, and the invariant of the memories.
-/

namespace Sys2Proof.Machine

/-- The current thread, and the value and residue of its scalar register i. -/
def State.now (s : State) : Thread := s.thread s.cur
def State.val (s : State) (i : BitVec 4) : Word := (s.now.reg i).val

/-- Scalar register i, and extension register i, hold the residue of their value (R137, R138). -/
def State.Sound (s : State) (i : BitVec 4) : Prop := (s.now.reg i).res = residue (s.now.reg i).val
def State.SoundExt (s : State) (i : BitVec 3) : Prop := (s.now.extReg i).res = residue (s.now.extReg i).val

/-- The current thread passes steps 3 and 4 of R114 and the wait of R135: its unit has the family, the remote subset holds
it where stat.REMOTE is set, and no scalar register the instruction names has a pending mark. -/
structure State.Issues (s : State) (f : Family) (named : List (BitVec 4)) : Prop where
  unit : f.runsOn s.cur = true
  subset : s.now.remote = true → f.inRemote = true
  unmarked : ∀ i ∈ named, s.now.marked i = false

/-- The state with the activity event that an instruction of a family counts (R358). -/
def State.counted (s : State) (f : Family) : State :=
  if isControl s.cur then s.count s.cur 40 else if f == .scalar || f == .hint then s.count s.cur 0 else s

/-- The state after an instruction whose whole effect is on its own thread. -/
def State.after (s : State) (f : Family) (g : Thread → Thread) : State := (s.counted f).setThread s.cur (g s.now)

/-- The state after an instruction of the current thread that trapped with a cause, having had no other effect, for work
that can take it (R8, R332). -/
def State.trapped (s : State) (c : Cause) (tval : Word) : State := s.setThread s.cur (s.now.enterTrap c none s.now.pc tval)

/-- The current thread enters its handler on a trap: it serves no call and is not in trap mode (R288, R335). -/
structure State.Handles (s : State) : Prop where
  ordinary : s.now.callee = none
  free : s.now.trapm = false

/-- An access of the current thread reaches byte `off` of the tile memory or vent local memory of a unit, at on-chip address
`a`: the window allows it, the block is that memory, its unit is alive, no self-test holds the bytes, and a callee stays at its own unit
(R22, R115, R288, R354). -/
structure State.OnTile (s : State) (ea : Word) (n : Nat) (rights : List Right) (u off a : Nat) : Prop where
  window : checkIn s.now.win ea n rights = .ok (.chip a)
  block : chipBlock a = some (.tile u off a)
  alive : (s.core u).killed = false
  untested : (s.underTest fun p => (dwordsOf off n).any fun d => p == .tile u d) = false
  near : s.now.callee = none ∨ (if isVent s.cur then u = coreOf s.cur else tileOf u = tileOf s.cur)

/-- An access of the current thread, which serves no call, reaches memory at a key under a leaf that its pager holds with
the rights the access needs: the held translation is found without a walk (R115, R304, R305). -/
structure State.OnPage (s : State) (ea : Word) (n : Nat) (rights : List Right) (leaf : Word) (k : Nat) : Prop where
  translated : ∃ va slot h g, checkIn s.now.win ea n rights = .ok (.virt va)
    ∧ (s.pager (pagerOf s.cur)).rootFor s.now.epoch = some slot
    ∧ (s.pager (pagerOf s.cur)).look s.now.epoch va = some (h, g)
    ∧ s.judge s.now.epoch h.leaf 0 va rights h.mixed = .ok leaf k false
  memory : s.present k = true
  ordinary : s.now.callee = none

/-- Nothing holds up or changes an ordinary access of the current thread to n bytes of this package's memory at a key: the reply
or grant that it waits for has come, and there is first or second tier, no page in transition, no lease, no host copy, no
armed, sealed, tentative or poisoned byte, none that a logged DUPD names or that is under self-test, none loaded ahead, device bias. -/
structure State.Plain (s : State) (leaf : Word) (k n : Nat) : Prop where
  served : s.now.answered = true
  tier : areaOf k = .firstTier ∨ areaOf k = .secondTier
  own : packageOf k = s.package
  settled : s.inTransition k = false
  unleased : s.host.given.any (fun l => overlaps l.key l.bytes k n) = false
  unheld : s.host.held.any (fun l => overlaps l.key l.bytes k n) = false
  unsnooped : s.snoopFor leaf k n true = none
  unarmed : s.isArmed k n = false
  unsealed : s.sealsAt k n = []
  sound : s.poisoned k n = false
  unlogged : s.logged k n = []
  untested : s.underTest (memLine k n) = false
  present_ : ∀ w ∈ wordsOf k n, Tab.find (s.core (coreOf s.cur)).ahead w = none
  committed : ∀ i ≤ n, s.lineTentative (k + i) = false
  device : ∀ i ≤ n, s.hostBias (k + i) = false

/-- Nothing at the home holds up a store of n bytes at a key: the reply it waits for has come, no flip, lease, host copy, armed
region, copied sealed bytes or self-test is in its way. -/
structure State.HomeFree (s : State) (leaf : Word) (k n : Nat) : Prop where
  served : s.now.answered = true
  settled : s.inTransition k = false
  unleased : s.host.given.any (fun l => overlaps l.key l.bytes k n) = false
  untested : s.underTest (memLine k n) = false
  unsnooped : s.snoopFor leaf k n true = none
  unarmed : s.isArmed k n = false
  uncopied : s.sealBusy k n = false

/-- An element access of a command reaches byte `off` of a local memory, at on-chip address `chip`: its windows allow it, the
block is that memory, its unit is alive and no self-test holds the bytes (R23, R247, R271, R349, R354). -/
structure State.ElementOnTile (s : State) (c : Command) (ea : Word) (n : Nat) (right : Right) (unit off chip : Nat) : Prop where
  window : checkIn c.win ea n [right] = .ok (.chip chip)
  block : chipBlock chip = some (.tile unit off chip)
  alive : (s.core unit).killed = false
  untested : (s.underTest fun p => (dwordsOf off n).any fun d => p == .tile unit d) = false

/-- An element that a command reads lies in sound memory of this package at a key, under a translation that its thread's pager holds,
and nothing holds up or changes the read: no flip, lease, armed region, self-test, host copy, tentative cell or logged DUPD. -/
structure State.ElementOnPage (s : State) (c : Command) (ea : Word) (n k : Nat) : Prop where
  translated : ∃ va slot h g leaf, checkIn c.win ea n [.r] = .ok (.virt va)
    ∧ (s.pager (pagerOf c.thread)).rootFor c.epoch = some slot
    ∧ (s.pager (pagerOf c.thread)).look c.epoch va = some (h, g)
    ∧ s.judge c.epoch h.leaf 0 va [.r] h.mixed = .ok leaf k false ∧ s.snoopFor leaf k n false = none
  tier : areaOf k = .firstTier ∨ areaOf k = .secondTier
  memory : s.present k = true
  own : packageOf k = s.package
  free : s.engineWaits k n false = false
  sound : s.poisoned k n = false
  unlogged : s.logged k n = []
  committed : s.cellsAt k n = []
  device : ∀ i ≤ n, s.hostBias (k + i) = false

/-- No two translations that the current thread's pager holds overlap. -/
def State.Distinct (s : State) : Prop :=
  (s.pager (pagerOf s.cur)).cache.Pairwise fun h g => h.epoch ≠ g.epoch ∨ h.base + h.size ≤ g.base ∨ g.base + g.size ≤ h.base

/-- Nothing that a release of the current thread waits for or reports is outstanding: no window boundary, no bias flip, no
refused lease (R176, R178, R326). -/
structure State.Settled (s : State) : Prop where
  boundary : ∀ m, s.now.window = some m → m + 2 ≤ s.windowNow
  flips : s.now.bias.all (fun b => b.outcome == some true) = true
  lease : s.now.lease = none

/-- No earlier strong access of another size meets one of the current thread to n bytes at a key without order (R170). -/
def State.Unmixed (s : State) (k n : Nat) : Prop := s.strong.any (·.clashes s.cur k n) = false

/-- The L1 of the current thread's core has room for a whole grain, so that an access evicts nothing (R12, R167). -/
def State.Fits (s : State) : Prop := (s.core (coreOf s.cur)).l1.length + 128 ≤ l1Words

/-- What the L1 of the current thread's core holds of n bytes at a key is clean or the thread's own, so that nothing is merged
into the home before the access (R168). -/
def State.Mine (s : State) (k n : Nat) : Prop :=
  ∀ w ∈ wordsOf k n, ∀ x, Tab.find (s.core (coreOf s.cur)).l1 w = some x → x.owned = false ∨ x.dirty = 0 ∨ x.writer = s.cur

/-- No core's L1 holds a word of n bytes at a key. -/
def State.Uncached (s : State) (k n : Nat) : Prop := ∀ e ∈ s.cores, ∀ w ∈ wordsOf k n, Tab.find e.2.l1 w = none

/-- A place is under self-test (R354). -/
def State.Tests (s : State) (p : Place) : Prop := ∃ y ∈ s.cores, ∃ x ∈ y.2.suspects, x.place = some p

/-- No vector or mask register of the current thread is poisoned or under self-test, and no MCMP of it is outstanding (R254, R353,
R354). -/
structure State.VectorRegs (s : State) : Prop where
  sound : ∀ p ∈ s.poison, (∀ r d, p ≠ .vec s.cur r d) ∧ ∀ r d, p ≠ .msk s.cur r d
  untested : ∀ p, s.Tests p → (∀ r d, p ≠ .vec s.cur r d) ∧ ∀ r d, p ≠ .msk s.cur r d
  settled : ∀ c ∈ (s.core (coreOf s.cur)).matrix.all, c.thread = s.cur → ∀ x y a b e n m, c.op ≠ .mcmp x y a b e n m

/-- A vector instruction of the current thread is accepted at once or has been accepted: an iterative one, and any of a vent
thread, when its pipe or datapath has finished it, another when the tile unit has nothing queued (R37, R222, R223). -/
structure State.Vectors (s : State) (iterative : Bool) : Prop extends s.VectorRegs where
  accepted : s.now.finished = true
    ∨ (iterative = false ∧ isVent s.cur = false ∧ (s.now.taken = true ∨ (s.tile (tileOf s.cur)).queue = []))

/-- The current thread holds each resource of a set on its core, none of its commands that names one is outstanding, and no
accumulator of the set is poisoned or under self-test (R243, R256, R353, R354). -/
structure State.Holds (s : State) (set : List Nat) : Prop where
  held : ∀ r ∈ set, (s.core (coreOf s.cur)).holds s.cur r = true
  idle : s.namedBy s.cur set = false
  sound : ∀ m w, 32 + m ∈ set → .acc (coreOf s.cur) m w ∉ s.poison
  untested : ∀ m w, 32 + m ∈ set → ¬ s.Tests (.acc (coreOf s.cur) m w)

/-- What the instructions on a core's own slots and accumulators leave alone. -/
def State.keepsAllButCore (s t : State) : Prop :=
  t.mem = s.mem ∧ t.cells = s.cells ∧ t.host = s.host ∧ (∀ c, c ≠ coreOf s.cur → t.core c = s.core c)
    ∧ (t.core (coreOf s.cur)).tile = (s.core (coreOf s.cur)).tile ∧ (t.core (coreOf s.cur)).l1 = (s.core (coreOf s.cur)).l1
    ∧ ∀ j, j ≠ s.cur → t.thread j = s.thread j

/-- Lane i of w bits of a vector register (R219). -/
def vlane (v : VecReg) (w i : Nat) : BitVec w := v.extractLsb' (w * i) w

/-- What every vector instruction on registers leaves alone. -/
def State.keepsAllBut (s t : State) : Prop :=
  t.mem = s.mem ∧ t.cores = s.cores ∧ t.cells = s.cells ∧ t.host = s.host ∧ ∀ j, j ≠ s.cur → t.thread j = s.thread j

/-- The bytes a number makes, and the number bytes make, little-endian (R4). -/
def State.tileBytes (s : State) (u off n : Nat) : Nat := leNat ((s.core u).tile.readN off n)

/-- Master m's command alone waits to run, with an opcode; its arguments from a number on are zero; and where the command is
the owner's, m is the owner (R371, R373, R374). -/
structure State.Orders (s : State) (m opcode : Nat) (owner : Bool) (named : Nat) : Prop where
  master : m < 4
  alone : s.fw.pending = [m]
  opcode : (s.window m).opcode.toNat = opcode
  owned : owner = true → s.fw.owner = some m
  zeros : (s.window m).zerosFrom named = true

/-- Master m has its answer: CODE and the results, BUSY clear, vector 0 raised, nothing waiting (R371). -/
def State.answered (s u : State) (m code : Nat) (r0 r1 : Option Word) : Prop :=
  u.window m = { s.window m with
      code := BitVec.ofNat 16 code, busy := false, result0 := r0.getD (s.window m).result0, result1 := r1.getD (s.window m).result1 }
    ∧ u.fw.msix = (m, 0) :: s.fw.msix ∧ u.fw.pending = [] ∧ ∀ n, n ≠ m → u.window n = s.window n

/-- Every byte memory is in its canonical form, and every L1 lists its words in rising order, each once. -/
def State.Canonical (s : State) : Prop :=
  s.mem.wf = true ∧ (∀ c, (s.core c).tile.wf = true) ∧ (∀ c, (s.core c).istore.wf = true)
    ∧ ∀ c, (s.core c).l1.Pairwise fun e f => e.1 < f.1

end Sys2Proof.Machine
end

