-- ==== Sys2Proof/Certificates/Slice0/Obligations.lean ====
section
/-! DEFINITION.
The statements.  Each docstring names the rules of the spec that the statement formalises, or the log entry it rests on.
-/

open Sys2Proof Sys2Proof.Machine

/-! ## Scalar instructions -/

/-- R137, R141: ADD, SUB and MUL at width n write the wrapped sum, difference and product, sign-extended; at 64 bits the
residue is predicted from the operands' residues, at the other widths generated.

R137: a residue predicted from sound operands is the residue of the value written, for ADD, SUB, MUL, ADDI and MULI. -/
def Obligations.AddSubMulResults : Prop :=
  (∀ (s : State) (d a b : BitVec 4) (z : BitVec 2), s.Issues .scalar [d, a, b] →
      let x : BitVec (opBits z) := (s.val a).setWidth (opBits z)
      let y : BitVec (opBits z) := (s.val b).setWidth (opBits z)
      let ra := (s.now.reg a).res.toNat
      let rb := (s.now.reg b).res.toNat
      let carry := if (s.val a).toNat + (s.val b).toNat < 2 ^ 64 then 0 else 1
      let borrow := if (s.val a).ult (s.val b) then 1 else 0
      let high := (s.val a).toNat * (s.val b).toNat / 2 ^ 64
      let after := fun (v : Word) (predicted : Nat) =>
        s.after .scalar fun t => (t.setReg d ⟨v, if z = 3 then BitVec.ofNat 4 (predicted % 15) else BitVec.ofNat 4 (v.toNat % 15)⟩).next 4
      exec (.add d a b z) s = .next (after ((x + y).signExtend 64) (ra + rb + 15 - carry))
        ∧ exec (.sub d a b z) s = .next (after ((x - y).signExtend 64) (ra + 15 - rb + borrow))
        ∧ exec (.mul d a b z) s = .next (after ((x * y).signExtend 64) (ra * rb + 15 - high % 15)))
  ∧ (∀ (s : State) (d a b : BitVec 4) (z : BitVec 2) (i : BitVec 13), s.Issues .scalar [d, a, b] → s.Sound a → s.Sound b →
      ∀ j ∈ [Instr.add d a b z, .sub d a b z, .mul d a b z, .addi d a i, .muli d a i],
        ∃ t, exec j s = .next t ∧ (t.now.reg d).res = BitVec.ofNat 4 ((t.now.reg d).val.toNat % 15))

/-- R70, R71, R141: MULH, MULHU, DIV, DIVU, REM and REMU at width n.

R141: the logical instructions, shifts and rotations at width n; the count is the low bits of s_b. -/
def Obligations.ProductDivisionLogicShiftResults : Prop :=
  (∀ (s : State) (d a b : BitVec 4) (z : BitVec 2), s.Issues .scalar [d, a, b] →
      let n := opBits z
      let x : BitVec n := (s.val a).setWidth n
      let y : BitVec n := (s.val b).setWidth n
      let after := fun (v : Word) => s.after .scalar fun t => (t.setReg d ⟨v, BitVec.ofNat 4 (v.toNat % 15)⟩).next 4
      exec (.mulh d a b z) s = .next (after ((BitVec.ofInt n (x.toInt * y.toInt / (2 : Int) ^ n)).signExtend 64))
        ∧ exec (.mulhu d a b z) s = .next (after ((BitVec.ofNat n (x.toNat * y.toNat / 2 ^ n)).setWidth 64))
        ∧ exec (.div d a b z) s = .next (after ((if y = 0 then BitVec.allOnes n else BitVec.sdiv x y).signExtend 64))
        ∧ exec (.divu d a b z) s = .next (after ((if y = 0 then BitVec.allOnes n else x / y).setWidth 64))
        ∧ exec (.rem d a b z) s = .next (after ((if y = 0 then x else BitVec.srem x y).signExtend 64))
        ∧ exec (.remu d a b z) s = .next (after ((if y = 0 then x else x % y).setWidth 64)))
  ∧ (∀ (s : State) (d a b : BitVec 4) (z : BitVec 2), s.Issues .scalar [d, a, b] →
      let n := opBits z
      let x : BitVec n := (s.val a).setWidth n
      let y : BitVec n := (s.val b).setWidth n
      let sh := (s.val b).toNat % n
      let after := fun (v : Word) => s.after .scalar fun t => (t.setReg d ⟨v, BitVec.ofNat 4 (v.toNat % 15)⟩).next 4
      exec (.and d a b z) s = .next (after ((x &&& y).signExtend 64))
        ∧ exec (.or d a b z) s = .next (after ((x ||| y).signExtend 64))
        ∧ exec (.xor d a b z) s = .next (after ((x ^^^ y).signExtend 64))
        ∧ exec (.andn d a b z) s = .next (after ((x &&& ~~~ y).signExtend 64))
        ∧ exec (.sll d a b z) s = .next (after ((x <<< sh).signExtend 64))
        ∧ exec (.srl d a b z) s = .next (after ((x >>> sh).setWidth 64))
        ∧ exec (.sra d a b z) s = .next (after ((x.sshiftRight sh).signExtend 64))
        ∧ exec (.rol d a b z) s = .next (after ((x.rotateLeft sh).signExtend 64))
        ∧ exec (.ror d a b z) s = .next (after ((x.rotateRight sh).signExtend 64)))

/-- R70, R141: minima, maxima, saturating sums and differences, and comparisons at width n.

R137, R141, R142: the unary minors.  The counts are told by the bits they count, BSWAP by its bytes; MOV copies the
residue, SEXT and ZEXT generate one. -/
def Obligations.CompareAndUnaryResults : Prop :=
  (∀ (s : State) (d a b : BitVec 4) (z : BitVec 2), s.Issues .scalar [d, a, b] →
      let n := opBits z
      let x : BitVec n := (s.val a).setWidth n
      let y : BitVec n := (s.val b).setWidth n
      let clamp := fun (v : Int) => BitVec.ofInt n (max (-(2 : Int) ^ (n - 1)) (min v ((2 : Int) ^ (n - 1) - 1)))
      let after := fun (v : Word) => s.after .scalar fun t => (t.setReg d ⟨v, BitVec.ofNat 4 (v.toNat % 15)⟩).next 4
      exec (.min d a b z) s = .next (after ((if x.sle y then x else y).signExtend 64))
        ∧ exec (.minu d a b z) s = .next (after ((if x.ule y then x else y).setWidth 64))
        ∧ exec (.max d a b z) s = .next (after ((if x.sle y then y else x).signExtend 64))
        ∧ exec (.maxu d a b z) s = .next (after ((if x.ule y then y else x).setWidth 64))
        ∧ exec (.adds d a b z) s = .next (after ((clamp (x.toInt + y.toInt)).signExtend 64))
        ∧ exec (.subs d a b z) s = .next (after ((clamp (x.toInt - y.toInt)).signExtend 64))
        ∧ exec (.addsu d a b z) s = .next (after ((BitVec.ofNat n (min (x.toNat + y.toNat) (2 ^ n - 1))).setWidth 64))
        ∧ exec (.subsu d a b z) s = .next (after ((BitVec.ofNat n (x.toNat - y.toNat)).setWidth 64))
        ∧ exec (.slt d a b z) s = .next (after (if x.slt y then 1 else 0))
        ∧ exec (.sltu d a b z) s = .next (after (if x.ult y then 1 else 0))
        ∧ exec (.seq d a b z) s = .next (after (if x = y then 1 else 0)))
  ∧ (∀ (s : State) (d a : BitVec 4) (z : BitVec 2), s.Issues .scalar [d, a] →
      let n := opBits z
      let x : BitVec n := (s.val a).setWidth n
      let after := fun (v : Word) => s.after .scalar fun t => (t.setReg d ⟨v, BitVec.ofNat 4 (v.toNat % 15)⟩).next 4
      (∃ c ≤ n, exec (.clz d a z) s = .next (after (BitVec.ofNat 64 c))
          ∧ (∀ i < c, x.getLsbD (n - 1 - i) = false) ∧ (c < n → x.getLsbD (n - 1 - c) = true))
        ∧ (∃ c ≤ n, exec (.ctz d a z) s = .next (after (BitVec.ofNat 64 c))
          ∧ (∀ i < c, x.getLsbD i = false) ∧ (c < n → x.getLsbD c = true))
        ∧ exec (.popc d a z) s = .next (after (BitVec.ofNat 64 ((List.range n).countP x.getLsbD)))
        ∧ exec (.sext d a z) s = .next (after (x.signExtend 64))
        ∧ exec (.zext d a z) s = .next (after (x.setWidth 64))
        ∧ (∃ v : BitVec n, exec (.bswap d a z) s = .next (after (v.setWidth 64))
          ∧ ∀ i < n / 8, v.extractLsb' (8 * i) 8 = x.extractLsb' (n - 8 - 8 * i) 8)
        ∧ exec (.mov d a) s = .next (s.after .scalar fun t => (t.setReg d (s.now.reg a)).next 4))

/-- R137, R143, R144: the immediate forms and the upper constants, 64 bits wide; ADDI and MULI predict the residue from the
residue of the immediate, ADPC counts from its own address.

R137, R145, R146: EXTI sets one halfword of an extension register, keeping the others or clearing them; EXT, MFE and
CSEL copy a value with its residue.  Where a command outstanding records its progress in the register (R10, R248, R272), what
EXT or EXTI leaves there is some value or other. -/
def Obligations.ImmediateAndExtensionResults : Prop :=
  (∀ (s : State) (d a : BitVec 4) (i : BitVec 13) (h : BitVec 6) (u : BitVec 19), s.Issues .scalar [d, a] →
      let x := s.val a
      let imm : Word := i.signExtend 64
      let ra := (s.now.reg a).res.toNat
      let carry := if x.toNat + imm.toNat < 2 ^ 64 then 0 else 1
      let put := fun (r : Reg) => s.after .scalar fun t => (t.setReg d r).next 4
      let after := fun (v : Word) => put ⟨v, BitVec.ofNat 4 (v.toNat % 15)⟩
      exec (.addi d a i) s = .next (put ⟨x + imm, BitVec.ofNat 4 ((ra + imm.toNat % 15 + 15 - carry) % 15)⟩)
        ∧ exec (.muli d a i) s
            = .next (put ⟨x * imm, BitVec.ofNat 4 ((ra * (imm.toNat % 15) + 15 - x.toNat * imm.toNat / 2 ^ 64 % 15) % 15)⟩)
        ∧ exec (.andi d a i) s = .next (after (x &&& imm))
        ∧ exec (.ori d a i) s = .next (after (x ||| imm))
        ∧ exec (.xori d a i) s = .next (after (x ^^^ imm))
        ∧ exec (.slli d a h) s = .next (after (x <<< h.toNat))
        ∧ exec (.srli d a h) s = .next (after (x >>> h.toNat))
        ∧ exec (.srai d a h) s = .next (after (x.sshiftRight h.toNat))
        ∧ exec (.slti d a i) s = .next (after (if x.slt imm then 1 else 0))
        ∧ exec (.sltiu d a i) s = .next (after (if x.ult imm then 1 else 0))
        ∧ exec (.li d i) s = .next (after imm)
        ∧ exec (.lih d u) s = .next (after ((u.signExtend 64 : Word) <<< 13))
        ∧ exec (.adpc d u) s = .next (after (s.now.pc + (u.signExtend 64 : Word) <<< 13)))
  ∧ (∀ (s : State) (d a b : BitVec 4) (e : BitVec 3) (p : BitVec 2) (k : BitVec 1) (i : BitVec 16), s.Issues .scalar [d, a, b] →
      let recording := (s.core (coreOf s.cur)).recording s.cur e
      (recording = false →
          (∃ v : Word, exec (.exti e p k i) s = .next (s.after .scalar fun t => (t.setExt e ⟨v, BitVec.ofNat 4 (v.toNat % 15)⟩).next 4)
            ∧ ∀ j < 4, v.extractLsb' (16 * j) 16
                = if j = p.toNat then i else if k = 1 then (s.now.extReg e).val.extractLsb' (16 * j) 16 else 0)
          ∧ exec (.ext e a) s = .next (s.after .scalar fun t => (t.setExt e (s.now.reg a)).next 4))
        ∧ (recording = true → ∃ r : Reg, ∀ j ∈ [Instr.exti e p k i, .ext e a],
            exec j s = .next { s.after .scalar fun t => (t.setExt e r).next 4 with fresh := s.fresh + 1 })
        ∧ exec (.mfe d e) s = .next (s.after .scalar fun t => (t.setReg d (s.now.extReg e)).next 4)
        ∧ exec (.csel d a b) s
            = .next (s.after .scalar fun t => (t.setReg d (if s.val d ≠ 0 then s.now.reg a else s.now.reg b)).next 4))

/-- R110, R161: a 16-bit instruction has the effect of its 32-bit equivalent, counted at its own length: the two next
states differ in nothing but the pc, which is 2 lower. -/
def Obligations.CompactFormsEqualTheirEquivalents : Prop :=
  ∀ (s : State) (d a : BitVec 4) (i : BitVec 6), s.Issues .scalar [d, a] →
    let pairs : List (Instr × Instr) :=
      [(.mov16 d a, .mov d a), (.add16 d a, .add d d a 3), (.sub16 d a, .sub d d a 3), (.and16 d a, .and d d a 3),
       (.or16 d a, .or d d a 3), (.xor16 d a, .xor d d a 3), (.addi16 d i, .addi d d (i.signExtend 13)),
       (.li16 d i, .li d (i.signExtend 13)), (.slli16 d i, .slli d d i), (.srli16 d i, .srli d d i), (.srai16 d i, .srai d d i)]
    ∀ q ∈ pairs, ∃ t : State, exec q.2 s = .next t ∧ t.now.pc = s.now.pc + 4
      ∧ exec q.1 s = .next (t.setThread s.cur { t.thread s.cur with pc := s.now.pc + 2 })

/-! ## Control transfer, traps and system registers -/

/-- R147: each branch goes to its target, counted in halfwords from itself, exactly when its condition holds.

R138, R148, R150, R161: jumps and calls.  A register jump compares the residue of its target first and traps with
RESIDUE, then traps with ALIGN for an odd target, before pc or s15 changes; CALLR through s15 goes to the old value. -/
def Obligations.BranchAndJumpResults : Prop :=
  (∀ (s : State) (a b : BitVec 4) (o : BitVec 14), s.Issues .scalar [a, b] →
      let x := s.val a
      let y := s.val b
      let target : Word := s.now.pc + (o.signExtend 64 : Word) <<< 1
      let goes := fun (taken : Bool) => s.after .scalar fun t => if taken then t.jump target else t.next 4
      exec (.beq a b o) s = .next (goes (x == y))
        ∧ exec (.bne a b o) s = .next (goes (x != y))
        ∧ exec (.blt a b o) s = .next (goes (decide (x.toInt < y.toInt)))
        ∧ exec (.bge a b o) s = .next (goes (decide (y.toInt ≤ x.toInt)))
        ∧ exec (.bltu a b o) s = .next (goes (decide (x.toNat < y.toNat)))
        ∧ exec (.bgeu a b o) s = .next (goes (decide (y.toNat ≤ x.toNat))))
  ∧ (∀ (s : State) (a : BitVec 4) (o : BitVec 25) (c : BitVec 10),
      let link := fun (t : Thread) => t.setReg 15 ⟨s.now.pc + 4, BitVec.ofNat 4 ((s.now.pc + 4).toNat % 15)⟩
      (s.Issues .scalar [] → exec (.j o) s = .next (s.after .scalar (·.jump (s.now.pc + (o.signExtend 64 : Word) <<< 1)))
          ∧ exec (.j16 c) s = .next (s.after .scalar (·.jump (s.now.pc + (c.signExtend 64 : Word) <<< 1))))
        ∧ (s.Issues .scalar [15] →
          exec (.call o) s = .next (s.after .scalar fun t => (link t).jump (s.now.pc + (o.signExtend 64 : Word) <<< 1)))
        ∧ (s.Issues .scalar [a, 15] → s.Sound a → (s.val a).getLsbD 0 = false →
          exec (.jr a) s = .next (s.after .scalar (·.jump (s.val a)))
          ∧ exec (.callr a) s = .next (s.after .scalar fun t => (link t).jump (s.val a)))
        ∧ (s.Issues .scalar [15] → s.Sound 15 → (s.val 15).getLsbD 0 = false →
          exec .ret s = .next (s.after .scalar (·.jump (s.val 15))) ∧ exec .ret16 s = .next (s.after .scalar (·.jump (s.val 15))))
        ∧ (s.Issues .scalar [a, 15] → s.Handles → s.Sound a → (s.val a).getLsbD 0 = true →
          exec (.jr a) s = .next (s.trapped .align (s.val a)) ∧ exec (.callr a) s = .next (s.trapped .align (s.val a)))
        ∧ (s.Issues .scalar [15] → s.Handles → s.Sound 15 → (s.val 15).getLsbD 0 = true →
          exec .ret s = .next (s.trapped .align (s.val 15)) ∧ exec .ret16 s = .next (s.trapped .align (s.val 15)))
        ∧ (s.Issues .scalar [a, 15] → s.Handles → ¬ s.Sound a →
          exec (.jr a) s = .next (s.takeCause s.cur .residue (a.setWidth 64) none none)
          ∧ exec (.callr a) s = .next (s.takeCause s.cur .residue (a.setWidth 64) none none))
        ∧ (s.Issues .scalar [15] → s.Handles → ¬ s.Sound 15 →
          exec .ret s = .next (s.takeCause s.cur .residue 15 none none) ∧ exec .ret16 s = .next (s.takeCause s.cur .residue 15 none none)))

/-- R154, R332, R333: TRAP enters the handler with cause 0x08, its code in tval and the address after it in epc; pc becomes
tvec and TRAPM 1, and nothing else changes.

R155, R114: RTE sets pc to epc and clears TRAPM together, and changes no other register; outside trap mode it traps with
PRIV.  With no parked command of the thread on its core nothing else changes. -/
def Obligations.TrapAndRteResults : Prop :=
  (∀ (s : State) (c : BitVec 7), s.Issues .scalar [] → s.Handles →
      ∃ t : Thread, exec (.trap c) s = .next (s.setThread s.cur t)
        ∧ t.tcause = 0x08 ∧ t.epc = s.now.pc + 4 ∧ t.tval = c.setWidth 64 ∧ t.trapm = true ∧ t.pc = s.now.tvec ∧ t.status = .ready
        ∧ { t with tcause := s.now.tcause, epc := s.now.epc, tval := s.now.tval, trapm := s.now.trapm, pc := s.now.pc,
                   status := s.now.status, reissue := s.now.reissue, taken := s.now.taken, finished := s.now.finished,
                   expired := s.now.expired, answered := s.now.answered, since := s.now.since, begun := s.now.begun } = s.now)
  ∧ (∀ (s : State), s.Issues .scalar [] →
      (s.now.trapm = true → (∀ e : EngineSel, ((s.core (coreOf s.cur)).engine e).parked = []) →
        exec .rte s = .next (s.after .scalar fun t => { t.jump t.epc with trapm := false }))
        ∧ (s.Handles → exec .rte s = .next (s.trapped .priv 0)))

/-- R114: the checks of an instruction come in the order of R114, shown for one instruction of every family: a family that
the unit lacks traps with ILLEGAL, one that the remote subset lacks makes a callee's instruction trap with REMOTE_SUBSET, then
come the mode checks of step 5 (for REPLY and RCALL what they need; PRIV for MFS of a trap register outside trap mode), and
only then does a named register with a pending mark make the thread wait (R135), from the time it first waited for a mark. -/
def Obligations.ChecksComeInOrder : Prop :=
  ∀ (s : State) (d a b : BitVec 4) (w m : BitVec 3) (i : BitVec 11) (n : BitVec 2) (z : BitVec 2) (y : BitVec 1),
    let always : List (Instr × Family × List (BitVec 4)) :=
      [(.add d a b z, .scalar, [d, a, b]), (.nop, .hint, []), (.ldd d b w i, .loadStore, [d, b]),
       (.aadd d a b w y n 0, .atomic, [d, a, b]), (.fenceRel, .fence, []), (.bard d a, .barrier, [d, a]),
       (.commit a, .cell, [a]), (.flush a b, .maintain, [a, b]), (.seal a b, .seal, [a, b]), (.dupdAdd a b w y, .dupd, [a, b]),
       (.tstd d b w i, .tentative, [d, b]), (.kmov m w, .vector, []), (.vld 0 0 0 b w 3, .vectorMemory, [b]),
       (.vlds 0 n 0 0 b 3, .vectorStream, [b]), (.claim a b, .matrix, [a, b]), (.strm n a, .copy, [a]),
       (.scpy n z d n y y y y z, .sinter, []), (.carmArm a b, .near, [a, b]), (.phase, .phase, []),
       (.spawn a, .spawn, [a, 8, 9, 10, 11, 12, 13]), (.qcfg a b, .task, [a, b]), (.recv d a, .task, [d, a]),
       (.done a, .work, [a, 7])]
    -- with what step 5 asks of it
    let asking : List ((Instr × Family × List (BitVec 4)) × Bool) :=
      always.map (·, true)
        ++ [((.rcall a b m, .call, [a, b, 8, 9, 10, 11] ++ payloadRegs m.toNat), decide (m.toNat < 7)),
            ((.reply m, .reply, payloadRegs m.toNat), s.now.remote && s.now.callee.isSome && decide (m.toNat ≤ 4))]
    let waiting : State := s.setThread s.cur { s.now with
      status := .wait .mark, since := some (if s.now.begun = some .mark then s.now.since.getD s.gtime else s.gtime), begun := some .mark }
    (∀ p ∈ asking, ∀ j f named, p.1 = (j, f, named) →
      (f.runsOn s.cur = false → exec j s = .next (s.takeCause s.cur .illegal 0 none none))
      ∧ (f.runsOn s.cur = true → s.now.remote = true → f.inRemote = false → exec j s = .next (s.takeCause s.cur .remoteSubset 0 none none))
      ∧ (f.runsOn s.cur = true → (s.now.remote = true → f.inRemote = true) →
        (p.2 = false → exec j s = .next (s.takeCause s.cur .illegal 0 none none))
        ∧ (p.2 = true → (∃ i ∈ named, s.now.marked i = true) → exec j s = .next waiting)))
    ∧ (Family.runsOn .scalar s.cur = true → s.now.marked d = true → ∀ r ∈ [(8 : BitVec 7), 9, 10],
        (s.now.trapm = false → exec (.mfs d r) s = .next (s.takeCause s.cur .priv 0 none none))
        ∧ (s.now.trapm = true → exec (.mfs d r) s = .next waiting))

/-- R97, R98, R152: MFS reads each register the reader may read, a window into a register pair; an access that R98 does not
permit traps with PRIV, an odd register for a window and a register that the unit lacks with ILLEGAL; the word of MFS with a number
that R98 does not list decodes to nothing.

POINT of thrstat is the model's reading (log 28). -/
def Obligations.MfsReads : Prop :=
  ∀ (s : State) (d : BitVec 4) (r : BitVec 7),
    let t := s.now
    let put := fun (v : Word) => s.after .scalar fun t => (t.setReg d ⟨v, BitVec.ofNat 4 (v.toNat % 15)⟩).next 4
    (s.Issues .scalar [d] →
      exec (.mfs d 1) s = .next (put t.fpctl)
      ∧ exec (.mfs d 3) s = .next (put (BitVec.ofNat 64 (s.package % 2 ^ 20 * 2 ^ 24 + s.cur % 2 ^ 24)))
      ∧ exec (.mfs d 4) s = .next (put (BitVec.ofNat 64 (s.core (coreOf s.cur)).cycle))
      ∧ exec (.mfs d 5) s = .next (put (BitVec.ofNat 64 s.gtime))
      ∧ exec (.mfs d 11) s = .next (put t.tvec)
      ∧ exec (.mfs d 12) s = .next (put (t.rcto.setWidth 64))
      ∧ exec (.mfs d 13) s = .next (put (t.rcretry.setWidth 64))
      ∧ (t.trapm = true → exec (.mfs d 8) s = .next (put t.tcause) ∧ exec (.mfs d 9) s = .next (put t.epc)
          ∧ exec (.mfs d 10) s = .next (put t.tval))
      ∧ (t.dbg = true → exec (.mfs d 24) s = .next (put (t.dbgdrop.setWidth 64)))
      ∧ (∃ w : Word, exec (.mfs d 0) s = .next (put w)
          ∧ w.getLsbD 0 = t.trapm ∧ w.getLsbD 1 = t.supv ∧ w.getLsbD 2 = t.remote ∧ w.getLsbD 3 = t.dbg
          ∧ w.getLsbD 4 = isVent s.cur ∧ w.extractLsb' 5 3 = 0 ∧ w.extractLsb' 8 3 = BitVec.ofNat 3 (s.cur % 8)
          ∧ w.extractLsb' 11 5 = 0 ∧ w.extractLsb' 16 16 = t.epoch ∧ w.extractLsb' 32 16 = t.pend ∧ w.extractLsb' 48 16 = 0)
      ∧ (∃ w : Word, exec (.mfs d 2) s = .next (put w) ∧ w.extractLsb' 0 4 = t.sticky)
      ∧ (isCompute s.cur = true → exec (.mfs d 14) s = .next (put 0)
          ∧ ∃ w : Word, exec (.mfs d 6) s = .next (put w) ∧ w.extractLsb' 16 48 = 0
            ∧ ∀ k : Fin 4, w.extractLsb' (4 * k) 4 = t.dep[k.val])
      ∧ (∀ l, isControl s.cur = false → s.launch t.epoch = some l →
          exec (.mfs d 15) s = .next (put ((Tab.get 0 s.phases (dieOf s.cur * 16 + l.slot)).setWidth 64)))
      ∧ (s.Handles → (r = 8 ∨ r = 9 ∨ r = 10 ∨ (r = 24 ∧ t.dbg = false)) → exec (.mfs d r) s = .next (s.trapped .priv 0))
      ∧ (s.Handles → isCompute s.cur = false → (r = 6 ∨ r = 14) → exec (.mfs d r) s = .next (s.trapped .illegal 0))
      ∧ (s.Handles → isControl s.cur = true → exec (.mfs d 15) s = .next (s.trapped .illegal 0)))
    ∧ (∀ i : BitVec 3, s.Issues .scalar [d, d + 1] →
      (d.getLsbD 0 = false →
        exec (.mfs d (16 + i.setWidth 7)) s = .next (s.after .scalar fun u =>
          ((u.setReg d ⟨(t.window_ i).extractLsb' 0 64, BitVec.ofNat 4 (((t.window_ i).extractLsb' 0 64).toNat % 15)⟩).setReg
            (d + 1) ⟨(t.window_ i).extractLsb' 64 64, BitVec.ofNat 4 (((t.window_ i).extractLsb' 64 64).toNat % 15)⟩).next 4))
      ∧ (s.Handles → d.getLsbD 0 = true → exec (.mfs d (16 + i.setWidth 7)) s = .next (s.trapped .illegal 0)))
    ∧ ((r.toNat = 7 ∨ 25 ≤ r.toNat) → ∃ e, decodeBytes (encode (.mfs d r)) = .error e)

/-- R97, R98, R102, R153: MTS writes the writable fields of a register the writer may write; a window takes the value of a
register pair, when the thread is in trap mode, is a supervisor, or the value is invalid or narrows the window; an odd register
for a window and a register that the unit lacks trap with ILLEGAL, and the word with a number that R98 does not list decodes to nothing.

R326: MTS biascmd sends a flip request for a first-tier SC page under BIASMGD to its home; with 8 outstanding requests, or a nonzero
bit in 11:1, it traps with BIAS and queues nothing. -/
def Obligations.MtsWrites : Prop :=
  (∀ (s : State) (a : BitVec 4),
      let x := s.val a
      let put := fun (g : Thread → Thread) => s.after .scalar fun t => (g t).next 4
      (s.Issues .scalar [a] →
        exec (.mts a 1) s = .next (put fun t => { t with fpctl := x &&& 0x31F1F })
        ∧ exec (.mts a 2) s = .next (put fun t => { t with sticky := t.sticky &&& ~~~(x.setWidth 4) })
        ∧ exec (.mts a 3) s = .next (put id) ∧ exec (.mts a 4) s = .next (put id) ∧ exec (.mts a 5) s = .next (put id)
        ∧ exec (.mts a 8) s = .next (put id) ∧ exec (.mts a 10) s = .next (put id)
        ∧ exec (.mts a 12) s = .next (put fun t => { t with rcto := x.setWidth 32 })
        ∧ exec (.mts a 13) s = .next (put fun t => { t with rcretry := x.setWidth 4 })
        ∧ (isControl s.cur = false → exec (.mts a 15) s = .next (put id))
        ∧ (s.now.trapm = true → exec (.mts a 9) s = .next (put fun t => { t with epc := x &&& ~~~1 }))
        ∧ (s.now.supv = true → exec (.mts a 11) s = .next (put fun t => { t with tvec := x &&& ~~~1 })
            ∧ exec (.mts a 0) s = .next (put fun t => { t with trapm := x.getLsbD 0 }))
        ∧ (s.now.dbg = true → exec (.mts a 24) s = .next (put fun t => { t with dbgdrop := x.setWidth 16 }))
        ∧ (s.Handles → exec (.mts a 9) s = .next (s.trapped .priv 0))
        ∧ (s.Handles → s.now.supv = false →
            exec (.mts a 11) s = .next (s.trapped .priv 0) ∧ exec (.mts a 0) s = .next (s.trapped .priv 0))
        ∧ (s.Handles → s.now.dbg = false → exec (.mts a 24) s = .next (s.trapped .priv 0))
        ∧ (s.Handles → isCompute s.cur = false →
            exec (.mts a 6) s = .next (s.trapped .illegal 0) ∧ exec (.mts a 14) s = .next (s.trapped .illegal 0))
        ∧ (s.Handles → isControl s.cur = true → exec (.mts a 15) s = .next (s.trapped .illegal 0))
        ∧ (isCompute s.cur = true → exec (.mts a 6) s = .next (put id)))
      ∧ ∀ i : BitVec 3, s.Issues .scalar [a, a + 1] → a.getLsbD 0 = false →
        let w : BitVec 128 := s.val (a + 1) ++ s.val a
        let allowed := s.now.trapm || s.now.supv || !Win.valid w || Win.narrows (s.now.window_ i) w
        (allowed = true → Win.wellFormed w = true → exec (.mts a (16 + i.setWidth 7)) s = .next (put fun t => t.setWindow i w))
        ∧ (s.Handles → allowed = false → exec (.mts a (16 + i.setWidth 7)) s = .next (s.trapped .priv 0))
        ∧ (s.Handles → allowed = true → Win.wellFormed w = false →
            exec (.mts a (16 + i.setWidth 7)) s = .next (s.trapped .window (s.val a))))
  ∧ (∀ (s : State) (a : BitVec 4) (i : BitVec 3), s.Issues .scalar [a, a + 1] → s.Handles → a.getLsbD 0 = true →
      exec (.mts a (16 + i.setWidth 7)) s = .next (s.trapped .illegal 0))
  ∧ (∀ (a : BitVec 4) (r : BitVec 7), r.toNat = 7 ∨ 25 ≤ r.toNat → ∃ e, decodeBytes (encode (.mts a r)) = .error e)
  ∧ (∀ (s : State) (a : BitVec 4), s.Issues .scalar [a] → isCompute s.cur = true →
      let x := s.val a
      let ea := x >>> 12 <<< 12
      let waiting := (s.now.bias.filter fun b => b.outcome.isNone).length
      (∀ va slot h g k, x.toNat / 2 % 2 ^ 11 = 0 → waiting < 8 → checkIn s.now.win ea 1 [.w] = .ok (.virt va) →
        (s.pager (pagerOf s.cur)).rootFor s.now.epoch = some slot → (s.pager (pagerOf s.cur)).look s.now.epoch va = some (h, g) →
        s.judge s.now.epoch h.leaf 0 va [.w] h.mixed = .ok h.leaf k h.mixed → s.present k = true → s.biasOk h.leaf k = true →
        ∃ u i, exec (.mts a 14) s = .next u ∧ u.now.pc = s.now.pc + 4 ∧ u.now.regs = s.now.regs ∧ u.mem = s.mem
          ∧ u.now.bias = s.now.bias ++ [⟨ea, x.getLsbD 0, some i, none, none⟩] ∧ u.host.flips = s.host.flips ++ [⟨i, k / 4096, x.getLsbD 0, 0⟩])
      ∧ (s.Handles → 8 ≤ waiting ∨ x.toNat / 2 % 2 ^ 11 ≠ 0 → exec (.mts a 14) s = .next (s.trapped .bias x)))

/-- R113, R159, R160, R365: a hint takes its slot and changes no register, memory or flag; HCOMP, HMEM and HWAIT set the hint
state of a compute core, PAUSE counts an event of the activity estimator.  PREFL completes on every address without a trap and
changes no register; where its window check fails it does nothing. -/
def Obligations.HintResults : Prop :=
  ∀ (s : State) (a : BitVec 4) (i : BitVec 16), s.Issues .hint [a] →
    let c := coreOf s.cur
    let hinted := fun (h : Hint) =>
      if isCompute s.cur then (s.after .hint (·.next 4)).setCore c { s.core c with hint := h } else s.after .hint (·.next 4)
    exec .nop s = .next (s.after .hint (·.next 4))
      ∧ exec .nop16 s = .next (s.after .hint (·.next 2))
      ∧ (∃ t, exec (.prefl a i) s = .next t ∧ t.now.pc = s.now.pc + 4 ∧ t.now.status = .ready ∧ t.now.regs = s.now.regs
          ∧ t.now.ext = s.now.ext ∧ t.now.vec = s.now.vec ∧ t.now.msk = s.now.msk ∧ t.now.win = s.now.win)
      ∧ ((∀ va, checkIn s.now.win (s.val a + i.signExtend 64) 1 [.r] ≠ .ok (.virt va)) →
          exec (.prefl a i) s = .next (s.after .hint (·.next 4)))
      ∧ exec .pause s = .next (((s.counted .hint).count s.cur 34).setThread s.cur (s.now.next 4))
      ∧ exec .hcomp s = .next (hinted .comp) ∧ exec .hmem s = .next (hinted .mem) ∧ exec .hwait s = .next (hinted .wait)

/-! ## Encoding, fetch and step -/

/-- R107 to R112: every well-formed encoded instruction, with every operand at every value, is what its own bytes decode
to. -/
def Obligations.DecodeOfEncode : Prop :=
  ∀ i : Instr, i.wf = true → i.size ≠ 0 → decodeBytes (encode i) = .ok i

/-- R112, R113: a word that decodes is the one word of its instruction, except that many words of major 0x3F are NOP. -/
def Obligations.DecodedWordsAreEncodings : Prop :=
  ∀ (w : Nat) (i : Instr),
    (2 ^ 31 ≤ w → w < 2 ^ 32 → decodeWord true w = .ok i → i.wf = true ∧ i.size = 4 ∧ (i ≠ .nop → encodeWord i = w))
      ∧ (w < 2 ^ 15 → decodeWord false w = .ok i → i.wf = true ∧ i.size = 2 ∧ encodeWord i = w)

/-- Worked encodings of the spec decode to the instructions it names (R110, R142, R151, R197). -/
def Obligations.WorkedEncodings : Prop :=
  decodeWord true 0x8068A003 = .ok (.add 3 4 5 3)
    ∧ decodeWord false 0x08D4 = .ok (.add16 3 5)
    ∧ decodeWord true 0xA05C7003 = .ok (.ldd 2 14 1 3)
    ∧ decodeWord false 0x3083 = .ok (.ldd16 2 3)
    ∧ decodeWord true 0xD442A2E8 = .ok (.mma 4 5 2 2 3 1 0 1)
    ∧ decodeWord true 0x8E000100 = .ok .ret
    ∧ decodeWord true 0x8E0001AA = .ok (.trap 0x2A)
    ∧ decodeWord true 0x8E800292 = .ok (.mfs 4 0x12)
    ∧ decodeWord true 0xA46AC8D8 = .ok (.lddX 3 5 6 2 3)

/-- R107, R69: a step in which a core's turn comes runs the instruction that fetch finds for the thread that issues, in the
state with the core's cycle at the issue slot and that thread current; then time passes.  Where the core's instruction store
holds the bytes at the pc and the pc's window allows them, that is the instruction they decode to.

R107, R112, R114: bytes at the pc that decode to no instruction make the thread trap with ILLEGAL, epc naming them.

The order of turns, the range of the instruction store and the passage of time are the model's choices (logs 3, 5, 8). -/
def Obligations.StepRunsTheDecodedInstruction : Prop :=
  (∀ (s : State) (c cycle t : Nat) (i : Instr),
      s.powered = true → s.turn = some (.core c) → s.nextIssue c ((s.core c).cycle + 1) (slotCount c) = some (cycle, t) →
      (s.thread t).due = none →
      let x := s.thread t
      let s' : State := { s.setCore c { s.core c with cycle := cycle } with cur := t }
      let k := s'.core (coreOf t)
      let w := x.window_ (BitVec.ofNat 3 (x.pc.toNat / 2 ^ 61))
      let off := x.pc.toNat % 2 ^ 61
      let va := Win.base w + off
      (∀ s'', fetch s' = .ok i s'' → step s = mapNext (State.passTime s.tick) (exec i s''))
        ∧ (off % 2 = 0 → off + i.size ≤ Win.limit w + 1 → Win.valid w = true → Win.has w .x = true → Win.onChip w = false →
          k.ibase.toNat ≤ va → va + i.size ≤ k.ibase.toNat + 0x8000 →
          i.size ≠ 0 → decodeBytes (k.istore.readN (va - k.ibase.toNat) i.size) = .ok i →
          step s = mapNext (State.passTime s.tick) (exec i s')))
  ∧ (∀ (s : State) (e : DecodeError), s.now.due = none → s.Handles →
      let x := s.now
      let k := s.core (coreOf s.cur)
      let w := x.window_ (BitVec.ofNat 3 (x.pc.toNat / 2 ^ 61))
      let off := x.pc.toNat % 2 ^ 61
      let va := Win.base w + off
      off % 2 = 0 → off + 4 ≤ Win.limit w + 1 → Win.valid w = true → Win.has w .x = true → Win.onChip w = false →
      k.ibase.toNat ≤ va → va + 4 ≤ k.ibase.toNat + 0x8000 →
      decodeBytes (k.istore.readN (va - k.ibase.toNat) 4) = .error e →
      s.issueNext = .next (s.trapped .illegal 0))

/-- R32, R34, R360: who issues in the slot of a cycle, on a core that runs (neither killed, nor under test, nor stopped for a
program load) threads with no page service pending, whose launches are in no gang switch.  A slot that the power controller has
removed issues nothing new: its thread is HELD, and only an instruction of it in flight is brought to its end there.  Another slot
gives its turn to its owner where that is READY, else to the owner's partner, thread s XOR 4, where that is READY, else to nobody.
The search over the next n cycles finds the first in which somebody issues.

That an instruction in flight is brought to its end by issuing it again is the model's form (log 4). -/
def Obligations.SlotRotation : Prop :=
  ∀ (s : State) (c : Nat), isControl c = false → c % 8 = 0 →
    (s.core c).killed = false → (s.core c).testing = false → (s.core c).stopped = false →
    (∀ t, coreOf t = c → (s.thread t).pages = [] ∧ s.pastTau (s.thread t).epoch = false ∧ s.offline (s.thread t).epoch = false) →
    let gone := fun (slot : Nat) => (s.core c).removed.getLsbD slot
    let ready := fun (slot : Nat) => (s.thread (c + slot)).status == .ready && (!gone slot || (s.thread (c + slot)).underway)
    (∀ slot, slot < 8 → gone slot = true → (s.thread (c + slot)).underway = false → s.issuerIn c slot = none)
      ∧ (∀ slot, slot < 8 → gone slot = true → (s.thread (c + slot)).underway = true → s.issuerIn c slot = some (c + slot))
      ∧ (∀ slot, slot < 8 → gone slot = false → ready slot = true → s.issuerIn c slot = some (c + slot))
      ∧ (∀ slot, slot < 8 → gone slot = false → ready slot = false → ready (slot ^^^ 4) = true → s.issuerIn c slot = some (c + (slot ^^^ 4)))
      ∧ (∀ slot, slot < 8 → gone slot = false → ready slot = false → ready (slot ^^^ 4) = false → s.issuerIn c slot = none)
      ∧ ∀ n cycle j t, s.nextIssue c cycle n = some (j, t) →
          cycle ≤ j ∧ j < cycle + n ∧ s.issuerIn c (j % 8) = some t ∧ ∀ i, cycle ≤ i → i < j → s.issuerIn c (i % 8) = none

/-- R379, R383, R50, R52, R175, R291: what cold reset leaves, as far as the spec states it.  The launch list, command windows and
codes, vent threads in WFW, no thread READY, memory zero, thresholds, window length and retry defaults; and every memory is in
canonical form and every L1 lists its words in rising order.

That memory outside first tier reads as zero, and the canonical form, are the model's own (log 2). -/
def Obligations.ResetLeaves : Prop :=
  State.reset.fw.launches = [] ∧ State.reset.fw.owner = none
    ∧ (∀ m (h : m < 4), (State.reset.fw.windows[m]).busy = false ∧ (State.reset.fw.windows[m]).code = 0)
    ∧ (∀ t, (State.reset.thread t).status = if isVent t then .wfw else .idle)
    ∧ (∀ t, (State.reset.thread t).trapm = false ∧ (State.reset.thread t).supv = false ∧ (State.reset.thread t).remote = false
        ∧ (State.reset.thread t).dbg = false ∧ (State.reset.thread t).epoch = 0 ∧ (State.reset.thread t).pend = 0
        ∧ (State.reset.thread t).rcto = 20000 ∧ (State.reset.thread t).rcretry = 3)
    ∧ (∀ k, State.reset.mem.read k = 0)
    ∧ (∀ h, (State.reset.home h).teff = 0xFF ∧ (State.reset.home h).queue = [] ∧ (State.reset.home h).bound = 200)
    ∧ (∀ d, State.reset.wlen[d]? = if d < 2 then some 4 else none)
    ∧ State.reset.synced = false
    ∧ State.reset.Canonical

/-- Every step keeps every memory in canonical form (addresses strictly rising, no byte that reads as an unlisted one) and every L1's
words in rising order, each once. -/
def Obligations.StepKeepsMemoriesCanonical : Prop :=
  ∀ s t : State, s.Canonical → step s = .next t → t.Canonical

/-- The memory laws: a canonical memory stays canonical under a write, reads back what was written, and every other byte
reads as before; n bytes written from an address read back as they were written.

Two canonical memories that read alike at every address are the same data.

The form of a memory is the model's own (log 2). -/
def Obligations.MemoryLaws : Prop :=
  (∀ (m : Memory) (a : Nat), m.wf = true →
      (∀ b : Byte, (m.write a b).wf = true ∧ (m.write a b).read a = b ∧ ∀ c, c ≠ a → (m.write a b).read c = m.read c)
        ∧ ∀ bs : List Byte, (m.writeN a bs).wf = true ∧ (m.writeN a bs).readN a bs.length = bs
          ∧ ∀ c, c < a ∨ a + bs.length ≤ c → (m.writeN a bs).read c = m.read c)
  ∧ (∀ m n : Memory, m.wf = true → n.wf = true → (∀ a, m.read a = n.read a) → m = n)


/-! ## Loads and stores -/

/-- The address, size and signedness of every load, with the scalar registers it names besides its destination, and its length. -/
def loadForms (s : State) (d b x : BitVec 4) (w : BitVec 3) (i : BitVec 11) (h : BitVec 2) (u : BitVec 6) :
    List (Instr × List (BitVec 4) × Word × Nat × Bool × Nat) :=
  let md := fun (size : Nat) => w.setWidth 64 <<< 61 + s.val b + i.signExtend 64 * BitVec.ofNat 64 size
  let mx := w.setWidth 64 <<< 61 + s.val b + s.val x <<< h.toNat
  [(.ldb d b w i, [b], md 1, 1, true, 4), (.ldbu d b w i, [b], md 1, 1, false, 4), (.ldh d b w i, [b], md 2, 2, true, 4),
   (.ldhu d b w i, [b], md 2, 2, false, 4), (.ldw d b w i, [b], md 4, 4, true, 4), (.ldwu d b w i, [b], md 4, 4, false, 4),
   (.ldd d b w i, [b], md 8, 8, false, 4), (.ldbX d b x w h, [b, x], mx, 1, true, 4), (.ldbuX d b x w h, [b, x], mx, 1, false, 4),
   (.ldhX d b x w h, [b, x], mx, 2, true, 4), (.ldhuX d b x w h, [b, x], mx, 2, false, 4), (.ldwX d b x w h, [b, x], mx, 4, true, 4),
   (.ldwuX d b x w h, [b, x], mx, 4, false, 4), (.lddX d b x w h, [b, x], mx, 8, false, 4),
   (.ldd16 d u, [14], (1 : Word) <<< 61 + s.val 14 + u.setWidth 64 * 8, 8, false, 2)]

/-- A thread is as it was, but for its monitors and a wait that the firing of one may have ended (R203, R204). -/
def sameButMonitors (s t : State) (j : Nat) : Prop :=
  { t.thread j with mon := (s.thread j).mon, status := (s.thread j).status } = s.thread j

/-- The address and size of every store, with the scalar registers it names besides its data, and its length. -/
def storeForms (s : State) (d b x : BitVec 4) (w : BitVec 3) (i : BitVec 11) (h : BitVec 2) (u : BitVec 6) :
    List (Instr × List (BitVec 4) × Word × Nat × Nat) :=
  let md := fun (size : Nat) => w.setWidth 64 <<< 61 + s.val b + i.signExtend 64 * BitVec.ofNat 64 size
  let mx := w.setWidth 64 <<< 61 + s.val b + s.val x <<< h.toNat
  [(.stb d b w i, [b], md 1, 1, 4), (.sth d b w i, [b], md 2, 2, 4), (.stw d b w i, [b], md 4, 4, 4), (.std d b w i, [b], md 8, 8, 4),
   (.stbX d b x w h, [b, x], mx, 1, 4), (.sthX d b x w h, [b, x], mx, 2, 4), (.stwX d b x w h, [b, x], mx, 4, 4),
   (.stdX d b x w h, [b, x], mx, 8, 4), (.std16 d u, [14], (1 : Word) <<< 61 + s.val 14 + u.setWidth 64 * 8, 8, 2)]

/-- R115, R163, R196, R197: every load from tile memory or vent local memory puts the little-endian bytes at its effective
address into its register, sign- or zero-extended, with a generated residue, and changes nothing else. -/
def Obligations.LoadsFromTileMemory : Prop :=
  ∀ (s : State) (d b x : BitVec 4) (w : BitVec 3) (i : BitVec 11) (h : BitVec 2) (u : BitVec 6),
    ∀ q ∈ loadForms s d b x w i h u, ∀ unit off a,
      let named := q.2.1
      let n := q.2.2.2.1
      s.Issues .loadStore (d :: named) → (∀ r ∈ named, s.Sound r) → s.OnTile q.2.2.1 n [.r] unit off a →
      s.poisonedAt (.tile unit) off n = false →
      let m : BitVec (8 * n) := BitVec.ofNat (8 * n) (s.tileBytes unit off n)
      let v : Word := if q.2.2.2.2.1 then m.signExtend 64 else m.setWidth 64
      exec q.1 s = .next (s.after .loadStore fun t => (t.setReg d ⟨v, BitVec.ofNat 4 (v.toNat % 15)⟩).next q.2.2.2.2.2)

/-- R115, R138, R163, R197: every store to tile memory or vent local memory writes the low bytes of its register, little-
endian, at its effective address; every other byte of that memory, every other core's memories and slots, all of device memory and
the whole of the thread but its pc and what marks the instruction as over are as before, and so is every other thread but for the
monitors that fire. -/
def Obligations.StoresToTileMemory : Prop :=
  ∀ (s : State) (d b x : BitVec 4) (w : BitVec 3) (i : BitVec 11) (h : BitVec 2) (u : BitVec 6),
    ∀ q ∈ storeForms s d b x w i h u, ∀ unit off a,
      let named := q.2.1
      let n := q.2.2.2.1
      s.Issues .loadStore (d :: named) → (∀ r ∈ d :: named, s.Sound r) → s.OnTile q.2.2.1 n [.w] unit off a →
      ∃ t, exec q.1 s = .next t
        ∧ t.core unit = { s.core unit with tile := (s.core unit).tile.writeN off (leBytes n (s.val d).toNat) }
        ∧ (∀ c, c ≠ unit → t.core c = s.core c) ∧ t.mem = s.mem ∧ t.cells = s.cells ∧ t.host = s.host ∧ t.fw = s.fw
        ∧ t.now = s.now.next q.2.2.2.2 ∧ ∀ j, j ≠ s.cur → sameButMonitors s t j

/-- R164, R168, R197, R304: a load through a held translation from this package's memory gives the bytes its home holds, or those
of its core's own L1 where that holds the words; no other register changes.  No byte of memory changes and nothing of another
thread, where the L1 has room and no other thread of the core has left the words dirty; otherwise words that the L1 holds are
written back, and monitors on them fire.

That the access is one step is the model's choice (log 4). -/
def Obligations.LoadsFromMemory : Prop :=
  ∀ (s : State) (d b x : BitVec 4) (w : BitVec 3) (i : BitVec 11) (h : BitVec 2) (u : BitVec 6),
    ∀ q ∈ loadForms s d b x w i h u, ∀ leaf k,
      let named := q.2.1
      let n := q.2.2.2.1
      s.Issues .loadStore (d :: named) → (∀ r ∈ named, s.Sound r) → s.OnPage q.2.2.1 n [.r] leaf k → s.Plain leaf k n → s.Canonical →
      let bytes := (List.range n).map fun j =>
        if isCompute s.cur then wordByte (s.l1Word (coreOf s.cur) ((k + j) / 4)) ((k + j) % 4) else s.mem.read (k + j)
      let m : BitVec (8 * n) := BitVec.ofNat (8 * n) (leNat bytes)
      let v : Word := if q.2.2.2.2.1 then m.signExtend 64 else m.setWidth 64
      ∃ t, exec q.1 s = .next t
        ∧ t.now = { (s.now.setReg d ⟨v, BitVec.ofNat 4 (v.toNat % 15)⟩).next q.2.2.2.2.2 with mon := t.now.mon }
        ∧ (∀ j, j ≠ s.cur → (t.thread j).regs = (s.thread j).regs ∧ (t.thread j).pc = (s.thread j).pc)
        ∧ (∀ c, (t.core c).tile = (s.core c).tile) ∧ t.cells = s.cells ∧ t.host = s.host
        ∧ (isCompute s.cur = false ∨ s.Fits ∧ s.Mine k n →
            t.mem = s.mem ∧ t.now.mon = s.now.mon ∧ ∀ j, j ≠ s.cur → t.thread j = s.thread j)

/-- R162, R197: a store by a vent or control thread through a held translation to this package's memory, of which no L1 holds a
word, is performed at the home: the bytes at its address become the low bytes of the register, and no other byte of memory,
register or tile memory changes; of the thread only the pc moves, of another only monitors fire.

R164: a store by a compute thread, whose L1 has room, through a held translation to DC or SC memory that no L1 holds leaves
memory as it was: its core's L1 owns the words, reads the stored bytes back, and marks them dirty; every byte of those words
that was not stored to reads as before.

R189: in NC memory it needs no home: the L1 holds the words, not owned and marked NC, reads the stored bytes back, and nothing of
any other thread changes.

That the access is one step is the model's choice (log 4). -/
def Obligations.StoresToMemory : Prop :=
  ∀ (s : State) (d b x : BitVec 4) (w : BitVec 3) (i : BitVec 11) (h : BitVec 2) (u : BitVec 6),
    ∀ q ∈ storeForms s d b x w i h u, ∀ leaf k,
      let named := q.2.1
      let n := q.2.2.2.1
      s.Issues .loadStore (d :: named) → (∀ r ∈ d :: named, s.Sound r) → s.OnPage q.2.2.1 n [.w] leaf k → s.Plain leaf k n →
      s.Uncached k n →
      (isCompute s.cur = false →
        ∃ t, exec q.1 s = .next t
          ∧ t.mem = s.mem.writeN k (leBytes n (s.val d).toNat)
          ∧ (∀ c, (t.core c).tile = (s.core c).tile ∧ (t.core c).slots = (s.core c).slots)
          ∧ t.now = s.now.next q.2.2.2.2 ∧ ∀ j, j ≠ s.cur → sameButMonitors s t j)
      ∧ (isCompute s.cur = true → Leaf.cls leaf ≠ 0 → s.Fits →
        ∃ t, exec q.1 s = .next t ∧ t.mem = s.mem
          ∧ (∀ j < n, wordByte (t.l1Word (coreOf s.cur) ((k + j) / 4)) ((k + j) % 4) = BitVec.ofNat 8 ((s.val d).toNat / 256 ^ j))
          ∧ (∀ a, (∀ j < n, k + j ≠ a) → a / 4 ∈ wordsOf k n →
              wordByte (t.l1Word (coreOf s.cur) (a / 4)) (a % 4) = wordByte (s.homeWord (a / 4)) (a % 4))
          ∧ (∀ v ∈ wordsOf k n, ∃ y, Tab.find (t.core (coreOf s.cur)).l1 v = some y ∧ y.owned = true)
          ∧ (∀ c, (t.core c).tile = (s.core c).tile ∧ (t.core c).slots = (s.core c).slots)
          ∧ t.now = s.now.next q.2.2.2.2 ∧ ∀ j, j ≠ s.cur → sameButMonitors s t j)
      ∧ (isCompute s.cur = true → Leaf.cls leaf = 0 → s.Fits →
        ∃ t, exec q.1 s = .next t ∧ t.mem = s.mem
          ∧ (∀ j < n, wordByte (t.l1Word (coreOf s.cur) ((k + j) / 4)) ((k + j) % 4) = BitVec.ofNat 8 ((s.val d).toNat / 256 ^ j))
          ∧ (∀ a, (∀ j < n, k + j ≠ a) → a / 4 ∈ wordsOf k n →
              wordByte (t.l1Word (coreOf s.cur) (a / 4)) (a % 4) = wordByte (s.homeWord (a / 4)) (a % 4))
          ∧ (∀ v ∈ wordsOf k n, ∃ y, Tab.find (t.core (coreOf s.cur)).l1 v = some y ∧ y.owned = false ∧ y.nc = true)
          ∧ (∀ c, (t.core c).tile = (s.core c).tile ∧ (t.core c).slots = (s.core c).slots)
          ∧ t.now = s.now.next q.2.2.2.2 ∧ ∀ j, j ≠ s.cur → t.thread j = s.thread j)

/-- R99, R114, R115, R138, R192: a load or store whose base or index fails its residue traps with RESIDUE before anything
else of its own; then a misaligned address traps with ALIGN, and one that its window does not allow with WINDOW, tval holding the
address; nothing else changes. -/
def Obligations.LoadAndStoreTraps : Prop :=
  ∀ (s : State) (d b x : BitVec 4) (w : BitVec 3) (i : BitVec 11) (h : BitVec 2) (u : BitVec 6) (c : Cause) (v : Word),
    s.Handles →
      (∀ q ∈ loadForms s d b x w i h u, s.Issues .loadStore (d :: q.2.1) → (∀ r ∈ q.2.1, s.Sound r) →
        checkIn s.now.win q.2.2.1 q.2.2.2.1 [.r] = .error (c, v) →
        v = q.2.2.1 ∧ (c = if q.2.2.1.toNat % q.2.2.2.1 ≠ 0 then .align else .window) ∧ exec q.1 s = .next (s.trapped c v))
      ∧ (∀ q ∈ storeForms s d b x w i h u, s.Issues .loadStore (d :: q.2.1) → (∀ r ∈ d :: q.2.1, s.Sound r) →
        checkIn s.now.win q.2.2.1 q.2.2.2.1 [.w] = .error (c, v) →
        v = q.2.2.1 ∧ (c = if q.2.2.1.toNat % q.2.2.2.1 ≠ 0 then .align else .window) ∧ exec q.1 s = .next (s.trapped c v))
      ∧ (∀ q ∈ loadForms s d b x w i h u, ∀ r ∈ q.2.1, s.Issues .loadStore (d :: q.2.1) → ¬ s.Sound r → (∀ j ∈ q.2.1, j ≠ r → s.Sound j) →
        exec q.1 s = .next (s.takeCause s.cur .residue (r.setWidth 64) none none))
      ∧ (∀ q ∈ storeForms s d b x w i h u, ∀ r ∈ d :: q.2.1, s.Issues .loadStore (d :: q.2.1) → ¬ s.Sound r →
        (∀ j ∈ d :: q.2.1, j ≠ r → s.Sound j) → exec q.1 s = .next (s.takeCause s.cur .residue (r.setWidth 64) none none))

/-! ## Atomics, fences, monitors, barriers, maintenance -/

/-- Every atomic: what it writes for the old value, the value operand and the comparand, how the old value is extended, and
the registers it uses. -/
def atomicForms (d b v : BitVec 4) (w : BitVec 3) (z : BitVec 1) (o : BitVec 2) (y : BitVec 1) (n : Nat) :
    List (Instr × (BitVec n → BitVec n → BitVec n → Option (BitVec n)) × Bool × List (BitVec 4)) :=
  [(.aadd d b v w z o y, fun old x _ => some (old + x), true, [b, v]),
   (.amin d b v w z o y, fun old x _ => some (if old.toInt ≤ x.toInt then old else x), true, [b, v]),
   (.aminu d b v w z o y, fun old x _ => some (if old.toNat ≤ x.toNat then old else x), false, [b, v]),
   (.amax d b v w z o y, fun old x _ => some (if old.toInt ≤ x.toInt then x else old), true, [b, v]),
   (.amaxu d b v w z o y, fun old x _ => some (if old.toNat ≤ x.toNat then x else old), false, [b, v]),
   (.aand d b v w z o y, fun old x _ => some (old &&& x), true, [b, v]),
   (.aor d b v w z o y, fun old x _ => some (old ||| x), true, [b, v]),
   (.axor d b v w z o y, fun old x _ => some (old ^^^ x), true, [b, v]),
   (.aswap d b v w z o y, fun _ x _ => some x, true, [b, v]),
   (.acas d b v w z o y, fun old x c => if old = c then some x else none, true, [b, v, d])]

/-- R115, R198, R199: each atomic on tile memory or vent local memory reads the word, writes the new value its table gives (ACAS only
where the old value is the comparand), and leaves the old value, sign- or zero-extended, in its destination.  Its release
writes words of the core's L1 back before; no other byte of any local memory, no slot, register or thread changes, but that
monitors on what is written may fire. -/
def Obligations.AtomicsOnTileMemory : Prop :=
  ∀ (s : State) (d b v : BitVec 4) (w : BitVec 3) (z : BitVec 1) (o : BitVec 2) (y : BitVec 1) (unit off a : Nat),
    let n := if z = 1 then 64 else 32
    let ea : Word := w.setWidth 64 <<< 61 + s.val b
    ∀ q ∈ atomicForms d b v w z o y n,
      s.Issues .atomic [d, b, v] → (∀ r ∈ q.2.2.2, s.Sound r) → s.OnTile ea (n / 8) [.a, .w] unit off a →
      s.poisonedAt (.tile unit) off (n / 8) = false → s.Unmixed (2 ^ 72 + a) (n / 8) →
      let old : BitVec n := BitVec.ofNat n (s.tileBytes unit off (n / 8))
      let out : Word := if q.2.2.1 then old.signExtend 64 else old.setWidth 64
      ∃ t, exec q.1 s = .next t
        ∧ (t.core unit).tile = (match q.2.1 old ((s.val v).setWidth n) ((s.val d).setWidth n) with
            | some x => (s.core unit).tile.writeN off (leBytes (n / 8) x.toNat)
            | none => (s.core unit).tile)
        ∧ t.now = { (s.now.setReg d ⟨out, BitVec.ofNat 4 (out.toNat % 15)⟩).next 4 with mon := t.now.mon }
        ∧ (o.getLsbD 1 = false → t.now.mon = s.now.mon)
        ∧ t.mem = (if o.getLsbD 1 then (s.release s.cur).mem else s.mem) ∧ t.cells = s.cells ∧ t.host = s.host
        ∧ (∀ c, (c ≠ unit → (t.core c).tile = (s.core c).tile) ∧ (t.core c).slots = (s.core c).slots
            ∧ (t.core c).accs = (s.core c).accs)
        ∧ ∀ j, j ≠ s.cur → (t.thread j).regs = (s.thread j).regs ∧ (t.thread j).pc = (s.thread j).pc

/-- R169, R193, R198, R199, R304: each atomic through a held translation to this package's memory that no L1 holds is one
read-modify-write: the bytes at its home become the new value, and the destination takes the old one; by a compute thread on
DC or SC memory its core, whose L1 has room, then owns the words and its L1 reads the new value; on NC memory, as by a vent or
control thread, no L1 holds the words after it.  No other byte of memory changes but by its own release.

R329: by a thread with DBG set, on a line of an SC page without SYSATOM that a host port has just read, it traps with HOSTATOM and changes
nothing.

That the access is one step, and that the home has the new value at once, are the model's choices (logs 4 and 12). -/
def Obligations.AtomicsOnMemory : Prop :=
  ∀ (s : State) (d b v : BitVec 4) (w : BitVec 3) (z : BitVec 1) (o : BitVec 2) (y : BitVec 1) (leaf : Word) (k : Nat),
    let n := if z = 1 then 64 else 32
    let ea : Word := w.setWidth 64 <<< 61 + s.val b
    ∀ q ∈ atomicForms d b v w z o y n,
      s.Issues .atomic [d, b, v] → (∀ r ∈ q.2.2.2, s.Sound r) → s.OnPage ea (n / 8) [.a, .w] leaf k → s.Plain leaf k (n / 8) →
      s.Uncached k (n / 8) → s.Canonical → s.Unmixed k (n / 8) → s.Fits →
      (s.now.dbg = true → s.hostReadLately (.mem leaf k false) = true → s.Handles → exec q.1 s = .next (s.trapped .hostatom ea)) ∧
      ((s.now.dbg = true → s.hostReadLately (.mem leaf k false) = false) →
      let old : BitVec n := BitVec.ofNat n (leNat (s.mem.readN k (n / 8)))
      let out : Word := if q.2.2.1 then old.signExtend 64 else old.setWidth 64
      let new := (q.2.1 old ((s.val v).setWidth n) ((s.val d).setWidth n)).getD old
      let before := if o.getLsbD 1 then (s.release s.cur).mem else s.mem
      ∃ t, exec q.1 s = .next t
        ∧ t.now = { (s.now.setReg d ⟨out, BitVec.ofNat 4 (out.toNat % 15)⟩).next 4 with mon := t.now.mon }
        ∧ (o.getLsbD 1 = false → t.now.mon = s.now.mon)
        ∧ (∀ i < n / 8, t.mem.read (k + i) = BitVec.ofNat 8 (new.toNat / 256 ^ i))
        ∧ (∀ a, (a < k ∨ k + n / 8 ≤ a) → t.mem.read a = before.read a)
        ∧ (isCompute s.cur = true → Leaf.cls leaf ≠ 0 →
            (∀ i < n / 8, wordByte (t.l1Word (coreOf s.cur) ((k + i) / 4)) ((k + i) % 4) = BitVec.ofNat 8 (new.toNat / 256 ^ i))
            ∧ ∀ u ∈ wordsOf k (n / 8), ∃ x, Tab.find (t.core (coreOf s.cur)).l1 u = some x ∧ x.owned = true)
        ∧ (isCompute s.cur = false ∨ Leaf.cls leaf = 0 → t.Uncached k (n / 8))
        ∧ (∀ c, (t.core c).tile = (s.core c).tile ∧ (t.core c).slots = (s.core c).slots) ∧ t.cells = s.cells
        ∧ ∀ j, j ≠ s.cur → sameButMonitors s t j)

/-- R164, R176, R178, R201: FENCE.ACQ drops exactly the L1 words of DC and SC memory that the core does not own; FENCE.REL writes
back the dirty bytes of exactly the words it owns; FENCE.ALL does both, in that order.  They complete when no window
boundary, refused lease or bias flip is outstanding; a refused lease makes the releasing ones trap with LEASE_EXPIRED after all
else, and no fence touches a general register.

That a fence is one step is the model's choice (log 4). -/
def Obligations.FenceResults : Prop :=
  ∀ s : State, s.Issues .fence [] →
    let c := coreOf s.cur
    let l1 := (s.core c).l1
    let settled := (∀ m, s.now.window = some m → m + 2 ≤ s.windowNow) ∧ s.now.bias.all (fun b => b.outcome == some true) = true
    let cleaned := l1.map fun e => if e.2.owned then (e.1, { e.2 with dirty := 0 }) else e
    let keeps := fun (t : State) => (∀ j, (t.core j).tile = (s.core j).tile ∧ (t.core j).slots = (s.core j).slots)
      ∧ (∀ j, j ≠ s.cur → (t.thread j).regs = (s.thread j).regs ∧ (t.thread j).pc = (s.thread j).pc)
      ∧ t.now.regs = s.now.regs ∧ t.cells = s.cells ∧ t.host = s.host
    let released := fun (t : State) => t.now = { s.now.next 4 with window := none, bias := [], mon := t.now.mon }
    let wrote := fun (t : State) =>
      (∀ e ∈ l1, e.2.owned = true → t.homeWord e.1 = mergeWord (s.homeWord e.1) e.2.val e.2.dirty)
        ∧ ∀ a, (∀ e ∈ l1, e.2.owned = true → e.1 ≠ a / 4) → t.mem.read a = s.mem.read a
    (∃ t, exec .fenceAcq s = .next t ∧ t.now = s.now.next 4 ∧ t.mem = s.mem ∧ keeps t ∧ (∀ j, j ≠ s.cur → t.thread j = s.thread j)
      ∧ (isCompute s.cur = true → (t.core c).l1 = l1.filter fun e => e.2.owned || e.2.nc))
    ∧ (isCompute s.cur = true → s.Canonical → settled → s.now.lease = none →
        (∃ t, exec .fenceRel s = .next t ∧ released t ∧ keeps t ∧ wrote t ∧ (t.core c).l1 = cleaned)
        ∧ ∃ t, exec .fenceAll s = .next t ∧ released t ∧ keeps t ∧ wrote t
          ∧ (t.core c).l1 = cleaned.filter fun e => e.2.owned || e.2.nc)
    ∧ (isCompute s.cur = false → settled → s.now.lease = none →
        ∀ i ∈ [Instr.fenceRel, .fenceAll], ∃ t, exec i s = .next t ∧ released t ∧ keeps t ∧ t.mem = s.mem ∧ ∀ c, (t.core c).l1 = (s.core c).l1)
    ∧ (∀ a, settled → s.now.lease = some a → s.Handles →
        ∀ i ∈ [Instr.fenceRel, .fenceAll], ∃ t, exec i s = .next t ∧ keeps t ∧ t.now.lease = none ∧ t.now.tcause = 0x0C
          ∧ t.now.epc = s.now.pc ∧ t.now.pc = s.now.tvec ∧ t.now.trapm = true)

/-- R203, R204, R205, R115: MARM reads the aligned dword and arms monitor N on it, disarming what N watched and clearing its latch; on NC
memory the monitor fires at once.  MWAIT writes the latches to its register and clears them, returns 0 at once where
nothing is armed or its time has passed, and otherwise waits; MDIS disarms the monitors of its mask and clears their latches. -/
def Obligations.MonitorResults : Prop :=
  ∀ (s : State) (d a : BitVec 4) (n : BitVec 2) (m : BitVec 4),
    let ea := s.val a
    let put := fun (t : Thread) (x : Word) => t.setReg d ⟨x, BitVec.ofNat 4 (x.toNat % 15)⟩
    let latched : BitVec 4 := BitVec.ofBool s.now.mon[3].latch ++ BitVec.ofBool s.now.mon[2].latch
      ++ BitVec.ofBool s.now.mon[1].latch ++ BitVec.ofBool s.now.mon[0].latch
    (s.Issues .fence [d, a] →
      (∀ u off g, s.OnTile ea 8 [.r] u off g → s.poisonedAt (.tile u) off 8 = false → s.Unmixed (2 ^ 72 + g) 8 →
        ∃ t, exec (.marm d a n) s = .next t
          ∧ t.now = (put { s.now with mon := s.now.mon.set n.toNat ⟨2 ^ 72 + g, true, false⟩ n.isLt }
              (BitVec.ofNat 64 (s.tileBytes u off 8))).next 4
          ∧ t.mem = s.mem ∧ (∀ c, (t.core c).tile = (s.core c).tile) ∧ ∀ j, j ≠ s.cur → t.thread j = s.thread j)
      ∧ (∀ leaf k, s.OnPage ea 8 [.r] leaf k → s.Plain leaf k 8 → s.Uncached k 8 → s.Unmixed k 8 →
        ∃ t, exec (.marm d a n) s = .next t
          ∧ t.now = (put { s.now with mon := s.now.mon.set n.toNat (if Leaf.cls leaf = 0 then ⟨k, false, true⟩ else ⟨k, true, false⟩) n.isLt }
              (BitVec.ofNat 64 (leNat (s.mem.readN k 8)))).next 4
          ∧ t.mem = s.mem ∧ (∀ c, (t.core c).tile = (s.core c).tile) ∧ ∀ j, j ≠ s.cur → t.thread j = s.thread j)
      ∧ ((latched ≠ 0 ∨ s.now.expired = true ∨ ∀ x ∈ s.now.mon.toList, x.armed = false) →
        ∃ t, exec (.mwait d a) s = .next t
          ∧ t.now = (put { s.now with mon := s.now.mon.map fun x => { x with latch := false } } (latched.setWidth 64)).next 4
          ∧ t.mem = s.mem ∧ t.cores = s.cores ∧ ∀ j, j ≠ s.cur → t.thread j = s.thread j)
      ∧ (latched = 0 → s.now.expired = false → (∃ x ∈ s.now.mon.toList, x.armed = true) →
        ∃ t, exec (.mwait d a) s = .next t ∧ t.now = { s.now with status := .wait .monitor, since := none, begun := some .monitor }
          ∧ (ea ≠ 0 → Happening.mwaitTimeout s.cur ∈ t.agenda)))
    ∧ (s.Issues .fence [] →
      exec (.mdis m) s = .next (s.after .fence fun t => Thread.next
        { t with mon := t.mon.mapIdx fun i x => if m.getLsbD i then { x with armed := false, latch := false } else x } 4))

/-- R193, R206, R207, R283: BARA and BARD trap with BARRIER on a dword that cannot take an arrival; otherwise they put PHASE in
their register, BARD takes one from EXPECTED, both take one from PENDING, and the last arrival starts the next phase.  BARW goes on
when PHASE differs from its operand, and waits while it does not; JOIN goes on when its word is zero, and waits while it is
not.  Shown on tile memory, whose other bytes stay as they are.

Where JOIN may read is the model's reading (log 27). -/
def Obligations.BarrierResults : Prop :=
  ∀ (s : State) (d a b : BitVec 4) (unit off g : Nat), s.poisonedAt (.tile unit) off 8 = false → s.Unmixed (2 ^ 72 + g) 8 →
    let ea := s.val a
    let w : Word := BitVec.ofNat 64 (s.tileBytes unit off 8)
    let e : BitVec 16 := w.extractLsb' 0 16
    let p : BitVec 16 := w.extractLsb' 16 16
    let h : BitVec 32 := w.extractLsb' 32 32
    let after := fun (e : BitVec 16) => if p = 1 then (h + 1) ++ e ++ e else h ++ (p - 1) ++ e
    let keeps := fun (t : State) => (∀ c, c ≠ unit → (t.core c).tile = (s.core c).tile)
      ∧ ∀ j, j ≠ s.cur → (t.thread j).regs = (s.thread j).regs ∧ (t.thread j).pc = (s.thread j).pc
    (s.Issues .barrier [d, a] → s.OnTile ea 8 [.a, .w] unit off g →
      (p ≠ 0 → e ≠ 0 → p.toNat ≤ e.toNat → ∀ q ∈ [(Instr.bara d a, e), (.bard d a, e - 1)],
        ∃ t, exec q.1 s = .next t
          ∧ t.now = { (s.now.setReg d ⟨h.setWidth 64, BitVec.ofNat 4 (h.toNat % 15)⟩).next 4 with mon := t.now.mon }
          ∧ (t.core unit).tile = (s.core unit).tile.writeN off (leBytes 8 (after q.2).toNat)
          ∧ t.mem = (s.release s.cur).mem ∧ keeps t)
      ∧ ((p = 0 ∨ e = 0 ∨ e.toNat < p.toNat) → s.Handles →
        exec (.bara d a) s = .next (s.trapped .barrier ea) ∧ exec (.bard d a) s = .next (s.trapped .barrier ea)))
    ∧ (s.Issues .barrier [a, b] → s.OnTile ea 8 [.r] unit off g →
      (h ≠ (s.val b).setWidth 32 → ∃ t, exec (.barw a b) s = .next t ∧ t.now = s.now.next 4 ∧ t.mem = s.mem
        ∧ (t.core unit).tile = (s.core unit).tile ∧ keeps t)
      ∧ (h = (s.val b).setWidth 32 → ∃ t, exec (.barw a b) s = .next t
        ∧ t.now = { s.now with status := .wait (.barrier (2 ^ 72 + g)), since := none, begun := some (.barrier (2 ^ 72 + g)) } ∧ t.mem = s.mem ∧ t.cores = s.cores))
    ∧ (s.Issues .task [a] → s.OnTile ea 8 [.r] unit off g →
      (w = 0 → ∃ t, exec (.join a) s = .next t ∧ t.now = s.now.next 4 ∧ t.mem = s.mem
        ∧ (t.core unit).tile = (s.core unit).tile ∧ keeps t)
      ∧ (w ≠ 0 → ∃ t, exec (.join a) s = .next t
        ∧ t.now = { s.now with status := .wait (.join (2 ^ 72 + g)), since := none, begun := some (.join (2 ^ 72 + g)) } ∧ t.mem = s.mem ∧ t.cores = s.cores))

/-- What lies in the i-th page of n bytes at an effective address: its first address, and how many of the bytes (R202). -/
def pageShare (ea : Word) (n i : Nat) : Word × Nat :=
  let before := if i = 0 then 0 else 4096 * i - ea.toNat % 4096
  (ea + BitVec.ofNat 64 before, min (n - before) (if i = 0 then 4096 - ea.toNat % 4096 else 4096))

/-- R115, R189, R202: FLUSH and INVAL of no bytes change nothing but the pc, and of more than 2^24 trap with WINDOW.  Over the pages of
a region, each reached by a held translation, FLUSH writes back the dirty bytes of the core's words in the lines covered; INVAL of
DC or SC memory drops the words there that the core does not own, and INVAL of NC memory does what FLUSH does and then drops the lines
from the core's L1 and from their L2 homes.  Other bytes of memory, and all registers, stay as they are.

That maintenance works on 64-byte lines is the model's reading (log 22). -/
def Obligations.MaintenanceResults : Prop :=
  ∀ (s : State) (a b : BitVec 4), s.Issues .maintain [a, b] →
    let ea := s.val a
    let n := (s.val b).toNat
    let l1 := (s.core (coreOf s.cur)).l1
    (n = 0 → exec (.flush a b) s = .next (s.after .maintain (·.next 4)) ∧ exec (.inval a b) s = .next (s.after .maintain (·.next 4)))
      ∧ (2 ^ 24 < n → s.Handles →
        exec (.flush a b) s = .next (s.trapped .window (s.val b)) ∧ exec (.inval a b) s = .next (s.trapped .window (s.val b)))
      ∧ ∀ (page : Nat → Word × Nat) (last : Space), 0 < n → n ≤ 2 ^ 24 → checkIn s.now.win (ea + s.val b - 1) 1 [.r] = .ok last →
        let pages := List.range ((ea.toNat % 4096 + n + 4095) / 4096)
        (∀ i ∈ pages, s.OnPage (pageShare ea n i).1 1 [.r] (page i).1 (page i).2 ∧ packageOf (page i).2 = s.package ∧ areaOf (page i).2 ≠ .view) →
        s.Distinct → s.Canonical →
        let covered := fun (x : Nat) => pages.any fun i =>
          decide ((page i).2 / 64 * 64 ≤ x) && decide (x < ((page i).2 + (pageShare ea n i).2 + 63) / 64 * 64)
        let inside := fun (w : Nat) => covered (4 * w)
        let keeps := fun (t : State) => t.now = { s.now.next 4 with mon := t.now.mon } ∧ (∀ c, (t.core c).tile = (s.core c).tile)
          ∧ (∀ j, j ≠ s.cur → sameButMonitors s t j) ∧ ∀ c, c ≠ coreOf s.cur → (t.core c).l1 = (s.core c).l1
        let flushed := fun (t : State) => (∀ e ∈ l1, inside e.1 = true → t.homeWord e.1 = mergeWord (s.homeWord e.1) e.2.val e.2.dirty)
          ∧ ∀ x, (∀ e ∈ l1, inside e.1 = true → e.1 ≠ x / 4) → t.mem.read x = s.mem.read x
        let cleaned := l1.map fun e => if inside e.1 then (e.1, { e.2 with dirty := 0 }) else e
        (∃ t, exec (.flush a b) s = .next t ∧ keeps t ∧ flushed t ∧ (t.core (coreOf s.cur)).l1 = cleaned)
        ∧ ((∀ i ∈ pages, Leaf.cls (page i).1 ≠ 0) → ∃ t, exec (.inval a b) s = .next t ∧ keeps t ∧ t.mem = s.mem ∧ t.now.mon = s.now.mon
          ∧ (t.core (coreOf s.cur)).l1 = l1.filter fun e => e.2.owned || !inside e.1)
        ∧ ((∀ i ∈ pages, Leaf.cls (page i).1 = 0) → ∃ t, exec (.inval a b) s = .next t ∧ keeps t ∧ flushed t
          ∧ (t.core (coreOf s.cur)).l1 = cleaned.filter (fun e => e.2.owned || !inside e.1)
          ∧ ∀ x, covered x = true → t.resident x = false)

/-! ## Tentative stores, sealing, the merge log -/

/-- R188, R210, R211, R212, R213: TSTW and TSTD on a cell of DC or SC memory that is not tentative write the cell and record its former value,
its owner and that nothing has observed it; on the thread's own cell of that size they write the new value and record nothing; on bytes
that meet any other cell they trap with TENT_BUSY; and where the slice's pair buffer is full they wait, and trap with TENT_FULL once
their time is over.  COMMIT of the thread's own cell ends its tentative state and leaves memory
alone; RETRACT writes the former value back and falls through where nothing observed the cell, and otherwise, or where no cell of
the thread begins there, branches with memory as it was.

That the line leaves the other L1s is the model's reading (log 23). -/
def Obligations.TentativeResults : Prop :=
  ∀ (s : State) (d b a : BitVec 4) (w : BitVec 3) (i : BitVec 11) (o : BitVec 14) (leaf : Word) (k : Nat),
    areaOf k = .firstTier ∨ areaOf k = .secondTier → packageOf k = s.package → Leaf.cls leaf ≠ 0 → s.hostBias k = false →
    s.inTransition k = false →
    let home := (s.touch s.cur leaf k).lineHome leaf k
    let slice := home.1 * 8 + home.2
    let target : Word := s.now.pc + (o.signExtend 64 : Word) <<< 1
    let keeps := fun (t : State) => (∀ c, (t.core c).tile = (s.core c).tile)
      ∧ (∀ j, j ≠ s.cur → (t.thread j).regs = (s.thread j).regs ∧ (t.thread j).pc = (s.thread j).pc)
    (∀ q ∈ [(Instr.tstw d b w i, 4), (.tstd d b w i, 8)],
      let ea : Word := w.setWidth 64 <<< 61 + s.val b + i.signExtend 64 * BitVec.ofNat 64 q.2
      s.Issues .tentative [d, b] → s.Sound d → s.Sound b → s.OnPage ea q.2 [.t, .w] leaf k → s.Plain leaf k q.2 →
      s.Uncached (k / 64 * 64) 64 → s.Uncached k q.2 → s.Unmixed k q.2 → s.pairUse slice < 128 →
      ∃ t, exec q.1 s = .next t ∧ t.now = s.now.next 4
        ∧ t.mem = s.mem.writeN k (leBytes q.2 (s.val d).toNat)
        ∧ t.cells = ⟨k, q.2, BitVec.ofNat 64 (leNat (s.mem.readN k q.2)), s.cur, s.now.epoch, false, slice, ea, false⟩ :: s.cells ∧ keeps t)
    ∧ (∀ q ∈ [(Instr.tstw d b w i, 4), (.tstd d b w i, 8)],
      let ea : Word := w.setWidth 64 <<< 61 + s.val b + i.signExtend 64 * BitVec.ofNat 64 q.2
      s.Issues .tentative [d, b] → s.Sound d → s.Sound b → s.OnPage ea q.2 [.t, .w] leaf k → s.HomeFree leaf k q.2 →
      let own := fun (c : Cell) => c.key = k ∧ c.size = q.2 ∧ c.owner = s.cur ∧ c.epoch = s.now.epoch
      (∀ c, s.cellsAt k q.2 = [c] → own c → s.Uncached k q.2 → s.Unmixed k q.2 → s.sealsAt k q.2 = [] → s.logged k q.2 = [] →
        ∃ t, exec q.1 s = .next t ∧ t.now = s.now.next 4 ∧ t.mem = s.mem.writeN k (leBytes q.2 (s.val d).toNat) ∧ t.cells = s.cells ∧ keeps t)
      ∧ (s.cellsAt k q.2 ≠ [] → (∀ c, s.cellsAt k q.2 = [c] → ¬ own c) → s.Handles → exec q.1 s = .next (s.trapped .tentBusy ea))
      ∧ (s.cellsAt k q.2 = [] → 128 ≤ s.pairUse slice →
        (s.now.expired = false → ∃ t, exec q.1 s = .next t ∧ t.now = s.now.enter .pairBuffer s.gtime
          ∧ Happening.tentFullTimeout s.cur ∈ t.agenda ∧ t.mem = s.mem ∧ t.cells = s.cells ∧ keeps t)
        ∧ (s.now.expired = true → s.Handles → exec q.1 s = .next (s.trapped .tentFull ea))))
    ∧ (s.OnPage (s.val a) 4 [.t, .w] leaf k → s.now.answered = true → s.underTest (memLine k 4) = false →
      (∀ c, s.cells.find? (fun c => c.key == k && c.owner == s.cur && c.epoch == s.now.epoch) = some c →
        s.Unmixed k c.size → s.sealBusy k c.size = false → s.isArmed k c.size = false → s.logged k c.size = [] →
        (s.Issues .cell [a] → ∃ t, exec (.commit a) s = .next t ∧ t.now = s.now.next 4 ∧ t.mem = s.mem
          ∧ t.cells = s.cells.filter (· != c) ∧ keeps t)
        ∧ (s.Issues .tentative [a] → ∃ t, exec (.retract a o) s = .next t
          ∧ t.now = (if c.seen then s.now.jump target else s.now.next 4)
          ∧ t.mem = (if c.seen then s.mem else s.mem.writeN k (leBytes c.size c.former.toNat))
          ∧ t.cells = s.cells.filter (· != c) ∧ keeps t))
      ∧ ((∀ c ∈ s.cells, ¬ (c.key = k ∧ c.owner = s.cur ∧ c.epoch = s.now.epoch)) → s.isArmed k 4 = false →
        (s.Issues .cell [a] → ∃ t, exec (.commit a) s = .next t ∧ t.now = s.now.next 4 ∧ t.mem = s.mem ∧ t.cells = s.cells ∧ keeps t)
        ∧ (s.Issues .tentative [a] → ∃ t, exec (.retract a o) s = .next t ∧ t.now = s.now.jump target ∧ t.mem = s.mem
          ∧ t.cells = s.cells ∧ keeps t)))

/-- R193, R208: each DUPD on first-tier DC or SC memory of this package adds one entry, with its target, operation, width, value and
launch epoch, at the end of its pseudo-channel's log, and changes no byte of memory and no register.

R173, R214: SEAL of a region of DC memory, here within one page, releases the thread's writes and registers the region for its die
with a copy count of 0; a region already sealed as it stands is only released.  A start that is no multiple of 64 traps with ALIGN,
and a length of 0, no multiple of 64 or above 16 MiB with SINTER, tval holding the start, with nothing else changed. -/
def Obligations.DupdAndSealResults : Prop :=
  (∀ (s : State) (b v : BitVec 4) (w : BitVec 3) (z : BitVec 1) (leaf : Word) (k : Nat),
      let n := if z = 1 then 8 else 4
      let h := (localOf k - 0x8000000000) / 2 ^ 30
      s.Issues .dupd [b, v] → s.Sound b → s.Sound v → s.OnPage (w.setWidth 64 <<< 61 + s.val b) n [.a, .w] leaf k →
      s.now.answered = true → s.inTransition k = false →
      packageOf k = s.package → areaOf k = .firstTier → Leaf.cls leaf ≠ 0 → s.hostBias k = false → (s.home h).log.length < 16384 →
      ∀ q ∈ [(Instr.dupdAdd b v w z, (0 : BitVec 4)), (.dupdFadd b v w z, 1), (.dupdMin b v w z, 2), (.dupdMax b v w z, 3),
          (.dupdAnd b v w z, 4), (.dupdOr b v w z, 5), (.dupdXor b v w z, 6)],
        ∃ t, exec q.1 s = .next t ∧ t.now = s.now.next 4 ∧ t.mem = s.mem ∧ t.cores = s.cores
          ∧ (t.home h).log = (s.home h).log ++ [⟨k, q.2, z == 1, s.val v, s.now.epoch⟩]
          ∧ (∀ j, j ≠ h → t.home j = s.home j) ∧ ∀ j, j ≠ s.cur → t.thread j = s.thread j)
  ∧ (∀ (s : State) (a b : BitVec 4), s.Issues .seal [a, b] →
      let ea := s.val a
      let n := (s.val b).toNat
      (s.Handles → ea.toNat % 64 ≠ 0 → exec (.seal a b) s = .next (s.trapped .align ea))
        ∧ (s.Handles → ea.toNat % 64 = 0 → (n = 0 ∨ n % 64 ≠ 0 ∨ 2 ^ 24 < n) → exec (.seal a b) s = .next (s.trapped .sinter ea))
        ∧ ∀ leaf k va, ea.toNat % 64 = 0 → 0 < n → n % 64 = 0 → ea.toNat % 4096 + n ≤ 4096 → s.OnPage ea 1 [.w] leaf k →
          checkIn s.now.win (ea + s.val b - 1) 1 [.w] = .ok (.virt va) → packageOf k = s.package →
          areaOf k = .firstTier ∨ areaOf k = .secondTier → Leaf.cls leaf = 1 →
          let keeps := fun (t : State) => t.now = { s.now.next 4 with mon := t.now.mon } ∧ t.mem = (s.release s.cur).mem
            ∧ (∀ c, (t.core c).tile = (s.core c).tile)
            ∧ ∀ j, j ≠ s.cur → (t.thread j).regs = (s.thread j).regs ∧ (t.thread j).pc = (s.thread j).pc
          ((∀ r ∈ s.sealed, r.touches k n = false) → (s.sealed.filter (fun r => r.die == dieOf s.cur)).length < 256 →
            ∃ t, exec (.seal a b) s = .next t ∧ keeps t ∧ t.sealed = s.sealed ++ [⟨dieOf s.cur, [(k, n)], 0⟩])
          ∧ ((∃ r ∈ s.sealed, r.parts = [(k, n)]) → ∃ t, exec (.seal a b) s = .next t ∧ keeps t ∧ t.sealed = s.sealed))


/-! ## Vector instructions -/

/-- Every lane operation on integers of width n: whether it takes the iterative pipe, and the result from the lanes of va, vb
and vd (R71, R225). -/
def integerLanes (d a b k : BitVec 3) (z : BitVec 1) (t : BitVec 4) (n : Nat) :
    List (Instr × Bool × (BitVec n → BitVec n → BitVec n → BitVec n)) :=
  let sg := decide (t.toNat < 4)
  let num := fun (x : BitVec n) => if sg then x.toInt else (x.toNat : Int)
  let clamp := fun (i : Int) => BitVec.ofInt n (if sg then max (-(2 : Int) ^ (n - 1)) (min ((2 : Int) ^ (n - 1) - 1) i) else max 0 (min ((2 : Int) ^ n - 1) i))
  [(.vadd d a b k z t 0, false, fun x y _ => x + y), (.vsub d a b k z t 0, false, fun x y _ => x - y),
   (.vmul d a b k z t 0, false, fun x y _ => x * y),
   (.vmulh d a b k z t, false, fun x y _ => BitVec.ofInt n (num x * num y / 2 ^ n)),
   (.vdiv d a b k z t 0, true, fun x y _ => if y = 0 then BitVec.allOnes n else if sg then x.sdiv y else x / y),
   (.vmin d a b k z t, false, fun x y _ => if num x ≤ num y then x else y),
   (.vmax d a b k z t, false, fun x y _ => if num x ≤ num y then y else x),
   (.vabs d a k z t, false, fun x _ _ => if sg && x.msb then -x else x), (.vneg d a k z t, false, fun x _ _ => -x),
   (.vfma d a b k z t 0, false, fun x y v => x * y + v), (.vfms d a b k z t 0, false, fun x y v => v - x * y),
   (.vsll d a b k z t, false, fun x y _ => x <<< (y.toNat % n)), (.vsrl d a b k z t, false, fun x y _ => x >>> (y.toNat % n)),
   (.vsra d a b k z t, false, fun x y _ => x.sshiftRight (y.toNat % n)),
   (.vadds d a b k z t, false, fun x y _ => clamp (num x + num y)), (.vsubs d a b k z t, false, fun x y _ => clamp (num x - num y))]

/-- R71, R219, R220, R225: every lane operation with an integer lane type writes its result in each active lane, keeps or zeroes the
others by ZM, raises no flag, and changes no other register, memory or thread. -/
def Obligations.VectorIntegerResults : Prop :=
  ∀ (s : State) (d a b k : BitVec 3) (z : BitVec 1) (t : BitVec 4), t.toNat < 8 →
    let n := 8 * 2 ^ (t.toNat % 4)
    ∀ q ∈ integerLanes d a b k z t n, s.Issues .vector [] → s.Vectors q.2.1 →
      let x := s.now.vecReg a
      let y := s.now.vecReg b
      let v := s.now.vecReg d
      ∃ (u : State) (r : VecReg), exec q.1 s = .next u ∧ u.now = (s.now.setVec d r).next 4 ∧ s.keepsAllBut u
        ∧ ∀ i < 1024 / n, vlane r n i = (if (s.now.maskReg k).getLsbD i then q.2.2 (vlane x n i) (vlane y n i) (vlane v n i)
            else if z = 1 then 0 else vlane v n i)

/-- Every lane operation on a floating type: whether it takes the iterative pipe, and the code and flags that the arithmetic of
its format gives for the codes of the lanes of va, vb and vd (R225, R226, R227). -/
def floatingLanes (d a b k : BitVec 3) (z : BitVec 1) (t : BitVec 4) (r : BitVec 3) (f : Fmt) (m : Rm) :
    List (Instr × Bool × (Nat → Nat → Nat → Nat × Flags)) :=
  [(.vadd d a b k z t r, false, fun x y _ => f.add m (f.decode x) (f.decode y)),
   (.vsub d a b k z t r, false, fun x y _ => f.sub m (f.decode x) (f.decode y)),
   (.vmul d a b k z t r, false, fun x y _ => f.mul m (f.decode x) (f.decode y)),
   (.vdiv d a b k z t r, true, fun x y _ => f.div m (f.decode x) (f.decode y)),
   (.vsqrt d a k z t r, true, fun x _ _ => f.sqrt m (f.decode x)),
   (.vfma d a b k z t r, false, fun x y v => f.fma m (f.decode x) (f.decode y) (f.decode v)),
   (.vfms d a b k z t r, false, fun x y v => f.fma m (f.decode x).negate (f.decode y) (f.decode v)),
   (.vex2 d a k z t r, t == 11, fun x _ _ => f.exp2 m (f.decode x)),
   (.vmin d a b k z t, false, fun x y _ => f.least x y), (.vmax d a b k z t, false, fun x y _ => f.greatest x y),
   (.vabs d a k z t, false, fun x _ _ => f.absolute x), (.vneg d a k z t, false, fun x _ _ => f.negative x)]

/-- m * 2 ^ e. -/
def ratOf (m : Nat) (e : Int) : Rat := m * (2 : Rat) ^ e

/-- The code of a format stands for a finite value of a sign and magnitude. -/
def codesFinite (f : Fmt) (c : Nat) (neg : Bool) (v : Rat) : Prop := ∃ m e, f.decode c = .fin neg m e ∧ ratOf m e = v

/-- What R72 and R74 say a code means, in an IEEE layout and in a binary8 variant. -/
def codesAsStated (f : Fmt) : Prop :=
  match f with
  | .ieee eb tb => ∀ c, c < 2 ^ (1 + eb + tb) →
      let sign := decide (c / 2 ^ (eb + tb) = 1)
      let exp : Nat := c / 2 ^ tb % 2 ^ eb
      let frac : Nat := c % 2 ^ tb
      let bias : Int := 2 ^ (eb - 1) - 1
      if exp = 2 ^ eb - 1 then f.decode c = (if frac = 0 then .inf sign else .nan (decide (frac < 2 ^ (tb - 1))))
      else codesFinite f c sign (if exp = 0 then ratOf frac (1 - bias - tb) else ratOf (2 ^ tb + frac) ((exp : Int) - bias - tb))
  | .b8 p signed inf => ∀ c, c < 256 →
      let m := if signed then c % 128 else c
      let sign := signed && decide (128 ≤ c)
      let bias : Int := if signed then 2 ^ (7 - p) else 2 ^ (8 - p)
      let exp : Nat := m / 2 ^ (p - 1)
      let frac : Nat := m % 2 ^ (p - 1)
      if c = (if signed then 0x80 else 0xFF) then f.decode c = .nan false
      else if inf && m == (if signed then 0x7F else 0xFE) then f.decode c = .inf sign
      else codesFinite f c sign (if exp = 0 then ratOf frac (2 - bias - p) else ratOf (2 ^ (p - 1) + frac) ((exp : Int) - bias - p + 1))

/-- A magnitude n * 2 ^ q is what a mode of R77 makes of a magnitude x of a sign, where 2 ^ q is the distance of the codes there:
nearest with ties to even, toward zero, or toward one infinity. -/
def roundsTo (rm : Rm) (neg : Bool) (x : Rat) (n : Nat) (q : Int) : Prop :=
  let v := ratOf n q
  let u := (2 : Rat) ^ q
  let down := v ≤ x ∧ x < v + u
  let up := x ≤ v ∧ v < x + u
  match rm with
  | .rne => v - u / 2 ≤ x ∧ x ≤ v + u / 2 ∧ (v - u / 2 = x ∨ v + u / 2 = x → n % 2 = 0)
  | .rtz => down
  | .rup => if neg then down else up
  | .rdn => if neg then up else down

/-- R72, R73, R74, R77, R78, R79, R80, R112, R220, R221, R225, R226: every lane operation with a floating lane type writes in each active lane the
code its format's arithmetic gives, and ORs the flags of the active lanes into fpctl; where a raised flag is enabled it
traps with FPE, the flags in tval and vd unchanged.  A reserved rounding mode of any of them traps with ILLEGAL.

The codes of every format mean what R72 and R74 say; and rounding a nonzero magnitude that is no larger than the largest finite one
gives, by R77, the code of a multiple of the distance of the format's codes there, which below the smallest normal is that of the
subnormals, with NX exactly where that differs.

How 2 ^ a is computed is the model's own (log 17), and so is the tie where P = 1 (log 51). -/
def Obligations.VectorFloatingResults : Prop :=
  (∀ f : Fmt, f ∈ [Fmt.f16, .bf16, .f32, .f64] ∨ (∃ v, b8dOk v = true ∧ f = .ofB8D v) →
    codesAsStated f
    ∧ ∀ (rm : Rm) (neg : Bool) (m : Nat) (e : Int), m ≠ 0 → (neg = true → f.hasNeg = true) →
      ratOf m e ≤ ratOf (f.magnitude f.maxCode).1 (f.magnitude f.maxCode).2 →
      let x := ratOf m e
      let r := f.round rm false (.fin neg m e)
      ∃ (n : Nat) (q : Int) (sign : Bool), codesFinite f r.1 sign (ratOf n q) ∧ (n ≠ 0 → sign = neg)
        ∧ (if x < (2 : Rat) ^ f.emin then q = f.qmin else (2 : Rat) ^ (q + f.prec - 1) ≤ x ∧ x < (2 : Rat) ^ (q + f.prec))
        ∧ roundsTo rm neg x n q ∧ (r.2.getLsbD 0 = true ↔ ratOf n q ≠ x))
  ∧ ∀ (s : State) (d a b k : BitVec 3) (z : BitVec 1) (t : BitVec 4) (r : BitVec 3), 8 ≤ t.toNat → t.toNat ≤ 12 →
    let e0 := (s.now.extReg 0).val
    let n := laneBits t
    let f := laneFmt t (e0.setWidth 5)
    (t = 12 → e0.toNat % 8 ≠ 0) →
    (r.toNat ≤ 4 → ∀ q ∈ floatingLanes d a b k z t r f (Rm.of r.toNat ((s.now.fpctl >>> 16).toNat % 4)),
      s.Issues .vector [] → s.Vectors q.2.1 →
      let x := s.now.vecReg a
      let y := s.now.vecReg b
      let v := s.now.vecReg d
      let res := fun (i : Nat) => q.2.2 (vlane x n i).toNat (vlane y n i).toNat (vlane v n i).toNat
      let flags : BitVec 5 := (List.range (1024 / n)).foldl (fun fl i => if (s.now.maskReg k).getLsbD i then fl ||| (res i).2 else fl) 0
      (flags &&& s.now.fpctl.extractLsb' 8 5 = 0 →
        ∃ (u : State) (w : VecReg), exec q.1 s = .next u
          ∧ u.now = Thread.next { s.now.setVec d w with fpctl := s.now.fpctl ||| flags.setWidth 64 } 4 ∧ s.keepsAllBut u
          ∧ ∀ i < 1024 / n, vlane w n i = (if (s.now.maskReg k).getLsbD i then BitVec.ofNat n (res i).1
              else if z = 1 then 0 else vlane v n i))
      ∧ (flags &&& s.now.fpctl.extractLsb' 8 5 ≠ 0 → s.Handles → exec q.1 s = .next (s.trapped .fpe (flags.setWidth 64))))
    ∧ (4 < r.toNat → s.Issues .vector [] → s.Handles →
        ∀ i ∈ [Instr.vadd d a b k z t r, .vsub d a b k z t r, .vmul d a b k z t r, .vdiv d a b k z t r, .vsqrt d a k z t r,
            .vfma d a b k z t r, .vfms d a b k z t r, .vex2 d a k z t r, .vrsum d a k z t r, .vcvt d a t k t r 0 z],
          exec i s = .next (s.trapped .illegal 0))

/-- R70, R79, R83, R84, R85, R86, R87, R96, R228, R229: each compare sets bit i of its mask register for each active lane, keeps or clears the
others by ZM, and clears the bits above; a write to k0 is discarded.  VCVT converts each active element and leaves the others
by ZM.  Flags are accrued, and nothing else changes. -/
def Obligations.VectorCompareAndConvertResults : Prop :=
  ∀ (s : State) (d a b k : BitVec 3) (z : BitVec 1) (t : BitVec 4), t.toNat ≤ 12 →
    let e0 := (s.now.extReg 0).val
    let n := laneBits t
    let f := laneFmt t (e0.setWidth 5)
    let x := s.now.vecReg a
    let y := s.now.vecReg b
    let mask := s.now.maskReg k
    s.Issues .vector [] → s.Vectors false → (t = 12 → e0.toNat % 8 ≠ 0) →
    let num := fun (i : BitVec n) => if t.toNat < 4 then i.toInt else (i.toNat : Int)
    let nans := fun (i : Nat) => (f.decode (vlane x n i).toNat).isNan || (f.decode (vlane y n i).toNat).isNan
    let snans := fun (i : Nat) => (f.decode (vlane x n i).toNat).isSnan || (f.decode (vlane y n i).toNat).isSnan
    let ints : List (Instr × (Int → Int → Bool)) :=
      [(.vceq d a b k z t, fun p q => p == q), (.vcne d a b k z t, fun p q => p != q),
       (.vclt d a b k z t, fun p q => decide (p < q)), (.vcle d a b k z t, fun p q => decide (p ≤ q))]
    let flts : List (Instr × Bool × Bool × (Sys2Proof.Machine.Num → Sys2Proof.Machine.Num → Bool)) :=
      [(.vceq d a b k z t, false, false, fun p q => p.eq q), (.vcne d a b k z t, true, false, fun p q => !p.eq q),
       (.vclt d a b k z t, false, true, fun p q => p.lt q), (.vcle d a b k z t, false, true, fun p q => p.lt q || p.eq q),
       (.vcun d a b k z t, true, false, fun _ _ => false)]
    (t.toNat < 8 → ∀ q ∈ ints, ∃ (u : State) (m : MaskReg), exec q.1 s = .next u ∧ u.now = (s.now.setMask d m).next 4 ∧ s.keepsAllBut u
      ∧ ∀ i < 128, m.getLsbD i = (decide (i < 1024 / n) && if mask.getLsbD i then q.2 (num (vlane x n i)) (num (vlane y n i))
          else z != 1 && (s.now.maskReg d).getLsbD i))
    ∧ (8 ≤ t.toNat → ∀ q ∈ flts,
      let nv := (List.range (1024 / n)).any fun i => mask.getLsbD i && (if q.2.2.1 then nans i else snans i)
      (nv = true → s.now.fpctl.getLsbD 12 = false) →
      ∃ (u : State) (m : MaskReg), exec q.1 s = .next u
        ∧ u.now = Thread.next { s.now.setMask d m with fpctl := s.now.fpctl ||| (if nv then 16 else 0) } 4 ∧ s.keepsAllBut u
        ∧ ∀ i < 128, m.getLsbD i = (decide (i < 1024 / n) && if mask.getLsbD i then
            (if nans i then q.2.1 else q.2.2.2 (f.decode (vlane x n i).toNat) (f.decode (vlane y n i).toNat))
          else z != 1 && (s.now.maskReg d).getLsbD i))
    ∧ ∀ (v : BitVec 4) (r : BitVec 3) (sat : BitVec 1), v.toNat ≤ 12 → r.toNat ≤ 4 → (v = 12 → e0.toNat / 256 % 8 ≠ 0) →
      ((t.toNat < 8 ∧ v.toNat < 8) ∨ exactConversion t v = true → r = 0) → (8 ≤ t.toNat → v.toNat < 8 ∨ exactConversion t v = true → sat = 0) →
      let w := laneBits v
      let g := laneFmt v ((e0 >>> 8).setWidth 5)
      let count := 1024 / max n w
      let res := fun (i : Nat) => convertLane t v f g (Rm.of r.toNat ((s.now.fpctl >>> 16).toNat % 4)) (sat == 1) (vlane x n i).toNat
      let flags : BitVec 5 := (List.range count).foldl (fun fl i => if mask.getLsbD i then fl ||| (res i).2 else fl) 0
      flags &&& s.now.fpctl.extractLsb' 8 5 = 0 →
      ∃ (u : State) (p : VecReg), exec (.vcvt d a v k t r sat z) s = .next u
        ∧ u.now = Thread.next { s.now.setVec d p with fpctl := s.now.fpctl ||| flags.setWidth 64 } 4 ∧ s.keepsAllBut u
        ∧ ∀ i < 1024 / w, vlane p w i = (if i < count ∧ mask.getLsbD i then BitVec.ofNat w (res i).1
            else if z = 1 then 0 else vlane (s.now.vecReg d) w i)

/-- R96, R137, R225, R231, R232, R233: the logical, selecting, permuting and moving vector instructions work on lanes as raw bits for every
lane type; VEXT and KPOPC write an extension register with a generated residue (some value or other where a command
outstanding records its progress there, R248, R272); mask operations cover all 128 bits, and a
write to k0 is discarded.  Nothing else changes. -/
def Obligations.VectorMoveResults : Prop :=
  ∀ (s : State) (d a b k e : BitVec 3) (z : BitVec 1) (t : BitVec 4), t.toNat ≤ 12 → s.Issues .vector [] → s.Vectors false →
    let n := laneBits t
    let lanes := 1024 / n
    let x := s.now.vecReg a
    let y := s.now.vecReg b
    let v := s.now.vecReg d
    let on := fun (i : Nat) => (s.now.maskReg k).getLsbD i
    let e3 := (s.now.extReg 3).val.toNat
    let ev := (s.now.extReg e).val
    let recording := (s.core (coreOf s.cur)).recording s.cur e
    let merged := fun (r : Nat → BitVec n) (i : Nat) => if on i then r i else if z = 1 then 0 else vlane v n i
    let forms : List (Instr × (Nat → BitVec n)) :=
      [(.vand d a b k z t, merged fun i => vlane x n i &&& vlane y n i), (.vor d a b k z t, merged fun i => vlane x n i ||| vlane y n i),
       (.vxor d a b k z t, merged fun i => vlane x n i ^^^ vlane y n i), (.vsel d a b k t, fun i => if on i then vlane x n i else vlane y n i),
       (.vmov d a k z t, merged fun i => vlane x n i), (.vperm d a b k z t, merged fun i => vlane x n ((vlane y n i).toNat % lanes)),
       (.vbcast d e k z t, merged fun _ => ev.setWidth n),
       (.vslup d a k z t, merged fun i => if e3 % 256 ≤ i then vlane x n (i - e3 % 256) else vlane v n i),
       (.vsldn d a k z t, merged fun i => if i + e3 % 256 < lanes then vlane x n (i + e3 % 256) else vlane v n i),
       (.vins d e k t, fun i => if i = e3 % 128 % lanes ∧ on i then ev.setWidth n else vlane v n i)]
    (∀ q ∈ forms, ∃ (u : State) (r : VecReg), exec q.1 s = .next u ∧ u.now = (s.now.setVec d r).next 4 ∧ s.keepsAllBut u
      ∧ ∀ i < lanes, vlane r n i = q.2 i)
    ∧ (let j := vlane x n (e3 % 128 % lanes)
       let w : Word := if t.toNat < 4 then j.signExtend 64 else j.setWidth 64
       ∃ (u : State) (r : Reg), exec (.vext e a t) s = .next u ∧ u.now = (s.now.setExt e r).next 4 ∧ s.keepsAllBut u
         ∧ (recording = false → r = ⟨w, BitVec.ofNat 4 (w.toNat % 15)⟩))
    ∧ (∀ q ∈ [(Instr.kand d a b, s.now.maskReg a &&& s.now.maskReg b), (.kor d a b, s.now.maskReg a ||| s.now.maskReg b),
        (.kxor d a b, s.now.maskReg a ^^^ s.now.maskReg b), (.knot d a, ~~~ s.now.maskReg a), (.kmov d a, s.now.maskReg a)],
      ∃ u, exec q.1 s = .next u ∧ u.now = (s.now.setMask d q.2).next 4 ∧ s.keepsAllBut u)
    ∧ (let c := ((List.range 128).filter fun i => (s.now.maskReg a).getLsbD i).length
       ∃ (u : State) (r : Reg), exec (.kpopc e a) s = .next u ∧ u.now = (s.now.setExt e r).next 4 ∧ s.keepsAllBut u
         ∧ (recording = false → r = ⟨BitVec.ofNat 64 c, BitVec.ofNat 4 (c % 15)⟩))
    ∧ (isCompute s.cur = true → (t = 2 ∨ t = 6 ∨ t = 10) → (s.core (coreOf s.cur)).holds s.cur (32 + a.toNat) = true →
       (∀ m ∈ (s.core (coreOf s.cur)).matrix.all, m.thread = s.cur → 32 + a.toNat ∉ m.names) →
       (∀ w, .acc (coreOf s.cur) a.toNat w ∉ s.poison ∧ ¬ s.Tests (.acc (coreOf s.cur) a.toNat w)) →
       let acc := ((s.core (coreOf s.cur)).accs.getD a.toNat Acc.initial).bits
       ∃ (u : State) (r : VecReg), exec (.vaccr d a k z t) s = .next u ∧ u.now = (s.now.setVec d r).next 4 ∧ s.keepsAllBut u
         ∧ ∀ i < 32, vlane r 32 i = (if on i then acc.extractLsb' (512 * (if i < 16 then e3 % 16 else e3 / 256 % 16) + 32 * (i % 16)) 32
             else if z = 1 then 0 else vlane v 32 i))

/-- One level of the reduction tree: neighbours combined, an absent lane passing the other on (R230). -/
def treeStep {α : Type} (f : α → α → α) : List (Option α) → List (Option α)
  | some x :: some y :: l => some (f x y) :: treeStep f l
  | x :: y :: l => (x <|> y) :: treeStep f l
  | l => l

/-- R230: a reduction leaves in lane 0 the root of the fixed tree of pairs over the active lanes, or its operator's identity where
none is active, and keeps or zeroes the other lanes by ZM.  In the floating types each node is the format's own addition, minimum or
maximum (R226), the flags of every node are accrued, and where one of them is enabled the reduction traps with FPE, the flags in
tval and vd unchanged (R80). -/
def Obligations.VectorReductionResults : Prop :=
  ∀ (s : State) (d a k : BitVec 3) (z : BitVec 1) (t : BitVec 4) (r : BitVec 3), t.toNat ≤ 12 → s.Issues .vector [] → s.Vectors false →
    let n := laneBits t
    let x := s.now.vecReg a
    let v := s.now.vecReg d
    let num := fun (i : BitVec n) => if t.toNat < 4 then i.toInt else (i.toNat : Int)
    let present : List (Option (BitVec n)) := (List.range (1024 / n)).map fun i => if (s.now.maskReg k).getLsbD i then some (vlane x n i) else none
    let root := fun (f : BitVec n → BitVec n → BitVec n) => ((Nat.repeat (treeStep f) (Nat.log2 (1024 / n)) present).headD none)
    let reduces := fun (i : Instr) (identity : BitVec n) (f : BitVec n → BitVec n → BitVec n) =>
      ∃ (u : State) (w : VecReg), exec i s = .next u ∧ u.now = (s.now.setVec d w).next 4 ∧ s.keepsAllBut u
        ∧ ∀ i < 1024 / n, vlane w n i = (if i = 0 then (root f).getD identity else if z = 1 then 0 else vlane v n i)
    reduces (.vrand d a k z t) (BitVec.allOnes n) (fun x y => x &&& y)
    ∧ reduces (.vror d a k z t) 0 (fun x y => x ||| y)
    ∧ reduces (.vrxor d a k z t) 0 (fun x y => x ^^^ y)
    ∧ (t.toNat < 8 → reduces (.vrsum d a k z t 0) 0 (fun x y => x + y)
        ∧ reduces (.vrmin d a k z t) (if t.toNat < 4 then BitVec.intMax n else BitVec.allOnes n) (fun x y => if num x ≤ num y then x else y)
        ∧ reduces (.vrmax d a k z t) (if t.toNat < 4 then BitVec.intMin n else 0) (fun x y => if num x ≤ num y then y else x))
    ∧ (8 ≤ t.toNat → (t = 12 → (s.now.extReg 0).val.toNat % 8 ≠ 0) → r.toNat ≤ 4 →
      let f := laneFmt t ((s.now.extReg 0).val.setWidth 5)
      let m := Rm.of r.toNat ((s.now.fpctl >>> 16).toNat % 4)
      let largest := if f.hasInf then f.infCode else f.maxCode
      let forms : List (Instr × Nat × (Nat → Nat → Nat × Flags)) :=
        [(.vrsum d a k z t r, 0, fun x y => f.add m (f.decode x) (f.decode y)), (.vrmin d a k z t, largest, f.least),
         (.vrmax d a k z t, if f.hasNeg then 2 ^ (n - 1) + largest else 0, f.greatest)]
      ∀ q ∈ forms,
        -- a node's code, with the flags of the nodes under it and its own
        let node := fun (x y : Nat × Flags) => ((q.2.2 x.1 y.1).1, x.2 ||| y.2 ||| (q.2.2 x.1 y.1).2)
        let leaves : List (Option (Nat × Flags)) := present.map fun o => o.map fun x => (x.toNat, 0)
        let top := ((Nat.repeat (treeStep node) (Nat.log2 (1024 / n)) leaves).headD none).getD (q.2.1, 0)
        (top.2 &&& s.now.fpctl.extractLsb' 8 5 = 0 → ∃ (u : State) (w : VecReg), exec q.1 s = .next u
          ∧ u.now = Thread.next { s.now.setVec d w with fpctl := s.now.fpctl ||| top.2.setWidth 64 } 4 ∧ s.keepsAllBut u
          ∧ ∀ i < 1024 / n, vlane w n i = (if i = 0 then BitVec.ofNat n top.1 else if z = 1 then 0 else vlane v n i))
        ∧ (top.2 &&& s.now.fpctl.extractLsb' 8 5 ≠ 0 → s.Handles → exec q.1 s = .next (s.trapped .fpe (top.2.setWidth 64))))

/-- R106, R115, R220, R234, R235: the vector loads and stores on tile memory or vent local memory.  Lane i has its own address; loads put
each active lane's bytes in the lane and treat the others by ZM, stores write the active lanes in ascending order; no other
byte and no other register changes.  A lane at or beyond a pattern's element count is inactive. -/
def Obligations.VectorMemoryResults : Prop :=
  ∀ (s : State) (d k x : BitVec 3) (z : BitVec 1) (q : BitVec 2) (b : BitVec 4) (w : BitVec 3) (l : BitVec 2) (unit : Nat) (off chip : Nat → Nat),
    let n := 2 ^ l.toNat
    let base : Word := w.setWidth 64 <<< 61 + s.val b
    let first := (s.val b).toNat
    let pat : Pattern := s.now.str[q.toNat]'(by have := q.isLt; omega)
    let on := fun (i : Nat) => (s.now.maskReg k).getLsbD i
    let unitAt := fun (i : Nat) => base + BitVec.ofNat 64 (i * n)
    let indexAt := fun (i : Nat) => base + (vlane (s.now.vecReg x) (8 * n) i).signExtend 64 * BitVec.ofNat 64 n
    let patternAt := fun (i : Nat) => pat.base + BitVec.ofNat 64 (pat.index (first + i) 0) * pat.stride 0 + BitVec.ofNat 64 (pat.index (first + i) 1) * pat.stride 1
      + BitVec.ofNat 64 (pat.index (first + i) 2) * pat.stride 2 + BitVec.ofNat 64 (pat.index (first + i) 3) * pat.stride 3
    let inside := fun (i : Nat) => on i && decide (first + i < pat.elements)
    let loads : List (Instr × Family × (Nat → Word) × (Nat → Bool)) :=
      [(.vld d k z b w l, .vectorMemory, unitAt, on), (.vgath d k z b w x l, .vectorMemory, indexAt, on)]
        ++ if pat.esize = l.toNat ∧ pat.indEn = false then [(.vlds d q k z b l, .vectorStream, patternAt, inside)] else []
    let stores : List (Instr × Family × (Nat → Word) × (Nat → Bool)) :=
      [(.vst d k b w l, .vectorMemory, unitAt, on), (.vscat d k b w x l, .vectorMemory, indexAt, on)]
        ++ if pat.esize = l.toNat ∧ pat.indEn = false then [(.vsts d q k b l, .vectorStream, patternAt, inside)] else []
    s.Sound b → s.Vectors false →
    (∀ f ∈ loads, s.Issues f.2.1 [b] →
      (∀ i < 1024 / (8 * n), f.2.2.2 i = true → s.OnTile (f.2.2.1 i) n [.r] unit (off i) (chip i) ∧ s.poisonedAt (.tile unit) (off i) n = false) →
      ∃ (u : State) (r : VecReg), exec f.1 s = .next u ∧ u.now = (s.now.setVec d r).next 4 ∧ s.keepsAllBut u
        ∧ ∀ i < 1024 / (8 * n), vlane r (8 * n) i = (if f.2.2.2 i then BitVec.ofNat (8 * n) (s.tileBytes unit (off i) n)
            else if z = 1 then 0 else vlane (s.now.vecReg d) (8 * n) i))
    ∧ (∀ f ∈ stores, s.Issues f.2.1 [b] →
      (∀ i < 1024 / (8 * n), f.2.2.2 i = true → s.OnTile (f.2.2.1 i) n [.w] unit (off i) (chip i)) →
      ∃ u, exec f.1 s = .next u ∧ u.now = s.now.next 4 ∧ u.mem = s.mem
        ∧ (u.core unit).tile = (List.range (1024 / (8 * n))).foldl (fun m i =>
            if f.2.2.2 i then m.writeN (off i) (leBytes n (vlane (s.now.vecReg d) (8 * n) i).toNat) else m) (s.core unit).tile
        ∧ (∀ c, c ≠ unit → u.core c = s.core c) ∧ ∀ j, j ≠ s.cur → sameButMonitors s u j)


/-! ## Slots, accumulators and engine commands -/

/-- R242, R243: CLAIM and CLAIM.T take the whole set that two registers name when every resource in it is free or the thread's own; an
accumulator newly taken has state NONE and no report, and what was not newly taken keeps its contents.  Otherwise CLAIM waits
holding nothing new, and CLAIM.T writes 0.  RELS frees what the thread holds of its set and ignores the rest. -/
def Obligations.ClaimResults : Prop :=
  ∀ (s : State) (a b : BitVec 4), s.Sound a → s.Sound b →
    let c := coreOf s.cur
    let k := s.core c
    let named := fun (r : Nat) => if r < 32 then (s.val a).getLsbD r else decide (r < 40) && (s.val b).getLsbD (r - 32)
    let owner := fun (k : Core) (r : Nat) => k.claims.getD r none
    let can := ∀ r < 40, named r = true → owner k r = none ∨ owner k r = some s.cur
    let took := fun (t : State) => s.keepsAllButCore t
      ∧ (∀ r < 40, owner (t.core c) r = if named r then some s.cur else owner k r)
      ∧ (∀ r < 32, named r = false ∨ owner k r = some s.cur → (t.core c).slot r = k.slot r)
      ∧ ∀ r < 8, if named (32 + r) = false ∨ owner k (32 + r) = some s.cur then (t.core c).acc r = k.acc r
          else ((t.core c).acc r).checks.state = .none ∧ ((t.core c).acc r).report = none
    let flag := fun (x : Word) => (s.now.setReg 0 ⟨x, x.setWidth 4⟩).next 4
    (s.Issues .matrix [a, b] → can → ∃ t, exec (.claim a b) s = .next t ∧ t.now = s.now.next 4 ∧ took t)
      ∧ (s.Issues .matrix [a, b, 0] → can → ∃ t, exec (.claimT a b) s = .next t ∧ t.now = flag 1 ∧ took t)
      ∧ (s.Issues .matrix [a, b] → ¬ can → ∃ t, exec (.claim a b) s = .next t ∧ t.now = { s.now with status := .wait .claim, since := none, begun := some .claim }
          ∧ s.keepsAllButCore t ∧ (t.core c).claims = k.claims ∧ (t.core c).slots = k.slots ∧ (t.core c).accs = k.accs)
      ∧ (s.Issues .matrix [a, b, 0] → ¬ can → exec (.claimT a b) s = .next (s.after .matrix fun _ => flag 0))
      ∧ (s.Issues .matrix [a, b] → (∀ m ∈ k.matrix.live, m.thread = s.cur → ∀ r ∈ m.names, named r = false) →
          k.matrix.parked = [] → k.copy.parked = [] → k.waiting = [] →
          ∃ t, exec (.rels a b) s = .next t ∧ s.keepsAllButCore t
            ∧ t.now = Thread.next { s.now with pages := [] } 4
            ∧ (t.core c).slots = k.slots ∧ (t.core c).accs = k.accs
            ∧ ∀ r < 40, owner (t.core c) r = if named r ∧ owner k r = some s.cur then none else owner k r)

/-- R104, R215, R216, R241, R243, R244, R247, R249, R253, R254, R255, R271: each engine command whose issue checks hold joins the tail of its
engine's queue with the snapshots of its issue, raises the count of its dependency slot, and with .s makes the thread wait for
it; no slot, accumulator or byte of memory changes yet.  An SCPY also raises the copy count of its sealed region.

The order of the claims looked at is the model's reading (log 24). -/
def Obligations.EngineCommandsIssue : Prop :=
  ∀ (s : State) (x y : BitVec 5) (c p v sy aq rl ck : BitVec 1) (q u : BitVec 2) (z m : BitVec 3) (w : BitVec 4) (e o : BitVec 2),
    let e0 := (s.now.extReg 0).val
    let mf := e0.toNat / 65536 % 16
    let kn := (s.now.extReg 1).val.toNat % 128
    let pat : BitVec 2 → Pattern := fun i => s.now.str[i.toNat]'(by have := i.isLt; omega)
    let bytes := fun (i : BitVec 2) => (pat i).elements * (pat i).bytes
    let image := if c = 1 then (if p = 1 then [32 + z.toNat, 33 + z.toNat] else [32 + z.toNat]) else [x.toNat]
    let fields := o.toNat ≤ 2 ∧ (if c = 1 then x = 0 ∧ (p = 1 → z.toNat % 2 = 0) else z = 0 ∧ p = 0) ∧ bytes q = 1024 * image.length
    let b8 := fun (two : Bool) => mf = 1 → e0.toNat % 8 ≠ 0 ∧ (two = true → e0.toNat / 256 % 8 ≠ 0)
    let forms : List (Instr × Family × EngineSel × List Nat × Pattern × Pattern × Prop) :=
      [(.mld x c p q z w e v sy aq rl o, .matrix, .matrix, image, pat q, pat q, fields),
       (.mst x c p q z w e v sy aq rl o, .matrix, .matrix, image, pat q, pat q, fields),
       (.mma x y z w e v sy ck, .matrix, .matrix, [x.toNat, y.toNat, 32 + z.toNat] ++ (if mf = 5 then [33 + z.toNat] else []), 0, 0,
         mf ≤ 5 ∧ b8 true ∧ kn ≤ mfmtFull mf ∧ (mf = 5 → z.toNat % 2 = 0)),
       (.mmas x y z w e v sy ck m, .matrix, .matrix, [x.toNat, y.toNat, 32 + z.toNat], 0, 0,
         mf ≤ 1 ∧ b8 true ∧ s.VectorRegs ∧ ∀ i < 64, (bitsIn 8 ((s.now.vecReg m).toNat / 2 ^ (8 * i) % 256)).length = 4),
       (.mcmp x y w e v sy m, .matrix, .matrix, [x.toNat, y.toNat], 0, 0, mf ≤ 1 ∧ b8 false ∧ s.VectorRegs),
       (.mzero z w e v sy, .matrix, .matrix, [32 + z.toNat], 0, 0, True),
       (.cpy q u w e v sy aq rl o, .copy, .copy, [], pat q, pat u, o.toNat ≤ 2 ∧ bytes q = bytes u)]
    let queued := fun (i : Instr) (g : EngineSel) (d r : Pattern) (t : State) => ∃ n : Command,
      ((t.core (coreOf s.cur)).engine g).queue = ((s.core (coreOf s.cur)).engine g).queue ++ [n]
        ∧ ((t.core (coreOf s.cur)).engine g).running = ((s.core (coreOf s.cur)).engine g).running
        ∧ n.op = i ∧ n.thread = s.cur ∧ n.pc = s.now.pc ∧ n.epoch = s.now.epoch ∧ n.win = s.now.win ∧ n.ext = s.now.ext.map (·.val)
        ∧ n.dst = d ∧ n.src = r ∧ n.setd = (if v = 1 then some e.toNat else none)
        ∧ t.now = { (s.now.raise n.setd).next 4 with
            status := if sy = 1 then .wait .command else .ready, sync := if sy = 1 then some n.id else s.now.sync,
            since := if sy = 1 then some s.gtime else none, begun := if sy = 1 then some .command else none }
        ∧ s.keepsAllButCore t ∧ (t.core (coreOf s.cur)).slots = (s.core (coreOf s.cur)).slots
        ∧ (t.core (coreOf s.cur)).accs = (s.core (coreOf s.cur)).accs ∧ (t.core (coreOf s.cur)).claims = (s.core (coreOf s.cur)).claims
    (v = 1 → s.now.dep.getD e.toNat 0 ≠ 15) →
      (∀ f ∈ forms, s.Issues f.2.1 [] → f.2.2.2.2.2.2 → (∀ r ∈ f.2.2.2.1, (s.core (coreOf s.cur)).holds s.cur r = true) →
        ((s.core (coreOf s.cur)).engine f.2.2.1).queue.length < 2 →
        ∃ t, exec f.1 s = .next t ∧ queued f.1 f.2.2.1 f.2.2.2.2.1 f.2.2.2.2.2.1 t)
      ∧ (∀ r ∈ image, s.Issues .matrix [] → s.Handles → fields → (∀ j ∈ image, j < r → (s.core (coreOf s.cur)).holds s.cur j = true) →
        (s.core (coreOf s.cur)).holds s.cur r = false →
        exec (.mld x c p q z w e v sy aq rl o) s = .next (s.trapped .unclaimed (BitVec.ofNat 64 r)))
      ∧ (∀ lo hi leaf k leaf' k' (r : Sinter), s.Issues .sinter [] → o.toNat ≤ 2 → (pat q).esize = (pat u).esize → (pat q).elements = (pat u).elements →
        bytes u ≤ 32768 → (pat u).indEn = false → (pat q).indEn = false → (pat u).extent = some (lo, hi) →
        s.OnPage lo 1 [.r] leaf k → s.OnPage hi 1 [.r] leaf' k' → s.sealsAt k 1 = [r] → s.sealsAt k' 1 = [r] →
        s.Distinct →
        r.copies < 65535 → s.sealed.Nodup →
        (∀ n < (pat q).elements, ∃ a core off, checkIn s.now.win ((pat q).address n none) (pat q).bytes [.w] = .ok (.chip a)
          ∧ (chipBlock a = some (.slots core off) ∨ chipBlock a = some (.accs core off)
            ∨ ∃ g, chipBlock a = some (.tile core off g) ∧ isCompute core = true)) →
        (s.core (coreOf s.cur)).copy.queue.length < 2 →
        ∃ t, exec (.scpy q u w e v sy aq rl o) s = .next t ∧ queued (.scpy q u w e v sy aq rl o) .copy (pat q) (pat u) t
          ∧ t.sealed = s.sealed.map fun y => if y == r then { y with copies := y.copies + 1 } else y)

/-- R25, R88, R89, R103, R173, R216, R240, R244, R247, R249, R253, R254, R255, R271: the head of a queue that waits for nothing, and
meets no access through the on-chip map without order, begins.  MZERO zeroes its accumulator and puts its checksum state at ZERO.  An
MMA adds to every element of C the products of a row of A and a column of B: on INT8 modulo 2^32, in every format by the sum of R88
and R89; an MMAS does so with A spread by its metadata.  An MCMP keeps four values of each group of eight and their mask.  An MLD of a slot from a local memory
fills it with the elements of its pattern, an MST writes the elements of its slot there; a CPY between local memories writes the bytes
it reads, and clears e7; an SCPY copies from memory and lowers the copy count of its sealed region.  Completing, the command lowers its
dependency count, and an .s instruction of its thread goes on.

That a command's effect is one step is the model's choice (log 30). -/
def Obligations.EngineCommandsRun : Prop :=
  ∀ (s : State) (core : Nat) (n : Command) (rest : List Command),
    let k := s.core core
    let elem := fun (b : Block) (i : Nat) => b.extractLsb' (32 * i) 32
    let threads := fun (t : State) => ∀ j, (t.thread j).regs = (s.thread j).regs ∧ (t.thread j).pc = (s.thread j).pc
    let running := fun (g : EngineSel) (t : State) => ((t.core core).engine g).running = some n ∧ ((t.core core).engine g).queue = rest
      ∧ t.mem = s.mem ∧ threads t ∧ .engineCommandComplete core g ∈ t.agenda
    let begun := fun (g : EngineSel) (t : State) => running g t ∧ (∀ c, c ≠ core → t.core c = s.core c) ∧ (t.core core).tile = k.tile
    let q : Pattern := n.src
    let d : Pattern := n.dst
    let ready := fun (g : EngineSel) => k.killed = false ∧ k.testing = false ∧ (k.engine g).running = none ∧ (k.engine g).queue = n :: rest
      ∧ n.deps = [] ∧ s.offline n.epoch = false ∧ s.pastTau n.epoch = false ∧ k.clashSpans n = [] ∧ s.namesTested core n = false ∧ n.flags.1 = false
    -- nothing recorded, and patterns without an indirect level
    let fresh := ((s.thread n.thread).extReg 6).val = 0
    (ready .matrix → s.readsPoisoned core n = false →
      (∀ z w e v y, n.op = .mzero z w e v y → ∃ t, exec (.engineCommandBegin core .matrix) s = .next t ∧ begun .matrix t
        ∧ (t.core core).slots = k.slots ∧ ((t.core core).acc z.toNat).bits = 0 ∧ ((t.core core).acc z.toNat).checks.state = .zero
        ∧ ((t.core core).acc z.toNat).report = none ∧ ∀ i, i ≠ z.toNat → (t.core core).acc i = k.acc i)
      ∧ (∀ x y z w e v q, n.op = .mma x y z w e v q 0 → n.ext[0].toNat / 65536 % 16 = 0 →
        ∃ t, exec (.engineCommandBegin core .matrix) s = .next t ∧ begun .matrix t ∧ (t.core core).slots = k.slots
          ∧ (∀ r < 16, ∀ j < 16, elem ((t.core core).acc z.toNat).bits (16 * r + j) = elem (k.acc z.toNat).bits (16 * r + j)
              + (List.range (if n.ext[1].toNat % 128 = 0 then 64 else n.ext[1].toNat % 128)).foldl (fun sum i => sum
                  + ((k.slot x.toNat).extractLsb' (8 * (64 * r + i)) 8).signExtend 32 * ((k.slot y.toNat).extractLsb' (8 * (64 * j + i)) 8).signExtend 32) 0)
          ∧ ((t.core core).acc z.toNat).checks.state = .none ∧ ((t.core core).acc z.toNat).report = none
          ∧ ∀ i, i ≠ z.toNat → (t.core core).acc i = k.acc i)
      ∧ (∀ x y z w e v q, n.op = .mma x y z w e v q 0 →
        let m := n.ext[0].toNat / 65536 % 16
        let bytes := if m ≤ 1 then 1 else if m ≤ 3 then 2 else if m = 4 then 4 else 8
        let depth := if n.ext[1].toNat % 128 = 0 then 64 / bytes else n.ext[1].toNat % 128
        let number := fun (b8d : BitVec 5) (b : Block) (r i : Nat) => operandNum m b8d (b.extractLsb' (8 * (64 * r + bytes * i)) (8 * bytes)).toNat
        let before := fun (i : Nat) => (elem (k.acc z.toNat).bits i).toNat + if m = 5 then 2 ^ 32 * (elem (k.acc (z.toNat + 1)).bits i).toNat else 0
        m ≤ 5 → depth ≤ 64 / bytes → (m = 5 → z.toNat % 2 = 0) →
        ∃ t, exec (.engineCommandBegin core .matrix) s = .next t ∧ begun .matrix t ∧ (t.core core).slots = k.slots
          ∧ (∀ r < 16, ∀ j < 16,
              let sum := matsum m (before (16 * r + j)) ((List.range depth).map fun i =>
                (number (n.ext[0].setWidth 5) (k.slot x.toNat) r i, number ((n.ext[0] >>> 8).setWidth 5) (k.slot y.toNat) j i))
              elem ((t.core core).acc z.toNat).bits (16 * r + j) = BitVec.ofNat 32 sum
                ∧ (m = 5 → elem ((t.core core).acc (z.toNat + 1)).bits (16 * r + j) = BitVec.ofNat 32 (sum / 2 ^ 32)))
          ∧ ∀ i, i ≠ z.toNat → (m = 5 → i ≠ z.toNat + 1) → (t.core core).acc i = k.acc i)
      ∧ (∀ x y z w e v q md, n.op = .mmas x y z w e v q 0 md →
        let m := n.ext[0].toNat / 65536 % 16
        let set := fun (r i : Nat) => n.vmeta.getLsbD (8 * (4 * r + i / 8) + i % 8)
        let below := fun (r i : Nat) => ((List.range (i % 8)).filter fun b => set r (i / 8 * 8 + b)).length
        let left := fun (r i : Nat) => if set r i then
          operandNum m (n.ext[0].setWidth 5) ((k.slot x.toNat).extractLsb' (8 * (64 * r + 4 * (i / 8) + below r i)) 8).toNat else Sys2Proof.Machine.Num.fin false 0 0
        let right := fun (j i : Nat) => operandNum m ((n.ext[0] >>> 8).setWidth 5) ((k.slot y.toNat).extractLsb' (8 * (64 * j + i)) 8).toNat
        m ≤ 1 →
        ∃ t, exec (.engineCommandBegin core .matrix) s = .next t ∧ begun .matrix t ∧ (t.core core).slots = k.slots
          ∧ (∀ r < 16, ∀ j < 16, elem ((t.core core).acc z.toNat).bits (16 * r + j) = BitVec.ofNat 32
              (matsum m (elem (k.acc z.toNat).bits (16 * r + j)).toNat ((List.range 32).map fun i => (left r i, right j i))))
          ∧ ∀ i, i ≠ z.toNat → (t.core core).acc i = k.acc i)
      ∧ (∀ x y w e v q md, n.op = .mcmp x y w e v q md →
        let m := n.ext[0].toNat / 65536 % 16
        let value := fun (r j : Nat) => (k.slot y.toNat).extractLsb' (8 * (64 * r + j)) 8
        let kept := fun (r g : Nat) => keptColumns m (n.ext[0].setWidth 5) ((List.range 8).map fun b => (value r (8 * g + b)).toNat)
        m ≤ 1 → isCompute n.thread = true → coreOf n.thread = core →
        ∃ t, exec (.engineCommandBegin core .matrix) s = .next t ∧ begun .matrix t ∧ (t.core core).accs = k.accs
          ∧ (∀ i, i ≠ x.toNat → (t.core core).slot i = k.slot i)
          ∧ (∀ r < 16, ∀ g < 4,
              (∀ b < (kept r g).length, b < 4 → (kept r g).length = 4 →
                ((t.core core).slot x.toNat).extractLsb' (8 * (64 * r + 4 * g + b)) 8 = value r (8 * g + (kept r g).getD b 0))
              ∧ ∀ b < 8, ((t.thread n.thread).vecReg md).getLsbD (8 * (4 * r + g) + b) = decide (b ∈ kept r g)))
      ∧ (∀ x u w e v y a r o unit (off chip : Nat → Nat), n.op = .mld x 0 0 u 0 w e v y a r o → q.indEn = false →
        q.elements * q.bytes = 1024 → fresh →
        (∀ i < q.elements, s.ElementOnTile n (q.address i none) q.bytes .r unit (off i) (chip i) ∧ s.poisonedAt (.tile unit) (off i) q.bytes = false) →
        ∃ t, exec (.engineCommandBegin core .matrix) s = .next t ∧ begun .matrix t ∧ (t.core core).accs = k.accs
          ∧ (∀ i < q.elements, ∀ j < q.bytes,
              ((t.core core).slot x.toNat).extractLsb' (8 * (i * q.bytes + j)) 8 = (s.core unit).tile.read (off i + j))
          ∧ ((t.thread n.thread).extReg 6).val = 0 ∧ ∀ i, i ≠ x.toNat → (t.core core).slot i = k.slot i)
      ∧ (∀ x u w e v y a r o unit (off chip : Nat → Nat), n.op = .mst x 0 0 u 0 w e v y a r o → q.indEn = false →
        q.elements * q.bytes = 1024 → fresh → (∀ w, .slot core x.toNat w ∉ s.poison) →
        (∀ i < q.elements, s.ElementOnTile n (q.address i none) q.bytes .w unit (off i) (chip i)) →
        ∃ t, exec (.engineCommandBegin core .matrix) s = .next t ∧ running .matrix t ∧ (t.core core).slots = k.slots ∧ (t.core core).accs = k.accs
          ∧ (t.core unit).tile = (List.range q.elements).foldl (fun m i => m.writeN (off i)
              ((List.range q.bytes).map fun j => (k.slot x.toNat).extractLsb' (8 * (i * q.bytes + j)) 8)) (s.core unit).tile
          ∧ ∀ c, c ≠ unit → (t.core c).tile = (s.core c).tile))
    ∧ (ready .copy →
      (∀ x u w e v y a r o from_ dest (off chip off' chip' : Nat → Nat), n.op = .cpy x u w e v y a r o → q.indEn = false → d.indEn = false →
        q.elements * q.bytes = d.elements * d.bytes → fresh →
        (∀ i < q.elements, s.ElementOnTile n (q.address i none) q.bytes .r from_ (off i) (chip i) ∧ s.poisonedAt (.tile from_) (off i) q.bytes = false) →
        (∀ i < d.elements, s.ElementOnTile n (d.address i none) d.bytes .w dest (off' i) (chip' i)) →
        (∀ i < q.elements, ∀ j < d.elements, overlaps (chip i) q.bytes (chip' j) d.bytes = false) →
        let bytes := (List.range q.elements).flatMap fun i => (s.core from_).tile.readN (off i) q.bytes
        ∃ t, exec (.engineCommandBegin core .copy) s = .next t ∧ running .copy t ∧ (t.core core).slots = k.slots ∧ (t.core core).accs = k.accs
          ∧ (t.core dest).tile = (List.range d.elements).foldl (fun m i => m.writeN (off' i) ((bytes.drop (i * d.bytes)).take d.bytes)) (s.core dest).tile
          ∧ (∀ c, c ≠ dest → (t.core c).tile = (s.core c).tile)
          ∧ ((t.thread n.thread).extReg 6).val = 0 ∧ ((t.thread n.thread).extReg 7).val = 0)
      ∧ (∀ x u w e v y a r o dest sealed (key off chip : Nat → Nat), n.op = .scpy x u w e v y a r o → q.indEn = false → d.indEn = false →
        q.elements = d.elements → q.bytes = d.bytes → n.sealedAt = some sealed → (∀ c ∈ s.cells, c.leaving = false) →
        ((s.pager (pagerOf n.thread)).cache.Pairwise fun h g => h.epoch ≠ g.epoch ∨ h.base + h.size ≤ g.base ∨ g.base + g.size ≤ h.base) →
        (∀ i < q.elements, s.ElementOnPage n (q.address i none) q.bytes (key i)) →
        (∀ i < d.elements, s.ElementOnTile n (d.address i none) d.bytes .w dest (off i) (chip i)) →
        ∃ t, exec (.engineCommandBegin core .copy) s = .next t ∧ running .copy t ∧ (t.core core).slots = k.slots ∧ (t.core core).accs = k.accs
          ∧ (t.core dest).tile = (List.range d.elements).foldl (fun m i => m.writeN (off i) (s.mem.readN (key i) d.bytes)) (s.core dest).tile
          ∧ (∀ c, c ≠ dest → (t.core c).tile = (s.core c).tile)
          ∧ t.sealed = s.sealed.map fun r => if r.first = some sealed then { r with copies := r.copies - 1 } else r))
    ∧ ∀ g : EngineSel, (k.engine g).running = some n → n.flags.2 = false → coreOf n.thread = core →
      ∃ t, exec (.engineCommandComplete core g) s = .next t ∧ ((t.core core).engine g).running = none
        ∧ ((t.core core).engine g).queue = (k.engine g).queue ∧ t.mem = s.mem ∧ (t.core core).slots = k.slots ∧ (t.core core).accs = k.accs
        ∧ (t.thread n.thread).dep = ((s.thread n.thread).lower n.setd).dep
        ∧ ((s.thread n.thread).sync = some n.id → (s.thread n.thread).status = .wait .command → (t.thread n.thread).status = .ready)
        ∧ threads t

/-- R242, R256, R257, R258, R259, R260, R261: MCHK writes 1 where the accumulator holds no predictions and 0 where no row or column
exceeds the tolerance, and traps with MCK_SINGLE or MCK otherwise, the report written; MFIX takes the reported residue off the one
element reported and traps with MCK otherwise; ACCINJ inverts one bit, in supervisor or debug state only; AMOV reads an element
and the report's words and writes an element; MCVTA converts into a slot.  Predictions change only where the spec says.

The order of residue and claim checks, and the forms of AMOV, are the model's readings (logs 24, 42). -/
def Obligations.CheckAndRepairResults : Prop :=
  ∀ (s : State) (d a i j : BitVec 4) (n : BitVec 3) (x : BitVec 5) (t : BitVec 4) (sat : BitVec 1),
    let k := s.core (coreOf s.cur)
    let acc := k.acc n.toNat
    let set := if acc.checks.state = .f64 then [32 + n.toNat, 33 + n.toNat] else [32 + n.toNat]
    let e2 := (s.now.extReg 2).val
    let e3 := (s.now.extReg 3).val.toNat
    let r := checkReport k n.toNat e2
    let elem := fun (b : Block) (i : Nat) => b.extractLsb' (32 * i) 32
    let put := fun (v : Word) => (s.now.setReg d ⟨v, BitVec.ofNat 4 (v.toNat % 15)⟩).next 4
    let only := fun (t : State) (f : Acc → Acc) => s.keepsAllButCore t ∧ (t.core (coreOf s.cur)).slots = k.slots
      ∧ (t.core (coreOf s.cur)).acc n.toNat = f acc ∧ ∀ i, i ≠ n.toNat → (t.core (coreOf s.cur)).acc i = k.acc i
    s.Holds set →
      (s.Issues .matrix [d] →
        (acc.checks.state = .none → ∃ t, exec (.mchk d n) s = .next t ∧ t.now = put 1 ∧ only t fun y => { y with report := none })
        ∧ (acc.checks.state ≠ .none → r.nrows = 0 → r.ncols = 0 →
            ∃ t, exec (.mchk d n) s = .next t ∧ t.now = put 0 ∧ only t fun y => { y with report := none })
        ∧ (acc.checks.state ≠ .none → r.nrows ≠ 0 ∨ r.ncols ≠ 0 → s.Handles → ∃ t, exec (.mchk d n) s = .next t
            ∧ t.now = s.now.enterTrap (if r.nrows = 1 ∧ r.ncols = 1 then .mckSingle else .mck) none s.now.pc
                (if r.nrows = 1 ∧ r.ncols = 1 then BitVec.ofNat 64 (r.row + 16 * r.col + 256 * n.toNat)
                 else BitVec.ofNat 64 (256 * n.toNat + 2 ^ 16 * r.nrows + 2 ^ 24 * r.ncols))
            ∧ only t fun y => { y with report := some r })
        ∧ (acc.checks.state = .i32 → r.nrows = ((List.range 16).filter fun i =>
            decide (e2.toNat % 2 ^ 32 < ((List.range 16).foldl (fun z j => z + elem acc.bits (16 * i + j)) 0
              - (acc.checks.rows.getD i 0).setWidth 32).toInt.natAbs)).length)
        ∧ ∀ q ∈ [((0 : BitVec 7), (elem acc.bits (16 * (e3 % 16) + e3 / 16 % 16)).setWidth 64), (2, (acc.report.map Report.word).getD 0),
            (3, (acc.report.map (·.rho)).getD 0), (4, (acc.report.map (·.sigma)).getD 0)],
          exec (.amovRead d n q.1) s = .next (s.after .matrix fun _ => put q.2))
      ∧ (s.Issues .matrix [i, j] → s.Sound i → s.Sound j →
        (∀ q, acc.report = some q → q.single = true → q.row = (s.val i).toNat → q.col = (s.val j).toNat → q.row < 16 → q.col < 16 →
          acc.checks.state = .i32 ∨ acc.checks.state = .zero →
          ∃ t, exec (.mfix n i j) s = .next t ∧ t.now = s.now.next 4 ∧ ∃ bits, only t (fun y => { y with report := none, bits := bits })
            ∧ ∀ m < 256, elem bits m = if m = 16 * q.row + q.col
                then (if acc.checks.state = .zero then 0 else elem acc.bits m - q.rho.setWidth 32) else elem acc.bits m)
        ∧ (s.Handles → (∀ q, acc.report = some q → q.single = false ∨ q.row ≠ (s.val i).toNat ∨ q.col ≠ (s.val j).toNat) →
          ∃ v, exec (.mfix n i j) s = .next (s.trapped .mck v)))
      ∧ (s.Issues .matrix [a] → s.Sound a →
        (s.now.supv = true ∨ s.now.dbg = true → ∃ t, exec (.accinj n a) s = .next t ∧ t.now = s.now.next 4
          ∧ only t fun y => { y with bits := y.bits ^^^ (1 <<< (32 * (16 * ((s.val a).toNat % 16) + (s.val a).toNat / 16 % 16) + (s.val a).toNat / 256 % 32)) })
        ∧ (s.now.supv = false → s.now.dbg = false → s.Handles → exec (.accinj n a) s = .next (s.trapped .priv 0))
        ∧ ∃ t, exec (.amovWrite n a) s = .next t ∧ t.now = s.now.next 4
          ∧ ∃ bits, only t (fun y => { y with bits := bits, checks := { y.checks with state := .none, rows := Vector.replicate 16 0, cols := Vector.replicate 16 0 }, report := none })
          ∧ ∀ m < 256, elem bits m = if m = 16 * (e3 % 16) + e3 / 16 % 16 then (s.val a).setWidth 32 else elem acc.bits m)
      ∧ (s.Issues .matrix [] → s.Holds [32 + n.toNat, x.toNat] → acc.checks.state ≠ .f64 → (t = 0 ∨ t = 8 ∨ t = 9 ∨ t = 12) →
        (t = 12 → (s.now.extReg 0).val.toNat % 8 ≠ 0) →
        let w := if t = 8 ∨ t = 9 then 16 else 8
        ∃ u, exec (.mcvta n t sat x) s = .next u ∧ u.now = s.now.next 4 ∧ s.keepsAllButCore u ∧ (u.core (coreOf s.cur)).accs = k.accs
          ∧ (∀ m, m ≠ x.toNat → (u.core (coreOf s.cur)).slot m = k.slot m)
          ∧ ∀ m < 256, ((u.core (coreOf s.cur)).slot x.toNat).extractLsb' (512 * (m / 16) + w * (m % 16)) w
              = (if t = 0 then (let y := elem acc.bits m
                   if sat = 1 then BitVec.ofInt w (max (-128) (min 127 y.toInt)) else y.setWidth w)
                 else BitVec.ofNat w ((laneFmt t ((s.now.extReg 0).val.setWidth 5)).round .rne (sat == 1) (Fmt.f32.decode (elem acc.bits m).toNat)).1))


/-! ## Streams, near memory, tasks, calls and messages -/

/-- R104, R106, R171, R269, R270: STRM loads a pattern record from eight dwords, checks it, and replaces the slot, or traps with
STREAM and leaves it; WAITD goes on once every count of its mask is zero, and waits until then. -/
def Obligations.StreamResults : Prop :=
  ∀ (s : State) (n : BitVec 2) (a k : BitVec 4),
    (∀ unit off chip, s.Issues .copy [a] → (∀ i < 8, s.OnTile (s.val a + BitVec.ofNat 64 (8 * i)) 8 [.r] unit (off + 8 * i) (chip + 8 * i)
        ∧ s.poisonedAt (.tile unit) (off + 8 * i) 8 = false) →
      let p : Pattern := BitVec.ofNat 512 (s.tileBytes unit off 64)
      let fits := p.extractLsb' 67 1 = 0 ∧ p.extractLsb' 76 52 = 0 ∧ p.extractLsb' 448 64 = 0 ∧ p.esize ≠ 7 ∧ (p.indEn = true → p.indDim ≤ p.ndim)
        ∧ p.count 0 * p.count 1 * p.count 2 * p.count 3 < 2 ^ 32
      (fits → exec (.strm n a) s = .next (s.after .copy fun t => Thread.next { t with str := t.str.set n.toNat p n.isLt } 4))
      ∧ (¬ fits → s.Handles → exec (.strm n a) s = .next (s.trapped .stream 0)))
    ∧ (s.Issues .copy [] →
      ((∀ i < 4, k.getLsbD i = true → s.now.dep.getD i 0 = 0) →
        ∃ t, exec (.waitd k) s = .next t ∧ t.now = Thread.next { s.now with relDone := s.now.relDone &&& ~~~ k } 4 ∧ t.mem = s.mem
          ∧ (∀ j, j ≠ s.cur → t.thread j = s.thread j)
          ∧ (∀ c, t.core c = { s.core c with l1 := (t.core c).l1, touches := (t.core c).touches, ahead := (t.core c).ahead })
          ∧ (s.now.relDone &&& k = 0 → ∀ c, (t.core c).l1 = (s.core c).l1))
      ∧ ((∃ i < 4, k.getLsbD i = true ∧ s.now.dep.getD i 0 ≠ 0) →
        exec (.waitd k) s = .next (s.setThread s.cur { s.now with status := .wait .counts, since := none, begun := some .counts })))

/-- R135, R181, R209, R273, R274, R275, R276, R277, R296: CARM arms a region that no cell or region overlaps and takes its bytes out of
every L1, and disarms it; DFENCE goes on when the channel's reductions have read; PHASE asks the sequencer and waits, and the
sequencer's service raises the launch's counters and completes it.  NRED sends its reduction to the channel of its range and
marks its destination, going on unless SYNC is set; its result on an armed region of integers is their sum modulo the element
size, what hosts hold of the lines being written back first, and clears the mark.

That a reduction is one step is the model's choice (log 4). -/
def Obligations.NearMemoryResults : Prop :=
  (∀ (s : State) (a b : BitVec 4) (leaf : Word) (k : Nat),
     let ea := s.val a
     let h := keyChannel k
     let near := channelLocal leaf = true ∧ packageOf k = s.package
     let others := fun (t : State) => ∀ j, j ≠ s.cur → (t.thread j).regs = (s.thread j).regs ∧ (t.thread j).pc = (s.thread j).pc
     (s.Issues .near [a, b] → s.Distinct → s.Sound b → s.val b = 4096 → ea.toNat % 4096 = 0 → s.OnPage ea 1 [.w] leaf k → s.OnPage (ea + 4095) 1 [.w] leaf (k + 4095) →
       near → keyChannel (k + 4095) = h →
       (Leaf.cls leaf = 1 ∨ Leaf.cls leaf = 2 → s.hostBias k = false → s.host.flips = [] → s.isArmed k 4096 = false → (s.home h).armed.length < 16 →
         s.cellsAt k 4096 = [] →
         ∃ t, exec (.carmArm a b) s = .next t ∧ t.now = { s.now.next 4 with mon := t.now.mon } ∧ others t
           ∧ (t.home h).armed = (s.home h).armed ++ [(k, 4096)] ∧ (∀ j, j ≠ h → t.home j = s.home j)
           ∧ (∀ c, ∀ x ∈ (t.core c).l1, x.1 < k / 4 ∨ k + 4096 ≤ 4 * x.1) ∧ ∀ c, (t.core c).tile = (s.core c).tile)
       ∧ ((k, 4096) ∈ (s.home h).armed → (s.home h).nreds = [] →
         ∃ t, exec (.carmDisarm a b) s = .next t ∧ t.now = s.now.next 4 ∧ others t ∧ t.mem = s.mem
           ∧ (t.home h).armed = (s.home h).armed.filter (· != (k, 4096)) ∧ ∀ j, j ≠ h → t.home j = s.home j))
     ∧ (s.Issues .near [a] → s.OnPage ea 1 [.r] leaf k → near → (s.home h).nreds = [] →
       ∃ t, exec (.dfence a) s = .next t ∧ t.now = s.now.next 4 ∧ t.mem = s.mem ∧ t.homes = s.homes ∧ ∀ j, j ≠ s.cur → t.thread j = s.thread j)
     ∧ (s.Issues .phase [] →
       ∃ t, exec .phase s = .next t ∧ t.now = { s.now.next 4 with status := .wait .phase, since := some s.gtime, begun := some .phase }
         ∧ t.net.phases = s.net.phases ++ [s.cur]
         ∧ .phaseRequest ∈ t.agenda ∧ t.mem = s.mem ∧ t.cores = s.cores ∧ ∀ j, j ≠ s.cur → t.thread j = s.thread j)
     ∧ ∀ (j : Nat) (l : Launch), s.net.phases = [j] → s.launch (s.thread j).epoch = some l → s.homes = [] → (s.thread j).status = .wait .phase →
       l.slot < 16 →
       ∃ t, exec .phaseRequest s = .next t ∧ t.net.phases = [] ∧ (t.thread j).status = .ready ∧ t.mem = s.mem
         ∧ (∀ die < 4, Tab.get 0 t.phases (die * 16 + l.slot) = Tab.get 0 s.phases (die * 16 + l.slot) + 1)
         ∧ ∀ die < 4, ∀ n < 16, n ≠ l.slot → Tab.get 0 t.phases (die * 16 + n) = Tab.get 0 s.phases (die * 16 + n))
  ∧ ∀ (s : State) (d a w : BitVec 4) (e o : BitVec 2) (v sy acq rl : BitVec 1) (leaf leaf' : Word) (k k' : Nat),
      let ea := s.val a
      let h := keyChannel k
      (let e3 := (s.now.extReg 3).val.toNat
         let f := e3 / 4 % 8
         let n := if f = 0 ∨ f = 2 then 4 else 8
         let count := (s.now.extReg 4).val.toNat % 2 ^ 32
         let setd := if v = 1 then some e.toNat else none
         s.Issues .near [d, a] → s.Distinct → s.SoundExt 3 → s.SoundExt 4 → e3 % 4 ≠ 3 → f ≤ 3 → (e3 % 4 = 2 → f = 2) → o.toNat ≤ 2 → (isVent s.cur = true → w = 0 ∧ e = 0 ∧ v = 0) →
         1 ≤ count → count ≤ 2 ^ 24 → s.OnPage ea n [.r] leaf k → s.OnPage (ea + BitVec.ofNat 64 (n * (count - 1))) n [.r] leaf' k' →
         channelLocal leaf = true → packageOf k = s.package →
         channelLocal leaf' = true → k' = k + n * (count - 1) → keyChannel k' = h → s.now.nreds < 4 → (v = 1 → s.now.dep.getD e.toNat 0 ≠ 15) →
         ∃ (t : State) (q : Nred), exec (.nred d a w e v sy acq rl o) s = .next t ∧ (t.home h).nreds = (s.home h).nreds ++ [q]
           ∧ q.thread = s.cur ∧ q.dst = d ∧ q.op = e3 % 4 ∧ q.fmt = f ∧ q.count = count ∧ q.key = k ∧ q.ea = ea ∧ q.acq = (acq == 1)
           ∧ q.rel = (rl == 1) ∧ q.setd = setd ∧ q.sync = (sy == 1) ∧ q.scope = o.toNat
           ∧ t.now = (let x := Thread.next { s.now.raise setd with nreds := s.now.nreds + 1, pend := s.now.pend ||| 1 <<< d.toNat } 4
                      if sy = 1 then { x with status := .wait .nred, sync := some q.id, since := some s.gtime, begun := some .nred } else x)
           ∧ t.mem = s.mem ∧ (∀ j, j ≠ h → t.home j = s.home j) ∧ ∀ j, j ≠ s.cur → t.thread j = s.thread j)
      ∧ ∀ (h : Nat) (q : Nred), (s.home h).nreds = [q] → q.deps = [] → q.op = 0 → q.fmt ≤ 1 → 1 ≤ q.count → q.acq = false → q.rel = false →
         q.setd = none → q.sync = false → q.mixed = false → s.nredBlocked q = false → s.poisoned q.key q.size = false → s.logged q.key q.size = [] →
         (∃ r ∈ (s.home h).armed, r.1 ≤ q.key ∧ q.key + q.size ≤ r.1 + r.2) →
         let n := if q.fmt = 0 then 4 else 8
         let m := (s.dropHostLines q.key q.size).mem
         let sum : BitVec (8 * n) := BitVec.ofNat (8 * n) ((List.range q.count).foldl (fun z i => z + leNat (m.readN (q.key + n * i) n)) 0)
         let r : Word := sum.signExtend 64
         ∃ t, exec (.nredResult h 0) s = .next t ∧ t.mem = m ∧ (t.home h).nreds = [] ∧ (t.home h).armed = (s.home h).armed
           ∧ (t.thread q.thread).regs = ((s.thread q.thread).setReg q.dst ⟨r, BitVec.ofNat 4 (r.toNat % 15)⟩).regs
           ∧ (t.thread q.thread).marked q.dst = false ∧ ∀ j, j ≠ q.thread → (t.thread j).regs = (s.thread j).regs

/-- R42, R43, R50, R280, R281: SPAWN sends the record its operands describe to its anchor's home and waits for it to be accepted; with the
queue full it waits and sends nothing; a length outside 1 to 2^30 or a reserved flag traps with TASK.  QCFG writes the home's
configuration register. -/
def Obligations.SpawnAndConfigureResults : Prop :=
  ∀ (s : State) (a b : BitVec 4) (unit off chip : Nat) (leaf leaf' : Word) (k k' h : Nat),
    let tiles := fun (t : State) => ∀ c, (t.core c).tile = (s.core c).tile
    let others := fun (t : State) => ∀ j, j ≠ s.cur → (t.thread j).regs = (s.thread j).regs
    let word := fun (o : Nat) => (BitVec.ofNat 64 (s.tileBytes unit o 8) : Word)
    (s.Issues .spawn [a, 8, 9, 10, 11, 12, 13] → (∀ r ∈ [(8 : BitVec 4), 9, 10, 11, 12, 13], s.Sound r) →
      (∀ i < 4, s.OnTile (s.val a + BitVec.ofNat 64 (8 * i)) 8 [.r] unit (off + 8 * i) (chip + 8 * i) ∧ s.poisonedAt (.tile unit) (off + 8 * i) 8 = false) →
      let fits := (word (off + 16)).toNat < 4 ∧ 1 ≤ (s.val 13).toNat ∧ (s.val 13).toNat ≤ 2 ^ 30
      (¬ fits → s.Handles → exec (.spawn a) s = .next (s.trapped .task (s.val 12)))
      ∧ (fits → s.Distinct →
        s.OnPage (s.val 12) 1 [.r] leaf k → s.OnPage (s.val 12 + BitVec.ofNat 64 ((s.val 13).toNat - 1)) 1 [.r] leaf' k' →
        s.anchorHome leaf k = some h → s.anchorHome leaf' k' = some h → (s.core (coreOf (homeUnit h))).killed = false →
        (foreignHome h = false → queueSize h ≤ (s.home h).queue.length + s.inbound h →
          exec (.spawn a) s = .next (s.setThread s.cur { s.now with status := .wait .spawn, since := none, begun := some .spawn }))
        ∧ (foreignHome h = true ∨ (s.home h).queue.length + s.inbound h < queueSize h →
          ∃ (t : State) (r : Task), exec (.spawn a) s = .next t
            ∧ t.now = { s.now.next 4 with status := .wait .accept, since := some s.gtime, begun := some .accept, mon := t.now.mon }
            ∧ t.net.tasks = s.net.tasks ++ [(h, s.cur, r)] ∧ t.mem = (s.release s.cur).mem ∧ tiles t ∧ others t
            ∧ r.anchor = s.val 12 ∧ r.length = (s.val 13).toNat ∧ checkIn s.now.win (s.val 12) 1 [.r] = .ok (.virt r.va)
            ∧ r.nearPc = word off ∧ r.farPc = word (off + 8)
            ∧ r.args = ⟨#[s.val 8, s.val 9, s.val 10, s.val 11], rfl⟩ ∧ r.restart = (word (off + 16)).getLsbD 0 ∧ r.free = (word (off + 16)).getLsbD 1
            ∧ r.epoch = s.now.epoch ∧ r.origin = s.originOf s.cur)))
    ∧ (s.Issues .task [a, b] → s.Sound b → s.OnPage (s.val a) 1 [.w] leaf k → s.anchorHome leaf k = some h → foreignHome h = false →
      ∃ t, exec (.qcfg a b) s = .next t ∧ t.now = s.now.next 4 ∧ t.home h = (s.home h).configure (s.val b) ∧ t.mem = s.mem ∧ tiles t ∧ others t
        ∧ ∀ j, j ≠ h → t.home j = s.home j)

/-- R53, R55, R282: FORK adds one to its join word, here in tile memory, after a release, and pushes a child on its core's deque, or, where
the deque is full, runs it inline with its four registers saved below s14.  Here no strong access of another size meets the
join word (R170). -/
def Obligations.ForkResults : Prop :=
  ∀ (s : State) (a b : BitVec 4) (unit off chip : Nat),
    let released := (s.release s.cur).mem
    let others := fun (t : State) => ∀ j, j ≠ s.cur → (t.thread j).regs = (s.thread j).regs
    let frame : Word := (1 : Word) <<< 61 + s.val 14
    s.Issues .task [a, b, 7, 8, 9, 10, 11, 12, 13, 14, 15] → (∀ r ∈ [a, b, 7, 8, 9, 10, 11, 12, 13, 14, 15], s.Sound r) →
    s.OnTile (s.val b) 8 [.a, .w] unit off chip → s.poisonedAt (.tile unit) off 8 = false → s.Unmixed (chipKey chip) 8 →
    let joined := fun (m : Memory) => m.writeN off (leBytes 8 ((BitVec.ofNat 64 (s.tileBytes unit off 8) : Word) + 1).toNat)
    ((s.core (coreOf s.cur)).deque.length < 64 →
      ∃ t, exec (.fork a b) s = .next t ∧ t.now = { s.now.next 4 with mon := t.now.mon } ∧ others t ∧ t.mem = released
        ∧ (t.core unit).tile = joined (s.core unit).tile ∧ (∀ c, c ≠ unit → (t.core c).tile = (s.core c).tile)
        ∧ (t.core (coreOf s.cur)).deque = (s.core (coreOf s.cur)).deque
            ++ [⟨s.val a, ⟨#[s.val 8, s.val 9, s.val 10, s.val 11], rfl⟩, s.val b, s.originOf s.cur, s.now.epoch⟩])
    ∧ ∀ v o g, s.Canonical → 64 ≤ (s.core (coreOf s.cur)).deque.length → v ≠ unit →
      (∀ i < 4, s.OnTile (frame - BitVec.ofNat 64 (8 * (i + 1))) 8 [.w] v (o + 8 * (3 - i)) (g + 8 * (3 - i))) →
      ∃ t, exec (.fork a b) s = .next t ∧ others t ∧ t.mem = released ∧ (t.core (coreOf s.cur)).deque = (s.core (coreOf s.cur)).deque
        ∧ (t.core unit).tile = joined (s.core unit).tile
        ∧ (t.core v).tile.readN o 32 = leBytes 8 (s.val 7).toNat ++ leBytes 8 (s.val 12).toNat ++ leBytes 8 (s.val 13).toNat ++ leBytes 8 (s.val 15).toNat
        ∧ t.now.pc = s.val a &&& ~~~ 1 ∧ (t.now.reg 14).val = s.val 14 - 32 ∧ (t.now.reg 15).val = s.now.pc + 4 ∧ (t.now.reg 7).val = 4
        ∧ (t.now.reg 12).val = s.val b ∧ (t.now.reg 13).val = 0 ∧ ∀ r, r ∉ [(7 : BitVec 4), 12, 13, 14, 15] → t.now.reg r = s.now.reg r

/-- R285, R284, R292, R381: WFW puts a thread without work into WFW; DONE retires a task or a child after a release, taking one from the
child's join word, or closes an inline child and restores its four registers, or traps with TASK where there is nothing to end;
MIGR ships the context to the home of a line.  Here nothing that an end of work waits for is outstanding, no strong access of
another size meets the join word (R170), which is not zero, and an open inline child has left s12, s14, s15 and its frame as
FORK set them.

What MIGR carries is the model's reading (log 32). -/
def Obligations.EndOfWorkResults : Prop :=
  ∀ (s : State) (a : BitVec 4) (unit off chip : Nat),
    let released := (s.release s.cur).mem
    let tiles := fun (t : State) => ∀ c, (t.core c).tile = (s.core c).tile
    let word : Word := BitVec.ofNat 64 (s.tileBytes unit off 8)
    let joins := fun (j : Word) => s.OnTile j 8 [.a, .w] unit off chip ∧ s.poisonedAt (.tile unit) off 8 = false
      ∧ s.Unmixed (chipKey chip) 8 ∧ word ≠ 0
    let frame : Word := (1 : Word) <<< 61 + s.val 14
    (s.Issues .work [] → s.now.work = none → s.endingBusy s.cur = false →
      ∃ t, exec .wfw s = .next t ∧ t.now.status = .wfw ∧ t.now.pc = s.now.pc + 4 ∧ t.now.regs = s.now.regs ∧ t.mem = s.mem ∧ tiles t
        ∧ (t.server (serverOf s.cur)).order = (s.server (serverOf s.cur)).order.filter (· != s.cur) ++ [s.cur])
    ∧ (s.Issues .work [a, 7] → s.Sound a →
      (s.val 7 ≠ 4 → s.now.inlines = [] → s.endingBusy s.cur = false → s.Settled →
        (∀ h q far origin, s.now.work = some ⟨.task h q far, origin⟩ →
          ∃ t, exec (.done a) s = .next t ∧ t.now.status = .wfw ∧ t.now.work = none ∧ t.now.trapm = false ∧ t.now.regs = s.now.regs ∧ t.mem = released
            ∧ (t.home h).queue = (s.home h).queue.filter fun r => !(r.seq.toNat == q && r.epoch == s.now.epoch && r.runner == some s.cur))
        ∧ (∀ j origin, s.now.work = some ⟨.child j, origin⟩ → joins j →
          ∃ t, exec (.done a) s = .next t ∧ t.now.status = .wfw ∧ t.now.work = none ∧ t.now.regs = s.now.regs ∧ t.mem = released
            ∧ (t.core unit).tile = (s.core unit).tile.writeN off (leBytes 8 (word - 1).toNat)))
      ∧ (s.val 7 ≠ 4 → s.now.inlines = [] → s.now.work = none → s.Handles → exec (.done a) s = .next (s.trapped .task 0))
      ∧ ∀ v o g, s.val 7 = 4 → s.Settled → (∀ r ∈ [(12 : BitVec 4), 13, 14, 15], s.now.marked r = false) → s.Sound 14 →
        joins (s.val 12) → v ≠ unit →
        (∀ i < 4, s.OnTile (frame + BitVec.ofNat 64 (8 * i)) 8 [.r] v (o + 8 * i) (g + 8 * i) ∧ s.poisonedAt (.tile v) (o + 8 * i) 8 = false) →
        let f := fun (i : Nat) => BitVec.ofNat 64 (s.tileBytes v (o + 8 * i) 8)
        (∀ i ∈ s.now.inlines.take 1, i.join = s.val 12 ∧ i.top = s.val 14 ∧ i.back = s.val 15 ∧ i.saved.toList = [f 0, f 1, f 2, f 3]) →
        ∃ t, exec (.done a) s = .next t ∧ t.now.pc = s.val 15 &&& ~~~ 1 ∧ t.now.status = .ready ∧ t.mem = released
          ∧ (t.core unit).tile = (s.core unit).tile.writeN off (leBytes 8 (word - 1).toNat)
          ∧ (t.now.reg 7).val = f 0 ∧ (t.now.reg 12).val = f 1 ∧ (t.now.reg 13).val = f 2 ∧ (t.now.reg 15).val = f 3 ∧ (t.now.reg 14).val = s.val 14 + 32
          ∧ ∀ r, r ∉ [(7 : BitVec 4), 12, 13, 14, 15] → t.now.reg r = s.now.reg r)
    ∧ ∀ leaf k, s.Issues .task (a :: allScalars) → (∀ r, s.Sound r) → s.OnPage (s.val a) 1 [.r] leaf k → packageOf k = s.package →
      s.endingBusy s.cur = false →
      ∃ (t : State) (m : Migrant), exec (.migr a) s = .next t ∧ t.now.status = .idle ∧ t.now.work = none ∧ t.net.migrants = s.net.migrants ++ [m]
        ∧ m.ctx.pc = s.now.pc + 4 ∧ m.ctx.regs = s.now.regs ∧ m.ctx.win = s.now.win ∧ m.ctx.work = s.now.work ∧ m.ctx.epoch = s.now.epoch
        ∧ m.ctx.vec = Vector.replicate 8 0 ∧ m.ctx.ext = Vector.replicate 8 ⟨0, 0⟩ ∧ m.source = s.cur ∧ tiles t
        ∧ t.mem = ((s.release s.cur).flushNC (coreOf s.cur)).mem

/-- R293, R294, R295: SEND releases, puts 64 bytes on their way to its rank and waits for their acceptance, or traps with RANK where no
such rank is valid; RECV takes the oldest message, and waits while there is none. -/
def Obligations.MessageResults : Prop :=
  ∀ (s : State) (d a b : BitVec 4) (unit off chip : Nat),
    let tiles := fun (t : State) => ∀ c, (t.core c).tile = (s.core c).tile
    let others := fun (t : State) => ∀ j, j ≠ s.cur → (t.thread j).regs = (s.thread j).regs
    let entry := s.rankEntry s.now.epoch ((s.val a).toNat % 2 ^ 32)
    (s.Issues .task [a, b] → s.Sound a →
      (entry.getLsbD 44 = true → entry.getLsbD 46 = false → isVent (entry.toNat % 2 ^ 44 % 2 ^ 24) = false →
        s.OnTile (s.val b) 64 [.r] unit off chip → s.poisonedAt (.tile unit) off 64 = false →
        ∃ t, exec (.send a b) s = .next t
          ∧ t.now = { s.now.enter .send s.gtime with mon := t.now.mon }
          ∧ t.mem = (s.release s.cur).mem ∧ tiles t ∧ others t
          ∧ t.net.msgs = s.net.msgs ++ [⟨s.cur, s.val a, entry.toNat % 2 ^ 44, BitVec.ofNat 512 (s.tileBytes unit off 64), false⟩])
      ∧ (s.Handles → entry.getLsbD 44 = false → exec (.send a b) s = .next (s.trapped .rank (s.val a))))
    ∧ (∀ m rest, s.Issues .task [d, a] → s.now.mail = m :: rest → s.OnTile (s.val a) 64 [.w] unit off chip →
      ∃ t, exec (.recv d a) s = .next t ∧ others t ∧ t.mem = s.mem
        ∧ t.now = (Thread.setReg { s.now with mail := rest ++ s.now.late.take 1, late := s.now.late.drop 1 } d
            ⟨(m.sender.setWidth 32).setWidth 64, BitVec.ofNat 4 (m.sender.toNat % 2 ^ 32 % 15)⟩).next 4
        ∧ (t.core unit).tile = (s.core unit).tile.writeN off (leBytes 64 m.body.toNat) ∧ ∀ c, c ≠ unit → (t.core c).tile = (s.core c).tile)
    ∧ (s.Issues .task [d, a] → s.now.mail = [] → exec (.recv d a) s = .next (s.setThread s.cur { s.now with status := .wait .recv, since := none, begun := some .recv }))

/-- R135, R153, R286, R287, R289, R290: RCALL and RCALLA release and send the call with its payload and the acknowledgements owed to its
unit, the one waiting, the other marking s8 to s11; REPLY and RFWD answer or forward the call their thread serves, record it in
the reply cache, and leave their thread in WFW.  Outside remote mode they trap with ILLEGAL.

Traffic to other packages leaves the model (log 18). -/
def Obligations.CallResults : Prop :=
  ∀ (s : State) (a b : BitVec 4) (n : BitVec 3),
    let released := (s.release s.cur).mem
    let args := (List.range n.toNat).map fun i => s.val (BitVec.ofNat 4 (8 + i))
    let named := (List.range n.toNat).map fun i => BitVec.ofNat 4 (8 + i)
    let tiles := fun (t : State) => ∀ c, (t.core c).tile = (s.core c).tile
    let others := fun (t : State) => ∀ j, j ≠ s.cur → (t.thread j).regs = (s.thread j).regs
    (∀ leaf k, s.Issues .call ([a, b, 8, 9, 10, 11] ++ named) → n.toNat ≤ 6 → (∀ r ∈ [a, b] ++ named, s.Sound r) → s.OnPage (s.val a) 1 [.r] leaf k →
      let u := s.callUnit s.now.epoch leaf k
      u < 2 ^ 16 →
      let owed := (s.now.acks.filter (·.1 == u)).map (·.2)
      let limit := max 1000 s.now.rcto.toNat
      let sent := fun (t : State) => t.net.calls = s.net.calls
            ++ [⟨s.cur, s.now.callId, s.now.epoch, s.originOf s.cur, u, s.val a, s.val b, args, owed.drop (s.now.dbgdrop.toNat / 256)⟩]
        ∧ t.mem = released ∧ tiles t ∧ others t ∧ t.now.regs = s.now.regs ∧ t.now.callId = s.now.callId + 1
        ∧ t.now.acks = s.now.acks.filter (·.1 != u) ∧ .callerTimer s.cur ∈ t.agenda
        ∧ ∃ c, t.now.call = some c ∧ c.callId = s.now.callId ∧ c.resends = 0 ∧ c.due = s.gtime + limit ∧ c.limit = limit
            ∧ c.retries = s.now.rcretry.toNat
      (∃ t, exec (.rcall a b n) s = .next t ∧ sent t ∧ t.now.status = .wait .call ∧ t.now.pc = s.now.pc)
      ∧ ∃ t, exec (.rcalla a b n) s = .next t ∧ sent t ∧ t.now.status = .ready ∧ t.now.pc = s.now.pc + 4 ∧ t.now.pend = s.now.pend ||| 0x0F00)
    ∧ (∀ c e, s.now.callee = some c → s.now.remote = true → s.endingBusy s.cur = false →
      (s.server (serverOf s.cur)).cache = [e] → e.caller = c.caller → e.callId = c.callId →
      (s.Issues .reply named → n.toNat ≤ 4 → (∀ r ∈ named, s.Sound r) →
        ∃ t, exec (.reply n) s = .next t ∧ t.now.status = .wfw ∧ t.now.remote = false ∧ t.now.callee = none ∧ t.mem = released
          ∧ t.net.replies = s.net.replies ++ [⟨serverOf s.cur, c.caller, c.callId, some (.reply args)⟩]
          ∧ (t.server (serverOf s.cur)).cache = [{ e with answer := some (.reply args), due := s.gtime + 100000 }])
      ∧ ∀ leaf k va, s.Issues .reply ([a, b] ++ named) → n.toNat ≤ 6 → (∀ r ∈ [a, b] ++ named, s.Sound r) →
        checkIn s.now.win (s.val a) 1 [.r] = .ok (.virt va) → (∃ slot h g, (s.pager (pagerOf s.cur)).rootFor s.now.epoch = some slot
          ∧ (s.pager (pagerOf s.cur)).look s.now.epoch va = some (h, g) ∧ s.judge s.now.epoch h.leaf 0 va [.r] h.mixed = .ok leaf k false) →
        let u := s.callUnit s.now.epoch leaf k
        let call : Call := ⟨c.caller, c.callId, c.epoch, c.origin, u, s.val a, s.val b, args, []⟩
        u < 2 ^ 16 →
        ∃ t, exec (.rfwd a b n) s = .next t ∧ t.now.status = .wfw ∧ t.now.remote = false ∧ t.net.calls = s.net.calls ++ [call] ∧ t.mem = released
          ∧ (t.server (serverOf s.cur)).cache = [{ e with forward := some call }])
    ∧ (s.Issues .reply [] → s.now.callee = none → s.Handles → exec (.reply 0) s = .next (s.trapped .illegal 0)
        ∧ exec (.rfwd 0 0 0) s = .next (s.trapped .illegal 0))

/-! ## Happenings -/

/-- R11, R31, R37, R139, R167, R174, R180, R204, R205, R211, R222, R223, R319, R320: what ends a thread's waits and what the storage does of itself.  A
deferred cause is taken at a ready thread's instruction boundary; a checker mismatch marks an instruction to be issued again; a reply, a
time limit, an unsealing and the vector unit make their threads ready; a recall merges a word's dirty bytes and drops it; a fill brings the
sectors of one grain into its line, or into a free way; a decay halves the counters of its controller.  No general register changes.

The L2's geometry, the order of deferred causes and the count of transfers are the model's choices and readings (logs 12, 36,
39). -/
def Obligations.WaitsAndStorage : Prop :=
  ∀ (s : State) (t : Nat),
    let x := s.thread t
    let regs := fun (u : State) => ∀ j, (u.thread j).regs = (s.thread j).regs
    let readied := fun (limit : Bool) => s.setThread t { x with status := .ready, expired := x.expired || limit }
    (∀ d rest, x.status = .ready → s.slotRemoved t = false → (s.core (coreOf t)).stopped = false → x.trapm = false → x.causes = d :: rest →
      x.callee = none → d.cause.ending = false → d.cause ≠ .residue →
      ∃ u, exec (.deferredTrap t) s = .next u ∧ u.thread t = Thread.enterTrap { x with causes := rest } d.cause d.parked x.pc d.tval
        ∧ u.mem = s.mem ∧ (∀ j, j ≠ t → u.thread j = s.thread j) ∧ ∀ c, (u.core c).tile = (s.core c).tile)
    ∧ (∀ i, x.status = .ready → s.silent t = false → x.reissue = false → s.nextInstr t = some i → i.size = 4 → encodeWord i / 2 ^ 25 % 64 ≤ 7 →
      ∃ u, exec (.checkerReissue t) s = .next u ∧ regs u ∧ (u.thread t).reissue = true ∧ (u.thread t).pc = x.pc ∧ u.mem = s.mem)
    ∧ (x.status = .wait .memory → exec (.memoryReply t) s = .next (s.setThread t { x with status := .ready, answered := true }))
    ∧ (x.status = .wait .monitor → exec (.mwaitTimeout t) s = .next (readied true))
    ∧ (x.status = .wait .pairBuffer → exec (.tentFullTimeout t) s = .next (readied true))
    ∧ (x.status = .wait .sealed → exec (.unseal t) s = .next (readied false))
    ∧ (∀ ev, x.status = .wait .vector → x.taken = false → (s.tile (tileOf t)).queue = [(t, false, ev)] → (s.tile (tileOf t)).pointer < 4 →
      ∃ u, exec (.vectorAccept (tileOf t)) s = .next u ∧ (u.thread t).status = .ready ∧ (u.thread t).taken = true ∧ regs u
        ∧ (u.tile (tileOf t)).queue = [] ∧ (u.tile (tileOf t)).pointer = (coreInTile t + 1) % 4)
    ∧ (x.status = .wait .vector → x.taken = true → isVent t = false → (s.tile (tileOf t)).pipe = some t →
      ∃ u, exec (.vectorComplete t) s = .next u ∧ (u.thread t).status = .ready ∧ (u.thread t).finished = true ∧ regs u
        ∧ (u.tile (tileOf t)).pipe = none)
    ∧ (x.status = .wait .vector → x.taken = true → isVent t = true → (s.core (coreOf t)).datapath = some t → (s.core (coreOf t)).pipe ≠ some t →
      ∃ u, exec (.vectorComplete t) s = .next u ∧ (u.thread t).status = .ready ∧ (u.thread t).finished = true ∧ regs u
        ∧ (u.core (coreOf t)).datapath = none)
    ∧ (∀ core a y, s.Canonical → packageOf (keyOf a) = s.package → Tab.find (s.core core).l1 (keyOf a / 4) = some y →
      ∃ u, exec (.ownershipRecall core a) s = .next u ∧ regs u
        ∧ u.homeWord (keyOf a / 4) = mergeWord (s.homeWord (keyOf a / 4)) y.val y.dirty
        ∧ (u.core core).l1 = Tab.drop (s.core core).l1 (keyOf a / 4)
        ∧ (∀ b, b / 4 ≠ keyOf a / 4 → u.mem.read b = s.mem.read b) ∧ ∀ j, (u.core j).tile = (s.core j).tile)
    ∧ (∀ slice cls a, let k := s.localKey a
      let line := k / 512 * 512
      let g := s.grainAt k
      let key := k / g * g
      let home := s.homeSlice line
      let set := Config.setOf line % (sliceLines / sliceWays)
      let free := fun (w : Nat) => ∀ l ∈ s.lines, l.slice = home.1 * 8 + home.2 → l.set = set → l.way ≠ w
      let came := fun (u : State) => regs u ∧ u.mem = s.mem ∧ ∀ j m, (s.thread j).status = .wait (.fill m) → key ≤ m → m < key + g →
        (u.thread j).status = .ready ∧ (u.thread j).answered = true
      s.hostBias k = false → s.isArmed key g = false → s.inTransition k = false → s.resident k = false →
      ((∀ l ∈ s.lines, l.key ≠ line) → (∃ w < sliceWays, free w) →
        ∃ u w, exec (.l2Fill slice cls a) s = .next u ∧ came u ∧ w < sliceWays ∧ free w
          ∧ u.lines = ⟨home.1 * 8 + home.2, set, w, line, sectorsIn line key g⟩ :: s.lines)
      ∧ ((∃ l ∈ s.lines, l.key = line) →
        ∃ u, exec (.l2Fill slice cls a) s = .next u ∧ came u
          ∧ u.lines = s.lines.map fun l => if l.key = line then { l with valid := l.valid ||| sectorsIn line key g } else l))
    ∧ ∀ ctrl, (s.hotctlOf ctrl >>> 16).toNat % 2 ^ 16 ≠ 0 →
      ∃ u, exec (.hotnessDecay ctrl) s = .next u ∧ regs u ∧ u.mem = s.mem
        ∧ u.hot = s.hot.map fun (e : Nat × BitVec 16) => if controllerOf (e.1 / 8 * 0x10000) = ctrl then (e.1, e.2 >>> 1) else e

/-- R92, R94, R175, R176, R177, R178, R301, R306, R307, R308, R378: leases, windows, clocks, walks and shootdowns.  A lease whose time has come is
written back and one past its guard is revoked; a refusal is remembered for the next release; a window's start lets fences look
again; the grandmaster sets the clock, which never goes back; a walk's leaf is cached when no shootdown came between; a shootdown drops what it
names and counts a generation, and gives up the homes of its pages' lines when it completes; a view and the window length take their values.

Time, the tval of LEASE_EXPIRED and walks are the model's choices and readings (logs 8, 37, 48). -/
def Obligations.LeasesAndTranslation : Prop :=
  ∀ (s : State),
    let regs := fun (u : State) => ∀ j, (u.thread j).regs = (s.thread j).regs
    (∀ l, s.host.held = [l] → l.expiry ≤ s.gtime + 250 → l.revoked = false →
      ∃ u, exec (.leaseExpiry 0) s = .next u ∧ regs u ∧ u.host.held = [] ∧ u.mem = s.mem.writeN l.key (leBytes (if l.dword then 8 else 4) l.val.toNat))
    ∧ (∀ l, s.host.given = [] → s.host.held = [l] → l.expiry + 250 ≤ s.gtime → l.revoked = false →
      ∃ u, exec (.leaseRevocation 0) s = .next u ∧ regs u ∧ u.host.held = [{ l with revoked := true }] ∧ u.mem = s.mem)
    ∧ (∀ l, s.net.refusals = [l] → (s.thread l.holder).lease = none →
      exec (.leaseRefusal 0) s = .next (State.setThread { s with net := { s.net with refusals := [] } } l.holder { s.thread l.holder with lease := some l.ea }))
    ∧ (∀ j, (s.thread j).status = .wait .fence →
      ∃ u, exec .windowBoundary s = .next u ∧ regs u ∧ (u.thread j).status = .ready ∧ u.mem = s.mem)
    ∧ (∀ time, ∃ b, exec (.timeSync time) s = .next { s with gtime := max s.gtime time, synced := b })
    ∧ (∀ p w n leaf k, (s.pager p).walks = [w] → w.gen = (s.pager p).gen → (s.pager p).rootFor w.epoch = some n →
      s.walk (s.pager p) n w.va = some (leaf, k) → Leaf.present leaf = true →
      ∃ u h, exec (.walkComplete p 0) s = .next u ∧ regs u ∧ (u.pager p).walks = [] ∧ (u.pager p).cache.head? = some h
        ∧ h.slot = n ∧ h.epoch = w.epoch ∧ h.leaf = leaf ∧ h.base = w.va / Leaf.bytes leaf * Leaf.bytes leaf ∧ h.size = Leaf.bytes leaf ∧ u.mem = s.mem)
    ∧ (∀ p v, (s.pager p).busy = false →
      ∃ u, exec (.pgshoot p v) s = .next u ∧ regs u ∧ (u.pager p).gen = (s.pager p).gen + 1 ∧ (u.pager p).busy = true
        ∧ (u.pager p).cache = (s.pager p).cache.filter (fun h => !shot (BitVec.ofNat 64 v) h) ∧ .shootdownComplete p ∈ u.agenda ∧ u.mem = s.mem)
    ∧ (∀ p, (s.pager p).shots = [] → s.shotPending p = false →
      ∃ u, exec (.shootdownComplete p) s = .next u ∧ u.pager p = { s.pager p with busy := false, going := [] } ∧ u.mem = s.mem
        ∧ u.homed = (s.homed.filter fun e => !(s.pager p).going.any fun h => !Leaf.remote h.leaf && Leaf.frame h.leaf == e.1)
        ∧ ∀ j, u.thread j = s.thread j)
    ∧ (∀ n value, n < 192 →
      ∃ u, exec (.viewRegisterWrite (4 * n + 1) value) s = .next u ∧ regs u ∧ u.mem = s.mem
        ∧ u.view n = { s.view n with base := BitVec.ofNat 64 value &&& 0xFFFFFFFFFFF } ∧ (∀ m, m ≠ n → u.view m = s.view m)
        ∧ u.decoded = s.decoded.filter fun (e : Nat × List Byte) => !overlaps e.1 64 (0x10000000000 + n * 2 ^ 32) (2 ^ 32))
    ∧ (∀ n value, n < 192 → (BitVec.ofNat 64 value).getLsbD 0 = true → View.acceptable (n / 16) { s.view n with cfg := BitVec.ofNat 64 value &&& 0x1FFFF } = false →
      ∃ u, exec (.viewRegisterWrite (4 * n) value) s = .next u ∧ (u.view n).enabled = false)
    ∧ ∀ io value, io < 2 → 1 ≤ value → value ≤ 16 →
      ∃ u, exec (.wlenWrite io value) s = .next u ∧ regs u ∧ u.wlen.getD io 0 = BitVec.ofNat 5 value ∧ u.mem = s.mem


/-! ## Queues, dispensers and launches -/

/-- R42, R44, R46, R47, R48, R51, R53, R57, R59, R64, R65, R66, R67, R68, R248, R279, R375: what the queues do.  A record accepted by its home,
whose queue has room, takes the next SEQ at the young end and frees its spawner; a head take gives the oldest eligible entry to the earliest waiting thread
of the vent core, running NEAR_PC; a steal takes the youngest eligible entry, running FAR_PC, while Q exceeds T; a dispenser gives the
bottom of a thread's own deque; T follows the service mean; notices and words are counted, and the root's word completes its launch.

The home cycles that a body ran are free, and notices are delivered as log 35 says (logs 11, 35). -/
def Obligations.QueueAndLaunchResults : Prop :=
  ∀ (s : State),
    let regs := fun (u : State) => ∀ j, (u.thread j).regs = (s.thread j).regs
    let given := fun (u : State) (t kind : Nat) (args : Vector Word 4) (x12 x13 pc : Word) =>
      (u.thread t).pc = pc &&& ~~~ 1 ∧ (u.thread t).status = .ready ∧ (u.thread t).tvec = 0 ∧ ((u.thread t).reg 7).val = BitVec.ofNat 64 kind
        ∧ (∀ (i : Nat) (_ : i < 4), (u.thread t).reg (BitVec.ofNat 4 (8 + i)) = Reg.of args[i]) ∧ ((u.thread t).reg 12).val = x12
        ∧ ((u.thread t).reg 13).val = x13 ∧ (∀ r, r ∉ [(7 : BitVec 4), 8, 9, 10, 11, 12, 13] → (u.thread t).reg r = (s.thread t).reg r)
        ∧ (∀ j, j ≠ t → (u.thread j).regs = (s.thread j).regs) ∧ t ∉ (u.server (serverOf t)).order ∧ u.mem = s.mem
    let runs := fun (u : State) (h t : Nat) (r : Task) => (u.home h).queue =
      (s.home h).queue.map fun y => if y == r then { y with running := true, runner := some t } else y
    (∀ core e c copy, ((s.core core).engine e).running = some c → c.recordSrc = some copy → s.offline c.epoch = true →
      ((s.thread c.thread).extReg 6).val.getLsbD 63 = false →
      ∃ u, exec (.engineCheckpointTimeout core e) s = .next u ∧ regs u ∧ u.mem = s.mem ∧ ((u.core core).engine e).running = none
        ∧ ((u.core core).engine e).queue = c :: ((s.core core).engine e).queue
        ∧ ((u.thread c.thread).extReg 6).val = progressWord copy (Pattern.elements (if copy then c.dst else c.src)))
    ∧ (∀ h, ((s.home h).nreds.any fun r => s.nredReady r) = true →
      exec (.nredYieldTimeout h) s = .next (s.setHome h { s.home h with replays := satAdd (s.home h).replays 1 }))
    ∧ (∀ h unit r, s.net.tasks = [(h, unit, r)] → foreignHome h = false → (512 ≤ h ∨ (s.core (coreOf (homeUnit h))).killed = false) →
      (s.home h).queue.length < queueSize h → (s.thread unit).status = .wait .accept →
      ∃ u, exec (.taskRecord 0) s = .next u ∧ regs u ∧ u.mem = s.mem ∧ u.net.tasks = [] ∧ (u.thread unit).status = .ready
        ∧ (u.home h).queue = (s.home h).queue ++ [{ r with seq := (s.home h).seq }] ∧ (u.home h).seq = (s.home h).seq + 1 ∧ .headTake h ∈ u.agenda)
    ∧ (∀ p t rest r, p < 512 → (s.core (coreOf (homeUnit p))).killed = false → (s.server (4096 + p)).calls = [] → serverOf t = 4096 + p →
      (s.server (4096 + p)).order.filter (fun t => decide (slotOf t < 6)) = t :: rest → (s.home p).eligible.find? (fun r => !s.offline r.epoch) = some r →
      ∃ u, exec (.headTake p) s = .next u ∧ given u t 0 r.args r.anchor (BitVec.ofNat 64 r.length) r.nearPc ∧ runs u p t r
        ∧ (u.thread t).win = s.windowsOf r.epoch ∧ (u.thread t).epoch = r.epoch ∧ (u.thread t).work = some ⟨.task p r.seq.toNat false, r.origin⟩)
    ∧ (∀ c h e t r, s.offline (BitVec.ofNat 16 e) = false → (512 ≤ h ∨ (s.core (coreOf (homeUnit h))).killed = false) → (s.home h).stealable = true →
      ((s.home h).eligible.filter fun r => r.epoch == BitVec.ofNat 16 e).getLast? = some r →
      (s.waiters c).find? (fun t => (s.thread t).epoch == BitVec.ofNat 16 e) = some t →
      ∃ u, exec (.stealRequest c h e) s = .next u ∧ given u t 1 r.args r.anchor (BitVec.ofNat 64 r.length) r.farPc ∧ runs u h t r
        ∧ (u.thread t).work = some ⟨.task h r.seq.toNat true, r.origin⟩ ∧ (u.cluster c).ptr4 = h + 1)
    ∧ (∀ c h e, (s.home h).stealable = false →
      ∃ u, exec (.stealRequest c h e) s = .next u ∧ regs u ∧ u.homes = s.homes ∧ h ∈ (u.cluster c).refused)
    ∧ (∀ c t rest l ds d, (s.server c).calls = [] → s.waiters c = t :: rest → isVent t = false → s.launch (s.thread t).epoch = some l → l.phase = .running →
      (s.core (coreOf t)).deque = ds ++ [d] → d.epoch = l.epoch → (s.core (coreOf t)).killed = false →
      ∃ u, exec (.dispenserDispatch c) s = .next u ∧ given u t 2 d.args d.join 0 d.entry ∧ (u.core (coreOf t)).deque = ds
        ∧ (u.thread t).work = some ⟨.child d.join, d.origin⟩)
    ∧ (∀ h, (s.home h).adapt = true →
      ∃ u, exec (.thresholdUpdate h) s = .next u ∧ regs u ∧ u.mem = s.mem ∧ u.home h = { s.home h with
        teff := BitVec.ofNat 8 (min (max ((s.home h).target * s.serversOf h / max 1 (s.home h).mean) (s.home h).tmin) (s.home h).tmax) })
    ∧ (∀ m, s.net.creates = [m] → (∀ x ∈ s.net.retires, x.sameWay m = true → m.tick ≤ x.tick) →
      ∃ u, exec (.creationNotice 0) s = .next u ∧ regs u ∧ u.mem = s.mem ∧ u.net.creates = []
        ∧ u.countsOf m.cluster m.epoch = { s.countsOf m.cluster m.epoch with unretired := (s.countsOf m.cluster m.epoch).unretired + 1 })
    ∧ (∀ m, s.net.retires = [m] → s.net.creates = [] →
      let n := s.countsOf m.cluster m.epoch
      ∃ u, exec (.retirementNotice 0) s = .next u ∧ regs u ∧ u.mem = s.mem ∧ u.net.retires = []
        ∧ u.countsOf m.cluster m.epoch = if m.code = 0
          then { n with unretired := n.unretired - 1, completed := min (n.completed + 1) 0xFFFFFFFF }
          else { n with unretired := n.unretired - 1, failed := min (n.failed + 1) 0xFFFF, fault := earliest n.fault m.code m.time })
    ∧ (∀ c e l i, s.launch (BitVec.ofNat 16 e) = some l → l.geyser s.package c = some i → l.phase = .running → l.epoch = BitVec.ofNat 16 e →
      let n := s.countsOf c l.epoch
      n.reported = false → s.quiescent l i c = true →
      (i = 0 → ∃ u, exec (.clusterQuiescent c e) s = .next u ∧ regs u ∧ u.mem = s.mem ∧ (u.countsOf c l.epoch).reported = true
        ∧ u.net.words = s.net.words ++ [(c, firmware, l.epoch, n.word)])
      ∧ ∀ d, i ≠ 0 → l.clusters[(i - 1) / 4]? = some (s.package, d) →
        ∃ u, exec (.clusterQuiescent c e) s = .next u ∧ regs u ∧ u.mem = s.mem ∧ (u.countsOf c l.epoch).reported = true
          ∧ u.net.words = s.net.words ++ [(c, d, l.epoch, n.word)])
    ∧ (∀ a c e w, s.net.words = [(a, c, e, w)] → c ≠ firmware →
      ∃ u, exec (.childStatusWord 0) s = .next u ∧ regs u ∧ u.mem = s.mem ∧ u.net.words = []
        ∧ (u.countsOf c e).heard = (s.countsOf c e).heard ++ [w])
    ∧ ∀ c e w l, s.net.words = [(c, firmware, BitVec.ofNat 16 e, w)] → s.launch (BitVec.ofNat 16 e) = some l → s.Canonical →
      (∀ f ∈ l.frames, ∀ x ∈ s.host.lines, x.covers (s.pageKey f) 4096 = false) →
      ∃ u, exec (.launchComplete e) s = .next u
        ∧ u.launch (BitVec.ofNat 16 e) = some { l with phase := .complete, word := some w, frames := [], saved := none }
        ∧ u.mem.readN (s.hostKey l.master l.compAt) 16 = leBytes 8 w.toNat ++ leBytes 8 (BitVec.ofNat 16 e).toNat ∧ (l.master, l.vector) ∈ u.fw.msix
        ∧ ∀ k ∈ u.cells, k.epoch ≠ BitVec.ofNat 16 e

/-! ## Calls, migration and messages on their way -/

/-- R29, R153, R286, R287, R288, R289, R290, R292, R293, R294: what arrives.  A call is dispatched to the thread of its unit, s7 := 3 and s8 up := the
payload, in remote mode with the launch's windows; a reply completes its RCALL, its values in s8 up and the rest of s8 to s11 zero, and
owes an acknowledgement; the acknowledgement frees the reply-cache entry; a caller's timer, with the limits of its RCALL,
sends the call again; a
retraction frees the entry too; a migrating context is READY in the first idle thread of its cluster; a message reaches its
mailbox or comes back as a NAK, and is sent again. -/
def Obligations.CallAndMessageArrivals : Prop :=
  ∀ (s : State),
    let regsBut := fun (u : State) (t : Nat) => ∀ j, j ≠ t → (u.thread j).regs = (s.thread j).regs
    let regs := fun (u : State) => ∀ j, (u.thread j).regs = (s.thread j).regs
    (∀ c t, s.net.calls = [c] → c.acks = [] → s.unitDead c.unit = false → s.server c.unit = ⟨(s.server c.unit).order, [], []⟩ → s.offline c.epoch = false →
      s.callThread c.unit = some t →
      ∃ u, exec (.callArrival 0) s = .next u ∧ regsBut u t ∧ u.mem = s.mem ∧ u.net.calls = []
        ∧ (u.thread t).pc = c.entry &&& ~~~ 1 ∧ (u.thread t).remote = true ∧ (u.thread t).win = s.windowsOf c.epoch ∧ (u.thread t).tvec = 0
        ∧ (u.thread t).status = .ready ∧ (u.thread t).callee = some ⟨c.caller, c.callId, c.epoch, c.origin, c.unit⟩
        ∧ (u.thread t).reg 7 = Reg.of 3 ∧ (∀ i < 6, (u.thread t).reg (BitVec.ofNat 4 (8 + i)) = Reg.of (c.payload.getD i 0))
        ∧ (∀ r, r ∉ [(7 : BitVec 4), 8, 9, 10, 11, 12, 13] → (u.thread t).reg r = (s.thread t).reg r)
        ∧ (serverOf t = c.unit → (u.server c.unit).cache = [⟨c.caller, c.callId, c.epoch, none, none, none, [], 0⟩] ∧ t ∉ (u.server c.unit).order))
    ∧ (∀ m c vals, s.net.replies = [m] → s.awayOf m = none → (s.thread m.caller).dbgdrop.toNat % 256 = 0 → (s.thread m.caller).call = some c →
      c.callId = m.callId → m.answer = some (.reply vals) → c.sync = true → (s.thread m.caller).status = .wait .call →
      ∃ u, exec (.replyArrival 0) s = .next u ∧ regsBut u m.caller ∧ u.mem = s.mem ∧ u.net.replies = [] ∧ (u.thread m.caller).call = none
        ∧ (∀ i < 4, (u.thread m.caller).reg (BitVec.ofNat 4 (8 + i)) = Reg.of (vals.getD i 0))
        ∧ (∀ r, r ∉ [(8 : BitVec 4), 9, 10, 11] → (u.thread m.caller).reg r = (s.thread m.caller).reg r)
        ∧ (u.thread m.caller).pc = (s.thread m.caller).pc + 4 ∧ (u.thread m.caller).status = .ready
        ∧ (u.thread m.caller).pend = (s.thread m.caller).pend &&& 0xF0FF ∧ (u.thread m.caller).acks = (s.thread m.caller).acks ++ [(m.unit, m.callId)]
        ∧ .loneAcknowledgement m.caller ∈ u.agenda)
    ∧ (∀ m c cause v, s.net.replies = [m] → s.awayOf m = none → (s.thread m.caller).dbgdrop.toNat % 256 = 0 → (s.thread m.caller).call = some c →
      c.callId = m.callId → m.answer = some (.status cause v) → c.sync = true → cause ∈ [Cause.remoteSubset, .remoteFault, .remoteTrap] →
      (s.thread m.caller).callee = none → (s.thread m.caller).trapm = false → s.slotRemoved m.caller = false →
      ∃ u, exec (.replyArrival 0) s = .next u ∧ regs u ∧ (u.thread m.caller).tcause = BitVec.ofNat 64 cause.code
        ∧ (u.thread m.caller).epc = c.pc ∧ (u.thread m.caller).tval = v ∧ (u.thread m.caller).pc = (s.thread m.caller).tvec
        ∧ (u.thread m.caller).trapm = true ∧ (u.thread m.caller).call = none)
    ∧ (∀ m e, s.net.acks = [m] → (s.server m.unit).cache = [e] → e.caller = m.caller → e.callId = m.callId → s.callCells e = [] → s.forwarder m.unit m.caller m.callId = none →
      (s.server m.unit).calls = [] →
      ∃ u, exec (.ackArrival 0) s = .next u ∧ regs u ∧ u.mem = s.mem ∧ u.net.acks = [] ∧ (u.server m.unit).cache = [])
    ∧ (∀ t w id rest, (s.thread t).acks = (w, id) :: rest → s.offline (s.thread t).epoch = false → s.settling t = false →
      (s.thread t).dbgdrop.toNat / 256 = 0 →
      ∃ u, exec (.loneAcknowledgement t) s = .next u ∧ (u.thread t) = { s.thread t with acks := rest } ∧ u.mem = s.mem
        ∧ u.net.acks = s.net.acks ++ [⟨w, t, id, none⟩])
    ∧ (∀ t c, (s.thread t).call = some c → s.offline (s.thread t).epoch = false → c.due ≤ s.gtime → c.resends < c.retries → c.unit < 2 ^ 16 →
      let owed := ((s.thread t).acks.filter (·.1 == c.unit)).map (·.2)
      ∃ u, exec (.callerTimer t) s = .next u ∧ regs u ∧ u.mem = s.mem ∧ .callerTimer t ∈ u.agenda
        ∧ (u.thread t).call = some { c with resends := c.resends + 1, due := s.gtime + c.limit }
        ∧ (u.thread t).acks = (s.thread t).acks.filter (·.1 != c.unit) ∧ (u.thread t).status = (s.thread t).status ∧ (u.thread t).pc = (s.thread t).pc
        ∧ u.net.calls = s.net.calls
          ++ [⟨t, c.callId, (s.thread t).epoch, c.origin, c.unit, c.target, c.entry, c.payload, owed.drop ((s.thread t).dbgdrop.toNat / 256)⟩])
    ∧ (∀ t c, (s.thread t).call = some c → s.offline (s.thread t).epoch = false → c.due ≤ s.gtime → c.retries ≤ c.resends → c.sync = true →
      (s.thread t).callee = none → (s.thread t).trapm = false → s.slotRemoved t = false →
      ∃ u, exec (.callerTimer t) s = .next u ∧ regs u ∧ (u.thread t).tcause = BitVec.ofNat 64 0x1E ∧ (u.thread t).epc = c.pc ∧ (u.thread t).tval = c.target
        ∧ (u.thread t).pc = (s.thread t).tvec ∧ (u.thread t).call = none)
    ∧ (∀ unit e, (s.server unit).cache = [e] → e.caller < 2 ^ 24 → e.answer.isSome = true → s.offline e.epoch = false → e.due ≤ s.gtime → s.callCells e = [] →
      s.forwarder unit e.caller e.callId = none → (s.server unit).calls = [] →
      ∃ u, exec (.retractionTimer unit (e.callId.toNat * 2 ^ 24 + e.caller)) s = .next u ∧ regs u ∧ u.mem = s.mem ∧ (u.server unit).cache = [])
    ∧ (∀ m e, s.net.retracts = [m] → (s.server m.unit).cache = [e] → e.caller = m.caller → e.callId = m.callId → s.callCells e = [] → s.forwarder m.unit m.caller m.callId = none →
      (s.server m.unit).calls = [] →
      ∃ u, exec (.retractionPass 0) s = .next u ∧ regs u ∧ u.mem = s.mem ∧ u.net.retracts = [] ∧ (u.server m.unit).cache = [])
    ∧ (∀ m t, s.net.migrants = [m] → s.idleThread m.cluster = some t →
      ∃ u, exec (.migrationArrival 0) s = .next u ∧ regsBut u t ∧ u.mem = (s.flushNC (coreOf t)).mem ∧ u.net.migrants = []
        ∧ u.thread t = (s.thread t).arrive m.ctx)
    ∧ (∀ m, s.net.msgs = [m] → (m.saved = true ∨ ∀ x ∈ s.net.naks, x.saved = false) →
      let w := s.rankEntry (s.thread m.sender).epoch (m.rank.toNat % 2 ^ 32)
      let j := rankThread w % 2 ^ 24
      let x := s.thread j
      rankValid w = true → rankDead w = false → rankTransit w = false → rankThread w / 2 ^ 24 = s.package → x.isSealed = false → s.offline x.epoch = false →
      (x.mail.length < 4 → x.late = [] → (s.thread m.sender).status = .wait .send → m.sender ≠ j →
        ∃ u, exec (.messageArrival 0) s = .next u ∧ regs u ∧ u.mem = s.mem ∧ u.net.msgs = []
          ∧ (u.thread j).mail = x.mail ++ [⟨1, s.rankOf (s.thread m.sender).epoch m.sender, m.body⟩] ∧ (u.thread m.sender).status = .ready
          ∧ (u.thread m.sender).pc = (s.thread m.sender).pc + 4)
      ∧ (x.mail.length = 4 →
        ∃ u, exec (.messageArrival 0) s = .next u ∧ u.threads = s.threads ∧ u.mem = s.mem ∧ u.net.msgs = [] ∧ u.net.naks = s.net.naks ++ [m]))
    ∧ ∀ m, s.net.naks = [m] →
      ∃ u, exec (.backPressureNak 0) s = .next u ∧ u.threads = s.threads ∧ u.mem = s.mem ∧ u.net.naks = [] ∧ u.net.msgs = s.net.msgs ++ [m]

/-! ## Pages, hosts and ports -/

/-- R246, R311, R313, R316: a page service copies the page from its backing store into a frame, writes its leaf present and frees the
threads that wait; a page-out writes the leaf not present, shoots the translation down on every pager of the launch, none of which is
BUSY, and copies the page back.

Which frame firmware takes is free (log 14). -/
def Obligations.PageServiceAndPageOut : Prop :=
  ∀ (s : State), s.Canonical → (∀ k n, s.Uncached k n) →
    let regs := fun (u : State) => ∀ j, (u.thread j).regs = (s.thread j).regs
    let apart := fun (a n b m : Nat) => a + n ≤ b ∨ b + m ≤ a
    (∀ v l r f, s.net.services = [v] → s.launch v.epoch = some l → l.rangeAt v.page = some r → Leaf.present (s.entryAt v.leafAt) = false →
      s.backingCause v.epoch v.page = none → s.serviceFrame l r ((v.page - r.base) / 4096) = some f → s.hostBias v.leafAt = false → s.host.lines = [] →
      apart v.leafAt 8 (s.pageKey f) 4096 → (∀ j ∈ l.joins, j.page ≠ v.leafAt) →
      ∃ u, exec (.pageServiceComplete v.leafAt) s = .next u ∧ regs u ∧ (∀ j, (s.thread j).status = .wait (.page v.leafAt) → (u.thread j).status = .ready)
        ∧ u.mem.readN (s.pageKey f) 4096 = s.homeBytes (r.backing + 4096 * ((v.page - r.base) / 4096)) 4096
        ∧ Leaf.present (BitVec.ofNat 64 (leNat (u.mem.readN v.leafAt 8))) = true
        ∧ (∀ a, apart a 1 (s.pageKey f) 4096 → apart a 1 v.leafAt 8 → u.mem.read a = s.mem.read a))
    ∧ ∀ e va l r leaf at_, s.launch (BitVec.ofNat 16 e) = some l → l.exists_ = true → l.rangeAt va = some r → r.faulting = true →
      s.walk (s.pager 1000) l.slot va = some (leaf, at_) → Leaf.present leaf = true →
      let k := s.physical (BitVec.ofNat 16 e) leaf va / 4096 * 4096
      let dest := r.backing + (va / 4096 * 4096 - r.base)
      s.pageHeld k = false → (∀ p ∈ s.pagersOf l.clusters, (s.pager p).busy = false) → s.hostBias at_ = false → s.host.lines = [] → apart at_ 8 k 4096 → apart at_ 8 dest 4096 →
      ∃ u, exec (.pageOut e va) s = .next u ∧ regs u
        ∧ BitVec.ofNat 64 (leNat (u.mem.readN at_ 8)) = leaf &&& ~~~ ((1 : Word) <<< 17)
        ∧ u.mem.readN dest 4096 = s.homeBytes k 4096
        ∧ (∀ p ∈ s.pagersOf l.clusters, (u.pager p).gen ≠ (s.pager p).gen)
        ∧ (∀ a, apart a 1 dest 4096 → apart a 1 at_ 8 → u.mem.read a = s.mem.read a)

/-- R16, R177, R199, R321, R322, R324, R325, R326, R327, R328, R329, R373: hosts and ports.  A host's read is remembered and its line of an SC page entered in
the snoop filter, unless a device L1 owns a word of it; its write changes the bytes it names and no other; an exclusive request takes the line from the device; an
answer gives the port's lines up, modified data written back; an expander's back-invalidate drops the line; a flip of a page
without cells and regions sets or clears its bias when no answer is outstanding; a lost link takes its port's lines with it; another package reads, writes and
changes this package's first tier only, and at any other address does nothing.

The rest is the model's account of the hosts and of other packages (logs 13, 18). -/
def Obligations.HostAndPortResults : Prop :=
  ∀ (s : State), s.Canonical →
    let regs := fun (u : State) => ∀ j, (u.thread j).regs = (s.thread j).regs
    let up := fun (p : Nat) => p < 2 ∧ s.host.up.getD p false = true
    (∀ port a, let k := s.hdmKey (a / 64 * 64)
      up port → a < 2 ^ 42 → s.hostWaits port k 64 false = false → s.hostBias k = false → s.logged k 64 = [] → s.isSc k = true →
      (s.ownedAnywhere k 64 = false → ∃ u l, exec (.hostMemrd port a false) s = .next u ∧ regs u ∧ u.mem = s.mem ∧ u.host.lines.head? = some l
        ∧ l = ⟨port, k / 64 * 64, s.homeBytes (k / 64 * 64) 64, false, false⟩ ∧ Tab.find u.host.reads (k / 64) = some s.gtime)
      ∧ (s.ownedAnywhere k 64 = true → ∃ u, exec (.hostMemrd port a false) s = .next u ∧ regs u ∧ u.mem = s.mem ∧ u.host.lines = s.host.lines
        ∧ Tab.find u.host.reads (k / 64) = some s.gtime))
    ∧ (∀ port a bs, let k := s.hdmKey a
      up port → a < 2 ^ 42 → bs ≠ [] → a % 64 + bs.length ≤ 64 → s.hostWaits port k bs.length true = false → s.hostBias k = false → s.Uncached k bs.length → s.logged k bs.length = [] →
      (∀ l ∈ s.host.lines, l.port = port → l.excl = true → l.covers k bs.length = false) →
      ∃ u, exec (.hostMemwr port a bs) s = .next u ∧ regs u ∧ u.mem.readN k bs.length = bs
        ∧ (∀ b, b < k ∨ k + bs.length ≤ b → u.mem.read b = s.mem.read b)
        ∧ ∀ j (m : Nat) (h : m < 4), j < 2 ^ 24 → ((s.thread j).mon[m]).hit k bs.length = true → ((u.thread j).mon[m]).latch = true ∧ ((u.thread j).mon[m]).armed = false)
    ∧ (∀ port a, let k := s.hdmKey (a / 64 * 64)
      up port → a < 2 ^ 42 → s.mayOwn k = true → s.hostWaits port k 64 true = false → s.hostBias k = false →
      ∃ u l, exec (.hostOwnershipRequest port a) s = .next u ∧ regs u ∧ u.host.lines.head? = some l ∧ l.port = port ∧ l.key = k / 64 * 64 ∧ l.excl = true
        ∧ l.data = u.homeBytes l.key 64 ∧ ∀ c, ∀ w ∈ wordsOf k 64, ∀ x, Tab.find (u.core c).l1 w = some x → x.owned = false ∧ x.nc = true)
    ∧ (∀ port k l, s.host.flips = [] → s.host.lines = [l] → l.port = port → l.key = k → k % 64 = 0 → l.dirty = true → l.data.length = 64 →
      s.Uncached k 64 → s.hostBias k = false →
      ∃ u, exec (.birspi port k) s = .next u ∧ regs u ∧ u.host.lines = [] ∧ (port, k) ∉ u.host.snoops ∧ u.mem.readN k 64 = l.data
        ∧ ∀ j, (s.thread j).status = .wait .memory → (u.thread j).status = .ready)
    ∧ (∀ a, let k := s.localKey a / 512 * 512
      areaOf k = .secondTier →
      ∃ u, exec (.expanderBisnp a) s = .next u ∧ regs u ∧ (∀ l ∈ u.lines, l.key ≠ k)
        ∧ ∀ c w, k / 4 ≤ w → 4 * w < k + 512 → Tab.find (u.core c).l1 w = none)
    ∧ (∀ page f, s.flipAt page true = some f → f.step = 0 → f.page = page → s.flipOk page = true → page ∉ s.host.bias → (∀ l ∈ s.host.lines, l.covers (4096 * page) 4096 = false) →
      s.flipAsked page = false →
      ∃ u, exec (.biasFlipToHost page) s = .next u ∧ regs u ∧ page ∈ u.host.bias ∧ (∀ g ∈ u.host.flips, g.id ≠ f.id)
        ∧ (∀ j, ∀ b ∈ (u.thread j).bias, b.key = some f.id → b.outcome = some true)
        ∧ ∀ c w, 1024 * page ≤ w → w < 1024 * page + 1024 → Tab.find (u.core c).l1 w = none)
    ∧ (∀ page f, s.flipAt page false = some f → f.step = 0 → f.page = page → s.flipOk page = true → page ∈ s.host.bias → s.host.up.getD 0 false = false → s.host.up.getD 1 false = false →
      s.flipAsked page = false →
      ∃ u, exec (.biasFlipToDevice page) s = .next u ∧ regs u ∧ page ∉ u.host.bias ∧ (∀ g ∈ u.host.flips, g.id ≠ f.id) ∧ u.mem = s.mem)
    ∧ (∀ page f, s.flipAt page false = some f → f.step = 0 → s.flipOk page = true → page ∈ s.host.bias → s.host.up.getD 0 false = true →
      ∃ u, exec (.biasFlipToDevice page) s = .next u ∧ regs u ∧ page ∈ u.host.bias ∧ u.mem = s.mem
        ∧ ∀ i < 16, (0, 4096 * page + 256 * i) ∈ u.host.snoops ∧ .birspi 0 (4096 * page + 256 * i) ∈ u.agenda)
    ∧ (∀ port, port < 6 →
      ∃ u, exec (.linkDown port) s = .next u ∧ regs u ∧ u.mem = s.mem ∧ u.host.up.getD port true = false
        ∧ (port < 2 → (∀ l ∈ u.host.lines, l.port ≠ port) ∧ ∀ m, u.fw.owner = some m → m / 2 ≠ port))
    ∧ (∀ port rate, port < 6 → 8 ≤ rate → rate ≤ 64 →
      ∃ u, exec (.linkUp port rate) s = .next u ∧ u.host.up.getD port false = true ∧ u.host.rate.getD port 0 = rate
        ∧ u.host.width.getD port 0 ∈ [4, 8, 16] ∧ u.mem = s.mem ∧ u.threads = s.threads)
    ∧ (∀ pkg a data, let k := s.localKey a
      areaOf k = .firstTier → pkg ≠ s.package → s.hostBias k = false → s.poisoned k 8 = false → s.Uncached k 8 → k % 8 = 0 → s.foreignWaits k 8 true = false →
      data.length = 8 → s.logged k 8 = [] → s.strongClash foreignAgent.id k 8 = [] →
      (∃ u, exec (.remotePackageAccess (.read 8) pkg a data) s = .next u ∧ regs u ∧ u.mem = s.mem
          ∧ ∀ c ∈ u.cells, overlaps c.key c.size k 8 = true → c.owner = 0x1000010 ∨ c.seen = true)
      ∧ (∃ u, exec (.remotePackageAccess .write pkg a data) s = .next u ∧ regs u ∧ u.mem = s.mem.writeN k data)
      ∧ (∃ u, exec (.remotePackageAccess (.atomic 0 true) pkg a data) s = .next u ∧ regs u
        ∧ u.mem = s.mem.writeN k (leBytes 8 (leNat (s.mem.readN k 8) + leNat data)))
      ∧ ∃ u l, exec (.remotePackageAccess (.lease true) pkg a data) s = .next u ∧ regs u ∧ u.mem = s.mem ∧ u.host.given = l :: s.host.given
        ∧ l.key = k ∧ l.holder = pkg ∧ l.expiry = s.gtime + 2000 * (s.wlen.getD 0 4).toNat
        ∧ (∃ v, exec (.remotePackageAccess (.writeBack true) pkg a data) { s with host := { s.host with given := [l] } } = .next v
          ∧ regs v ∧ v.host.given = [] ∧ v.mem = s.mem.writeN k data))
    ∧ ∀ op pkg a data, areaOf (s.localKey a) ≠ .firstTier ∨ pkg = s.package → exec (.remotePackageAccess op pkg a data) s = .next s

/-! ## Gang switches, kills and errors -/

/-- R69, R339, R340, R342, R343, R344, R352, R365: a switch whose time has come stops the partition and takes its messages out of the network, or finds the launch
done and drops the switch; when nothing is left to finish the save is written and the launch is out; a resume at its time puts saved
vent threads and messages back and the launch runs; a program load of a core whose engines have drained and whose threads
stand at a boundary fills its instruction store with the first 32 KiB of w0, from the image that firmware keeps where a parity error asked for it.

What is abandoned, where vent threads wait and what a store is loaded with are the model's choices (logs 5, 16, 41). -/
def Obligations.GangSwitchResults : Prop :=
  ∀ (s : State) (n : Nat) (l : Launch),
    let e := BitVec.ofNat 16 n
    s.launch e = some l → l.epoch = e →
    (∀ tau, l.phase = .running → l.tau = some tau → s.gtime < tau → exec (.gangSwitch n) s = .next (s.post [.gangSwitch e.toNat]))
    ∧ (∀ tau, l.phase = .running → l.tau = some tau → tau ≤ s.gtime → s.allDone l = true → exec (.gangSwitch n) s = .next (s.setLaunch { l with tau := none }))
    ∧ (∀ tau, l.phase = .running → l.tau = some tau → tau ≤ s.gtime → s.allDone l = false → s.partitionThreads l = [] →
      ∃ u m, exec (.gangSwitch n) s = .next u ∧ m = s.netOf e ∧ u.launch e = some { l with phase := .switching, tau := none, saved := some ⟨[], m⟩ }
        ∧ u.net = s.net.without m ∧ .saveComplete e.toNat ∈ u.agenda ∧ u.mem = s.mem ∧ u.threads = s.threads ∧ u.offline e = true)
    ∧ (∀ tau t, l.phase = .running → l.tau = some tau → tau ≤ s.gtime → s.allDone l = false → s.partitionThreads l = [t] → isCompute t = true →
      (s.thread t).causes = [] →
      ∃ u, exec (.gangSwitch n) s = .next u ∧ (u.thread t).regs = (s.thread t).regs ∧ (u.thread t).pc = (s.thread t).pc ∧ u.mem = s.mem
        ∧ (∀ (i : Nat) (h : i < 4), ((s.thread t).mon[i]).armed = true → ((u.thread t).mon[i]).latch = true ∧ ((u.thread t).mon[i]).armed = false)
        ∧ ((s.thread t).status = .wait .monitor → (u.thread t).status = .ready) ∧ ∀ k, (u.core k).slots = (s.core k).slots)
    ∧ (∀ v, l.phase = .switching → l.saved = some v → s.saveBusy l = true → exec (.saveComplete n) s = .next (s.post [.saveComplete e.toNat]))
    ∧ (∀ v, l.phase = .switching → l.saved = some v → s.saveBusy l = false → (s.partitionThreads l).filter isVent = [] →
      (∀ t ∈ s.partitionThreads l, (s.thread t).badResidue = none) →
      ∃ u, exec (.saveComplete n) s = .next u ∧ u.launch e = some { l with phase := .out, saved := some { v with threads := [] } }
        ∧ ∀ j, (u.thread j).regs = (s.thread j).regs ∧ (u.thread j).pc = (s.thread j).pc)
    ∧ (∀ v tau, l.phase = .out → l.saved = some v → l.tau = some tau → tau ≤ s.gtime → (∀ y ∈ v.threads, (s.thread y.1).status = .wfw) →
      s.servers = [] → s.homes = [] →
      ∃ u, exec (.gangResume n) s = .next u ∧ u.launch e = some { l with phase := .running, tau := none, saved := none } ∧ u.mem = s.mem
        ∧ u.net = v.net.join s.net ∧ ∀ h ∈ v.net.arrivals e.toNat, h ∈ u.agenda)
    ∧ ∀ c x y, l.phase = .running → l.clusters.contains (s.package, clusterOf c) = true → isCompute c = true → (s.core c).killed = false → coreOf c = c →
      (s.core c).matrix = ⟨none, [], [], x⟩ → (s.core c).copy = ⟨none, [], [], y⟩ → (∀ j < 8, (s.thread (c + j)).halting = true) →
      ∃ u, exec (.programLoad c n) s = .next u ∧ (∀ j, (u.thread j).regs = (s.thread j).regs) ∧ u.mem = s.mem ∧ (u.core c).stopped = false ∧ (u.core c).hint = .none
        ∧ (u.core c).ibase = BitVec.ofNat 64 (Win.base l.windows[0])
        ∧ (u.core c).reload = false ∧ .dispenserDispatch (clusterOf c) ∈ u.agenda
        ∧ ((s.core c).reload = false → ∀ i < 0x8000, (u.core c).istore.read i = s.virtualByte (clusterOf c) l.slot e (Win.base l.windows[0] + i))
        ∧ ∀ im, s.fw.images.find? (fun i => i.handle == l.image) = some im → (s.core c).reload = true →
          ∀ i < 0x8000, (u.core c).istore.read i = imageByte im.bytes l.windows (Win.base l.windows[0] + i)

/-- R41, R49, R137, R288, R293, R347, R349, R350, R351, R352, R353, R354: errors and kills.  A wait longer than HANG_US kills its core: its threads stop, its ranks are DEAD, its engines hold nothing, its L1 is dropped
after its owned words are written back; recovery frees the claims, queues a restartable task again and retires other work as failed; a self-test's result lets
the core go on or kills it; a turned bit shows in a register's residue, two in one word of storage poison it, and a parity error in an instruction store stops
the core for it to be loaded again.

Recovery in one step, its codes, self-tests and the time of error events are the model's choices and readings (logs 15, 33,
34, 46). -/
def Obligations.KillAndErrorResults : Prop :=
  ∀ (s : State),
    let regs := fun (u : State) => ∀ j, (u.thread j).regs = (s.thread j).regs
    (∀ c, coreOf c = c → isCompute c = true → (s.core c).killed = false → (s.core c).testing = false → s.hangUs c ≠ 0 →
      (∃ j < 8, (s.thread (c + j)).status = .wait .memory ∧ ∃ b, (s.thread (c + j)).since = some b ∧ b + 1000 * s.hangUs c < s.gtime) → s.offline (s.coreEpoch c) = false →
      s.Canonical → (s.core c).commands.filterMap Command.sealedAt = [] →
      ∃ u, exec (.hang c) s = .next u ∧ regs u ∧ (u.core c).killed = true ∧ (u.core c).l1 = [] ∧ (u.core c).matrix = ⟨none, [], [], 0⟩ ∧ (u.core c).copy = ⟨none, [], [], 0⟩
        ∧ u.mem = (s.dropL1 c).mem ∧ (∀ w x, Tab.find (s.core c).l1 w = some x → u.homeWord w = mergeWord (s.homeWord w) x.val x.dirty)
        ∧ (∀ b, Tab.find (s.core c).l1 (b / 4) = none → u.mem.read b = s.mem.read b)
        ∧ .supervisorRecovery c ∈ u.agenda
        ∧ (∀ j, coreOf j = c → (u.thread j).status = .wait .stopped ∧ (u.thread j).isSealed = true)
        ∧ ∀ y ∈ u.ranks, rankValid y.2 = true → coreOf (rankThread y.2 % 2 ^ 24) = c → rankDead y.2 = true)
    ∧ (∀ c, coreOf c = c → isCompute c = true → (s.core c).killed = true → (s.core c).deque = [] → (∀ x ∈ s.cells, coreOf x.owner ≠ c) →
      (∀ j < 8, (s.thread (c + j)).work = none ∧ (s.thread (c + j)).callee = none) → s.unitDead (clusterOf c) = false →
      ∃ u, exec (.supervisorRecovery c) s = .next u ∧ regs u ∧ u.mem = s.mem ∧ (u.core c).claims = Vector.replicate 40 none ∧ (u.core c).waiting = [])
    ∧ (∀ p r, p < 512 → (s.core (ventThread p 0)).killed = true → (∀ x ∈ s.cells, coreOf x.owner ≠ ventThread p 0) →
      (∀ j < 8, (s.thread (ventThread p j)).work = none ∧ (s.thread (ventThread p j)).callee = none) → (s.server (4096 + p)).calls = [] →
      (s.home p).queue = [r] → r.runner = none → r.origin / 256 = s.package →
      ∃ u n, exec (.supervisorRecovery (ventThread p 0)) s = .next u ∧ regs u ∧ u.mem = s.mem ∧ (u.home p).queue = [] ∧ n ∈ u.net.retires
        ∧ n.cluster = r.origin % 256 ∧ n.epoch = r.epoch ∧ n.code = 0x41)
    ∧ (∀ c h r far origin, coreOf c = c → isCompute c = true → (s.core c).killed = true → (s.core c).deque = [] → (∀ x ∈ s.cells, coreOf x.owner ≠ c) →
      (s.thread c).work = some ⟨.task h r.seq.toNat far, origin⟩ → (∀ j < 8, (s.thread (c + j)).callee = none ∧ (j ≠ 0 → (s.thread (c + j)).work = none)) →
      ((s.thread c).reg 7).val ≠ 4 → (s.home h).queue = [r] → r.runner = some c → r.epoch = (s.thread c).epoch → s.unitDead (clusterOf c) = false →
      ∃ u, exec (.supervisorRecovery c) s = .next u ∧ regs u ∧ u.mem = s.mem
        ∧ (r.restart = true → (u.home h).queue = [{ r with running := false, runner := none }] ∧ u.net.retires = s.net.retires ∧ .headTake h ∈ u.agenda)
        ∧ (r.restart = false → (u.home h).queue = [] ∧ (origin / 256 = s.package → ∃ n ∈ u.net.retires, n.cluster = origin % 256 ∧ n.epoch = r.epoch ∧ n.code ≠ 0)))
    ∧ (∀ c x rest, (s.core c).suspects = x :: rest → x.kind ≤ 4 →
      ∃ u, exec (.selfTestResult c false) s = .next u ∧ regs u ∧ u.mem = s.mem ∧ (u.core c).testing = rest.any Suspect.logic ∧ (u.core c).suspects = rest
        ∧ (u.core c).killed = (s.core c).killed ∧ u.threads = s.threads)
    ∧ (∀ c x rest, coreOf c = c → isCompute c = true → (s.core c).killed = false → (s.core c).suspects = x :: rest → x.kind ≤ 4 →
      ∃ u, exec (.selfTestResult c true) s = .next u ∧ regs u ∧ (u.core c).killed = true ∧ (u.core c).lasting = true ∧ .supervisorRecovery c ∈ u.agenda)
    ∧ (∀ t (i : BitVec 4) bit d, bit < 64 →
      let y := ((s.thread t).reg i).val ^^^ (1 : Word) <<< bit
      exec (.softError (.scalar t i.toNat) bit d) s = .next (s.setThread t ((s.thread t).setReg i ⟨y, ((s.thread t).reg i).res⟩))
        ∧ (((s.thread t).reg i).res = residue ((s.thread t).reg i).val → residue y ≠ ((s.thread t).reg i).res))
    ∧ (∀ k bit, areaOf (keyOf k) = .firstTier →
      (∃ u, exec (.softError (.memory k) bit true) s = .next u ∧ regs u ∧ u.mem = s.mem ∧ .mem (keyOf k / 8) ∈ u.poison)
      ∧ ∃ u, exec (.softError (.memory k) bit false) s = .next u ∧ regs u ∧ u.mem = s.mem ∧ u.poison = s.poison)
    ∧ (∀ c n bit d, coreOf c = c → isCompute c = true → (s.core c).killed = false →
      ∃ u, exec (.softError (.istore c n) bit d) s = .next u ∧ regs u ∧ u.mem = s.mem ∧ (u.core c).stopped = true ∧ (u.core c).reload = true
        ∧ .programLoad c (s.epochOfCluster (clusterOf c)).toNat ∈ u.agenda)
    ∧ ∀ c n bit, n < 32 →
      (∃ u, exec (.softError (.slot c n) bit true) s = .next u ∧ regs u ∧ u.mem = s.mem ∧ .slot c n (bit / 64 % 128) ∈ u.poison)
      ∧ ∃ u, exec (.softError (.slot c n) bit false) s = .next u ∧ regs u ∧ (u.core (coreOf c)).slots = (s.core (coreOf c)).slots ∧ u.poison = s.poison

/-! ## Power and heat -/

/-- R32, R358, R359, R360, R361, R362, R363, R364: a control interval.  The estimate is kept and the counts start again; over the cap the level rises by two up to
LMAX and then the ceiling falls, below it by more than the band the level falls by one, with TRIP the level is LMAX and the ceiling 0; the level
removes slots from 7 down, never slot 0 and none newly from a thread in trap mode; a tile's lower target takes effect at once and a higher one after its raise; after
every sixteenth interval an update for its reading is due, and it moves TCAP; a hot stack's vent cores lose slots 0 to 5.

Uncounted events and temperatures are free (logs 11, 21). -/
def Obligations.PowerControlResults : Prop :=
  ∀ (s : State),
    let regs := fun (u : State) => ∀ j, (u.thread j).regs = (s.thread j).regs
    (∀ c, c < 256 →
      let p := (s.cluster c).power.thermal
      let t := ((List.range 16).map fun k => (Config.temperature s.tick (c * 16 + k)).toNat).foldl max 0
      let e := p.estimate (Config.freeBits s.fresh)
      let cap := min p.tcap.toNat p.ccap
      let top := if p.boostEn then 7 else 5
      let trip := decide (p.ttrip ≤ t) || (p.trip && !decide (t + p.thyst ≤ p.ttrip))
      ∃ u, exec (.controlInterval c) s = .next u ∧ regs u ∧ u.mem = s.mem
        ∧ let q := (u.cluster c).power
          q.est = BitVec.ofNat 32 e ∧ (∀ (i : Nat) (h : i < 48), i ≠ 45 → q.counts[i] = 0) ∧ q.trip = trip ∧ q.tcap = p.tcap ∧ q.cfg = p.cfg
          ∧ q.capDue = (if (p.phase + 1) % 16 = 0 then some (t, p.therm) else none) ∧ ((p.phase + 1) % 16 = 0 → .tcapUpdate c ∈ u.agenda)
          ∧ q.level = (if trip then p.lmax else if cap < e then (if p.level < p.lmax then min (p.level + 2) p.lmax else p.level)
              else if e + cap * p.hyst / 256 ≤ cap then p.level - 1 else p.level)
          ∧ q.ceil = (if trip then 0 else if cap < e then min (if p.level < p.lmax then min p.ceil 5 else min p.ceil 5 - 1) top
              else if e + cap * p.hyst / 256 ≤ cap ∧ p.level = 0 ∧ 3 ≤ p.quiet ∧ p.ceil < top then p.ceil + 1 else min p.ceil top)
          ∧ q.quiet = (if trip ∨ cap < e ∨ cap < e + cap * p.hyst / 256 ∨ (p.level = 0 ∧ 3 ≤ p.quiet ∧ p.ceil < top) then 0 else min (p.quiet + 1) 4)
          ∧ (∀ i j, i < 64 → j < 8 → (u.core (clusterCore c i)).removed.getLsbD j =
              (j != 0 && decide (8 - q.level ≤ j) && (!(s.thread (clusterCore c i + j)).trapm || (s.core (clusterCore c i)).removed.getLsbD j)))
          ∧ ∀ k < 16, let x := s.tile (c * 16 + k)
            let y := u.tile (c * 16 + k)
            let target := min q.ceil (((tileCores (c * 16 + k)).map u.request).foldl max 0)
            y.wanted = target ∧ y.temp = (Config.temperature s.tick (c * 16 + k)).toNat
              ∧ y.point = min target x.point
              ∧ y.raising = if target ≤ x.point then none else some (match x.raising with | some r => min r target | none => target))
    ∧ (∀ c, let p := (s.cluster c).power
      ∃ u, exec (.tcapUpdate c) s = .next u ∧ u.mem = s.mem ∧ u.threads = s.threads ∧ ∀ q, q = (u.cluster c).power →
        (p.capDue = none → q = p) ∧ ∀ t therm, p.capDue = some (t, therm) → q.capDue = none ∧ ∀ r, r = { p with therm := therm } →
          (r.tlim ≤ t → q.tcap.toNat = max (p.tcap.toNat - p.tcap.toNat / 8) (r.tcapmin % 2 ^ 32))
          ∧ (t < r.tlim → t + r.thyst ≤ r.tlim → q.tcap.toNat = min (p.tcap.toNat + p.tcap.toNat / 32 + 1) (2 ^ 32 - 1))
          ∧ (t < r.tlim → r.tlim < t + r.thyst → q.tcap = p.tcap))
    ∧ (∀ k r, (s.tile k).raising = some r →
      ∃ u, exec (.clockRaise k) s = .next u ∧ u.mem = s.mem ∧ u.threads = s.threads ∧ (u.tile k).point = r
        ∧ (u.tile k).raising = if r < (s.tile k).wanted then some (s.tile k).wanted else none)
    ∧ ∀ g temp, g < 8 → temp < 1024 →
      let w := Tab.get stthmReset s.stthm g
      let trip := w.toNat % 1024
      let hyst := w.toNat / 2 ^ 10 % 1024
      ∃ u x, exec (.stackTemperature g temp) s = .next u ∧ regs u ∧ u.mem = s.mem ∧ Tab.find u.stthm g = some x ∧ x.toNat % 2 ^ 20 = w.toNat % 2 ^ 20
        ∧ x.toNat / 2 ^ 32 % 1024 = temp ∧ x.getLsbD 20 = (decide (trip ≤ temp) || (w.getLsbD 20 && !decide (temp + hyst ≤ trip)))
        ∧ (∀ i < 64, (u.core (ventThread (g * 64 + i) 0)).removed = if x.getLsbD 20 then 0x3F else 0)
        ∧ ∀ i < 64, ∀ j < 6, x.getLsbD 20 = true → (s.core (ventThread (g * 64 + i) 0)).removed = 0 →
          ((u.thread (ventThread (g * 64 + i) j)).sticky.getLsbD 0) = true

/-! ## Firmware -/

/-- R6, R92, R175, R179, R301, R368, R370, R371, R372, R373, R377: the command windows.  A write at BAR0 sets a window's argument, and GO makes the window BUSY and queues its command; a
register write keeps to the writable fields.  CLAIM, HANDOVER, QUERY and ATTEST answer as their rows say; a command reserved to the owner answers
NOT_OWNER to any other master, and changes nothing else.  An SPDM request is answered: the version, an error before the algorithms are agreed, the certificate
chain, measurement 1.

The naming of BAR0, the results not named, the cryptography and the bytes of SPDM messages are the model's choices (logs 9, 26, 49). -/
def Obligations.CommandWindowResults : Prop :=
  ∀ (s : State) (m : Nat),
    let w := s.window m
    let rest := fun (u : State) => u.mem = s.mem ∧ u.threads = s.threads ∧ u.fw.launches = s.fw.launches ∧ u.fw.images = s.fw.images ∧ u.fw.keys = s.fw.keys
    (∀ n value, m < 4 → n < 6 → w.busy = false → s.host.up.getD (m / 2) false = true →
      ∃ u, exec (.registerWrite (2 ^ 48 + m * 0x1000 + 8 + 8 * n) value) s = .next u ∧ rest u ∧ u.window m = { w with args := w.args.setIfInBounds n (BitVec.ofNat 64 value) })
    ∧ (∀ op, m < 4 → op ∈ [(1 : Nat), 2, 3, 4, 6, 9, 10, 11, 12, 13] → w.busy = false → s.host.up.getD (m / 2) false = true → s.fw.pending = [] →
      ∃ u, exec (.registerWrite (2 ^ 48 + m * 0x1000) (256 + op)) s = .next u ∧ rest u ∧ u.window m = { w with opcode := BitVec.ofNat 8 op, busy := true }
        ∧ u.fw.pending = [m] ∧ ∃ h, { w with opcode := BitVec.ofNat 8 op, busy := true }.command m = some h ∧ h ∈ u.agenda)
    ∧ (∀ c n value, c < 256 → c % 64 < 48 → n < 16 →
      ∃ u, exec (.registerWrite (2 ^ 37 + c * 2 ^ 29 + 0x40000 + 8 * n) value) s = .next u ∧ rest u
        ∧ (u.pager c).roots = (s.pager c).roots.setIfInBounds n (BitVec.ofNat 64 value &&& 0xFFFF0FFFFFFFF001))
    ∧ (s.Orders m 1 false 0 → s.fw.owner = none ∨ s.fw.owner = some m →
      ∃ u, exec (.claimCommand m) s = .next u ∧ rest u ∧ s.answered u m 0 none none ∧ u.fw.owner = some m)
    ∧ (∀ n, s.Orders m 1 false 0 → s.fw.owner = some n → n ≠ m →
      ∃ u, exec (.claimCommand m) s = .next u ∧ rest u ∧ s.answered u m 3 none none ∧ u.fw.owner = some n)
    ∧ (s.Orders m 2 true 1 →
      ∃ u, exec (.handover m) s = .next u ∧ rest u
        ∧ if (w.arg 0).toNat < 4 ∧ (w.arg 0).toNat ≠ m then s.answered u m 0 none none ∧ u.fw.owner = some (w.arg 0).toNat
          else s.answered u m 4 none none ∧ u.fw.owner = some m)
    ∧ (∀ l, s.Orders m 7 false 1 → (w.arg 0).toNat < 0xFFFF → s.launch (BitVec.ofNat 16 (w.arg 0).toNat) = some l →
      ∃ u, exec (.query m) s = .next u ∧ rest u ∧ s.answered u m 0 (some (match l.phase with | .out => 2 | .complete => 3 | _ => 1)) (some (s.wordSoFar l)))
    ∧ (s.Orders m 7 false 1 → (w.arg 0).toNat < 0xFFFF → s.launch (BitVec.ofNat 16 (w.arg 0).toNat) = none →
      ∃ u, exec (.query m) s = .next u ∧ rest u ∧ s.answered u m 0 (some 0) (some 0))
    ∧ (s.Orders m 7 false 1 → w.arg 0 = 0xFFFF →
      ∃ u, exec (.queryDevice m) s = .next u ∧ rest u
        ∧ s.answered u m 0 (some (BitVec.ofNat 64 (s.fw.launches.filter fun l => l.phase != .complete).length))
            (some (match s.fw.owner with | some n => BitVec.ofNat 64 n | none => BitVec.allOnes 64)))
    ∧ (s.Orders m 12 false 0 → ∃ u, exec (.attest m) s = .next u ∧ rest u ∧ s.answered u m 0 (some Config.doeOffset) none)
    ∧ (∀ op i, (op, i) ∈ [(2, Instr.handover m), (3, .reset m), (4, .load m), (5, .policy m), (5, .policyAddKey m), (6, .launch m), (8, .preempt m),
        (8, .preemptResume m), (9, .kill m), (10, .dump m), (11, .checkpoint m), (13, .update m)] →
      (i = .policy m → w.arg 1 ≠ 0xFFFF) → (i = .policyAddKey m → w.arg 1 = 0xFFFF) → (i = .preempt m → w.arg 2 ≠ 1) → (i = .preemptResume m → w.arg 2 = 1) →
      s.Orders m op false 6 → s.fw.owner ≠ some m → ∃ u, exec i s = .next u ∧ rest u ∧ s.answered u m 2 none none ∧ u.fw.owner = s.fw.owner)
    ∧ ∀ req : List Byte, ∃ u said, exec (.spdmRequest req) s = .next u ∧ rest u ∧ u.fw.windows = s.fw.windows ∧ u.fw.owner = s.fw.owner ∧ u.agenda = s.agenda
        ∧ u.fw.spdm = said :: s.fw.spdm
        ∧ (4 ≤ req.length → req.getD 1 0 = 0x84 →
          said = [0x10, 0x04, 0, 0, 0, 1, 0x00, 0x12] ∧ u.fw.exchange = ⟨1, req ++ said, [], []⟩)
        ∧ (4 ≤ req.length → req.getD 0 0 = 0x12 → req.getD 1 0 ∈ [(0x81 : Byte), 0x82, 0x83, 0xE0] → s.fw.exchange.level < 3 →
          (req.getD 1 0 = 0xE0 → req.getD 3 0 = 1) → said = [0x12, 0x7F, 0x04, 0] ∧ u.fw.exchange.level = s.fw.exchange.level)
        ∧ (∀ off n, req = [0x12, 0x82, 0, 0] ++ packed 2 [off, n] → off < 0x10000 → n < 0x10000 → off ≤ Config.certChain.length → 3 ≤ s.fw.exchange.level →
          let part := (Config.certChain.drop off).take n
          said = [0x12, 0x02, 0, 0] ++ packed 2 [part.length, Config.certChain.length - off - part.length] ++ part
            ∧ u.fw.exchange = { s.fw.exchange with meas := [], certs := s.fw.exchange.certs ++ req ++ said })
        ∧ (req = [0x12, 0xE0, 0, 1] → 3 ≤ s.fw.exchange.level →
          let d := Config.sha384 s.fw.running
          let one : List Byte := [1, 1] ++ packed 2 [d.length + 3] ++ [1] ++ packed 2 [d.length] ++ d
          said = [0x12, 0x60, 0, 0, 1] ++ packed 3 [one.length] ++ one ++ Config.nonce s.tick ++ [0, 0]
            ∧ u.fw.exchange = { s.fw.exchange with meas := s.fw.exchange.meas ++ req ++ said })

/-- R61, R131, R134, R339, R344, R348, R349, R374, R376, R379: the commands of the owner.  LOAD keeps an accepted image under a new handle; POLICY sets a range's record
or adds a key; LAUNCH creates a launch; PREEMPT sets the time of a switch; KILL kills a core; DUMP and CHECKPOINT copy; UPDATE stages
verified firmware; RESET and a cold reset put every register back, and RESET completes the launch it kills with a word and MSI-X.

Firmware's choices, and what RESET and a cold reset keep, are the model's choices and readings (logs 14, 47). -/
def Obligations.OwnerCommandResults : Prop :=
  ∀ (s : State) (m : Nat),
    let w := s.window m
    let a0 := (w.arg 0).toNat
    let a1 := (w.arg 1).toNat
    let a2 := (w.arg 2).toNat
    let quiet := fun (u : State) => u.mem = s.mem ∧ u.threads = s.threads ∧ u.fw.owner = s.fw.owner
    let atReset := fun (u : State) => u.threads = State.reset.threads ∧ u.tiles = State.reset.tiles ∧ u.clusters = State.reset.clusters
      ∧ u.servers = State.reset.servers ∧ u.homes = State.reset.homes ∧ u.pagers = State.reset.pagers ∧ u.stthm = State.reset.stthm ∧ u.phases = State.reset.phases
      ∧ u.sched = State.reset.sched ∧ u.sealed = [] ∧ u.cells = [] ∧ u.decoded = [] ∧ u.views = State.reset.views ∧ u.hot = State.reset.hot
      ∧ u.hotctl = State.reset.hotctl ∧ u.pgsub = State.reset.pgsub ∧ u.wlen = State.reset.wlen ∧ u.ranks = [] ∧ u.net = State.reset.net ∧ u.synced = false
    let cores := fun (u : State) => ∀ c, (u.core c = Core.initial ∨ u.core c = Core.out) ∧ ((s.core c).lasting = true → u.core c = Core.out)
      ∧ ((∀ y ∈ s.cores, y.1 = c → y.2.lasting = false) → u.core c = Core.initial)
    (s.Orders m 4 true 2 → s.hostReadable m a0 a1 = true →
      let b := s.hostBytes m a0 a1
      (∀ placed vs, Gxo.acceptable b = true → Gxo.accepted s.fw.keys b = true → s.viewTable s.fw.nextHandle b (Gxo.viewCount b) = .ok (placed, vs) →
        ∃ u, exec (.load m) s = .next u ∧ quiet u ∧ s.answered u m 0 (some (BitVec.ofNat 64 s.fw.nextHandle)) none
          ∧ u.fw.images = s.fw.images ++ [⟨s.fw.nextHandle, b, [], Gxo.measure b, placed⟩])
      ∧ (Gxo.acceptable b = false → ∃ u, exec (.load m) s = .next u ∧ quiet u ∧ s.answered u m 5 none none ∧ u.fw.images = s.fw.images)
      ∧ (Gxo.acceptable b = true → Gxo.accepted s.fw.keys b = false →
        ∃ u, exec (.load m) s = .next u ∧ quiet u ∧ s.answered u m 6 none none ∧ u.fw.images = s.fw.images)
      ∧ (∀ c, Gxo.acceptable b = true → Gxo.accepted s.fw.keys b = true → s.viewTable s.fw.nextHandle b (Gxo.viewCount b) = .error c →
        ∃ u, exec (.load m) s = .next u ∧ quiet u ∧ s.answered u m c none none ∧ u.fw.images = s.fw.images ∧ u.views = s.views)
      ∧ ∀ i, Gxo.acceptable b = true → Gxo.accepted s.fw.keys b = true → i < Gxo.viewCount b → (viewEntryOf b i).bad b = true →
        ∃ u, exec (.load m) s = .next u ∧ quiet u ∧ s.answered u m 7 none none ∧ u.fw.images = s.fw.images ∧ u.views = s.views)
    ∧ (∀ i, s.Orders m 5 true 3 → s.fw.images.find? (fun i => i.handle == a0) = some i → Gxo.hasManifest i.bytes = true → a1 < Gxo.nRange i.bytes →
      recordOk (w.arg 2) (rangePages (Gxo.rangeOf i.bytes a1).1 (Gxo.rangeOf i.bytes a1).2.1) = true → chlocal (w.arg 2) = false →
      ∃ u j, exec (.policy m) s = .next u ∧ quiet u ∧ s.answered u m 0 none none ∧ j ∈ u.fw.images ∧ j.handle = a0 ∧ j.bytes = i.bytes
        ∧ Tab.find j.policy a1 = some (w.arg 2))
    ∧ (s.Orders m 5 true 3 → w.arg 0 = 0 → a1 = 0xFFFF → s.hostReadable m a2 97 = true → s.fw.keys.length < 8 →
      ∃ u, exec (.policyAddKey m) s = .next u ∧ quiet u ∧ s.answered u m 0 none none ∧ u.fw.keys = s.fw.keys ++ [s.hostBytes m a2 97])
    ∧ (∀ i e s', s.Orders m 6 true 3 → s.fw.images.find? (fun i => i.handle == a0) = some i → a1 % 64 = 0 → 1 ≤ a2 → a2 ≤ 15 → s.hostReadable m a1 16 = true →
      s.launchImage m i a1 a2 = .ok (e, s') →
      ∃ u l, exec (.launch m) s = .next u ∧ u.window m = { w with code := 0, busy := false, result0 := e.setWidth 64 } ∧ u.launch e = some l ∧ l.phase = .running
        ∧ l.master = m ∧ l.compAt = a1 ∧ l.vector = a2 ∧ l.clusters = clusterSet i.bytes s.package ∧ u.fw.lastEpoch = e
        ∧ ∀ p ∈ s.pagersOf l.clusters, (u.pager p).roots.getD l.slot 0 >>> 48 = e.setWidth 64)
    ∧ (∀ i, s.Orders m 6 true 3 → s.fw.images.find? (fun i => i.handle == a0) = some i → a1 % 64 = 0 → 1 ≤ a2 → a2 ≤ 15 → s.hostReadable m a1 16 = true →
      Gxo.hasManifest i.bytes = false → ∃ u, exec (.launch m) s = .next u ∧ quiet u ∧ s.answered u m 5 none none ∧ u.fw.launches = s.fw.launches)
    ∧ (∀ l, s.Orders m 8 true 3 → a0 < 2 ^ 16 → s.launch (BitVec.ofNat 16 a0) = some l → l.tau = none →
      (l.phase = .running → a2 = 0 → s.gtime + 20000 ≤ a1 →
        ∃ u, exec (.preempt m) s = .next u ∧ quiet u ∧ s.answered u m 0 none none ∧ u.launch l.epoch = some { l with tau := some a1 } ∧ .gangSwitch l.epoch.toNat ∈ u.agenda)
      ∧ (l.phase = .out → a2 = 1 → s.gtime + 20000 ≤ a1 →
        ∃ u, exec (.preemptResume m) s = .next u ∧ quiet u ∧ s.answered u m 0 none none ∧ u.launch l.epoch = some { l with tau := some a1 } ∧ .gangResume l.epoch.toNat ∈ u.agenda)
      ∧ (l.phase = .running → a2 = 0 → a1 < s.gtime + 20000 →
        ∃ u, exec (.preempt m) s = .next u ∧ quiet u ∧ s.answered u m 12 none none ∧ u.fw.launches = s.fw.launches))
    ∧ (∀ l c, s.Orders m 9 true 2 → a0 < 2 ^ 16 → s.launch (BitVec.ofNat 16 a0) = some l → l.phase ≠ .complete → a1 = s.package * 2 ^ 24 + c → c < 2 ^ 21 → c % 0x80 = 0 →
      l.clusters.contains (s.package, clusterOf c) = true → (s.core c).killed = false →
      ∃ u, exec (.kill m) s = .next u ∧ (∀ j, (u.thread j).regs = (s.thread j).regs) ∧ s.answered u m 0 none none ∧ (u.core c).killed = true ∧ .supervisorRecovery c ∈ u.agenda)
    ∧ (∀ l, s.Orders m 10 true 3 → a0 < 2 ^ 16 → s.launch (BitVec.ofNat 16 a0) = some l → s.Canonical →
      let bs := l.dumpBytes.take a2
      s.hostReadable m a1 bs.length = true →
      ∃ u, exec (.dump m) s = .next u ∧ s.answered u m 0 (some (BitVec.ofNat 64 bs.length)) none ∧ u.mem.readN (s.hostKey m a1) bs.length = bs)
    ∧ (∀ l f, s.Orders m 11 true 3 → a0 < 2 ^ 16 → s.launch (BitVec.ofNat 16 a0) = some l → l.phase = .out → l.frames = [f] → a1 = 1 → s.Canonical →
      s.hostReadable m a2 4096 = true →
      ∃ u, exec (.checkpoint m) s = .next u ∧ s.answered u m 0 none none ∧ u.mem.readN (s.hostKey m a2) 4096 = s.homeBytes (s.pageKey f) 4096)
    ∧ (s.Orders m 13 true 2 → s.hostReadable m a0 a1 = true →
      let b := s.hostBytes m a0 a1
      ∃ u, exec (.update m) s = .next u ∧ quiet u ∧ if Gxo.isSigned b && Gxo.signatureFits b && Gxo.signedBy b Config.fusedKey
        then s.answered u m 0 none none ∧ u.fw.staged = some b else s.answered u m 6 none none ∧ u.fw.staged = s.fw.staged)
    ∧ (s.Orders m 3 true 0 → s.fw.launches = [] → s.cells = [] → s.host.held = [] →
      ∃ u, exec (.reset m) s = .next u ∧ atReset u ∧ cores u ∧ u.mem = s.mem
        ∧ u.fw.owner = none ∧ u.fw.keys = [] ∧ u.fw.images = s.fw.images ∧ (u.window m).busy = false ∧ (m, 0) ∈ u.fw.msix ∧ u.gtime = s.gtime)
    ∧ (∀ l, s.Orders m 3 true 0 → s.Canonical →
      let v := (s.answer m { code := 0 }).killAll
      v.fw.launches = [l] → l.phase ≠ .complete →
      ∃ u, exec (.reset m) s = .next u ∧ atReset u ∧ u.fw.launches = [l.endedWith (v.resetWord l)] ∧ (l.endedWith (v.resetWord l)).phase = .complete
        ∧ wordFault (v.resetWord l) = worseFault (wordFault (v.wordSoFar l)) Cause.killed.code ∧ u.fw.msix = (l.master, l.vector) :: v.fw.msix
        ∧ u.mem.readN (v.hostKey l.master l.compAt) 16 = leBytes 8 (v.resetWord l).toNat ++ leBytes 8 l.epoch.toNat)
    ∧ (s.mem.wf = true → ∃ u, exec .coldReset s = .next u ∧ u.powered = true ∧ atReset u ∧ u.host = State.reset.host ∧ u.fw.launches = [] ∧ u.fw.images = []
        ∧ u.fw.owner = none ∧ u.gtime = 0 ∧ u.agenda = []
        ∧ (∀ c, u.core c = Core.initial ∨ u.core c = Core.out) ∧ (∀ c, (s.core c).lasting = true → u.core c = Core.out)
        ∧ (∀ c ∈ Config.bootFaults s.tick, (isCompute c || isVent c) = true → coreOf c = c → u.core c = Core.out)
        ∧ ∀ k, u.mem.read k = if areaOf k = .firstTier then 0 else s.mem.read k)
    ∧ (s.mem.wf = true → ∃ u, exec .powerOff s = .next u ∧ u.powered = false ∧ u.agenda = [] ∧ step u = .fault .powerOff ∧ atReset u ∧ cores u
        ∧ ∀ k, u.mem.read k = if areaOf k = .firstTier then 0 else s.mem.read k)
end

