-- ==== Sys2Proof/Laws/State.lean ====
section
/-! SUPPORT.
What each update of the state and of a thread leaves alone: one lemma per field per update, true by unfolding, so that no
later proof unfolds a record update.
-/

namespace Sys2Proof.Machine

/-! ## Tables -/

theorem Tab.get_put_same {α : Type} (d : α) (t : Tab α) (k : Nat) (a : α) : Tab.get d (Tab.put t k a) k = a := by
  induction t with
  | nil => simp [Tab.put, Tab.get]
  | cons e t ih =>
    obtain ⟨j, b⟩ := e
    simp only [Tab.put]
    split
    · simp [Tab.get]
    · split
      · simp [Tab.get]
      · rename_i h1 h2
        simp only [Tab.get, if_neg (fun q : j = k => h2 q.symm), ih]

theorem Tab.get_put_other {α : Type} (d : α) (t : Tab α) {k i : Nat} (a : α) (h : i ≠ k) :
    Tab.get d (Tab.put t k a) i = Tab.get d t i := by
  induction t with
  | nil => simp only [Tab.put, Tab.get, if_neg (fun q : k = i => h q.symm)]
  | cons e t ih =>
    obtain ⟨j, b⟩ := e
    simp only [Tab.put]
    split
    · simp only [Tab.get, if_neg (fun q : k = i => h q.symm)]
    · split
      · rename_i h1 h2
        simp only [Tab.get, if_neg (fun q : k = i => h q.symm), if_neg (fun q : j = i => h (q.symm.trans h2.symm))]
      · simp only [Tab.get, ih]

theorem Tab.put_put {α : Type} (t : Tab α) (k : Nat) (a b : α) : Tab.put (Tab.put t k a) k b = Tab.put t k b := by
  induction t with
  | nil => simp [Tab.put]
  | cons e t ih =>
    obtain ⟨j, c⟩ := e
    by_cases h1 : k < j
    · simp [Tab.put, h1]
    · by_cases h2 : k = j
      · subst h2
        simp [Tab.put]
      · simp [Tab.put, h1, h2, ih]

/-! ## Updates of the state -/

@[simp] theorem State.setThread_cur (s : State) (t : Nat) (x : Thread) : (s.setThread t x).cur = s.cur := rfl
@[simp] theorem State.setThread_agenda (s : State) (t : Nat) (x : Thread) : (s.setThread t x).agenda = s.agenda := rfl
@[simp] theorem State.setThread_tick (s : State) (t : Nat) (x : Thread) : (s.setThread t x).tick = s.tick := rfl
@[simp] theorem State.setThread_fresh (s : State) (t : Nat) (x : Thread) : (s.setThread t x).fresh = s.fresh := rfl
@[simp] theorem State.setThread_powered (s : State) (t : Nat) (x : Thread) : (s.setThread t x).powered = s.powered := rfl
@[simp] theorem State.setThread_package (s : State) (t : Nat) (x : Thread) : (s.setThread t x).package = s.package := rfl
@[simp] theorem State.setThread_gtime (s : State) (t : Nat) (x : Thread) : (s.setThread t x).gtime = s.gtime := rfl
@[simp] theorem State.setThread_synced (s : State) (t : Nat) (x : Thread) : (s.setThread t x).synced = s.synced := rfl
@[simp] theorem State.setThread_mem (s : State) (t : Nat) (x : Thread) : (s.setThread t x).mem = s.mem := rfl
@[simp] theorem State.setThread_cores (s : State) (t : Nat) (x : Thread) : (s.setThread t x).cores = s.cores := rfl
@[simp] theorem State.setThread_tiles (s : State) (t : Nat) (x : Thread) : (s.setThread t x).tiles = s.tiles := rfl
@[simp] theorem State.setThread_clusters (s : State) (t : Nat) (x : Thread) : (s.setThread t x).clusters = s.clusters := rfl
@[simp] theorem State.setThread_servers (s : State) (t : Nat) (x : Thread) : (s.setThread t x).servers = s.servers := rfl
@[simp] theorem State.setThread_homes (s : State) (t : Nat) (x : Thread) : (s.setThread t x).homes = s.homes := rfl
@[simp] theorem State.setThread_pagers (s : State) (t : Nat) (x : Thread) : (s.setThread t x).pagers = s.pagers := rfl
@[simp] theorem State.setThread_stthm (s : State) (t : Nat) (x : Thread) : (s.setThread t x).stthm = s.stthm := rfl
@[simp] theorem State.setThread_phases (s : State) (t : Nat) (x : Thread) : (s.setThread t x).phases = s.phases := rfl
@[simp] theorem State.setThread_sched (s : State) (t : Nat) (x : Thread) : (s.setThread t x).sched = s.sched := rfl
@[simp] theorem State.setThread_sealed (s : State) (t : Nat) (x : Thread) : (s.setThread t x).sealed = s.sealed := rfl
@[simp] theorem State.setThread_cells (s : State) (t : Nat) (x : Thread) : (s.setThread t x).cells = s.cells := rfl
@[simp] theorem State.setThread_strong (s : State) (t : Nat) (x : Thread) : (s.setThread t x).strong = s.strong := rfl
@[simp] theorem State.setThread_lines (s : State) (t : Nat) (x : Thread) : (s.setThread t x).lines = s.lines := rfl
@[simp] theorem State.setThread_decoded (s : State) (t : Nat) (x : Thread) : (s.setThread t x).decoded = s.decoded := rfl
@[simp] theorem State.setThread_views (s : State) (t : Nat) (x : Thread) : (s.setThread t x).views = s.views := rfl
@[simp] theorem State.setThread_hot (s : State) (t : Nat) (x : Thread) : (s.setThread t x).hot = s.hot := rfl
@[simp] theorem State.setThread_hotctl (s : State) (t : Nat) (x : Thread) : (s.setThread t x).hotctl = s.hotctl := rfl
@[simp] theorem State.setThread_pgsub (s : State) (t : Nat) (x : Thread) : (s.setThread t x).pgsub = s.pgsub := rfl
@[simp] theorem State.setThread_touched (s : State) (t : Nat) (x : Thread) : (s.setThread t x).touched = s.touched := rfl
@[simp] theorem State.setThread_homed (s : State) (t : Nat) (x : Thread) : (s.setThread t x).homed = s.homed := rfl
@[simp] theorem State.setThread_wlen (s : State) (t : Nat) (x : Thread) : (s.setThread t x).wlen = s.wlen := rfl
@[simp] theorem State.setThread_ranks (s : State) (t : Nat) (x : Thread) : (s.setThread t x).ranks = s.ranks := rfl
@[simp] theorem State.setThread_poison (s : State) (t : Nat) (x : Thread) : (s.setThread t x).poison = s.poison := rfl
@[simp] theorem State.setThread_net (s : State) (t : Nat) (x : Thread) : (s.setThread t x).net = s.net := rfl
@[simp] theorem State.setThread_host (s : State) (t : Nat) (x : Thread) : (s.setThread t x).host = s.host := rfl
@[simp] theorem State.setThread_fw (s : State) (t : Nat) (x : Thread) : (s.setThread t x).fw = s.fw := rfl

@[simp] theorem State.setCore_cur (s : State) (c : Nat) (x : Core) : (s.setCore c x).cur = s.cur := rfl
@[simp] theorem State.setCore_agenda (s : State) (c : Nat) (x : Core) : (s.setCore c x).agenda = s.agenda := rfl
@[simp] theorem State.setCore_tick (s : State) (c : Nat) (x : Core) : (s.setCore c x).tick = s.tick := rfl
@[simp] theorem State.setCore_fresh (s : State) (c : Nat) (x : Core) : (s.setCore c x).fresh = s.fresh := rfl
@[simp] theorem State.setCore_powered (s : State) (c : Nat) (x : Core) : (s.setCore c x).powered = s.powered := rfl
@[simp] theorem State.setCore_package (s : State) (c : Nat) (x : Core) : (s.setCore c x).package = s.package := rfl
@[simp] theorem State.setCore_gtime (s : State) (c : Nat) (x : Core) : (s.setCore c x).gtime = s.gtime := rfl
@[simp] theorem State.setCore_synced (s : State) (c : Nat) (x : Core) : (s.setCore c x).synced = s.synced := rfl
@[simp] theorem State.setCore_mem (s : State) (c : Nat) (x : Core) : (s.setCore c x).mem = s.mem := rfl
@[simp] theorem State.setCore_threads (s : State) (c : Nat) (x : Core) : (s.setCore c x).threads = s.threads := rfl
@[simp] theorem State.setCore_tiles (s : State) (c : Nat) (x : Core) : (s.setCore c x).tiles = s.tiles := rfl
@[simp] theorem State.setCore_clusters (s : State) (c : Nat) (x : Core) : (s.setCore c x).clusters = s.clusters := rfl
@[simp] theorem State.setCore_servers (s : State) (c : Nat) (x : Core) : (s.setCore c x).servers = s.servers := rfl
@[simp] theorem State.setCore_homes (s : State) (c : Nat) (x : Core) : (s.setCore c x).homes = s.homes := rfl
@[simp] theorem State.setCore_pagers (s : State) (c : Nat) (x : Core) : (s.setCore c x).pagers = s.pagers := rfl
@[simp] theorem State.setCore_stthm (s : State) (c : Nat) (x : Core) : (s.setCore c x).stthm = s.stthm := rfl
@[simp] theorem State.setCore_phases (s : State) (c : Nat) (x : Core) : (s.setCore c x).phases = s.phases := rfl
@[simp] theorem State.setCore_sched (s : State) (c : Nat) (x : Core) : (s.setCore c x).sched = s.sched := rfl
@[simp] theorem State.setCore_sealed (s : State) (c : Nat) (x : Core) : (s.setCore c x).sealed = s.sealed := rfl
@[simp] theorem State.setCore_cells (s : State) (c : Nat) (x : Core) : (s.setCore c x).cells = s.cells := rfl
@[simp] theorem State.setCore_strong (s : State) (c : Nat) (x : Core) : (s.setCore c x).strong = s.strong := rfl
@[simp] theorem State.setCore_lines (s : State) (c : Nat) (x : Core) : (s.setCore c x).lines = s.lines := rfl
@[simp] theorem State.setCore_decoded (s : State) (c : Nat) (x : Core) : (s.setCore c x).decoded = s.decoded := rfl
@[simp] theorem State.setCore_views (s : State) (c : Nat) (x : Core) : (s.setCore c x).views = s.views := rfl
@[simp] theorem State.setCore_hot (s : State) (c : Nat) (x : Core) : (s.setCore c x).hot = s.hot := rfl
@[simp] theorem State.setCore_hotctl (s : State) (c : Nat) (x : Core) : (s.setCore c x).hotctl = s.hotctl := rfl
@[simp] theorem State.setCore_pgsub (s : State) (c : Nat) (x : Core) : (s.setCore c x).pgsub = s.pgsub := rfl
@[simp] theorem State.setCore_touched (s : State) (c : Nat) (x : Core) : (s.setCore c x).touched = s.touched := rfl
@[simp] theorem State.setCore_homed (s : State) (c : Nat) (x : Core) : (s.setCore c x).homed = s.homed := rfl
@[simp] theorem State.setCore_wlen (s : State) (c : Nat) (x : Core) : (s.setCore c x).wlen = s.wlen := rfl
@[simp] theorem State.setCore_ranks (s : State) (c : Nat) (x : Core) : (s.setCore c x).ranks = s.ranks := rfl
@[simp] theorem State.setCore_poison (s : State) (c : Nat) (x : Core) : (s.setCore c x).poison = s.poison := rfl
@[simp] theorem State.setCore_net (s : State) (c : Nat) (x : Core) : (s.setCore c x).net = s.net := rfl
@[simp] theorem State.setCore_host (s : State) (c : Nat) (x : Core) : (s.setCore c x).host = s.host := rfl
@[simp] theorem State.setCore_fw (s : State) (c : Nat) (x : Core) : (s.setCore c x).fw = s.fw := rfl

@[simp] theorem State.setTile_cur (s : State) (k : Nat) (x : Tile) : (s.setTile k x).cur = s.cur := rfl
@[simp] theorem State.setTile_agenda (s : State) (k : Nat) (x : Tile) : (s.setTile k x).agenda = s.agenda := rfl
@[simp] theorem State.setTile_tick (s : State) (k : Nat) (x : Tile) : (s.setTile k x).tick = s.tick := rfl
@[simp] theorem State.setTile_fresh (s : State) (k : Nat) (x : Tile) : (s.setTile k x).fresh = s.fresh := rfl
@[simp] theorem State.setTile_powered (s : State) (k : Nat) (x : Tile) : (s.setTile k x).powered = s.powered := rfl
@[simp] theorem State.setTile_package (s : State) (k : Nat) (x : Tile) : (s.setTile k x).package = s.package := rfl
@[simp] theorem State.setTile_gtime (s : State) (k : Nat) (x : Tile) : (s.setTile k x).gtime = s.gtime := rfl
@[simp] theorem State.setTile_synced (s : State) (k : Nat) (x : Tile) : (s.setTile k x).synced = s.synced := rfl
@[simp] theorem State.setTile_mem (s : State) (k : Nat) (x : Tile) : (s.setTile k x).mem = s.mem := rfl
@[simp] theorem State.setTile_threads (s : State) (k : Nat) (x : Tile) : (s.setTile k x).threads = s.threads := rfl
@[simp] theorem State.setTile_cores (s : State) (k : Nat) (x : Tile) : (s.setTile k x).cores = s.cores := rfl
@[simp] theorem State.setTile_clusters (s : State) (k : Nat) (x : Tile) : (s.setTile k x).clusters = s.clusters := rfl
@[simp] theorem State.setTile_servers (s : State) (k : Nat) (x : Tile) : (s.setTile k x).servers = s.servers := rfl
@[simp] theorem State.setTile_homes (s : State) (k : Nat) (x : Tile) : (s.setTile k x).homes = s.homes := rfl
@[simp] theorem State.setTile_pagers (s : State) (k : Nat) (x : Tile) : (s.setTile k x).pagers = s.pagers := rfl
@[simp] theorem State.setTile_stthm (s : State) (k : Nat) (x : Tile) : (s.setTile k x).stthm = s.stthm := rfl
@[simp] theorem State.setTile_phases (s : State) (k : Nat) (x : Tile) : (s.setTile k x).phases = s.phases := rfl
@[simp] theorem State.setTile_sched (s : State) (k : Nat) (x : Tile) : (s.setTile k x).sched = s.sched := rfl
@[simp] theorem State.setTile_sealed (s : State) (k : Nat) (x : Tile) : (s.setTile k x).sealed = s.sealed := rfl
@[simp] theorem State.setTile_cells (s : State) (k : Nat) (x : Tile) : (s.setTile k x).cells = s.cells := rfl
@[simp] theorem State.setTile_strong (s : State) (k : Nat) (x : Tile) : (s.setTile k x).strong = s.strong := rfl
@[simp] theorem State.setTile_lines (s : State) (k : Nat) (x : Tile) : (s.setTile k x).lines = s.lines := rfl
@[simp] theorem State.setTile_decoded (s : State) (k : Nat) (x : Tile) : (s.setTile k x).decoded = s.decoded := rfl
@[simp] theorem State.setTile_views (s : State) (k : Nat) (x : Tile) : (s.setTile k x).views = s.views := rfl
@[simp] theorem State.setTile_hot (s : State) (k : Nat) (x : Tile) : (s.setTile k x).hot = s.hot := rfl
@[simp] theorem State.setTile_hotctl (s : State) (k : Nat) (x : Tile) : (s.setTile k x).hotctl = s.hotctl := rfl
@[simp] theorem State.setTile_pgsub (s : State) (k : Nat) (x : Tile) : (s.setTile k x).pgsub = s.pgsub := rfl
@[simp] theorem State.setTile_touched (s : State) (k : Nat) (x : Tile) : (s.setTile k x).touched = s.touched := rfl
@[simp] theorem State.setTile_homed (s : State) (k : Nat) (x : Tile) : (s.setTile k x).homed = s.homed := rfl
@[simp] theorem State.setTile_wlen (s : State) (k : Nat) (x : Tile) : (s.setTile k x).wlen = s.wlen := rfl
@[simp] theorem State.setTile_ranks (s : State) (k : Nat) (x : Tile) : (s.setTile k x).ranks = s.ranks := rfl
@[simp] theorem State.setTile_poison (s : State) (k : Nat) (x : Tile) : (s.setTile k x).poison = s.poison := rfl
@[simp] theorem State.setTile_net (s : State) (k : Nat) (x : Tile) : (s.setTile k x).net = s.net := rfl
@[simp] theorem State.setTile_host (s : State) (k : Nat) (x : Tile) : (s.setTile k x).host = s.host := rfl
@[simp] theorem State.setTile_fw (s : State) (k : Nat) (x : Tile) : (s.setTile k x).fw = s.fw := rfl

@[simp] theorem State.setCluster_cur (s : State) (c : Nat) (x : Cluster) : (s.setCluster c x).cur = s.cur := rfl
@[simp] theorem State.setCluster_agenda (s : State) (c : Nat) (x : Cluster) : (s.setCluster c x).agenda = s.agenda := rfl
@[simp] theorem State.setCluster_tick (s : State) (c : Nat) (x : Cluster) : (s.setCluster c x).tick = s.tick := rfl
@[simp] theorem State.setCluster_fresh (s : State) (c : Nat) (x : Cluster) : (s.setCluster c x).fresh = s.fresh := rfl
@[simp] theorem State.setCluster_powered (s : State) (c : Nat) (x : Cluster) : (s.setCluster c x).powered = s.powered := rfl
@[simp] theorem State.setCluster_package (s : State) (c : Nat) (x : Cluster) : (s.setCluster c x).package = s.package := rfl
@[simp] theorem State.setCluster_gtime (s : State) (c : Nat) (x : Cluster) : (s.setCluster c x).gtime = s.gtime := rfl
@[simp] theorem State.setCluster_synced (s : State) (c : Nat) (x : Cluster) : (s.setCluster c x).synced = s.synced := rfl
@[simp] theorem State.setCluster_mem (s : State) (c : Nat) (x : Cluster) : (s.setCluster c x).mem = s.mem := rfl
@[simp] theorem State.setCluster_threads (s : State) (c : Nat) (x : Cluster) : (s.setCluster c x).threads = s.threads := rfl
@[simp] theorem State.setCluster_cores (s : State) (c : Nat) (x : Cluster) : (s.setCluster c x).cores = s.cores := rfl
@[simp] theorem State.setCluster_tiles (s : State) (c : Nat) (x : Cluster) : (s.setCluster c x).tiles = s.tiles := rfl
@[simp] theorem State.setCluster_servers (s : State) (c : Nat) (x : Cluster) : (s.setCluster c x).servers = s.servers := rfl
@[simp] theorem State.setCluster_homes (s : State) (c : Nat) (x : Cluster) : (s.setCluster c x).homes = s.homes := rfl
@[simp] theorem State.setCluster_pagers (s : State) (c : Nat) (x : Cluster) : (s.setCluster c x).pagers = s.pagers := rfl
@[simp] theorem State.setCluster_stthm (s : State) (c : Nat) (x : Cluster) : (s.setCluster c x).stthm = s.stthm := rfl
@[simp] theorem State.setCluster_phases (s : State) (c : Nat) (x : Cluster) : (s.setCluster c x).phases = s.phases := rfl
@[simp] theorem State.setCluster_sched (s : State) (c : Nat) (x : Cluster) : (s.setCluster c x).sched = s.sched := rfl
@[simp] theorem State.setCluster_sealed (s : State) (c : Nat) (x : Cluster) : (s.setCluster c x).sealed = s.sealed := rfl
@[simp] theorem State.setCluster_cells (s : State) (c : Nat) (x : Cluster) : (s.setCluster c x).cells = s.cells := rfl
@[simp] theorem State.setCluster_strong (s : State) (c : Nat) (x : Cluster) : (s.setCluster c x).strong = s.strong := rfl
@[simp] theorem State.setCluster_lines (s : State) (c : Nat) (x : Cluster) : (s.setCluster c x).lines = s.lines := rfl
@[simp] theorem State.setCluster_decoded (s : State) (c : Nat) (x : Cluster) : (s.setCluster c x).decoded = s.decoded := rfl
@[simp] theorem State.setCluster_views (s : State) (c : Nat) (x : Cluster) : (s.setCluster c x).views = s.views := rfl
@[simp] theorem State.setCluster_hot (s : State) (c : Nat) (x : Cluster) : (s.setCluster c x).hot = s.hot := rfl
@[simp] theorem State.setCluster_hotctl (s : State) (c : Nat) (x : Cluster) : (s.setCluster c x).hotctl = s.hotctl := rfl
@[simp] theorem State.setCluster_pgsub (s : State) (c : Nat) (x : Cluster) : (s.setCluster c x).pgsub = s.pgsub := rfl
@[simp] theorem State.setCluster_touched (s : State) (c : Nat) (x : Cluster) : (s.setCluster c x).touched = s.touched := rfl
@[simp] theorem State.setCluster_homed (s : State) (c : Nat) (x : Cluster) : (s.setCluster c x).homed = s.homed := rfl
@[simp] theorem State.setCluster_wlen (s : State) (c : Nat) (x : Cluster) : (s.setCluster c x).wlen = s.wlen := rfl
@[simp] theorem State.setCluster_ranks (s : State) (c : Nat) (x : Cluster) : (s.setCluster c x).ranks = s.ranks := rfl
@[simp] theorem State.setCluster_poison (s : State) (c : Nat) (x : Cluster) : (s.setCluster c x).poison = s.poison := rfl
@[simp] theorem State.setCluster_net (s : State) (c : Nat) (x : Cluster) : (s.setCluster c x).net = s.net := rfl
@[simp] theorem State.setCluster_host (s : State) (c : Nat) (x : Cluster) : (s.setCluster c x).host = s.host := rfl
@[simp] theorem State.setCluster_fw (s : State) (c : Nat) (x : Cluster) : (s.setCluster c x).fw = s.fw := rfl

@[simp] theorem State.setServer_cur (s : State) (k : Nat) (x : Server) : (s.setServer k x).cur = s.cur := rfl
@[simp] theorem State.setServer_agenda (s : State) (k : Nat) (x : Server) : (s.setServer k x).agenda = s.agenda := rfl
@[simp] theorem State.setServer_tick (s : State) (k : Nat) (x : Server) : (s.setServer k x).tick = s.tick := rfl
@[simp] theorem State.setServer_fresh (s : State) (k : Nat) (x : Server) : (s.setServer k x).fresh = s.fresh := rfl
@[simp] theorem State.setServer_powered (s : State) (k : Nat) (x : Server) : (s.setServer k x).powered = s.powered := rfl
@[simp] theorem State.setServer_package (s : State) (k : Nat) (x : Server) : (s.setServer k x).package = s.package := rfl
@[simp] theorem State.setServer_gtime (s : State) (k : Nat) (x : Server) : (s.setServer k x).gtime = s.gtime := rfl
@[simp] theorem State.setServer_synced (s : State) (k : Nat) (x : Server) : (s.setServer k x).synced = s.synced := rfl
@[simp] theorem State.setServer_mem (s : State) (k : Nat) (x : Server) : (s.setServer k x).mem = s.mem := rfl
@[simp] theorem State.setServer_threads (s : State) (k : Nat) (x : Server) : (s.setServer k x).threads = s.threads := rfl
@[simp] theorem State.setServer_cores (s : State) (k : Nat) (x : Server) : (s.setServer k x).cores = s.cores := rfl
@[simp] theorem State.setServer_tiles (s : State) (k : Nat) (x : Server) : (s.setServer k x).tiles = s.tiles := rfl
@[simp] theorem State.setServer_clusters (s : State) (k : Nat) (x : Server) : (s.setServer k x).clusters = s.clusters := rfl
@[simp] theorem State.setServer_homes (s : State) (k : Nat) (x : Server) : (s.setServer k x).homes = s.homes := rfl
@[simp] theorem State.setServer_pagers (s : State) (k : Nat) (x : Server) : (s.setServer k x).pagers = s.pagers := rfl
@[simp] theorem State.setServer_stthm (s : State) (k : Nat) (x : Server) : (s.setServer k x).stthm = s.stthm := rfl
@[simp] theorem State.setServer_phases (s : State) (k : Nat) (x : Server) : (s.setServer k x).phases = s.phases := rfl
@[simp] theorem State.setServer_sched (s : State) (k : Nat) (x : Server) : (s.setServer k x).sched = s.sched := rfl
@[simp] theorem State.setServer_sealed (s : State) (k : Nat) (x : Server) : (s.setServer k x).sealed = s.sealed := rfl
@[simp] theorem State.setServer_cells (s : State) (k : Nat) (x : Server) : (s.setServer k x).cells = s.cells := rfl
@[simp] theorem State.setServer_strong (s : State) (k : Nat) (x : Server) : (s.setServer k x).strong = s.strong := rfl
@[simp] theorem State.setServer_lines (s : State) (k : Nat) (x : Server) : (s.setServer k x).lines = s.lines := rfl
@[simp] theorem State.setServer_decoded (s : State) (k : Nat) (x : Server) : (s.setServer k x).decoded = s.decoded := rfl
@[simp] theorem State.setServer_views (s : State) (k : Nat) (x : Server) : (s.setServer k x).views = s.views := rfl
@[simp] theorem State.setServer_hot (s : State) (k : Nat) (x : Server) : (s.setServer k x).hot = s.hot := rfl
@[simp] theorem State.setServer_hotctl (s : State) (k : Nat) (x : Server) : (s.setServer k x).hotctl = s.hotctl := rfl
@[simp] theorem State.setServer_pgsub (s : State) (k : Nat) (x : Server) : (s.setServer k x).pgsub = s.pgsub := rfl
@[simp] theorem State.setServer_touched (s : State) (k : Nat) (x : Server) : (s.setServer k x).touched = s.touched := rfl
@[simp] theorem State.setServer_homed (s : State) (k : Nat) (x : Server) : (s.setServer k x).homed = s.homed := rfl
@[simp] theorem State.setServer_wlen (s : State) (k : Nat) (x : Server) : (s.setServer k x).wlen = s.wlen := rfl
@[simp] theorem State.setServer_ranks (s : State) (k : Nat) (x : Server) : (s.setServer k x).ranks = s.ranks := rfl
@[simp] theorem State.setServer_poison (s : State) (k : Nat) (x : Server) : (s.setServer k x).poison = s.poison := rfl
@[simp] theorem State.setServer_net (s : State) (k : Nat) (x : Server) : (s.setServer k x).net = s.net := rfl
@[simp] theorem State.setServer_host (s : State) (k : Nat) (x : Server) : (s.setServer k x).host = s.host := rfl
@[simp] theorem State.setServer_fw (s : State) (k : Nat) (x : Server) : (s.setServer k x).fw = s.fw := rfl

@[simp] theorem State.setHome_cur (s : State) (h : Nat) (x : Home) : (s.setHome h x).cur = s.cur := rfl
@[simp] theorem State.setHome_agenda (s : State) (h : Nat) (x : Home) : (s.setHome h x).agenda = s.agenda := rfl
@[simp] theorem State.setHome_tick (s : State) (h : Nat) (x : Home) : (s.setHome h x).tick = s.tick := rfl
@[simp] theorem State.setHome_fresh (s : State) (h : Nat) (x : Home) : (s.setHome h x).fresh = s.fresh := rfl
@[simp] theorem State.setHome_powered (s : State) (h : Nat) (x : Home) : (s.setHome h x).powered = s.powered := rfl
@[simp] theorem State.setHome_package (s : State) (h : Nat) (x : Home) : (s.setHome h x).package = s.package := rfl
@[simp] theorem State.setHome_gtime (s : State) (h : Nat) (x : Home) : (s.setHome h x).gtime = s.gtime := rfl
@[simp] theorem State.setHome_synced (s : State) (h : Nat) (x : Home) : (s.setHome h x).synced = s.synced := rfl
@[simp] theorem State.setHome_mem (s : State) (h : Nat) (x : Home) : (s.setHome h x).mem = s.mem := rfl
@[simp] theorem State.setHome_threads (s : State) (h : Nat) (x : Home) : (s.setHome h x).threads = s.threads := rfl
@[simp] theorem State.setHome_cores (s : State) (h : Nat) (x : Home) : (s.setHome h x).cores = s.cores := rfl
@[simp] theorem State.setHome_tiles (s : State) (h : Nat) (x : Home) : (s.setHome h x).tiles = s.tiles := rfl
@[simp] theorem State.setHome_clusters (s : State) (h : Nat) (x : Home) : (s.setHome h x).clusters = s.clusters := rfl
@[simp] theorem State.setHome_servers (s : State) (h : Nat) (x : Home) : (s.setHome h x).servers = s.servers := rfl
@[simp] theorem State.setHome_pagers (s : State) (h : Nat) (x : Home) : (s.setHome h x).pagers = s.pagers := rfl
@[simp] theorem State.setHome_stthm (s : State) (h : Nat) (x : Home) : (s.setHome h x).stthm = s.stthm := rfl
@[simp] theorem State.setHome_phases (s : State) (h : Nat) (x : Home) : (s.setHome h x).phases = s.phases := rfl
@[simp] theorem State.setHome_sched (s : State) (h : Nat) (x : Home) : (s.setHome h x).sched = s.sched := rfl
@[simp] theorem State.setHome_sealed (s : State) (h : Nat) (x : Home) : (s.setHome h x).sealed = s.sealed := rfl
@[simp] theorem State.setHome_cells (s : State) (h : Nat) (x : Home) : (s.setHome h x).cells = s.cells := rfl
@[simp] theorem State.setHome_strong (s : State) (h : Nat) (x : Home) : (s.setHome h x).strong = s.strong := rfl
@[simp] theorem State.setHome_lines (s : State) (h : Nat) (x : Home) : (s.setHome h x).lines = s.lines := rfl
@[simp] theorem State.setHome_decoded (s : State) (h : Nat) (x : Home) : (s.setHome h x).decoded = s.decoded := rfl
@[simp] theorem State.setHome_views (s : State) (h : Nat) (x : Home) : (s.setHome h x).views = s.views := rfl
@[simp] theorem State.setHome_hot (s : State) (h : Nat) (x : Home) : (s.setHome h x).hot = s.hot := rfl
@[simp] theorem State.setHome_hotctl (s : State) (h : Nat) (x : Home) : (s.setHome h x).hotctl = s.hotctl := rfl
@[simp] theorem State.setHome_pgsub (s : State) (h : Nat) (x : Home) : (s.setHome h x).pgsub = s.pgsub := rfl
@[simp] theorem State.setHome_touched (s : State) (h : Nat) (x : Home) : (s.setHome h x).touched = s.touched := rfl
@[simp] theorem State.setHome_homed (s : State) (h : Nat) (x : Home) : (s.setHome h x).homed = s.homed := rfl
@[simp] theorem State.setHome_wlen (s : State) (h : Nat) (x : Home) : (s.setHome h x).wlen = s.wlen := rfl
@[simp] theorem State.setHome_ranks (s : State) (h : Nat) (x : Home) : (s.setHome h x).ranks = s.ranks := rfl
@[simp] theorem State.setHome_poison (s : State) (h : Nat) (x : Home) : (s.setHome h x).poison = s.poison := rfl
@[simp] theorem State.setHome_net (s : State) (h : Nat) (x : Home) : (s.setHome h x).net = s.net := rfl
@[simp] theorem State.setHome_host (s : State) (h : Nat) (x : Home) : (s.setHome h x).host = s.host := rfl
@[simp] theorem State.setHome_fw (s : State) (h : Nat) (x : Home) : (s.setHome h x).fw = s.fw := rfl

@[simp] theorem State.post_cur (s : State) (is : List Happening) : (s.post is).cur = s.cur := rfl
@[simp] theorem State.post_tick (s : State) (is : List Happening) : (s.post is).tick = s.tick := rfl
@[simp] theorem State.post_fresh (s : State) (is : List Happening) : (s.post is).fresh = s.fresh := rfl
@[simp] theorem State.post_powered (s : State) (is : List Happening) : (s.post is).powered = s.powered := rfl
@[simp] theorem State.post_package (s : State) (is : List Happening) : (s.post is).package = s.package := rfl
@[simp] theorem State.post_gtime (s : State) (is : List Happening) : (s.post is).gtime = s.gtime := rfl
@[simp] theorem State.post_synced (s : State) (is : List Happening) : (s.post is).synced = s.synced := rfl
@[simp] theorem State.post_mem (s : State) (is : List Happening) : (s.post is).mem = s.mem := rfl
@[simp] theorem State.post_threads (s : State) (is : List Happening) : (s.post is).threads = s.threads := rfl
@[simp] theorem State.post_cores (s : State) (is : List Happening) : (s.post is).cores = s.cores := rfl
@[simp] theorem State.post_tiles (s : State) (is : List Happening) : (s.post is).tiles = s.tiles := rfl
@[simp] theorem State.post_clusters (s : State) (is : List Happening) : (s.post is).clusters = s.clusters := rfl
@[simp] theorem State.post_servers (s : State) (is : List Happening) : (s.post is).servers = s.servers := rfl
@[simp] theorem State.post_homes (s : State) (is : List Happening) : (s.post is).homes = s.homes := rfl
@[simp] theorem State.post_pagers (s : State) (is : List Happening) : (s.post is).pagers = s.pagers := rfl
@[simp] theorem State.post_stthm (s : State) (is : List Happening) : (s.post is).stthm = s.stthm := rfl
@[simp] theorem State.post_phases (s : State) (is : List Happening) : (s.post is).phases = s.phases := rfl
@[simp] theorem State.post_sched (s : State) (is : List Happening) : (s.post is).sched = s.sched := rfl
@[simp] theorem State.post_sealed (s : State) (is : List Happening) : (s.post is).sealed = s.sealed := rfl
@[simp] theorem State.post_cells (s : State) (is : List Happening) : (s.post is).cells = s.cells := rfl
@[simp] theorem State.post_strong (s : State) (is : List Happening) : (s.post is).strong = s.strong := rfl
@[simp] theorem State.post_lines (s : State) (is : List Happening) : (s.post is).lines = s.lines := rfl
@[simp] theorem State.post_decoded (s : State) (is : List Happening) : (s.post is).decoded = s.decoded := rfl
@[simp] theorem State.post_views (s : State) (is : List Happening) : (s.post is).views = s.views := rfl
@[simp] theorem State.post_hot (s : State) (is : List Happening) : (s.post is).hot = s.hot := rfl
@[simp] theorem State.post_hotctl (s : State) (is : List Happening) : (s.post is).hotctl = s.hotctl := rfl
@[simp] theorem State.post_pgsub (s : State) (is : List Happening) : (s.post is).pgsub = s.pgsub := rfl
@[simp] theorem State.post_touched (s : State) (is : List Happening) : (s.post is).touched = s.touched := rfl
@[simp] theorem State.post_homed (s : State) (is : List Happening) : (s.post is).homed = s.homed := rfl
@[simp] theorem State.post_wlen (s : State) (is : List Happening) : (s.post is).wlen = s.wlen := rfl
@[simp] theorem State.post_ranks (s : State) (is : List Happening) : (s.post is).ranks = s.ranks := rfl
@[simp] theorem State.post_poison (s : State) (is : List Happening) : (s.post is).poison = s.poison := rfl
@[simp] theorem State.post_net (s : State) (is : List Happening) : (s.post is).net = s.net := rfl
@[simp] theorem State.post_host (s : State) (is : List Happening) : (s.post is).host = s.host := rfl
@[simp] theorem State.post_fw (s : State) (is : List Happening) : (s.post is).fw = s.fw := rfl
@[simp] theorem State.post_agenda (s : State) (is : List Happening) : (s.post is).agenda = s.agenda ++ is := rfl

@[simp] theorem State.setLaunch_cur (s : State) (l : Launch) : (s.setLaunch l).cur = s.cur := rfl
@[simp] theorem State.setLaunch_agenda (s : State) (l : Launch) : (s.setLaunch l).agenda = s.agenda := rfl
@[simp] theorem State.setLaunch_tick (s : State) (l : Launch) : (s.setLaunch l).tick = s.tick := rfl
@[simp] theorem State.setLaunch_fresh (s : State) (l : Launch) : (s.setLaunch l).fresh = s.fresh := rfl
@[simp] theorem State.setLaunch_powered (s : State) (l : Launch) : (s.setLaunch l).powered = s.powered := rfl
@[simp] theorem State.setLaunch_package (s : State) (l : Launch) : (s.setLaunch l).package = s.package := rfl
@[simp] theorem State.setLaunch_gtime (s : State) (l : Launch) : (s.setLaunch l).gtime = s.gtime := rfl
@[simp] theorem State.setLaunch_synced (s : State) (l : Launch) : (s.setLaunch l).synced = s.synced := rfl
@[simp] theorem State.setLaunch_mem (s : State) (l : Launch) : (s.setLaunch l).mem = s.mem := rfl
@[simp] theorem State.setLaunch_threads (s : State) (l : Launch) : (s.setLaunch l).threads = s.threads := rfl
@[simp] theorem State.setLaunch_cores (s : State) (l : Launch) : (s.setLaunch l).cores = s.cores := rfl
@[simp] theorem State.setLaunch_tiles (s : State) (l : Launch) : (s.setLaunch l).tiles = s.tiles := rfl
@[simp] theorem State.setLaunch_clusters (s : State) (l : Launch) : (s.setLaunch l).clusters = s.clusters := rfl
@[simp] theorem State.setLaunch_servers (s : State) (l : Launch) : (s.setLaunch l).servers = s.servers := rfl
@[simp] theorem State.setLaunch_homes (s : State) (l : Launch) : (s.setLaunch l).homes = s.homes := rfl
@[simp] theorem State.setLaunch_pagers (s : State) (l : Launch) : (s.setLaunch l).pagers = s.pagers := rfl
@[simp] theorem State.setLaunch_stthm (s : State) (l : Launch) : (s.setLaunch l).stthm = s.stthm := rfl
@[simp] theorem State.setLaunch_phases (s : State) (l : Launch) : (s.setLaunch l).phases = s.phases := rfl
@[simp] theorem State.setLaunch_sched (s : State) (l : Launch) : (s.setLaunch l).sched = s.sched := rfl
@[simp] theorem State.setLaunch_sealed (s : State) (l : Launch) : (s.setLaunch l).sealed = s.sealed := rfl
@[simp] theorem State.setLaunch_cells (s : State) (l : Launch) : (s.setLaunch l).cells = s.cells := rfl
@[simp] theorem State.setLaunch_strong (s : State) (l : Launch) : (s.setLaunch l).strong = s.strong := rfl
@[simp] theorem State.setLaunch_lines (s : State) (l : Launch) : (s.setLaunch l).lines = s.lines := rfl
@[simp] theorem State.setLaunch_decoded (s : State) (l : Launch) : (s.setLaunch l).decoded = s.decoded := rfl
@[simp] theorem State.setLaunch_views (s : State) (l : Launch) : (s.setLaunch l).views = s.views := rfl
@[simp] theorem State.setLaunch_hot (s : State) (l : Launch) : (s.setLaunch l).hot = s.hot := rfl
@[simp] theorem State.setLaunch_hotctl (s : State) (l : Launch) : (s.setLaunch l).hotctl = s.hotctl := rfl
@[simp] theorem State.setLaunch_pgsub (s : State) (l : Launch) : (s.setLaunch l).pgsub = s.pgsub := rfl
@[simp] theorem State.setLaunch_touched (s : State) (l : Launch) : (s.setLaunch l).touched = s.touched := rfl
@[simp] theorem State.setLaunch_homed (s : State) (l : Launch) : (s.setLaunch l).homed = s.homed := rfl
@[simp] theorem State.setLaunch_wlen (s : State) (l : Launch) : (s.setLaunch l).wlen = s.wlen := rfl
@[simp] theorem State.setLaunch_ranks (s : State) (l : Launch) : (s.setLaunch l).ranks = s.ranks := rfl
@[simp] theorem State.setLaunch_poison (s : State) (l : Launch) : (s.setLaunch l).poison = s.poison := rfl
@[simp] theorem State.setLaunch_net (s : State) (l : Launch) : (s.setLaunch l).net = s.net := rfl
@[simp] theorem State.setLaunch_host (s : State) (l : Launch) : (s.setLaunch l).host = s.host := rfl

/-! ## Units after an update -/

@[simp] theorem State.setThread_thread_same (s : State) (t : Nat) (x : Thread) : (s.setThread t x).thread t = x := Tab.get_put_same _ _ _ _
theorem State.setThread_thread_other (s : State) (t : Nat) (x : Thread) {i : Nat} (n : i ≠ t) : (s.setThread t x).thread i = s.thread i :=
  Tab.get_put_other _ _ _ n
@[simp] theorem State.setThread_setThread (s : State) (t : Nat) (x : Thread) (y : Thread) : (s.setThread t x).setThread t y = s.setThread t y := by
  simp only [State.setThread, Tab.put_put]
@[simp] theorem State.setThread_core (s : State) (t : Nat) (x : Thread) (i : Nat) : (s.setThread t x).core i = s.core i := rfl
@[simp] theorem State.setThread_tile (s : State) (t : Nat) (x : Thread) (i : Nat) : (s.setThread t x).tile i = s.tile i := rfl
@[simp] theorem State.setThread_cluster (s : State) (t : Nat) (x : Thread) (i : Nat) : (s.setThread t x).cluster i = s.cluster i := rfl
@[simp] theorem State.setThread_server (s : State) (t : Nat) (x : Thread) (i : Nat) : (s.setThread t x).server i = s.server i := rfl
@[simp] theorem State.setThread_home (s : State) (t : Nat) (x : Thread) (i : Nat) : (s.setThread t x).home i = s.home i := rfl

@[simp] theorem State.setCore_thread (s : State) (c : Nat) (x : Core) (i : Nat) : (s.setCore c x).thread i = s.thread i := rfl
@[simp] theorem State.setCore_core_same (s : State) (c : Nat) (x : Core) : (s.setCore c x).core c = x := Tab.get_put_same _ _ _ _
theorem State.setCore_core_other (s : State) (c : Nat) (x : Core) {i : Nat} (n : i ≠ c) : (s.setCore c x).core i = s.core i :=
  Tab.get_put_other _ _ _ n
@[simp] theorem State.setCore_setCore (s : State) (c : Nat) (x : Core) (y : Core) : (s.setCore c x).setCore c y = s.setCore c y := by
  simp only [State.setCore, Tab.put_put]
@[simp] theorem State.setCore_tile (s : State) (c : Nat) (x : Core) (i : Nat) : (s.setCore c x).tile i = s.tile i := rfl
@[simp] theorem State.setCore_cluster (s : State) (c : Nat) (x : Core) (i : Nat) : (s.setCore c x).cluster i = s.cluster i := rfl
@[simp] theorem State.setCore_server (s : State) (c : Nat) (x : Core) (i : Nat) : (s.setCore c x).server i = s.server i := rfl
@[simp] theorem State.setCore_home (s : State) (c : Nat) (x : Core) (i : Nat) : (s.setCore c x).home i = s.home i := rfl

@[simp] theorem State.setTile_thread (s : State) (k : Nat) (x : Tile) (i : Nat) : (s.setTile k x).thread i = s.thread i := rfl
@[simp] theorem State.setTile_core (s : State) (k : Nat) (x : Tile) (i : Nat) : (s.setTile k x).core i = s.core i := rfl
@[simp] theorem State.setTile_tile_same (s : State) (k : Nat) (x : Tile) : (s.setTile k x).tile k = x := Tab.get_put_same _ _ _ _
theorem State.setTile_tile_other (s : State) (k : Nat) (x : Tile) {i : Nat} (n : i ≠ k) : (s.setTile k x).tile i = s.tile i :=
  Tab.get_put_other _ _ _ n
@[simp] theorem State.setTile_setTile (s : State) (k : Nat) (x : Tile) (y : Tile) : (s.setTile k x).setTile k y = s.setTile k y := by
  simp only [State.setTile, Tab.put_put]
@[simp] theorem State.setTile_cluster (s : State) (k : Nat) (x : Tile) (i : Nat) : (s.setTile k x).cluster i = s.cluster i := rfl
@[simp] theorem State.setTile_server (s : State) (k : Nat) (x : Tile) (i : Nat) : (s.setTile k x).server i = s.server i := rfl
@[simp] theorem State.setTile_home (s : State) (k : Nat) (x : Tile) (i : Nat) : (s.setTile k x).home i = s.home i := rfl

@[simp] theorem State.setCluster_thread (s : State) (c : Nat) (x : Cluster) (i : Nat) : (s.setCluster c x).thread i = s.thread i := rfl
@[simp] theorem State.setCluster_core (s : State) (c : Nat) (x : Cluster) (i : Nat) : (s.setCluster c x).core i = s.core i := rfl
@[simp] theorem State.setCluster_tile (s : State) (c : Nat) (x : Cluster) (i : Nat) : (s.setCluster c x).tile i = s.tile i := rfl
@[simp] theorem State.setCluster_cluster_same (s : State) (c : Nat) (x : Cluster) : (s.setCluster c x).cluster c = x := Tab.get_put_same _ _ _ _
theorem State.setCluster_cluster_other (s : State) (c : Nat) (x : Cluster) {i : Nat} (n : i ≠ c) : (s.setCluster c x).cluster i = s.cluster i :=
  Tab.get_put_other _ _ _ n
@[simp] theorem State.setCluster_setCluster (s : State) (c : Nat) (x : Cluster) (y : Cluster) : (s.setCluster c x).setCluster c y = s.setCluster c y := by
  simp only [State.setCluster, Tab.put_put]
@[simp] theorem State.setCluster_server (s : State) (c : Nat) (x : Cluster) (i : Nat) : (s.setCluster c x).server i = s.server i := rfl
@[simp] theorem State.setCluster_home (s : State) (c : Nat) (x : Cluster) (i : Nat) : (s.setCluster c x).home i = s.home i := rfl

@[simp] theorem State.setServer_thread (s : State) (k : Nat) (x : Server) (i : Nat) : (s.setServer k x).thread i = s.thread i := rfl
@[simp] theorem State.setServer_core (s : State) (k : Nat) (x : Server) (i : Nat) : (s.setServer k x).core i = s.core i := rfl
@[simp] theorem State.setServer_tile (s : State) (k : Nat) (x : Server) (i : Nat) : (s.setServer k x).tile i = s.tile i := rfl
@[simp] theorem State.setServer_cluster (s : State) (k : Nat) (x : Server) (i : Nat) : (s.setServer k x).cluster i = s.cluster i := rfl
@[simp] theorem State.setServer_server_same (s : State) (k : Nat) (x : Server) : (s.setServer k x).server k = x := Tab.get_put_same _ _ _ _
theorem State.setServer_server_other (s : State) (k : Nat) (x : Server) {i : Nat} (n : i ≠ k) : (s.setServer k x).server i = s.server i :=
  Tab.get_put_other _ _ _ n
@[simp] theorem State.setServer_setServer (s : State) (k : Nat) (x : Server) (y : Server) : (s.setServer k x).setServer k y = s.setServer k y := by
  simp only [State.setServer, Tab.put_put]
@[simp] theorem State.setServer_home (s : State) (k : Nat) (x : Server) (i : Nat) : (s.setServer k x).home i = s.home i := rfl

@[simp] theorem State.setHome_thread (s : State) (h : Nat) (x : Home) (i : Nat) : (s.setHome h x).thread i = s.thread i := rfl
@[simp] theorem State.setHome_core (s : State) (h : Nat) (x : Home) (i : Nat) : (s.setHome h x).core i = s.core i := rfl
@[simp] theorem State.setHome_tile (s : State) (h : Nat) (x : Home) (i : Nat) : (s.setHome h x).tile i = s.tile i := rfl
@[simp] theorem State.setHome_cluster (s : State) (h : Nat) (x : Home) (i : Nat) : (s.setHome h x).cluster i = s.cluster i := rfl
@[simp] theorem State.setHome_server (s : State) (h : Nat) (x : Home) (i : Nat) : (s.setHome h x).server i = s.server i := rfl
@[simp] theorem State.setHome_home_same (s : State) (h : Nat) (x : Home) : (s.setHome h x).home h = x := Tab.get_put_same _ _ _ _
theorem State.setHome_home_other (s : State) (h : Nat) (x : Home) {i : Nat} (n : i ≠ h) : (s.setHome h x).home i = s.home i :=
  Tab.get_put_other _ _ _ n
@[simp] theorem State.setHome_setHome (s : State) (h : Nat) (x : Home) (y : Home) : (s.setHome h x).setHome h y = s.setHome h y := by
  simp only [State.setHome, Tab.put_put]

@[simp] theorem State.post_thread (s : State) (is : List Happening) (i : Nat) : (s.post is).thread i = s.thread i := rfl
@[simp] theorem State.post_core (s : State) (is : List Happening) (i : Nat) : (s.post is).core i = s.core i := rfl
@[simp] theorem State.post_tile (s : State) (is : List Happening) (i : Nat) : (s.post is).tile i = s.tile i := rfl
@[simp] theorem State.post_cluster (s : State) (is : List Happening) (i : Nat) : (s.post is).cluster i = s.cluster i := rfl
@[simp] theorem State.post_server (s : State) (is : List Happening) (i : Nat) : (s.post is).server i = s.server i := rfl
@[simp] theorem State.post_home (s : State) (is : List Happening) (i : Nat) : (s.post is).home i = s.home i := rfl

@[simp] theorem State.setLaunch_thread (s : State) (l : Launch) (i : Nat) : (s.setLaunch l).thread i = s.thread i := rfl
@[simp] theorem State.setLaunch_core (s : State) (l : Launch) (i : Nat) : (s.setLaunch l).core i = s.core i := rfl
@[simp] theorem State.setLaunch_tile (s : State) (l : Launch) (i : Nat) : (s.setLaunch l).tile i = s.tile i := rfl
@[simp] theorem State.setLaunch_cluster (s : State) (l : Launch) (i : Nat) : (s.setLaunch l).cluster i = s.cluster i := rfl
@[simp] theorem State.setLaunch_server (s : State) (l : Launch) (i : Nat) : (s.setLaunch l).server i = s.server i := rfl
@[simp] theorem State.setLaunch_home (s : State) (l : Launch) (i : Nat) : (s.setLaunch l).home i = s.home i := rfl

/-! ## Counting and posting events -/

@[simp] theorem State.count_cur (s : State) (u n m : Nat) : (s.count u n m).cur = s.cur := by
  unfold State.count
  split <;> rfl

@[simp] theorem State.count_agenda (s : State) (u n m : Nat) : (s.count u n m).agenda = s.agenda := by
  unfold State.count
  split <;> rfl

@[simp] theorem State.count_tick (s : State) (u n m : Nat) : (s.count u n m).tick = s.tick := by
  unfold State.count
  split <;> rfl

@[simp] theorem State.count_fresh (s : State) (u n m : Nat) : (s.count u n m).fresh = s.fresh := by
  unfold State.count
  split <;> rfl

@[simp] theorem State.count_powered (s : State) (u n m : Nat) : (s.count u n m).powered = s.powered := by
  unfold State.count
  split <;> rfl

@[simp] theorem State.count_package (s : State) (u n m : Nat) : (s.count u n m).package = s.package := by
  unfold State.count
  split <;> rfl

@[simp] theorem State.count_gtime (s : State) (u n m : Nat) : (s.count u n m).gtime = s.gtime := by
  unfold State.count
  split <;> rfl

@[simp] theorem State.count_synced (s : State) (u n m : Nat) : (s.count u n m).synced = s.synced := by
  unfold State.count
  split <;> rfl

@[simp] theorem State.count_mem (s : State) (u n m : Nat) : (s.count u n m).mem = s.mem := by
  unfold State.count
  split <;> rfl

@[simp] theorem State.count_threads (s : State) (u n m : Nat) : (s.count u n m).threads = s.threads := by
  unfold State.count
  split <;> rfl

@[simp] theorem State.count_cores (s : State) (u n m : Nat) : (s.count u n m).cores = s.cores := by
  unfold State.count
  split <;> rfl

@[simp] theorem State.count_tiles (s : State) (u n m : Nat) : (s.count u n m).tiles = s.tiles := by
  unfold State.count
  split <;> rfl

@[simp] theorem State.count_servers (s : State) (u n m : Nat) : (s.count u n m).servers = s.servers := by
  unfold State.count
  split <;> rfl

@[simp] theorem State.count_homes (s : State) (u n m : Nat) : (s.count u n m).homes = s.homes := by
  unfold State.count
  split <;> rfl

@[simp] theorem State.count_pagers (s : State) (u n m : Nat) : (s.count u n m).pagers = s.pagers := by
  unfold State.count
  split <;> rfl

@[simp] theorem State.count_stthm (s : State) (u n m : Nat) : (s.count u n m).stthm = s.stthm := by
  unfold State.count
  split <;> rfl

@[simp] theorem State.count_phases (s : State) (u n m : Nat) : (s.count u n m).phases = s.phases := by
  unfold State.count
  split <;> rfl

@[simp] theorem State.count_sched (s : State) (u n m : Nat) : (s.count u n m).sched = s.sched := by
  unfold State.count
  split <;> rfl

@[simp] theorem State.count_sealed (s : State) (u n m : Nat) : (s.count u n m).sealed = s.sealed := by
  unfold State.count
  split <;> rfl

@[simp] theorem State.count_cells (s : State) (u n m : Nat) : (s.count u n m).cells = s.cells := by
  unfold State.count
  split <;> rfl

@[simp] theorem State.count_strong (s : State) (u n m : Nat) : (s.count u n m).strong = s.strong := by
  unfold State.count
  split <;> rfl

@[simp] theorem State.count_lines (s : State) (u n m : Nat) : (s.count u n m).lines = s.lines := by
  unfold State.count
  split <;> rfl

@[simp] theorem State.count_decoded (s : State) (u n m : Nat) : (s.count u n m).decoded = s.decoded := by
  unfold State.count
  split <;> rfl

@[simp] theorem State.count_views (s : State) (u n m : Nat) : (s.count u n m).views = s.views := by
  unfold State.count
  split <;> rfl

@[simp] theorem State.count_hot (s : State) (u n m : Nat) : (s.count u n m).hot = s.hot := by
  unfold State.count
  split <;> rfl

@[simp] theorem State.count_hotctl (s : State) (u n m : Nat) : (s.count u n m).hotctl = s.hotctl := by
  unfold State.count
  split <;> rfl

@[simp] theorem State.count_pgsub (s : State) (u n m : Nat) : (s.count u n m).pgsub = s.pgsub := by
  unfold State.count
  split <;> rfl

@[simp] theorem State.count_touched (s : State) (u n m : Nat) : (s.count u n m).touched = s.touched := by
  unfold State.count
  split <;> rfl

@[simp] theorem State.count_homed (s : State) (u n m : Nat) : (s.count u n m).homed = s.homed := by
  unfold State.count
  split <;> rfl

@[simp] theorem State.count_wlen (s : State) (u n m : Nat) : (s.count u n m).wlen = s.wlen := by
  unfold State.count
  split <;> rfl

@[simp] theorem State.count_ranks (s : State) (u n m : Nat) : (s.count u n m).ranks = s.ranks := by
  unfold State.count
  split <;> rfl

@[simp] theorem State.count_poison (s : State) (u n m : Nat) : (s.count u n m).poison = s.poison := by
  unfold State.count
  split <;> rfl

@[simp] theorem State.count_net (s : State) (u n m : Nat) : (s.count u n m).net = s.net := by
  unfold State.count
  split <;> rfl

@[simp] theorem State.count_host (s : State) (u n m : Nat) : (s.count u n m).host = s.host := by
  unfold State.count
  split <;> rfl

@[simp] theorem State.count_fw (s : State) (u n m : Nat) : (s.count u n m).fw = s.fw := by
  unfold State.count
  split <;> rfl

@[simp] theorem State.postEvent_cur (s : State) (c kind cl code count unit : Nat) (a : Word) :
    (s.postEvent c kind cl code count unit a).cur = s.cur := by
  unfold State.postEvent
  dsimp only
  split <;> rfl

@[simp] theorem State.postEvent_agenda (s : State) (c kind cl code count unit : Nat) (a : Word) :
    (s.postEvent c kind cl code count unit a).agenda = s.agenda := by
  unfold State.postEvent
  dsimp only
  split <;> rfl

@[simp] theorem State.postEvent_tick (s : State) (c kind cl code count unit : Nat) (a : Word) :
    (s.postEvent c kind cl code count unit a).tick = s.tick := by
  unfold State.postEvent
  dsimp only
  split <;> rfl

@[simp] theorem State.postEvent_fresh (s : State) (c kind cl code count unit : Nat) (a : Word) :
    (s.postEvent c kind cl code count unit a).fresh = s.fresh := by
  unfold State.postEvent
  dsimp only
  split <;> rfl

@[simp] theorem State.postEvent_powered (s : State) (c kind cl code count unit : Nat) (a : Word) :
    (s.postEvent c kind cl code count unit a).powered = s.powered := by
  unfold State.postEvent
  dsimp only
  split <;> rfl

@[simp] theorem State.postEvent_package (s : State) (c kind cl code count unit : Nat) (a : Word) :
    (s.postEvent c kind cl code count unit a).package = s.package := by
  unfold State.postEvent
  dsimp only
  split <;> rfl

@[simp] theorem State.postEvent_gtime (s : State) (c kind cl code count unit : Nat) (a : Word) :
    (s.postEvent c kind cl code count unit a).gtime = s.gtime := by
  unfold State.postEvent
  dsimp only
  split <;> rfl

@[simp] theorem State.postEvent_synced (s : State) (c kind cl code count unit : Nat) (a : Word) :
    (s.postEvent c kind cl code count unit a).synced = s.synced := by
  unfold State.postEvent
  dsimp only
  split <;> rfl

@[simp] theorem State.postEvent_mem (s : State) (c kind cl code count unit : Nat) (a : Word) :
    (s.postEvent c kind cl code count unit a).mem = s.mem := by
  unfold State.postEvent
  dsimp only
  split <;> rfl

@[simp] theorem State.postEvent_threads (s : State) (c kind cl code count unit : Nat) (a : Word) :
    (s.postEvent c kind cl code count unit a).threads = s.threads := by
  unfold State.postEvent
  dsimp only
  split <;> rfl

@[simp] theorem State.postEvent_cores (s : State) (c kind cl code count unit : Nat) (a : Word) :
    (s.postEvent c kind cl code count unit a).cores = s.cores := by
  unfold State.postEvent
  dsimp only
  split <;> rfl

@[simp] theorem State.postEvent_tiles (s : State) (c kind cl code count unit : Nat) (a : Word) :
    (s.postEvent c kind cl code count unit a).tiles = s.tiles := by
  unfold State.postEvent
  dsimp only
  split <;> rfl

@[simp] theorem State.postEvent_servers (s : State) (c kind cl code count unit : Nat) (a : Word) :
    (s.postEvent c kind cl code count unit a).servers = s.servers := by
  unfold State.postEvent
  dsimp only
  split <;> rfl

@[simp] theorem State.postEvent_homes (s : State) (c kind cl code count unit : Nat) (a : Word) :
    (s.postEvent c kind cl code count unit a).homes = s.homes := by
  unfold State.postEvent
  dsimp only
  split <;> rfl

@[simp] theorem State.postEvent_pagers (s : State) (c kind cl code count unit : Nat) (a : Word) :
    (s.postEvent c kind cl code count unit a).pagers = s.pagers := by
  unfold State.postEvent
  dsimp only
  split <;> rfl

@[simp] theorem State.postEvent_stthm (s : State) (c kind cl code count unit : Nat) (a : Word) :
    (s.postEvent c kind cl code count unit a).stthm = s.stthm := by
  unfold State.postEvent
  dsimp only
  split <;> rfl

@[simp] theorem State.postEvent_phases (s : State) (c kind cl code count unit : Nat) (a : Word) :
    (s.postEvent c kind cl code count unit a).phases = s.phases := by
  unfold State.postEvent
  dsimp only
  split <;> rfl

@[simp] theorem State.postEvent_sched (s : State) (c kind cl code count unit : Nat) (a : Word) :
    (s.postEvent c kind cl code count unit a).sched = s.sched := by
  unfold State.postEvent
  dsimp only
  split <;> rfl

@[simp] theorem State.postEvent_sealed (s : State) (c kind cl code count unit : Nat) (a : Word) :
    (s.postEvent c kind cl code count unit a).sealed = s.sealed := by
  unfold State.postEvent
  dsimp only
  split <;> rfl

@[simp] theorem State.postEvent_cells (s : State) (c kind cl code count unit : Nat) (a : Word) :
    (s.postEvent c kind cl code count unit a).cells = s.cells := by
  unfold State.postEvent
  dsimp only
  split <;> rfl

@[simp] theorem State.postEvent_strong (s : State) (c kind cl code count unit : Nat) (a : Word) :
    (s.postEvent c kind cl code count unit a).strong = s.strong := by
  unfold State.postEvent
  dsimp only
  split <;> rfl

@[simp] theorem State.postEvent_lines (s : State) (c kind cl code count unit : Nat) (a : Word) :
    (s.postEvent c kind cl code count unit a).lines = s.lines := by
  unfold State.postEvent
  dsimp only
  split <;> rfl

@[simp] theorem State.postEvent_decoded (s : State) (c kind cl code count unit : Nat) (a : Word) :
    (s.postEvent c kind cl code count unit a).decoded = s.decoded := by
  unfold State.postEvent
  dsimp only
  split <;> rfl

@[simp] theorem State.postEvent_views (s : State) (c kind cl code count unit : Nat) (a : Word) :
    (s.postEvent c kind cl code count unit a).views = s.views := by
  unfold State.postEvent
  dsimp only
  split <;> rfl

@[simp] theorem State.postEvent_hot (s : State) (c kind cl code count unit : Nat) (a : Word) :
    (s.postEvent c kind cl code count unit a).hot = s.hot := by
  unfold State.postEvent
  dsimp only
  split <;> rfl

@[simp] theorem State.postEvent_hotctl (s : State) (c kind cl code count unit : Nat) (a : Word) :
    (s.postEvent c kind cl code count unit a).hotctl = s.hotctl := by
  unfold State.postEvent
  dsimp only
  split <;> rfl

@[simp] theorem State.postEvent_pgsub (s : State) (c kind cl code count unit : Nat) (a : Word) :
    (s.postEvent c kind cl code count unit a).pgsub = s.pgsub := by
  unfold State.postEvent
  dsimp only
  split <;> rfl

@[simp] theorem State.postEvent_touched (s : State) (c kind cl code count unit : Nat) (a : Word) :
    (s.postEvent c kind cl code count unit a).touched = s.touched := by
  unfold State.postEvent
  dsimp only
  split <;> rfl

@[simp] theorem State.postEvent_homed (s : State) (c kind cl code count unit : Nat) (a : Word) :
    (s.postEvent c kind cl code count unit a).homed = s.homed := by
  unfold State.postEvent
  dsimp only
  split <;> rfl

@[simp] theorem State.postEvent_wlen (s : State) (c kind cl code count unit : Nat) (a : Word) :
    (s.postEvent c kind cl code count unit a).wlen = s.wlen := by
  unfold State.postEvent
  dsimp only
  split <;> rfl

@[simp] theorem State.postEvent_ranks (s : State) (c kind cl code count unit : Nat) (a : Word) :
    (s.postEvent c kind cl code count unit a).ranks = s.ranks := by
  unfold State.postEvent
  dsimp only
  split <;> rfl

@[simp] theorem State.postEvent_poison (s : State) (c kind cl code count unit : Nat) (a : Word) :
    (s.postEvent c kind cl code count unit a).poison = s.poison := by
  unfold State.postEvent
  dsimp only
  split <;> rfl

@[simp] theorem State.postEvent_net (s : State) (c kind cl code count unit : Nat) (a : Word) :
    (s.postEvent c kind cl code count unit a).net = s.net := by
  unfold State.postEvent
  dsimp only
  split <;> rfl

@[simp] theorem State.postEvent_host (s : State) (c kind cl code count unit : Nat) (a : Word) :
    (s.postEvent c kind cl code count unit a).host = s.host := by
  unfold State.postEvent
  dsimp only
  split <;> rfl

@[simp] theorem State.postEvent_fw (s : State) (c kind cl code count unit : Nat) (a : Word) :
    (s.postEvent c kind cl code count unit a).fw = s.fw := by
  unfold State.postEvent
  dsimp only
  split <;> rfl

@[simp] theorem State.count_thread (s : State) (u n m i : Nat) : (s.count u n m).thread i = s.thread i := by
  simp only [State.thread, State.count_threads]
@[simp] theorem State.postEvent_thread (s : State) (c kind cl code count unit : Nat) (a : Word) (i : Nat) :
    (s.postEvent c kind cl code count unit a).thread i = s.thread i := by
  simp only [State.thread, State.postEvent_threads]
@[simp] theorem State.count_core (s : State) (u n m i : Nat) : (s.count u n m).core i = s.core i := by
  simp only [State.core, State.count_cores]
@[simp] theorem State.postEvent_core (s : State) (c kind cl code count unit : Nat) (a : Word) (i : Nat) :
    (s.postEvent c kind cl code count unit a).core i = s.core i := by
  simp only [State.core, State.postEvent_cores]
@[simp] theorem State.count_tile (s : State) (u n m i : Nat) : (s.count u n m).tile i = s.tile i := by
  simp only [State.tile, State.count_tiles]
@[simp] theorem State.postEvent_tile (s : State) (c kind cl code count unit : Nat) (a : Word) (i : Nat) :
    (s.postEvent c kind cl code count unit a).tile i = s.tile i := by
  simp only [State.tile, State.postEvent_tiles]
@[simp] theorem State.count_server (s : State) (u n m i : Nat) : (s.count u n m).server i = s.server i := by
  simp only [State.server, State.count_servers]
@[simp] theorem State.postEvent_server (s : State) (c kind cl code count unit : Nat) (a : Word) (i : Nat) :
    (s.postEvent c kind cl code count unit a).server i = s.server i := by
  simp only [State.server, State.postEvent_servers]
@[simp] theorem State.count_home (s : State) (u n m i : Nat) : (s.count u n m).home i = s.home i := by
  simp only [State.home, State.count_homes]
@[simp] theorem State.postEvent_home (s : State) (c kind cl code count unit : Nat) (a : Word) (i : Nat) :
    (s.postEvent c kind cl code count unit a).home i = s.home i := by
  simp only [State.home, State.postEvent_homes]

/-- A thread replaced and an event counted commute. -/
theorem State.setThread_count (s : State) (t : Nat) (x : Thread) (u n m : Nat) : (s.setThread t x).count u n m = (s.count u n m).setThread t x := by
  unfold State.count
  split <;> rfl

/-! ## Updates of a thread -/

@[simp] theorem Thread.setReg_pc (t : Thread) (i : BitVec 4) (r : Reg) : (t.setReg i r).pc = t.pc := rfl
@[simp] theorem Thread.setReg_trapm (t : Thread) (i : BitVec 4) (r : Reg) : (t.setReg i r).trapm = t.trapm := rfl
@[simp] theorem Thread.setReg_supv (t : Thread) (i : BitVec 4) (r : Reg) : (t.setReg i r).supv = t.supv := rfl
@[simp] theorem Thread.setReg_remote (t : Thread) (i : BitVec 4) (r : Reg) : (t.setReg i r).remote = t.remote := rfl
@[simp] theorem Thread.setReg_dbg (t : Thread) (i : BitVec 4) (r : Reg) : (t.setReg i r).dbg = t.dbg := rfl
@[simp] theorem Thread.setReg_epoch (t : Thread) (i : BitVec 4) (r : Reg) : (t.setReg i r).epoch = t.epoch := rfl
@[simp] theorem Thread.setReg_pend (t : Thread) (i : BitVec 4) (r : Reg) : (t.setReg i r).pend = t.pend := rfl
@[simp] theorem Thread.setReg_win (t : Thread) (i : BitVec 4) (r : Reg) : (t.setReg i r).win = t.win := rfl
@[simp] theorem Thread.setReg_ext (t : Thread) (i : BitVec 4) (r : Reg) : (t.setReg i r).ext = t.ext := rfl
@[simp] theorem Thread.setReg_dep (t : Thread) (i : BitVec 4) (r : Reg) : (t.setReg i r).dep = t.dep := rfl
@[simp] theorem Thread.setReg_vec (t : Thread) (i : BitVec 4) (r : Reg) : (t.setReg i r).vec = t.vec := rfl
@[simp] theorem Thread.setReg_msk (t : Thread) (i : BitVec 4) (r : Reg) : (t.setReg i r).msk = t.msk := rfl
@[simp] theorem Thread.setReg_fpctl (t : Thread) (i : BitVec 4) (r : Reg) : (t.setReg i r).fpctl = t.fpctl := rfl
@[simp] theorem Thread.setReg_mon (t : Thread) (i : BitVec 4) (r : Reg) : (t.setReg i r).mon = t.mon := rfl
@[simp] theorem Thread.setReg_str (t : Thread) (i : BitVec 4) (r : Reg) : (t.setReg i r).str = t.str := rfl
@[simp] theorem Thread.setReg_tcause (t : Thread) (i : BitVec 4) (r : Reg) : (t.setReg i r).tcause = t.tcause := rfl
@[simp] theorem Thread.setReg_epc (t : Thread) (i : BitVec 4) (r : Reg) : (t.setReg i r).epc = t.epc := rfl
@[simp] theorem Thread.setReg_tval (t : Thread) (i : BitVec 4) (r : Reg) : (t.setReg i r).tval = t.tval := rfl
@[simp] theorem Thread.setReg_tvec (t : Thread) (i : BitVec 4) (r : Reg) : (t.setReg i r).tvec = t.tvec := rfl
@[simp] theorem Thread.setReg_rcto (t : Thread) (i : BitVec 4) (r : Reg) : (t.setReg i r).rcto = t.rcto := rfl
@[simp] theorem Thread.setReg_rcretry (t : Thread) (i : BitVec 4) (r : Reg) : (t.setReg i r).rcretry = t.rcretry := rfl
@[simp] theorem Thread.setReg_dbgdrop (t : Thread) (i : BitVec 4) (r : Reg) : (t.setReg i r).dbgdrop = t.dbgdrop := rfl
@[simp] theorem Thread.setReg_sticky (t : Thread) (i : BitVec 4) (r : Reg) : (t.setReg i r).sticky = t.sticky := rfl
@[simp] theorem Thread.setReg_status (t : Thread) (i : BitVec 4) (r : Reg) : (t.setReg i r).status = t.status := rfl
@[simp] theorem Thread.setReg_pages (t : Thread) (i : BitVec 4) (r : Reg) : (t.setReg i r).pages = t.pages := rfl
@[simp] theorem Thread.setReg_work (t : Thread) (i : BitVec 4) (r : Reg) : (t.setReg i r).work = t.work := rfl
@[simp] theorem Thread.setReg_callee (t : Thread) (i : BitVec 4) (r : Reg) : (t.setReg i r).callee = t.callee := rfl
@[simp] theorem Thread.setReg_callId (t : Thread) (i : BitVec 4) (r : Reg) : (t.setReg i r).callId = t.callId := rfl
@[simp] theorem Thread.setReg_call (t : Thread) (i : BitVec 4) (r : Reg) : (t.setReg i r).call = t.call := rfl
@[simp] theorem Thread.setReg_acks (t : Thread) (i : BitVec 4) (r : Reg) : (t.setReg i r).acks = t.acks := rfl
@[simp] theorem Thread.setReg_mail (t : Thread) (i : BitVec 4) (r : Reg) : (t.setReg i r).mail = t.mail := rfl
@[simp] theorem Thread.setReg_isSealed (t : Thread) (i : BitVec 4) (r : Reg) : (t.setReg i r).isSealed = t.isSealed := rfl
@[simp] theorem Thread.setReg_late (t : Thread) (i : BitVec 4) (r : Reg) : (t.setReg i r).late = t.late := rfl
@[simp] theorem Thread.setReg_bias (t : Thread) (i : BitVec 4) (r : Reg) : (t.setReg i r).bias = t.bias := rfl
@[simp] theorem Thread.setReg_lease (t : Thread) (i : BitVec 4) (r : Reg) : (t.setReg i r).lease = t.lease := rfl
@[simp] theorem Thread.setReg_causes (t : Thread) (i : BitVec 4) (r : Reg) : (t.setReg i r).causes = t.causes := rfl
@[simp] theorem Thread.setReg_window (t : Thread) (i : BitVec 4) (r : Reg) : (t.setReg i r).window = t.window := rfl
@[simp] theorem Thread.setReg_reissue (t : Thread) (i : BitVec 4) (r : Reg) : (t.setReg i r).reissue = t.reissue := rfl
@[simp] theorem Thread.setReg_taken (t : Thread) (i : BitVec 4) (r : Reg) : (t.setReg i r).taken = t.taken := rfl
@[simp] theorem Thread.setReg_finished (t : Thread) (i : BitVec 4) (r : Reg) : (t.setReg i r).finished = t.finished := rfl
@[simp] theorem Thread.setReg_expired (t : Thread) (i : BitVec 4) (r : Reg) : (t.setReg i r).expired = t.expired := rfl
@[simp] theorem Thread.setReg_answered (t : Thread) (i : BitVec 4) (r : Reg) : (t.setReg i r).answered = t.answered := rfl
@[simp] theorem Thread.setReg_since (t : Thread) (i : BitVec 4) (r : Reg) : (t.setReg i r).since = t.since := rfl
@[simp] theorem Thread.setReg_begun (t : Thread) (i : BitVec 4) (r : Reg) : (t.setReg i r).begun = t.begun := rfl
@[simp] theorem Thread.setReg_nreds (t : Thread) (i : BitVec 4) (r : Reg) : (t.setReg i r).nreds = t.nreds := rfl
@[simp] theorem Thread.setReg_sync (t : Thread) (i : BitVec 4) (r : Reg) : (t.setReg i r).sync = t.sync := rfl
@[simp] theorem Thread.setReg_relDone (t : Thread) (i : BitVec 4) (r : Reg) : (t.setReg i r).relDone = t.relDone := rfl
@[simp] theorem Thread.setReg_record (t : Thread) (i : BitVec 4) (r : Reg) : (t.setReg i r).record = t.record := rfl
@[simp] theorem Thread.setReg_inlines (t : Thread) (i : BitVec 4) (r : Reg) : (t.setReg i r).inlines = t.inlines := rfl

@[simp] theorem Thread.setExt_regs (t : Thread) (i : BitVec 3) (r : Reg) : (t.setExt i r).regs = t.regs := rfl
@[simp] theorem Thread.setExt_pc (t : Thread) (i : BitVec 3) (r : Reg) : (t.setExt i r).pc = t.pc := rfl
@[simp] theorem Thread.setExt_trapm (t : Thread) (i : BitVec 3) (r : Reg) : (t.setExt i r).trapm = t.trapm := rfl
@[simp] theorem Thread.setExt_supv (t : Thread) (i : BitVec 3) (r : Reg) : (t.setExt i r).supv = t.supv := rfl
@[simp] theorem Thread.setExt_remote (t : Thread) (i : BitVec 3) (r : Reg) : (t.setExt i r).remote = t.remote := rfl
@[simp] theorem Thread.setExt_dbg (t : Thread) (i : BitVec 3) (r : Reg) : (t.setExt i r).dbg = t.dbg := rfl
@[simp] theorem Thread.setExt_epoch (t : Thread) (i : BitVec 3) (r : Reg) : (t.setExt i r).epoch = t.epoch := rfl
@[simp] theorem Thread.setExt_pend (t : Thread) (i : BitVec 3) (r : Reg) : (t.setExt i r).pend = t.pend := rfl
@[simp] theorem Thread.setExt_win (t : Thread) (i : BitVec 3) (r : Reg) : (t.setExt i r).win = t.win := rfl
@[simp] theorem Thread.setExt_dep (t : Thread) (i : BitVec 3) (r : Reg) : (t.setExt i r).dep = t.dep := rfl
@[simp] theorem Thread.setExt_vec (t : Thread) (i : BitVec 3) (r : Reg) : (t.setExt i r).vec = t.vec := rfl
@[simp] theorem Thread.setExt_msk (t : Thread) (i : BitVec 3) (r : Reg) : (t.setExt i r).msk = t.msk := rfl
@[simp] theorem Thread.setExt_fpctl (t : Thread) (i : BitVec 3) (r : Reg) : (t.setExt i r).fpctl = t.fpctl := rfl
@[simp] theorem Thread.setExt_mon (t : Thread) (i : BitVec 3) (r : Reg) : (t.setExt i r).mon = t.mon := rfl
@[simp] theorem Thread.setExt_str (t : Thread) (i : BitVec 3) (r : Reg) : (t.setExt i r).str = t.str := rfl
@[simp] theorem Thread.setExt_tcause (t : Thread) (i : BitVec 3) (r : Reg) : (t.setExt i r).tcause = t.tcause := rfl
@[simp] theorem Thread.setExt_epc (t : Thread) (i : BitVec 3) (r : Reg) : (t.setExt i r).epc = t.epc := rfl
@[simp] theorem Thread.setExt_tval (t : Thread) (i : BitVec 3) (r : Reg) : (t.setExt i r).tval = t.tval := rfl
@[simp] theorem Thread.setExt_tvec (t : Thread) (i : BitVec 3) (r : Reg) : (t.setExt i r).tvec = t.tvec := rfl
@[simp] theorem Thread.setExt_rcto (t : Thread) (i : BitVec 3) (r : Reg) : (t.setExt i r).rcto = t.rcto := rfl
@[simp] theorem Thread.setExt_rcretry (t : Thread) (i : BitVec 3) (r : Reg) : (t.setExt i r).rcretry = t.rcretry := rfl
@[simp] theorem Thread.setExt_dbgdrop (t : Thread) (i : BitVec 3) (r : Reg) : (t.setExt i r).dbgdrop = t.dbgdrop := rfl
@[simp] theorem Thread.setExt_sticky (t : Thread) (i : BitVec 3) (r : Reg) : (t.setExt i r).sticky = t.sticky := rfl
@[simp] theorem Thread.setExt_status (t : Thread) (i : BitVec 3) (r : Reg) : (t.setExt i r).status = t.status := rfl
@[simp] theorem Thread.setExt_pages (t : Thread) (i : BitVec 3) (r : Reg) : (t.setExt i r).pages = t.pages := rfl
@[simp] theorem Thread.setExt_work (t : Thread) (i : BitVec 3) (r : Reg) : (t.setExt i r).work = t.work := rfl
@[simp] theorem Thread.setExt_callee (t : Thread) (i : BitVec 3) (r : Reg) : (t.setExt i r).callee = t.callee := rfl
@[simp] theorem Thread.setExt_callId (t : Thread) (i : BitVec 3) (r : Reg) : (t.setExt i r).callId = t.callId := rfl
@[simp] theorem Thread.setExt_call (t : Thread) (i : BitVec 3) (r : Reg) : (t.setExt i r).call = t.call := rfl
@[simp] theorem Thread.setExt_acks (t : Thread) (i : BitVec 3) (r : Reg) : (t.setExt i r).acks = t.acks := rfl
@[simp] theorem Thread.setExt_mail (t : Thread) (i : BitVec 3) (r : Reg) : (t.setExt i r).mail = t.mail := rfl
@[simp] theorem Thread.setExt_isSealed (t : Thread) (i : BitVec 3) (r : Reg) : (t.setExt i r).isSealed = t.isSealed := rfl
@[simp] theorem Thread.setExt_late (t : Thread) (i : BitVec 3) (r : Reg) : (t.setExt i r).late = t.late := rfl
@[simp] theorem Thread.setExt_bias (t : Thread) (i : BitVec 3) (r : Reg) : (t.setExt i r).bias = t.bias := rfl
@[simp] theorem Thread.setExt_lease (t : Thread) (i : BitVec 3) (r : Reg) : (t.setExt i r).lease = t.lease := rfl
@[simp] theorem Thread.setExt_causes (t : Thread) (i : BitVec 3) (r : Reg) : (t.setExt i r).causes = t.causes := rfl
@[simp] theorem Thread.setExt_window (t : Thread) (i : BitVec 3) (r : Reg) : (t.setExt i r).window = t.window := rfl
@[simp] theorem Thread.setExt_reissue (t : Thread) (i : BitVec 3) (r : Reg) : (t.setExt i r).reissue = t.reissue := rfl
@[simp] theorem Thread.setExt_taken (t : Thread) (i : BitVec 3) (r : Reg) : (t.setExt i r).taken = t.taken := rfl
@[simp] theorem Thread.setExt_finished (t : Thread) (i : BitVec 3) (r : Reg) : (t.setExt i r).finished = t.finished := rfl
@[simp] theorem Thread.setExt_expired (t : Thread) (i : BitVec 3) (r : Reg) : (t.setExt i r).expired = t.expired := rfl
@[simp] theorem Thread.setExt_answered (t : Thread) (i : BitVec 3) (r : Reg) : (t.setExt i r).answered = t.answered := rfl
@[simp] theorem Thread.setExt_since (t : Thread) (i : BitVec 3) (r : Reg) : (t.setExt i r).since = t.since := rfl
@[simp] theorem Thread.setExt_begun (t : Thread) (i : BitVec 3) (r : Reg) : (t.setExt i r).begun = t.begun := rfl
@[simp] theorem Thread.setExt_nreds (t : Thread) (i : BitVec 3) (r : Reg) : (t.setExt i r).nreds = t.nreds := rfl
@[simp] theorem Thread.setExt_sync (t : Thread) (i : BitVec 3) (r : Reg) : (t.setExt i r).sync = t.sync := rfl
@[simp] theorem Thread.setExt_relDone (t : Thread) (i : BitVec 3) (r : Reg) : (t.setExt i r).relDone = t.relDone := rfl
@[simp] theorem Thread.setExt_record (t : Thread) (i : BitVec 3) (r : Reg) : (t.setExt i r).record = t.record := rfl
@[simp] theorem Thread.setExt_inlines (t : Thread) (i : BitVec 3) (r : Reg) : (t.setExt i r).inlines = t.inlines := rfl

@[simp] theorem Thread.setWindow_regs (t : Thread) (i : BitVec 3) (w : BitVec 128) : (t.setWindow i w).regs = t.regs := rfl
@[simp] theorem Thread.setWindow_pc (t : Thread) (i : BitVec 3) (w : BitVec 128) : (t.setWindow i w).pc = t.pc := rfl
@[simp] theorem Thread.setWindow_trapm (t : Thread) (i : BitVec 3) (w : BitVec 128) : (t.setWindow i w).trapm = t.trapm := rfl
@[simp] theorem Thread.setWindow_supv (t : Thread) (i : BitVec 3) (w : BitVec 128) : (t.setWindow i w).supv = t.supv := rfl
@[simp] theorem Thread.setWindow_remote (t : Thread) (i : BitVec 3) (w : BitVec 128) : (t.setWindow i w).remote = t.remote := rfl
@[simp] theorem Thread.setWindow_dbg (t : Thread) (i : BitVec 3) (w : BitVec 128) : (t.setWindow i w).dbg = t.dbg := rfl
@[simp] theorem Thread.setWindow_epoch (t : Thread) (i : BitVec 3) (w : BitVec 128) : (t.setWindow i w).epoch = t.epoch := rfl
@[simp] theorem Thread.setWindow_pend (t : Thread) (i : BitVec 3) (w : BitVec 128) : (t.setWindow i w).pend = t.pend := rfl
@[simp] theorem Thread.setWindow_ext (t : Thread) (i : BitVec 3) (w : BitVec 128) : (t.setWindow i w).ext = t.ext := rfl
@[simp] theorem Thread.setWindow_dep (t : Thread) (i : BitVec 3) (w : BitVec 128) : (t.setWindow i w).dep = t.dep := rfl
@[simp] theorem Thread.setWindow_vec (t : Thread) (i : BitVec 3) (w : BitVec 128) : (t.setWindow i w).vec = t.vec := rfl
@[simp] theorem Thread.setWindow_msk (t : Thread) (i : BitVec 3) (w : BitVec 128) : (t.setWindow i w).msk = t.msk := rfl
@[simp] theorem Thread.setWindow_fpctl (t : Thread) (i : BitVec 3) (w : BitVec 128) : (t.setWindow i w).fpctl = t.fpctl := rfl
@[simp] theorem Thread.setWindow_mon (t : Thread) (i : BitVec 3) (w : BitVec 128) : (t.setWindow i w).mon = t.mon := rfl
@[simp] theorem Thread.setWindow_str (t : Thread) (i : BitVec 3) (w : BitVec 128) : (t.setWindow i w).str = t.str := rfl
@[simp] theorem Thread.setWindow_tcause (t : Thread) (i : BitVec 3) (w : BitVec 128) : (t.setWindow i w).tcause = t.tcause := rfl
@[simp] theorem Thread.setWindow_epc (t : Thread) (i : BitVec 3) (w : BitVec 128) : (t.setWindow i w).epc = t.epc := rfl
@[simp] theorem Thread.setWindow_tval (t : Thread) (i : BitVec 3) (w : BitVec 128) : (t.setWindow i w).tval = t.tval := rfl
@[simp] theorem Thread.setWindow_tvec (t : Thread) (i : BitVec 3) (w : BitVec 128) : (t.setWindow i w).tvec = t.tvec := rfl
@[simp] theorem Thread.setWindow_rcto (t : Thread) (i : BitVec 3) (w : BitVec 128) : (t.setWindow i w).rcto = t.rcto := rfl
@[simp] theorem Thread.setWindow_rcretry (t : Thread) (i : BitVec 3) (w : BitVec 128) : (t.setWindow i w).rcretry = t.rcretry := rfl
@[simp] theorem Thread.setWindow_dbgdrop (t : Thread) (i : BitVec 3) (w : BitVec 128) : (t.setWindow i w).dbgdrop = t.dbgdrop := rfl
@[simp] theorem Thread.setWindow_sticky (t : Thread) (i : BitVec 3) (w : BitVec 128) : (t.setWindow i w).sticky = t.sticky := rfl
@[simp] theorem Thread.setWindow_status (t : Thread) (i : BitVec 3) (w : BitVec 128) : (t.setWindow i w).status = t.status := rfl
@[simp] theorem Thread.setWindow_pages (t : Thread) (i : BitVec 3) (w : BitVec 128) : (t.setWindow i w).pages = t.pages := rfl
@[simp] theorem Thread.setWindow_work (t : Thread) (i : BitVec 3) (w : BitVec 128) : (t.setWindow i w).work = t.work := rfl
@[simp] theorem Thread.setWindow_callee (t : Thread) (i : BitVec 3) (w : BitVec 128) : (t.setWindow i w).callee = t.callee := rfl
@[simp] theorem Thread.setWindow_callId (t : Thread) (i : BitVec 3) (w : BitVec 128) : (t.setWindow i w).callId = t.callId := rfl
@[simp] theorem Thread.setWindow_call (t : Thread) (i : BitVec 3) (w : BitVec 128) : (t.setWindow i w).call = t.call := rfl
@[simp] theorem Thread.setWindow_acks (t : Thread) (i : BitVec 3) (w : BitVec 128) : (t.setWindow i w).acks = t.acks := rfl
@[simp] theorem Thread.setWindow_mail (t : Thread) (i : BitVec 3) (w : BitVec 128) : (t.setWindow i w).mail = t.mail := rfl
@[simp] theorem Thread.setWindow_isSealed (t : Thread) (i : BitVec 3) (w : BitVec 128) : (t.setWindow i w).isSealed = t.isSealed := rfl
@[simp] theorem Thread.setWindow_late (t : Thread) (i : BitVec 3) (w : BitVec 128) : (t.setWindow i w).late = t.late := rfl
@[simp] theorem Thread.setWindow_bias (t : Thread) (i : BitVec 3) (w : BitVec 128) : (t.setWindow i w).bias = t.bias := rfl
@[simp] theorem Thread.setWindow_lease (t : Thread) (i : BitVec 3) (w : BitVec 128) : (t.setWindow i w).lease = t.lease := rfl
@[simp] theorem Thread.setWindow_causes (t : Thread) (i : BitVec 3) (w : BitVec 128) : (t.setWindow i w).causes = t.causes := rfl
@[simp] theorem Thread.setWindow_window (t : Thread) (i : BitVec 3) (w : BitVec 128) : (t.setWindow i w).window = t.window := rfl
@[simp] theorem Thread.setWindow_reissue (t : Thread) (i : BitVec 3) (w : BitVec 128) : (t.setWindow i w).reissue = t.reissue := rfl
@[simp] theorem Thread.setWindow_taken (t : Thread) (i : BitVec 3) (w : BitVec 128) : (t.setWindow i w).taken = t.taken := rfl
@[simp] theorem Thread.setWindow_finished (t : Thread) (i : BitVec 3) (w : BitVec 128) : (t.setWindow i w).finished = t.finished := rfl
@[simp] theorem Thread.setWindow_expired (t : Thread) (i : BitVec 3) (w : BitVec 128) : (t.setWindow i w).expired = t.expired := rfl
@[simp] theorem Thread.setWindow_answered (t : Thread) (i : BitVec 3) (w : BitVec 128) : (t.setWindow i w).answered = t.answered := rfl
@[simp] theorem Thread.setWindow_since (t : Thread) (i : BitVec 3) (w : BitVec 128) : (t.setWindow i w).since = t.since := rfl
@[simp] theorem Thread.setWindow_begun (t : Thread) (i : BitVec 3) (w : BitVec 128) : (t.setWindow i w).begun = t.begun := rfl
@[simp] theorem Thread.setWindow_nreds (t : Thread) (i : BitVec 3) (w : BitVec 128) : (t.setWindow i w).nreds = t.nreds := rfl
@[simp] theorem Thread.setWindow_sync (t : Thread) (i : BitVec 3) (w : BitVec 128) : (t.setWindow i w).sync = t.sync := rfl
@[simp] theorem Thread.setWindow_relDone (t : Thread) (i : BitVec 3) (w : BitVec 128) : (t.setWindow i w).relDone = t.relDone := rfl
@[simp] theorem Thread.setWindow_record (t : Thread) (i : BitVec 3) (w : BitVec 128) : (t.setWindow i w).record = t.record := rfl
@[simp] theorem Thread.setWindow_inlines (t : Thread) (i : BitVec 3) (w : BitVec 128) : (t.setWindow i w).inlines = t.inlines := rfl

@[simp] theorem Thread.setVec_regs (t : Thread) (i : BitVec 3) (x : VecReg) : (t.setVec i x).regs = t.regs := rfl
@[simp] theorem Thread.setVec_pc (t : Thread) (i : BitVec 3) (x : VecReg) : (t.setVec i x).pc = t.pc := rfl
@[simp] theorem Thread.setVec_trapm (t : Thread) (i : BitVec 3) (x : VecReg) : (t.setVec i x).trapm = t.trapm := rfl
@[simp] theorem Thread.setVec_supv (t : Thread) (i : BitVec 3) (x : VecReg) : (t.setVec i x).supv = t.supv := rfl
@[simp] theorem Thread.setVec_remote (t : Thread) (i : BitVec 3) (x : VecReg) : (t.setVec i x).remote = t.remote := rfl
@[simp] theorem Thread.setVec_dbg (t : Thread) (i : BitVec 3) (x : VecReg) : (t.setVec i x).dbg = t.dbg := rfl
@[simp] theorem Thread.setVec_epoch (t : Thread) (i : BitVec 3) (x : VecReg) : (t.setVec i x).epoch = t.epoch := rfl
@[simp] theorem Thread.setVec_pend (t : Thread) (i : BitVec 3) (x : VecReg) : (t.setVec i x).pend = t.pend := rfl
@[simp] theorem Thread.setVec_win (t : Thread) (i : BitVec 3) (x : VecReg) : (t.setVec i x).win = t.win := rfl
@[simp] theorem Thread.setVec_ext (t : Thread) (i : BitVec 3) (x : VecReg) : (t.setVec i x).ext = t.ext := rfl
@[simp] theorem Thread.setVec_dep (t : Thread) (i : BitVec 3) (x : VecReg) : (t.setVec i x).dep = t.dep := rfl
@[simp] theorem Thread.setVec_msk (t : Thread) (i : BitVec 3) (x : VecReg) : (t.setVec i x).msk = t.msk := rfl
@[simp] theorem Thread.setVec_fpctl (t : Thread) (i : BitVec 3) (x : VecReg) : (t.setVec i x).fpctl = t.fpctl := rfl
@[simp] theorem Thread.setVec_mon (t : Thread) (i : BitVec 3) (x : VecReg) : (t.setVec i x).mon = t.mon := rfl
@[simp] theorem Thread.setVec_str (t : Thread) (i : BitVec 3) (x : VecReg) : (t.setVec i x).str = t.str := rfl
@[simp] theorem Thread.setVec_tcause (t : Thread) (i : BitVec 3) (x : VecReg) : (t.setVec i x).tcause = t.tcause := rfl
@[simp] theorem Thread.setVec_epc (t : Thread) (i : BitVec 3) (x : VecReg) : (t.setVec i x).epc = t.epc := rfl
@[simp] theorem Thread.setVec_tval (t : Thread) (i : BitVec 3) (x : VecReg) : (t.setVec i x).tval = t.tval := rfl
@[simp] theorem Thread.setVec_tvec (t : Thread) (i : BitVec 3) (x : VecReg) : (t.setVec i x).tvec = t.tvec := rfl
@[simp] theorem Thread.setVec_rcto (t : Thread) (i : BitVec 3) (x : VecReg) : (t.setVec i x).rcto = t.rcto := rfl
@[simp] theorem Thread.setVec_rcretry (t : Thread) (i : BitVec 3) (x : VecReg) : (t.setVec i x).rcretry = t.rcretry := rfl
@[simp] theorem Thread.setVec_dbgdrop (t : Thread) (i : BitVec 3) (x : VecReg) : (t.setVec i x).dbgdrop = t.dbgdrop := rfl
@[simp] theorem Thread.setVec_sticky (t : Thread) (i : BitVec 3) (x : VecReg) : (t.setVec i x).sticky = t.sticky := rfl
@[simp] theorem Thread.setVec_status (t : Thread) (i : BitVec 3) (x : VecReg) : (t.setVec i x).status = t.status := rfl
@[simp] theorem Thread.setVec_pages (t : Thread) (i : BitVec 3) (x : VecReg) : (t.setVec i x).pages = t.pages := rfl
@[simp] theorem Thread.setVec_work (t : Thread) (i : BitVec 3) (x : VecReg) : (t.setVec i x).work = t.work := rfl
@[simp] theorem Thread.setVec_callee (t : Thread) (i : BitVec 3) (x : VecReg) : (t.setVec i x).callee = t.callee := rfl
@[simp] theorem Thread.setVec_callId (t : Thread) (i : BitVec 3) (x : VecReg) : (t.setVec i x).callId = t.callId := rfl
@[simp] theorem Thread.setVec_call (t : Thread) (i : BitVec 3) (x : VecReg) : (t.setVec i x).call = t.call := rfl
@[simp] theorem Thread.setVec_acks (t : Thread) (i : BitVec 3) (x : VecReg) : (t.setVec i x).acks = t.acks := rfl
@[simp] theorem Thread.setVec_mail (t : Thread) (i : BitVec 3) (x : VecReg) : (t.setVec i x).mail = t.mail := rfl
@[simp] theorem Thread.setVec_isSealed (t : Thread) (i : BitVec 3) (x : VecReg) : (t.setVec i x).isSealed = t.isSealed := rfl
@[simp] theorem Thread.setVec_late (t : Thread) (i : BitVec 3) (x : VecReg) : (t.setVec i x).late = t.late := rfl
@[simp] theorem Thread.setVec_bias (t : Thread) (i : BitVec 3) (x : VecReg) : (t.setVec i x).bias = t.bias := rfl
@[simp] theorem Thread.setVec_lease (t : Thread) (i : BitVec 3) (x : VecReg) : (t.setVec i x).lease = t.lease := rfl
@[simp] theorem Thread.setVec_causes (t : Thread) (i : BitVec 3) (x : VecReg) : (t.setVec i x).causes = t.causes := rfl
@[simp] theorem Thread.setVec_window (t : Thread) (i : BitVec 3) (x : VecReg) : (t.setVec i x).window = t.window := rfl
@[simp] theorem Thread.setVec_reissue (t : Thread) (i : BitVec 3) (x : VecReg) : (t.setVec i x).reissue = t.reissue := rfl
@[simp] theorem Thread.setVec_taken (t : Thread) (i : BitVec 3) (x : VecReg) : (t.setVec i x).taken = t.taken := rfl
@[simp] theorem Thread.setVec_finished (t : Thread) (i : BitVec 3) (x : VecReg) : (t.setVec i x).finished = t.finished := rfl
@[simp] theorem Thread.setVec_expired (t : Thread) (i : BitVec 3) (x : VecReg) : (t.setVec i x).expired = t.expired := rfl
@[simp] theorem Thread.setVec_answered (t : Thread) (i : BitVec 3) (x : VecReg) : (t.setVec i x).answered = t.answered := rfl
@[simp] theorem Thread.setVec_since (t : Thread) (i : BitVec 3) (x : VecReg) : (t.setVec i x).since = t.since := rfl
@[simp] theorem Thread.setVec_begun (t : Thread) (i : BitVec 3) (x : VecReg) : (t.setVec i x).begun = t.begun := rfl
@[simp] theorem Thread.setVec_nreds (t : Thread) (i : BitVec 3) (x : VecReg) : (t.setVec i x).nreds = t.nreds := rfl
@[simp] theorem Thread.setVec_sync (t : Thread) (i : BitVec 3) (x : VecReg) : (t.setVec i x).sync = t.sync := rfl
@[simp] theorem Thread.setVec_relDone (t : Thread) (i : BitVec 3) (x : VecReg) : (t.setVec i x).relDone = t.relDone := rfl
@[simp] theorem Thread.setVec_record (t : Thread) (i : BitVec 3) (x : VecReg) : (t.setVec i x).record = t.record := rfl
@[simp] theorem Thread.setVec_inlines (t : Thread) (i : BitVec 3) (x : VecReg) : (t.setVec i x).inlines = t.inlines := rfl

@[simp] theorem Thread.next_regs (t : Thread) (n : Nat) : (t.next n).regs = t.regs := rfl
@[simp] theorem Thread.next_trapm (t : Thread) (n : Nat) : (t.next n).trapm = t.trapm := rfl
@[simp] theorem Thread.next_supv (t : Thread) (n : Nat) : (t.next n).supv = t.supv := rfl
@[simp] theorem Thread.next_remote (t : Thread) (n : Nat) : (t.next n).remote = t.remote := rfl
@[simp] theorem Thread.next_dbg (t : Thread) (n : Nat) : (t.next n).dbg = t.dbg := rfl
@[simp] theorem Thread.next_epoch (t : Thread) (n : Nat) : (t.next n).epoch = t.epoch := rfl
@[simp] theorem Thread.next_pend (t : Thread) (n : Nat) : (t.next n).pend = t.pend := rfl
@[simp] theorem Thread.next_win (t : Thread) (n : Nat) : (t.next n).win = t.win := rfl
@[simp] theorem Thread.next_ext (t : Thread) (n : Nat) : (t.next n).ext = t.ext := rfl
@[simp] theorem Thread.next_dep (t : Thread) (n : Nat) : (t.next n).dep = t.dep := rfl
@[simp] theorem Thread.next_vec (t : Thread) (n : Nat) : (t.next n).vec = t.vec := rfl
@[simp] theorem Thread.next_msk (t : Thread) (n : Nat) : (t.next n).msk = t.msk := rfl
@[simp] theorem Thread.next_fpctl (t : Thread) (n : Nat) : (t.next n).fpctl = t.fpctl := rfl
@[simp] theorem Thread.next_mon (t : Thread) (n : Nat) : (t.next n).mon = t.mon := rfl
@[simp] theorem Thread.next_str (t : Thread) (n : Nat) : (t.next n).str = t.str := rfl
@[simp] theorem Thread.next_tcause (t : Thread) (n : Nat) : (t.next n).tcause = t.tcause := rfl
@[simp] theorem Thread.next_epc (t : Thread) (n : Nat) : (t.next n).epc = t.epc := rfl
@[simp] theorem Thread.next_tval (t : Thread) (n : Nat) : (t.next n).tval = t.tval := rfl
@[simp] theorem Thread.next_tvec (t : Thread) (n : Nat) : (t.next n).tvec = t.tvec := rfl
@[simp] theorem Thread.next_rcto (t : Thread) (n : Nat) : (t.next n).rcto = t.rcto := rfl
@[simp] theorem Thread.next_rcretry (t : Thread) (n : Nat) : (t.next n).rcretry = t.rcretry := rfl
@[simp] theorem Thread.next_dbgdrop (t : Thread) (n : Nat) : (t.next n).dbgdrop = t.dbgdrop := rfl
@[simp] theorem Thread.next_sticky (t : Thread) (n : Nat) : (t.next n).sticky = t.sticky := rfl
@[simp] theorem Thread.next_pages (t : Thread) (n : Nat) : (t.next n).pages = t.pages := rfl
@[simp] theorem Thread.next_work (t : Thread) (n : Nat) : (t.next n).work = t.work := rfl
@[simp] theorem Thread.next_callee (t : Thread) (n : Nat) : (t.next n).callee = t.callee := rfl
@[simp] theorem Thread.next_callId (t : Thread) (n : Nat) : (t.next n).callId = t.callId := rfl
@[simp] theorem Thread.next_call (t : Thread) (n : Nat) : (t.next n).call = t.call := rfl
@[simp] theorem Thread.next_acks (t : Thread) (n : Nat) : (t.next n).acks = t.acks := rfl
@[simp] theorem Thread.next_mail (t : Thread) (n : Nat) : (t.next n).mail = t.mail := rfl
@[simp] theorem Thread.next_isSealed (t : Thread) (n : Nat) : (t.next n).isSealed = t.isSealed := rfl
@[simp] theorem Thread.next_late (t : Thread) (n : Nat) : (t.next n).late = t.late := rfl
@[simp] theorem Thread.next_bias (t : Thread) (n : Nat) : (t.next n).bias = t.bias := rfl
@[simp] theorem Thread.next_lease (t : Thread) (n : Nat) : (t.next n).lease = t.lease := rfl
@[simp] theorem Thread.next_causes (t : Thread) (n : Nat) : (t.next n).causes = t.causes := rfl
@[simp] theorem Thread.next_window (t : Thread) (n : Nat) : (t.next n).window = t.window := rfl
@[simp] theorem Thread.next_nreds (t : Thread) (n : Nat) : (t.next n).nreds = t.nreds := rfl
@[simp] theorem Thread.next_sync (t : Thread) (n : Nat) : (t.next n).sync = t.sync := rfl
@[simp] theorem Thread.next_relDone (t : Thread) (n : Nat) : (t.next n).relDone = t.relDone := rfl
@[simp] theorem Thread.next_record (t : Thread) (n : Nat) : (t.next n).record = t.record := rfl
@[simp] theorem Thread.next_inlines (t : Thread) (n : Nat) : (t.next n).inlines = t.inlines := rfl
@[simp] theorem Thread.next_pc (t : Thread) (n : Nat) : (t.next n).pc = t.pc + BitVec.ofNat 64 n := rfl
@[simp] theorem Thread.next_status (t : Thread) (n : Nat) : (t.next n).status = .ready := rfl

@[simp] theorem Thread.jump_regs (t : Thread) (a : Word) : (t.jump a).regs = t.regs := rfl
@[simp] theorem Thread.jump_trapm (t : Thread) (a : Word) : (t.jump a).trapm = t.trapm := rfl
@[simp] theorem Thread.jump_supv (t : Thread) (a : Word) : (t.jump a).supv = t.supv := rfl
@[simp] theorem Thread.jump_remote (t : Thread) (a : Word) : (t.jump a).remote = t.remote := rfl
@[simp] theorem Thread.jump_dbg (t : Thread) (a : Word) : (t.jump a).dbg = t.dbg := rfl
@[simp] theorem Thread.jump_epoch (t : Thread) (a : Word) : (t.jump a).epoch = t.epoch := rfl
@[simp] theorem Thread.jump_pend (t : Thread) (a : Word) : (t.jump a).pend = t.pend := rfl
@[simp] theorem Thread.jump_win (t : Thread) (a : Word) : (t.jump a).win = t.win := rfl
@[simp] theorem Thread.jump_ext (t : Thread) (a : Word) : (t.jump a).ext = t.ext := rfl
@[simp] theorem Thread.jump_dep (t : Thread) (a : Word) : (t.jump a).dep = t.dep := rfl
@[simp] theorem Thread.jump_vec (t : Thread) (a : Word) : (t.jump a).vec = t.vec := rfl
@[simp] theorem Thread.jump_msk (t : Thread) (a : Word) : (t.jump a).msk = t.msk := rfl
@[simp] theorem Thread.jump_fpctl (t : Thread) (a : Word) : (t.jump a).fpctl = t.fpctl := rfl
@[simp] theorem Thread.jump_mon (t : Thread) (a : Word) : (t.jump a).mon = t.mon := rfl
@[simp] theorem Thread.jump_str (t : Thread) (a : Word) : (t.jump a).str = t.str := rfl
@[simp] theorem Thread.jump_tcause (t : Thread) (a : Word) : (t.jump a).tcause = t.tcause := rfl
@[simp] theorem Thread.jump_epc (t : Thread) (a : Word) : (t.jump a).epc = t.epc := rfl
@[simp] theorem Thread.jump_tval (t : Thread) (a : Word) : (t.jump a).tval = t.tval := rfl
@[simp] theorem Thread.jump_tvec (t : Thread) (a : Word) : (t.jump a).tvec = t.tvec := rfl
@[simp] theorem Thread.jump_rcto (t : Thread) (a : Word) : (t.jump a).rcto = t.rcto := rfl
@[simp] theorem Thread.jump_rcretry (t : Thread) (a : Word) : (t.jump a).rcretry = t.rcretry := rfl
@[simp] theorem Thread.jump_dbgdrop (t : Thread) (a : Word) : (t.jump a).dbgdrop = t.dbgdrop := rfl
@[simp] theorem Thread.jump_sticky (t : Thread) (a : Word) : (t.jump a).sticky = t.sticky := rfl
@[simp] theorem Thread.jump_pages (t : Thread) (a : Word) : (t.jump a).pages = t.pages := rfl
@[simp] theorem Thread.jump_work (t : Thread) (a : Word) : (t.jump a).work = t.work := rfl
@[simp] theorem Thread.jump_callee (t : Thread) (a : Word) : (t.jump a).callee = t.callee := rfl
@[simp] theorem Thread.jump_callId (t : Thread) (a : Word) : (t.jump a).callId = t.callId := rfl
@[simp] theorem Thread.jump_call (t : Thread) (a : Word) : (t.jump a).call = t.call := rfl
@[simp] theorem Thread.jump_acks (t : Thread) (a : Word) : (t.jump a).acks = t.acks := rfl
@[simp] theorem Thread.jump_mail (t : Thread) (a : Word) : (t.jump a).mail = t.mail := rfl
@[simp] theorem Thread.jump_isSealed (t : Thread) (a : Word) : (t.jump a).isSealed = t.isSealed := rfl
@[simp] theorem Thread.jump_late (t : Thread) (a : Word) : (t.jump a).late = t.late := rfl
@[simp] theorem Thread.jump_bias (t : Thread) (a : Word) : (t.jump a).bias = t.bias := rfl
@[simp] theorem Thread.jump_lease (t : Thread) (a : Word) : (t.jump a).lease = t.lease := rfl
@[simp] theorem Thread.jump_causes (t : Thread) (a : Word) : (t.jump a).causes = t.causes := rfl
@[simp] theorem Thread.jump_window (t : Thread) (a : Word) : (t.jump a).window = t.window := rfl
@[simp] theorem Thread.jump_nreds (t : Thread) (a : Word) : (t.jump a).nreds = t.nreds := rfl
@[simp] theorem Thread.jump_sync (t : Thread) (a : Word) : (t.jump a).sync = t.sync := rfl
@[simp] theorem Thread.jump_relDone (t : Thread) (a : Word) : (t.jump a).relDone = t.relDone := rfl
@[simp] theorem Thread.jump_record (t : Thread) (a : Word) : (t.jump a).record = t.record := rfl
@[simp] theorem Thread.jump_inlines (t : Thread) (a : Word) : (t.jump a).inlines = t.inlines := rfl
@[simp] theorem Thread.jump_pc (t : Thread) (a : Word) : (t.jump a).pc = a := rfl
@[simp] theorem Thread.jump_status (t : Thread) (a : Word) : (t.jump a).status = .ready := rfl

@[simp] theorem Thread.accrue_regs (t : Thread) (f : Flags) : (t.accrue f).regs = t.regs := rfl
@[simp] theorem Thread.accrue_pc (t : Thread) (f : Flags) : (t.accrue f).pc = t.pc := rfl
@[simp] theorem Thread.accrue_trapm (t : Thread) (f : Flags) : (t.accrue f).trapm = t.trapm := rfl
@[simp] theorem Thread.accrue_supv (t : Thread) (f : Flags) : (t.accrue f).supv = t.supv := rfl
@[simp] theorem Thread.accrue_remote (t : Thread) (f : Flags) : (t.accrue f).remote = t.remote := rfl
@[simp] theorem Thread.accrue_dbg (t : Thread) (f : Flags) : (t.accrue f).dbg = t.dbg := rfl
@[simp] theorem Thread.accrue_epoch (t : Thread) (f : Flags) : (t.accrue f).epoch = t.epoch := rfl
@[simp] theorem Thread.accrue_pend (t : Thread) (f : Flags) : (t.accrue f).pend = t.pend := rfl
@[simp] theorem Thread.accrue_win (t : Thread) (f : Flags) : (t.accrue f).win = t.win := rfl
@[simp] theorem Thread.accrue_ext (t : Thread) (f : Flags) : (t.accrue f).ext = t.ext := rfl
@[simp] theorem Thread.accrue_dep (t : Thread) (f : Flags) : (t.accrue f).dep = t.dep := rfl
@[simp] theorem Thread.accrue_vec (t : Thread) (f : Flags) : (t.accrue f).vec = t.vec := rfl
@[simp] theorem Thread.accrue_msk (t : Thread) (f : Flags) : (t.accrue f).msk = t.msk := rfl
@[simp] theorem Thread.accrue_mon (t : Thread) (f : Flags) : (t.accrue f).mon = t.mon := rfl
@[simp] theorem Thread.accrue_str (t : Thread) (f : Flags) : (t.accrue f).str = t.str := rfl
@[simp] theorem Thread.accrue_tcause (t : Thread) (f : Flags) : (t.accrue f).tcause = t.tcause := rfl
@[simp] theorem Thread.accrue_epc (t : Thread) (f : Flags) : (t.accrue f).epc = t.epc := rfl
@[simp] theorem Thread.accrue_tval (t : Thread) (f : Flags) : (t.accrue f).tval = t.tval := rfl
@[simp] theorem Thread.accrue_tvec (t : Thread) (f : Flags) : (t.accrue f).tvec = t.tvec := rfl
@[simp] theorem Thread.accrue_rcto (t : Thread) (f : Flags) : (t.accrue f).rcto = t.rcto := rfl
@[simp] theorem Thread.accrue_rcretry (t : Thread) (f : Flags) : (t.accrue f).rcretry = t.rcretry := rfl
@[simp] theorem Thread.accrue_dbgdrop (t : Thread) (f : Flags) : (t.accrue f).dbgdrop = t.dbgdrop := rfl
@[simp] theorem Thread.accrue_sticky (t : Thread) (f : Flags) : (t.accrue f).sticky = t.sticky := rfl
@[simp] theorem Thread.accrue_status (t : Thread) (f : Flags) : (t.accrue f).status = t.status := rfl
@[simp] theorem Thread.accrue_pages (t : Thread) (f : Flags) : (t.accrue f).pages = t.pages := rfl
@[simp] theorem Thread.accrue_work (t : Thread) (f : Flags) : (t.accrue f).work = t.work := rfl
@[simp] theorem Thread.accrue_callee (t : Thread) (f : Flags) : (t.accrue f).callee = t.callee := rfl
@[simp] theorem Thread.accrue_callId (t : Thread) (f : Flags) : (t.accrue f).callId = t.callId := rfl
@[simp] theorem Thread.accrue_call (t : Thread) (f : Flags) : (t.accrue f).call = t.call := rfl
@[simp] theorem Thread.accrue_acks (t : Thread) (f : Flags) : (t.accrue f).acks = t.acks := rfl
@[simp] theorem Thread.accrue_mail (t : Thread) (f : Flags) : (t.accrue f).mail = t.mail := rfl
@[simp] theorem Thread.accrue_isSealed (t : Thread) (f : Flags) : (t.accrue f).isSealed = t.isSealed := rfl
@[simp] theorem Thread.accrue_late (t : Thread) (f : Flags) : (t.accrue f).late = t.late := rfl
@[simp] theorem Thread.accrue_bias (t : Thread) (f : Flags) : (t.accrue f).bias = t.bias := rfl
@[simp] theorem Thread.accrue_lease (t : Thread) (f : Flags) : (t.accrue f).lease = t.lease := rfl
@[simp] theorem Thread.accrue_causes (t : Thread) (f : Flags) : (t.accrue f).causes = t.causes := rfl
@[simp] theorem Thread.accrue_window (t : Thread) (f : Flags) : (t.accrue f).window = t.window := rfl
@[simp] theorem Thread.accrue_reissue (t : Thread) (f : Flags) : (t.accrue f).reissue = t.reissue := rfl
@[simp] theorem Thread.accrue_taken (t : Thread) (f : Flags) : (t.accrue f).taken = t.taken := rfl
@[simp] theorem Thread.accrue_finished (t : Thread) (f : Flags) : (t.accrue f).finished = t.finished := rfl
@[simp] theorem Thread.accrue_expired (t : Thread) (f : Flags) : (t.accrue f).expired = t.expired := rfl
@[simp] theorem Thread.accrue_answered (t : Thread) (f : Flags) : (t.accrue f).answered = t.answered := rfl
@[simp] theorem Thread.accrue_since (t : Thread) (f : Flags) : (t.accrue f).since = t.since := rfl
@[simp] theorem Thread.accrue_begun (t : Thread) (f : Flags) : (t.accrue f).begun = t.begun := rfl
@[simp] theorem Thread.accrue_nreds (t : Thread) (f : Flags) : (t.accrue f).nreds = t.nreds := rfl
@[simp] theorem Thread.accrue_sync (t : Thread) (f : Flags) : (t.accrue f).sync = t.sync := rfl
@[simp] theorem Thread.accrue_relDone (t : Thread) (f : Flags) : (t.accrue f).relDone = t.relDone := rfl
@[simp] theorem Thread.accrue_record (t : Thread) (f : Flags) : (t.accrue f).record = t.record := rfl
@[simp] theorem Thread.accrue_inlines (t : Thread) (f : Flags) : (t.accrue f).inlines = t.inlines := rfl
@[simp] theorem Thread.accrue_fpctl (t : Thread) (f : Flags) : (t.accrue f).fpctl = t.fpctl ||| f.setWidth 64 := rfl

@[simp] theorem Thread.enterTrap_regs (t : Thread) (c : Cause) (p : Option Word) (e v : Word) : (t.enterTrap c p e v).regs = t.regs := rfl
@[simp] theorem Thread.enterTrap_supv (t : Thread) (c : Cause) (p : Option Word) (e v : Word) : (t.enterTrap c p e v).supv = t.supv := rfl
@[simp] theorem Thread.enterTrap_remote (t : Thread) (c : Cause) (p : Option Word) (e v : Word) : (t.enterTrap c p e v).remote = t.remote := rfl
@[simp] theorem Thread.enterTrap_dbg (t : Thread) (c : Cause) (p : Option Word) (e v : Word) : (t.enterTrap c p e v).dbg = t.dbg := rfl
@[simp] theorem Thread.enterTrap_epoch (t : Thread) (c : Cause) (p : Option Word) (e v : Word) : (t.enterTrap c p e v).epoch = t.epoch := rfl
@[simp] theorem Thread.enterTrap_pend (t : Thread) (c : Cause) (p : Option Word) (e v : Word) : (t.enterTrap c p e v).pend = t.pend := rfl
@[simp] theorem Thread.enterTrap_win (t : Thread) (c : Cause) (p : Option Word) (e v : Word) : (t.enterTrap c p e v).win = t.win := rfl
@[simp] theorem Thread.enterTrap_ext (t : Thread) (c : Cause) (p : Option Word) (e v : Word) : (t.enterTrap c p e v).ext = t.ext := rfl
@[simp] theorem Thread.enterTrap_dep (t : Thread) (c : Cause) (p : Option Word) (e v : Word) : (t.enterTrap c p e v).dep = t.dep := rfl
@[simp] theorem Thread.enterTrap_vec (t : Thread) (c : Cause) (p : Option Word) (e v : Word) : (t.enterTrap c p e v).vec = t.vec := rfl
@[simp] theorem Thread.enterTrap_msk (t : Thread) (c : Cause) (p : Option Word) (e v : Word) : (t.enterTrap c p e v).msk = t.msk := rfl
@[simp] theorem Thread.enterTrap_fpctl (t : Thread) (c : Cause) (p : Option Word) (e v : Word) : (t.enterTrap c p e v).fpctl = t.fpctl := rfl
@[simp] theorem Thread.enterTrap_mon (t : Thread) (c : Cause) (p : Option Word) (e v : Word) : (t.enterTrap c p e v).mon = t.mon := rfl
@[simp] theorem Thread.enterTrap_str (t : Thread) (c : Cause) (p : Option Word) (e v : Word) : (t.enterTrap c p e v).str = t.str := rfl
@[simp] theorem Thread.enterTrap_tvec (t : Thread) (c : Cause) (p : Option Word) (e v : Word) : (t.enterTrap c p e v).tvec = t.tvec := rfl
@[simp] theorem Thread.enterTrap_rcto (t : Thread) (c : Cause) (p : Option Word) (e v : Word) : (t.enterTrap c p e v).rcto = t.rcto := rfl
@[simp] theorem Thread.enterTrap_rcretry (t : Thread) (c : Cause) (p : Option Word) (e v : Word) : (t.enterTrap c p e v).rcretry = t.rcretry := rfl
@[simp] theorem Thread.enterTrap_dbgdrop (t : Thread) (c : Cause) (p : Option Word) (e v : Word) : (t.enterTrap c p e v).dbgdrop = t.dbgdrop := rfl
@[simp] theorem Thread.enterTrap_sticky (t : Thread) (c : Cause) (p : Option Word) (e v : Word) : (t.enterTrap c p e v).sticky = t.sticky := rfl
@[simp] theorem Thread.enterTrap_pages (t : Thread) (c : Cause) (p : Option Word) (e v : Word) : (t.enterTrap c p e v).pages = t.pages := rfl
@[simp] theorem Thread.enterTrap_work (t : Thread) (c : Cause) (p : Option Word) (e v : Word) : (t.enterTrap c p e v).work = t.work := rfl
@[simp] theorem Thread.enterTrap_callee (t : Thread) (c : Cause) (p : Option Word) (e v : Word) : (t.enterTrap c p e v).callee = t.callee := rfl
@[simp] theorem Thread.enterTrap_callId (t : Thread) (c : Cause) (p : Option Word) (e v : Word) : (t.enterTrap c p e v).callId = t.callId := rfl
@[simp] theorem Thread.enterTrap_call (t : Thread) (c : Cause) (p : Option Word) (e v : Word) : (t.enterTrap c p e v).call = t.call := rfl
@[simp] theorem Thread.enterTrap_acks (t : Thread) (c : Cause) (p : Option Word) (e v : Word) : (t.enterTrap c p e v).acks = t.acks := rfl
@[simp] theorem Thread.enterTrap_mail (t : Thread) (c : Cause) (p : Option Word) (e v : Word) : (t.enterTrap c p e v).mail = t.mail := rfl
@[simp] theorem Thread.enterTrap_isSealed (t : Thread) (c : Cause) (p : Option Word) (e v : Word) : (t.enterTrap c p e v).isSealed = t.isSealed := rfl
@[simp] theorem Thread.enterTrap_late (t : Thread) (c : Cause) (p : Option Word) (e v : Word) : (t.enterTrap c p e v).late = t.late := rfl
@[simp] theorem Thread.enterTrap_bias (t : Thread) (c : Cause) (p : Option Word) (e v : Word) : (t.enterTrap c p e v).bias = t.bias := rfl
@[simp] theorem Thread.enterTrap_lease (t : Thread) (c : Cause) (p : Option Word) (e v : Word) : (t.enterTrap c p e v).lease = t.lease := rfl
@[simp] theorem Thread.enterTrap_causes (t : Thread) (c : Cause) (p : Option Word) (e v : Word) : (t.enterTrap c p e v).causes = t.causes := rfl
@[simp] theorem Thread.enterTrap_window (t : Thread) (c : Cause) (p : Option Word) (e v : Word) : (t.enterTrap c p e v).window = t.window := rfl
@[simp] theorem Thread.enterTrap_nreds (t : Thread) (c : Cause) (p : Option Word) (e v : Word) : (t.enterTrap c p e v).nreds = t.nreds := rfl
@[simp] theorem Thread.enterTrap_sync (t : Thread) (c : Cause) (p : Option Word) (e v : Word) : (t.enterTrap c p e v).sync = t.sync := rfl
@[simp] theorem Thread.enterTrap_relDone (t : Thread) (c : Cause) (p : Option Word) (e v : Word) : (t.enterTrap c p e v).relDone = t.relDone := rfl
@[simp] theorem Thread.enterTrap_record (t : Thread) (c : Cause) (p : Option Word) (e v : Word) : (t.enterTrap c p e v).record = t.record := rfl
@[simp] theorem Thread.enterTrap_inlines (t : Thread) (c : Cause) (p : Option Word) (e v : Word) : (t.enterTrap c p e v).inlines = t.inlines := rfl
@[simp] theorem Thread.enterTrap_tcause (t : Thread) (c : Cause) (p : Option Word) (e v : Word) : (t.enterTrap c p e v).tcause = tcauseWord c p := rfl
@[simp] theorem Thread.enterTrap_epc (t : Thread) (c : Cause) (p : Option Word) (e v : Word) : (t.enterTrap c p e v).epc = e := rfl
@[simp] theorem Thread.enterTrap_tval (t : Thread) (c : Cause) (p : Option Word) (e v : Word) : (t.enterTrap c p e v).tval = v := rfl
@[simp] theorem Thread.enterTrap_trapm (t : Thread) (c : Cause) (p : Option Word) (e v : Word) : (t.enterTrap c p e v).trapm = true := rfl
@[simp] theorem Thread.enterTrap_pc (t : Thread) (c : Cause) (p : Option Word) (e v : Word) : (t.enterTrap c p e v).pc = t.tvec := rfl
@[simp] theorem Thread.enterTrap_status (t : Thread) (c : Cause) (p : Option Word) (e v : Word) : (t.enterTrap c p e v).status = .ready := rfl

/-- A write to k0 changes nothing (R96). -/
@[simp] theorem Thread.setMask_zero (t : Thread) (x : MaskReg) : t.setMask 0 x = t := rfl

@[simp] theorem Thread.setMask_regs (t : Thread) (i : BitVec 3) (x : MaskReg) : (t.setMask i x).regs = t.regs := by
  unfold Thread.setMask
  split <;> rfl
@[simp] theorem Thread.setMask_pc (t : Thread) (i : BitVec 3) (x : MaskReg) : (t.setMask i x).pc = t.pc := by
  unfold Thread.setMask
  split <;> rfl
@[simp] theorem Thread.setMask_trapm (t : Thread) (i : BitVec 3) (x : MaskReg) : (t.setMask i x).trapm = t.trapm := by
  unfold Thread.setMask
  split <;> rfl
@[simp] theorem Thread.setMask_supv (t : Thread) (i : BitVec 3) (x : MaskReg) : (t.setMask i x).supv = t.supv := by
  unfold Thread.setMask
  split <;> rfl
@[simp] theorem Thread.setMask_remote (t : Thread) (i : BitVec 3) (x : MaskReg) : (t.setMask i x).remote = t.remote := by
  unfold Thread.setMask
  split <;> rfl
@[simp] theorem Thread.setMask_dbg (t : Thread) (i : BitVec 3) (x : MaskReg) : (t.setMask i x).dbg = t.dbg := by
  unfold Thread.setMask
  split <;> rfl
@[simp] theorem Thread.setMask_epoch (t : Thread) (i : BitVec 3) (x : MaskReg) : (t.setMask i x).epoch = t.epoch := by
  unfold Thread.setMask
  split <;> rfl
@[simp] theorem Thread.setMask_pend (t : Thread) (i : BitVec 3) (x : MaskReg) : (t.setMask i x).pend = t.pend := by
  unfold Thread.setMask
  split <;> rfl
@[simp] theorem Thread.setMask_win (t : Thread) (i : BitVec 3) (x : MaskReg) : (t.setMask i x).win = t.win := by
  unfold Thread.setMask
  split <;> rfl
@[simp] theorem Thread.setMask_ext (t : Thread) (i : BitVec 3) (x : MaskReg) : (t.setMask i x).ext = t.ext := by
  unfold Thread.setMask
  split <;> rfl
@[simp] theorem Thread.setMask_dep (t : Thread) (i : BitVec 3) (x : MaskReg) : (t.setMask i x).dep = t.dep := by
  unfold Thread.setMask
  split <;> rfl
@[simp] theorem Thread.setMask_vec (t : Thread) (i : BitVec 3) (x : MaskReg) : (t.setMask i x).vec = t.vec := by
  unfold Thread.setMask
  split <;> rfl
@[simp] theorem Thread.setMask_fpctl (t : Thread) (i : BitVec 3) (x : MaskReg) : (t.setMask i x).fpctl = t.fpctl := by
  unfold Thread.setMask
  split <;> rfl
@[simp] theorem Thread.setMask_mon (t : Thread) (i : BitVec 3) (x : MaskReg) : (t.setMask i x).mon = t.mon := by
  unfold Thread.setMask
  split <;> rfl
@[simp] theorem Thread.setMask_str (t : Thread) (i : BitVec 3) (x : MaskReg) : (t.setMask i x).str = t.str := by
  unfold Thread.setMask
  split <;> rfl
@[simp] theorem Thread.setMask_tcause (t : Thread) (i : BitVec 3) (x : MaskReg) : (t.setMask i x).tcause = t.tcause := by
  unfold Thread.setMask
  split <;> rfl
@[simp] theorem Thread.setMask_epc (t : Thread) (i : BitVec 3) (x : MaskReg) : (t.setMask i x).epc = t.epc := by
  unfold Thread.setMask
  split <;> rfl
@[simp] theorem Thread.setMask_tval (t : Thread) (i : BitVec 3) (x : MaskReg) : (t.setMask i x).tval = t.tval := by
  unfold Thread.setMask
  split <;> rfl
@[simp] theorem Thread.setMask_tvec (t : Thread) (i : BitVec 3) (x : MaskReg) : (t.setMask i x).tvec = t.tvec := by
  unfold Thread.setMask
  split <;> rfl
@[simp] theorem Thread.setMask_rcto (t : Thread) (i : BitVec 3) (x : MaskReg) : (t.setMask i x).rcto = t.rcto := by
  unfold Thread.setMask
  split <;> rfl
@[simp] theorem Thread.setMask_rcretry (t : Thread) (i : BitVec 3) (x : MaskReg) : (t.setMask i x).rcretry = t.rcretry := by
  unfold Thread.setMask
  split <;> rfl
@[simp] theorem Thread.setMask_dbgdrop (t : Thread) (i : BitVec 3) (x : MaskReg) : (t.setMask i x).dbgdrop = t.dbgdrop := by
  unfold Thread.setMask
  split <;> rfl
@[simp] theorem Thread.setMask_sticky (t : Thread) (i : BitVec 3) (x : MaskReg) : (t.setMask i x).sticky = t.sticky := by
  unfold Thread.setMask
  split <;> rfl
@[simp] theorem Thread.setMask_status (t : Thread) (i : BitVec 3) (x : MaskReg) : (t.setMask i x).status = t.status := by
  unfold Thread.setMask
  split <;> rfl
@[simp] theorem Thread.setMask_pages (t : Thread) (i : BitVec 3) (x : MaskReg) : (t.setMask i x).pages = t.pages := by
  unfold Thread.setMask
  split <;> rfl
@[simp] theorem Thread.setMask_work (t : Thread) (i : BitVec 3) (x : MaskReg) : (t.setMask i x).work = t.work := by
  unfold Thread.setMask
  split <;> rfl
@[simp] theorem Thread.setMask_callee (t : Thread) (i : BitVec 3) (x : MaskReg) : (t.setMask i x).callee = t.callee := by
  unfold Thread.setMask
  split <;> rfl
@[simp] theorem Thread.setMask_callId (t : Thread) (i : BitVec 3) (x : MaskReg) : (t.setMask i x).callId = t.callId := by
  unfold Thread.setMask
  split <;> rfl
@[simp] theorem Thread.setMask_call (t : Thread) (i : BitVec 3) (x : MaskReg) : (t.setMask i x).call = t.call := by
  unfold Thread.setMask
  split <;> rfl
@[simp] theorem Thread.setMask_acks (t : Thread) (i : BitVec 3) (x : MaskReg) : (t.setMask i x).acks = t.acks := by
  unfold Thread.setMask
  split <;> rfl
@[simp] theorem Thread.setMask_mail (t : Thread) (i : BitVec 3) (x : MaskReg) : (t.setMask i x).mail = t.mail := by
  unfold Thread.setMask
  split <;> rfl
@[simp] theorem Thread.setMask_isSealed (t : Thread) (i : BitVec 3) (x : MaskReg) : (t.setMask i x).isSealed = t.isSealed := by
  unfold Thread.setMask
  split <;> rfl
@[simp] theorem Thread.setMask_late (t : Thread) (i : BitVec 3) (x : MaskReg) : (t.setMask i x).late = t.late := by
  unfold Thread.setMask
  split <;> rfl
@[simp] theorem Thread.setMask_bias (t : Thread) (i : BitVec 3) (x : MaskReg) : (t.setMask i x).bias = t.bias := by
  unfold Thread.setMask
  split <;> rfl
@[simp] theorem Thread.setMask_lease (t : Thread) (i : BitVec 3) (x : MaskReg) : (t.setMask i x).lease = t.lease := by
  unfold Thread.setMask
  split <;> rfl
@[simp] theorem Thread.setMask_causes (t : Thread) (i : BitVec 3) (x : MaskReg) : (t.setMask i x).causes = t.causes := by
  unfold Thread.setMask
  split <;> rfl
@[simp] theorem Thread.setMask_window (t : Thread) (i : BitVec 3) (x : MaskReg) : (t.setMask i x).window = t.window := by
  unfold Thread.setMask
  split <;> rfl
@[simp] theorem Thread.setMask_reissue (t : Thread) (i : BitVec 3) (x : MaskReg) : (t.setMask i x).reissue = t.reissue := by
  unfold Thread.setMask
  split <;> rfl
@[simp] theorem Thread.setMask_taken (t : Thread) (i : BitVec 3) (x : MaskReg) : (t.setMask i x).taken = t.taken := by
  unfold Thread.setMask
  split <;> rfl
@[simp] theorem Thread.setMask_finished (t : Thread) (i : BitVec 3) (x : MaskReg) : (t.setMask i x).finished = t.finished := by
  unfold Thread.setMask
  split <;> rfl
@[simp] theorem Thread.setMask_expired (t : Thread) (i : BitVec 3) (x : MaskReg) : (t.setMask i x).expired = t.expired := by
  unfold Thread.setMask
  split <;> rfl
@[simp] theorem Thread.setMask_answered (t : Thread) (i : BitVec 3) (x : MaskReg) : (t.setMask i x).answered = t.answered := by
  unfold Thread.setMask
  split <;> rfl
@[simp] theorem Thread.setMask_since (t : Thread) (i : BitVec 3) (x : MaskReg) : (t.setMask i x).since = t.since := by
  unfold Thread.setMask
  split <;> rfl
@[simp] theorem Thread.setMask_begun (t : Thread) (i : BitVec 3) (x : MaskReg) : (t.setMask i x).begun = t.begun := by
  unfold Thread.setMask
  split <;> rfl
@[simp] theorem Thread.setMask_nreds (t : Thread) (i : BitVec 3) (x : MaskReg) : (t.setMask i x).nreds = t.nreds := by
  unfold Thread.setMask
  split <;> rfl
@[simp] theorem Thread.setMask_sync (t : Thread) (i : BitVec 3) (x : MaskReg) : (t.setMask i x).sync = t.sync := by
  unfold Thread.setMask
  split <;> rfl
@[simp] theorem Thread.setMask_relDone (t : Thread) (i : BitVec 3) (x : MaskReg) : (t.setMask i x).relDone = t.relDone := by
  unfold Thread.setMask
  split <;> rfl
@[simp] theorem Thread.setMask_record (t : Thread) (i : BitVec 3) (x : MaskReg) : (t.setMask i x).record = t.record := by
  unfold Thread.setMask
  split <;> rfl
@[simp] theorem Thread.setMask_inlines (t : Thread) (i : BitVec 3) (x : MaskReg) : (t.setMask i x).inlines = t.inlines := by
  unfold Thread.setMask
  split <;> rfl

/-! ## Waiting -/

@[simp] theorem Thread.enter_regs (t : Thread) (w : Wait) (n : Nat) : (t.enter w n).regs = t.regs := rfl
@[simp] theorem Thread.enter_pc (t : Thread) (w : Wait) (n : Nat) : (t.enter w n).pc = t.pc := rfl
@[simp] theorem Thread.enter_trapm (t : Thread) (w : Wait) (n : Nat) : (t.enter w n).trapm = t.trapm := rfl
@[simp] theorem Thread.enter_supv (t : Thread) (w : Wait) (n : Nat) : (t.enter w n).supv = t.supv := rfl
@[simp] theorem Thread.enter_remote (t : Thread) (w : Wait) (n : Nat) : (t.enter w n).remote = t.remote := rfl
@[simp] theorem Thread.enter_dbg (t : Thread) (w : Wait) (n : Nat) : (t.enter w n).dbg = t.dbg := rfl
@[simp] theorem Thread.enter_epoch (t : Thread) (w : Wait) (n : Nat) : (t.enter w n).epoch = t.epoch := rfl
@[simp] theorem Thread.enter_pend (t : Thread) (w : Wait) (n : Nat) : (t.enter w n).pend = t.pend := rfl
@[simp] theorem Thread.enter_win (t : Thread) (w : Wait) (n : Nat) : (t.enter w n).win = t.win := rfl
@[simp] theorem Thread.enter_ext (t : Thread) (w : Wait) (n : Nat) : (t.enter w n).ext = t.ext := rfl
@[simp] theorem Thread.enter_dep (t : Thread) (w : Wait) (n : Nat) : (t.enter w n).dep = t.dep := rfl
@[simp] theorem Thread.enter_vec (t : Thread) (w : Wait) (n : Nat) : (t.enter w n).vec = t.vec := rfl
@[simp] theorem Thread.enter_msk (t : Thread) (w : Wait) (n : Nat) : (t.enter w n).msk = t.msk := rfl
@[simp] theorem Thread.enter_fpctl (t : Thread) (w : Wait) (n : Nat) : (t.enter w n).fpctl = t.fpctl := rfl
@[simp] theorem Thread.enter_mon (t : Thread) (w : Wait) (n : Nat) : (t.enter w n).mon = t.mon := rfl
@[simp] theorem Thread.enter_str (t : Thread) (w : Wait) (n : Nat) : (t.enter w n).str = t.str := rfl
@[simp] theorem Thread.enter_tcause (t : Thread) (w : Wait) (n : Nat) : (t.enter w n).tcause = t.tcause := rfl
@[simp] theorem Thread.enter_epc (t : Thread) (w : Wait) (n : Nat) : (t.enter w n).epc = t.epc := rfl
@[simp] theorem Thread.enter_tval (t : Thread) (w : Wait) (n : Nat) : (t.enter w n).tval = t.tval := rfl
@[simp] theorem Thread.enter_tvec (t : Thread) (w : Wait) (n : Nat) : (t.enter w n).tvec = t.tvec := rfl
@[simp] theorem Thread.enter_rcto (t : Thread) (w : Wait) (n : Nat) : (t.enter w n).rcto = t.rcto := rfl
@[simp] theorem Thread.enter_rcretry (t : Thread) (w : Wait) (n : Nat) : (t.enter w n).rcretry = t.rcretry := rfl
@[simp] theorem Thread.enter_dbgdrop (t : Thread) (w : Wait) (n : Nat) : (t.enter w n).dbgdrop = t.dbgdrop := rfl
@[simp] theorem Thread.enter_sticky (t : Thread) (w : Wait) (n : Nat) : (t.enter w n).sticky = t.sticky := rfl
@[simp] theorem Thread.enter_pages (t : Thread) (w : Wait) (n : Nat) : (t.enter w n).pages = t.pages := rfl
@[simp] theorem Thread.enter_work (t : Thread) (w : Wait) (n : Nat) : (t.enter w n).work = t.work := rfl
@[simp] theorem Thread.enter_callee (t : Thread) (w : Wait) (n : Nat) : (t.enter w n).callee = t.callee := rfl
@[simp] theorem Thread.enter_callId (t : Thread) (w : Wait) (n : Nat) : (t.enter w n).callId = t.callId := rfl
@[simp] theorem Thread.enter_call (t : Thread) (w : Wait) (n : Nat) : (t.enter w n).call = t.call := rfl
@[simp] theorem Thread.enter_acks (t : Thread) (w : Wait) (n : Nat) : (t.enter w n).acks = t.acks := rfl
@[simp] theorem Thread.enter_mail (t : Thread) (w : Wait) (n : Nat) : (t.enter w n).mail = t.mail := rfl
@[simp] theorem Thread.enter_isSealed (t : Thread) (w : Wait) (n : Nat) : (t.enter w n).isSealed = t.isSealed := rfl
@[simp] theorem Thread.enter_late (t : Thread) (w : Wait) (n : Nat) : (t.enter w n).late = t.late := rfl
@[simp] theorem Thread.enter_bias (t : Thread) (w : Wait) (n : Nat) : (t.enter w n).bias = t.bias := rfl
@[simp] theorem Thread.enter_lease (t : Thread) (w : Wait) (n : Nat) : (t.enter w n).lease = t.lease := rfl
@[simp] theorem Thread.enter_causes (t : Thread) (w : Wait) (n : Nat) : (t.enter w n).causes = t.causes := rfl
@[simp] theorem Thread.enter_window (t : Thread) (w : Wait) (n : Nat) : (t.enter w n).window = t.window := rfl
@[simp] theorem Thread.enter_reissue (t : Thread) (w : Wait) (n : Nat) : (t.enter w n).reissue = t.reissue := rfl
@[simp] theorem Thread.enter_taken (t : Thread) (w : Wait) (n : Nat) : (t.enter w n).taken = t.taken := rfl
@[simp] theorem Thread.enter_finished (t : Thread) (w : Wait) (n : Nat) : (t.enter w n).finished = t.finished := rfl
@[simp] theorem Thread.enter_expired (t : Thread) (w : Wait) (n : Nat) : (t.enter w n).expired = t.expired := rfl
@[simp] theorem Thread.enter_answered (t : Thread) (w : Wait) (n : Nat) : (t.enter w n).answered = t.answered := rfl
@[simp] theorem Thread.enter_nreds (t : Thread) (w : Wait) (n : Nat) : (t.enter w n).nreds = t.nreds := rfl
@[simp] theorem Thread.enter_sync (t : Thread) (w : Wait) (n : Nat) : (t.enter w n).sync = t.sync := rfl
@[simp] theorem Thread.enter_relDone (t : Thread) (w : Wait) (n : Nat) : (t.enter w n).relDone = t.relDone := rfl
@[simp] theorem Thread.enter_record (t : Thread) (w : Wait) (n : Nat) : (t.enter w n).record = t.record := rfl
@[simp] theorem Thread.enter_inlines (t : Thread) (w : Wait) (n : Nat) : (t.enter w n).inlines = t.inlines := rfl
@[simp] theorem Thread.enter_status (t : Thread) (w : Wait) (n : Nat) : (t.enter w n).status = .wait w := rfl
@[simp] theorem Thread.enter_begun (t : Thread) (w : Wait) (n : Nat) : (t.enter w n).begun = some w := rfl
@[simp] theorem Thread.next_begun (t : Thread) (n : Nat) : (t.next n).begun = none := rfl
@[simp] theorem Thread.jump_begun (t : Thread) (a : Word) : (t.jump a).begun = none := rfl
@[simp] theorem Thread.enterTrap_begun (t : Thread) (c : Cause) (p : Option Word) (e v : Word) : (t.enterTrap c p e v).begun = none := rfl

/-! ## Register files -/

@[simp] theorem Thread.reg_setReg_same (t : Thread) (i : BitVec 4) (x : Reg) : (t.setReg i x).reg i = x := by
  simp [Thread.reg, Thread.setReg]

theorem Thread.reg_setReg_other (t : Thread) {i j : BitVec 4} (x : Reg) (h : j ≠ i) : (t.setReg i x).reg j = t.reg j := by
  have n : i.toNat ≠ j.toNat := fun q => h (BitVec.eq_of_toNat_eq q.symm)
  simp [Thread.reg, Thread.setReg, n]

@[simp] theorem Thread.extReg_setExt_same (t : Thread) (i : BitVec 3) (x : Reg) : (t.setExt i x).extReg i = x := by
  simp [Thread.extReg, Thread.setExt]

theorem Thread.extReg_setExt_other (t : Thread) {i j : BitVec 3} (x : Reg) (h : j ≠ i) : (t.setExt i x).extReg j = t.extReg j := by
  have n : i.toNat ≠ j.toNat := fun q => h (BitVec.eq_of_toNat_eq q.symm)
  simp [Thread.extReg, Thread.setExt, n]

@[simp] theorem Thread.vecReg_setVec_same (t : Thread) (i : BitVec 3) (x : VecReg) : (t.setVec i x).vecReg i = x := by
  simp [Thread.vecReg, Thread.setVec]

theorem Thread.vecReg_setVec_other (t : Thread) {i j : BitVec 3} (x : VecReg) (h : j ≠ i) : (t.setVec i x).vecReg j = t.vecReg j := by
  have n : i.toNat ≠ j.toNat := fun q => h (BitVec.eq_of_toNat_eq q.symm)
  simp [Thread.vecReg, Thread.setVec, n]

@[simp] theorem Thread.window__setWindow_same (t : Thread) (i : BitVec 3) (x : BitVec 128) : (t.setWindow i x).window_ i = x &&& windowMask := by
  simp [Thread.window_, Thread.setWindow]

theorem Thread.window__setWindow_other (t : Thread) {i j : BitVec 3} (x : BitVec 128) (h : j ≠ i) : (t.setWindow i x).window_ j = t.window_ j := by
  have n : i.toNat ≠ j.toNat := fun q => h (BitVec.eq_of_toNat_eq q.symm)
  simp [Thread.window_, Thread.setWindow, n]

@[simp] theorem Thread.maskReg_zero (t : Thread) : t.maskReg 0 = BitVec.allOnes 128 := rfl

theorem Thread.maskReg_setMask_same (t : Thread) {i : BitVec 3} (x : MaskReg) (h : i ≠ 0) : (t.setMask i x).maskReg i = x := by
  simp only [Thread.maskReg, Thread.setMask, if_neg h]
  simp

theorem Thread.maskReg_setMask_other (t : Thread) {i j : BitVec 3} (x : MaskReg) (h : j ≠ i) : (t.setMask i x).maskReg j = t.maskReg j := by
  have n : i.toNat ≠ j.toNat := fun q => h (BitVec.eq_of_toNat_eq q.symm)
  unfold Thread.setMask
  split
  · rfl
  · simp [Thread.maskReg, n]

@[simp] theorem Thread.setReg_extReg (t : Thread) (i : BitVec 4) (r : Reg) (j : BitVec 3) : (t.setReg i r).extReg j = t.extReg j := rfl
@[simp] theorem Thread.setReg_vecReg (t : Thread) (i : BitVec 4) (r : Reg) (j : BitVec 3) : (t.setReg i r).vecReg j = t.vecReg j := rfl
@[simp] theorem Thread.setReg_window_ (t : Thread) (i : BitVec 4) (r : Reg) (j : BitVec 3) : (t.setReg i r).window_ j = t.window_ j := rfl
@[simp] theorem Thread.setReg_maskReg (t : Thread) (i : BitVec 4) (r : Reg) (j : BitVec 3) : (t.setReg i r).maskReg j = t.maskReg j := rfl
@[simp] theorem Thread.setReg_marked (t : Thread) (i : BitVec 4) (r : Reg) (j : BitVec 4) : (t.setReg i r).marked j = t.marked j := rfl
@[simp] theorem Thread.setExt_reg (t : Thread) (i : BitVec 3) (r : Reg) (j : BitVec 4) : (t.setExt i r).reg j = t.reg j := rfl
@[simp] theorem Thread.setExt_vecReg (t : Thread) (i : BitVec 3) (r : Reg) (j : BitVec 3) : (t.setExt i r).vecReg j = t.vecReg j := rfl
@[simp] theorem Thread.setExt_window_ (t : Thread) (i : BitVec 3) (r : Reg) (j : BitVec 3) : (t.setExt i r).window_ j = t.window_ j := rfl
@[simp] theorem Thread.setExt_maskReg (t : Thread) (i : BitVec 3) (r : Reg) (j : BitVec 3) : (t.setExt i r).maskReg j = t.maskReg j := rfl
@[simp] theorem Thread.setExt_marked (t : Thread) (i : BitVec 3) (r : Reg) (j : BitVec 4) : (t.setExt i r).marked j = t.marked j := rfl
@[simp] theorem Thread.setWindow_reg (t : Thread) (i : BitVec 3) (w : BitVec 128) (j : BitVec 4) : (t.setWindow i w).reg j = t.reg j := rfl
@[simp] theorem Thread.setWindow_extReg (t : Thread) (i : BitVec 3) (w : BitVec 128) (j : BitVec 3) : (t.setWindow i w).extReg j = t.extReg j := rfl
@[simp] theorem Thread.setWindow_vecReg (t : Thread) (i : BitVec 3) (w : BitVec 128) (j : BitVec 3) : (t.setWindow i w).vecReg j = t.vecReg j := rfl
@[simp] theorem Thread.setWindow_maskReg (t : Thread) (i : BitVec 3) (w : BitVec 128) (j : BitVec 3) : (t.setWindow i w).maskReg j = t.maskReg j := rfl
@[simp] theorem Thread.setWindow_marked (t : Thread) (i : BitVec 3) (w : BitVec 128) (j : BitVec 4) : (t.setWindow i w).marked j = t.marked j := rfl
@[simp] theorem Thread.setVec_reg (t : Thread) (i : BitVec 3) (x : VecReg) (j : BitVec 4) : (t.setVec i x).reg j = t.reg j := rfl
@[simp] theorem Thread.setVec_extReg (t : Thread) (i : BitVec 3) (x : VecReg) (j : BitVec 3) : (t.setVec i x).extReg j = t.extReg j := rfl
@[simp] theorem Thread.setVec_window_ (t : Thread) (i : BitVec 3) (x : VecReg) (j : BitVec 3) : (t.setVec i x).window_ j = t.window_ j := rfl
@[simp] theorem Thread.setVec_maskReg (t : Thread) (i : BitVec 3) (x : VecReg) (j : BitVec 3) : (t.setVec i x).maskReg j = t.maskReg j := rfl
@[simp] theorem Thread.setVec_marked (t : Thread) (i : BitVec 3) (x : VecReg) (j : BitVec 4) : (t.setVec i x).marked j = t.marked j := rfl
@[simp] theorem Thread.next_reg (t : Thread) (n : Nat) (j : BitVec 4) : (t.next n).reg j = t.reg j := rfl
@[simp] theorem Thread.next_extReg (t : Thread) (n : Nat) (j : BitVec 3) : (t.next n).extReg j = t.extReg j := rfl
@[simp] theorem Thread.next_vecReg (t : Thread) (n : Nat) (j : BitVec 3) : (t.next n).vecReg j = t.vecReg j := rfl
@[simp] theorem Thread.next_window_ (t : Thread) (n : Nat) (j : BitVec 3) : (t.next n).window_ j = t.window_ j := rfl
@[simp] theorem Thread.next_maskReg (t : Thread) (n : Nat) (j : BitVec 3) : (t.next n).maskReg j = t.maskReg j := rfl
@[simp] theorem Thread.next_marked (t : Thread) (n : Nat) (j : BitVec 4) : (t.next n).marked j = t.marked j := rfl
@[simp] theorem Thread.jump_reg (t : Thread) (a : Word) (j : BitVec 4) : (t.jump a).reg j = t.reg j := rfl
@[simp] theorem Thread.jump_extReg (t : Thread) (a : Word) (j : BitVec 3) : (t.jump a).extReg j = t.extReg j := rfl
@[simp] theorem Thread.jump_vecReg (t : Thread) (a : Word) (j : BitVec 3) : (t.jump a).vecReg j = t.vecReg j := rfl
@[simp] theorem Thread.jump_window_ (t : Thread) (a : Word) (j : BitVec 3) : (t.jump a).window_ j = t.window_ j := rfl
@[simp] theorem Thread.jump_maskReg (t : Thread) (a : Word) (j : BitVec 3) : (t.jump a).maskReg j = t.maskReg j := rfl
@[simp] theorem Thread.jump_marked (t : Thread) (a : Word) (j : BitVec 4) : (t.jump a).marked j = t.marked j := rfl
@[simp] theorem Thread.accrue_reg (t : Thread) (f : Flags) (j : BitVec 4) : (t.accrue f).reg j = t.reg j := rfl
@[simp] theorem Thread.accrue_extReg (t : Thread) (f : Flags) (j : BitVec 3) : (t.accrue f).extReg j = t.extReg j := rfl
@[simp] theorem Thread.accrue_vecReg (t : Thread) (f : Flags) (j : BitVec 3) : (t.accrue f).vecReg j = t.vecReg j := rfl
@[simp] theorem Thread.accrue_window_ (t : Thread) (f : Flags) (j : BitVec 3) : (t.accrue f).window_ j = t.window_ j := rfl
@[simp] theorem Thread.accrue_maskReg (t : Thread) (f : Flags) (j : BitVec 3) : (t.accrue f).maskReg j = t.maskReg j := rfl
@[simp] theorem Thread.accrue_marked (t : Thread) (f : Flags) (j : BitVec 4) : (t.accrue f).marked j = t.marked j := rfl
@[simp] theorem Thread.enterTrap_reg (t : Thread) (c : Cause) (p : Option Word) (e v : Word) (j : BitVec 4) : (t.enterTrap c p e v).reg j = t.reg j := rfl
@[simp] theorem Thread.enterTrap_extReg (t : Thread) (c : Cause) (p : Option Word) (e v : Word) (j : BitVec 3) : (t.enterTrap c p e v).extReg j = t.extReg j := rfl
@[simp] theorem Thread.enterTrap_vecReg (t : Thread) (c : Cause) (p : Option Word) (e v : Word) (j : BitVec 3) : (t.enterTrap c p e v).vecReg j = t.vecReg j := rfl
@[simp] theorem Thread.enterTrap_window_ (t : Thread) (c : Cause) (p : Option Word) (e v : Word) (j : BitVec 3) : (t.enterTrap c p e v).window_ j = t.window_ j := rfl
@[simp] theorem Thread.enterTrap_maskReg (t : Thread) (c : Cause) (p : Option Word) (e v : Word) (j : BitVec 3) : (t.enterTrap c p e v).maskReg j = t.maskReg j := rfl
@[simp] theorem Thread.enterTrap_marked (t : Thread) (c : Cause) (p : Option Word) (e v : Word) (j : BitVec 4) : (t.enterTrap c p e v).marked j = t.marked j := rfl

end Sys2Proof.Machine
end

