-- ==== Sys2Proof/Laws/Op.lean ====
section
/-! SUPPORT.
How operations compute: sequencing, the named operations on the current thread, and the frame of checks round an
instruction's body.
-/

namespace Sys2Proof.Machine

/-! ## Sequencing -/

theorem Op.bind_apply {α β : Type} (x : Op α) (f : α → Op β) (s : State) :
    (x >>= f) s = match x s with
      | .ok a s' => f a s'
      | .error e s' => .error e s' := by
  show EStateM.bind x f s = _
  unfold EStateM.bind
  cases x s <;> rfl

theorem Op.bind_ok {α β : Type} {x : Op α} {f : α → Op β} {s s' : State} {a : α} (h : x s = .ok a s') : (x >>= f) s = f a s' := by
  rw [Op.bind_apply, h]

theorem Op.bind_error {α β : Type} {x : Op α} {f : α → Op β} {s s' : State} {e : Stop} (h : x s = .error e s') :
    (x >>= f) s = .error e s' := by
  rw [Op.bind_apply, h]

@[simp] theorem Op.pure_apply {α : Type} (a : α) (s : State) : (pure a : Op α) s = .ok a s := rfl
@[simp] theorem Op.get_apply (s : State) : (get : Op State) s = .ok s s := rfl
@[simp] theorem Op.set_apply (x s : State) : (set x : Op PUnit) s = .ok ⟨⟩ x := rfl
@[simp] theorem Op.modify_apply (f : State → State) (s : State) : (modify f : Op PUnit) s = .ok ⟨⟩ (f s) := rfl
@[simp] theorem Op.throw_apply {α : Type} (e : Stop) (s : State) : (throw e : Op α) s = .error e s := rfl

@[simp] theorem Op.bind_pure {α β : Type} (a : α) (f : α → Op β) (s : State) : (pure a >>= f) s = f a s := rfl
@[simp] theorem Op.bind_get {β : Type} (f : State → Op β) (s : State) : (get >>= f) s = f s s := rfl
@[simp] theorem Op.bind_set {β : Type} (x : State) (f : PUnit → Op β) (s : State) : ((set x : Op PUnit) >>= f) s = f ⟨⟩ x := rfl
@[simp] theorem Op.bind_modify {β : Type} (g : State → State) (f : PUnit → Op β) (s : State) :
    ((modify g : Op PUnit) >>= f) s = f ⟨⟩ (g s) := rfl
@[simp] theorem Op.bind_throw {α β : Type} (e : Stop) (f : α → Op β) (s : State) : ((throw e : Op α) >>= f) s = .error e s := rfl

@[simp] theorem trap_apply {α : Type} (c : Cause) (v : Word) (s : State) : (trap c v : Op α) s = .error (.trap c v none false) s := rfl
@[simp] theorem trapKeeping_apply {α : Type} (c : Cause) (v : Word) (s : State) :
    (trapKeeping c v : Op α) s = .error (.trap c v none true) s := rfl
@[simp] theorem waitFor_apply {α : Type} (w : Wait) (s : State) : (waitFor w : Op α) s = .error (.wait w false) s := rfl
@[simp] theorem waitKeeping_apply {α : Type} (w : Wait) (s : State) : (waitKeeping w : Op α) s = .error (.wait w true) s := rfl
@[simp] theorem bind_trap {α β : Type} (c : Cause) (v : Word) (f : α → Op β) (s : State) :
    ((trap c v : Op α) >>= f) s = .error (.trap c v none false) s := rfl
@[simp] theorem bind_trapKeeping {α β : Type} (c : Cause) (v : Word) (f : α → Op β) (s : State) :
    ((trapKeeping c v : Op α) >>= f) s = .error (.trap c v none true) s := rfl
@[simp] theorem bind_waitFor {α β : Type} (w : Wait) (f : α → Op β) (s : State) :
    ((waitFor w : Op α) >>= f) s = .error (.wait w false) s := rfl
@[simp] theorem bind_waitKeeping {α β : Type} (w : Wait) (f : α → Op β) (s : State) :
    ((waitKeeping w : Op α) >>= f) s = .error (.wait w true) s := rfl

theorem require_true (c : Cause) (v : Word) : require true c v = pure () := rfl
theorem require_false (c : Cause) (v : Word) : require false c v = trap c v := rfl

/-! ## The current thread -/

@[simp] theorem bind_self {β : Type} (f : Nat → Op β) (s : State) : (self >>= f) s = f s.cur s := rfl
@[simp] theorem bind_me {β : Type} (f : Thread → Op β) (s : State) : (me >>= f) s = f (s.thread s.cur) s := rfl
@[simp] theorem bind_modMe {β : Type} (g : Thread → Thread) (f : Unit → Op β) (s : State) :
    (modMe g >>= f) s = f () (s.setThread s.cur (g (s.thread s.cur))) := rfl
@[simp] theorem bind_myCore {β : Type} (f : Core → Op β) (s : State) : (myCore >>= f) s = f (s.core (coreOf s.cur)) s := rfl
@[simp] theorem bind_modCore {β : Type} (g : Core → Core) (f : Unit → Op β) (s : State) :
    (modCore g >>= f) s = f () (s.setCore (coreOf s.cur) (g (s.core (coreOf s.cur)))) := rfl
@[simp] theorem bind_rs {β : Type} (i : BitVec 4) (f : Word → Op β) (s : State) : (rs i >>= f) s = f ((s.thread s.cur).reg i).val s := rfl
@[simp] theorem bind_wr {β : Type} (i : BitVec 4) (x : Word) (f : Unit → Op β) (s : State) :
    (wr i x >>= f) s = f () (s.setThread s.cur ((s.thread s.cur).setReg i (Reg.of x))) := rfl
@[simp] theorem bind_wrReg {β : Type} (i : BitVec 4) (r : Reg) (f : Unit → Op β) (s : State) :
    (wrReg i r >>= f) s = f () (s.setThread s.cur ((s.thread s.cur).setReg i r)) := rfl
@[simp] theorem self_apply (s : State) : self s = .ok s.cur s := rfl
@[simp] theorem me_apply (s : State) : me s = .ok (s.thread s.cur) s := rfl
@[simp] theorem modMe_apply (g : Thread → Thread) (s : State) : modMe g s = .ok () (s.setThread s.cur (g (s.thread s.cur))) := rfl
@[simp] theorem advance_apply (n : Nat) (s : State) : advance n s = .ok () (s.setThread s.cur ((s.thread s.cur).next n)) := rfl
@[simp] theorem jump_apply (a : Word) (s : State) : jump a s = .ok () (s.setThread s.cur ((s.thread s.cur).jump a)) := rfl
@[simp] theorem bind_advance {β : Type} (n : Nat) (f : Unit → Op β) (s : State) :
    (advance n >>= f) s = f () (s.setThread s.cur ((s.thread s.cur).next n)) := rfl

/-- A register used in the sense of R138 with a sound residue gives its value. -/
theorem bind_rsUse {β : Type} {i : BitVec 4} {s : State} (h : ((s.thread s.cur).reg i).res = residue ((s.thread s.cur).reg i).val)
    (f : Word → Op β) : (rsUse i >>= f) s = f ((s.thread s.cur).reg i).val s := by
  have q : rsUse i s = .ok ((s.thread s.cur).reg i).val s := by
    unfold rsUse
    rw [bind_me]
    simp only [h, beq_self_eq_true, require_true, Op.bind_pure, Op.pure_apply]
  exact Op.bind_ok q

/-- With an unsound one it traps with RESIDUE and the register's number (R138). -/
theorem bind_rsUse_bad {β : Type} {i : BitVec 4} {s : State} (h : ((s.thread s.cur).reg i).res ≠ residue ((s.thread s.cur).reg i).val)
    (f : Word → Op β) : (rsUse i >>= f) s = .error (.trap .residue (BitVec.ofNat 64 i.toNat) none false) s := by
  have e : (((s.thread s.cur).reg i).res == residue ((s.thread s.cur).reg i).val) = false := by simpa using h
  have q : rsUse i s = .error (.trap .residue (BitVec.ofNat 64 i.toNat) none false) s := by
    unfold rsUse
    rw [bind_me]
    simp only [e, require_false, bind_trap]
  exact Op.bind_error q

/-! ## The frame of an instruction -/

@[simp] theorem State.counted_thread (s : State) (f : Family) (i : Nat) : (s.counted f).thread i = s.thread i := by
  unfold State.counted
  split
  · simp
  · split <;> simp

@[simp] theorem State.counted_cur (s : State) (f : Family) : (s.counted f).cur = s.cur := by
  unfold State.counted
  split
  · simp
  · split <;> simp

/-- An instruction whose checks hold runs its body in the state with its event counted. -/
theorem issue_apply {s : State} {f : Family} {named : List (BitVec 4)} (h : s.Issues f named) (body priv : Op Unit) (hp : priv s = .ok () s) :
    issue f named body priv s = body (s.counted f) := by
  have hr : (s.thread s.cur).remote = false ∨ f.inRemote = true := by
    cases e : (s.thread s.cur).remote
    · exact .inl rfl
    · exact .inr (h.subset e)
  have hm : (named.any (s.thread s.cur).marked) = false := by
    rw [List.any_eq_false]
    intro i hi
    simpa [State.now] using h.unmarked i hi
  have hu := h.unit
  unfold issue
  rw [bind_self, hu, require_true, Op.bind_pure, bind_me]
  have hb : ((s.thread s.cur).remote && !f.inRemote) = false := by
    rcases hr with e | e <;> simp [e]
  simp only [hb, Op.bind_ok hp, hm, Bool.false_eq_true, if_false, Op.bind_modify]
  rfl

theorem run_issue_priv {s : State} {f : Family} {named : List (BitVec 4)} (h : s.Issues f named) (body priv : Op Unit) (hp : priv s = .ok () s) :
    run (issue f named body priv) s = .next (s.finish (body (s.counted f))) := by
  rw [run, issue_apply h body priv hp]

theorem run_issue {s : State} {f : Family} {named : List (BitVec 4)} (h : s.Issues f named) (body : Op Unit) :
    run (issue f named body) s = .next (s.finish (body (s.counted f))) :=
  run_issue_priv h body _ rfl

@[simp] theorem finish_ok (s s' : State) (a : Unit) : s.finish (.ok a s') = s' := rfl

/-- A trap of a thread that enters its handler, for a cause that neither ends work nor is an error event (R332). -/
theorem finish_trap {s s' : State} {c : Cause} {v : Word} (h : s.Handles) (he : c.ending = false) (hr : c ≠ .residue) :
    s.finish (.error (.trap c v none false) s') = s.trapped c v := by
  have e : s.causeEvent s.cur c v = s := by
    unfold State.causeEvent
    split
    · exact absurd rfl hr
    · rfl
  have ho : (s.thread s.cur).callee = none := h.ordinary
  have hf : (s.thread s.cur).trapm = false := h.free
  simp only [State.finish, Bool.false_eq_true, if_false, State.takeCause, e, ho, he, hf]
  rfl

end Sys2Proof.Machine
end

