-- ==== Sys2Proof/Laws/Access.lean ====
section
/-! SUPPORT.
What the operations of an access do: the window check, the way from an effective address to its target, and the read and
the write of a unit's tile memory and of memory that nothing holds up.
-/

namespace Sys2Proof.Machine

/-! ## Where an access goes -/

/-- An address that the windows allow. -/
theorem windowCheck_ok {s : State} {ea : Word} {n : Nat} {rights : List Right} {p : Space}
    (h : checkIn (s.thread s.cur).win ea n rights = .ok p) : windowCheck ea n rights s = .ok p s := by
  unfold windowCheck
  rw [bind_me, h]
  rfl

/-- An address that they do not allow traps with the cause of the check (R115). -/
theorem windowCheck_error {s : State} {ea : Word} {n : Nat} {rights : List Right} {c : Cause} {v : Word}
    (h : checkIn (s.thread s.cur).win ea n rights = .error (c, v)) : windowCheck ea n rights s = .error (.trap c v none false) s := by
  unfold windowCheck
  rw [bind_me, h]
  rfl

theorem locate_error {s : State} {ea : Word} {n : Nat} {rights : List Right} {c : Cause} {v : Word} {cf : Bool}
    (h : checkIn s.now.win ea n rights = .error (c, v)) : locate ea n rights cf s = .error (.trap c v none false) s := by
  unfold locate
  exact Op.bind_error (windowCheck_error h)

/-- An on-chip address that names no block traps with WINDOW (R22). -/
theorem locate_noBlock {s : State} {ea : Word} {n a : Nat} {rights : List Right} {cf : Bool} (h : checkIn s.now.win ea n rights = .ok (.chip a))
    (b : chipBlock a = none) : locate ea n rights cf s = .error (.trap .window ea none false) s := by
  unfold locate
  rw [Op.bind_ok (windowCheck_ok h), bind_self]
  simp only [Op.bind_get, b]
  rfl

/-- An access to a tile memory or a vent core's local memory reaches it, and changes nothing on the way. -/
theorem locate_tile {s : State} {ea : Word} {n u off a : Nat} {rights : List Right} {cf : Bool} (h : s.OnTile ea n rights u off a) :
    locate ea n rights cf s = .ok (.tile u off a) s := by
  have c : s.confined (s.thread s.cur) s.cur (.tile u off a) = true := by
    unfold State.confined
    rcases h.near with e | e
    · have e' : (s.thread s.cur).callee = none := e
      rw [e']
    · split
      · rfl
      · dsimp only
        cases v : isVent s.cur <;> simpa [v] using e
  unfold locate
  rw [Op.bind_ok (windowCheck_ok h.window), bind_self]
  simp only [Op.bind_get, h.block, c, Bool.not_true, Bool.and_false, Bool.false_eq_true, if_false, Target.unit, h.alive, Target.writableBy,
    Target.readableBy, require_true, ite_self, Op.bind_pure, Op.pure_apply]

/-- An access to a page that the pager holds reaches its key: the held translation becomes the latest used one, and the
line's home is fixed where the leaf leaves that to the first access (R305, R21). -/
theorem locate_page {s : State} {ea leaf : Word} {n k : Nat} {rights : List Right} {cf : Bool} (h : s.OnPage ea n rights leaf k) :
    ∃ g, locate ea n rights cf s = .ok (.mem leaf k false) ((s.setPager (pagerOf s.cur) g).touch s.cur leaf k) := by
  obtain ⟨va, slot, x, g, w, r, l, j⟩ := h.translated
  refine ⟨g, ?_⟩
  have r' : (s.pager (pagerOf s.cur)).rootFor (s.thread s.cur).epoch = some slot := r
  have l' : (s.pager (pagerOf s.cur)).look (s.thread s.cur).epoch va = some (x, g) := l
  have j' : s.judge (s.thread s.cur).epoch x.leaf 0 va rights x.mixed = .ok leaf k false := j
  have q : translateOp ea va rights s = .ok (leaf, k, false) (s.setPager (pagerOf s.cur) g) := by
    unfold translateOp
    simp only [Op.bind_get, r', l', j', Op.bind_modify, Op.pure_apply]
  have pr : (s.setPager (pagerOf s.cur) g).present k = true := by
    rw [← h.memory]
    unfold State.setPager
    split <;> rfl
  have e : ((s.setPager (pagerOf s.cur) g).thread s.cur).callee = none := by
    rw [← h.ordinary]
    unfold State.setPager
    split <;> rfl
  have c : (s.setPager (pagerOf s.cur) g).confined ((s.setPager (pagerOf s.cur) g).thread s.cur) s.cur (.mem leaf k false) = true := by
    unfold State.confined
    rw [e]
  unfold locate
  rw [Op.bind_ok (windowCheck_ok w), bind_self]
  dsimp only
  rw [Op.bind_ok q]
  simp only [Op.bind_get, pr, c, Bool.not_true, Bool.and_false, Bool.false_eq_true, if_false, Op.bind_modify, Op.pure_apply]

/-! ## Tile memory -/

/-- Storage on the chip that no self-test holds is not waited for (R354). -/
theorem awaitTest_apply {s : State} {place : Nat → Place} {off n : Nat}
    (h : (s.underTest fun p => (dwordsOf off n).any fun d => p == place d) = false) : awaitTest place off n s = .ok () s := by
  unfold awaitTest
  simp only [Op.bind_get, h, Bool.false_eq_true, if_false, Op.pure_apply]

/-- A read of sound tile memory gives its bytes and changes nothing. -/
theorem readTarget_tile {s : State} {u off a n : Nat} (ea : Word) (t : (s.underTest fun p => (dwordsOf off n).any fun d => p == .tile u d) = false)
    (h : s.poisonedAt (.tile u) off n = false) : (readTarget ea n (.tile u off a)) s = .ok ((s.core u).tile.readN off n) s := by
  unfold readTarget
  dsimp only
  rw [Op.bind_ok (awaitTest_apply t)]
  simp only [Op.bind_get, h, Bool.false_eq_true, if_false, Op.pure_apply]

/-- A read of a poisoned dword traps (R353). -/
theorem readTarget_tile_poisoned {s : State} {u off a n : Nat} (ea : Word)
    (t : (s.underTest fun p => (dwordsOf off n).any fun d => p == .tile u d) = false) (h : s.poisonedAt (.tile u) off n = true) :
    (readTarget ea n (.tile u off a)) s = .error (.trap .poison ea none false) s := by
  unfold readTarget
  dsimp only
  rw [Op.bind_ok (awaitTest_apply t)]
  simp only [Op.bind_get, h, if_true, bind_trap]

/-- A write: monitors fire, dwords written whole lose their poison, and the bytes are there. -/
theorem writeTarget_tile {s : State} (ea : Word) {bs : List Byte} {u off : Nat} (a : Nat)
    (t : (s.underTest fun p => (dwordsOf off bs.length).any fun d => p == .tile u d) = false) :
    (writeTarget ea bs (.tile u off a)) s = .ok ()
      (let t := (s.fireMonitors s.cur (chipKey a) bs.length).unpoison (.tile u) off bs.length
       t.setCore u { t.core u with tile := (t.core u).tile.writeN off bs }) := by
  unfold writeTarget
  dsimp only
  rw [Op.bind_ok (awaitTest_apply t)]
  rfl

/-! ## Memory that nothing holds up -/

theorem plain_snoopFor {s : State} {leaf : Word} {k n : Nat} (h : s.Plain leaf k n) (write : Bool) : s.snoopFor leaf k n write = none := by
  have q := h.unsnooped
  unfold State.snoopFor at *
  split
  · rename_i c
    rw [if_pos c] at q
    rw [List.find?_eq_none] at *
    intro l hl
    have z := q l hl
    simp only [Bool.true_or, Bool.and_true] at z
    simp only [z, Bool.false_and, Bool.not_eq_true]
  · rfl

theorem plain_unsealAt {s : State} {leaf : Word} {k n : Nat} (h : s.Plain leaf k n) : s.unsealAt k n = s := by
  have q := h.unsealed
  unfold State.sealsAt at q
  unfold State.unsealAt
  have e : s.sealed.filter (fun r => !r.touches k n) = s.sealed := by
    rw [List.filter_eq_self]
    intro r hr
    simp only [Bool.not_eq_true', ← Bool.not_eq_true]
    exact List.filter_eq_nil_iff.1 q r hr
  rw [e]

/-- Nothing waits at the home. -/
theorem homeWaits_plain {s : State} {leaf : Word} {k n : Nat} (h : s.Plain leaf k n) (write : Bool) :
    homeWaits leaf k n write s = .ok () s := by
  have b : s.sealBusy k n = false := by
    unfold State.sealBusy
    rw [h.unsealed]
    rfl
  unfold homeWaits
  simp only [Op.bind_get, h.settled, h.unleased, h.untested, Bool.or_false, Bool.false_eq_true, if_false, plain_snoopFor h write, h.unarmed,
    Bool.and_false, b, Op.pure_apply]

/-- The reply has come, so that nothing is asked for. -/
theorem awaitHome_plain {s : State} {leaf : Word} {k n : Nat} (h : s.Plain leaf k n) : awaitHome leaf k s = .ok () s := by
  have a : (s.thread s.cur).answered = true := h.served
  unfold awaitHome
  rw [bind_me]
  simp only [a, if_true, Op.pure_apply]

/-- There is nothing to unseal. -/
theorem unsealing_plain {s : State} {leaf : Word} {k n : Nat} (h : s.Plain leaf k n) : unsealing k n s = .ok () s := by
  unfold unsealing
  rw [Op.modify_apply]
  unfold State.unsealFor
  simp only [h.unsealed, List.isEmpty_nil, if_true]

/-- No entry of a merge log names the bytes: the access is all there is (R209). -/
theorem breaching_plain {α : Type} {s : State} {leaf : Word} {k n : Nat} (h : s.Plain leaf k n) (x : Op α) : breaching k n x s = x s := by
  unfold breaching
  simp only [Op.bind_get, h.unlogged, Op.bind_modify]
  rw [Op.bind_apply]
  show (match x s with | .ok a s' => _ | .error e s' => _) = x s
  cases x s <;> rfl

theorem mem_wordsOf {k n i : Nat} (h : i < n) : (k + i) / 4 ∈ wordsOf k n := by
  unfold wordsOf
  rw [List.mem_map]
  exact ⟨(k + i) / 4 - k / 4, List.mem_range.2 (by omega), by omega⟩

/-- Loading ahead changes nothing of a core but what it has ahead. -/
theorem mapAhead_core (s : State) (f : Nat → Tab (BitVec 32 × Bool) → Tab (BitVec 32 × Bool)) (c : Nat) :
    ∃ a, (s.mapAhead f).core c = { s.core c with ahead := a } := by
  simp only [State.core, State.mapAhead]
  induction s.cores with
  | nil => exact ⟨[], rfl⟩
  | cons e l ih =>
    simp only [List.map_cons, Tab.get]
    split
    · exact ⟨_, rfl⟩
    · exact ih

/-- What has been loaded ahead of other bytes does not matter. -/
theorem withAhead_none {s : State} {c k : Nat} {bs : List Byte}
    (h : ∀ w ∈ wordsOf k bs.length, Tab.find (s.core c).ahead w = none) : s.withAhead c k bs = bs := by
  unfold State.withAhead
  split
  · rfl
  · refine List.ext_getElem (by simp) fun i _ q => ?_
    simp only [List.getElem_mapIdx, h _ (mem_wordsOf q)]

theorem homeBytes_length (s : State) : ∀ n k, (s.homeBytes k n).length = n
  | 0, _ => rfl
  | n + 1, k => by
    unfold State.homeBytes
    simp [homeBytes_length s n]

theorem loadL1_length (s : State) (a : Agent) (c : Nat) (leaf : Word) (k n : Nat) : (s.loadL1 a c leaf k n).1.length = n := by
  unfold State.loadL1
  split
  · exact homeBytes_length s n k
  · simp [State.l1Bytes]

/-- Bytes that are sound at their home are sound for every thread. -/
theorem notPoisoned {s : State} {leaf : Word} {k n : Nat} (h : s.Plain leaf k n) : s.poisonedTo s.cur k n = false := by
  have q := h.sound
  unfold State.poisoned at q
  unfold State.poisonedTo
  rw [List.any_eq_false] at *
  intro p hp
  have z := q p hp
  cases p <;> simp_all

/-- What a read of such bytes gives is what it reads: nothing of them has been loaded ahead. -/
theorem reads_plain {s : State} {leaf : Word} {k n : Nat} (h : s.Plain leaf k n) :
    (let r := if isCompute s.cur then s.loadL1 ((s.thread s.cur).agent s.cur) (coreOf s.cur) leaf k n
        else s.readHome ((s.thread s.cur).agent s.cur) k n
     s.withAhead (coreOf s.cur) k r.1) =
    (if isCompute s.cur then s.loadL1 ((s.thread s.cur).agent s.cur) (coreOf s.cur) leaf k n
        else s.readHome ((s.thread s.cur).agent s.cur) k n).1 := by
  refine withAhead_none fun w hw => h.present_ w ?_
  split at hw
  · rwa [loadL1_length] at hw
  · rwa [show (s.readHome ((s.thread s.cur).agent s.cur) k n).1.length = n from homeBytes_length s n k] at hw

/-- A read is the L1's for a compute thread, and the home's for the others. -/
theorem readTarget_plain {s : State} {leaf : Word} {k n : Nat} (ea : Word) (h : s.Plain leaf k n) :
    (readTarget ea n (.mem leaf k false)) s =
      (let r := if isCompute s.cur then s.loadL1 ((s.thread s.cur).agent s.cur) (coreOf s.cur) leaf k n
        else s.readHome ((s.thread s.cur).agent s.cur) k n
       .ok r.1 r.2) := by
  have v : (areaOf k == Area.view) = false := by
    rcases h.tier with e | e <;> rw [e] <;> rfl
  have o : (packageOf k != s.package) = false := by rw [h.own, bne_self_eq_false]
  unfold readTarget
  dsimp only
  simp only [Op.bind_get]
  split <;> simp only [Op.bind_ok (awaitHome_plain h), v, Bool.false_eq_true, if_false, Op.bind_ok (homeWaits_plain h false),
    Op.bind_get, notPoisoned h, breaching_plain h, o, Op.bind_set, Op.pure_apply, Option.isNone_none, if_true, reads_plain h]

/-- A write is the L1's for a compute thread, and the home's for the others. -/
theorem writeTarget_plain {s : State} {leaf : Word} {k : Nat} (ea : Word) {bs : List Byte} (h : s.Plain leaf k bs.length) :
    (writeTarget ea bs (.mem leaf k false)) s = .ok ()
      (if isCompute s.cur then s.storeL1 ((s.thread s.cur).agent s.cur) (coreOf s.cur) leaf k bs
       else s.writeHome ((s.thread s.cur).agent s.cur) (grainBytes leaf) k bs) := by
  have v : (areaOf k == Area.view) = false := by
    rcases h.tier with e | e <;> rw [e] <;> rfl
  have o : (packageOf k != s.package) = false := by rw [h.own, bne_self_eq_false]
  unfold writeTarget
  simp only [v, Bool.false_eq_true, if_false, Op.bind_get]
  split <;> simp only [Op.bind_ok (awaitHome_plain h), Op.bind_pure, Op.bind_ok (homeWaits_plain h true),
    Op.bind_ok (unsealing_plain h), breaching_plain h, Op.bind_get, Op.modify_apply, o, Bool.false_eq_true, if_false]

end Sys2Proof.Machine
end

