-- ==== Sys2Proof/Laws/Memory.lean ====
section
/-! SUPPORT.
Laws of tables and of the canonical byte memory: a write keeps the form, reads back, and leaves every other place alone.
-/

namespace Sys2Proof.Machine

/-! ## Tables -/

theorem Tab.get_put {α : Type} (d : α) (a : α) (k j : Nat) : ∀ t : Tab α, t.Pairwise (fun x y => x.1 < y.1) →
    Tab.get d (Tab.put t k a) j = if j = k then a else Tab.get d t j
  | [], _ => by simp only [Tab.put, Tab.get, eq_comm]
  | (i, b) :: t, h => by
    have rest := Tab.get_put d a k j t (List.pairwise_cons.1 h).2
    have above : ∀ x ∈ t, i < x.1 := (List.pairwise_cons.1 h).1
    unfold Tab.put
    split
    · simp only [Tab.get]
      by_cases e : j = k
      · simp [e]
      · simp [e, Ne.symm e]
    · split
      · rename_i e
        subst e
        simp only [Tab.get]
        by_cases e : j = k
        · simp [e]
        · simp [e, Ne.symm e]
      · simp only [Tab.get, rest]
        by_cases e : j = k
        · subst e
          have : ¬ i = j := by omega
          simp [this]
        · simp [e]

theorem Tab.mem_put {α : Type} {x : Nat × α} {k : Nat} {a : α} : ∀ {t : Tab α}, x ∈ Tab.put t k a → x = (k, a) ∨ x ∈ t
  | [], h => .inl (by simpa [Tab.put] using h)
  | (i, b) :: t, h => by
    unfold Tab.put at h
    split at h
    · rcases List.mem_cons.1 h with e | e
      · exact .inl e
      · exact .inr e
    · split at h
      · rcases List.mem_cons.1 h with e | e
        · exact .inl e
        · exact .inr (List.mem_cons_of_mem _ e)
      · rcases List.mem_cons.1 h with e | e
        · exact .inr (e ▸ List.mem_cons_self ..)
        · exact (Tab.mem_put e).imp id (List.mem_cons_of_mem _)

/-- An entry put keeps the keys rising. -/
theorem Tab.put_rises {α : Type} (k : Nat) (a : α) : ∀ t : Tab α, t.Pairwise (fun x y => x.1 < y.1) → (Tab.put t k a).Pairwise (fun x y => x.1 < y.1)
  | [], _ => List.pairwise_singleton ..
  | (i, b) :: t, h => by
    have ⟨above, rest⟩ := List.pairwise_cons.1 h
    unfold Tab.put
    split
    · rename_i lt
      refine List.pairwise_cons.2 ⟨fun x hx => ?_, h⟩
      rcases List.mem_cons.1 hx with e | e
      · simpa [e] using lt
      · exact Nat.lt_trans lt (above x e)
    · split
      · rename_i e
        subst e
        exact List.pairwise_cons.2 ⟨above, rest⟩
      · refine List.pairwise_cons.2 ⟨fun x hx => ?_, Tab.put_rises k a t rest⟩
        rcases Tab.mem_put hx with e | e
        · simp only [e]; omega
        · exact above x e

theorem Tab.mem_drop {α : Type} {x : Nat × α} {k : Nat} : ∀ {t : Tab α}, x ∈ Tab.drop t k → x ∈ t
  | [], h => h
  | (i, b) :: t, h => by
    unfold Tab.drop at h
    split at h
    · exact List.mem_cons_of_mem _ h
    · rcases List.mem_cons.1 h with e | e
      · exact e ▸ List.mem_cons_self ..
      · exact List.mem_cons_of_mem _ (Tab.mem_drop e)

theorem Tab.drop_rises {α : Type} (k : Nat) : ∀ t : Tab α, t.Pairwise (fun x y => x.1 < y.1) → (Tab.drop t k).Pairwise (fun x y => x.1 < y.1)
  | [], _ => List.Pairwise.nil
  | (i, b) :: t, h => by
    have ⟨above, rest⟩ := List.pairwise_cons.1 h
    unfold Tab.drop
    split
    · exact rest
    · exact List.pairwise_cons.2 ⟨fun x hx => above x (Tab.mem_drop hx), Tab.drop_rises k t rest⟩

/-! ## The canonical byte memory -/

/-- The canonical form, said of the list: addresses rise, and no entry is the background. -/
theorem Memory.wf_iff : ∀ m : Memory, m.wf = true ↔ m.Pairwise (fun x y => x.1 < y.1) ∧ ∀ x ∈ m, x.2 ≠ Memory.background
  | [] => by simp [Memory.wf]
  | [(i, b)] => by simp [Memory.wf]
  | (i, b) :: (j, c) :: t => by
    have rest := Memory.wf_iff ((j, c) :: t)
    simp only [Memory.wf, Bool.and_eq_true, bne_iff_ne, ne_eq, decide_eq_true_eq]
    constructor
    · rintro ⟨hb, lt, h⟩
      have ⟨rises, no⟩ := rest.1 h
      refine ⟨List.pairwise_cons.2 ⟨fun x hx => ?_, rises⟩, fun x hx => ?_⟩
      · rcases List.mem_cons.1 hx with e | e
        · simpa [e] using lt
        · exact Nat.lt_trans lt ((List.pairwise_cons.1 rises).1 x e)
      · rcases List.mem_cons.1 hx with e | e
        · simpa [e] using hb
        · exact no x e
    · rintro ⟨rises, no⟩
      have ⟨above, tail⟩ := List.pairwise_cons.1 rises
      exact ⟨no _ (List.mem_cons_self ..), above _ (List.mem_cons_self ..), rest.2 ⟨tail, fun x hx => no x (List.mem_cons_of_mem _ hx)⟩⟩

theorem Memory.wf_cons {i : Nat} {b : Byte} {t : Memory} :
    Memory.wf ((i, b) :: t) = true ↔ b ≠ Memory.background ∧ (∀ x ∈ t, i < x.1) ∧ Memory.wf t = true := by
  simp only [Memory.wf_iff, List.pairwise_cons, List.mem_cons, forall_eq_or_imp]
  exact ⟨fun ⟨⟨a, b⟩, c, d⟩ => ⟨c, a, b, d⟩, fun ⟨c, a, b, d⟩ => ⟨⟨a, b⟩, c, d⟩⟩

theorem Memory.mem_write {x : Nat × Byte} {a : Nat} {b : Byte} : ∀ {m : Memory}, x ∈ m.write a b → x = (a, b) ∨ x ∈ m
  | [], h => by
    unfold Memory.write at h
    split at h
    · simp at h
    · exact .inl (by simpa using h)
  | (j, c) :: t, h => by
    unfold Memory.write at h
    split at h
    · split at h
      · exact .inr h
      · rcases List.mem_cons.1 h with e | e
        · exact .inl e
        · exact .inr e
    · split at h
      · split at h
        · exact .inr (List.mem_cons_of_mem _ h)
        · rcases List.mem_cons.1 h with e | e
          · exact .inl e
          · exact .inr (List.mem_cons_of_mem _ e)
      · rcases List.mem_cons.1 h with e | e
        · exact .inr (e ▸ List.mem_cons_self ..)
        · exact (Memory.mem_write e).imp id (List.mem_cons_of_mem _)

/-- A write keeps the canonical form. -/
theorem Memory.wf_write (a : Nat) (b : Byte) : ∀ m : Memory, m.wf = true → (m.write a b).wf = true
  | [], _ => by
    unfold Memory.write
    split
    · rfl
    · rename_i h
      simpa [Memory.wf] using h
  | (j, c) :: t, h => by
    have ⟨hc, above, tail⟩ := Memory.wf_cons.1 h
    unfold Memory.write
    split
    · rename_i lt
      split
      · exact h
      · rename_i hb
        refine Memory.wf_cons.2 ⟨hb, fun x hx => ?_, h⟩
        rcases List.mem_cons.1 hx with e | e
        · simpa [e] using lt
        · exact Nat.lt_trans lt (above x e)
    · split
      · rename_i e
        subst e
        split
        · exact tail
        · rename_i hb
          exact Memory.wf_cons.2 ⟨hb, above, tail⟩
      · refine Memory.wf_cons.2 ⟨hc, fun x hx => ?_, Memory.wf_write a b t tail⟩
        rcases Memory.mem_write hx with e | e
        · simp only [e]; omega
        · exact above x e

theorem Memory.wf_writeN : ∀ (bs : List Byte) (a : Nat) (m : Memory), m.wf = true → (m.writeN a bs).wf = true
  | [], _, _, h => h
  | b :: t, a, m, h => Memory.wf_writeN t (a + 1) _ (Memory.wf_write a b m h)

theorem Memory.read_above {a : Nat} : ∀ {m : Memory}, (∀ x ∈ m, a < x.1) → m.read a = Memory.background
  | [], _ => rfl
  | (j, b) :: t, h => by
    have : a < j := h _ (List.mem_cons_self ..)
    unfold Memory.read
    rw [if_neg (by omega), if_pos this]

/-- Reading after a write: the byte written there, and what was there before elsewhere. -/
theorem Memory.read_write (a c : Nat) (b : Byte) : ∀ m : Memory, m.wf = true → (m.write a b).read c = if c = a then b else m.read c
  | [], _ => by
    unfold Memory.write
    by_cases hb : b = Memory.background
    · rw [if_pos hb]
      split
      · exact hb.symm
      · rfl
    · rw [if_neg hb]
      unfold Memory.read
      by_cases e : c = a
      · simp [e]
      · rw [if_neg (Ne.symm e), if_neg e]
        split <;> rfl
  | (j, d) :: t, h => by
    have ⟨_, above, tail⟩ := Memory.wf_cons.1 h
    have rest := Memory.read_write a c b t tail
    unfold Memory.write
    split
    · rename_i lt
      by_cases hb : b = Memory.background
      · rw [if_pos hb]
        split
        · rename_i e
          subst e
          unfold Memory.read
          rw [if_neg (by omega), if_pos lt, hb]
        · rfl
      · rw [if_neg hb]
        conv => lhs; unfold Memory.read
        by_cases e : c = a
        · simp [e]
        · rw [if_neg (Ne.symm e), if_neg e]
          split
          · unfold Memory.read
            rw [if_neg (by omega), if_pos (by omega)]
          · rfl
    · split
      · rename_i e
        subst e
        by_cases hb : b = Memory.background
        · rw [if_pos hb]
          by_cases e : c = a
          · rw [if_pos e, e, hb]
            exact Memory.read_above above
          · rw [if_neg e]
            conv => rhs; unfold Memory.read
            rw [if_neg (Ne.symm e)]
            split
            · exact Memory.read_above fun x hx => Nat.lt_trans (by assumption) (above x hx)
            · rfl
        · rw [if_neg hb]
          unfold Memory.read
          by_cases e : c = a
          · simp [e]
          · rw [if_neg (Ne.symm e), if_neg e, if_neg (Ne.symm e)]
      · conv => lhs; unfold Memory.read
        conv => rhs; rhs; unfold Memory.read
        rw [rest]
        by_cases e : c = a
        · subst e
          rw [if_neg (by omega), if_neg (by omega)]
          simp
        · simp [e]

theorem Memory.read_writeN : ∀ (bs : List Byte) (a c : Nat) (m : Memory), m.wf = true →
    (m.writeN a bs).read c = if a ≤ c ∧ c < a + bs.length then bs.getD (c - a) 0 else m.read c
  | [], a, c, m, _ => by
    rw [if_neg (by simp only [List.length_nil]; omega)]
    rfl
  | b :: t, a, c, m, h => by
    unfold Memory.writeN
    rw [Memory.read_writeN t (a + 1) c _ (Memory.wf_write a b m h), Memory.read_write a c b m h, List.length_cons]
    by_cases e : c = a
    · subst e
      rw [if_neg (by omega), if_pos rfl, if_pos (by omega), Nat.sub_self]
      rfl
    · rw [if_neg e]
      by_cases i : a + 1 ≤ c ∧ c < a + 1 + t.length
      · rw [if_pos i, if_pos (by omega), show c - a = (c - (a + 1)) + 1 by omega]
        rfl
      · rw [if_neg i, if_neg (by omega)]

end Sys2Proof.Machine
end

