-- ==== Sys2Proof/Laws/Canonical.lean ====
section
/-! SUPPORT.
The operations that write a memory keep every memory canonical: the byte memories in their form, and each L1's words in
rising order.  One lemma per operation, in the order of the model's files.
-/

namespace Sys2Proof.Machine

/-! ## The parts of the invariant -/

/-- A core's two memories are canonical and its L1 lists its words in rising order. -/
def Core.Ok (k : Core) : Prop := k.tile.wf = true ∧ k.istore.wf = true ∧ k.l1.Pairwise fun e f => e.1 < f.1

/-- Every core of a table is, and so is one that is not listed. -/
def CoresOk (t : Tab Core) : Prop := ∀ c, (Tab.get Core.initial t c).Ok

theorem State.canonical_iff (s : State) : s.Canonical ↔ s.mem.wf = true ∧ CoresOk s.cores :=
  ⟨fun h => ⟨h.1, fun c => ⟨h.2.1 c, h.2.2.1 c, h.2.2.2 c⟩⟩, fun h => ⟨h.1, fun c => (h.2 c).1, fun c => (h.2 c).2.1, fun c => (h.2 c).2.2⟩⟩

theorem State.Canonical.memory {s : State} (h : s.Canonical) : s.mem.wf = true := h.1
theorem State.Canonical.table {s : State} (h : s.Canonical) : CoresOk s.cores := (s.canonical_iff.1 h).2
theorem State.Canonical.core {s : State} (h : s.Canonical) (c : Nat) : (s.core c).Ok := h.table c

/-- A state whose memory and cores are canonical. -/
theorem State.canonical_of {t : State} (m : t.mem.wf = true) (c : CoresOk t.cores) : t.Canonical := t.canonical_iff.2 ⟨m, c⟩

/-- A state with the memory and the cores of another. -/
theorem State.canonical_same {s t : State} (m : t.mem = s.mem) (c : t.cores = s.cores) (h : s.Canonical) : t.Canonical :=
  State.canonical_of (m ▸ h.memory) (c ▸ h.table)

theorem Core.ok_same {k x : Core} (t : x.tile = k.tile) (i : x.istore = k.istore) (l : x.l1 = k.l1) (h : k.Ok) : x.Ok :=
  ⟨t ▸ h.1, i ▸ h.2.1, l ▸ h.2.2⟩

theorem Core.initial_ok : Core.initial.Ok := ⟨rfl, rfl, List.Pairwise.nil⟩

theorem CoresOk.put {t : Tab Core} (h : CoresOk t) {c : Nat} {k : Core} (hk : k.Ok) : CoresOk (Tab.put t c k) := fun i => by
  by_cases e : i = c
  · rw [e, Tab.get_put_same]
    exact hk
  · rw [Tab.get_put_other _ _ _ e]
    exact h i

theorem CoresOk.map {t : Tab Core} (h : CoresOk t) (f : Nat × Core → Nat × Core) (hf : ∀ y, (f y).1 = y.1 ∧ (y.2.Ok → (f y).2.Ok)) :
    CoresOk (t.map f) := by
  intro c
  have q : Tab.get Core.initial (t.map f) c = Tab.get Core.initial t c ∨ ∃ y, y.2 = Tab.get Core.initial t c ∧ Tab.get Core.initial (t.map f) c = (f y).2 := by
    clear h
    induction t with
    | nil => exact .inl rfl
    | cons y t ih =>
      rw [List.map_cons]
      by_cases e : y.1 = c
      · refine .inr ⟨y, ?_, ?_⟩
        · obtain ⟨j, b⟩ := y
          exact (if_pos e).symm
        · have e' : (f y).1 = c := (hf y).1.trans e
          generalize f y = z at e'
          obtain ⟨j, b⟩ := z
          exact if_pos e'
      · have e' : (f y).1 ≠ c := fun q => e ((hf y).1.symm.trans q)
        have a : ∀ (z : Nat × Core) (u : Tab Core), z.1 ≠ c → Tab.get Core.initial (z :: u) c = Tab.get Core.initial u c :=
          fun z u hz => by
            obtain ⟨j, b⟩ := z
            exact if_neg hz
        rw [a _ _ e, a _ _ e']
        exact ih
  rcases q with q | ⟨y, hy, q⟩
  · rw [q]
    exact h c
  · rw [q]
    exact (hf y).2 (hy ▸ h c)

theorem CoresOk.of_all : ∀ {t : Tab Core}, (∀ y ∈ t, y.2.Ok) → CoresOk t
  | [], _ => fun _ => Core.initial_ok
  | y :: t, h => fun c => by
    obtain ⟨j, b⟩ := y
    by_cases e : j = c
    · have q : Tab.get Core.initial ((j, b) :: t) c = b := if_pos e
      rw [q]
      exact h _ (List.mem_cons_self ..)
    · have q : Tab.get Core.initial ((j, b) :: t) c = Tab.get Core.initial t c := if_neg e
      rw [q]
      exact CoresOk.of_all (fun y hy => h y (List.mem_cons_of_mem _ hy)) c

theorem State.setCore_canonical {s : State} (h : s.Canonical) {c : Nat} {k : Core} (hk : k.Ok) : (s.setCore c k).Canonical :=
  State.canonical_of h.memory (h.table.put hk)

theorem Memory.wf_filter {m : Memory} (h : m.wf = true) (p : Nat × Byte → Bool) : Memory.wf (m.filter p) = true := by
  rw [Memory.wf_iff] at *
  exact ⟨h.1.filter p, fun x hx => h.2 x (List.mem_filter.1 hx).1⟩

theorem rises_map {α : Type} {t : Tab α} (h : t.Pairwise fun e f => e.1 < f.1) (f : Nat × α → Nat × α) (hf : ∀ y, (f y).1 = y.1) :
    List.Pairwise (fun e f => e.1 < f.1) (List.map f t) := by
  rw [List.pairwise_map]
  exact h.imp fun {a b} q => by rw [hf a, hf b]; exact q

/-- Reset's memory has the canonical form. -/
theorem reset_mem_wf : State.reset.mem.wf = true := rfl

/-! ## Sequences -/

theorem foldl_canonical {α : Type} {f : State → α → State} (hf : ∀ s a, s.Canonical → (f s a).Canonical) :
    ∀ (l : List α) {s : State}, s.Canonical → (l.foldl f s).Canonical
  | [], _, h => h
  | a :: l, _, h => foldl_canonical hf l (hf _ a h)

/-! ## What leaves the memories alone -/

theorem setThread_canonical {s : State} (h : s.Canonical) (t : Nat) (x : Thread) : (s.setThread t x).Canonical :=
  State.canonical_same rfl rfl h
theorem fireMonitors_canonical {s : State} (h : s.Canonical) (who k n : Nat) : (s.fireMonitors who k n).Canonical :=
  State.canonical_same rfl rfl h
theorem wake_canonical {s : State} (h : s.Canonical) (p : Nat → Wait → Bool) : (s.wake p).Canonical := State.canonical_same rfl rfl h
theorem observe_canonical {s : State} (h : s.Canonical) (a : Agent) (k n : Nat) : (s.observe a k n).Canonical :=
  State.canonical_same rfl rfl h
theorem clearPoison_canonical {s : State} (h : s.Canonical) (k n : Nat) : (s.clearPoison k n).Canonical := State.canonical_same rfl rfl h
theorem unsealAt_canonical {s : State} (h : s.Canonical) (k n : Nat) : (s.unsealAt k n).Canonical := State.canonical_same rfl rfl h
theorem endCell_canonical {s : State} (h : s.Canonical) (c : Cell) : (s.endCell c).Canonical := State.canonical_same rfl rfl h
theorem dropAhead_canonical {s : State} (h : s.Canonical) (t k n : Nat) : (s.dropAhead t k n).Canonical := by
  refine State.canonical_of h.memory (h.table.map _ fun y => ?_)
  obtain ⟨c, x⟩ := y
  dsimp only
  split <;> exact ⟨rfl, id⟩
theorem countHome_canonical {s : State} (h : s.Canonical) (k : Nat) : (s.countHome k).Canonical := by
  unfold State.countHome
  split
  · exact State.canonical_same rfl rfl h
  · exact h
theorem readHome_canonical {s : State} (h : s.Canonical) (a : Agent) (k n : Nat) : (s.readHome a k n).2.Canonical :=
  dropAhead_canonical (observe_canonical h a k n) ..

/-! ## The home and the L1s -/

/-- A core's entry for one word of its L1. -/
theorem setL1_canonical {s : State} (h : s.Canonical) (c w : Nat) (x : Option L1Word) : (s.setL1 c w x).Canonical := by
  have q := h.core c
  refine State.setCore_canonical h ⟨q.1, q.2.1, ?_⟩
  cases x with
  | some y => exact Tab.put_rises _ _ _ q.2.2
  | none => exact Tab.drop_rises _ _ q.2.2

/-- Memory written in one run. -/
theorem writeN_canonical {s : State} (h : s.Canonical) (k : Nat) (bs : List Byte) :
    State.Canonical { s with mem := s.mem.writeN k bs } :=
  State.canonical_of (Memory.wf_writeN bs k _ h.memory) h.table

theorem mergeHome_canonical {s : State} (h : s.Canonical) (w : Nat) (x : L1Word) : (s.mergeHome w x).Canonical := by
  unfold State.mergeHome
  split
  · exact h
  · exact writeN_canonical h ..

theorem mergeWords_canonical {s : State} (h : s.Canonical) (ws : List (Nat × L1Word)) : (s.mergeWords ws).Canonical :=
  State.canonical_same (s := ws.foldl (fun s (y : Nat × L1Word) => State.mergeHome s y.1 y.2) s) rfl rfl
    (foldl_canonical (fun _ (y : Nat × L1Word) hs => mergeHome_canonical hs y.1 y.2) ws h)

theorem recallWord_canonical {s : State} (h : s.Canonical) (spare : Option Nat) (w : Nat) : (s.recallWord spare w).Canonical := by
  refine foldl_canonical (fun s e hs => ?_) _ h
  obtain ⟨c, k⟩ := e
  dsimp only
  split
  · exact hs
  split
  · split
    · exact setL1_canonical (mergeHome_canonical hs ..) ..
    · exact hs
  · exact hs

/-- Words recalled one after the other. -/
theorem recallWords_canonical {s : State} (h : s.Canonical) (spare : Option Nat) (l : List Nat) :
    (l.foldl (fun s w => State.recallWord s spare w) s).Canonical :=
  foldl_canonical (fun _ w hs => recallWord_canonical hs spare w) l h

theorem dropCopies_canonical {s : State} (h : s.Canonical) (spare : Option Nat) (w0 n : Nat) : (s.dropCopies spare w0 n).Canonical := by
  refine State.canonical_of h.memory (h.table.map _ fun y => ?_)
  obtain ⟨c, k⟩ := y
  dsimp only
  split
  · exact ⟨rfl, id⟩
  · exact ⟨rfl, fun q => ⟨q.1, q.2.1, q.2.2.filter _⟩⟩

theorem dropHostLines_canonical {s : State} (h : s.Canonical) (k n : Nat) (port : Option Nat) :
    (s.dropHostLines k n port).Canonical := by
  refine foldl_canonical (fun s l hs => ?_) _ h
  split
  · refine State.canonical_of ?_ hs.table
    dsimp only
    split
    · exact Memory.wf_writeN _ _ _ hs.memory
    · exact hs.memory
  · exact hs

theorem writeHome_canonical {s : State} (h : s.Canonical) (a : Agent) (grain k : Nat) (bs : List Byte) :
    (s.writeHome a grain k bs).Canonical := by
  unfold State.writeHome
  refine writeN_canonical (dropAhead_canonical (clearPoison_canonical (fireMonitors_canonical (observe_canonical ?_ ..) ..) ..) ..) ..
  split
  · exact dropHostLines_canonical (dropCopies_canonical (recallWords_canonical h ..) ..) ..
  · exact dropCopies_canonical (recallWords_canonical h ..) ..

theorem fill_canonical (c : Nat) (nc : Bool) : ∀ (n : Nat) {s : State} (w0 : Nat), s.Canonical → (s.fill c w0 nc n).Canonical
  | 0, _, _, h => h
  | n + 1, s, w0, h => by
    unfold State.fill
    refine fill_canonical c nc n _ ?_
    split
    · exact h
    split
    · exact h
    · exact setL1_canonical h ..

theorem evictL1_canonical {s : State} (h : s.Canonical) (c i : Nat) : (s.evictL1 c i).Canonical := by
  unfold State.evictL1
  split
  · exact setL1_canonical (mergeHome_canonical h ..) ..
  · exact h

theorem trimL1_canonical {s : State} (h : s.Canonical) (c : Nat) : (s.trimL1 c).Canonical :=
  foldl_canonical (fun _ i hs => evictL1_canonical hs c i) _ h

theorem settle_canonical {s : State} (h : s.Canonical) (c w t : Nat) : (s.settle c w t).Canonical := by
  unfold State.settle
  split
  · split
    · exact setL1_canonical (mergeHome_canonical h ..) ..
    · exact h
  · exact h

/-- Words settled one after the other. -/
theorem settles_canonical {s : State} (h : s.Canonical) (c t : Nat) (l : List Nat) :
    (l.foldl (fun s w => State.settle s c w t) s).Canonical :=
  foldl_canonical (fun _ w hs => settle_canonical hs c w t) l h

theorem loadL1_canonical {s : State} (h : s.Canonical) (a : Agent) (c : Nat) (leaf : Word) (k n : Nat) :
    (s.loadL1 a c leaf k n).2.Canonical := by
  unfold State.loadL1
  split
  · exact readHome_canonical h ..
  dsimp only
  refine dropAhead_canonical (trimL1_canonical ?_ c) ..
  split
  · exact settles_canonical h ..
  · exact fill_canonical _ _ _ _ (settles_canonical h ..)

theorem grantWord_canonical {s : State} (h : s.Canonical) (a : Agent) (c grain w : Nat) : (s.grantWord a c grain w).Canonical := by
  have g : ∀ x, State.Canonical (State.setL1 (State.fireMonitors
      ((s.recallWord (some c) w).dropCopies (some c) (4 * w / grain * grain / 4) (grain / 4)) a.self (4 * w) 4) c w x) := fun x =>
    setL1_canonical (fireMonitors_canonical (dropCopies_canonical (recallWord_canonical h ..) ..) ..) ..
  unfold State.grantWord
  split
  · exact settle_canonical h ..
  · exact g _

/-- Words granted one after the other. -/
theorem grantWords_canonical {s : State} (h : s.Canonical) (a : Agent) (c grain : Nat) (l : List Nat) :
    (l.foldl (fun s w => State.grantWord s a c grain w) s).Canonical :=
  foldl_canonical (fun _ w hs => grantWord_canonical hs a c grain w) l h

theorem putL1s_canonical (c t : Nat) (nc : Bool) : ∀ (bs : List Byte) {s : State} (k : Nat), s.Canonical → (s.putL1s c t k nc bs).Canonical
  | [], _, _, h => h
  | _ :: l, _, k, h => putL1s_canonical c t nc l (k + 1) (setL1_canonical h ..)

theorem storeL1_canonical {s : State} (h : s.Canonical) (a : Agent) (c : Nat) (leaf : Word) (k : Nat) (bs : List Byte) :
    (s.storeL1 a c leaf k bs).Canonical := by
  replace h := dropAhead_canonical h a.self k bs.length
  unfold State.storeL1
  dsimp only
  split
  · exact writeHome_canonical h ..
  split
  · exact trimL1_canonical (putL1s_canonical _ _ _ _ _ h) _
  · exact trimL1_canonical (putL1s_canonical _ _ _ _ _ (clearPoison_canonical (grantWords_canonical h ..) ..)) _

/-! ## Release, acquire and maintenance -/

theorem releaseL1_canonical {s : State} (h : s.Canonical) (c : Nat) : (s.releaseL1 c).Canonical := by
  have q := h.core c
  refine State.setCore_canonical (mergeWords_canonical h _) ⟨q.1, q.2.1, rises_map q.2.2 _ fun y => ?_⟩
  dsimp only
  split <;> rfl

theorem acquireL1_canonical {s : State} (h : s.Canonical) (c : Nat) : (s.acquireL1 c).Canonical :=
  State.setCore_canonical h ⟨(h.core c).1, (h.core c).2.1, (h.core c).2.2.filter _⟩

theorem dropL1_canonical {s : State} (h : s.Canonical) (c : Nat) : (s.dropL1 c).Canonical :=
  have q := mergeWords_canonical h (s.core c).l1
  State.setCore_canonical q ⟨(q.core c).1, (q.core c).2.1, List.Pairwise.nil⟩

theorem flushNC_canonical {s : State} (h : s.Canonical) (c : Nat) : (s.flushNC c).Canonical :=
  have q := mergeWords_canonical h ((s.core c).l1.filter (·.2.nc))
  State.setCore_canonical q ⟨(q.core c).1, (q.core c).2.1, (q.core c).2.2.filter _⟩

theorem flushL1_canonical {s : State} (h : s.Canonical) (c k n : Nat) : (s.flushL1 c k n).Canonical := by
  have q := h.core c
  refine State.setCore_canonical (mergeWords_canonical h _) ⟨q.1, q.2.1, rises_map q.2.2 _ fun y => ?_⟩
  dsimp only
  split <;> rfl

theorem invalL1_canonical {s : State} (h : s.Canonical) (c k n : Nat) : (s.invalL1 c k n).Canonical :=
  State.setCore_canonical h ⟨(h.core c).1, (h.core c).2.1, (h.core c).2.2.filter _⟩

theorem recallBlock_canonical {s : State} (h : s.Canonical) (k n : Nat) (spare : Option Nat) : (s.recallBlock k n spare).Canonical := by
  refine foldl_canonical (fun s e hs => ?_) _ h
  have q := hs.core e.1
  dsimp only
  split
  · exact hs
  · exact State.setCore_canonical (mergeWords_canonical hs _) ⟨q.1, q.2.1, q.2.2.filter _⟩

/-! ## Read-modify-write, leases and cells -/

theorem rmwHome_canonical {s : State} (h : s.Canonical) (a : Agent) (grain k n : Nat) (f : Update) :
    (s.rmwHome a grain k n f).2.Canonical := by
  have q := readHome_canonical (recallWords_canonical (countHome_canonical h k) none (wordsOf k n)) a k n
  unfold State.rmwHome
  dsimp only
  split
  · exact writeHome_canonical q ..
  · exact q

theorem publish_canonical {s : State} (h : s.Canonical) (c w : Nat) : (s.publish c w).Canonical := by
  unfold State.publish
  split
  · split
    · exact h
    · exact setL1_canonical (mergeHome_canonical h ..) ..
  · exact h

theorem rmwL1_canonical {s : State} (h : s.Canonical) (a : Agent) (c : Nat) (leaf : Word) (k n : Nat) (f : Update) :
    (s.rmwL1 a c leaf k n f).2.Canonical := by
  have q := grantWords_canonical (dropAhead_canonical h a.self k n) a c (grainBytes leaf) (wordsOf k n)
  unfold State.rmwL1
  dsimp only
  split
  · dsimp only
    exact trimL1_canonical (foldl_canonical (fun _ w hs => publish_canonical hs c w) _
      (putL1s_canonical _ _ _ _ _ (clearPoison_canonical q ..))) _
  · dsimp only
    exact trimL1_canonical q _

theorem endLease_canonical {s : State} (h : s.Canonical) (l : Lease) : (s.endLease l).Canonical := by
  unfold State.endLease
  dsimp only
  split
  · exact State.canonical_same rfl rfl h
  · exact State.canonical_of (Memory.wf_writeN _ _ _ h.memory) h.table

theorem recallLeases_canonical {s : State} (h : s.Canonical) (k n : Nat) : (s.recallLeases k n).Canonical := by
  refine foldl_canonical (fun s e hs => ?_) _ h
  split
  · exact endLease_canonical hs _
  · exact hs

theorem rmwForeign_canonical {s : State} (h : s.Canonical) (a : Agent) (t : Nat) (ea : Word) (k n : Nat) (sys : Bool) (f : Update) :
    (s.rmwForeign a t ea k n sys f).2.Canonical := by
  have q := recallLeases_canonical h k n
  unfold State.rmwForeign
  split
  · cases s.leaseOn t k (n == 8) with
    | some l =>
      dsimp only
      split
      · exact State.canonical_same (s := s) rfl rfl h
      · exact h
    | none =>
      dsimp only
      split
      · exact State.canonical_same (s := s.recallLeases k n) rfl rfl q
      · exact State.canonical_same (s := s.recallLeases k n) rfl rfl q
  · exact rmwHome_canonical q ..

theorem restoreCell_canonical {s : State} (h : s.Canonical) (who : Nat) (c : Cell) : (s.restoreCell who c).Canonical :=
  have q := writeN_canonical (clearPoison_canonical (fireMonitors_canonical (dropCopies_canonical
    (endCell_canonical (unsealAt_canonical h c.key c.size) c) none (c.key / 4) ((c.size + 3) / 4)) who c.key c.size) c.key c.size) c.key
    (leBytes c.size c.former.toNat)
  State.canonical_of q.memory q.table

/-! ## Loading, launching and reset -/

theorem forgetPage_canonical {s : State} (h : s.Canonical) (k : Nat) : (s.forgetPage k).Canonical :=
  have q := dropHostLines_canonical h k 4096 none
  State.canonical_of q.memory q.table

theorem loseLines_canonical {s : State} (h : s.Canonical) (k n : Nat) : (s.loseLines k n).Canonical :=
  foldl_canonical (f := State.loseLine) (fun s _ hs => State.canonical_same (s := s) rfl rfl hs) _ h

theorem setPage_canonical {s : State} (h : s.Canonical) (k : Nat) (bs : List Byte) : (s.setPage k bs).Canonical :=
  have q := loseLines_canonical (forgetPage_canonical (recallBlock_canonical h k 4096 none) k) k 4096
  State.canonical_of (Memory.wf_writeN _ _ _ q.memory) q.table

theorem putStore_canonical {s : State} (h : s.Canonical) (c : Nat) (l : Launch) {m : Memory} (hm : m.wf = true) :
    (s.putStore c l m).Canonical :=
  State.setCore_canonical h ⟨(h.core c).1, hm, (h.core c).2.2⟩

theorem imageStore_wf (s : State) (l : Launch) : (s.imageStore l).wf = true := by
  unfold State.imageStore
  split
  · exact Memory.wf_writeN _ _ _ rfl
  · rfl

theorem postOnce_canonical {s : State} (h : s.Canonical) (e : Happening) : (s.postOnce e).Canonical := by
  unfold State.postOnce
  split
  · exact h
  · exact State.canonical_same rfl rfl h

theorem loadStore_canonical {s : State} (h : s.Canonical) (c : Nat) (l : Launch) : (s.loadStore c l).Canonical := by
  unfold State.loadStore
  refine postOnce_canonical (putStore_canonical h c l ?_) _
  split
  · exact imageStore_wf s l
  · exact Memory.wf_writeN _ _ _ rfl

theorem freeFill_wf (f : Nat) : ∀ n, (freeFill f n).wf = true
  | 0 => rfl
  | n + 1 => Memory.wf_writeN _ _ _ (freeFill_wf f n)

theorem freshCore_canonical {s : State} (h : s.Canonical) (c : Nat) : (s.freshCore c).Canonical := by
  have q := freeFill_wf (s.fresh + 40) 256
  unfold State.freshCore
  dsimp only
  generalize freeFill (s.fresh + 40) 256 = m at q ⊢
  exact State.canonical_of h.memory (h.table.put ⟨q, rfl, (h.core c).2.2⟩)

theorem freshVent_canonical {s : State} (h : s.Canonical) (p : Nat) : (s.freshVent p).Canonical := by
  have q := freeFill_wf s.fresh 128
  unfold State.freshVent
  dsimp only
  generalize freeFill s.fresh 128 = m at q ⊢
  split
  · exact State.canonical_of h.memory (h.table.put ⟨q, (h.core _).2.1, (h.core _).2.2⟩)
  · exact h

theorem lastingCores_ok (t : Tab Core) : CoresOk (lastingCores t) :=
  CoresOk.of_all fun y hy => by
    obtain ⟨z, -, rfl⟩ := List.mem_map.1 hy
    exact Core.initial_ok

theorem coresAtBoot_ok (t : Tab Core) (found : List Nat) : CoresOk (coresAtBoot t found) := by
  have q : ∀ (l : List Nat) (u : Tab Core), CoresOk u → CoresOk (l.foldl (fun t c => Tab.put t c Core.out) u) := fun l => by
    induction l with
    | nil => exact fun _ h => h
    | cons c l ih => exact fun u h => ih _ (h.put Core.initial_ok)
  exact q _ _ (lastingCores_ok t)

theorem coldReset_canonical {s : State} (h : s.Canonical) : s.coldReset.Canonical :=
  State.canonical_of (Memory.wf_filter h.memory _) (coresAtBoot_ok _ _)

theorem losePower_canonical {s : State} (h : s.Canonical) : s.losePower.Canonical :=
  State.canonical_of (Memory.wf_filter h.memory _) (lastingCores_ok _)

/-- An instruction placed where the next step fetches. -/
theorem withFetchWord_canonical {s : State} (h : s.Canonical) (nbits w : Nat) : (s.withFetchWord nbits w).Canonical :=
  State.setCore_canonical (State.canonical_same rfl rfl h) (k := _) ⟨(h.core 0).1, Memory.wf_writeN _ _ _ (h.core 0).2.1, (h.core 0).2.2⟩

end Sys2Proof.Machine
end

