-- ==== Sys2Proof/Laws/Launching.lean ====
section
/-! SUPPORT.
Laws of firmware's search for frames: what it looks through, and that it finds as many as are free.
-/

namespace Sys2Proof.Machine

theorem add_mod_ne {i d m : Nat} (h : 0 < d) (hm : d < m) : (i + d) % m ≠ i % m := by
  intro e
  have := Nat.sub_mod_eq_zero_of_mod_eq e
  rw [Nat.add_sub_cancel_left, Nat.mod_eq_of_lt hm] at this
  omega

/-- If what is not acceptable among n numbers lies in a list shorter than n, an acceptable one is found. -/
theorem firstFrom_isSome {ok : Nat → Bool} {m : Nat} : ∀ (n i : Nat) (l : List Nat), n ≤ m → l.length < n →
    (∀ j < n, ok ((i + j) % m) = false → (i + j) % m ∈ l) → (firstFrom ok m n i).isSome = true
  | 0, _, _, _, h, _ => absurd h (by omega)
  | n + 1, i, l, hm, hl, hb => by
    unfold firstFrom
    split
    · rfl
    · rename_i e
      have here : i % m ∈ l := by simpa using hb 0 (by omega) (by simpa using e)
      refine firstFrom_isSome n (i + 1) (l.erase (i % m)) (by omega) ?_ ?_
      · rw [List.length_erase_of_mem here]
        have := List.length_pos_of_mem here
        omega
      · intro j hj hx
        have := hb (j + 1) (by omega) (by rwa [show i + (j + 1) = i + 1 + j by omega])
        rw [show i + (j + 1) = i + 1 + j by omega] at this
        refine (List.mem_erase_of_ne ?_).2 this
        rw [show i + 1 + j = i + (j + 1) by omega]
        exact add_mod_ne (by omega) (by omega)

/-- If what is not acceptable among n numbers lies in a list of at most n - k, k acceptable ones are found. -/
theorem firstsFrom_isSome {ok : Nat → Bool} {m : Nat} : ∀ (n i k : Nat) (l : List Nat), n ≤ m → k + l.length ≤ n →
    (∀ j < n, ok ((i + j) % m) = false → (i + j) % m ∈ l) → (firstsFrom ok m n i k).isSome = true
  | n, _, 0, _, _, _, _ => by cases n <;> rfl
  | 0, _, k + 1, _, _, h, _ => absurd h (by omega)
  | n + 1, i, k + 1, l, hm, hl, hb => by
    unfold firstsFrom
    have next : ∀ j < n, ok ((i + 1 + j) % m) = false → (i + 1 + j) % m ∈ l := by
      intro j hj hx
      have := hb (j + 1) (by omega) (by rwa [show i + (j + 1) = i + 1 + j by omega])
      rwa [show i + (j + 1) = i + 1 + j by omega] at this
    split
    · rw [Option.isSome_map]
      exact firstsFrom_isSome n (i + 1) k l (by omega) (by omega) next
    · rename_i e
      have here : i % m ∈ l := by simpa using hb 0 (by omega) (by simpa using e)
      refine firstsFrom_isSome n (i + 1) (k + 1) (l.erase (i % m)) (by omega) ?_ ?_
      · rw [List.length_erase_of_mem here]
        have := List.length_pos_of_mem here
        omega
      · intro j hj hx
        refine (List.mem_erase_of_ne ?_).2 (next j hj hx)
        rw [show i + 1 + j = i + (j + 1) by omega]
        exact add_mod_ne (by omega) (by omega)

/-- Where nothing is held but what is taken, a frame is found while fewer than all are taken. -/
theorem takeFrame_isSome {s : State} {e : Nat} {taken : List Nat} (free : ∀ f, s.frameTaken f = false ∧ s.framePlaced f = false)
    (h : taken.length < 2 ^ 27) : (s.takeFrame e taken).isSome = true := by
  unfold State.takeFrame
  rw [Option.isSome_map]
  refine firstFrom_isSome _ _ (taken.map (· - 0x8000000)) (Nat.le_refl _) (by simpa using h) ?_
  intro j _ hx
  simp only [State.frameFree, (free _).1, (free _).2, Bool.not_false, Bool.true_and, Bool.not_eq_false', List.contains_iff_mem] at hx
  exact List.mem_map.2 ⟨_, hx, by omega⟩

theorem takeFrames_isSome {s : State} {e n : Nat} {taken : List Nat} (free : ∀ f, s.frameTaken f = false ∧ s.framePlaced f = false)
    (h : n + taken.length ≤ 2 ^ 27) : (s.takeFrames e n taken).isSome = true := by
  unfold State.takeFrames
  rw [Option.isSome_map]
  refine firstsFrom_isSome _ _ _ (taken.map (· - 0x8000000)) (Nat.le_refl _) (by simpa using h) ?_
  intro j _ hx
  simp only [State.frameFree, (free _).1, (free _).2, Bool.not_false, Bool.true_and, Bool.not_eq_false', List.contains_iff_mem] at hx
  exact List.mem_map.2 ⟨_, hx, by omega⟩

end Sys2Proof.Machine
end

