-- ==== Sys2Proof/Laws/PerInstr.lean ====
section
/-! SUPPORT.
The decoder reads every encoded instruction back (R107 to R112): one lemma per constructor of Instr.
-/

namespace Sys2Proof.Laws

-- One lemma after another, so that their threads stay within the memory limit.
set_option Elab.async false

/-- A well-formed instruction is what its bytes decode to; a happening has no bytes. -/
def RoundTrip.Statement (i : Instr) : Prop := i.wf = true → i.size ≠ 0 → decodeBytes (encode i) = .ok i

theorem checked_ok {i : Instr} (h : i.wf = true) : checked (.ok i) = .ok i := by
  simp only [checked, h, if_true]

theorem num_of_fld (w lo n : Nat) : (fld w lo n).toNat = num w lo n := by
  simp only [fld, num, BitVec.toNat_ofNat]

theorem halfword_bytes {h : Nat} (b : h < 2 ^ 16) : halfword (BitVec.ofNat 8 h) (BitVec.ofNat 8 (h / 256)) = h := by
  simp only [halfword, BitVec.toNat_ofNat]
  omega

/-- A 32-bit word with bit 31 set is read as one word. -/
theorem bytes_long {w : Nat} (lo : 2 ^ 31 ≤ w) (hi : w < 2 ^ 32) : decodeBytes (wordBytes 32 w) = decodeWord true w := by
  have a : w / 0x10000 < 2 ^ 16 := by omega
  have b : w % 0x10000 < 2 ^ 16 := by omega
  simp only [wordBytes, halfwordBytes, List.cons_append, List.nil_append, decodeBytes, halfword_bytes a, halfword_bytes b,
    show ¬ 32 ≤ 16 by omega, show ¬ w / 0x10000 < 0x8000 by omega, if_false, show w / 0x10000 * 0x10000 + w % 0x10000 = w by omega]

/-- A 16-bit word with bit 15 clear is read as one halfword. -/
theorem bytes_short {w : Nat} (hi : w < 2 ^ 15) : decodeBytes (wordBytes 16 w) = decodeWord false w := by
  have a : w < 2 ^ 16 := by omega
  simp only [wordBytes, halfwordBytes, Nat.le_refl, if_true, decodeBytes, halfword_bytes a, show w < 0x8000 by omega]

/-- A 32-bit instruction, from its word. -/
theorem long_of {i : Instr} {w : Nat} (hs : i.size = 4) (hw : encodeWord i = w) (lo : 2 ^ 31 ≤ w) (hi : w < 2 ^ 32) (wf : i.wf = true)
    (h : decLong w = .ok i) : decodeBytes (encode i) = .ok i := by
  have e : encode i = wordBytes 32 w := by simp only [encode, hs, hw]; rfl
  rw [e, bytes_long lo hi]
  show checked (decLong w) = _
  rw [h, checked_ok wf]

/-- A 16-bit instruction, from its word. -/
theorem short_of {i : Instr} {w : Nat} (hs : i.size = 2) (hw : encodeWord i = w) (hi : w < 2 ^ 15) (wf : i.wf = true)
    (h : decShort w = .ok i) : decodeBytes (encode i) = .ok i := by
  have e : encode i = wordBytes 16 w := by simp only [encode, hs, hw]; rfl
  rw [e, bytes_short hi]
  show checked (decShort w) = _
  rw [h, checked_ok wf]


theorem long_decAlu {w : Nat} (e : num w 25 7 = 64) : decLong w = decAlu w := by
  unfold decLong
  rw [e]
  rfl

theorem long_decImm {w : Nat} (e : num w 25 7 = 65) : decLong w = decImm w := by
  unfold decLong
  rw [e]
  rfl

theorem long_decUpper {w : Nat} (e : num w 25 7 = 66) : decLong w = decUpper w := by
  unfold decLong
  rw [e]
  rfl

theorem long_decExti {w : Nat} (e : num w 25 7 = 67) : decLong w = decExti w := by
  unfold decLong
  rw [e]
  rfl

theorem long_decBranch {w : Nat} (e : num w 25 7 = 68) : decLong w = decBranch w := by
  unfold decLong
  rw [e]
  rfl

theorem long_decJump {w : Nat} (e : num w 25 7 = 69) : decLong w = decJump w := by
  unfold decLong
  rw [e]
  rfl

theorem long_decCall {w : Nat} (e : num w 25 7 = 70) : decLong w = decCall w := by
  unfold decLong
  rw [e]
  rfl

theorem long_decSystem {w : Nat} (e : num w 25 7 = 71) : decLong w = decSystem w := by
  unfold decLong
  rw [e]
  rfl

theorem long_decLoad {w : Nat} (e : num w 25 7 = 80) : decLong w = decLoad w := by
  unfold decLong
  rw [e]
  rfl

theorem long_decStore {w : Nat} (e : num w 25 7 = 81) : decLong w = decStore w := by
  unfold decLong
  rw [e]
  rfl

theorem long_decIndexed {w : Nat} (e : num w 25 7 = 82) : decLong w = decIndexed w := by
  unfold decLong
  rw [e]
  rfl

theorem long_decAtomic {w : Nat} (e : num w 25 7 = 83) : decLong w = decAtomic w := by
  unfold decLong
  rw [e]
  rfl

theorem long_decSync {w : Nat} (e : num w 25 7 = 84) : decLong w = decSync w := by
  unfold decLong
  rw [e]
  rfl

theorem long_decTentative {w : Nat} (e : num w 25 7 = 85) : decLong w = decTentative w := by
  unfold decLong
  rw [e]
  rfl

theorem long_decDupd {w : Nat} (e : num w 25 7 = 86) : decLong w = decDupd w := by
  unfold decLong
  rw [e]
  rfl

theorem long_decRetract {w : Nat} (e : num w 25 7 = 87) : decLong w = decRetract w := by
  unfold decLong
  rw [e]
  rfl

theorem long_decVector {w : Nat} (e : num w 25 7 = 96) : decLong w = decVector w := by
  unfold decLong
  rw [e]
  rfl

theorem long_decCompare {w : Nat} (e : num w 25 7 = 97) : decLong w = decCompare w := by
  unfold decLong
  rw [e]
  rfl

theorem long_decConvert {w : Nat} (e : num w 25 7 = 98) : decLong w = decConvert w := by
  unfold decLong
  rw [e]
  rfl

theorem long_decReduce {w : Nat} (e : num w 25 7 = 99) : decLong w = decReduce w := by
  unfold decLong
  rw [e]
  rfl

theorem long_decMove {w : Nat} (e : num w 25 7 = 100) : decLong w = decMove w := by
  unfold decLong
  rw [e]
  rfl

theorem long_decMask {w : Nat} (e : num w 25 7 = 101) : decLong w = decMask w := by
  unfold decLong
  rw [e]
  rfl

theorem long_decVecMem {w : Nat} (e : num w 25 7 = 102) : decLong w = decVecMem w := by
  unfold decLong
  rw [e]
  rfl

theorem long_decMld {w : Nat} (e : num w 25 7 = 104) : decLong w = decMld w := by
  unfold decLong
  rw [e]
  rfl

theorem long_decMst {w : Nat} (e : num w 25 7 = 105) : decLong w = decMst w := by
  unfold decLong
  rw [e]
  rfl

theorem long_decMma {w : Nat} (e : num w 25 7 = 106) : decLong w = decMma w := by
  unfold decLong
  rw [e]
  rfl

theorem long_decMmas {w : Nat} (e : num w 25 7 = 107) : decLong w = decMmas w := by
  unfold decLong
  rw [e]
  rfl

theorem long_decMcmp {w : Nat} (e : num w 25 7 = 108) : decLong w = decMcmp w := by
  unfold decLong
  rw [e]
  rfl

theorem long_decMzero {w : Nat} (e : num w 25 7 = 109) : decLong w = decMzero w := by
  unfold decLong
  rw [e]
  rfl

theorem long_decClaim {w : Nat} (e : num w 25 7 = 110) : decLong w = decClaim w := by
  unfold decLong
  rw [e]
  rfl

theorem long_decCpy {w : Nat} (e : num w 25 7 = 112) : decLong w = decCpy w := by
  unfold decLong
  rw [e]
  rfl

theorem long_decNred {w : Nat} (e : num w 25 7 = 113) : decLong w = decNred w := by
  unfold decLong
  rw [e]
  rfl

theorem long_decScpy {w : Nat} (e : num w 25 7 = 114) : decLong w = decScpy w := by
  unfold decLong
  rw [e]
  rfl

theorem long_decStream {w : Nat} (e : num w 25 7 = 115) : decLong w = decStream w := by
  unfold decLong
  rw [e]
  rfl

theorem long_decTask {w : Nat} (e : num w 25 7 = 116) : decLong w = decTask w := by
  unfold decLong
  rw [e]
  rfl

theorem long_decRcall {w : Nat} (e : num w 25 7 = 117) : decLong w = decRcall w := by
  unfold decLong
  rw [e]
  rfl

theorem long_decHint {w : Nat} (e : num w 25 7 = 127) : decLong w = decHint w := by
  unfold decLong
  rw [e]
  rfl

theorem shape_Alu_0 {k : Nat} (hk : k < 2 ^ 6) (x0 : BitVec 4) (x1 : BitVec 4) (x2 : BitVec 4) (x3 : BitVec 2) {ww : Nat}
    (hw : 0x80000000 + k * 2 ^ 7 + x0.toNat * 0x200000 + x1.toNat * 0x20000 + x2.toNat * 0x2000 + x3.toNat = ww) :
    2 ^ 31 ≤ ww ∧ ww < 2 ^ 32 ∧ num ww 25 7 = 64 ∧ num ww 7 6 = k ∧ num ww 2 5 = 0 ∧ fld ww 21 4 = x0 ∧ fld ww 17 4 = x1 ∧ fld ww 13 4 = x2 ∧ fld ww 0 2 = x3 := by
  have l0 := x0.isLt
  have l1 := x1.isLt
  have l2 := x2.isLt
  have l3 := x3.isLt
  simp only [num, fld]
  refine ⟨?_, ?_, ?_, ?_, ?_, ?_, ?_, ?_, ?_⟩
  · omega
  · omega
  · omega
  · omega
  · omega
  · apply BitVec.eq_of_toNat_eq; simp only [BitVec.toNat_ofNat]; omega
  · apply BitVec.eq_of_toNat_eq; simp only [BitVec.toNat_ofNat]; omega
  · apply BitVec.eq_of_toNat_eq; simp only [BitVec.toNat_ofNat]; omega
  · apply BitVec.eq_of_toNat_eq; simp only [BitVec.toNat_ofNat]; omega

theorem RoundTrip.add (d : BitVec 4) (a : BitVec 4) (b : BitVec 4) (z : BitVec 2) : RoundTrip.Statement (.add d a b z) := by
  intro wf _
  obtain ⟨lo, hi, e0, e1, c0, f0, f1, f2, f3⟩ := shape_Alu_0 (ww := encodeWord (.add d a b z)) (k := 0) (by decide) d a b z rfl
  refine long_of rfl rfl lo hi wf ?_
  rw [long_decAlu e0]
  unfold decAlu
  rw [e1]
  simp only [c0, f0, f1, f2, f3, if_true]

theorem RoundTrip.sub (d : BitVec 4) (a : BitVec 4) (b : BitVec 4) (z : BitVec 2) : RoundTrip.Statement (.sub d a b z) := by
  intro wf _
  obtain ⟨lo, hi, e0, e1, c0, f0, f1, f2, f3⟩ := shape_Alu_0 (ww := encodeWord (.sub d a b z)) (k := 1) (by decide) d a b z rfl
  refine long_of rfl rfl lo hi wf ?_
  rw [long_decAlu e0]
  unfold decAlu
  rw [e1]
  simp only [c0, f0, f1, f2, f3, if_true]

theorem RoundTrip.mul (d : BitVec 4) (a : BitVec 4) (b : BitVec 4) (z : BitVec 2) : RoundTrip.Statement (.mul d a b z) := by
  intro wf _
  obtain ⟨lo, hi, e0, e1, c0, f0, f1, f2, f3⟩ := shape_Alu_0 (ww := encodeWord (.mul d a b z)) (k := 2) (by decide) d a b z rfl
  refine long_of rfl rfl lo hi wf ?_
  rw [long_decAlu e0]
  unfold decAlu
  rw [e1]
  simp only [c0, f0, f1, f2, f3, if_true]

theorem RoundTrip.mulh (d : BitVec 4) (a : BitVec 4) (b : BitVec 4) (z : BitVec 2) : RoundTrip.Statement (.mulh d a b z) := by
  intro wf _
  obtain ⟨lo, hi, e0, e1, c0, f0, f1, f2, f3⟩ := shape_Alu_0 (ww := encodeWord (.mulh d a b z)) (k := 3) (by decide) d a b z rfl
  refine long_of rfl rfl lo hi wf ?_
  rw [long_decAlu e0]
  unfold decAlu
  rw [e1]
  simp only [c0, f0, f1, f2, f3, if_true]

theorem RoundTrip.mulhu (d : BitVec 4) (a : BitVec 4) (b : BitVec 4) (z : BitVec 2) : RoundTrip.Statement (.mulhu d a b z) := by
  intro wf _
  obtain ⟨lo, hi, e0, e1, c0, f0, f1, f2, f3⟩ := shape_Alu_0 (ww := encodeWord (.mulhu d a b z)) (k := 4) (by decide) d a b z rfl
  refine long_of rfl rfl lo hi wf ?_
  rw [long_decAlu e0]
  unfold decAlu
  rw [e1]
  simp only [c0, f0, f1, f2, f3, if_true]

theorem RoundTrip.div (d : BitVec 4) (a : BitVec 4) (b : BitVec 4) (z : BitVec 2) : RoundTrip.Statement (.div d a b z) := by
  intro wf _
  obtain ⟨lo, hi, e0, e1, c0, f0, f1, f2, f3⟩ := shape_Alu_0 (ww := encodeWord (.div d a b z)) (k := 5) (by decide) d a b z rfl
  refine long_of rfl rfl lo hi wf ?_
  rw [long_decAlu e0]
  unfold decAlu
  rw [e1]
  simp only [c0, f0, f1, f2, f3, if_true]

theorem RoundTrip.divu (d : BitVec 4) (a : BitVec 4) (b : BitVec 4) (z : BitVec 2) : RoundTrip.Statement (.divu d a b z) := by
  intro wf _
  obtain ⟨lo, hi, e0, e1, c0, f0, f1, f2, f3⟩ := shape_Alu_0 (ww := encodeWord (.divu d a b z)) (k := 6) (by decide) d a b z rfl
  refine long_of rfl rfl lo hi wf ?_
  rw [long_decAlu e0]
  unfold decAlu
  rw [e1]
  simp only [c0, f0, f1, f2, f3, if_true]

theorem RoundTrip.rem (d : BitVec 4) (a : BitVec 4) (b : BitVec 4) (z : BitVec 2) : RoundTrip.Statement (.rem d a b z) := by
  intro wf _
  obtain ⟨lo, hi, e0, e1, c0, f0, f1, f2, f3⟩ := shape_Alu_0 (ww := encodeWord (.rem d a b z)) (k := 7) (by decide) d a b z rfl
  refine long_of rfl rfl lo hi wf ?_
  rw [long_decAlu e0]
  unfold decAlu
  rw [e1]
  simp only [c0, f0, f1, f2, f3, if_true]

theorem RoundTrip.remu (d : BitVec 4) (a : BitVec 4) (b : BitVec 4) (z : BitVec 2) : RoundTrip.Statement (.remu d a b z) := by
  intro wf _
  obtain ⟨lo, hi, e0, e1, c0, f0, f1, f2, f3⟩ := shape_Alu_0 (ww := encodeWord (.remu d a b z)) (k := 8) (by decide) d a b z rfl
  refine long_of rfl rfl lo hi wf ?_
  rw [long_decAlu e0]
  unfold decAlu
  rw [e1]
  simp only [c0, f0, f1, f2, f3, if_true]

theorem RoundTrip.and (d : BitVec 4) (a : BitVec 4) (b : BitVec 4) (z : BitVec 2) : RoundTrip.Statement (.and d a b z) := by
  intro wf _
  obtain ⟨lo, hi, e0, e1, c0, f0, f1, f2, f3⟩ := shape_Alu_0 (ww := encodeWord (.and d a b z)) (k := 9) (by decide) d a b z rfl
  refine long_of rfl rfl lo hi wf ?_
  rw [long_decAlu e0]
  unfold decAlu
  rw [e1]
  simp only [c0, f0, f1, f2, f3, if_true]

theorem RoundTrip.or (d : BitVec 4) (a : BitVec 4) (b : BitVec 4) (z : BitVec 2) : RoundTrip.Statement (.or d a b z) := by
  intro wf _
  obtain ⟨lo, hi, e0, e1, c0, f0, f1, f2, f3⟩ := shape_Alu_0 (ww := encodeWord (.or d a b z)) (k := 10) (by decide) d a b z rfl
  refine long_of rfl rfl lo hi wf ?_
  rw [long_decAlu e0]
  unfold decAlu
  rw [e1]
  simp only [c0, f0, f1, f2, f3, if_true]

theorem RoundTrip.xor (d : BitVec 4) (a : BitVec 4) (b : BitVec 4) (z : BitVec 2) : RoundTrip.Statement (.xor d a b z) := by
  intro wf _
  obtain ⟨lo, hi, e0, e1, c0, f0, f1, f2, f3⟩ := shape_Alu_0 (ww := encodeWord (.xor d a b z)) (k := 11) (by decide) d a b z rfl
  refine long_of rfl rfl lo hi wf ?_
  rw [long_decAlu e0]
  unfold decAlu
  rw [e1]
  simp only [c0, f0, f1, f2, f3, if_true]

theorem RoundTrip.andn (d : BitVec 4) (a : BitVec 4) (b : BitVec 4) (z : BitVec 2) : RoundTrip.Statement (.andn d a b z) := by
  intro wf _
  obtain ⟨lo, hi, e0, e1, c0, f0, f1, f2, f3⟩ := shape_Alu_0 (ww := encodeWord (.andn d a b z)) (k := 12) (by decide) d a b z rfl
  refine long_of rfl rfl lo hi wf ?_
  rw [long_decAlu e0]
  unfold decAlu
  rw [e1]
  simp only [c0, f0, f1, f2, f3, if_true]

theorem RoundTrip.sll (d : BitVec 4) (a : BitVec 4) (b : BitVec 4) (z : BitVec 2) : RoundTrip.Statement (.sll d a b z) := by
  intro wf _
  obtain ⟨lo, hi, e0, e1, c0, f0, f1, f2, f3⟩ := shape_Alu_0 (ww := encodeWord (.sll d a b z)) (k := 13) (by decide) d a b z rfl
  refine long_of rfl rfl lo hi wf ?_
  rw [long_decAlu e0]
  unfold decAlu
  rw [e1]
  simp only [c0, f0, f1, f2, f3, if_true]

theorem RoundTrip.srl (d : BitVec 4) (a : BitVec 4) (b : BitVec 4) (z : BitVec 2) : RoundTrip.Statement (.srl d a b z) := by
  intro wf _
  obtain ⟨lo, hi, e0, e1, c0, f0, f1, f2, f3⟩ := shape_Alu_0 (ww := encodeWord (.srl d a b z)) (k := 14) (by decide) d a b z rfl
  refine long_of rfl rfl lo hi wf ?_
  rw [long_decAlu e0]
  unfold decAlu
  rw [e1]
  simp only [c0, f0, f1, f2, f3, if_true]

theorem RoundTrip.sra (d : BitVec 4) (a : BitVec 4) (b : BitVec 4) (z : BitVec 2) : RoundTrip.Statement (.sra d a b z) := by
  intro wf _
  obtain ⟨lo, hi, e0, e1, c0, f0, f1, f2, f3⟩ := shape_Alu_0 (ww := encodeWord (.sra d a b z)) (k := 15) (by decide) d a b z rfl
  refine long_of rfl rfl lo hi wf ?_
  rw [long_decAlu e0]
  unfold decAlu
  rw [e1]
  simp only [c0, f0, f1, f2, f3, if_true]

theorem RoundTrip.rol (d : BitVec 4) (a : BitVec 4) (b : BitVec 4) (z : BitVec 2) : RoundTrip.Statement (.rol d a b z) := by
  intro wf _
  obtain ⟨lo, hi, e0, e1, c0, f0, f1, f2, f3⟩ := shape_Alu_0 (ww := encodeWord (.rol d a b z)) (k := 16) (by decide) d a b z rfl
  refine long_of rfl rfl lo hi wf ?_
  rw [long_decAlu e0]
  unfold decAlu
  rw [e1]
  simp only [c0, f0, f1, f2, f3, if_true]

theorem RoundTrip.ror (d : BitVec 4) (a : BitVec 4) (b : BitVec 4) (z : BitVec 2) : RoundTrip.Statement (.ror d a b z) := by
  intro wf _
  obtain ⟨lo, hi, e0, e1, c0, f0, f1, f2, f3⟩ := shape_Alu_0 (ww := encodeWord (.ror d a b z)) (k := 17) (by decide) d a b z rfl
  refine long_of rfl rfl lo hi wf ?_
  rw [long_decAlu e0]
  unfold decAlu
  rw [e1]
  simp only [c0, f0, f1, f2, f3, if_true]

theorem RoundTrip.min (d : BitVec 4) (a : BitVec 4) (b : BitVec 4) (z : BitVec 2) : RoundTrip.Statement (.min d a b z) := by
  intro wf _
  obtain ⟨lo, hi, e0, e1, c0, f0, f1, f2, f3⟩ := shape_Alu_0 (ww := encodeWord (.min d a b z)) (k := 18) (by decide) d a b z rfl
  refine long_of rfl rfl lo hi wf ?_
  rw [long_decAlu e0]
  unfold decAlu
  rw [e1]
  simp only [c0, f0, f1, f2, f3, if_true]

theorem RoundTrip.minu (d : BitVec 4) (a : BitVec 4) (b : BitVec 4) (z : BitVec 2) : RoundTrip.Statement (.minu d a b z) := by
  intro wf _
  obtain ⟨lo, hi, e0, e1, c0, f0, f1, f2, f3⟩ := shape_Alu_0 (ww := encodeWord (.minu d a b z)) (k := 19) (by decide) d a b z rfl
  refine long_of rfl rfl lo hi wf ?_
  rw [long_decAlu e0]
  unfold decAlu
  rw [e1]
  simp only [c0, f0, f1, f2, f3, if_true]

theorem RoundTrip.max (d : BitVec 4) (a : BitVec 4) (b : BitVec 4) (z : BitVec 2) : RoundTrip.Statement (.max d a b z) := by
  intro wf _
  obtain ⟨lo, hi, e0, e1, c0, f0, f1, f2, f3⟩ := shape_Alu_0 (ww := encodeWord (.max d a b z)) (k := 20) (by decide) d a b z rfl
  refine long_of rfl rfl lo hi wf ?_
  rw [long_decAlu e0]
  unfold decAlu
  rw [e1]
  simp only [c0, f0, f1, f2, f3, if_true]

theorem RoundTrip.maxu (d : BitVec 4) (a : BitVec 4) (b : BitVec 4) (z : BitVec 2) : RoundTrip.Statement (.maxu d a b z) := by
  intro wf _
  obtain ⟨lo, hi, e0, e1, c0, f0, f1, f2, f3⟩ := shape_Alu_0 (ww := encodeWord (.maxu d a b z)) (k := 21) (by decide) d a b z rfl
  refine long_of rfl rfl lo hi wf ?_
  rw [long_decAlu e0]
  unfold decAlu
  rw [e1]
  simp only [c0, f0, f1, f2, f3, if_true]

theorem RoundTrip.adds (d : BitVec 4) (a : BitVec 4) (b : BitVec 4) (z : BitVec 2) : RoundTrip.Statement (.adds d a b z) := by
  intro wf _
  obtain ⟨lo, hi, e0, e1, c0, f0, f1, f2, f3⟩ := shape_Alu_0 (ww := encodeWord (.adds d a b z)) (k := 22) (by decide) d a b z rfl
  refine long_of rfl rfl lo hi wf ?_
  rw [long_decAlu e0]
  unfold decAlu
  rw [e1]
  simp only [c0, f0, f1, f2, f3, if_true]

theorem RoundTrip.subs (d : BitVec 4) (a : BitVec 4) (b : BitVec 4) (z : BitVec 2) : RoundTrip.Statement (.subs d a b z) := by
  intro wf _
  obtain ⟨lo, hi, e0, e1, c0, f0, f1, f2, f3⟩ := shape_Alu_0 (ww := encodeWord (.subs d a b z)) (k := 23) (by decide) d a b z rfl
  refine long_of rfl rfl lo hi wf ?_
  rw [long_decAlu e0]
  unfold decAlu
  rw [e1]
  simp only [c0, f0, f1, f2, f3, if_true]

theorem RoundTrip.addsu (d : BitVec 4) (a : BitVec 4) (b : BitVec 4) (z : BitVec 2) : RoundTrip.Statement (.addsu d a b z) := by
  intro wf _
  obtain ⟨lo, hi, e0, e1, c0, f0, f1, f2, f3⟩ := shape_Alu_0 (ww := encodeWord (.addsu d a b z)) (k := 24) (by decide) d a b z rfl
  refine long_of rfl rfl lo hi wf ?_
  rw [long_decAlu e0]
  unfold decAlu
  rw [e1]
  simp only [c0, f0, f1, f2, f3, if_true]

theorem RoundTrip.subsu (d : BitVec 4) (a : BitVec 4) (b : BitVec 4) (z : BitVec 2) : RoundTrip.Statement (.subsu d a b z) := by
  intro wf _
  obtain ⟨lo, hi, e0, e1, c0, f0, f1, f2, f3⟩ := shape_Alu_0 (ww := encodeWord (.subsu d a b z)) (k := 25) (by decide) d a b z rfl
  refine long_of rfl rfl lo hi wf ?_
  rw [long_decAlu e0]
  unfold decAlu
  rw [e1]
  simp only [c0, f0, f1, f2, f3, if_true]

theorem RoundTrip.slt (d : BitVec 4) (a : BitVec 4) (b : BitVec 4) (z : BitVec 2) : RoundTrip.Statement (.slt d a b z) := by
  intro wf _
  obtain ⟨lo, hi, e0, e1, c0, f0, f1, f2, f3⟩ := shape_Alu_0 (ww := encodeWord (.slt d a b z)) (k := 26) (by decide) d a b z rfl
  refine long_of rfl rfl lo hi wf ?_
  rw [long_decAlu e0]
  unfold decAlu
  rw [e1]
  simp only [c0, f0, f1, f2, f3, if_true]

theorem RoundTrip.sltu (d : BitVec 4) (a : BitVec 4) (b : BitVec 4) (z : BitVec 2) : RoundTrip.Statement (.sltu d a b z) := by
  intro wf _
  obtain ⟨lo, hi, e0, e1, c0, f0, f1, f2, f3⟩ := shape_Alu_0 (ww := encodeWord (.sltu d a b z)) (k := 27) (by decide) d a b z rfl
  refine long_of rfl rfl lo hi wf ?_
  rw [long_decAlu e0]
  unfold decAlu
  rw [e1]
  simp only [c0, f0, f1, f2, f3, if_true]

theorem RoundTrip.seq (d : BitVec 4) (a : BitVec 4) (b : BitVec 4) (z : BitVec 2) : RoundTrip.Statement (.seq d a b z) := by
  intro wf _
  obtain ⟨lo, hi, e0, e1, c0, f0, f1, f2, f3⟩ := shape_Alu_0 (ww := encodeWord (.seq d a b z)) (k := 28) (by decide) d a b z rfl
  refine long_of rfl rfl lo hi wf ?_
  rw [long_decAlu e0]
  unfold decAlu
  rw [e1]
  simp only [c0, f0, f1, f2, f3, if_true]

theorem shape_Alu_1 {k : Nat} (hk : k < 2 ^ 6) (x0 : BitVec 4) (x1 : BitVec 4) (x2 : BitVec 2) {ww : Nat}
    (hw : 0x80000000 + k * 2 ^ 7 + x0.toNat * 0x200000 + x1.toNat * 0x20000 + x2.toNat = ww) :
    2 ^ 31 ≤ ww ∧ ww < 2 ^ 32 ∧ num ww 25 7 = 64 ∧ num ww 7 6 = k ∧ num ww 2 5 = 0 ∧ num ww 13 4 = 0 ∧ fld ww 21 4 = x0 ∧ fld ww 17 4 = x1 ∧ fld ww 0 2 = x2 := by
  have l0 := x0.isLt
  have l1 := x1.isLt
  have l2 := x2.isLt
  simp only [num, fld]
  refine ⟨?_, ?_, ?_, ?_, ?_, ?_, ?_, ?_, ?_⟩
  · omega
  · omega
  · omega
  · omega
  · omega
  · omega
  · apply BitVec.eq_of_toNat_eq; simp only [BitVec.toNat_ofNat]; omega
  · apply BitVec.eq_of_toNat_eq; simp only [BitVec.toNat_ofNat]; omega
  · apply BitVec.eq_of_toNat_eq; simp only [BitVec.toNat_ofNat]; omega

theorem RoundTrip.clz (d : BitVec 4) (a : BitVec 4) (z : BitVec 2) : RoundTrip.Statement (.clz d a z) := by
  intro wf _
  obtain ⟨lo, hi, e0, e1, c0, c1, f0, f1, f2⟩ := shape_Alu_1 (ww := encodeWord (.clz d a z)) (k := 29) (by decide) d a z rfl
  refine long_of rfl rfl lo hi wf ?_
  rw [long_decAlu e0]
  unfold decAlu
  rw [e1]
  simp only [c0, c1, f0, f1, f2, if_true, and_self]

theorem RoundTrip.ctz (d : BitVec 4) (a : BitVec 4) (z : BitVec 2) : RoundTrip.Statement (.ctz d a z) := by
  intro wf _
  obtain ⟨lo, hi, e0, e1, c0, c1, f0, f1, f2⟩ := shape_Alu_1 (ww := encodeWord (.ctz d a z)) (k := 30) (by decide) d a z rfl
  refine long_of rfl rfl lo hi wf ?_
  rw [long_decAlu e0]
  unfold decAlu
  rw [e1]
  simp only [c0, c1, f0, f1, f2, if_true, and_self]

theorem RoundTrip.popc (d : BitVec 4) (a : BitVec 4) (z : BitVec 2) : RoundTrip.Statement (.popc d a z) := by
  intro wf _
  obtain ⟨lo, hi, e0, e1, c0, c1, f0, f1, f2⟩ := shape_Alu_1 (ww := encodeWord (.popc d a z)) (k := 31) (by decide) d a z rfl
  refine long_of rfl rfl lo hi wf ?_
  rw [long_decAlu e0]
  unfold decAlu
  rw [e1]
  simp only [c0, c1, f0, f1, f2, if_true, and_self]

theorem shape_Alu_2 {k : Nat} (hk : k < 2 ^ 6) (x0 : BitVec 4) (x1 : BitVec 4) {ww : Nat}
    (hw : 0x80000003 + k * 2 ^ 7 + x0.toNat * 0x200000 + x1.toNat * 0x20000 = ww) :
    2 ^ 31 ≤ ww ∧ ww < 2 ^ 32 ∧ num ww 25 7 = 64 ∧ num ww 7 6 = k ∧ num ww 0 7 = 3 ∧ num ww 13 4 = 0 ∧ fld ww 21 4 = x0 ∧ fld ww 17 4 = x1 := by
  have l0 := x0.isLt
  have l1 := x1.isLt
  simp only [num, fld]
  refine ⟨?_, ?_, ?_, ?_, ?_, ?_, ?_, ?_⟩
  · omega
  · omega
  · omega
  · omega
  · omega
  · omega
  · apply BitVec.eq_of_toNat_eq; simp only [BitVec.toNat_ofNat]; omega
  · apply BitVec.eq_of_toNat_eq; simp only [BitVec.toNat_ofNat]; omega

theorem RoundTrip.mov (d : BitVec 4) (a : BitVec 4) : RoundTrip.Statement (.mov d a) := by
  intro wf _
  obtain ⟨lo, hi, e0, e1, c0, c1, f0, f1⟩ := shape_Alu_2 (ww := encodeWord (.mov d a)) (k := 32) (by decide) d a rfl
  refine long_of rfl rfl lo hi wf ?_
  rw [long_decAlu e0]
  unfold decAlu
  rw [e1]
  simp only [c0, c1, f0, f1, if_true, and_self]

theorem RoundTrip.sext (d : BitVec 4) (a : BitVec 4) (z : BitVec 2) : RoundTrip.Statement (.sext d a z) := by
  intro wf _
  obtain ⟨lo, hi, e0, e1, c0, c1, f0, f1, f2⟩ := shape_Alu_1 (ww := encodeWord (.sext d a z)) (k := 33) (by decide) d a z rfl
  refine long_of rfl rfl lo hi wf ?_
  rw [long_decAlu e0]
  unfold decAlu
  rw [e1]
  simp only [c0, c1, f0, f1, f2, if_true, and_self]

theorem RoundTrip.zext (d : BitVec 4) (a : BitVec 4) (z : BitVec 2) : RoundTrip.Statement (.zext d a z) := by
  intro wf _
  obtain ⟨lo, hi, e0, e1, c0, c1, f0, f1, f2⟩ := shape_Alu_1 (ww := encodeWord (.zext d a z)) (k := 34) (by decide) d a z rfl
  refine long_of rfl rfl lo hi wf ?_
  rw [long_decAlu e0]
  unfold decAlu
  rw [e1]
  simp only [c0, c1, f0, f1, f2, if_true, and_self]

theorem RoundTrip.bswap (d : BitVec 4) (a : BitVec 4) (z : BitVec 2) : RoundTrip.Statement (.bswap d a z) := by
  intro wf _
  obtain ⟨lo, hi, e0, e1, c0, c1, f0, f1, f2⟩ := shape_Alu_1 (ww := encodeWord (.bswap d a z)) (k := 35) (by decide) d a z rfl
  refine long_of rfl rfl lo hi wf ?_
  rw [long_decAlu e0]
  unfold decAlu
  rw [e1]
  simp only [c0, c1, f0, f1, f2, if_true, and_self]

theorem shape_Imm_0 {k : Nat} (hk : k < 2 ^ 4) (x0 : BitVec 4) (x1 : BitVec 4) (x2 : BitVec 13) {ww : Nat}
    (hw : 0x82000000 + k * 2 ^ 13 + x0.toNat * 0x200000 + x1.toNat * 0x20000 + x2.toNat = ww) :
    2 ^ 31 ≤ ww ∧ ww < 2 ^ 32 ∧ num ww 25 7 = 65 ∧ num ww 13 4 = k ∧ fld ww 21 4 = x0 ∧ fld ww 17 4 = x1 ∧ fld ww 0 13 = x2 := by
  have l0 := x0.isLt
  have l1 := x1.isLt
  have l2 := x2.isLt
  simp only [num, fld]
  refine ⟨?_, ?_, ?_, ?_, ?_, ?_, ?_⟩
  · omega
  · omega
  · omega
  · omega
  · apply BitVec.eq_of_toNat_eq; simp only [BitVec.toNat_ofNat]; omega
  · apply BitVec.eq_of_toNat_eq; simp only [BitVec.toNat_ofNat]; omega
  · apply BitVec.eq_of_toNat_eq; simp only [BitVec.toNat_ofNat]; omega

theorem RoundTrip.addi (d : BitVec 4) (a : BitVec 4) (i : BitVec 13) : RoundTrip.Statement (.addi d a i) := by
  intro wf _
  obtain ⟨lo, hi, e0, e1, f0, f1, f2⟩ := shape_Imm_0 (ww := encodeWord (.addi d a i)) (k := 0) (by decide) d a i rfl
  refine long_of rfl rfl lo hi wf ?_
  rw [long_decImm e0]
  unfold decImm
  rw [e1]
  simp only [f0, f1, f2]

theorem RoundTrip.andi (d : BitVec 4) (a : BitVec 4) (i : BitVec 13) : RoundTrip.Statement (.andi d a i) := by
  intro wf _
  obtain ⟨lo, hi, e0, e1, f0, f1, f2⟩ := shape_Imm_0 (ww := encodeWord (.andi d a i)) (k := 1) (by decide) d a i rfl
  refine long_of rfl rfl lo hi wf ?_
  rw [long_decImm e0]
  unfold decImm
  rw [e1]
  simp only [f0, f1, f2]

theorem RoundTrip.ori (d : BitVec 4) (a : BitVec 4) (i : BitVec 13) : RoundTrip.Statement (.ori d a i) := by
  intro wf _
  obtain ⟨lo, hi, e0, e1, f0, f1, f2⟩ := shape_Imm_0 (ww := encodeWord (.ori d a i)) (k := 2) (by decide) d a i rfl
  refine long_of rfl rfl lo hi wf ?_
  rw [long_decImm e0]
  unfold decImm
  rw [e1]
  simp only [f0, f1, f2]

theorem RoundTrip.xori (d : BitVec 4) (a : BitVec 4) (i : BitVec 13) : RoundTrip.Statement (.xori d a i) := by
  intro wf _
  obtain ⟨lo, hi, e0, e1, f0, f1, f2⟩ := shape_Imm_0 (ww := encodeWord (.xori d a i)) (k := 3) (by decide) d a i rfl
  refine long_of rfl rfl lo hi wf ?_
  rw [long_decImm e0]
  unfold decImm
  rw [e1]
  simp only [f0, f1, f2]

theorem shape_Imm_1 {k : Nat} (hk : k < 2 ^ 4) (x0 : BitVec 4) (x1 : BitVec 4) (x2 : BitVec 6) {ww : Nat}
    (hw : 0x82000000 + k * 2 ^ 13 + x0.toNat * 0x200000 + x1.toNat * 0x20000 + x2.toNat = ww) :
    2 ^ 31 ≤ ww ∧ ww < 2 ^ 32 ∧ num ww 25 7 = 65 ∧ num ww 13 4 = k ∧ num ww 6 7 = 0 ∧ fld ww 21 4 = x0 ∧ fld ww 17 4 = x1 ∧ fld ww 0 6 = x2 := by
  have l0 := x0.isLt
  have l1 := x1.isLt
  have l2 := x2.isLt
  simp only [num, fld]
  refine ⟨?_, ?_, ?_, ?_, ?_, ?_, ?_, ?_⟩
  · omega
  · omega
  · omega
  · omega
  · omega
  · apply BitVec.eq_of_toNat_eq; simp only [BitVec.toNat_ofNat]; omega
  · apply BitVec.eq_of_toNat_eq; simp only [BitVec.toNat_ofNat]; omega
  · apply BitVec.eq_of_toNat_eq; simp only [BitVec.toNat_ofNat]; omega

theorem RoundTrip.slli (d : BitVec 4) (a : BitVec 4) (h : BitVec 6) : RoundTrip.Statement (.slli d a h) := by
  intro wf _
  obtain ⟨lo, hi, e0, e1, c0, f0, f1, f2⟩ := shape_Imm_1 (ww := encodeWord (.slli d a h)) (k := 4) (by decide) d a h rfl
  refine long_of rfl rfl lo hi wf ?_
  rw [long_decImm e0]
  unfold decImm
  rw [e1]
  simp only [c0, f0, f1, f2, if_true]

theorem RoundTrip.srli (d : BitVec 4) (a : BitVec 4) (h : BitVec 6) : RoundTrip.Statement (.srli d a h) := by
  intro wf _
  obtain ⟨lo, hi, e0, e1, c0, f0, f1, f2⟩ := shape_Imm_1 (ww := encodeWord (.srli d a h)) (k := 5) (by decide) d a h rfl
  refine long_of rfl rfl lo hi wf ?_
  rw [long_decImm e0]
  unfold decImm
  rw [e1]
  simp only [c0, f0, f1, f2, if_true]

theorem RoundTrip.srai (d : BitVec 4) (a : BitVec 4) (h : BitVec 6) : RoundTrip.Statement (.srai d a h) := by
  intro wf _
  obtain ⟨lo, hi, e0, e1, c0, f0, f1, f2⟩ := shape_Imm_1 (ww := encodeWord (.srai d a h)) (k := 6) (by decide) d a h rfl
  refine long_of rfl rfl lo hi wf ?_
  rw [long_decImm e0]
  unfold decImm
  rw [e1]
  simp only [c0, f0, f1, f2, if_true]

theorem RoundTrip.slti (d : BitVec 4) (a : BitVec 4) (i : BitVec 13) : RoundTrip.Statement (.slti d a i) := by
  intro wf _
  obtain ⟨lo, hi, e0, e1, f0, f1, f2⟩ := shape_Imm_0 (ww := encodeWord (.slti d a i)) (k := 7) (by decide) d a i rfl
  refine long_of rfl rfl lo hi wf ?_
  rw [long_decImm e0]
  unfold decImm
  rw [e1]
  simp only [f0, f1, f2]

theorem RoundTrip.sltiu (d : BitVec 4) (a : BitVec 4) (i : BitVec 13) : RoundTrip.Statement (.sltiu d a i) := by
  intro wf _
  obtain ⟨lo, hi, e0, e1, f0, f1, f2⟩ := shape_Imm_0 (ww := encodeWord (.sltiu d a i)) (k := 8) (by decide) d a i rfl
  refine long_of rfl rfl lo hi wf ?_
  rw [long_decImm e0]
  unfold decImm
  rw [e1]
  simp only [f0, f1, f2]

theorem RoundTrip.muli (d : BitVec 4) (a : BitVec 4) (i : BitVec 13) : RoundTrip.Statement (.muli d a i) := by
  intro wf _
  obtain ⟨lo, hi, e0, e1, f0, f1, f2⟩ := shape_Imm_0 (ww := encodeWord (.muli d a i)) (k := 9) (by decide) d a i rfl
  refine long_of rfl rfl lo hi wf ?_
  rw [long_decImm e0]
  unfold decImm
  rw [e1]
  simp only [f0, f1, f2]

theorem shape_Imm_2 {k : Nat} (hk : k < 2 ^ 4) (x0 : BitVec 4) (x1 : BitVec 13) {ww : Nat}
    (hw : 0x82000000 + k * 2 ^ 13 + x0.toNat * 0x200000 + x1.toNat = ww) :
    2 ^ 31 ≤ ww ∧ ww < 2 ^ 32 ∧ num ww 25 7 = 65 ∧ num ww 13 4 = k ∧ num ww 17 4 = 0 ∧ fld ww 21 4 = x0 ∧ fld ww 0 13 = x1 := by
  have l0 := x0.isLt
  have l1 := x1.isLt
  simp only [num, fld]
  refine ⟨?_, ?_, ?_, ?_, ?_, ?_, ?_⟩
  · omega
  · omega
  · omega
  · omega
  · omega
  · apply BitVec.eq_of_toNat_eq; simp only [BitVec.toNat_ofNat]; omega
  · apply BitVec.eq_of_toNat_eq; simp only [BitVec.toNat_ofNat]; omega

theorem RoundTrip.li (d : BitVec 4) (i : BitVec 13) : RoundTrip.Statement (.li d i) := by
  intro wf _
  obtain ⟨lo, hi, e0, e1, c0, f0, f1⟩ := shape_Imm_2 (ww := encodeWord (.li d i)) (k := 10) (by decide) d i rfl
  refine long_of rfl rfl lo hi wf ?_
  rw [long_decImm e0]
  unfold decImm
  rw [e1]
  simp only [c0, f0, f1, if_true]

theorem shape_Upper_0 {k : Nat} (hk : k < 2 ^ 2) (x0 : BitVec 4) (x1 : BitVec 19) {ww : Nat}
    (hw : 0x84000000 + k * 2 ^ 19 + x0.toNat * 0x200000 + x1.toNat = ww) :
    2 ^ 31 ≤ ww ∧ ww < 2 ^ 32 ∧ num ww 25 7 = 66 ∧ num ww 19 2 = k ∧ fld ww 21 4 = x0 ∧ fld ww 0 19 = x1 := by
  have l0 := x0.isLt
  have l1 := x1.isLt
  simp only [num, fld]
  refine ⟨?_, ?_, ?_, ?_, ?_, ?_⟩
  · omega
  · omega
  · omega
  · omega
  · apply BitVec.eq_of_toNat_eq; simp only [BitVec.toNat_ofNat]; omega
  · apply BitVec.eq_of_toNat_eq; simp only [BitVec.toNat_ofNat]; omega

theorem RoundTrip.lih (d : BitVec 4) (i : BitVec 19) : RoundTrip.Statement (.lih d i) := by
  intro wf _
  obtain ⟨lo, hi, e0, e1, f0, f1⟩ := shape_Upper_0 (ww := encodeWord (.lih d i)) (k := 0) (by decide) d i rfl
  refine long_of rfl rfl lo hi wf ?_
  rw [long_decUpper e0]
  unfold decUpper
  rw [e1]
  simp only [f0, f1]

theorem RoundTrip.adpc (d : BitVec 4) (i : BitVec 19) : RoundTrip.Statement (.adpc d i) := by
  intro wf _
  obtain ⟨lo, hi, e0, e1, f0, f1⟩ := shape_Upper_0 (ww := encodeWord (.adpc d i)) (k := 1) (by decide) d i rfl
  refine long_of rfl rfl lo hi wf ?_
  rw [long_decUpper e0]
  unfold decUpper
  rw [e1]
  simp only [f0, f1]

theorem shape_Exti_0 (x0 : BitVec 3) (x1 : BitVec 2) (x2 : BitVec 1) (x3 : BitVec 16) {ww : Nat}
    (hw : 0x86000000 + x0.toNat * 0x400000 + x1.toNat * 0x100000 + x2.toNat * 0x80000 + x3.toNat = ww) :
    2 ^ 31 ≤ ww ∧ ww < 2 ^ 32 ∧ num ww 25 7 = 67 ∧ num ww 16 3 = 0 ∧ fld ww 22 3 = x0 ∧ fld ww 20 2 = x1 ∧ fld ww 19 1 = x2 ∧ fld ww 0 16 = x3 := by
  have l0 := x0.isLt
  have l1 := x1.isLt
  have l2 := x2.isLt
  have l3 := x3.isLt
  simp only [num, fld]
  refine ⟨?_, ?_, ?_, ?_, ?_, ?_, ?_, ?_⟩
  · omega
  · omega
  · omega
  · omega
  · apply BitVec.eq_of_toNat_eq; simp only [BitVec.toNat_ofNat]; omega
  · apply BitVec.eq_of_toNat_eq; simp only [BitVec.toNat_ofNat]; omega
  · apply BitVec.eq_of_toNat_eq; simp only [BitVec.toNat_ofNat]; omega
  · apply BitVec.eq_of_toNat_eq; simp only [BitVec.toNat_ofNat]; omega

theorem RoundTrip.exti (e : BitVec 3) (p : BitVec 2) (k : BitVec 1) (i : BitVec 16) : RoundTrip.Statement (.exti e p k i) := by
  intro wf _
  obtain ⟨lo, hi, e0, c0, f0, f1, f2, f3⟩ := shape_Exti_0 (ww := encodeWord (.exti e p k i)) e p k i rfl
  refine long_of rfl rfl lo hi wf ?_
  rw [long_decExti e0]
  unfold decExti
  simp only [c0, f0, f1, f2, f3, if_true]

theorem shape_Branch_0 {k : Nat} (hk : k < 2 ^ 3) (x0 : BitVec 4) (x1 : BitVec 4) (x2 : BitVec 14) {ww : Nat}
    (hw : 0x88000000 + k * 2 ^ 14 + x0.toNat * 0x200000 + x1.toNat * 0x20000 + x2.toNat = ww) :
    2 ^ 31 ≤ ww ∧ ww < 2 ^ 32 ∧ num ww 25 7 = 68 ∧ num ww 14 3 = k ∧ fld ww 21 4 = x0 ∧ fld ww 17 4 = x1 ∧ fld ww 0 14 = x2 := by
  have l0 := x0.isLt
  have l1 := x1.isLt
  have l2 := x2.isLt
  simp only [num, fld]
  refine ⟨?_, ?_, ?_, ?_, ?_, ?_, ?_⟩
  · omega
  · omega
  · omega
  · omega
  · apply BitVec.eq_of_toNat_eq; simp only [BitVec.toNat_ofNat]; omega
  · apply BitVec.eq_of_toNat_eq; simp only [BitVec.toNat_ofNat]; omega
  · apply BitVec.eq_of_toNat_eq; simp only [BitVec.toNat_ofNat]; omega

theorem RoundTrip.beq (a : BitVec 4) (b : BitVec 4) (o : BitVec 14) : RoundTrip.Statement (.beq a b o) := by
  intro wf _
  obtain ⟨lo, hi, e0, e1, f0, f1, f2⟩ := shape_Branch_0 (ww := encodeWord (.beq a b o)) (k := 0) (by decide) a b o rfl
  refine long_of rfl rfl lo hi wf ?_
  rw [long_decBranch e0]
  unfold decBranch
  rw [e1]
  simp only [f0, f1, f2]

theorem RoundTrip.bne (a : BitVec 4) (b : BitVec 4) (o : BitVec 14) : RoundTrip.Statement (.bne a b o) := by
  intro wf _
  obtain ⟨lo, hi, e0, e1, f0, f1, f2⟩ := shape_Branch_0 (ww := encodeWord (.bne a b o)) (k := 1) (by decide) a b o rfl
  refine long_of rfl rfl lo hi wf ?_
  rw [long_decBranch e0]
  unfold decBranch
  rw [e1]
  simp only [f0, f1, f2]

theorem RoundTrip.blt (a : BitVec 4) (b : BitVec 4) (o : BitVec 14) : RoundTrip.Statement (.blt a b o) := by
  intro wf _
  obtain ⟨lo, hi, e0, e1, f0, f1, f2⟩ := shape_Branch_0 (ww := encodeWord (.blt a b o)) (k := 2) (by decide) a b o rfl
  refine long_of rfl rfl lo hi wf ?_
  rw [long_decBranch e0]
  unfold decBranch
  rw [e1]
  simp only [f0, f1, f2]

theorem RoundTrip.bge (a : BitVec 4) (b : BitVec 4) (o : BitVec 14) : RoundTrip.Statement (.bge a b o) := by
  intro wf _
  obtain ⟨lo, hi, e0, e1, f0, f1, f2⟩ := shape_Branch_0 (ww := encodeWord (.bge a b o)) (k := 3) (by decide) a b o rfl
  refine long_of rfl rfl lo hi wf ?_
  rw [long_decBranch e0]
  unfold decBranch
  rw [e1]
  simp only [f0, f1, f2]

theorem RoundTrip.bltu (a : BitVec 4) (b : BitVec 4) (o : BitVec 14) : RoundTrip.Statement (.bltu a b o) := by
  intro wf _
  obtain ⟨lo, hi, e0, e1, f0, f1, f2⟩ := shape_Branch_0 (ww := encodeWord (.bltu a b o)) (k := 4) (by decide) a b o rfl
  refine long_of rfl rfl lo hi wf ?_
  rw [long_decBranch e0]
  unfold decBranch
  rw [e1]
  simp only [f0, f1, f2]

theorem RoundTrip.bgeu (a : BitVec 4) (b : BitVec 4) (o : BitVec 14) : RoundTrip.Statement (.bgeu a b o) := by
  intro wf _
  obtain ⟨lo, hi, e0, e1, f0, f1, f2⟩ := shape_Branch_0 (ww := encodeWord (.bgeu a b o)) (k := 5) (by decide) a b o rfl
  refine long_of rfl rfl lo hi wf ?_
  rw [long_decBranch e0]
  unfold decBranch
  rw [e1]
  simp only [f0, f1, f2]

theorem shape_Jump_0 (x0 : BitVec 25) {ww : Nat}
    (hw : 0x8a000000 + x0.toNat = ww) :
    2 ^ 31 ≤ ww ∧ ww < 2 ^ 32 ∧ num ww 25 7 = 69 ∧ fld ww 0 25 = x0 := by
  have l0 := x0.isLt
  simp only [num, fld]
  refine ⟨?_, ?_, ?_, ?_⟩
  · omega
  · omega
  · omega
  · apply BitVec.eq_of_toNat_eq; simp only [BitVec.toNat_ofNat]; omega

theorem RoundTrip.j (o : BitVec 25) : RoundTrip.Statement (.j o) := by
  intro wf _
  obtain ⟨lo, hi, e0, f0⟩ := shape_Jump_0 (ww := encodeWord (.j o)) o rfl
  refine long_of rfl rfl lo hi wf ?_
  rw [long_decJump e0]
  unfold decJump
  simp only [f0]

theorem shape_Call_0 (x0 : BitVec 25) {ww : Nat}
    (hw : 0x8c000000 + x0.toNat = ww) :
    2 ^ 31 ≤ ww ∧ ww < 2 ^ 32 ∧ num ww 25 7 = 70 ∧ fld ww 0 25 = x0 := by
  have l0 := x0.isLt
  simp only [num, fld]
  refine ⟨?_, ?_, ?_, ?_⟩
  · omega
  · omega
  · omega
  · apply BitVec.eq_of_toNat_eq; simp only [BitVec.toNat_ofNat]; omega

theorem RoundTrip.call (o : BitVec 25) : RoundTrip.Statement (.call o) := by
  intro wf _
  obtain ⟨lo, hi, e0, f0⟩ := shape_Call_0 (ww := encodeWord (.call o)) o rfl
  refine long_of rfl rfl lo hi wf ?_
  rw [long_decCall e0]
  unfold decCall
  simp only [f0]

theorem shape_System_0 {k : Nat} (hk : k < 2 ^ 6) (x0 : BitVec 4) {ww : Nat}
    (hw : 0x8e000000 + k * 2 ^ 7 + x0.toNat * 0x20000 = ww) :
    2 ^ 31 ≤ ww ∧ ww < 2 ^ 32 ∧ num ww 25 7 = 71 ∧ num ww 7 6 = k ∧ num ww 0 7 = 0 ∧ num ww 13 4 = 0 ∧ num ww 21 4 = 0 ∧ fld ww 17 4 = x0 := by
  have l0 := x0.isLt
  simp only [num, fld]
  refine ⟨?_, ?_, ?_, ?_, ?_, ?_, ?_, ?_⟩
  · omega
  · omega
  · omega
  · omega
  · omega
  · omega
  · omega
  · apply BitVec.eq_of_toNat_eq; simp only [BitVec.toNat_ofNat]; omega

theorem RoundTrip.jr (a : BitVec 4) : RoundTrip.Statement (.jr a) := by
  intro wf _
  obtain ⟨lo, hi, e0, e1, c0, c1, c2, f0⟩ := shape_System_0 (ww := encodeWord (.jr a)) (k := 0) (by decide) a rfl
  refine long_of rfl rfl lo hi wf ?_
  rw [long_decSystem e0]
  unfold decSystem
  rw [e1]
  simp only [c0, c1, c2, f0, if_true, and_self]

theorem RoundTrip.callr (a : BitVec 4) : RoundTrip.Statement (.callr a) := by
  intro wf _
  obtain ⟨lo, hi, e0, e1, c0, c1, c2, f0⟩ := shape_System_0 (ww := encodeWord (.callr a)) (k := 1) (by decide) a rfl
  refine long_of rfl rfl lo hi wf ?_
  rw [long_decSystem e0]
  unfold decSystem
  rw [e1]
  simp only [c0, c1, c2, f0, if_true, and_self]

theorem shape_System_1 {k : Nat} (hk : k < 2 ^ 6) {ww : Nat}
    (hw : 0x8e000000 + k * 2 ^ 7 = ww) :
    2 ^ 31 ≤ ww ∧ ww < 2 ^ 32 ∧ num ww 25 7 = 71 ∧ num ww 7 6 = k ∧ num ww 0 7 = 0 ∧ num ww 13 12 = 0 := by
  simp only [num]
  refine ⟨?_, ?_, ?_, ?_, ?_, ?_⟩
  · omega
  · omega
  · omega
  · omega
  · omega
  · omega

theorem RoundTrip.ret : RoundTrip.Statement (.ret) := by
  intro wf _
  obtain ⟨lo, hi, e0, e1, c0, c1⟩ := shape_System_1 (ww := encodeWord (.ret)) (k := 2) (by decide) rfl
  refine long_of rfl rfl lo hi wf ?_
  rw [long_decSystem e0]
  unfold decSystem
  rw [e1]
  simp only [c0, c1, if_true, and_self]

theorem shape_System_2 {k : Nat} (hk : k < 2 ^ 6) (x0 : BitVec 7) {ww : Nat}
    (hw : 0x8e000000 + k * 2 ^ 7 + x0.toNat = ww) :
    2 ^ 31 ≤ ww ∧ ww < 2 ^ 32 ∧ num ww 25 7 = 71 ∧ num ww 7 6 = k ∧ num ww 13 12 = 0 ∧ fld ww 0 7 = x0 := by
  have l0 := x0.isLt
  simp only [num, fld]
  refine ⟨?_, ?_, ?_, ?_, ?_, ?_⟩
  · omega
  · omega
  · omega
  · omega
  · omega
  · apply BitVec.eq_of_toNat_eq; simp only [BitVec.toNat_ofNat]; omega

theorem RoundTrip.trap (c : BitVec 7) : RoundTrip.Statement (.trap c) := by
  intro wf _
  obtain ⟨lo, hi, e0, e1, c0, f0⟩ := shape_System_2 (ww := encodeWord (.trap c)) (k := 3) (by decide) c rfl
  refine long_of rfl rfl lo hi wf ?_
  rw [long_decSystem e0]
  unfold decSystem
  rw [e1]
  simp only [c0, f0, if_true]

theorem RoundTrip.rte : RoundTrip.Statement (.rte) := by
  intro wf _
  obtain ⟨lo, hi, e0, e1, c0, c1⟩ := shape_System_1 (ww := encodeWord (.rte)) (k := 4) (by decide) rfl
  refine long_of rfl rfl lo hi wf ?_
  rw [long_decSystem e0]
  unfold decSystem
  rw [e1]
  simp only [c0, c1, if_true, and_self]

theorem shape_System_3 {k : Nat} (hk : k < 2 ^ 6) (x0 : BitVec 4) (x1 : BitVec 7) {ww : Nat}
    (hw : 0x8e000000 + k * 2 ^ 7 + x0.toNat * 0x200000 + x1.toNat = ww) :
    2 ^ 31 ≤ ww ∧ ww < 2 ^ 32 ∧ num ww 25 7 = 71 ∧ num ww 7 6 = k ∧ num ww 13 8 = 0 ∧ fld ww 21 4 = x0 ∧ fld ww 0 7 = x1 := by
  have l0 := x0.isLt
  have l1 := x1.isLt
  simp only [num, fld]
  refine ⟨?_, ?_, ?_, ?_, ?_, ?_, ?_⟩
  · omega
  · omega
  · omega
  · omega
  · omega
  · apply BitVec.eq_of_toNat_eq; simp only [BitVec.toNat_ofNat]; omega
  · apply BitVec.eq_of_toNat_eq; simp only [BitVec.toNat_ofNat]; omega

theorem RoundTrip.mfs (d : BitVec 4) (r : BitVec 7) : RoundTrip.Statement (.mfs d r) := by
  intro wf _
  obtain ⟨lo, hi, e0, e1, c0, f0, f1⟩ := shape_System_3 (ww := encodeWord (.mfs d r)) (k := 5) (by decide) d r rfl
  refine long_of rfl rfl lo hi wf ?_
  rw [long_decSystem e0]
  unfold decSystem
  rw [e1]
  simp only [c0, f0, f1, if_true]

theorem shape_System_4 {k : Nat} (hk : k < 2 ^ 6) (x0 : BitVec 4) (x1 : BitVec 7) {ww : Nat}
    (hw : 0x8e000000 + k * 2 ^ 7 + x0.toNat * 0x20000 + x1.toNat = ww) :
    2 ^ 31 ≤ ww ∧ ww < 2 ^ 32 ∧ num ww 25 7 = 71 ∧ num ww 7 6 = k ∧ num ww 13 4 = 0 ∧ num ww 21 4 = 0 ∧ fld ww 17 4 = x0 ∧ fld ww 0 7 = x1 := by
  have l0 := x0.isLt
  have l1 := x1.isLt
  simp only [num, fld]
  refine ⟨?_, ?_, ?_, ?_, ?_, ?_, ?_, ?_⟩
  · omega
  · omega
  · omega
  · omega
  · omega
  · omega
  · apply BitVec.eq_of_toNat_eq; simp only [BitVec.toNat_ofNat]; omega
  · apply BitVec.eq_of_toNat_eq; simp only [BitVec.toNat_ofNat]; omega

theorem RoundTrip.mts (a : BitVec 4) (r : BitVec 7) : RoundTrip.Statement (.mts a r) := by
  intro wf _
  obtain ⟨lo, hi, e0, e1, c0, c1, f0, f1⟩ := shape_System_4 (ww := encodeWord (.mts a r)) (k := 6) (by decide) a r rfl
  refine long_of rfl rfl lo hi wf ?_
  rw [long_decSystem e0]
  unfold decSystem
  rw [e1]
  simp only [c0, c1, f0, f1, if_true, and_self]

theorem shape_System_5 {k : Nat} (hk : k < 2 ^ 6) (x0 : BitVec 3) (x1 : BitVec 4) {ww : Nat}
    (hw : 0x8e000000 + k * 2 ^ 7 + x0.toNat * 0x200000 + x1.toNat * 0x20000 = ww) :
    2 ^ 31 ≤ ww ∧ ww < 2 ^ 32 ∧ num ww 25 7 = 71 ∧ num ww 7 6 = k ∧ num ww 0 7 = 0 ∧ num ww 13 4 = 0 ∧ num ww 24 1 = 0 ∧ fld ww 21 3 = x0 ∧ fld ww 17 4 = x1 := by
  have l0 := x0.isLt
  have l1 := x1.isLt
  simp only [num, fld]
  refine ⟨?_, ?_, ?_, ?_, ?_, ?_, ?_, ?_, ?_⟩
  · omega
  · omega
  · omega
  · omega
  · omega
  · omega
  · omega
  · apply BitVec.eq_of_toNat_eq; simp only [BitVec.toNat_ofNat]; omega
  · apply BitVec.eq_of_toNat_eq; simp only [BitVec.toNat_ofNat]; omega

theorem RoundTrip.ext (n : BitVec 3) (a : BitVec 4) : RoundTrip.Statement (.ext n a) := by
  intro wf _
  obtain ⟨lo, hi, e0, e1, c0, c1, c2, f0, f1⟩ := shape_System_5 (ww := encodeWord (.ext n a)) (k := 7) (by decide) n a rfl
  refine long_of rfl rfl lo hi wf ?_
  rw [long_decSystem e0]
  unfold decSystem
  rw [e1]
  simp only [c0, c1, c2, f0, f1, if_true, and_self]

theorem shape_System_6 {k : Nat} (hk : k < 2 ^ 6) (x0 : BitVec 4) (x1 : BitVec 3) {ww : Nat}
    (hw : 0x8e000000 + k * 2 ^ 7 + x0.toNat * 0x200000 + x1.toNat * 0x20000 = ww) :
    2 ^ 31 ≤ ww ∧ ww < 2 ^ 32 ∧ num ww 25 7 = 71 ∧ num ww 7 6 = k ∧ num ww 0 7 = 0 ∧ num ww 13 4 = 0 ∧ num ww 20 1 = 0 ∧ fld ww 21 4 = x0 ∧ fld ww 17 3 = x1 := by
  have l0 := x0.isLt
  have l1 := x1.isLt
  simp only [num, fld]
  refine ⟨?_, ?_, ?_, ?_, ?_, ?_, ?_, ?_, ?_⟩
  · omega
  · omega
  · omega
  · omega
  · omega
  · omega
  · omega
  · apply BitVec.eq_of_toNat_eq; simp only [BitVec.toNat_ofNat]; omega
  · apply BitVec.eq_of_toNat_eq; simp only [BitVec.toNat_ofNat]; omega

theorem RoundTrip.mfe (d : BitVec 4) (n : BitVec 3) : RoundTrip.Statement (.mfe d n) := by
  intro wf _
  obtain ⟨lo, hi, e0, e1, c0, c1, c2, f0, f1⟩ := shape_System_6 (ww := encodeWord (.mfe d n)) (k := 8) (by decide) d n rfl
  refine long_of rfl rfl lo hi wf ?_
  rw [long_decSystem e0]
  unfold decSystem
  rw [e1]
  simp only [c0, c1, c2, f0, f1, if_true, and_self]

theorem shape_System_7 {k : Nat} (hk : k < 2 ^ 6) (x0 : BitVec 4) (x1 : BitVec 4) (x2 : BitVec 4) {ww : Nat}
    (hw : 0x8e000000 + k * 2 ^ 7 + x0.toNat * 0x200000 + x1.toNat * 0x20000 + x2.toNat * 0x2000 = ww) :
    2 ^ 31 ≤ ww ∧ ww < 2 ^ 32 ∧ num ww 25 7 = 71 ∧ num ww 7 6 = k ∧ num ww 0 7 = 0 ∧ fld ww 21 4 = x0 ∧ fld ww 17 4 = x1 ∧ fld ww 13 4 = x2 := by
  have l0 := x0.isLt
  have l1 := x1.isLt
  have l2 := x2.isLt
  simp only [num, fld]
  refine ⟨?_, ?_, ?_, ?_, ?_, ?_, ?_, ?_⟩
  · omega
  · omega
  · omega
  · omega
  · omega
  · apply BitVec.eq_of_toNat_eq; simp only [BitVec.toNat_ofNat]; omega
  · apply BitVec.eq_of_toNat_eq; simp only [BitVec.toNat_ofNat]; omega
  · apply BitVec.eq_of_toNat_eq; simp only [BitVec.toNat_ofNat]; omega

theorem RoundTrip.csel (d : BitVec 4) (a : BitVec 4) (b : BitVec 4) : RoundTrip.Statement (.csel d a b) := by
  intro wf _
  obtain ⟨lo, hi, e0, e1, c0, f0, f1, f2⟩ := shape_System_7 (ww := encodeWord (.csel d a b)) (k := 9) (by decide) d a b rfl
  refine long_of rfl rfl lo hi wf ?_
  rw [long_decSystem e0]
  unfold decSystem
  rw [e1]
  simp only [c0, f0, f1, f2, if_true]

theorem shape_Load_0 {k : Nat} (hk : k < 2 ^ 3) (x0 : BitVec 4) (x1 : BitVec 4) (x2 : BitVec 3) (x3 : BitVec 11) {ww : Nat}
    (hw : 0xa0000000 + k * 2 ^ 11 + x0.toNat * 0x200000 + x1.toNat * 0x20000 + x2.toNat * 0x4000 + x3.toNat = ww) :
    2 ^ 31 ≤ ww ∧ ww < 2 ^ 32 ∧ num ww 25 7 = 80 ∧ num ww 11 3 = k ∧ fld ww 21 4 = x0 ∧ fld ww 17 4 = x1 ∧ fld ww 14 3 = x2 ∧ fld ww 0 11 = x3 := by
  have l0 := x0.isLt
  have l1 := x1.isLt
  have l2 := x2.isLt
  have l3 := x3.isLt
  simp only [num, fld]
  refine ⟨?_, ?_, ?_, ?_, ?_, ?_, ?_, ?_⟩
  · omega
  · omega
  · omega
  · omega
  · apply BitVec.eq_of_toNat_eq; simp only [BitVec.toNat_ofNat]; omega
  · apply BitVec.eq_of_toNat_eq; simp only [BitVec.toNat_ofNat]; omega
  · apply BitVec.eq_of_toNat_eq; simp only [BitVec.toNat_ofNat]; omega
  · apply BitVec.eq_of_toNat_eq; simp only [BitVec.toNat_ofNat]; omega

theorem RoundTrip.ldb (d : BitVec 4) (b : BitVec 4) (w : BitVec 3) (i : BitVec 11) : RoundTrip.Statement (.ldb d b w i) := by
  intro wf _
  obtain ⟨lo, hi, e0, e1, f0, f1, f2, f3⟩ := shape_Load_0 (ww := encodeWord (.ldb d b w i)) (k := 0) (by decide) d b w i rfl
  refine long_of rfl rfl lo hi wf ?_
  rw [long_decLoad e0]
  unfold decLoad
  rw [e1]
  simp only [f0, f1, f2, f3]

theorem RoundTrip.ldbu (d : BitVec 4) (b : BitVec 4) (w : BitVec 3) (i : BitVec 11) : RoundTrip.Statement (.ldbu d b w i) := by
  intro wf _
  obtain ⟨lo, hi, e0, e1, f0, f1, f2, f3⟩ := shape_Load_0 (ww := encodeWord (.ldbu d b w i)) (k := 1) (by decide) d b w i rfl
  refine long_of rfl rfl lo hi wf ?_
  rw [long_decLoad e0]
  unfold decLoad
  rw [e1]
  simp only [f0, f1, f2, f3]

theorem RoundTrip.ldh (d : BitVec 4) (b : BitVec 4) (w : BitVec 3) (i : BitVec 11) : RoundTrip.Statement (.ldh d b w i) := by
  intro wf _
  obtain ⟨lo, hi, e0, e1, f0, f1, f2, f3⟩ := shape_Load_0 (ww := encodeWord (.ldh d b w i)) (k := 2) (by decide) d b w i rfl
  refine long_of rfl rfl lo hi wf ?_
  rw [long_decLoad e0]
  unfold decLoad
  rw [e1]
  simp only [f0, f1, f2, f3]

theorem RoundTrip.ldhu (d : BitVec 4) (b : BitVec 4) (w : BitVec 3) (i : BitVec 11) : RoundTrip.Statement (.ldhu d b w i) := by
  intro wf _
  obtain ⟨lo, hi, e0, e1, f0, f1, f2, f3⟩ := shape_Load_0 (ww := encodeWord (.ldhu d b w i)) (k := 3) (by decide) d b w i rfl
  refine long_of rfl rfl lo hi wf ?_
  rw [long_decLoad e0]
  unfold decLoad
  rw [e1]
  simp only [f0, f1, f2, f3]

theorem RoundTrip.ldw (d : BitVec 4) (b : BitVec 4) (w : BitVec 3) (i : BitVec 11) : RoundTrip.Statement (.ldw d b w i) := by
  intro wf _
  obtain ⟨lo, hi, e0, e1, f0, f1, f2, f3⟩ := shape_Load_0 (ww := encodeWord (.ldw d b w i)) (k := 4) (by decide) d b w i rfl
  refine long_of rfl rfl lo hi wf ?_
  rw [long_decLoad e0]
  unfold decLoad
  rw [e1]
  simp only [f0, f1, f2, f3]

theorem RoundTrip.ldwu (d : BitVec 4) (b : BitVec 4) (w : BitVec 3) (i : BitVec 11) : RoundTrip.Statement (.ldwu d b w i) := by
  intro wf _
  obtain ⟨lo, hi, e0, e1, f0, f1, f2, f3⟩ := shape_Load_0 (ww := encodeWord (.ldwu d b w i)) (k := 5) (by decide) d b w i rfl
  refine long_of rfl rfl lo hi wf ?_
  rw [long_decLoad e0]
  unfold decLoad
  rw [e1]
  simp only [f0, f1, f2, f3]

theorem RoundTrip.ldd (d : BitVec 4) (b : BitVec 4) (w : BitVec 3) (i : BitVec 11) : RoundTrip.Statement (.ldd d b w i) := by
  intro wf _
  obtain ⟨lo, hi, e0, e1, f0, f1, f2, f3⟩ := shape_Load_0 (ww := encodeWord (.ldd d b w i)) (k := 6) (by decide) d b w i rfl
  refine long_of rfl rfl lo hi wf ?_
  rw [long_decLoad e0]
  unfold decLoad
  rw [e1]
  simp only [f0, f1, f2, f3]

theorem shape_Store_0 {k : Nat} (hk : k < 2 ^ 3) (x0 : BitVec 4) (x1 : BitVec 4) (x2 : BitVec 3) (x3 : BitVec 11) {ww : Nat}
    (hw : 0xa2000000 + k * 2 ^ 11 + x0.toNat * 0x200000 + x1.toNat * 0x20000 + x2.toNat * 0x4000 + x3.toNat = ww) :
    2 ^ 31 ≤ ww ∧ ww < 2 ^ 32 ∧ num ww 25 7 = 81 ∧ num ww 11 3 = k ∧ fld ww 21 4 = x0 ∧ fld ww 17 4 = x1 ∧ fld ww 14 3 = x2 ∧ fld ww 0 11 = x3 := by
  have l0 := x0.isLt
  have l1 := x1.isLt
  have l2 := x2.isLt
  have l3 := x3.isLt
  simp only [num, fld]
  refine ⟨?_, ?_, ?_, ?_, ?_, ?_, ?_, ?_⟩
  · omega
  · omega
  · omega
  · omega
  · apply BitVec.eq_of_toNat_eq; simp only [BitVec.toNat_ofNat]; omega
  · apply BitVec.eq_of_toNat_eq; simp only [BitVec.toNat_ofNat]; omega
  · apply BitVec.eq_of_toNat_eq; simp only [BitVec.toNat_ofNat]; omega
  · apply BitVec.eq_of_toNat_eq; simp only [BitVec.toNat_ofNat]; omega

theorem RoundTrip.stb (d : BitVec 4) (b : BitVec 4) (w : BitVec 3) (i : BitVec 11) : RoundTrip.Statement (.stb d b w i) := by
  intro wf _
  obtain ⟨lo, hi, e0, e1, f0, f1, f2, f3⟩ := shape_Store_0 (ww := encodeWord (.stb d b w i)) (k := 0) (by decide) d b w i rfl
  refine long_of rfl rfl lo hi wf ?_
  rw [long_decStore e0]
  unfold decStore
  rw [e1]
  simp only [f0, f1, f2, f3]

theorem RoundTrip.sth (d : BitVec 4) (b : BitVec 4) (w : BitVec 3) (i : BitVec 11) : RoundTrip.Statement (.sth d b w i) := by
  intro wf _
  obtain ⟨lo, hi, e0, e1, f0, f1, f2, f3⟩ := shape_Store_0 (ww := encodeWord (.sth d b w i)) (k := 1) (by decide) d b w i rfl
  refine long_of rfl rfl lo hi wf ?_
  rw [long_decStore e0]
  unfold decStore
  rw [e1]
  simp only [f0, f1, f2, f3]

theorem RoundTrip.stw (d : BitVec 4) (b : BitVec 4) (w : BitVec 3) (i : BitVec 11) : RoundTrip.Statement (.stw d b w i) := by
  intro wf _
  obtain ⟨lo, hi, e0, e1, f0, f1, f2, f3⟩ := shape_Store_0 (ww := encodeWord (.stw d b w i)) (k := 2) (by decide) d b w i rfl
  refine long_of rfl rfl lo hi wf ?_
  rw [long_decStore e0]
  unfold decStore
  rw [e1]
  simp only [f0, f1, f2, f3]

theorem RoundTrip.std (d : BitVec 4) (b : BitVec 4) (w : BitVec 3) (i : BitVec 11) : RoundTrip.Statement (.std d b w i) := by
  intro wf _
  obtain ⟨lo, hi, e0, e1, f0, f1, f2, f3⟩ := shape_Store_0 (ww := encodeWord (.std d b w i)) (k := 3) (by decide) d b w i rfl
  refine long_of rfl rfl lo hi wf ?_
  rw [long_decStore e0]
  unfold decStore
  rw [e1]
  simp only [f0, f1, f2, f3]

theorem shape_Indexed_0 {k : Nat} (hk : k < 2 ^ 5) (x0 : BitVec 4) (x1 : BitVec 4) (x2 : BitVec 4) (x3 : BitVec 3) (x4 : BitVec 2) {ww : Nat}
    (hw : 0xa4000000 + k * 2 ^ 5 + x0.toNat * 0x200000 + x1.toNat * 0x20000 + x2.toNat * 0x2000 + x3.toNat * 0x400 + x4.toNat * 0x8 = ww) :
    2 ^ 31 ≤ ww ∧ ww < 2 ^ 32 ∧ num ww 25 7 = 82 ∧ num ww 5 5 = k ∧ num ww 0 3 = 0 ∧ fld ww 21 4 = x0 ∧ fld ww 17 4 = x1 ∧ fld ww 13 4 = x2 ∧ fld ww 10 3 = x3 ∧ fld ww 3 2 = x4 := by
  have l0 := x0.isLt
  have l1 := x1.isLt
  have l2 := x2.isLt
  have l3 := x3.isLt
  have l4 := x4.isLt
  simp only [num, fld]
  refine ⟨?_, ?_, ?_, ?_, ?_, ?_, ?_, ?_, ?_, ?_⟩
  · omega
  · omega
  · omega
  · omega
  · omega
  · apply BitVec.eq_of_toNat_eq; simp only [BitVec.toNat_ofNat]; omega
  · apply BitVec.eq_of_toNat_eq; simp only [BitVec.toNat_ofNat]; omega
  · apply BitVec.eq_of_toNat_eq; simp only [BitVec.toNat_ofNat]; omega
  · apply BitVec.eq_of_toNat_eq; simp only [BitVec.toNat_ofNat]; omega
  · apply BitVec.eq_of_toNat_eq; simp only [BitVec.toNat_ofNat]; omega

theorem RoundTrip.ldbX (d : BitVec 4) (b : BitVec 4) (x : BitVec 4) (w : BitVec 3) (s : BitVec 2) : RoundTrip.Statement (.ldbX d b x w s) := by
  intro wf _
  obtain ⟨lo, hi, e0, e1, c0, f0, f1, f2, f3, f4⟩ := shape_Indexed_0 (ww := encodeWord (.ldbX d b x w s)) (k := 0) (by decide) d b x w s rfl
  refine long_of rfl rfl lo hi wf ?_
  rw [long_decIndexed e0]
  unfold decIndexed
  rw [e1]
  simp only [c0, f0, f1, f2, f3, f4, if_true]

theorem RoundTrip.ldbuX (d : BitVec 4) (b : BitVec 4) (x : BitVec 4) (w : BitVec 3) (s : BitVec 2) : RoundTrip.Statement (.ldbuX d b x w s) := by
  intro wf _
  obtain ⟨lo, hi, e0, e1, c0, f0, f1, f2, f3, f4⟩ := shape_Indexed_0 (ww := encodeWord (.ldbuX d b x w s)) (k := 1) (by decide) d b x w s rfl
  refine long_of rfl rfl lo hi wf ?_
  rw [long_decIndexed e0]
  unfold decIndexed
  rw [e1]
  simp only [c0, f0, f1, f2, f3, f4, if_true]

theorem RoundTrip.ldhX (d : BitVec 4) (b : BitVec 4) (x : BitVec 4) (w : BitVec 3) (s : BitVec 2) : RoundTrip.Statement (.ldhX d b x w s) := by
  intro wf _
  obtain ⟨lo, hi, e0, e1, c0, f0, f1, f2, f3, f4⟩ := shape_Indexed_0 (ww := encodeWord (.ldhX d b x w s)) (k := 2) (by decide) d b x w s rfl
  refine long_of rfl rfl lo hi wf ?_
  rw [long_decIndexed e0]
  unfold decIndexed
  rw [e1]
  simp only [c0, f0, f1, f2, f3, f4, if_true]

theorem RoundTrip.ldhuX (d : BitVec 4) (b : BitVec 4) (x : BitVec 4) (w : BitVec 3) (s : BitVec 2) : RoundTrip.Statement (.ldhuX d b x w s) := by
  intro wf _
  obtain ⟨lo, hi, e0, e1, c0, f0, f1, f2, f3, f4⟩ := shape_Indexed_0 (ww := encodeWord (.ldhuX d b x w s)) (k := 3) (by decide) d b x w s rfl
  refine long_of rfl rfl lo hi wf ?_
  rw [long_decIndexed e0]
  unfold decIndexed
  rw [e1]
  simp only [c0, f0, f1, f2, f3, f4, if_true]

theorem RoundTrip.ldwX (d : BitVec 4) (b : BitVec 4) (x : BitVec 4) (w : BitVec 3) (s : BitVec 2) : RoundTrip.Statement (.ldwX d b x w s) := by
  intro wf _
  obtain ⟨lo, hi, e0, e1, c0, f0, f1, f2, f3, f4⟩ := shape_Indexed_0 (ww := encodeWord (.ldwX d b x w s)) (k := 4) (by decide) d b x w s rfl
  refine long_of rfl rfl lo hi wf ?_
  rw [long_decIndexed e0]
  unfold decIndexed
  rw [e1]
  simp only [c0, f0, f1, f2, f3, f4, if_true]

theorem RoundTrip.ldwuX (d : BitVec 4) (b : BitVec 4) (x : BitVec 4) (w : BitVec 3) (s : BitVec 2) : RoundTrip.Statement (.ldwuX d b x w s) := by
  intro wf _
  obtain ⟨lo, hi, e0, e1, c0, f0, f1, f2, f3, f4⟩ := shape_Indexed_0 (ww := encodeWord (.ldwuX d b x w s)) (k := 5) (by decide) d b x w s rfl
  refine long_of rfl rfl lo hi wf ?_
  rw [long_decIndexed e0]
  unfold decIndexed
  rw [e1]
  simp only [c0, f0, f1, f2, f3, f4, if_true]

theorem RoundTrip.lddX (d : BitVec 4) (b : BitVec 4) (x : BitVec 4) (w : BitVec 3) (s : BitVec 2) : RoundTrip.Statement (.lddX d b x w s) := by
  intro wf _
  obtain ⟨lo, hi, e0, e1, c0, f0, f1, f2, f3, f4⟩ := shape_Indexed_0 (ww := encodeWord (.lddX d b x w s)) (k := 6) (by decide) d b x w s rfl
  refine long_of rfl rfl lo hi wf ?_
  rw [long_decIndexed e0]
  unfold decIndexed
  rw [e1]
  simp only [c0, f0, f1, f2, f3, f4, if_true]

theorem RoundTrip.stbX (d : BitVec 4) (b : BitVec 4) (x : BitVec 4) (w : BitVec 3) (s : BitVec 2) : RoundTrip.Statement (.stbX d b x w s) := by
  intro wf _
  obtain ⟨lo, hi, e0, e1, c0, f0, f1, f2, f3, f4⟩ := shape_Indexed_0 (ww := encodeWord (.stbX d b x w s)) (k := 8) (by decide) d b x w s rfl
  refine long_of rfl rfl lo hi wf ?_
  rw [long_decIndexed e0]
  unfold decIndexed
  rw [e1]
  simp only [c0, f0, f1, f2, f3, f4, if_true]

theorem RoundTrip.sthX (d : BitVec 4) (b : BitVec 4) (x : BitVec 4) (w : BitVec 3) (s : BitVec 2) : RoundTrip.Statement (.sthX d b x w s) := by
  intro wf _
  obtain ⟨lo, hi, e0, e1, c0, f0, f1, f2, f3, f4⟩ := shape_Indexed_0 (ww := encodeWord (.sthX d b x w s)) (k := 9) (by decide) d b x w s rfl
  refine long_of rfl rfl lo hi wf ?_
  rw [long_decIndexed e0]
  unfold decIndexed
  rw [e1]
  simp only [c0, f0, f1, f2, f3, f4, if_true]

theorem RoundTrip.stwX (d : BitVec 4) (b : BitVec 4) (x : BitVec 4) (w : BitVec 3) (s : BitVec 2) : RoundTrip.Statement (.stwX d b x w s) := by
  intro wf _
  obtain ⟨lo, hi, e0, e1, c0, f0, f1, f2, f3, f4⟩ := shape_Indexed_0 (ww := encodeWord (.stwX d b x w s)) (k := 10) (by decide) d b x w s rfl
  refine long_of rfl rfl lo hi wf ?_
  rw [long_decIndexed e0]
  unfold decIndexed
  rw [e1]
  simp only [c0, f0, f1, f2, f3, f4, if_true]

theorem RoundTrip.stdX (d : BitVec 4) (b : BitVec 4) (x : BitVec 4) (w : BitVec 3) (s : BitVec 2) : RoundTrip.Statement (.stdX d b x w s) := by
  intro wf _
  obtain ⟨lo, hi, e0, e1, c0, f0, f1, f2, f3, f4⟩ := shape_Indexed_0 (ww := encodeWord (.stdX d b x w s)) (k := 11) (by decide) d b x w s rfl
  refine long_of rfl rfl lo hi wf ?_
  rw [long_decIndexed e0]
  unfold decIndexed
  rw [e1]
  simp only [c0, f0, f1, f2, f3, f4, if_true]

theorem shape_Atomic_0 {k : Nat} (hk : k < 2 ^ 4) (x0 : BitVec 4) (x1 : BitVec 4) (x2 : BitVec 4) (x3 : BitVec 3) (x4 : BitVec 1) (x5 : BitVec 2) (x6 : BitVec 1) {ww : Nat}
    (hw : 0xa6000020 + k * 2 ^ 6 + x0.toNat * 0x200000 + x1.toNat * 0x20000 + x2.toNat * 0x2000 + x3.toNat * 0x400 + x4.toNat * 0x10 + x5.toNat * 0x4 + x6.toNat * 0x2 = ww) :
    2 ^ 31 ≤ ww ∧ ww < 2 ^ 32 ∧ num ww 25 7 = 83 ∧ num ww 6 4 = k ∧ num ww 0 1 = 0 ∧ num ww 5 1 = 1 ∧ fld ww 21 4 = x0 ∧ fld ww 17 4 = x1 ∧ fld ww 13 4 = x2 ∧ fld ww 10 3 = x3 ∧ fld ww 4 1 = x4 ∧ fld ww 2 2 = x5 ∧ fld ww 1 1 = x6 := by
  have l0 := x0.isLt
  have l1 := x1.isLt
  have l2 := x2.isLt
  have l3 := x3.isLt
  have l4 := x4.isLt
  have l5 := x5.isLt
  have l6 := x6.isLt
  simp only [num, fld]
  refine ⟨?_, ?_, ?_, ?_, ?_, ?_, ?_, ?_, ?_, ?_, ?_, ?_, ?_⟩
  · omega
  · omega
  · omega
  · omega
  · omega
  · omega
  · apply BitVec.eq_of_toNat_eq; simp only [BitVec.toNat_ofNat]; omega
  · apply BitVec.eq_of_toNat_eq; simp only [BitVec.toNat_ofNat]; omega
  · apply BitVec.eq_of_toNat_eq; simp only [BitVec.toNat_ofNat]; omega
  · apply BitVec.eq_of_toNat_eq; simp only [BitVec.toNat_ofNat]; omega
  · apply BitVec.eq_of_toNat_eq; simp only [BitVec.toNat_ofNat]; omega
  · apply BitVec.eq_of_toNat_eq; simp only [BitVec.toNat_ofNat]; omega
  · apply BitVec.eq_of_toNat_eq; simp only [BitVec.toNat_ofNat]; omega

theorem RoundTrip.aadd (d : BitVec 4) (b : BitVec 4) (v : BitVec 4) (w : BitVec 3) (z : BitVec 1) (o : BitVec 2) (y : BitVec 1) : RoundTrip.Statement (.aadd d b v w z o y) := by
  intro wf _
  obtain ⟨lo, hi, e0, e1, c0, c1, f0, f1, f2, f3, f4, f5, f6⟩ := shape_Atomic_0 (ww := encodeWord (.aadd d b v w z o y)) (k := 0) (by decide) d b v w z o y rfl
  refine long_of rfl rfl lo hi wf ?_
  rw [long_decAtomic e0]
  unfold decAtomic
  rw [e1]
  simp only [c0, c1, f0, f1, f2, f3, f4, f5, f6, if_true, and_self]

theorem RoundTrip.amin (d : BitVec 4) (b : BitVec 4) (v : BitVec 4) (w : BitVec 3) (z : BitVec 1) (o : BitVec 2) (y : BitVec 1) : RoundTrip.Statement (.amin d b v w z o y) := by
  intro wf _
  obtain ⟨lo, hi, e0, e1, c0, c1, f0, f1, f2, f3, f4, f5, f6⟩ := shape_Atomic_0 (ww := encodeWord (.amin d b v w z o y)) (k := 1) (by decide) d b v w z o y rfl
  refine long_of rfl rfl lo hi wf ?_
  rw [long_decAtomic e0]
  unfold decAtomic
  rw [e1]
  simp only [c0, c1, f0, f1, f2, f3, f4, f5, f6, if_true, and_self]

theorem RoundTrip.aminu (d : BitVec 4) (b : BitVec 4) (v : BitVec 4) (w : BitVec 3) (z : BitVec 1) (o : BitVec 2) (y : BitVec 1) : RoundTrip.Statement (.aminu d b v w z o y) := by
  intro wf _
  obtain ⟨lo, hi, e0, e1, c0, c1, f0, f1, f2, f3, f4, f5, f6⟩ := shape_Atomic_0 (ww := encodeWord (.aminu d b v w z o y)) (k := 2) (by decide) d b v w z o y rfl
  refine long_of rfl rfl lo hi wf ?_
  rw [long_decAtomic e0]
  unfold decAtomic
  rw [e1]
  simp only [c0, c1, f0, f1, f2, f3, f4, f5, f6, if_true, and_self]

theorem RoundTrip.amax (d : BitVec 4) (b : BitVec 4) (v : BitVec 4) (w : BitVec 3) (z : BitVec 1) (o : BitVec 2) (y : BitVec 1) : RoundTrip.Statement (.amax d b v w z o y) := by
  intro wf _
  obtain ⟨lo, hi, e0, e1, c0, c1, f0, f1, f2, f3, f4, f5, f6⟩ := shape_Atomic_0 (ww := encodeWord (.amax d b v w z o y)) (k := 3) (by decide) d b v w z o y rfl
  refine long_of rfl rfl lo hi wf ?_
  rw [long_decAtomic e0]
  unfold decAtomic
  rw [e1]
  simp only [c0, c1, f0, f1, f2, f3, f4, f5, f6, if_true, and_self]

theorem RoundTrip.amaxu (d : BitVec 4) (b : BitVec 4) (v : BitVec 4) (w : BitVec 3) (z : BitVec 1) (o : BitVec 2) (y : BitVec 1) : RoundTrip.Statement (.amaxu d b v w z o y) := by
  intro wf _
  obtain ⟨lo, hi, e0, e1, c0, c1, f0, f1, f2, f3, f4, f5, f6⟩ := shape_Atomic_0 (ww := encodeWord (.amaxu d b v w z o y)) (k := 4) (by decide) d b v w z o y rfl
  refine long_of rfl rfl lo hi wf ?_
  rw [long_decAtomic e0]
  unfold decAtomic
  rw [e1]
  simp only [c0, c1, f0, f1, f2, f3, f4, f5, f6, if_true, and_self]

theorem RoundTrip.aand (d : BitVec 4) (b : BitVec 4) (v : BitVec 4) (w : BitVec 3) (z : BitVec 1) (o : BitVec 2) (y : BitVec 1) : RoundTrip.Statement (.aand d b v w z o y) := by
  intro wf _
  obtain ⟨lo, hi, e0, e1, c0, c1, f0, f1, f2, f3, f4, f5, f6⟩ := shape_Atomic_0 (ww := encodeWord (.aand d b v w z o y)) (k := 5) (by decide) d b v w z o y rfl
  refine long_of rfl rfl lo hi wf ?_
  rw [long_decAtomic e0]
  unfold decAtomic
  rw [e1]
  simp only [c0, c1, f0, f1, f2, f3, f4, f5, f6, if_true, and_self]

theorem RoundTrip.aor (d : BitVec 4) (b : BitVec 4) (v : BitVec 4) (w : BitVec 3) (z : BitVec 1) (o : BitVec 2) (y : BitVec 1) : RoundTrip.Statement (.aor d b v w z o y) := by
  intro wf _
  obtain ⟨lo, hi, e0, e1, c0, c1, f0, f1, f2, f3, f4, f5, f6⟩ := shape_Atomic_0 (ww := encodeWord (.aor d b v w z o y)) (k := 6) (by decide) d b v w z o y rfl
  refine long_of rfl rfl lo hi wf ?_
  rw [long_decAtomic e0]
  unfold decAtomic
  rw [e1]
  simp only [c0, c1, f0, f1, f2, f3, f4, f5, f6, if_true, and_self]

theorem RoundTrip.axor (d : BitVec 4) (b : BitVec 4) (v : BitVec 4) (w : BitVec 3) (z : BitVec 1) (o : BitVec 2) (y : BitVec 1) : RoundTrip.Statement (.axor d b v w z o y) := by
  intro wf _
  obtain ⟨lo, hi, e0, e1, c0, c1, f0, f1, f2, f3, f4, f5, f6⟩ := shape_Atomic_0 (ww := encodeWord (.axor d b v w z o y)) (k := 7) (by decide) d b v w z o y rfl
  refine long_of rfl rfl lo hi wf ?_
  rw [long_decAtomic e0]
  unfold decAtomic
  rw [e1]
  simp only [c0, c1, f0, f1, f2, f3, f4, f5, f6, if_true, and_self]

theorem RoundTrip.aswap (d : BitVec 4) (b : BitVec 4) (v : BitVec 4) (w : BitVec 3) (z : BitVec 1) (o : BitVec 2) (y : BitVec 1) : RoundTrip.Statement (.aswap d b v w z o y) := by
  intro wf _
  obtain ⟨lo, hi, e0, e1, c0, c1, f0, f1, f2, f3, f4, f5, f6⟩ := shape_Atomic_0 (ww := encodeWord (.aswap d b v w z o y)) (k := 8) (by decide) d b v w z o y rfl
  refine long_of rfl rfl lo hi wf ?_
  rw [long_decAtomic e0]
  unfold decAtomic
  rw [e1]
  simp only [c0, c1, f0, f1, f2, f3, f4, f5, f6, if_true, and_self]

theorem RoundTrip.acas (d : BitVec 4) (b : BitVec 4) (v : BitVec 4) (w : BitVec 3) (z : BitVec 1) (o : BitVec 2) (y : BitVec 1) : RoundTrip.Statement (.acas d b v w z o y) := by
  intro wf _
  obtain ⟨lo, hi, e0, e1, c0, c1, f0, f1, f2, f3, f4, f5, f6⟩ := shape_Atomic_0 (ww := encodeWord (.acas d b v w z o y)) (k := 9) (by decide) d b v w z o y rfl
  refine long_of rfl rfl lo hi wf ?_
  rw [long_decAtomic e0]
  unfold decAtomic
  rw [e1]
  simp only [c0, c1, f0, f1, f2, f3, f4, f5, f6, if_true, and_self]

theorem shape_Sync_0 {k : Nat} (hk : k < 2 ^ 6) {ww : Nat}
    (hw : 0xa8000000 + k * 2 ^ 7 = ww) :
    2 ^ 31 ≤ ww ∧ ww < 2 ^ 32 ∧ num ww 25 7 = 84 ∧ num ww 7 6 = k ∧ num ww 0 7 = 0 ∧ num ww 13 12 = 0 := by
  simp only [num]
  refine ⟨?_, ?_, ?_, ?_, ?_, ?_⟩
  · omega
  · omega
  · omega
  · omega
  · omega
  · omega

theorem RoundTrip.fenceAcq : RoundTrip.Statement (.fenceAcq) := by
  intro wf _
  obtain ⟨lo, hi, e0, e1, c0, c1⟩ := shape_Sync_0 (ww := encodeWord (.fenceAcq)) (k := 0) (by decide) rfl
  refine long_of rfl rfl lo hi wf ?_
  rw [long_decSync e0]
  unfold decSync
  rw [e1]
  simp only [c0, c1, if_true, and_self]

theorem RoundTrip.fenceRel : RoundTrip.Statement (.fenceRel) := by
  intro wf _
  obtain ⟨lo, hi, e0, e1, c0, c1⟩ := shape_Sync_0 (ww := encodeWord (.fenceRel)) (k := 1) (by decide) rfl
  refine long_of rfl rfl lo hi wf ?_
  rw [long_decSync e0]
  unfold decSync
  rw [e1]
  simp only [c0, c1, if_true, and_self]

theorem RoundTrip.fenceAll : RoundTrip.Statement (.fenceAll) := by
  intro wf _
  obtain ⟨lo, hi, e0, e1, c0, c1⟩ := shape_Sync_0 (ww := encodeWord (.fenceAll)) (k := 2) (by decide) rfl
  refine long_of rfl rfl lo hi wf ?_
  rw [long_decSync e0]
  unfold decSync
  rw [e1]
  simp only [c0, c1, if_true, and_self]

theorem shape_Sync_1 {k : Nat} (hk : k < 2 ^ 6) (x0 : BitVec 4) (x1 : BitVec 4) (x2 : BitVec 2) {ww : Nat}
    (hw : 0xa8000000 + k * 2 ^ 7 + x0.toNat * 0x200000 + x1.toNat * 0x20000 + x2.toNat * 0x2000 = ww) :
    2 ^ 31 ≤ ww ∧ ww < 2 ^ 32 ∧ num ww 25 7 = 84 ∧ num ww 7 6 = k ∧ num ww 0 7 = 0 ∧ num ww 15 2 = 0 ∧ fld ww 21 4 = x0 ∧ fld ww 17 4 = x1 ∧ fld ww 13 2 = x2 := by
  have l0 := x0.isLt
  have l1 := x1.isLt
  have l2 := x2.isLt
  simp only [num, fld]
  refine ⟨?_, ?_, ?_, ?_, ?_, ?_, ?_, ?_, ?_⟩
  · omega
  · omega
  · omega
  · omega
  · omega
  · omega
  · apply BitVec.eq_of_toNat_eq; simp only [BitVec.toNat_ofNat]; omega
  · apply BitVec.eq_of_toNat_eq; simp only [BitVec.toNat_ofNat]; omega
  · apply BitVec.eq_of_toNat_eq; simp only [BitVec.toNat_ofNat]; omega

theorem RoundTrip.marm (d : BitVec 4) (a : BitVec 4) (n : BitVec 2) : RoundTrip.Statement (.marm d a n) := by
  intro wf _
  obtain ⟨lo, hi, e0, e1, c0, c1, f0, f1, f2⟩ := shape_Sync_1 (ww := encodeWord (.marm d a n)) (k := 3) (by decide) d a n rfl
  refine long_of rfl rfl lo hi wf ?_
  rw [long_decSync e0]
  unfold decSync
  rw [e1]
  simp only [c0, c1, f0, f1, f2, if_true, and_self]

theorem shape_Sync_2 {k : Nat} (hk : k < 2 ^ 6) (x0 : BitVec 4) (x1 : BitVec 4) {ww : Nat}
    (hw : 0xa8000000 + k * 2 ^ 7 + x0.toNat * 0x200000 + x1.toNat * 0x20000 = ww) :
    2 ^ 31 ≤ ww ∧ ww < 2 ^ 32 ∧ num ww 25 7 = 84 ∧ num ww 7 6 = k ∧ num ww 0 7 = 0 ∧ num ww 13 4 = 0 ∧ fld ww 21 4 = x0 ∧ fld ww 17 4 = x1 := by
  have l0 := x0.isLt
  have l1 := x1.isLt
  simp only [num, fld]
  refine ⟨?_, ?_, ?_, ?_, ?_, ?_, ?_, ?_⟩
  · omega
  · omega
  · omega
  · omega
  · omega
  · omega
  · apply BitVec.eq_of_toNat_eq; simp only [BitVec.toNat_ofNat]; omega
  · apply BitVec.eq_of_toNat_eq; simp only [BitVec.toNat_ofNat]; omega

theorem RoundTrip.mwait (d : BitVec 4) (a : BitVec 4) : RoundTrip.Statement (.mwait d a) := by
  intro wf _
  obtain ⟨lo, hi, e0, e1, c0, c1, f0, f1⟩ := shape_Sync_2 (ww := encodeWord (.mwait d a)) (k := 4) (by decide) d a rfl
  refine long_of rfl rfl lo hi wf ?_
  rw [long_decSync e0]
  unfold decSync
  rw [e1]
  simp only [c0, c1, f0, f1, if_true, and_self]

theorem shape_Sync_3 {k : Nat} (hk : k < 2 ^ 6) (x0 : BitVec 4) {ww : Nat}
    (hw : 0xa8000000 + k * 2 ^ 7 + x0.toNat * 0x2000 = ww) :
    2 ^ 31 ≤ ww ∧ ww < 2 ^ 32 ∧ num ww 25 7 = 84 ∧ num ww 7 6 = k ∧ num ww 0 7 = 0 ∧ num ww 17 8 = 0 ∧ fld ww 13 4 = x0 := by
  have l0 := x0.isLt
  simp only [num, fld]
  refine ⟨?_, ?_, ?_, ?_, ?_, ?_, ?_⟩
  · omega
  · omega
  · omega
  · omega
  · omega
  · omega
  · apply BitVec.eq_of_toNat_eq; simp only [BitVec.toNat_ofNat]; omega

theorem RoundTrip.mdis (k : BitVec 4) : RoundTrip.Statement (.mdis k) := by
  intro wf _
  obtain ⟨lo, hi, e0, e1, c0, c1, f0⟩ := shape_Sync_3 (ww := encodeWord (.mdis k)) (k := 5) (by decide) k rfl
  refine long_of rfl rfl lo hi wf ?_
  rw [long_decSync e0]
  unfold decSync
  rw [e1]
  simp only [c0, c1, f0, if_true, and_self]

theorem RoundTrip.bara (d : BitVec 4) (a : BitVec 4) : RoundTrip.Statement (.bara d a) := by
  intro wf _
  obtain ⟨lo, hi, e0, e1, c0, c1, f0, f1⟩ := shape_Sync_2 (ww := encodeWord (.bara d a)) (k := 6) (by decide) d a rfl
  refine long_of rfl rfl lo hi wf ?_
  rw [long_decSync e0]
  unfold decSync
  rw [e1]
  simp only [c0, c1, f0, f1, if_true, and_self]

theorem RoundTrip.bard (d : BitVec 4) (a : BitVec 4) : RoundTrip.Statement (.bard d a) := by
  intro wf _
  obtain ⟨lo, hi, e0, e1, c0, c1, f0, f1⟩ := shape_Sync_2 (ww := encodeWord (.bard d a)) (k := 7) (by decide) d a rfl
  refine long_of rfl rfl lo hi wf ?_
  rw [long_decSync e0]
  unfold decSync
  rw [e1]
  simp only [c0, c1, f0, f1, if_true, and_self]

theorem shape_Sync_4 {k : Nat} (hk : k < 2 ^ 6) (x0 : BitVec 4) (x1 : BitVec 4) {ww : Nat}
    (hw : 0xa8000000 + k * 2 ^ 7 + x0.toNat * 0x20000 + x1.toNat * 0x2000 = ww) :
    2 ^ 31 ≤ ww ∧ ww < 2 ^ 32 ∧ num ww 25 7 = 84 ∧ num ww 7 6 = k ∧ num ww 0 7 = 0 ∧ num ww 21 4 = 0 ∧ fld ww 17 4 = x0 ∧ fld ww 13 4 = x1 := by
  have l0 := x0.isLt
  have l1 := x1.isLt
  simp only [num, fld]
  refine ⟨?_, ?_, ?_, ?_, ?_, ?_, ?_, ?_⟩
  · omega
  · omega
  · omega
  · omega
  · omega
  · omega
  · apply BitVec.eq_of_toNat_eq; simp only [BitVec.toNat_ofNat]; omega
  · apply BitVec.eq_of_toNat_eq; simp only [BitVec.toNat_ofNat]; omega

theorem RoundTrip.barw (a : BitVec 4) (b : BitVec 4) : RoundTrip.Statement (.barw a b) := by
  intro wf _
  obtain ⟨lo, hi, e0, e1, c0, c1, f0, f1⟩ := shape_Sync_4 (ww := encodeWord (.barw a b)) (k := 8) (by decide) a b rfl
  refine long_of rfl rfl lo hi wf ?_
  rw [long_decSync e0]
  unfold decSync
  rw [e1]
  simp only [c0, c1, f0, f1, if_true, and_self]

theorem shape_Sync_5 {k : Nat} (hk : k < 2 ^ 6) (x0 : BitVec 4) {ww : Nat}
    (hw : 0xa8000000 + k * 2 ^ 7 + x0.toNat * 0x20000 = ww) :
    2 ^ 31 ≤ ww ∧ ww < 2 ^ 32 ∧ num ww 25 7 = 84 ∧ num ww 7 6 = k ∧ num ww 0 7 = 0 ∧ num ww 13 4 = 0 ∧ num ww 21 4 = 0 ∧ fld ww 17 4 = x0 := by
  have l0 := x0.isLt
  simp only [num, fld]
  refine ⟨?_, ?_, ?_, ?_, ?_, ?_, ?_, ?_⟩
  · omega
  · omega
  · omega
  · omega
  · omega
  · omega
  · omega
  · apply BitVec.eq_of_toNat_eq; simp only [BitVec.toNat_ofNat]; omega

theorem RoundTrip.commit (a : BitVec 4) : RoundTrip.Statement (.commit a) := by
  intro wf _
  obtain ⟨lo, hi, e0, e1, c0, c1, c2, f0⟩ := shape_Sync_5 (ww := encodeWord (.commit a)) (k := 9) (by decide) a rfl
  refine long_of rfl rfl lo hi wf ?_
  rw [long_decSync e0]
  unfold decSync
  rw [e1]
  simp only [c0, c1, c2, f0, if_true, and_self]

theorem RoundTrip.flush (a : BitVec 4) (b : BitVec 4) : RoundTrip.Statement (.flush a b) := by
  intro wf _
  obtain ⟨lo, hi, e0, e1, c0, c1, f0, f1⟩ := shape_Sync_4 (ww := encodeWord (.flush a b)) (k := 10) (by decide) a b rfl
  refine long_of rfl rfl lo hi wf ?_
  rw [long_decSync e0]
  unfold decSync
  rw [e1]
  simp only [c0, c1, f0, f1, if_true, and_self]

theorem RoundTrip.inval (a : BitVec 4) (b : BitVec 4) : RoundTrip.Statement (.inval a b) := by
  intro wf _
  obtain ⟨lo, hi, e0, e1, c0, c1, f0, f1⟩ := shape_Sync_4 (ww := encodeWord (.inval a b)) (k := 11) (by decide) a b rfl
  refine long_of rfl rfl lo hi wf ?_
  rw [long_decSync e0]
  unfold decSync
  rw [e1]
  simp only [c0, c1, f0, f1, if_true, and_self]

theorem RoundTrip.seal (a : BitVec 4) (b : BitVec 4) : RoundTrip.Statement (.seal a b) := by
  intro wf _
  obtain ⟨lo, hi, e0, e1, c0, c1, f0, f1⟩ := shape_Sync_4 (ww := encodeWord (.seal a b)) (k := 12) (by decide) a b rfl
  refine long_of rfl rfl lo hi wf ?_
  rw [long_decSync e0]
  unfold decSync
  rw [e1]
  simp only [c0, c1, f0, f1, if_true, and_self]

theorem shape_Tentative_0 {k : Nat} (hk : k < 2 ^ 3) (x0 : BitVec 4) (x1 : BitVec 4) (x2 : BitVec 3) (x3 : BitVec 11) {ww : Nat}
    (hw : 0xaa000000 + k * 2 ^ 11 + x0.toNat * 0x200000 + x1.toNat * 0x20000 + x2.toNat * 0x4000 + x3.toNat = ww) :
    2 ^ 31 ≤ ww ∧ ww < 2 ^ 32 ∧ num ww 25 7 = 85 ∧ num ww 11 3 = k ∧ fld ww 21 4 = x0 ∧ fld ww 17 4 = x1 ∧ fld ww 14 3 = x2 ∧ fld ww 0 11 = x3 := by
  have l0 := x0.isLt
  have l1 := x1.isLt
  have l2 := x2.isLt
  have l3 := x3.isLt
  simp only [num, fld]
  refine ⟨?_, ?_, ?_, ?_, ?_, ?_, ?_, ?_⟩
  · omega
  · omega
  · omega
  · omega
  · apply BitVec.eq_of_toNat_eq; simp only [BitVec.toNat_ofNat]; omega
  · apply BitVec.eq_of_toNat_eq; simp only [BitVec.toNat_ofNat]; omega
  · apply BitVec.eq_of_toNat_eq; simp only [BitVec.toNat_ofNat]; omega
  · apply BitVec.eq_of_toNat_eq; simp only [BitVec.toNat_ofNat]; omega

theorem RoundTrip.tstw (d : BitVec 4) (b : BitVec 4) (w : BitVec 3) (i : BitVec 11) : RoundTrip.Statement (.tstw d b w i) := by
  intro wf _
  obtain ⟨lo, hi, e0, e1, f0, f1, f2, f3⟩ := shape_Tentative_0 (ww := encodeWord (.tstw d b w i)) (k := 0) (by decide) d b w i rfl
  refine long_of rfl rfl lo hi wf ?_
  rw [long_decTentative e0]
  unfold decTentative
  rw [e1]
  simp only [f0, f1, f2, f3]

theorem RoundTrip.tstd (d : BitVec 4) (b : BitVec 4) (w : BitVec 3) (i : BitVec 11) : RoundTrip.Statement (.tstd d b w i) := by
  intro wf _
  obtain ⟨lo, hi, e0, e1, f0, f1, f2, f3⟩ := shape_Tentative_0 (ww := encodeWord (.tstd d b w i)) (k := 1) (by decide) d b w i rfl
  refine long_of rfl rfl lo hi wf ?_
  rw [long_decTentative e0]
  unfold decTentative
  rw [e1]
  simp only [f0, f1, f2, f3]

theorem shape_Dupd_0 {k : Nat} (hk : k < 2 ^ 4) (x0 : BitVec 4) (x1 : BitVec 4) (x2 : BitVec 3) (x3 : BitVec 1) {ww : Nat}
    (hw : 0xac000020 + k * 2 ^ 6 + x0.toNat * 0x20000 + x1.toNat * 0x2000 + x2.toNat * 0x400 + x3.toNat * 0x10 = ww) :
    2 ^ 31 ≤ ww ∧ ww < 2 ^ 32 ∧ num ww 25 7 = 86 ∧ num ww 6 4 = k ∧ num ww 0 4 = 0 ∧ num ww 5 1 = 1 ∧ num ww 21 4 = 0 ∧ fld ww 17 4 = x0 ∧ fld ww 13 4 = x1 ∧ fld ww 10 3 = x2 ∧ fld ww 4 1 = x3 := by
  have l0 := x0.isLt
  have l1 := x1.isLt
  have l2 := x2.isLt
  have l3 := x3.isLt
  simp only [num, fld]
  refine ⟨?_, ?_, ?_, ?_, ?_, ?_, ?_, ?_, ?_, ?_, ?_⟩
  · omega
  · omega
  · omega
  · omega
  · omega
  · omega
  · omega
  · apply BitVec.eq_of_toNat_eq; simp only [BitVec.toNat_ofNat]; omega
  · apply BitVec.eq_of_toNat_eq; simp only [BitVec.toNat_ofNat]; omega
  · apply BitVec.eq_of_toNat_eq; simp only [BitVec.toNat_ofNat]; omega
  · apply BitVec.eq_of_toNat_eq; simp only [BitVec.toNat_ofNat]; omega

theorem RoundTrip.dupdAdd (b : BitVec 4) (v : BitVec 4) (w : BitVec 3) (z : BitVec 1) : RoundTrip.Statement (.dupdAdd b v w z) := by
  intro wf _
  obtain ⟨lo, hi, e0, e1, c0, c1, c2, f0, f1, f2, f3⟩ := shape_Dupd_0 (ww := encodeWord (.dupdAdd b v w z)) (k := 0) (by decide) b v w z rfl
  refine long_of rfl rfl lo hi wf ?_
  rw [long_decDupd e0]
  unfold decDupd
  rw [e1]
  simp only [c0, c1, c2, f0, f1, f2, f3, if_true, and_self]

theorem RoundTrip.dupdFadd (b : BitVec 4) (v : BitVec 4) (w : BitVec 3) (z : BitVec 1) : RoundTrip.Statement (.dupdFadd b v w z) := by
  intro wf _
  obtain ⟨lo, hi, e0, e1, c0, c1, c2, f0, f1, f2, f3⟩ := shape_Dupd_0 (ww := encodeWord (.dupdFadd b v w z)) (k := 1) (by decide) b v w z rfl
  refine long_of rfl rfl lo hi wf ?_
  rw [long_decDupd e0]
  unfold decDupd
  rw [e1]
  simp only [c0, c1, c2, f0, f1, f2, f3, if_true, and_self]

theorem RoundTrip.dupdMin (b : BitVec 4) (v : BitVec 4) (w : BitVec 3) (z : BitVec 1) : RoundTrip.Statement (.dupdMin b v w z) := by
  intro wf _
  obtain ⟨lo, hi, e0, e1, c0, c1, c2, f0, f1, f2, f3⟩ := shape_Dupd_0 (ww := encodeWord (.dupdMin b v w z)) (k := 2) (by decide) b v w z rfl
  refine long_of rfl rfl lo hi wf ?_
  rw [long_decDupd e0]
  unfold decDupd
  rw [e1]
  simp only [c0, c1, c2, f0, f1, f2, f3, if_true, and_self]

theorem RoundTrip.dupdMax (b : BitVec 4) (v : BitVec 4) (w : BitVec 3) (z : BitVec 1) : RoundTrip.Statement (.dupdMax b v w z) := by
  intro wf _
  obtain ⟨lo, hi, e0, e1, c0, c1, c2, f0, f1, f2, f3⟩ := shape_Dupd_0 (ww := encodeWord (.dupdMax b v w z)) (k := 3) (by decide) b v w z rfl
  refine long_of rfl rfl lo hi wf ?_
  rw [long_decDupd e0]
  unfold decDupd
  rw [e1]
  simp only [c0, c1, c2, f0, f1, f2, f3, if_true, and_self]

theorem RoundTrip.dupdAnd (b : BitVec 4) (v : BitVec 4) (w : BitVec 3) (z : BitVec 1) : RoundTrip.Statement (.dupdAnd b v w z) := by
  intro wf _
  obtain ⟨lo, hi, e0, e1, c0, c1, c2, f0, f1, f2, f3⟩ := shape_Dupd_0 (ww := encodeWord (.dupdAnd b v w z)) (k := 4) (by decide) b v w z rfl
  refine long_of rfl rfl lo hi wf ?_
  rw [long_decDupd e0]
  unfold decDupd
  rw [e1]
  simp only [c0, c1, c2, f0, f1, f2, f3, if_true, and_self]

theorem RoundTrip.dupdOr (b : BitVec 4) (v : BitVec 4) (w : BitVec 3) (z : BitVec 1) : RoundTrip.Statement (.dupdOr b v w z) := by
  intro wf _
  obtain ⟨lo, hi, e0, e1, c0, c1, c2, f0, f1, f2, f3⟩ := shape_Dupd_0 (ww := encodeWord (.dupdOr b v w z)) (k := 5) (by decide) b v w z rfl
  refine long_of rfl rfl lo hi wf ?_
  rw [long_decDupd e0]
  unfold decDupd
  rw [e1]
  simp only [c0, c1, c2, f0, f1, f2, f3, if_true, and_self]

theorem RoundTrip.dupdXor (b : BitVec 4) (v : BitVec 4) (w : BitVec 3) (z : BitVec 1) : RoundTrip.Statement (.dupdXor b v w z) := by
  intro wf _
  obtain ⟨lo, hi, e0, e1, c0, c1, c2, f0, f1, f2, f3⟩ := shape_Dupd_0 (ww := encodeWord (.dupdXor b v w z)) (k := 6) (by decide) b v w z rfl
  refine long_of rfl rfl lo hi wf ?_
  rw [long_decDupd e0]
  unfold decDupd
  rw [e1]
  simp only [c0, c1, c2, f0, f1, f2, f3, if_true, and_self]

theorem shape_Retract_0 {k : Nat} (hk : k < 2 ^ 3) (x0 : BitVec 4) (x1 : BitVec 14) {ww : Nat}
    (hw : 0xae000000 + k * 2 ^ 14 + x0.toNat * 0x200000 + x1.toNat = ww) :
    2 ^ 31 ≤ ww ∧ ww < 2 ^ 32 ∧ num ww 25 7 = 87 ∧ num ww 14 3 = k ∧ num ww 17 4 = 0 ∧ fld ww 21 4 = x0 ∧ fld ww 0 14 = x1 := by
  have l0 := x0.isLt
  have l1 := x1.isLt
  simp only [num, fld]
  refine ⟨?_, ?_, ?_, ?_, ?_, ?_, ?_⟩
  · omega
  · omega
  · omega
  · omega
  · omega
  · apply BitVec.eq_of_toNat_eq; simp only [BitVec.toNat_ofNat]; omega
  · apply BitVec.eq_of_toNat_eq; simp only [BitVec.toNat_ofNat]; omega

theorem RoundTrip.retract (a : BitVec 4) (o : BitVec 14) : RoundTrip.Statement (.retract a o) := by
  intro wf _
  obtain ⟨lo, hi, e0, e1, c0, f0, f1⟩ := shape_Retract_0 (ww := encodeWord (.retract a o)) (k := 0) (by decide) a o rfl
  refine long_of rfl rfl lo hi wf ?_
  rw [long_decRetract e0]
  unfold decRetract
  rw [e1]
  simp only [c0, f0, f1, if_true]

theorem shape_Vector_0 {k : Nat} (hk : k < 2 ^ 5) (x0 : BitVec 3) (x1 : BitVec 3) (x2 : BitVec 3) (x3 : BitVec 3) (x4 : BitVec 1) (x5 : BitVec 4) (x6 : BitVec 3) {ww : Nat}
    (hw : 0xc0000000 + k * 2 ^ 0 + x0.toNat * 0x400000 + x1.toNat * 0x80000 + x2.toNat * 0x10000 + x3.toNat * 0x2000 + x4.toNat * 0x1000 + x5.toNat * 0x100 + x6.toNat * 0x20 = ww) :
    2 ^ 31 ≤ ww ∧ ww < 2 ^ 32 ∧ num ww 25 7 = 96 ∧ num ww 0 5 = k ∧ fld ww 22 3 = x0 ∧ fld ww 19 3 = x1 ∧ fld ww 16 3 = x2 ∧ fld ww 13 3 = x3 ∧ fld ww 12 1 = x4 ∧ fld ww 8 4 = x5 ∧ fld ww 5 3 = x6 := by
  have l0 := x0.isLt
  have l1 := x1.isLt
  have l2 := x2.isLt
  have l3 := x3.isLt
  have l4 := x4.isLt
  have l5 := x5.isLt
  have l6 := x6.isLt
  simp only [num, fld]
  refine ⟨?_, ?_, ?_, ?_, ?_, ?_, ?_, ?_, ?_, ?_, ?_⟩
  · omega
  · omega
  · omega
  · omega
  · apply BitVec.eq_of_toNat_eq; simp only [BitVec.toNat_ofNat]; omega
  · apply BitVec.eq_of_toNat_eq; simp only [BitVec.toNat_ofNat]; omega
  · apply BitVec.eq_of_toNat_eq; simp only [BitVec.toNat_ofNat]; omega
  · apply BitVec.eq_of_toNat_eq; simp only [BitVec.toNat_ofNat]; omega
  · apply BitVec.eq_of_toNat_eq; simp only [BitVec.toNat_ofNat]; omega
  · apply BitVec.eq_of_toNat_eq; simp only [BitVec.toNat_ofNat]; omega
  · apply BitVec.eq_of_toNat_eq; simp only [BitVec.toNat_ofNat]; omega

theorem RoundTrip.vadd (d : BitVec 3) (a : BitVec 3) (b : BitVec 3) (k : BitVec 3) (z : BitVec 1) (t : BitVec 4) (r : BitVec 3) : RoundTrip.Statement (.vadd d a b k z t r) := by
  intro wf _
  obtain ⟨lo, hi, e0, e1, f0, f1, f2, f3, f4, f5, f6⟩ := shape_Vector_0 (ww := encodeWord (.vadd d a b k z t r)) (k := 0) (by decide) d a b k z t r rfl
  refine long_of rfl rfl lo hi wf ?_
  rw [long_decVector e0]
  unfold decVector
  rw [e1]
  simp only [f0, f1, f2, f3, f4, f5, f6]

theorem RoundTrip.vsub (d : BitVec 3) (a : BitVec 3) (b : BitVec 3) (k : BitVec 3) (z : BitVec 1) (t : BitVec 4) (r : BitVec 3) : RoundTrip.Statement (.vsub d a b k z t r) := by
  intro wf _
  obtain ⟨lo, hi, e0, e1, f0, f1, f2, f3, f4, f5, f6⟩ := shape_Vector_0 (ww := encodeWord (.vsub d a b k z t r)) (k := 1) (by decide) d a b k z t r rfl
  refine long_of rfl rfl lo hi wf ?_
  rw [long_decVector e0]
  unfold decVector
  rw [e1]
  simp only [f0, f1, f2, f3, f4, f5, f6]

theorem RoundTrip.vmul (d : BitVec 3) (a : BitVec 3) (b : BitVec 3) (k : BitVec 3) (z : BitVec 1) (t : BitVec 4) (r : BitVec 3) : RoundTrip.Statement (.vmul d a b k z t r) := by
  intro wf _
  obtain ⟨lo, hi, e0, e1, f0, f1, f2, f3, f4, f5, f6⟩ := shape_Vector_0 (ww := encodeWord (.vmul d a b k z t r)) (k := 2) (by decide) d a b k z t r rfl
  refine long_of rfl rfl lo hi wf ?_
  rw [long_decVector e0]
  unfold decVector
  rw [e1]
  simp only [f0, f1, f2, f3, f4, f5, f6]

theorem shape_Vector_1 {k : Nat} (hk : k < 2 ^ 5) (x0 : BitVec 3) (x1 : BitVec 3) (x2 : BitVec 3) (x3 : BitVec 3) (x4 : BitVec 1) (x5 : BitVec 4) {ww : Nat}
    (hw : 0xc0000000 + k * 2 ^ 0 + x0.toNat * 0x400000 + x1.toNat * 0x80000 + x2.toNat * 0x10000 + x3.toNat * 0x2000 + x4.toNat * 0x1000 + x5.toNat * 0x100 = ww) :
    2 ^ 31 ≤ ww ∧ ww < 2 ^ 32 ∧ num ww 25 7 = 96 ∧ num ww 0 5 = k ∧ num ww 5 3 = 0 ∧ fld ww 22 3 = x0 ∧ fld ww 19 3 = x1 ∧ fld ww 16 3 = x2 ∧ fld ww 13 3 = x3 ∧ fld ww 12 1 = x4 ∧ fld ww 8 4 = x5 := by
  have l0 := x0.isLt
  have l1 := x1.isLt
  have l2 := x2.isLt
  have l3 := x3.isLt
  have l4 := x4.isLt
  have l5 := x5.isLt
  simp only [num, fld]
  refine ⟨?_, ?_, ?_, ?_, ?_, ?_, ?_, ?_, ?_, ?_, ?_⟩
  · omega
  · omega
  · omega
  · omega
  · omega
  · apply BitVec.eq_of_toNat_eq; simp only [BitVec.toNat_ofNat]; omega
  · apply BitVec.eq_of_toNat_eq; simp only [BitVec.toNat_ofNat]; omega
  · apply BitVec.eq_of_toNat_eq; simp only [BitVec.toNat_ofNat]; omega
  · apply BitVec.eq_of_toNat_eq; simp only [BitVec.toNat_ofNat]; omega
  · apply BitVec.eq_of_toNat_eq; simp only [BitVec.toNat_ofNat]; omega
  · apply BitVec.eq_of_toNat_eq; simp only [BitVec.toNat_ofNat]; omega

theorem RoundTrip.vmulh (d : BitVec 3) (a : BitVec 3) (b : BitVec 3) (k : BitVec 3) (z : BitVec 1) (t : BitVec 4) : RoundTrip.Statement (.vmulh d a b k z t) := by
  intro wf _
  obtain ⟨lo, hi, e0, e1, c0, f0, f1, f2, f3, f4, f5⟩ := shape_Vector_1 (ww := encodeWord (.vmulh d a b k z t)) (k := 3) (by decide) d a b k z t rfl
  refine long_of rfl rfl lo hi wf ?_
  rw [long_decVector e0]
  unfold decVector
  rw [e1]
  simp only [c0, f0, f1, f2, f3, f4, f5, if_true]

theorem RoundTrip.vdiv (d : BitVec 3) (a : BitVec 3) (b : BitVec 3) (k : BitVec 3) (z : BitVec 1) (t : BitVec 4) (r : BitVec 3) : RoundTrip.Statement (.vdiv d a b k z t r) := by
  intro wf _
  obtain ⟨lo, hi, e0, e1, f0, f1, f2, f3, f4, f5, f6⟩ := shape_Vector_0 (ww := encodeWord (.vdiv d a b k z t r)) (k := 4) (by decide) d a b k z t r rfl
  refine long_of rfl rfl lo hi wf ?_
  rw [long_decVector e0]
  unfold decVector
  rw [e1]
  simp only [f0, f1, f2, f3, f4, f5, f6]

theorem shape_Vector_2 {k : Nat} (hk : k < 2 ^ 5) (x0 : BitVec 3) (x1 : BitVec 3) (x2 : BitVec 3) (x3 : BitVec 1) (x4 : BitVec 4) (x5 : BitVec 3) {ww : Nat}
    (hw : 0xc0000000 + k * 2 ^ 0 + x0.toNat * 0x400000 + x1.toNat * 0x80000 + x2.toNat * 0x2000 + x3.toNat * 0x1000 + x4.toNat * 0x100 + x5.toNat * 0x20 = ww) :
    2 ^ 31 ≤ ww ∧ ww < 2 ^ 32 ∧ num ww 25 7 = 96 ∧ num ww 0 5 = k ∧ num ww 16 3 = 0 ∧ fld ww 22 3 = x0 ∧ fld ww 19 3 = x1 ∧ fld ww 13 3 = x2 ∧ fld ww 12 1 = x3 ∧ fld ww 8 4 = x4 ∧ fld ww 5 3 = x5 := by
  have l0 := x0.isLt
  have l1 := x1.isLt
  have l2 := x2.isLt
  have l3 := x3.isLt
  have l4 := x4.isLt
  have l5 := x5.isLt
  simp only [num, fld]
  refine ⟨?_, ?_, ?_, ?_, ?_, ?_, ?_, ?_, ?_, ?_, ?_⟩
  · omega
  · omega
  · omega
  · omega
  · omega
  · apply BitVec.eq_of_toNat_eq; simp only [BitVec.toNat_ofNat]; omega
  · apply BitVec.eq_of_toNat_eq; simp only [BitVec.toNat_ofNat]; omega
  · apply BitVec.eq_of_toNat_eq; simp only [BitVec.toNat_ofNat]; omega
  · apply BitVec.eq_of_toNat_eq; simp only [BitVec.toNat_ofNat]; omega
  · apply BitVec.eq_of_toNat_eq; simp only [BitVec.toNat_ofNat]; omega
  · apply BitVec.eq_of_toNat_eq; simp only [BitVec.toNat_ofNat]; omega

theorem RoundTrip.vsqrt (d : BitVec 3) (a : BitVec 3) (k : BitVec 3) (z : BitVec 1) (t : BitVec 4) (r : BitVec 3) : RoundTrip.Statement (.vsqrt d a k z t r) := by
  intro wf _
  obtain ⟨lo, hi, e0, e1, c0, f0, f1, f2, f3, f4, f5⟩ := shape_Vector_2 (ww := encodeWord (.vsqrt d a k z t r)) (k := 5) (by decide) d a k z t r rfl
  refine long_of rfl rfl lo hi wf ?_
  rw [long_decVector e0]
  unfold decVector
  rw [e1]
  simp only [c0, f0, f1, f2, f3, f4, f5, if_true]

theorem RoundTrip.vmin (d : BitVec 3) (a : BitVec 3) (b : BitVec 3) (k : BitVec 3) (z : BitVec 1) (t : BitVec 4) : RoundTrip.Statement (.vmin d a b k z t) := by
  intro wf _
  obtain ⟨lo, hi, e0, e1, c0, f0, f1, f2, f3, f4, f5⟩ := shape_Vector_1 (ww := encodeWord (.vmin d a b k z t)) (k := 6) (by decide) d a b k z t rfl
  refine long_of rfl rfl lo hi wf ?_
  rw [long_decVector e0]
  unfold decVector
  rw [e1]
  simp only [c0, f0, f1, f2, f3, f4, f5, if_true]

theorem RoundTrip.vmax (d : BitVec 3) (a : BitVec 3) (b : BitVec 3) (k : BitVec 3) (z : BitVec 1) (t : BitVec 4) : RoundTrip.Statement (.vmax d a b k z t) := by
  intro wf _
  obtain ⟨lo, hi, e0, e1, c0, f0, f1, f2, f3, f4, f5⟩ := shape_Vector_1 (ww := encodeWord (.vmax d a b k z t)) (k := 7) (by decide) d a b k z t rfl
  refine long_of rfl rfl lo hi wf ?_
  rw [long_decVector e0]
  unfold decVector
  rw [e1]
  simp only [c0, f0, f1, f2, f3, f4, f5, if_true]

theorem shape_Vector_3 {k : Nat} (hk : k < 2 ^ 5) (x0 : BitVec 3) (x1 : BitVec 3) (x2 : BitVec 3) (x3 : BitVec 1) (x4 : BitVec 4) {ww : Nat}
    (hw : 0xc0000000 + k * 2 ^ 0 + x0.toNat * 0x400000 + x1.toNat * 0x80000 + x2.toNat * 0x2000 + x3.toNat * 0x1000 + x4.toNat * 0x100 = ww) :
    2 ^ 31 ≤ ww ∧ ww < 2 ^ 32 ∧ num ww 25 7 = 96 ∧ num ww 0 5 = k ∧ num ww 5 3 = 0 ∧ num ww 16 3 = 0 ∧ fld ww 22 3 = x0 ∧ fld ww 19 3 = x1 ∧ fld ww 13 3 = x2 ∧ fld ww 12 1 = x3 ∧ fld ww 8 4 = x4 := by
  have l0 := x0.isLt
  have l1 := x1.isLt
  have l2 := x2.isLt
  have l3 := x3.isLt
  have l4 := x4.isLt
  simp only [num, fld]
  refine ⟨?_, ?_, ?_, ?_, ?_, ?_, ?_, ?_, ?_, ?_, ?_⟩
  · omega
  · omega
  · omega
  · omega
  · omega
  · omega
  · apply BitVec.eq_of_toNat_eq; simp only [BitVec.toNat_ofNat]; omega
  · apply BitVec.eq_of_toNat_eq; simp only [BitVec.toNat_ofNat]; omega
  · apply BitVec.eq_of_toNat_eq; simp only [BitVec.toNat_ofNat]; omega
  · apply BitVec.eq_of_toNat_eq; simp only [BitVec.toNat_ofNat]; omega
  · apply BitVec.eq_of_toNat_eq; simp only [BitVec.toNat_ofNat]; omega

theorem RoundTrip.vabs (d : BitVec 3) (a : BitVec 3) (k : BitVec 3) (z : BitVec 1) (t : BitVec 4) : RoundTrip.Statement (.vabs d a k z t) := by
  intro wf _
  obtain ⟨lo, hi, e0, e1, c0, c1, f0, f1, f2, f3, f4⟩ := shape_Vector_3 (ww := encodeWord (.vabs d a k z t)) (k := 8) (by decide) d a k z t rfl
  refine long_of rfl rfl lo hi wf ?_
  rw [long_decVector e0]
  unfold decVector
  rw [e1]
  simp only [c0, c1, f0, f1, f2, f3, f4, if_true, and_self]

theorem RoundTrip.vneg (d : BitVec 3) (a : BitVec 3) (k : BitVec 3) (z : BitVec 1) (t : BitVec 4) : RoundTrip.Statement (.vneg d a k z t) := by
  intro wf _
  obtain ⟨lo, hi, e0, e1, c0, c1, f0, f1, f2, f3, f4⟩ := shape_Vector_3 (ww := encodeWord (.vneg d a k z t)) (k := 9) (by decide) d a k z t rfl
  refine long_of rfl rfl lo hi wf ?_
  rw [long_decVector e0]
  unfold decVector
  rw [e1]
  simp only [c0, c1, f0, f1, f2, f3, f4, if_true, and_self]

theorem RoundTrip.vfma (d : BitVec 3) (a : BitVec 3) (b : BitVec 3) (k : BitVec 3) (z : BitVec 1) (t : BitVec 4) (r : BitVec 3) : RoundTrip.Statement (.vfma d a b k z t r) := by
  intro wf _
  obtain ⟨lo, hi, e0, e1, f0, f1, f2, f3, f4, f5, f6⟩ := shape_Vector_0 (ww := encodeWord (.vfma d a b k z t r)) (k := 10) (by decide) d a b k z t r rfl
  refine long_of rfl rfl lo hi wf ?_
  rw [long_decVector e0]
  unfold decVector
  rw [e1]
  simp only [f0, f1, f2, f3, f4, f5, f6]

theorem RoundTrip.vfms (d : BitVec 3) (a : BitVec 3) (b : BitVec 3) (k : BitVec 3) (z : BitVec 1) (t : BitVec 4) (r : BitVec 3) : RoundTrip.Statement (.vfms d a b k z t r) := by
  intro wf _
  obtain ⟨lo, hi, e0, e1, f0, f1, f2, f3, f4, f5, f6⟩ := shape_Vector_0 (ww := encodeWord (.vfms d a b k z t r)) (k := 11) (by decide) d a b k z t r rfl
  refine long_of rfl rfl lo hi wf ?_
  rw [long_decVector e0]
  unfold decVector
  rw [e1]
  simp only [f0, f1, f2, f3, f4, f5, f6]

theorem RoundTrip.vex2 (d : BitVec 3) (a : BitVec 3) (k : BitVec 3) (z : BitVec 1) (t : BitVec 4) (r : BitVec 3) : RoundTrip.Statement (.vex2 d a k z t r) := by
  intro wf _
  obtain ⟨lo, hi, e0, e1, c0, f0, f1, f2, f3, f4, f5⟩ := shape_Vector_2 (ww := encodeWord (.vex2 d a k z t r)) (k := 12) (by decide) d a k z t r rfl
  refine long_of rfl rfl lo hi wf ?_
  rw [long_decVector e0]
  unfold decVector
  rw [e1]
  simp only [c0, f0, f1, f2, f3, f4, f5, if_true]

theorem RoundTrip.vand (d : BitVec 3) (a : BitVec 3) (b : BitVec 3) (k : BitVec 3) (z : BitVec 1) (t : BitVec 4) : RoundTrip.Statement (.vand d a b k z t) := by
  intro wf _
  obtain ⟨lo, hi, e0, e1, c0, f0, f1, f2, f3, f4, f5⟩ := shape_Vector_1 (ww := encodeWord (.vand d a b k z t)) (k := 13) (by decide) d a b k z t rfl
  refine long_of rfl rfl lo hi wf ?_
  rw [long_decVector e0]
  unfold decVector
  rw [e1]
  simp only [c0, f0, f1, f2, f3, f4, f5, if_true]

theorem RoundTrip.vor (d : BitVec 3) (a : BitVec 3) (b : BitVec 3) (k : BitVec 3) (z : BitVec 1) (t : BitVec 4) : RoundTrip.Statement (.vor d a b k z t) := by
  intro wf _
  obtain ⟨lo, hi, e0, e1, c0, f0, f1, f2, f3, f4, f5⟩ := shape_Vector_1 (ww := encodeWord (.vor d a b k z t)) (k := 14) (by decide) d a b k z t rfl
  refine long_of rfl rfl lo hi wf ?_
  rw [long_decVector e0]
  unfold decVector
  rw [e1]
  simp only [c0, f0, f1, f2, f3, f4, f5, if_true]

theorem RoundTrip.vxor (d : BitVec 3) (a : BitVec 3) (b : BitVec 3) (k : BitVec 3) (z : BitVec 1) (t : BitVec 4) : RoundTrip.Statement (.vxor d a b k z t) := by
  intro wf _
  obtain ⟨lo, hi, e0, e1, c0, f0, f1, f2, f3, f4, f5⟩ := shape_Vector_1 (ww := encodeWord (.vxor d a b k z t)) (k := 15) (by decide) d a b k z t rfl
  refine long_of rfl rfl lo hi wf ?_
  rw [long_decVector e0]
  unfold decVector
  rw [e1]
  simp only [c0, f0, f1, f2, f3, f4, f5, if_true]

theorem RoundTrip.vsll (d : BitVec 3) (a : BitVec 3) (b : BitVec 3) (k : BitVec 3) (z : BitVec 1) (t : BitVec 4) : RoundTrip.Statement (.vsll d a b k z t) := by
  intro wf _
  obtain ⟨lo, hi, e0, e1, c0, f0, f1, f2, f3, f4, f5⟩ := shape_Vector_1 (ww := encodeWord (.vsll d a b k z t)) (k := 16) (by decide) d a b k z t rfl
  refine long_of rfl rfl lo hi wf ?_
  rw [long_decVector e0]
  unfold decVector
  rw [e1]
  simp only [c0, f0, f1, f2, f3, f4, f5, if_true]

theorem RoundTrip.vsrl (d : BitVec 3) (a : BitVec 3) (b : BitVec 3) (k : BitVec 3) (z : BitVec 1) (t : BitVec 4) : RoundTrip.Statement (.vsrl d a b k z t) := by
  intro wf _
  obtain ⟨lo, hi, e0, e1, c0, f0, f1, f2, f3, f4, f5⟩ := shape_Vector_1 (ww := encodeWord (.vsrl d a b k z t)) (k := 17) (by decide) d a b k z t rfl
  refine long_of rfl rfl lo hi wf ?_
  rw [long_decVector e0]
  unfold decVector
  rw [e1]
  simp only [c0, f0, f1, f2, f3, f4, f5, if_true]

theorem RoundTrip.vsra (d : BitVec 3) (a : BitVec 3) (b : BitVec 3) (k : BitVec 3) (z : BitVec 1) (t : BitVec 4) : RoundTrip.Statement (.vsra d a b k z t) := by
  intro wf _
  obtain ⟨lo, hi, e0, e1, c0, f0, f1, f2, f3, f4, f5⟩ := shape_Vector_1 (ww := encodeWord (.vsra d a b k z t)) (k := 18) (by decide) d a b k z t rfl
  refine long_of rfl rfl lo hi wf ?_
  rw [long_decVector e0]
  unfold decVector
  rw [e1]
  simp only [c0, f0, f1, f2, f3, f4, f5, if_true]

theorem RoundTrip.vadds (d : BitVec 3) (a : BitVec 3) (b : BitVec 3) (k : BitVec 3) (z : BitVec 1) (t : BitVec 4) : RoundTrip.Statement (.vadds d a b k z t) := by
  intro wf _
  obtain ⟨lo, hi, e0, e1, c0, f0, f1, f2, f3, f4, f5⟩ := shape_Vector_1 (ww := encodeWord (.vadds d a b k z t)) (k := 19) (by decide) d a b k z t rfl
  refine long_of rfl rfl lo hi wf ?_
  rw [long_decVector e0]
  unfold decVector
  rw [e1]
  simp only [c0, f0, f1, f2, f3, f4, f5, if_true]

theorem RoundTrip.vsubs (d : BitVec 3) (a : BitVec 3) (b : BitVec 3) (k : BitVec 3) (z : BitVec 1) (t : BitVec 4) : RoundTrip.Statement (.vsubs d a b k z t) := by
  intro wf _
  obtain ⟨lo, hi, e0, e1, c0, f0, f1, f2, f3, f4, f5⟩ := shape_Vector_1 (ww := encodeWord (.vsubs d a b k z t)) (k := 20) (by decide) d a b k z t rfl
  refine long_of rfl rfl lo hi wf ?_
  rw [long_decVector e0]
  unfold decVector
  rw [e1]
  simp only [c0, f0, f1, f2, f3, f4, f5, if_true]

theorem shape_Vector_4 {k : Nat} (hk : k < 2 ^ 5) (x0 : BitVec 3) (x1 : BitVec 3) (x2 : BitVec 3) (x3 : BitVec 3) (x4 : BitVec 4) {ww : Nat}
    (hw : 0xc0000000 + k * 2 ^ 0 + x0.toNat * 0x400000 + x1.toNat * 0x80000 + x2.toNat * 0x10000 + x3.toNat * 0x2000 + x4.toNat * 0x100 = ww) :
    2 ^ 31 ≤ ww ∧ ww < 2 ^ 32 ∧ num ww 25 7 = 96 ∧ num ww 0 5 = k ∧ num ww 5 3 = 0 ∧ num ww 12 1 = 0 ∧ fld ww 22 3 = x0 ∧ fld ww 19 3 = x1 ∧ fld ww 16 3 = x2 ∧ fld ww 13 3 = x3 ∧ fld ww 8 4 = x4 := by
  have l0 := x0.isLt
  have l1 := x1.isLt
  have l2 := x2.isLt
  have l3 := x3.isLt
  have l4 := x4.isLt
  simp only [num, fld]
  refine ⟨?_, ?_, ?_, ?_, ?_, ?_, ?_, ?_, ?_, ?_, ?_⟩
  · omega
  · omega
  · omega
  · omega
  · omega
  · omega
  · apply BitVec.eq_of_toNat_eq; simp only [BitVec.toNat_ofNat]; omega
  · apply BitVec.eq_of_toNat_eq; simp only [BitVec.toNat_ofNat]; omega
  · apply BitVec.eq_of_toNat_eq; simp only [BitVec.toNat_ofNat]; omega
  · apply BitVec.eq_of_toNat_eq; simp only [BitVec.toNat_ofNat]; omega
  · apply BitVec.eq_of_toNat_eq; simp only [BitVec.toNat_ofNat]; omega

theorem RoundTrip.vsel (d : BitVec 3) (a : BitVec 3) (b : BitVec 3) (k : BitVec 3) (t : BitVec 4) : RoundTrip.Statement (.vsel d a b k t) := by
  intro wf _
  obtain ⟨lo, hi, e0, e1, c0, c1, f0, f1, f2, f3, f4⟩ := shape_Vector_4 (ww := encodeWord (.vsel d a b k t)) (k := 21) (by decide) d a b k t rfl
  refine long_of rfl rfl lo hi wf ?_
  rw [long_decVector e0]
  unfold decVector
  rw [e1]
  simp only [c0, c1, f0, f1, f2, f3, f4, if_true, and_self]

theorem shape_Compare_0 {k : Nat} (hk : k < 2 ^ 5) (x0 : BitVec 3) (x1 : BitVec 3) (x2 : BitVec 3) (x3 : BitVec 3) (x4 : BitVec 1) (x5 : BitVec 4) {ww : Nat}
    (hw : 0xc2000000 + k * 2 ^ 0 + x0.toNat * 0x400000 + x1.toNat * 0x80000 + x2.toNat * 0x10000 + x3.toNat * 0x2000 + x4.toNat * 0x1000 + x5.toNat * 0x100 = ww) :
    2 ^ 31 ≤ ww ∧ ww < 2 ^ 32 ∧ num ww 25 7 = 97 ∧ num ww 0 5 = k ∧ num ww 5 3 = 0 ∧ fld ww 22 3 = x0 ∧ fld ww 19 3 = x1 ∧ fld ww 16 3 = x2 ∧ fld ww 13 3 = x3 ∧ fld ww 12 1 = x4 ∧ fld ww 8 4 = x5 := by
  have l0 := x0.isLt
  have l1 := x1.isLt
  have l2 := x2.isLt
  have l3 := x3.isLt
  have l4 := x4.isLt
  have l5 := x5.isLt
  simp only [num, fld]
  refine ⟨?_, ?_, ?_, ?_, ?_, ?_, ?_, ?_, ?_, ?_, ?_⟩
  · omega
  · omega
  · omega
  · omega
  · omega
  · apply BitVec.eq_of_toNat_eq; simp only [BitVec.toNat_ofNat]; omega
  · apply BitVec.eq_of_toNat_eq; simp only [BitVec.toNat_ofNat]; omega
  · apply BitVec.eq_of_toNat_eq; simp only [BitVec.toNat_ofNat]; omega
  · apply BitVec.eq_of_toNat_eq; simp only [BitVec.toNat_ofNat]; omega
  · apply BitVec.eq_of_toNat_eq; simp only [BitVec.toNat_ofNat]; omega
  · apply BitVec.eq_of_toNat_eq; simp only [BitVec.toNat_ofNat]; omega

theorem RoundTrip.vceq (d : BitVec 3) (a : BitVec 3) (b : BitVec 3) (k : BitVec 3) (z : BitVec 1) (t : BitVec 4) : RoundTrip.Statement (.vceq d a b k z t) := by
  intro wf _
  obtain ⟨lo, hi, e0, e1, c0, f0, f1, f2, f3, f4, f5⟩ := shape_Compare_0 (ww := encodeWord (.vceq d a b k z t)) (k := 0) (by decide) d a b k z t rfl
  refine long_of rfl rfl lo hi wf ?_
  rw [long_decCompare e0]
  unfold decCompare
  rw [e1]
  simp only [c0, f0, f1, f2, f3, f4, f5, if_true]

theorem RoundTrip.vcne (d : BitVec 3) (a : BitVec 3) (b : BitVec 3) (k : BitVec 3) (z : BitVec 1) (t : BitVec 4) : RoundTrip.Statement (.vcne d a b k z t) := by
  intro wf _
  obtain ⟨lo, hi, e0, e1, c0, f0, f1, f2, f3, f4, f5⟩ := shape_Compare_0 (ww := encodeWord (.vcne d a b k z t)) (k := 1) (by decide) d a b k z t rfl
  refine long_of rfl rfl lo hi wf ?_
  rw [long_decCompare e0]
  unfold decCompare
  rw [e1]
  simp only [c0, f0, f1, f2, f3, f4, f5, if_true]

theorem RoundTrip.vclt (d : BitVec 3) (a : BitVec 3) (b : BitVec 3) (k : BitVec 3) (z : BitVec 1) (t : BitVec 4) : RoundTrip.Statement (.vclt d a b k z t) := by
  intro wf _
  obtain ⟨lo, hi, e0, e1, c0, f0, f1, f2, f3, f4, f5⟩ := shape_Compare_0 (ww := encodeWord (.vclt d a b k z t)) (k := 2) (by decide) d a b k z t rfl
  refine long_of rfl rfl lo hi wf ?_
  rw [long_decCompare e0]
  unfold decCompare
  rw [e1]
  simp only [c0, f0, f1, f2, f3, f4, f5, if_true]

theorem RoundTrip.vcle (d : BitVec 3) (a : BitVec 3) (b : BitVec 3) (k : BitVec 3) (z : BitVec 1) (t : BitVec 4) : RoundTrip.Statement (.vcle d a b k z t) := by
  intro wf _
  obtain ⟨lo, hi, e0, e1, c0, f0, f1, f2, f3, f4, f5⟩ := shape_Compare_0 (ww := encodeWord (.vcle d a b k z t)) (k := 3) (by decide) d a b k z t rfl
  refine long_of rfl rfl lo hi wf ?_
  rw [long_decCompare e0]
  unfold decCompare
  rw [e1]
  simp only [c0, f0, f1, f2, f3, f4, f5, if_true]

theorem RoundTrip.vcun (d : BitVec 3) (a : BitVec 3) (b : BitVec 3) (k : BitVec 3) (z : BitVec 1) (t : BitVec 4) : RoundTrip.Statement (.vcun d a b k z t) := by
  intro wf _
  obtain ⟨lo, hi, e0, e1, c0, f0, f1, f2, f3, f4, f5⟩ := shape_Compare_0 (ww := encodeWord (.vcun d a b k z t)) (k := 4) (by decide) d a b k z t rfl
  refine long_of rfl rfl lo hi wf ?_
  rw [long_decCompare e0]
  unfold decCompare
  rw [e1]
  simp only [c0, f0, f1, f2, f3, f4, f5, if_true]

theorem shape_Convert_0 {k : Nat} (hk : k < 2 ^ 3) (x0 : BitVec 3) (x1 : BitVec 3) (x2 : BitVec 4) (x3 : BitVec 3) (x4 : BitVec 4) (x5 : BitVec 3) (x6 : BitVec 1) (x7 : BitVec 1) {ww : Nat}
    (hw : 0xc4000000 + k * 2 ^ 0 + x0.toNat * 0x400000 + x1.toNat * 0x80000 + x2.toNat * 0x8000 + x3.toNat * 0x1000 + x4.toNat * 0x100 + x5.toNat * 0x20 + x6.toNat * 0x10 + x7.toNat * 0x8 = ww) :
    2 ^ 31 ≤ ww ∧ ww < 2 ^ 32 ∧ num ww 25 7 = 98 ∧ num ww 0 3 = k ∧ fld ww 22 3 = x0 ∧ fld ww 19 3 = x1 ∧ fld ww 15 4 = x2 ∧ fld ww 12 3 = x3 ∧ fld ww 8 4 = x4 ∧ fld ww 5 3 = x5 ∧ fld ww 4 1 = x6 ∧ fld ww 3 1 = x7 := by
  have l0 := x0.isLt
  have l1 := x1.isLt
  have l2 := x2.isLt
  have l3 := x3.isLt
  have l4 := x4.isLt
  have l5 := x5.isLt
  have l6 := x6.isLt
  have l7 := x7.isLt
  simp only [num, fld]
  refine ⟨?_, ?_, ?_, ?_, ?_, ?_, ?_, ?_, ?_, ?_, ?_, ?_⟩
  · omega
  · omega
  · omega
  · omega
  · apply BitVec.eq_of_toNat_eq; simp only [BitVec.toNat_ofNat]; omega
  · apply BitVec.eq_of_toNat_eq; simp only [BitVec.toNat_ofNat]; omega
  · apply BitVec.eq_of_toNat_eq; simp only [BitVec.toNat_ofNat]; omega
  · apply BitVec.eq_of_toNat_eq; simp only [BitVec.toNat_ofNat]; omega
  · apply BitVec.eq_of_toNat_eq; simp only [BitVec.toNat_ofNat]; omega
  · apply BitVec.eq_of_toNat_eq; simp only [BitVec.toNat_ofNat]; omega
  · apply BitVec.eq_of_toNat_eq; simp only [BitVec.toNat_ofNat]; omega
  · apply BitVec.eq_of_toNat_eq; simp only [BitVec.toNat_ofNat]; omega

theorem RoundTrip.vcvt (d : BitVec 3) (a : BitVec 3) (u : BitVec 4) (k : BitVec 3) (t : BitVec 4) (r : BitVec 3) (s : BitVec 1) (z : BitVec 1) : RoundTrip.Statement (.vcvt d a u k t r s z) := by
  intro wf _
  obtain ⟨lo, hi, e0, e1, f0, f1, f2, f3, f4, f5, f6, f7⟩ := shape_Convert_0 (ww := encodeWord (.vcvt d a u k t r s z)) (k := 0) (by decide) d a u k t r s z rfl
  refine long_of rfl rfl lo hi wf ?_
  rw [long_decConvert e0]
  unfold decConvert
  rw [e1]
  simp only [f0, f1, f2, f3, f4, f5, f6, f7]

theorem shape_Reduce_0 {k : Nat} (hk : k < 2 ^ 5) (x0 : BitVec 3) (x1 : BitVec 3) (x2 : BitVec 3) (x3 : BitVec 1) (x4 : BitVec 4) (x5 : BitVec 3) {ww : Nat}
    (hw : 0xc6000000 + k * 2 ^ 0 + x0.toNat * 0x400000 + x1.toNat * 0x80000 + x2.toNat * 0x2000 + x3.toNat * 0x1000 + x4.toNat * 0x100 + x5.toNat * 0x20 = ww) :
    2 ^ 31 ≤ ww ∧ ww < 2 ^ 32 ∧ num ww 25 7 = 99 ∧ num ww 0 5 = k ∧ num ww 16 3 = 0 ∧ fld ww 22 3 = x0 ∧ fld ww 19 3 = x1 ∧ fld ww 13 3 = x2 ∧ fld ww 12 1 = x3 ∧ fld ww 8 4 = x4 ∧ fld ww 5 3 = x5 := by
  have l0 := x0.isLt
  have l1 := x1.isLt
  have l2 := x2.isLt
  have l3 := x3.isLt
  have l4 := x4.isLt
  have l5 := x5.isLt
  simp only [num, fld]
  refine ⟨?_, ?_, ?_, ?_, ?_, ?_, ?_, ?_, ?_, ?_, ?_⟩
  · omega
  · omega
  · omega
  · omega
  · omega
  · apply BitVec.eq_of_toNat_eq; simp only [BitVec.toNat_ofNat]; omega
  · apply BitVec.eq_of_toNat_eq; simp only [BitVec.toNat_ofNat]; omega
  · apply BitVec.eq_of_toNat_eq; simp only [BitVec.toNat_ofNat]; omega
  · apply BitVec.eq_of_toNat_eq; simp only [BitVec.toNat_ofNat]; omega
  · apply BitVec.eq_of_toNat_eq; simp only [BitVec.toNat_ofNat]; omega
  · apply BitVec.eq_of_toNat_eq; simp only [BitVec.toNat_ofNat]; omega

theorem RoundTrip.vrsum (d : BitVec 3) (a : BitVec 3) (k : BitVec 3) (z : BitVec 1) (t : BitVec 4) (r : BitVec 3) : RoundTrip.Statement (.vrsum d a k z t r) := by
  intro wf _
  obtain ⟨lo, hi, e0, e1, c0, f0, f1, f2, f3, f4, f5⟩ := shape_Reduce_0 (ww := encodeWord (.vrsum d a k z t r)) (k := 0) (by decide) d a k z t r rfl
  refine long_of rfl rfl lo hi wf ?_
  rw [long_decReduce e0]
  unfold decReduce
  rw [e1]
  simp only [c0, f0, f1, f2, f3, f4, f5, if_true]

theorem shape_Reduce_1 {k : Nat} (hk : k < 2 ^ 5) (x0 : BitVec 3) (x1 : BitVec 3) (x2 : BitVec 3) (x3 : BitVec 1) (x4 : BitVec 4) {ww : Nat}
    (hw : 0xc6000000 + k * 2 ^ 0 + x0.toNat * 0x400000 + x1.toNat * 0x80000 + x2.toNat * 0x2000 + x3.toNat * 0x1000 + x4.toNat * 0x100 = ww) :
    2 ^ 31 ≤ ww ∧ ww < 2 ^ 32 ∧ num ww 25 7 = 99 ∧ num ww 0 5 = k ∧ num ww 5 3 = 0 ∧ num ww 16 3 = 0 ∧ fld ww 22 3 = x0 ∧ fld ww 19 3 = x1 ∧ fld ww 13 3 = x2 ∧ fld ww 12 1 = x3 ∧ fld ww 8 4 = x4 := by
  have l0 := x0.isLt
  have l1 := x1.isLt
  have l2 := x2.isLt
  have l3 := x3.isLt
  have l4 := x4.isLt
  simp only [num, fld]
  refine ⟨?_, ?_, ?_, ?_, ?_, ?_, ?_, ?_, ?_, ?_, ?_⟩
  · omega
  · omega
  · omega
  · omega
  · omega
  · omega
  · apply BitVec.eq_of_toNat_eq; simp only [BitVec.toNat_ofNat]; omega
  · apply BitVec.eq_of_toNat_eq; simp only [BitVec.toNat_ofNat]; omega
  · apply BitVec.eq_of_toNat_eq; simp only [BitVec.toNat_ofNat]; omega
  · apply BitVec.eq_of_toNat_eq; simp only [BitVec.toNat_ofNat]; omega
  · apply BitVec.eq_of_toNat_eq; simp only [BitVec.toNat_ofNat]; omega

theorem RoundTrip.vrmin (d : BitVec 3) (a : BitVec 3) (k : BitVec 3) (z : BitVec 1) (t : BitVec 4) : RoundTrip.Statement (.vrmin d a k z t) := by
  intro wf _
  obtain ⟨lo, hi, e0, e1, c0, c1, f0, f1, f2, f3, f4⟩ := shape_Reduce_1 (ww := encodeWord (.vrmin d a k z t)) (k := 1) (by decide) d a k z t rfl
  refine long_of rfl rfl lo hi wf ?_
  rw [long_decReduce e0]
  unfold decReduce
  rw [e1]
  simp only [c0, c1, f0, f1, f2, f3, f4, if_true, and_self]

theorem RoundTrip.vrmax (d : BitVec 3) (a : BitVec 3) (k : BitVec 3) (z : BitVec 1) (t : BitVec 4) : RoundTrip.Statement (.vrmax d a k z t) := by
  intro wf _
  obtain ⟨lo, hi, e0, e1, c0, c1, f0, f1, f2, f3, f4⟩ := shape_Reduce_1 (ww := encodeWord (.vrmax d a k z t)) (k := 2) (by decide) d a k z t rfl
  refine long_of rfl rfl lo hi wf ?_
  rw [long_decReduce e0]
  unfold decReduce
  rw [e1]
  simp only [c0, c1, f0, f1, f2, f3, f4, if_true, and_self]

theorem RoundTrip.vrand (d : BitVec 3) (a : BitVec 3) (k : BitVec 3) (z : BitVec 1) (t : BitVec 4) : RoundTrip.Statement (.vrand d a k z t) := by
  intro wf _
  obtain ⟨lo, hi, e0, e1, c0, c1, f0, f1, f2, f3, f4⟩ := shape_Reduce_1 (ww := encodeWord (.vrand d a k z t)) (k := 3) (by decide) d a k z t rfl
  refine long_of rfl rfl lo hi wf ?_
  rw [long_decReduce e0]
  unfold decReduce
  rw [e1]
  simp only [c0, c1, f0, f1, f2, f3, f4, if_true, and_self]

theorem RoundTrip.vror (d : BitVec 3) (a : BitVec 3) (k : BitVec 3) (z : BitVec 1) (t : BitVec 4) : RoundTrip.Statement (.vror d a k z t) := by
  intro wf _
  obtain ⟨lo, hi, e0, e1, c0, c1, f0, f1, f2, f3, f4⟩ := shape_Reduce_1 (ww := encodeWord (.vror d a k z t)) (k := 4) (by decide) d a k z t rfl
  refine long_of rfl rfl lo hi wf ?_
  rw [long_decReduce e0]
  unfold decReduce
  rw [e1]
  simp only [c0, c1, f0, f1, f2, f3, f4, if_true, and_self]

theorem RoundTrip.vrxor (d : BitVec 3) (a : BitVec 3) (k : BitVec 3) (z : BitVec 1) (t : BitVec 4) : RoundTrip.Statement (.vrxor d a k z t) := by
  intro wf _
  obtain ⟨lo, hi, e0, e1, c0, c1, f0, f1, f2, f3, f4⟩ := shape_Reduce_1 (ww := encodeWord (.vrxor d a k z t)) (k := 5) (by decide) d a k z t rfl
  refine long_of rfl rfl lo hi wf ?_
  rw [long_decReduce e0]
  unfold decReduce
  rw [e1]
  simp only [c0, c1, f0, f1, f2, f3, f4, if_true, and_self]

theorem shape_Move_0 {k : Nat} (hk : k < 2 ^ 5) (x0 : BitVec 3) (x1 : BitVec 3) (x2 : BitVec 3) (x3 : BitVec 3) (x4 : BitVec 1) (x5 : BitVec 4) {ww : Nat}
    (hw : 0xc8000000 + k * 2 ^ 0 + x0.toNat * 0x400000 + x1.toNat * 0x80000 + x2.toNat * 0x10000 + x3.toNat * 0x2000 + x4.toNat * 0x1000 + x5.toNat * 0x100 = ww) :
    2 ^ 31 ≤ ww ∧ ww < 2 ^ 32 ∧ num ww 25 7 = 100 ∧ num ww 0 5 = k ∧ num ww 5 3 = 0 ∧ fld ww 22 3 = x0 ∧ fld ww 19 3 = x1 ∧ fld ww 16 3 = x2 ∧ fld ww 13 3 = x3 ∧ fld ww 12 1 = x4 ∧ fld ww 8 4 = x5 := by
  have l0 := x0.isLt
  have l1 := x1.isLt
  have l2 := x2.isLt
  have l3 := x3.isLt
  have l4 := x4.isLt
  have l5 := x5.isLt
  simp only [num, fld]
  refine ⟨?_, ?_, ?_, ?_, ?_, ?_, ?_, ?_, ?_, ?_, ?_⟩
  · omega
  · omega
  · omega
  · omega
  · omega
  · apply BitVec.eq_of_toNat_eq; simp only [BitVec.toNat_ofNat]; omega
  · apply BitVec.eq_of_toNat_eq; simp only [BitVec.toNat_ofNat]; omega
  · apply BitVec.eq_of_toNat_eq; simp only [BitVec.toNat_ofNat]; omega
  · apply BitVec.eq_of_toNat_eq; simp only [BitVec.toNat_ofNat]; omega
  · apply BitVec.eq_of_toNat_eq; simp only [BitVec.toNat_ofNat]; omega
  · apply BitVec.eq_of_toNat_eq; simp only [BitVec.toNat_ofNat]; omega

theorem RoundTrip.vperm (d : BitVec 3) (a : BitVec 3) (b : BitVec 3) (k : BitVec 3) (z : BitVec 1) (t : BitVec 4) : RoundTrip.Statement (.vperm d a b k z t) := by
  intro wf _
  obtain ⟨lo, hi, e0, e1, c0, f0, f1, f2, f3, f4, f5⟩ := shape_Move_0 (ww := encodeWord (.vperm d a b k z t)) (k := 0) (by decide) d a b k z t rfl
  refine long_of rfl rfl lo hi wf ?_
  rw [long_decMove e0]
  unfold decMove
  rw [e1]
  simp only [c0, f0, f1, f2, f3, f4, f5, if_true]

theorem shape_Move_1 {k : Nat} (hk : k < 2 ^ 5) (x0 : BitVec 3) (x1 : BitVec 3) (x2 : BitVec 3) (x3 : BitVec 1) (x4 : BitVec 4) {ww : Nat}
    (hw : 0xc8000000 + k * 2 ^ 0 + x0.toNat * 0x400000 + x1.toNat * 0x80000 + x2.toNat * 0x2000 + x3.toNat * 0x1000 + x4.toNat * 0x100 = ww) :
    2 ^ 31 ≤ ww ∧ ww < 2 ^ 32 ∧ num ww 25 7 = 100 ∧ num ww 0 5 = k ∧ num ww 5 3 = 0 ∧ num ww 16 3 = 0 ∧ fld ww 22 3 = x0 ∧ fld ww 19 3 = x1 ∧ fld ww 13 3 = x2 ∧ fld ww 12 1 = x3 ∧ fld ww 8 4 = x4 := by
  have l0 := x0.isLt
  have l1 := x1.isLt
  have l2 := x2.isLt
  have l3 := x3.isLt
  have l4 := x4.isLt
  simp only [num, fld]
  refine ⟨?_, ?_, ?_, ?_, ?_, ?_, ?_, ?_, ?_, ?_, ?_⟩
  · omega
  · omega
  · omega
  · omega
  · omega
  · omega
  · apply BitVec.eq_of_toNat_eq; simp only [BitVec.toNat_ofNat]; omega
  · apply BitVec.eq_of_toNat_eq; simp only [BitVec.toNat_ofNat]; omega
  · apply BitVec.eq_of_toNat_eq; simp only [BitVec.toNat_ofNat]; omega
  · apply BitVec.eq_of_toNat_eq; simp only [BitVec.toNat_ofNat]; omega
  · apply BitVec.eq_of_toNat_eq; simp only [BitVec.toNat_ofNat]; omega

theorem RoundTrip.vbcast (d : BitVec 3) (e : BitVec 3) (k : BitVec 3) (z : BitVec 1) (t : BitVec 4) : RoundTrip.Statement (.vbcast d e k z t) := by
  intro wf _
  obtain ⟨lo, hi, e0, e1, c0, c1, f0, f1, f2, f3, f4⟩ := shape_Move_1 (ww := encodeWord (.vbcast d e k z t)) (k := 1) (by decide) d e k z t rfl
  refine long_of rfl rfl lo hi wf ?_
  rw [long_decMove e0]
  unfold decMove
  rw [e1]
  simp only [c0, c1, f0, f1, f2, f3, f4, if_true, and_self]

theorem RoundTrip.vslup (d : BitVec 3) (a : BitVec 3) (k : BitVec 3) (z : BitVec 1) (t : BitVec 4) : RoundTrip.Statement (.vslup d a k z t) := by
  intro wf _
  obtain ⟨lo, hi, e0, e1, c0, c1, f0, f1, f2, f3, f4⟩ := shape_Move_1 (ww := encodeWord (.vslup d a k z t)) (k := 2) (by decide) d a k z t rfl
  refine long_of rfl rfl lo hi wf ?_
  rw [long_decMove e0]
  unfold decMove
  rw [e1]
  simp only [c0, c1, f0, f1, f2, f3, f4, if_true, and_self]

theorem RoundTrip.vsldn (d : BitVec 3) (a : BitVec 3) (k : BitVec 3) (z : BitVec 1) (t : BitVec 4) : RoundTrip.Statement (.vsldn d a k z t) := by
  intro wf _
  obtain ⟨lo, hi, e0, e1, c0, c1, f0, f1, f2, f3, f4⟩ := shape_Move_1 (ww := encodeWord (.vsldn d a k z t)) (k := 3) (by decide) d a k z t rfl
  refine long_of rfl rfl lo hi wf ?_
  rw [long_decMove e0]
  unfold decMove
  rw [e1]
  simp only [c0, c1, f0, f1, f2, f3, f4, if_true, and_self]

theorem shape_Move_2 {k : Nat} (hk : k < 2 ^ 5) (x0 : BitVec 3) (x1 : BitVec 3) (x2 : BitVec 3) (x3 : BitVec 4) {ww : Nat}
    (hw : 0xc8000000 + k * 2 ^ 0 + x0.toNat * 0x400000 + x1.toNat * 0x80000 + x2.toNat * 0x2000 + x3.toNat * 0x100 = ww) :
    2 ^ 31 ≤ ww ∧ ww < 2 ^ 32 ∧ num ww 25 7 = 100 ∧ num ww 0 5 = k ∧ num ww 5 3 = 0 ∧ num ww 12 1 = 0 ∧ num ww 16 3 = 0 ∧ fld ww 22 3 = x0 ∧ fld ww 19 3 = x1 ∧ fld ww 13 3 = x2 ∧ fld ww 8 4 = x3 := by
  have l0 := x0.isLt
  have l1 := x1.isLt
  have l2 := x2.isLt
  have l3 := x3.isLt
  simp only [num, fld]
  refine ⟨?_, ?_, ?_, ?_, ?_, ?_, ?_, ?_, ?_, ?_, ?_⟩
  · omega
  · omega
  · omega
  · omega
  · omega
  · omega
  · omega
  · apply BitVec.eq_of_toNat_eq; simp only [BitVec.toNat_ofNat]; omega
  · apply BitVec.eq_of_toNat_eq; simp only [BitVec.toNat_ofNat]; omega
  · apply BitVec.eq_of_toNat_eq; simp only [BitVec.toNat_ofNat]; omega
  · apply BitVec.eq_of_toNat_eq; simp only [BitVec.toNat_ofNat]; omega

theorem RoundTrip.vins (d : BitVec 3) (e : BitVec 3) (k : BitVec 3) (t : BitVec 4) : RoundTrip.Statement (.vins d e k t) := by
  intro wf _
  obtain ⟨lo, hi, e0, e1, c0, c1, c2, f0, f1, f2, f3⟩ := shape_Move_2 (ww := encodeWord (.vins d e k t)) (k := 4) (by decide) d e k t rfl
  refine long_of rfl rfl lo hi wf ?_
  rw [long_decMove e0]
  unfold decMove
  rw [e1]
  simp only [c0, c1, c2, f0, f1, f2, f3, if_true, and_self]

theorem shape_Move_3 {k : Nat} (hk : k < 2 ^ 5) (x0 : BitVec 3) (x1 : BitVec 3) (x2 : BitVec 4) {ww : Nat}
    (hw : 0xc8000000 + k * 2 ^ 0 + x0.toNat * 0x400000 + x1.toNat * 0x80000 + x2.toNat * 0x100 = ww) :
    2 ^ 31 ≤ ww ∧ ww < 2 ^ 32 ∧ num ww 25 7 = 100 ∧ num ww 0 5 = k ∧ num ww 5 3 = 0 ∧ num ww 12 7 = 0 ∧ fld ww 22 3 = x0 ∧ fld ww 19 3 = x1 ∧ fld ww 8 4 = x2 := by
  have l0 := x0.isLt
  have l1 := x1.isLt
  have l2 := x2.isLt
  simp only [num, fld]
  refine ⟨?_, ?_, ?_, ?_, ?_, ?_, ?_, ?_, ?_⟩
  · omega
  · omega
  · omega
  · omega
  · omega
  · omega
  · apply BitVec.eq_of_toNat_eq; simp only [BitVec.toNat_ofNat]; omega
  · apply BitVec.eq_of_toNat_eq; simp only [BitVec.toNat_ofNat]; omega
  · apply BitVec.eq_of_toNat_eq; simp only [BitVec.toNat_ofNat]; omega

theorem RoundTrip.vext (e : BitVec 3) (a : BitVec 3) (t : BitVec 4) : RoundTrip.Statement (.vext e a t) := by
  intro wf _
  obtain ⟨lo, hi, e0, e1, c0, c1, f0, f1, f2⟩ := shape_Move_3 (ww := encodeWord (.vext e a t)) (k := 5) (by decide) e a t rfl
  refine long_of rfl rfl lo hi wf ?_
  rw [long_decMove e0]
  unfold decMove
  rw [e1]
  simp only [c0, c1, f0, f1, f2, if_true, and_self]

theorem RoundTrip.vmov (d : BitVec 3) (a : BitVec 3) (k : BitVec 3) (z : BitVec 1) (t : BitVec 4) : RoundTrip.Statement (.vmov d a k z t) := by
  intro wf _
  obtain ⟨lo, hi, e0, e1, c0, c1, f0, f1, f2, f3, f4⟩ := shape_Move_1 (ww := encodeWord (.vmov d a k z t)) (k := 6) (by decide) d a k z t rfl
  refine long_of rfl rfl lo hi wf ?_
  rw [long_decMove e0]
  unfold decMove
  rw [e1]
  simp only [c0, c1, f0, f1, f2, f3, f4, if_true, and_self]

theorem RoundTrip.vaccr (d : BitVec 3) (n : BitVec 3) (k : BitVec 3) (z : BitVec 1) (t : BitVec 4) : RoundTrip.Statement (.vaccr d n k z t) := by
  intro wf _
  obtain ⟨lo, hi, e0, e1, c0, c1, f0, f1, f2, f3, f4⟩ := shape_Move_1 (ww := encodeWord (.vaccr d n k z t)) (k := 7) (by decide) d n k z t rfl
  refine long_of rfl rfl lo hi wf ?_
  rw [long_decMove e0]
  unfold decMove
  rw [e1]
  simp only [c0, c1, f0, f1, f2, f3, f4, if_true, and_self]

theorem shape_Mask_0 {k : Nat} (hk : k < 2 ^ 5) (x0 : BitVec 3) (x1 : BitVec 3) (x2 : BitVec 3) {ww : Nat}
    (hw : 0xca000000 + k * 2 ^ 0 + x0.toNat * 0x400000 + x1.toNat * 0x80000 + x2.toNat * 0x10000 = ww) :
    2 ^ 31 ≤ ww ∧ ww < 2 ^ 32 ∧ num ww 25 7 = 101 ∧ num ww 0 5 = k ∧ num ww 5 11 = 0 ∧ fld ww 22 3 = x0 ∧ fld ww 19 3 = x1 ∧ fld ww 16 3 = x2 := by
  have l0 := x0.isLt
  have l1 := x1.isLt
  have l2 := x2.isLt
  simp only [num, fld]
  refine ⟨?_, ?_, ?_, ?_, ?_, ?_, ?_, ?_⟩
  · omega
  · omega
  · omega
  · omega
  · omega
  · apply BitVec.eq_of_toNat_eq; simp only [BitVec.toNat_ofNat]; omega
  · apply BitVec.eq_of_toNat_eq; simp only [BitVec.toNat_ofNat]; omega
  · apply BitVec.eq_of_toNat_eq; simp only [BitVec.toNat_ofNat]; omega

theorem RoundTrip.kand (d : BitVec 3) (a : BitVec 3) (b : BitVec 3) : RoundTrip.Statement (.kand d a b) := by
  intro wf _
  obtain ⟨lo, hi, e0, e1, c0, f0, f1, f2⟩ := shape_Mask_0 (ww := encodeWord (.kand d a b)) (k := 0) (by decide) d a b rfl
  refine long_of rfl rfl lo hi wf ?_
  rw [long_decMask e0]
  unfold decMask
  rw [e1]
  simp only [c0, f0, f1, f2, if_true]

theorem RoundTrip.kor (d : BitVec 3) (a : BitVec 3) (b : BitVec 3) : RoundTrip.Statement (.kor d a b) := by
  intro wf _
  obtain ⟨lo, hi, e0, e1, c0, f0, f1, f2⟩ := shape_Mask_0 (ww := encodeWord (.kor d a b)) (k := 1) (by decide) d a b rfl
  refine long_of rfl rfl lo hi wf ?_
  rw [long_decMask e0]
  unfold decMask
  rw [e1]
  simp only [c0, f0, f1, f2, if_true]

theorem RoundTrip.kxor (d : BitVec 3) (a : BitVec 3) (b : BitVec 3) : RoundTrip.Statement (.kxor d a b) := by
  intro wf _
  obtain ⟨lo, hi, e0, e1, c0, f0, f1, f2⟩ := shape_Mask_0 (ww := encodeWord (.kxor d a b)) (k := 2) (by decide) d a b rfl
  refine long_of rfl rfl lo hi wf ?_
  rw [long_decMask e0]
  unfold decMask
  rw [e1]
  simp only [c0, f0, f1, f2, if_true]

theorem shape_Mask_1 {k : Nat} (hk : k < 2 ^ 5) (x0 : BitVec 3) (x1 : BitVec 3) {ww : Nat}
    (hw : 0xca000000 + k * 2 ^ 0 + x0.toNat * 0x400000 + x1.toNat * 0x80000 = ww) :
    2 ^ 31 ≤ ww ∧ ww < 2 ^ 32 ∧ num ww 25 7 = 101 ∧ num ww 0 5 = k ∧ num ww 5 14 = 0 ∧ fld ww 22 3 = x0 ∧ fld ww 19 3 = x1 := by
  have l0 := x0.isLt
  have l1 := x1.isLt
  simp only [num, fld]
  refine ⟨?_, ?_, ?_, ?_, ?_, ?_, ?_⟩
  · omega
  · omega
  · omega
  · omega
  · omega
  · apply BitVec.eq_of_toNat_eq; simp only [BitVec.toNat_ofNat]; omega
  · apply BitVec.eq_of_toNat_eq; simp only [BitVec.toNat_ofNat]; omega

theorem RoundTrip.knot (d : BitVec 3) (a : BitVec 3) : RoundTrip.Statement (.knot d a) := by
  intro wf _
  obtain ⟨lo, hi, e0, e1, c0, f0, f1⟩ := shape_Mask_1 (ww := encodeWord (.knot d a)) (k := 3) (by decide) d a rfl
  refine long_of rfl rfl lo hi wf ?_
  rw [long_decMask e0]
  unfold decMask
  rw [e1]
  simp only [c0, f0, f1, if_true]

theorem RoundTrip.kmov (d : BitVec 3) (a : BitVec 3) : RoundTrip.Statement (.kmov d a) := by
  intro wf _
  obtain ⟨lo, hi, e0, e1, c0, f0, f1⟩ := shape_Mask_1 (ww := encodeWord (.kmov d a)) (k := 4) (by decide) d a rfl
  refine long_of rfl rfl lo hi wf ?_
  rw [long_decMask e0]
  unfold decMask
  rw [e1]
  simp only [c0, f0, f1, if_true]

theorem RoundTrip.kpopc (e : BitVec 3) (a : BitVec 3) : RoundTrip.Statement (.kpopc e a) := by
  intro wf _
  obtain ⟨lo, hi, e0, e1, c0, f0, f1⟩ := shape_Mask_1 (ww := encodeWord (.kpopc e a)) (k := 5) (by decide) e a rfl
  refine long_of rfl rfl lo hi wf ?_
  rw [long_decMask e0]
  unfold decMask
  rw [e1]
  simp only [c0, f0, f1, if_true]

theorem shape_VecMem_0 {k : Nat} (hk : k < 2 ^ 3) (x0 : BitVec 3) (x1 : BitVec 3) (x2 : BitVec 1) (x3 : BitVec 4) (x4 : BitVec 3) (x5 : BitVec 2) {ww : Nat}
    (hw : 0xcc000000 + k * 2 ^ 3 + x0.toNat * 0x400000 + x1.toNat * 0x20000 + x2.toNat * 0x10000 + x3.toNat * 0x1000 + x4.toNat * 0x200 + x5.toNat * 0x2 = ww) :
    2 ^ 31 ≤ ww ∧ ww < 2 ^ 32 ∧ num ww 25 7 = 102 ∧ num ww 3 3 = k ∧ num ww 0 1 = 0 ∧ num ww 6 3 = 0 ∧ num ww 20 2 = 0 ∧ fld ww 22 3 = x0 ∧ fld ww 17 3 = x1 ∧ fld ww 16 1 = x2 ∧ fld ww 12 4 = x3 ∧ fld ww 9 3 = x4 ∧ fld ww 1 2 = x5 := by
  have l0 := x0.isLt
  have l1 := x1.isLt
  have l2 := x2.isLt
  have l3 := x3.isLt
  have l4 := x4.isLt
  have l5 := x5.isLt
  simp only [num, fld]
  refine ⟨?_, ?_, ?_, ?_, ?_, ?_, ?_, ?_, ?_, ?_, ?_, ?_, ?_⟩
  · omega
  · omega
  · omega
  · omega
  · omega
  · omega
  · omega
  · apply BitVec.eq_of_toNat_eq; simp only [BitVec.toNat_ofNat]; omega
  · apply BitVec.eq_of_toNat_eq; simp only [BitVec.toNat_ofNat]; omega
  · apply BitVec.eq_of_toNat_eq; simp only [BitVec.toNat_ofNat]; omega
  · apply BitVec.eq_of_toNat_eq; simp only [BitVec.toNat_ofNat]; omega
  · apply BitVec.eq_of_toNat_eq; simp only [BitVec.toNat_ofNat]; omega
  · apply BitVec.eq_of_toNat_eq; simp only [BitVec.toNat_ofNat]; omega

theorem RoundTrip.vld (d : BitVec 3) (k : BitVec 3) (z : BitVec 1) (b : BitVec 4) (w : BitVec 3) (l : BitVec 2) : RoundTrip.Statement (.vld d k z b w l) := by
  intro wf _
  obtain ⟨lo, hi, e0, e1, c0, c1, c2, f0, f1, f2, f3, f4, f5⟩ := shape_VecMem_0 (ww := encodeWord (.vld d k z b w l)) (k := 0) (by decide) d k z b w l rfl
  refine long_of rfl rfl lo hi wf ?_
  rw [long_decVecMem e0]
  unfold decVecMem
  rw [e1]
  simp only [c0, c1, c2, f0, f1, f2, f3, f4, f5, if_true, and_self]

theorem shape_VecMem_1 {k : Nat} (hk : k < 2 ^ 3) (x0 : BitVec 3) (x1 : BitVec 3) (x2 : BitVec 4) (x3 : BitVec 3) (x4 : BitVec 2) {ww : Nat}
    (hw : 0xcc000000 + k * 2 ^ 3 + x0.toNat * 0x400000 + x1.toNat * 0x20000 + x2.toNat * 0x1000 + x3.toNat * 0x200 + x4.toNat * 0x2 = ww) :
    2 ^ 31 ≤ ww ∧ ww < 2 ^ 32 ∧ num ww 25 7 = 102 ∧ num ww 3 3 = k ∧ num ww 0 1 = 0 ∧ num ww 6 3 = 0 ∧ num ww 16 1 = 0 ∧ num ww 20 2 = 0 ∧ fld ww 22 3 = x0 ∧ fld ww 17 3 = x1 ∧ fld ww 12 4 = x2 ∧ fld ww 9 3 = x3 ∧ fld ww 1 2 = x4 := by
  have l0 := x0.isLt
  have l1 := x1.isLt
  have l2 := x2.isLt
  have l3 := x3.isLt
  have l4 := x4.isLt
  simp only [num, fld]
  refine ⟨?_, ?_, ?_, ?_, ?_, ?_, ?_, ?_, ?_, ?_, ?_, ?_, ?_⟩
  · omega
  · omega
  · omega
  · omega
  · omega
  · omega
  · omega
  · omega
  · apply BitVec.eq_of_toNat_eq; simp only [BitVec.toNat_ofNat]; omega
  · apply BitVec.eq_of_toNat_eq; simp only [BitVec.toNat_ofNat]; omega
  · apply BitVec.eq_of_toNat_eq; simp only [BitVec.toNat_ofNat]; omega
  · apply BitVec.eq_of_toNat_eq; simp only [BitVec.toNat_ofNat]; omega
  · apply BitVec.eq_of_toNat_eq; simp only [BitVec.toNat_ofNat]; omega

theorem RoundTrip.vst (d : BitVec 3) (k : BitVec 3) (b : BitVec 4) (w : BitVec 3) (l : BitVec 2) : RoundTrip.Statement (.vst d k b w l) := by
  intro wf _
  obtain ⟨lo, hi, e0, e1, c0, c1, c2, c3, f0, f1, f2, f3, f4⟩ := shape_VecMem_1 (ww := encodeWord (.vst d k b w l)) (k := 1) (by decide) d k b w l rfl
  refine long_of rfl rfl lo hi wf ?_
  rw [long_decVecMem e0]
  unfold decVecMem
  rw [e1]
  simp only [c0, c1, c2, c3, f0, f1, f2, f3, f4, if_true, and_self]

theorem shape_VecMem_2 {k : Nat} (hk : k < 2 ^ 3) (x0 : BitVec 3) (x1 : BitVec 2) (x2 : BitVec 3) (x3 : BitVec 1) (x4 : BitVec 4) (x5 : BitVec 2) {ww : Nat}
    (hw : 0xcc000000 + k * 2 ^ 3 + x0.toNat * 0x400000 + x1.toNat * 0x100000 + x2.toNat * 0x20000 + x3.toNat * 0x10000 + x4.toNat * 0x1000 + x5.toNat * 0x2 = ww) :
    2 ^ 31 ≤ ww ∧ ww < 2 ^ 32 ∧ num ww 25 7 = 102 ∧ num ww 3 3 = k ∧ num ww 0 1 = 0 ∧ num ww 6 6 = 0 ∧ fld ww 22 3 = x0 ∧ fld ww 20 2 = x1 ∧ fld ww 17 3 = x2 ∧ fld ww 16 1 = x3 ∧ fld ww 12 4 = x4 ∧ fld ww 1 2 = x5 := by
  have l0 := x0.isLt
  have l1 := x1.isLt
  have l2 := x2.isLt
  have l3 := x3.isLt
  have l4 := x4.isLt
  have l5 := x5.isLt
  simp only [num, fld]
  refine ⟨?_, ?_, ?_, ?_, ?_, ?_, ?_, ?_, ?_, ?_, ?_, ?_⟩
  · omega
  · omega
  · omega
  · omega
  · omega
  · omega
  · apply BitVec.eq_of_toNat_eq; simp only [BitVec.toNat_ofNat]; omega
  · apply BitVec.eq_of_toNat_eq; simp only [BitVec.toNat_ofNat]; omega
  · apply BitVec.eq_of_toNat_eq; simp only [BitVec.toNat_ofNat]; omega
  · apply BitVec.eq_of_toNat_eq; simp only [BitVec.toNat_ofNat]; omega
  · apply BitVec.eq_of_toNat_eq; simp only [BitVec.toNat_ofNat]; omega
  · apply BitVec.eq_of_toNat_eq; simp only [BitVec.toNat_ofNat]; omega

theorem RoundTrip.vlds (d : BitVec 3) (q : BitVec 2) (k : BitVec 3) (z : BitVec 1) (b : BitVec 4) (l : BitVec 2) : RoundTrip.Statement (.vlds d q k z b l) := by
  intro wf _
  obtain ⟨lo, hi, e0, e1, c0, c1, f0, f1, f2, f3, f4, f5⟩ := shape_VecMem_2 (ww := encodeWord (.vlds d q k z b l)) (k := 2) (by decide) d q k z b l rfl
  refine long_of rfl rfl lo hi wf ?_
  rw [long_decVecMem e0]
  unfold decVecMem
  rw [e1]
  simp only [c0, c1, f0, f1, f2, f3, f4, f5, if_true, and_self]

theorem shape_VecMem_3 {k : Nat} (hk : k < 2 ^ 3) (x0 : BitVec 3) (x1 : BitVec 2) (x2 : BitVec 3) (x3 : BitVec 4) (x4 : BitVec 2) {ww : Nat}
    (hw : 0xcc000000 + k * 2 ^ 3 + x0.toNat * 0x400000 + x1.toNat * 0x100000 + x2.toNat * 0x20000 + x3.toNat * 0x1000 + x4.toNat * 0x2 = ww) :
    2 ^ 31 ≤ ww ∧ ww < 2 ^ 32 ∧ num ww 25 7 = 102 ∧ num ww 3 3 = k ∧ num ww 0 1 = 0 ∧ num ww 6 6 = 0 ∧ num ww 16 1 = 0 ∧ fld ww 22 3 = x0 ∧ fld ww 20 2 = x1 ∧ fld ww 17 3 = x2 ∧ fld ww 12 4 = x3 ∧ fld ww 1 2 = x4 := by
  have l0 := x0.isLt
  have l1 := x1.isLt
  have l2 := x2.isLt
  have l3 := x3.isLt
  have l4 := x4.isLt
  simp only [num, fld]
  refine ⟨?_, ?_, ?_, ?_, ?_, ?_, ?_, ?_, ?_, ?_, ?_, ?_⟩
  · omega
  · omega
  · omega
  · omega
  · omega
  · omega
  · omega
  · apply BitVec.eq_of_toNat_eq; simp only [BitVec.toNat_ofNat]; omega
  · apply BitVec.eq_of_toNat_eq; simp only [BitVec.toNat_ofNat]; omega
  · apply BitVec.eq_of_toNat_eq; simp only [BitVec.toNat_ofNat]; omega
  · apply BitVec.eq_of_toNat_eq; simp only [BitVec.toNat_ofNat]; omega
  · apply BitVec.eq_of_toNat_eq; simp only [BitVec.toNat_ofNat]; omega

theorem RoundTrip.vsts (d : BitVec 3) (q : BitVec 2) (k : BitVec 3) (b : BitVec 4) (l : BitVec 2) : RoundTrip.Statement (.vsts d q k b l) := by
  intro wf _
  obtain ⟨lo, hi, e0, e1, c0, c1, c2, f0, f1, f2, f3, f4⟩ := shape_VecMem_3 (ww := encodeWord (.vsts d q k b l)) (k := 3) (by decide) d q k b l rfl
  refine long_of rfl rfl lo hi wf ?_
  rw [long_decVecMem e0]
  unfold decVecMem
  rw [e1]
  simp only [c0, c1, c2, f0, f1, f2, f3, f4, if_true, and_self]

theorem shape_VecMem_4 {k : Nat} (hk : k < 2 ^ 3) (x0 : BitVec 3) (x1 : BitVec 3) (x2 : BitVec 1) (x3 : BitVec 4) (x4 : BitVec 3) (x5 : BitVec 3) (x6 : BitVec 2) {ww : Nat}
    (hw : 0xcc000000 + k * 2 ^ 3 + x0.toNat * 0x400000 + x1.toNat * 0x20000 + x2.toNat * 0x10000 + x3.toNat * 0x1000 + x4.toNat * 0x200 + x5.toNat * 0x40 + x6.toNat * 0x2 = ww) :
    2 ^ 31 ≤ ww ∧ ww < 2 ^ 32 ∧ num ww 25 7 = 102 ∧ num ww 3 3 = k ∧ num ww 0 1 = 0 ∧ num ww 20 2 = 0 ∧ fld ww 22 3 = x0 ∧ fld ww 17 3 = x1 ∧ fld ww 16 1 = x2 ∧ fld ww 12 4 = x3 ∧ fld ww 9 3 = x4 ∧ fld ww 6 3 = x5 ∧ fld ww 1 2 = x6 := by
  have l0 := x0.isLt
  have l1 := x1.isLt
  have l2 := x2.isLt
  have l3 := x3.isLt
  have l4 := x4.isLt
  have l5 := x5.isLt
  have l6 := x6.isLt
  simp only [num, fld]
  refine ⟨?_, ?_, ?_, ?_, ?_, ?_, ?_, ?_, ?_, ?_, ?_, ?_, ?_⟩
  · omega
  · omega
  · omega
  · omega
  · omega
  · omega
  · apply BitVec.eq_of_toNat_eq; simp only [BitVec.toNat_ofNat]; omega
  · apply BitVec.eq_of_toNat_eq; simp only [BitVec.toNat_ofNat]; omega
  · apply BitVec.eq_of_toNat_eq; simp only [BitVec.toNat_ofNat]; omega
  · apply BitVec.eq_of_toNat_eq; simp only [BitVec.toNat_ofNat]; omega
  · apply BitVec.eq_of_toNat_eq; simp only [BitVec.toNat_ofNat]; omega
  · apply BitVec.eq_of_toNat_eq; simp only [BitVec.toNat_ofNat]; omega
  · apply BitVec.eq_of_toNat_eq; simp only [BitVec.toNat_ofNat]; omega

theorem RoundTrip.vgath (d : BitVec 3) (k : BitVec 3) (z : BitVec 1) (b : BitVec 4) (w : BitVec 3) (x : BitVec 3) (l : BitVec 2) : RoundTrip.Statement (.vgath d k z b w x l) := by
  intro wf _
  obtain ⟨lo, hi, e0, e1, c0, c1, f0, f1, f2, f3, f4, f5, f6⟩ := shape_VecMem_4 (ww := encodeWord (.vgath d k z b w x l)) (k := 4) (by decide) d k z b w x l rfl
  refine long_of rfl rfl lo hi wf ?_
  rw [long_decVecMem e0]
  unfold decVecMem
  rw [e1]
  simp only [c0, c1, f0, f1, f2, f3, f4, f5, f6, if_true, and_self]

theorem shape_VecMem_5 {k : Nat} (hk : k < 2 ^ 3) (x0 : BitVec 3) (x1 : BitVec 3) (x2 : BitVec 4) (x3 : BitVec 3) (x4 : BitVec 3) (x5 : BitVec 2) {ww : Nat}
    (hw : 0xcc000000 + k * 2 ^ 3 + x0.toNat * 0x400000 + x1.toNat * 0x20000 + x2.toNat * 0x1000 + x3.toNat * 0x200 + x4.toNat * 0x40 + x5.toNat * 0x2 = ww) :
    2 ^ 31 ≤ ww ∧ ww < 2 ^ 32 ∧ num ww 25 7 = 102 ∧ num ww 3 3 = k ∧ num ww 0 1 = 0 ∧ num ww 16 1 = 0 ∧ num ww 20 2 = 0 ∧ fld ww 22 3 = x0 ∧ fld ww 17 3 = x1 ∧ fld ww 12 4 = x2 ∧ fld ww 9 3 = x3 ∧ fld ww 6 3 = x4 ∧ fld ww 1 2 = x5 := by
  have l0 := x0.isLt
  have l1 := x1.isLt
  have l2 := x2.isLt
  have l3 := x3.isLt
  have l4 := x4.isLt
  have l5 := x5.isLt
  simp only [num, fld]
  refine ⟨?_, ?_, ?_, ?_, ?_, ?_, ?_, ?_, ?_, ?_, ?_, ?_, ?_⟩
  · omega
  · omega
  · omega
  · omega
  · omega
  · omega
  · omega
  · apply BitVec.eq_of_toNat_eq; simp only [BitVec.toNat_ofNat]; omega
  · apply BitVec.eq_of_toNat_eq; simp only [BitVec.toNat_ofNat]; omega
  · apply BitVec.eq_of_toNat_eq; simp only [BitVec.toNat_ofNat]; omega
  · apply BitVec.eq_of_toNat_eq; simp only [BitVec.toNat_ofNat]; omega
  · apply BitVec.eq_of_toNat_eq; simp only [BitVec.toNat_ofNat]; omega
  · apply BitVec.eq_of_toNat_eq; simp only [BitVec.toNat_ofNat]; omega

theorem RoundTrip.vscat (d : BitVec 3) (k : BitVec 3) (b : BitVec 4) (w : BitVec 3) (x : BitVec 3) (l : BitVec 2) : RoundTrip.Statement (.vscat d k b w x l) := by
  intro wf _
  obtain ⟨lo, hi, e0, e1, c0, c1, c2, f0, f1, f2, f3, f4, f5⟩ := shape_VecMem_5 (ww := encodeWord (.vscat d k b w x l)) (k := 5) (by decide) d k b w x l rfl
  refine long_of rfl rfl lo hi wf ?_
  rw [long_decVecMem e0]
  unfold decVecMem
  rw [e1]
  simp only [c0, c1, c2, f0, f1, f2, f3, f4, f5, if_true, and_self]

theorem shape_Mld_0 (x0 : BitVec 5) (x1 : BitVec 1) (x2 : BitVec 1) (x3 : BitVec 2) (x4 : BitVec 3) (x5 : BitVec 4) (x6 : BitVec 2) (x7 : BitVec 1) (x8 : BitVec 1) (x9 : BitVec 1) (x10 : BitVec 1) (x11 : BitVec 2) {ww : Nat}
    (hw : 0xd0000000 + x0.toNat * 0x100000 + x1.toNat * 0x80000 + x2.toNat * 0x40000 + x3.toNat * 0x8000 + x4.toNat * 0x1000 + x5.toNat * 0x100 + x6.toNat * 0x40 + x7.toNat * 0x20 + x8.toNat * 0x10 + x9.toNat * 0x8 + x10.toNat * 0x4 + x11.toNat = ww) :
    2 ^ 31 ≤ ww ∧ ww < 2 ^ 32 ∧ num ww 25 7 = 104 ∧ num ww 17 1 = 0 ∧ fld ww 20 5 = x0 ∧ fld ww 19 1 = x1 ∧ fld ww 18 1 = x2 ∧ fld ww 15 2 = x3 ∧ fld ww 12 3 = x4 ∧ fld ww 8 4 = x5 ∧ fld ww 6 2 = x6 ∧ fld ww 5 1 = x7 ∧ fld ww 4 1 = x8 ∧ fld ww 3 1 = x9 ∧ fld ww 2 1 = x10 ∧ fld ww 0 2 = x11 := by
  have l0 := x0.isLt
  have l1 := x1.isLt
  have l2 := x2.isLt
  have l3 := x3.isLt
  have l4 := x4.isLt
  have l5 := x5.isLt
  have l6 := x6.isLt
  have l7 := x7.isLt
  have l8 := x8.isLt
  have l9 := x9.isLt
  have l10 := x10.isLt
  have l11 := x11.isLt
  simp only [num, fld]
  refine ⟨?_, ?_, ?_, ?_, ?_, ?_, ?_, ?_, ?_, ?_, ?_, ?_, ?_, ?_, ?_, ?_⟩
  · omega
  · omega
  · omega
  · omega
  · apply BitVec.eq_of_toNat_eq; simp only [BitVec.toNat_ofNat]; omega
  · apply BitVec.eq_of_toNat_eq; simp only [BitVec.toNat_ofNat]; omega
  · apply BitVec.eq_of_toNat_eq; simp only [BitVec.toNat_ofNat]; omega
  · apply BitVec.eq_of_toNat_eq; simp only [BitVec.toNat_ofNat]; omega
  · apply BitVec.eq_of_toNat_eq; simp only [BitVec.toNat_ofNat]; omega
  · apply BitVec.eq_of_toNat_eq; simp only [BitVec.toNat_ofNat]; omega
  · apply BitVec.eq_of_toNat_eq; simp only [BitVec.toNat_ofNat]; omega
  · apply BitVec.eq_of_toNat_eq; simp only [BitVec.toNat_ofNat]; omega
  · apply BitVec.eq_of_toNat_eq; simp only [BitVec.toNat_ofNat]; omega
  · apply BitVec.eq_of_toNat_eq; simp only [BitVec.toNat_ofNat]; omega
  · apply BitVec.eq_of_toNat_eq; simp only [BitVec.toNat_ofNat]; omega
  · apply BitVec.eq_of_toNat_eq; simp only [BitVec.toNat_ofNat]; omega

theorem RoundTrip.mld (x : BitVec 5) (c : BitVec 1) (p : BitVec 1) (q : BitVec 2) (z : BitVec 3) (w : BitVec 4) (e : BitVec 2) (v : BitVec 1) (s : BitVec 1) (a : BitVec 1) (r : BitVec 1) (o : BitVec 2) : RoundTrip.Statement (.mld x c p q z w e v s a r o) := by
  intro wf _
  obtain ⟨lo, hi, e0, c0, f0, f1, f2, f3, f4, f5, f6, f7, f8, f9, f10, f11⟩ := shape_Mld_0 (ww := encodeWord (.mld x c p q z w e v s a r o)) x c p q z w e v s a r o rfl
  refine long_of rfl rfl lo hi wf ?_
  rw [long_decMld e0]
  unfold decMld
  simp only [c0, f0, f1, f2, f3, f4, f5, f6, f7, f8, f9, f10, f11, if_true]

theorem shape_Mst_0 (x0 : BitVec 5) (x1 : BitVec 1) (x2 : BitVec 1) (x3 : BitVec 2) (x4 : BitVec 3) (x5 : BitVec 4) (x6 : BitVec 2) (x7 : BitVec 1) (x8 : BitVec 1) (x9 : BitVec 1) (x10 : BitVec 1) (x11 : BitVec 2) {ww : Nat}
    (hw : 0xd2000000 + x0.toNat * 0x100000 + x1.toNat * 0x80000 + x2.toNat * 0x40000 + x3.toNat * 0x8000 + x4.toNat * 0x1000 + x5.toNat * 0x100 + x6.toNat * 0x40 + x7.toNat * 0x20 + x8.toNat * 0x10 + x9.toNat * 0x8 + x10.toNat * 0x4 + x11.toNat = ww) :
    2 ^ 31 ≤ ww ∧ ww < 2 ^ 32 ∧ num ww 25 7 = 105 ∧ num ww 17 1 = 0 ∧ fld ww 20 5 = x0 ∧ fld ww 19 1 = x1 ∧ fld ww 18 1 = x2 ∧ fld ww 15 2 = x3 ∧ fld ww 12 3 = x4 ∧ fld ww 8 4 = x5 ∧ fld ww 6 2 = x6 ∧ fld ww 5 1 = x7 ∧ fld ww 4 1 = x8 ∧ fld ww 3 1 = x9 ∧ fld ww 2 1 = x10 ∧ fld ww 0 2 = x11 := by
  have l0 := x0.isLt
  have l1 := x1.isLt
  have l2 := x2.isLt
  have l3 := x3.isLt
  have l4 := x4.isLt
  have l5 := x5.isLt
  have l6 := x6.isLt
  have l7 := x7.isLt
  have l8 := x8.isLt
  have l9 := x9.isLt
  have l10 := x10.isLt
  have l11 := x11.isLt
  simp only [num, fld]
  refine ⟨?_, ?_, ?_, ?_, ?_, ?_, ?_, ?_, ?_, ?_, ?_, ?_, ?_, ?_, ?_, ?_⟩
  · omega
  · omega
  · omega
  · omega
  · apply BitVec.eq_of_toNat_eq; simp only [BitVec.toNat_ofNat]; omega
  · apply BitVec.eq_of_toNat_eq; simp only [BitVec.toNat_ofNat]; omega
  · apply BitVec.eq_of_toNat_eq; simp only [BitVec.toNat_ofNat]; omega
  · apply BitVec.eq_of_toNat_eq; simp only [BitVec.toNat_ofNat]; omega
  · apply BitVec.eq_of_toNat_eq; simp only [BitVec.toNat_ofNat]; omega
  · apply BitVec.eq_of_toNat_eq; simp only [BitVec.toNat_ofNat]; omega
  · apply BitVec.eq_of_toNat_eq; simp only [BitVec.toNat_ofNat]; omega
  · apply BitVec.eq_of_toNat_eq; simp only [BitVec.toNat_ofNat]; omega
  · apply BitVec.eq_of_toNat_eq; simp only [BitVec.toNat_ofNat]; omega
  · apply BitVec.eq_of_toNat_eq; simp only [BitVec.toNat_ofNat]; omega
  · apply BitVec.eq_of_toNat_eq; simp only [BitVec.toNat_ofNat]; omega
  · apply BitVec.eq_of_toNat_eq; simp only [BitVec.toNat_ofNat]; omega

theorem RoundTrip.mst (x : BitVec 5) (c : BitVec 1) (p : BitVec 1) (q : BitVec 2) (z : BitVec 3) (w : BitVec 4) (e : BitVec 2) (v : BitVec 1) (s : BitVec 1) (a : BitVec 1) (r : BitVec 1) (o : BitVec 2) : RoundTrip.Statement (.mst x c p q z w e v s a r o) := by
  intro wf _
  obtain ⟨lo, hi, e0, c0, f0, f1, f2, f3, f4, f5, f6, f7, f8, f9, f10, f11⟩ := shape_Mst_0 (ww := encodeWord (.mst x c p q z w e v s a r o)) x c p q z w e v s a r o rfl
  refine long_of rfl rfl lo hi wf ?_
  rw [long_decMst e0]
  unfold decMst
  simp only [c0, f0, f1, f2, f3, f4, f5, f6, f7, f8, f9, f10, f11, if_true]

theorem shape_Mma_0 (x0 : BitVec 5) (x1 : BitVec 5) (x2 : BitVec 3) (x3 : BitVec 4) (x4 : BitVec 2) (x5 : BitVec 1) (x6 : BitVec 1) (x7 : BitVec 1) {ww : Nat}
    (hw : 0xd4000000 + x0.toNat * 0x100000 + x1.toNat * 0x8000 + x2.toNat * 0x1000 + x3.toNat * 0x100 + x4.toNat * 0x40 + x5.toNat * 0x20 + x6.toNat * 0x10 + x7.toNat * 0x8 = ww) :
    2 ^ 31 ≤ ww ∧ ww < 2 ^ 32 ∧ num ww 25 7 = 106 ∧ num ww 0 3 = 0 ∧ fld ww 20 5 = x0 ∧ fld ww 15 5 = x1 ∧ fld ww 12 3 = x2 ∧ fld ww 8 4 = x3 ∧ fld ww 6 2 = x4 ∧ fld ww 5 1 = x5 ∧ fld ww 4 1 = x6 ∧ fld ww 3 1 = x7 := by
  have l0 := x0.isLt
  have l1 := x1.isLt
  have l2 := x2.isLt
  have l3 := x3.isLt
  have l4 := x4.isLt
  have l5 := x5.isLt
  have l6 := x6.isLt
  have l7 := x7.isLt
  simp only [num, fld]
  refine ⟨?_, ?_, ?_, ?_, ?_, ?_, ?_, ?_, ?_, ?_, ?_, ?_⟩
  · omega
  · omega
  · omega
  · omega
  · apply BitVec.eq_of_toNat_eq; simp only [BitVec.toNat_ofNat]; omega
  · apply BitVec.eq_of_toNat_eq; simp only [BitVec.toNat_ofNat]; omega
  · apply BitVec.eq_of_toNat_eq; simp only [BitVec.toNat_ofNat]; omega
  · apply BitVec.eq_of_toNat_eq; simp only [BitVec.toNat_ofNat]; omega
  · apply BitVec.eq_of_toNat_eq; simp only [BitVec.toNat_ofNat]; omega
  · apply BitVec.eq_of_toNat_eq; simp only [BitVec.toNat_ofNat]; omega
  · apply BitVec.eq_of_toNat_eq; simp only [BitVec.toNat_ofNat]; omega
  · apply BitVec.eq_of_toNat_eq; simp only [BitVec.toNat_ofNat]; omega

theorem RoundTrip.mma (x : BitVec 5) (y : BitVec 5) (z : BitVec 3) (w : BitVec 4) (e : BitVec 2) (v : BitVec 1) (s : BitVec 1) (c : BitVec 1) : RoundTrip.Statement (.mma x y z w e v s c) := by
  intro wf _
  obtain ⟨lo, hi, e0, c0, f0, f1, f2, f3, f4, f5, f6, f7⟩ := shape_Mma_0 (ww := encodeWord (.mma x y z w e v s c)) x y z w e v s c rfl
  refine long_of rfl rfl lo hi wf ?_
  rw [long_decMma e0]
  unfold decMma
  simp only [c0, f0, f1, f2, f3, f4, f5, f6, f7, if_true]

theorem shape_Mmas_0 (x0 : BitVec 5) (x1 : BitVec 5) (x2 : BitVec 3) (x3 : BitVec 4) (x4 : BitVec 2) (x5 : BitVec 1) (x6 : BitVec 1) (x7 : BitVec 1) (x8 : BitVec 3) {ww : Nat}
    (hw : 0xd6000000 + x0.toNat * 0x100000 + x1.toNat * 0x8000 + x2.toNat * 0x1000 + x3.toNat * 0x100 + x4.toNat * 0x40 + x5.toNat * 0x20 + x6.toNat * 0x10 + x7.toNat * 0x8 + x8.toNat = ww) :
    2 ^ 31 ≤ ww ∧ ww < 2 ^ 32 ∧ num ww 25 7 = 107 ∧ fld ww 20 5 = x0 ∧ fld ww 15 5 = x1 ∧ fld ww 12 3 = x2 ∧ fld ww 8 4 = x3 ∧ fld ww 6 2 = x4 ∧ fld ww 5 1 = x5 ∧ fld ww 4 1 = x6 ∧ fld ww 3 1 = x7 ∧ fld ww 0 3 = x8 := by
  have l0 := x0.isLt
  have l1 := x1.isLt
  have l2 := x2.isLt
  have l3 := x3.isLt
  have l4 := x4.isLt
  have l5 := x5.isLt
  have l6 := x6.isLt
  have l7 := x7.isLt
  have l8 := x8.isLt
  simp only [num, fld]
  refine ⟨?_, ?_, ?_, ?_, ?_, ?_, ?_, ?_, ?_, ?_, ?_, ?_⟩
  · omega
  · omega
  · omega
  · apply BitVec.eq_of_toNat_eq; simp only [BitVec.toNat_ofNat]; omega
  · apply BitVec.eq_of_toNat_eq; simp only [BitVec.toNat_ofNat]; omega
  · apply BitVec.eq_of_toNat_eq; simp only [BitVec.toNat_ofNat]; omega
  · apply BitVec.eq_of_toNat_eq; simp only [BitVec.toNat_ofNat]; omega
  · apply BitVec.eq_of_toNat_eq; simp only [BitVec.toNat_ofNat]; omega
  · apply BitVec.eq_of_toNat_eq; simp only [BitVec.toNat_ofNat]; omega
  · apply BitVec.eq_of_toNat_eq; simp only [BitVec.toNat_ofNat]; omega
  · apply BitVec.eq_of_toNat_eq; simp only [BitVec.toNat_ofNat]; omega
  · apply BitVec.eq_of_toNat_eq; simp only [BitVec.toNat_ofNat]; omega

theorem RoundTrip.mmas (x : BitVec 5) (y : BitVec 5) (z : BitVec 3) (w : BitVec 4) (e : BitVec 2) (v : BitVec 1) (s : BitVec 1) (c : BitVec 1) (m : BitVec 3) : RoundTrip.Statement (.mmas x y z w e v s c m) := by
  intro wf _
  obtain ⟨lo, hi, e0, f0, f1, f2, f3, f4, f5, f6, f7, f8⟩ := shape_Mmas_0 (ww := encodeWord (.mmas x y z w e v s c m)) x y z w e v s c m rfl
  refine long_of rfl rfl lo hi wf ?_
  rw [long_decMmas e0]
  unfold decMmas
  simp only [f0, f1, f2, f3, f4, f5, f6, f7, f8]

theorem shape_Mcmp_0 (x0 : BitVec 5) (x1 : BitVec 5) (x2 : BitVec 4) (x3 : BitVec 2) (x4 : BitVec 1) (x5 : BitVec 1) (x6 : BitVec 3) {ww : Nat}
    (hw : 0xd8000000 + x0.toNat * 0x100000 + x1.toNat * 0x8000 + x2.toNat * 0x100 + x3.toNat * 0x40 + x4.toNat * 0x20 + x5.toNat * 0x10 + x6.toNat = ww) :
    2 ^ 31 ≤ ww ∧ ww < 2 ^ 32 ∧ num ww 25 7 = 108 ∧ num ww 3 1 = 0 ∧ num ww 12 3 = 0 ∧ fld ww 20 5 = x0 ∧ fld ww 15 5 = x1 ∧ fld ww 8 4 = x2 ∧ fld ww 6 2 = x3 ∧ fld ww 5 1 = x4 ∧ fld ww 4 1 = x5 ∧ fld ww 0 3 = x6 := by
  have l0 := x0.isLt
  have l1 := x1.isLt
  have l2 := x2.isLt
  have l3 := x3.isLt
  have l4 := x4.isLt
  have l5 := x5.isLt
  have l6 := x6.isLt
  simp only [num, fld]
  refine ⟨?_, ?_, ?_, ?_, ?_, ?_, ?_, ?_, ?_, ?_, ?_, ?_⟩
  · omega
  · omega
  · omega
  · omega
  · omega
  · apply BitVec.eq_of_toNat_eq; simp only [BitVec.toNat_ofNat]; omega
  · apply BitVec.eq_of_toNat_eq; simp only [BitVec.toNat_ofNat]; omega
  · apply BitVec.eq_of_toNat_eq; simp only [BitVec.toNat_ofNat]; omega
  · apply BitVec.eq_of_toNat_eq; simp only [BitVec.toNat_ofNat]; omega
  · apply BitVec.eq_of_toNat_eq; simp only [BitVec.toNat_ofNat]; omega
  · apply BitVec.eq_of_toNat_eq; simp only [BitVec.toNat_ofNat]; omega
  · apply BitVec.eq_of_toNat_eq; simp only [BitVec.toNat_ofNat]; omega

theorem RoundTrip.mcmp (x : BitVec 5) (y : BitVec 5) (w : BitVec 4) (e : BitVec 2) (v : BitVec 1) (s : BitVec 1) (m : BitVec 3) : RoundTrip.Statement (.mcmp x y w e v s m) := by
  intro wf _
  obtain ⟨lo, hi, e0, c0, c1, f0, f1, f2, f3, f4, f5, f6⟩ := shape_Mcmp_0 (ww := encodeWord (.mcmp x y w e v s m)) x y w e v s m rfl
  refine long_of rfl rfl lo hi wf ?_
  rw [long_decMcmp e0]
  unfold decMcmp
  simp only [c0, c1, f0, f1, f2, f3, f4, f5, f6, if_true, and_self]

theorem shape_Mzero_0 (x0 : BitVec 3) (x1 : BitVec 4) (x2 : BitVec 2) (x3 : BitVec 1) (x4 : BitVec 1) {ww : Nat}
    (hw : 0xda000000 + x0.toNat * 0x1000 + x1.toNat * 0x100 + x2.toNat * 0x40 + x3.toNat * 0x20 + x4.toNat * 0x10 = ww) :
    2 ^ 31 ≤ ww ∧ ww < 2 ^ 32 ∧ num ww 25 7 = 109 ∧ num ww 0 4 = 0 ∧ num ww 15 10 = 0 ∧ fld ww 12 3 = x0 ∧ fld ww 8 4 = x1 ∧ fld ww 6 2 = x2 ∧ fld ww 5 1 = x3 ∧ fld ww 4 1 = x4 := by
  have l0 := x0.isLt
  have l1 := x1.isLt
  have l2 := x2.isLt
  have l3 := x3.isLt
  have l4 := x4.isLt
  simp only [num, fld]
  refine ⟨?_, ?_, ?_, ?_, ?_, ?_, ?_, ?_, ?_, ?_⟩
  · omega
  · omega
  · omega
  · omega
  · omega
  · apply BitVec.eq_of_toNat_eq; simp only [BitVec.toNat_ofNat]; omega
  · apply BitVec.eq_of_toNat_eq; simp only [BitVec.toNat_ofNat]; omega
  · apply BitVec.eq_of_toNat_eq; simp only [BitVec.toNat_ofNat]; omega
  · apply BitVec.eq_of_toNat_eq; simp only [BitVec.toNat_ofNat]; omega
  · apply BitVec.eq_of_toNat_eq; simp only [BitVec.toNat_ofNat]; omega

theorem RoundTrip.mzero (z : BitVec 3) (w : BitVec 4) (e : BitVec 2) (v : BitVec 1) (s : BitVec 1) : RoundTrip.Statement (.mzero z w e v s) := by
  intro wf _
  obtain ⟨lo, hi, e0, c0, c1, f0, f1, f2, f3, f4⟩ := shape_Mzero_0 (ww := encodeWord (.mzero z w e v s)) z w e v s rfl
  refine long_of rfl rfl lo hi wf ?_
  rw [long_decMzero e0]
  unfold decMzero
  simp only [c0, c1, f0, f1, f2, f3, f4, if_true, and_self]

theorem shape_Claim_0 {k : Nat} (hk : k < 2 ^ 6) (x0 : BitVec 4) (x1 : BitVec 4) {ww : Nat}
    (hw : 0xdc000000 + k * 2 ^ 7 + x0.toNat * 0x20000 + x1.toNat * 0x2000 = ww) :
    2 ^ 31 ≤ ww ∧ ww < 2 ^ 32 ∧ num ww 25 7 = 110 ∧ num ww 7 6 = k ∧ num ww 0 7 = 0 ∧ num ww 21 4 = 0 ∧ fld ww 17 4 = x0 ∧ fld ww 13 4 = x1 := by
  have l0 := x0.isLt
  have l1 := x1.isLt
  simp only [num, fld]
  refine ⟨?_, ?_, ?_, ?_, ?_, ?_, ?_, ?_⟩
  · omega
  · omega
  · omega
  · omega
  · omega
  · omega
  · apply BitVec.eq_of_toNat_eq; simp only [BitVec.toNat_ofNat]; omega
  · apply BitVec.eq_of_toNat_eq; simp only [BitVec.toNat_ofNat]; omega

theorem RoundTrip.claim (a : BitVec 4) (b : BitVec 4) : RoundTrip.Statement (.claim a b) := by
  intro wf _
  obtain ⟨lo, hi, e0, e1, c0, c1, f0, f1⟩ := shape_Claim_0 (ww := encodeWord (.claim a b)) (k := 0) (by decide) a b rfl
  refine long_of rfl rfl lo hi wf ?_
  rw [long_decClaim e0]
  unfold decClaim
  rw [e1]
  simp only [c0, c1, f0, f1, if_true, and_self]

theorem RoundTrip.claimT (a : BitVec 4) (b : BitVec 4) : RoundTrip.Statement (.claimT a b) := by
  intro wf _
  obtain ⟨lo, hi, e0, e1, c0, c1, f0, f1⟩ := shape_Claim_0 (ww := encodeWord (.claimT a b)) (k := 1) (by decide) a b rfl
  refine long_of rfl rfl lo hi wf ?_
  rw [long_decClaim e0]
  unfold decClaim
  rw [e1]
  simp only [c0, c1, f0, f1, if_true, and_self]

theorem RoundTrip.rels (a : BitVec 4) (b : BitVec 4) : RoundTrip.Statement (.rels a b) := by
  intro wf _
  obtain ⟨lo, hi, e0, e1, c0, c1, f0, f1⟩ := shape_Claim_0 (ww := encodeWord (.rels a b)) (k := 2) (by decide) a b rfl
  refine long_of rfl rfl lo hi wf ?_
  rw [long_decClaim e0]
  unfold decClaim
  rw [e1]
  simp only [c0, c1, f0, f1, if_true, and_self]

theorem shape_Claim_1 {k : Nat} (hk : k < 2 ^ 6) (x0 : BitVec 4) (x1 : BitVec 3) {ww : Nat}
    (hw : 0xdc000000 + k * 2 ^ 7 + x0.toNat * 0x200000 + x1.toNat * 0x20000 = ww) :
    2 ^ 31 ≤ ww ∧ ww < 2 ^ 32 ∧ num ww 25 7 = 110 ∧ num ww 7 6 = k ∧ num ww 0 7 = 0 ∧ num ww 13 4 = 0 ∧ num ww 20 1 = 0 ∧ fld ww 21 4 = x0 ∧ fld ww 17 3 = x1 := by
  have l0 := x0.isLt
  have l1 := x1.isLt
  simp only [num, fld]
  refine ⟨?_, ?_, ?_, ?_, ?_, ?_, ?_, ?_, ?_⟩
  · omega
  · omega
  · omega
  · omega
  · omega
  · omega
  · omega
  · apply BitVec.eq_of_toNat_eq; simp only [BitVec.toNat_ofNat]; omega
  · apply BitVec.eq_of_toNat_eq; simp only [BitVec.toNat_ofNat]; omega

theorem RoundTrip.mchk (d : BitVec 4) (n : BitVec 3) : RoundTrip.Statement (.mchk d n) := by
  intro wf _
  obtain ⟨lo, hi, e0, e1, c0, c1, c2, f0, f1⟩ := shape_Claim_1 (ww := encodeWord (.mchk d n)) (k := 3) (by decide) d n rfl
  refine long_of rfl rfl lo hi wf ?_
  rw [long_decClaim e0]
  unfold decClaim
  rw [e1]
  simp only [c0, c1, c2, f0, f1, if_true, and_self]

theorem shape_Claim_2 {k : Nat} (hk : k < 2 ^ 6) (x0 : BitVec 3) (x1 : BitVec 4) (x2 : BitVec 4) {ww : Nat}
    (hw : 0xdc000000 + k * 2 ^ 7 + x0.toNat * 0x200000 + x1.toNat * 0x20000 + x2.toNat * 0x2000 = ww) :
    2 ^ 31 ≤ ww ∧ ww < 2 ^ 32 ∧ num ww 25 7 = 110 ∧ num ww 7 6 = k ∧ num ww 0 7 = 0 ∧ num ww 24 1 = 0 ∧ fld ww 21 3 = x0 ∧ fld ww 17 4 = x1 ∧ fld ww 13 4 = x2 := by
  have l0 := x0.isLt
  have l1 := x1.isLt
  have l2 := x2.isLt
  simp only [num, fld]
  refine ⟨?_, ?_, ?_, ?_, ?_, ?_, ?_, ?_, ?_⟩
  · omega
  · omega
  · omega
  · omega
  · omega
  · omega
  · apply BitVec.eq_of_toNat_eq; simp only [BitVec.toNat_ofNat]; omega
  · apply BitVec.eq_of_toNat_eq; simp only [BitVec.toNat_ofNat]; omega
  · apply BitVec.eq_of_toNat_eq; simp only [BitVec.toNat_ofNat]; omega

theorem RoundTrip.mfix (n : BitVec 3) (i : BitVec 4) (j : BitVec 4) : RoundTrip.Statement (.mfix n i j) := by
  intro wf _
  obtain ⟨lo, hi, e0, e1, c0, c1, f0, f1, f2⟩ := shape_Claim_2 (ww := encodeWord (.mfix n i j)) (k := 4) (by decide) n i j rfl
  refine long_of rfl rfl lo hi wf ?_
  rw [long_decClaim e0]
  unfold decClaim
  rw [e1]
  simp only [c0, c1, f0, f1, f2, if_true, and_self]

theorem shape_Claim_3 {k : Nat} (hk : k < 2 ^ 6) (x0 : BitVec 3) (x1 : BitVec 4) {ww : Nat}
    (hw : 0xdc000000 + k * 2 ^ 7 + x0.toNat * 0x200000 + x1.toNat * 0x20000 = ww) :
    2 ^ 31 ≤ ww ∧ ww < 2 ^ 32 ∧ num ww 25 7 = 110 ∧ num ww 7 6 = k ∧ num ww 0 7 = 0 ∧ num ww 13 4 = 0 ∧ num ww 24 1 = 0 ∧ fld ww 21 3 = x0 ∧ fld ww 17 4 = x1 := by
  have l0 := x0.isLt
  have l1 := x1.isLt
  simp only [num, fld]
  refine ⟨?_, ?_, ?_, ?_, ?_, ?_, ?_, ?_, ?_⟩
  · omega
  · omega
  · omega
  · omega
  · omega
  · omega
  · omega
  · apply BitVec.eq_of_toNat_eq; simp only [BitVec.toNat_ofNat]; omega
  · apply BitVec.eq_of_toNat_eq; simp only [BitVec.toNat_ofNat]; omega

theorem RoundTrip.accinj (n : BitVec 3) (a : BitVec 4) : RoundTrip.Statement (.accinj n a) := by
  intro wf _
  obtain ⟨lo, hi, e0, e1, c0, c1, c2, f0, f1⟩ := shape_Claim_3 (ww := encodeWord (.accinj n a)) (k := 5) (by decide) n a rfl
  refine long_of rfl rfl lo hi wf ?_
  rw [long_decClaim e0]
  unfold decClaim
  rw [e1]
  simp only [c0, c1, c2, f0, f1, if_true, and_self]

theorem shape_Claim_4 {k : Nat} (hk : k < 2 ^ 6) (x0 : BitVec 4) (x1 : BitVec 3) (x2 : BitVec 7) {ww : Nat}
    (hw : 0xdc000000 + k * 2 ^ 7 + x0.toNat * 0x200000 + x1.toNat * 0x20000 + x2.toNat = ww) :
    2 ^ 31 ≤ ww ∧ ww < 2 ^ 32 ∧ num ww 25 7 = 110 ∧ num ww 7 6 = k ∧ num ww 13 4 = 0 ∧ num ww 20 1 = 0 ∧ fld ww 21 4 = x0 ∧ fld ww 17 3 = x1 ∧ fld ww 0 7 = x2 := by
  have l0 := x0.isLt
  have l1 := x1.isLt
  have l2 := x2.isLt
  simp only [num, fld]
  refine ⟨?_, ?_, ?_, ?_, ?_, ?_, ?_, ?_, ?_⟩
  · omega
  · omega
  · omega
  · omega
  · omega
  · omega
  · apply BitVec.eq_of_toNat_eq; simp only [BitVec.toNat_ofNat]; omega
  · apply BitVec.eq_of_toNat_eq; simp only [BitVec.toNat_ofNat]; omega
  · apply BitVec.eq_of_toNat_eq; simp only [BitVec.toNat_ofNat]; omega

theorem RoundTrip.amovRead (d : BitVec 4) (n : BitVec 3) (s : BitVec 7) : RoundTrip.Statement (.amovRead d n s) := by
  intro wf _
  have ne : s.toNat ≠ 1 := by
    have h : (s != 1) = true := wf
    exact fun q => bne_iff_ne.mp h (BitVec.eq_of_toNat_eq q)
  obtain ⟨lo, hi, e0, e1, c0, c1, f0, f1, f2⟩ := shape_Claim_4 (ww := encodeWord (.amovRead d n s)) (k := 6) (by decide) d n s rfl
  refine long_of rfl rfl lo hi wf ?_
  rw [long_decClaim e0]
  unfold decClaim
  rw [e1]
  have n0 : num (encodeWord (.amovRead d n s)) 0 7 = s.toNat := by
    rw [← num_of_fld, f2]
  simp only [n0, ne, if_false, c0, c1, f0, f1, f2, and_self, if_true]

theorem shape_Claim_5 {k : Nat} (hk : k < 2 ^ 6) (x0 : BitVec 3) (x1 : BitVec 4) {ww : Nat}
    (hw : 0xdc000001 + k * 2 ^ 7 + x0.toNat * 0x20000 + x1.toNat * 0x2000 = ww) :
    2 ^ 31 ≤ ww ∧ ww < 2 ^ 32 ∧ num ww 25 7 = 110 ∧ num ww 7 6 = k ∧ num ww 0 7 = 1 ∧ num ww 20 5 = 0 ∧ fld ww 17 3 = x0 ∧ fld ww 13 4 = x1 := by
  have l0 := x0.isLt
  have l1 := x1.isLt
  simp only [num, fld]
  refine ⟨?_, ?_, ?_, ?_, ?_, ?_, ?_, ?_⟩
  · omega
  · omega
  · omega
  · omega
  · omega
  · omega
  · apply BitVec.eq_of_toNat_eq; simp only [BitVec.toNat_ofNat]; omega
  · apply BitVec.eq_of_toNat_eq; simp only [BitVec.toNat_ofNat]; omega

theorem RoundTrip.amovWrite (n : BitVec 3) (b : BitVec 4) : RoundTrip.Statement (.amovWrite n b) := by
  intro wf _
  obtain ⟨lo, hi, e0, e1, c0, c1, f0, f1⟩ := shape_Claim_5 (ww := encodeWord (.amovWrite n b)) (k := 6) (by decide) n b rfl
  refine long_of rfl rfl lo hi wf ?_
  rw [long_decClaim e0]
  unfold decClaim
  rw [e1]
  simp only [c0, c1, f0, f1, if_true, and_self]

theorem shape_Claim_6 {k : Nat} (hk : k < 2 ^ 6) (x0 : BitVec 3) (x1 : BitVec 4) (x2 : BitVec 1) (x3 : BitVec 5) {ww : Nat}
    (hw : 0xdc000000 + k * 2 ^ 7 + x0.toNat * 0x20000 + x1.toNat * 0x2000 + x2.toNat * 0x20 + x3.toNat = ww) :
    2 ^ 31 ≤ ww ∧ ww < 2 ^ 32 ∧ num ww 25 7 = 110 ∧ num ww 7 6 = k ∧ num ww 6 1 = 0 ∧ num ww 20 5 = 0 ∧ fld ww 17 3 = x0 ∧ fld ww 13 4 = x1 ∧ fld ww 5 1 = x2 ∧ fld ww 0 5 = x3 := by
  have l0 := x0.isLt
  have l1 := x1.isLt
  have l2 := x2.isLt
  have l3 := x3.isLt
  simp only [num, fld]
  refine ⟨?_, ?_, ?_, ?_, ?_, ?_, ?_, ?_, ?_, ?_⟩
  · omega
  · omega
  · omega
  · omega
  · omega
  · omega
  · apply BitVec.eq_of_toNat_eq; simp only [BitVec.toNat_ofNat]; omega
  · apply BitVec.eq_of_toNat_eq; simp only [BitVec.toNat_ofNat]; omega
  · apply BitVec.eq_of_toNat_eq; simp only [BitVec.toNat_ofNat]; omega
  · apply BitVec.eq_of_toNat_eq; simp only [BitVec.toNat_ofNat]; omega

theorem RoundTrip.mcvta (n : BitVec 3) (t : BitVec 4) (s : BitVec 1) (x : BitVec 5) : RoundTrip.Statement (.mcvta n t s x) := by
  intro wf _
  obtain ⟨lo, hi, e0, e1, c0, c1, f0, f1, f2, f3⟩ := shape_Claim_6 (ww := encodeWord (.mcvta n t s x)) (k := 7) (by decide) n t s x rfl
  refine long_of rfl rfl lo hi wf ?_
  rw [long_decClaim e0]
  unfold decClaim
  rw [e1]
  simp only [c0, c1, f0, f1, f2, f3, if_true, and_self]

theorem shape_Cpy_0 (x0 : BitVec 2) (x1 : BitVec 2) (x2 : BitVec 4) (x3 : BitVec 2) (x4 : BitVec 1) (x5 : BitVec 1) (x6 : BitVec 1) (x7 : BitVec 1) (x8 : BitVec 2) {ww : Nat}
    (hw : 0xe0000000 + x0.toNat * 0x100000 + x1.toNat * 0x8000 + x2.toNat * 0x100 + x3.toNat * 0x40 + x4.toNat * 0x20 + x5.toNat * 0x10 + x6.toNat * 0x8 + x7.toNat * 0x4 + x8.toNat = ww) :
    2 ^ 31 ≤ ww ∧ ww < 2 ^ 32 ∧ num ww 25 7 = 112 ∧ num ww 12 3 = 0 ∧ num ww 17 3 = 0 ∧ num ww 22 3 = 0 ∧ fld ww 20 2 = x0 ∧ fld ww 15 2 = x1 ∧ fld ww 8 4 = x2 ∧ fld ww 6 2 = x3 ∧ fld ww 5 1 = x4 ∧ fld ww 4 1 = x5 ∧ fld ww 3 1 = x6 ∧ fld ww 2 1 = x7 ∧ fld ww 0 2 = x8 := by
  have l0 := x0.isLt
  have l1 := x1.isLt
  have l2 := x2.isLt
  have l3 := x3.isLt
  have l4 := x4.isLt
  have l5 := x5.isLt
  have l6 := x6.isLt
  have l7 := x7.isLt
  have l8 := x8.isLt
  simp only [num, fld]
  refine ⟨?_, ?_, ?_, ?_, ?_, ?_, ?_, ?_, ?_, ?_, ?_, ?_, ?_, ?_, ?_⟩
  · omega
  · omega
  · omega
  · omega
  · omega
  · omega
  · apply BitVec.eq_of_toNat_eq; simp only [BitVec.toNat_ofNat]; omega
  · apply BitVec.eq_of_toNat_eq; simp only [BitVec.toNat_ofNat]; omega
  · apply BitVec.eq_of_toNat_eq; simp only [BitVec.toNat_ofNat]; omega
  · apply BitVec.eq_of_toNat_eq; simp only [BitVec.toNat_ofNat]; omega
  · apply BitVec.eq_of_toNat_eq; simp only [BitVec.toNat_ofNat]; omega
  · apply BitVec.eq_of_toNat_eq; simp only [BitVec.toNat_ofNat]; omega
  · apply BitVec.eq_of_toNat_eq; simp only [BitVec.toNat_ofNat]; omega
  · apply BitVec.eq_of_toNat_eq; simp only [BitVec.toNat_ofNat]; omega
  · apply BitVec.eq_of_toNat_eq; simp only [BitVec.toNat_ofNat]; omega

theorem RoundTrip.cpy (x : BitVec 2) (y : BitVec 2) (w : BitVec 4) (e : BitVec 2) (v : BitVec 1) (s : BitVec 1) (a : BitVec 1) (r : BitVec 1) (o : BitVec 2) : RoundTrip.Statement (.cpy x y w e v s a r o) := by
  intro wf _
  obtain ⟨lo, hi, e0, c0, c1, c2, f0, f1, f2, f3, f4, f5, f6, f7, f8⟩ := shape_Cpy_0 (ww := encodeWord (.cpy x y w e v s a r o)) x y w e v s a r o rfl
  refine long_of rfl rfl lo hi wf ?_
  rw [long_decCpy e0]
  unfold decCpy
  simp only [c0, c1, c2, f0, f1, f2, f3, f4, f5, f6, f7, f8, if_true, and_self]

theorem shape_Nred_0 (x0 : BitVec 4) (x1 : BitVec 4) (x2 : BitVec 4) (x3 : BitVec 2) (x4 : BitVec 1) (x5 : BitVec 1) (x6 : BitVec 1) (x7 : BitVec 1) (x8 : BitVec 2) {ww : Nat}
    (hw : 0xe2000000 + x0.toNat * 0x100000 + x1.toNat * 0x8000 + x2.toNat * 0x100 + x3.toNat * 0x40 + x4.toNat * 0x20 + x5.toNat * 0x10 + x6.toNat * 0x8 + x7.toNat * 0x4 + x8.toNat = ww) :
    2 ^ 31 ≤ ww ∧ ww < 2 ^ 32 ∧ num ww 25 7 = 113 ∧ num ww 12 3 = 0 ∧ num ww 19 1 = 0 ∧ num ww 24 1 = 0 ∧ fld ww 20 4 = x0 ∧ fld ww 15 4 = x1 ∧ fld ww 8 4 = x2 ∧ fld ww 6 2 = x3 ∧ fld ww 5 1 = x4 ∧ fld ww 4 1 = x5 ∧ fld ww 3 1 = x6 ∧ fld ww 2 1 = x7 ∧ fld ww 0 2 = x8 := by
  have l0 := x0.isLt
  have l1 := x1.isLt
  have l2 := x2.isLt
  have l3 := x3.isLt
  have l4 := x4.isLt
  have l5 := x5.isLt
  have l6 := x6.isLt
  have l7 := x7.isLt
  have l8 := x8.isLt
  simp only [num, fld]
  refine ⟨?_, ?_, ?_, ?_, ?_, ?_, ?_, ?_, ?_, ?_, ?_, ?_, ?_, ?_, ?_⟩
  · omega
  · omega
  · omega
  · omega
  · omega
  · omega
  · apply BitVec.eq_of_toNat_eq; simp only [BitVec.toNat_ofNat]; omega
  · apply BitVec.eq_of_toNat_eq; simp only [BitVec.toNat_ofNat]; omega
  · apply BitVec.eq_of_toNat_eq; simp only [BitVec.toNat_ofNat]; omega
  · apply BitVec.eq_of_toNat_eq; simp only [BitVec.toNat_ofNat]; omega
  · apply BitVec.eq_of_toNat_eq; simp only [BitVec.toNat_ofNat]; omega
  · apply BitVec.eq_of_toNat_eq; simp only [BitVec.toNat_ofNat]; omega
  · apply BitVec.eq_of_toNat_eq; simp only [BitVec.toNat_ofNat]; omega
  · apply BitVec.eq_of_toNat_eq; simp only [BitVec.toNat_ofNat]; omega
  · apply BitVec.eq_of_toNat_eq; simp only [BitVec.toNat_ofNat]; omega

theorem RoundTrip.nred (d : BitVec 4) (a : BitVec 4) (w : BitVec 4) (e : BitVec 2) (v : BitVec 1) (s : BitVec 1) (h : BitVec 1) (r : BitVec 1) (o : BitVec 2) : RoundTrip.Statement (.nred d a w e v s h r o) := by
  intro wf _
  obtain ⟨lo, hi, e0, c0, c1, c2, f0, f1, f2, f3, f4, f5, f6, f7, f8⟩ := shape_Nred_0 (ww := encodeWord (.nred d a w e v s h r o)) d a w e v s h r o rfl
  refine long_of rfl rfl lo hi wf ?_
  rw [long_decNred e0]
  unfold decNred
  simp only [c0, c1, c2, f0, f1, f2, f3, f4, f5, f6, f7, f8, if_true, and_self]

theorem shape_Scpy_0 (x0 : BitVec 2) (x1 : BitVec 2) (x2 : BitVec 4) (x3 : BitVec 2) (x4 : BitVec 1) (x5 : BitVec 1) (x6 : BitVec 1) (x7 : BitVec 1) (x8 : BitVec 2) {ww : Nat}
    (hw : 0xe4000000 + x0.toNat * 0x100000 + x1.toNat * 0x8000 + x2.toNat * 0x100 + x3.toNat * 0x40 + x4.toNat * 0x20 + x5.toNat * 0x10 + x6.toNat * 0x8 + x7.toNat * 0x4 + x8.toNat = ww) :
    2 ^ 31 ≤ ww ∧ ww < 2 ^ 32 ∧ num ww 25 7 = 114 ∧ num ww 12 3 = 0 ∧ num ww 17 3 = 0 ∧ num ww 22 3 = 0 ∧ fld ww 20 2 = x0 ∧ fld ww 15 2 = x1 ∧ fld ww 8 4 = x2 ∧ fld ww 6 2 = x3 ∧ fld ww 5 1 = x4 ∧ fld ww 4 1 = x5 ∧ fld ww 3 1 = x6 ∧ fld ww 2 1 = x7 ∧ fld ww 0 2 = x8 := by
  have l0 := x0.isLt
  have l1 := x1.isLt
  have l2 := x2.isLt
  have l3 := x3.isLt
  have l4 := x4.isLt
  have l5 := x5.isLt
  have l6 := x6.isLt
  have l7 := x7.isLt
  have l8 := x8.isLt
  simp only [num, fld]
  refine ⟨?_, ?_, ?_, ?_, ?_, ?_, ?_, ?_, ?_, ?_, ?_, ?_, ?_, ?_, ?_⟩
  · omega
  · omega
  · omega
  · omega
  · omega
  · omega
  · apply BitVec.eq_of_toNat_eq; simp only [BitVec.toNat_ofNat]; omega
  · apply BitVec.eq_of_toNat_eq; simp only [BitVec.toNat_ofNat]; omega
  · apply BitVec.eq_of_toNat_eq; simp only [BitVec.toNat_ofNat]; omega
  · apply BitVec.eq_of_toNat_eq; simp only [BitVec.toNat_ofNat]; omega
  · apply BitVec.eq_of_toNat_eq; simp only [BitVec.toNat_ofNat]; omega
  · apply BitVec.eq_of_toNat_eq; simp only [BitVec.toNat_ofNat]; omega
  · apply BitVec.eq_of_toNat_eq; simp only [BitVec.toNat_ofNat]; omega
  · apply BitVec.eq_of_toNat_eq; simp only [BitVec.toNat_ofNat]; omega
  · apply BitVec.eq_of_toNat_eq; simp only [BitVec.toNat_ofNat]; omega

theorem RoundTrip.scpy (x : BitVec 2) (y : BitVec 2) (w : BitVec 4) (e : BitVec 2) (v : BitVec 1) (s : BitVec 1) (a : BitVec 1) (r : BitVec 1) (o : BitVec 2) : RoundTrip.Statement (.scpy x y w e v s a r o) := by
  intro wf _
  obtain ⟨lo, hi, e0, c0, c1, c2, f0, f1, f2, f3, f4, f5, f6, f7, f8⟩ := shape_Scpy_0 (ww := encodeWord (.scpy x y w e v s a r o)) x y w e v s a r o rfl
  refine long_of rfl rfl lo hi wf ?_
  rw [long_decScpy e0]
  unfold decScpy
  simp only [c0, c1, c2, f0, f1, f2, f3, f4, f5, f6, f7, f8, if_true, and_self]

theorem shape_Stream_0 {k : Nat} (hk : k < 2 ^ 6) (x0 : BitVec 2) (x1 : BitVec 4) {ww : Nat}
    (hw : 0xe6000000 + k * 2 ^ 7 + x0.toNat * 0x200000 + x1.toNat * 0x20000 = ww) :
    2 ^ 31 ≤ ww ∧ ww < 2 ^ 32 ∧ num ww 25 7 = 115 ∧ num ww 7 6 = k ∧ num ww 0 7 = 0 ∧ num ww 13 4 = 0 ∧ num ww 23 2 = 0 ∧ fld ww 21 2 = x0 ∧ fld ww 17 4 = x1 := by
  have l0 := x0.isLt
  have l1 := x1.isLt
  simp only [num, fld]
  refine ⟨?_, ?_, ?_, ?_, ?_, ?_, ?_, ?_, ?_⟩
  · omega
  · omega
  · omega
  · omega
  · omega
  · omega
  · omega
  · apply BitVec.eq_of_toNat_eq; simp only [BitVec.toNat_ofNat]; omega
  · apply BitVec.eq_of_toNat_eq; simp only [BitVec.toNat_ofNat]; omega

theorem RoundTrip.strm (n : BitVec 2) (a : BitVec 4) : RoundTrip.Statement (.strm n a) := by
  intro wf _
  obtain ⟨lo, hi, e0, e1, c0, c1, c2, f0, f1⟩ := shape_Stream_0 (ww := encodeWord (.strm n a)) (k := 0) (by decide) n a rfl
  refine long_of rfl rfl lo hi wf ?_
  rw [long_decStream e0]
  unfold decStream
  rw [e1]
  simp only [c0, c1, c2, f0, f1, if_true, and_self]

theorem shape_Stream_1 {k : Nat} (hk : k < 2 ^ 6) (x0 : BitVec 4) {ww : Nat}
    (hw : 0xe6000000 + k * 2 ^ 7 + x0.toNat = ww) :
    2 ^ 31 ≤ ww ∧ ww < 2 ^ 32 ∧ num ww 25 7 = 115 ∧ num ww 7 6 = k ∧ num ww 4 3 = 0 ∧ num ww 13 12 = 0 ∧ fld ww 0 4 = x0 := by
  have l0 := x0.isLt
  simp only [num, fld]
  refine ⟨?_, ?_, ?_, ?_, ?_, ?_, ?_⟩
  · omega
  · omega
  · omega
  · omega
  · omega
  · omega
  · apply BitVec.eq_of_toNat_eq; simp only [BitVec.toNat_ofNat]; omega

theorem RoundTrip.waitd (k : BitVec 4) : RoundTrip.Statement (.waitd k) := by
  intro wf _
  obtain ⟨lo, hi, e0, e1, c0, c1, f0⟩ := shape_Stream_1 (ww := encodeWord (.waitd k)) (k := 1) (by decide) k rfl
  refine long_of rfl rfl lo hi wf ?_
  rw [long_decStream e0]
  unfold decStream
  rw [e1]
  simp only [c0, c1, f0, if_true, and_self]

theorem shape_Stream_2 {k : Nat} (hk : k < 2 ^ 6) (x0 : BitVec 4) {ww : Nat}
    (hw : 0xe6000000 + k * 2 ^ 7 + x0.toNat * 0x20000 = ww) :
    2 ^ 31 ≤ ww ∧ ww < 2 ^ 32 ∧ num ww 25 7 = 115 ∧ num ww 7 6 = k ∧ num ww 0 7 = 0 ∧ num ww 13 4 = 0 ∧ num ww 21 4 = 0 ∧ fld ww 17 4 = x0 := by
  have l0 := x0.isLt
  simp only [num, fld]
  refine ⟨?_, ?_, ?_, ?_, ?_, ?_, ?_, ?_⟩
  · omega
  · omega
  · omega
  · omega
  · omega
  · omega
  · omega
  · apply BitVec.eq_of_toNat_eq; simp only [BitVec.toNat_ofNat]; omega

theorem RoundTrip.dfence (a : BitVec 4) : RoundTrip.Statement (.dfence a) := by
  intro wf _
  obtain ⟨lo, hi, e0, e1, c0, c1, c2, f0⟩ := shape_Stream_2 (ww := encodeWord (.dfence a)) (k := 2) (by decide) a rfl
  refine long_of rfl rfl lo hi wf ?_
  rw [long_decStream e0]
  unfold decStream
  rw [e1]
  simp only [c0, c1, c2, f0, if_true, and_self]

theorem shape_Stream_3 {k : Nat} (hk : k < 2 ^ 6) (x0 : BitVec 4) (x1 : BitVec 4) {ww : Nat}
    (hw : 0xe6000001 + k * 2 ^ 7 + x0.toNat * 0x20000 + x1.toNat * 0x2000 = ww) :
    2 ^ 31 ≤ ww ∧ ww < 2 ^ 32 ∧ num ww 25 7 = 115 ∧ num ww 7 6 = k ∧ num ww 0 7 = 1 ∧ num ww 21 4 = 0 ∧ fld ww 17 4 = x0 ∧ fld ww 13 4 = x1 := by
  have l0 := x0.isLt
  have l1 := x1.isLt
  simp only [num, fld]
  refine ⟨?_, ?_, ?_, ?_, ?_, ?_, ?_, ?_⟩
  · omega
  · omega
  · omega
  · omega
  · omega
  · omega
  · apply BitVec.eq_of_toNat_eq; simp only [BitVec.toNat_ofNat]; omega
  · apply BitVec.eq_of_toNat_eq; simp only [BitVec.toNat_ofNat]; omega

theorem RoundTrip.carmArm (a : BitVec 4) (b : BitVec 4) : RoundTrip.Statement (.carmArm a b) := by
  intro wf _
  obtain ⟨lo, hi, e0, e1, c0, c1, f0, f1⟩ := shape_Stream_3 (ww := encodeWord (.carmArm a b)) (k := 3) (by decide) a b rfl
  refine long_of rfl rfl lo hi wf ?_
  rw [long_decStream e0]
  unfold decStream
  rw [e1]
  simp only [c0, c1, f0, f1, if_true, and_self]

theorem shape_Stream_4 {k : Nat} (hk : k < 2 ^ 6) (x0 : BitVec 4) (x1 : BitVec 4) {ww : Nat}
    (hw : 0xe6000000 + k * 2 ^ 7 + x0.toNat * 0x20000 + x1.toNat * 0x2000 = ww) :
    2 ^ 31 ≤ ww ∧ ww < 2 ^ 32 ∧ num ww 25 7 = 115 ∧ num ww 7 6 = k ∧ num ww 0 7 = 0 ∧ num ww 21 4 = 0 ∧ fld ww 17 4 = x0 ∧ fld ww 13 4 = x1 := by
  have l0 := x0.isLt
  have l1 := x1.isLt
  simp only [num, fld]
  refine ⟨?_, ?_, ?_, ?_, ?_, ?_, ?_, ?_⟩
  · omega
  · omega
  · omega
  · omega
  · omega
  · omega
  · apply BitVec.eq_of_toNat_eq; simp only [BitVec.toNat_ofNat]; omega
  · apply BitVec.eq_of_toNat_eq; simp only [BitVec.toNat_ofNat]; omega

theorem RoundTrip.carmDisarm (a : BitVec 4) (b : BitVec 4) : RoundTrip.Statement (.carmDisarm a b) := by
  intro wf _
  obtain ⟨lo, hi, e0, e1, c0, c1, f0, f1⟩ := shape_Stream_4 (ww := encodeWord (.carmDisarm a b)) (k := 3) (by decide) a b rfl
  refine long_of rfl rfl lo hi wf ?_
  rw [long_decStream e0]
  unfold decStream
  rw [e1]
  simp [c0, c1, f0, f1]

theorem shape_Stream_5 {k : Nat} (hk : k < 2 ^ 6) {ww : Nat}
    (hw : 0xe6000000 + k * 2 ^ 7 = ww) :
    2 ^ 31 ≤ ww ∧ ww < 2 ^ 32 ∧ num ww 25 7 = 115 ∧ num ww 7 6 = k ∧ num ww 0 7 = 0 ∧ num ww 13 12 = 0 := by
  simp only [num]
  refine ⟨?_, ?_, ?_, ?_, ?_, ?_⟩
  · omega
  · omega
  · omega
  · omega
  · omega
  · omega

theorem RoundTrip.phase : RoundTrip.Statement (.phase) := by
  intro wf _
  obtain ⟨lo, hi, e0, e1, c0, c1⟩ := shape_Stream_5 (ww := encodeWord (.phase)) (k := 4) (by decide) rfl
  refine long_of rfl rfl lo hi wf ?_
  rw [long_decStream e0]
  unfold decStream
  rw [e1]
  simp only [c0, c1, if_true, and_self]

theorem shape_Task_0 {k : Nat} (hk : k < 2 ^ 6) (x0 : BitVec 4) {ww : Nat}
    (hw : 0xe8000000 + k * 2 ^ 7 + x0.toNat * 0x20000 = ww) :
    2 ^ 31 ≤ ww ∧ ww < 2 ^ 32 ∧ num ww 25 7 = 116 ∧ num ww 7 6 = k ∧ num ww 0 7 = 0 ∧ num ww 13 4 = 0 ∧ num ww 21 4 = 0 ∧ fld ww 17 4 = x0 := by
  have l0 := x0.isLt
  simp only [num, fld]
  refine ⟨?_, ?_, ?_, ?_, ?_, ?_, ?_, ?_⟩
  · omega
  · omega
  · omega
  · omega
  · omega
  · omega
  · omega
  · apply BitVec.eq_of_toNat_eq; simp only [BitVec.toNat_ofNat]; omega

theorem RoundTrip.spawn (a : BitVec 4) : RoundTrip.Statement (.spawn a) := by
  intro wf _
  obtain ⟨lo, hi, e0, e1, c0, c1, c2, f0⟩ := shape_Task_0 (ww := encodeWord (.spawn a)) (k := 0) (by decide) a rfl
  refine long_of rfl rfl lo hi wf ?_
  rw [long_decTask e0]
  unfold decTask
  rw [e1]
  simp only [c0, c1, c2, f0, if_true, and_self]

theorem shape_Task_1 {k : Nat} (hk : k < 2 ^ 6) (x0 : BitVec 4) (x1 : BitVec 4) {ww : Nat}
    (hw : 0xe8000000 + k * 2 ^ 7 + x0.toNat * 0x20000 + x1.toNat * 0x2000 = ww) :
    2 ^ 31 ≤ ww ∧ ww < 2 ^ 32 ∧ num ww 25 7 = 116 ∧ num ww 7 6 = k ∧ num ww 0 7 = 0 ∧ num ww 21 4 = 0 ∧ fld ww 17 4 = x0 ∧ fld ww 13 4 = x1 := by
  have l0 := x0.isLt
  have l1 := x1.isLt
  simp only [num, fld]
  refine ⟨?_, ?_, ?_, ?_, ?_, ?_, ?_, ?_⟩
  · omega
  · omega
  · omega
  · omega
  · omega
  · omega
  · apply BitVec.eq_of_toNat_eq; simp only [BitVec.toNat_ofNat]; omega
  · apply BitVec.eq_of_toNat_eq; simp only [BitVec.toNat_ofNat]; omega

theorem RoundTrip.qcfg (a : BitVec 4) (b : BitVec 4) : RoundTrip.Statement (.qcfg a b) := by
  intro wf _
  obtain ⟨lo, hi, e0, e1, c0, c1, f0, f1⟩ := shape_Task_1 (ww := encodeWord (.qcfg a b)) (k := 1) (by decide) a b rfl
  refine long_of rfl rfl lo hi wf ?_
  rw [long_decTask e0]
  unfold decTask
  rw [e1]
  simp only [c0, c1, f0, f1, if_true, and_self]

theorem RoundTrip.fork (a : BitVec 4) (b : BitVec 4) : RoundTrip.Statement (.fork a b) := by
  intro wf _
  obtain ⟨lo, hi, e0, e1, c0, c1, f0, f1⟩ := shape_Task_1 (ww := encodeWord (.fork a b)) (k := 2) (by decide) a b rfl
  refine long_of rfl rfl lo hi wf ?_
  rw [long_decTask e0]
  unfold decTask
  rw [e1]
  simp only [c0, c1, f0, f1, if_true, and_self]

theorem RoundTrip.join (a : BitVec 4) : RoundTrip.Statement (.join a) := by
  intro wf _
  obtain ⟨lo, hi, e0, e1, c0, c1, c2, f0⟩ := shape_Task_0 (ww := encodeWord (.join a)) (k := 3) (by decide) a rfl
  refine long_of rfl rfl lo hi wf ?_
  rw [long_decTask e0]
  unfold decTask
  rw [e1]
  simp only [c0, c1, c2, f0, if_true, and_self]

theorem shape_Task_2 {k : Nat} (hk : k < 2 ^ 6) {ww : Nat}
    (hw : 0xe8000000 + k * 2 ^ 7 = ww) :
    2 ^ 31 ≤ ww ∧ ww < 2 ^ 32 ∧ num ww 25 7 = 116 ∧ num ww 7 6 = k ∧ num ww 0 7 = 0 ∧ num ww 13 12 = 0 := by
  simp only [num]
  refine ⟨?_, ?_, ?_, ?_, ?_, ?_⟩
  · omega
  · omega
  · omega
  · omega
  · omega
  · omega

theorem RoundTrip.wfw : RoundTrip.Statement (.wfw) := by
  intro wf _
  obtain ⟨lo, hi, e0, e1, c0, c1⟩ := shape_Task_2 (ww := encodeWord (.wfw)) (k := 4) (by decide) rfl
  refine long_of rfl rfl lo hi wf ?_
  rw [long_decTask e0]
  unfold decTask
  rw [e1]
  simp only [c0, c1, if_true, and_self]

theorem RoundTrip.done (a : BitVec 4) : RoundTrip.Statement (.done a) := by
  intro wf _
  obtain ⟨lo, hi, e0, e1, c0, c1, c2, f0⟩ := shape_Task_0 (ww := encodeWord (.done a)) (k := 5) (by decide) a rfl
  refine long_of rfl rfl lo hi wf ?_
  rw [long_decTask e0]
  unfold decTask
  rw [e1]
  simp only [c0, c1, c2, f0, if_true, and_self]

theorem RoundTrip.migr (a : BitVec 4) : RoundTrip.Statement (.migr a) := by
  intro wf _
  obtain ⟨lo, hi, e0, e1, c0, c1, c2, f0⟩ := shape_Task_0 (ww := encodeWord (.migr a)) (k := 6) (by decide) a rfl
  refine long_of rfl rfl lo hi wf ?_
  rw [long_decTask e0]
  unfold decTask
  rw [e1]
  simp only [c0, c1, c2, f0, if_true, and_self]

theorem RoundTrip.send (a : BitVec 4) (b : BitVec 4) : RoundTrip.Statement (.send a b) := by
  intro wf _
  obtain ⟨lo, hi, e0, e1, c0, c1, f0, f1⟩ := shape_Task_1 (ww := encodeWord (.send a b)) (k := 7) (by decide) a b rfl
  refine long_of rfl rfl lo hi wf ?_
  rw [long_decTask e0]
  unfold decTask
  rw [e1]
  simp only [c0, c1, f0, f1, if_true, and_self]

theorem shape_Task_3 {k : Nat} (hk : k < 2 ^ 6) (x0 : BitVec 4) (x1 : BitVec 4) {ww : Nat}
    (hw : 0xe8000000 + k * 2 ^ 7 + x0.toNat * 0x200000 + x1.toNat * 0x20000 = ww) :
    2 ^ 31 ≤ ww ∧ ww < 2 ^ 32 ∧ num ww 25 7 = 116 ∧ num ww 7 6 = k ∧ num ww 0 7 = 0 ∧ num ww 13 4 = 0 ∧ fld ww 21 4 = x0 ∧ fld ww 17 4 = x1 := by
  have l0 := x0.isLt
  have l1 := x1.isLt
  simp only [num, fld]
  refine ⟨?_, ?_, ?_, ?_, ?_, ?_, ?_, ?_⟩
  · omega
  · omega
  · omega
  · omega
  · omega
  · omega
  · apply BitVec.eq_of_toNat_eq; simp only [BitVec.toNat_ofNat]; omega
  · apply BitVec.eq_of_toNat_eq; simp only [BitVec.toNat_ofNat]; omega

theorem RoundTrip.recv (d : BitVec 4) (a : BitVec 4) : RoundTrip.Statement (.recv d a) := by
  intro wf _
  obtain ⟨lo, hi, e0, e1, c0, c1, f0, f1⟩ := shape_Task_3 (ww := encodeWord (.recv d a)) (k := 8) (by decide) d a rfl
  refine long_of rfl rfl lo hi wf ?_
  rw [long_decTask e0]
  unfold decTask
  rw [e1]
  simp only [c0, c1, f0, f1, if_true, and_self]

theorem shape_Task_4 {k : Nat} (hk : k < 2 ^ 6) (x0 : BitVec 3) {ww : Nat}
    (hw : 0xe8000000 + k * 2 ^ 7 + x0.toNat = ww) :
    2 ^ 31 ≤ ww ∧ ww < 2 ^ 32 ∧ num ww 25 7 = 116 ∧ num ww 7 6 = k ∧ num ww 3 4 = 0 ∧ num ww 13 12 = 0 ∧ fld ww 0 3 = x0 := by
  have l0 := x0.isLt
  simp only [num, fld]
  refine ⟨?_, ?_, ?_, ?_, ?_, ?_, ?_⟩
  · omega
  · omega
  · omega
  · omega
  · omega
  · omega
  · apply BitVec.eq_of_toNat_eq; simp only [BitVec.toNat_ofNat]; omega

theorem RoundTrip.reply (n : BitVec 3) : RoundTrip.Statement (.reply n) := by
  intro wf _
  obtain ⟨lo, hi, e0, e1, c0, c1, f0⟩ := shape_Task_4 (ww := encodeWord (.reply n)) (k := 9) (by decide) n rfl
  refine long_of rfl rfl lo hi wf ?_
  rw [long_decTask e0]
  unfold decTask
  rw [e1]
  simp only [c0, c1, f0, if_true, and_self]

theorem shape_Task_5 {k : Nat} (hk : k < 2 ^ 6) (x0 : BitVec 4) (x1 : BitVec 4) (x2 : BitVec 3) {ww : Nat}
    (hw : 0xe8000000 + k * 2 ^ 7 + x0.toNat * 0x20000 + x1.toNat * 0x2000 + x2.toNat = ww) :
    2 ^ 31 ≤ ww ∧ ww < 2 ^ 32 ∧ num ww 25 7 = 116 ∧ num ww 7 6 = k ∧ num ww 3 4 = 0 ∧ num ww 21 4 = 0 ∧ fld ww 17 4 = x0 ∧ fld ww 13 4 = x1 ∧ fld ww 0 3 = x2 := by
  have l0 := x0.isLt
  have l1 := x1.isLt
  have l2 := x2.isLt
  simp only [num, fld]
  refine ⟨?_, ?_, ?_, ?_, ?_, ?_, ?_, ?_, ?_⟩
  · omega
  · omega
  · omega
  · omega
  · omega
  · omega
  · apply BitVec.eq_of_toNat_eq; simp only [BitVec.toNat_ofNat]; omega
  · apply BitVec.eq_of_toNat_eq; simp only [BitVec.toNat_ofNat]; omega
  · apply BitVec.eq_of_toNat_eq; simp only [BitVec.toNat_ofNat]; omega

theorem RoundTrip.rfwd (a : BitVec 4) (b : BitVec 4) (n : BitVec 3) : RoundTrip.Statement (.rfwd a b n) := by
  intro wf _
  obtain ⟨lo, hi, e0, e1, c0, c1, f0, f1, f2⟩ := shape_Task_5 (ww := encodeWord (.rfwd a b n)) (k := 10) (by decide) a b n rfl
  refine long_of rfl rfl lo hi wf ?_
  rw [long_decTask e0]
  unfold decTask
  rw [e1]
  simp only [c0, c1, f0, f1, f2, if_true, and_self]

theorem shape_Rcall_0 {k : Nat} (hk : k < 2 ^ 1) (x0 : BitVec 4) (x1 : BitVec 4) (x2 : BitVec 3) {ww : Nat}
    (hw : 0xea000000 + k * 2 ^ 13 + x0.toNat * 0x200000 + x1.toNat * 0x20000 + x2.toNat * 0x4000 = ww) :
    2 ^ 31 ≤ ww ∧ ww < 2 ^ 32 ∧ num ww 25 7 = 117 ∧ num ww 13 1 = k ∧ num ww 0 13 = 0 ∧ fld ww 21 4 = x0 ∧ fld ww 17 4 = x1 ∧ fld ww 14 3 = x2 := by
  have l0 := x0.isLt
  have l1 := x1.isLt
  have l2 := x2.isLt
  simp only [num, fld]
  refine ⟨?_, ?_, ?_, ?_, ?_, ?_, ?_, ?_⟩
  · omega
  · omega
  · omega
  · omega
  · omega
  · apply BitVec.eq_of_toNat_eq; simp only [BitVec.toNat_ofNat]; omega
  · apply BitVec.eq_of_toNat_eq; simp only [BitVec.toNat_ofNat]; omega
  · apply BitVec.eq_of_toNat_eq; simp only [BitVec.toNat_ofNat]; omega

theorem RoundTrip.rcall (t : BitVec 4) (e : BitVec 4) (n : BitVec 3) : RoundTrip.Statement (.rcall t e n) := by
  intro wf _
  obtain ⟨lo, hi, e0, e1, c0, f0, f1, f2⟩ := shape_Rcall_0 (ww := encodeWord (.rcall t e n)) (k := 0) (by decide) t e n rfl
  refine long_of rfl rfl lo hi wf ?_
  rw [long_decRcall e0]
  unfold decRcall
  rw [e1]
  simp only [c0, f0, f1, f2, if_true]

theorem RoundTrip.rcalla (t : BitVec 4) (e : BitVec 4) (n : BitVec 3) : RoundTrip.Statement (.rcalla t e n) := by
  intro wf _
  obtain ⟨lo, hi, e0, e1, c0, f0, f1, f2⟩ := shape_Rcall_0 (ww := encodeWord (.rcalla t e n)) (k := 1) (by decide) t e n rfl
  refine long_of rfl rfl lo hi wf ?_
  rw [long_decRcall e0]
  unfold decRcall
  rw [e1]
  simp only [c0, f0, f1, f2, if_true]

theorem shape_Hint_0 {k : Nat} (hk : k < 2 ^ 5) {ww : Nat}
    (hw : 0xfe000000 + k * 2 ^ 20 = ww) :
    2 ^ 31 ≤ ww ∧ ww < 2 ^ 32 ∧ num ww 25 7 = 127 ∧ num ww 20 5 = k := by
  simp only [num]
  refine ⟨?_, ?_, ?_, ?_⟩
  · omega
  · omega
  · omega
  · omega

theorem RoundTrip.nop : RoundTrip.Statement (.nop) := by
  intro wf _
  obtain ⟨lo, hi, e0, e1⟩ := shape_Hint_0 (ww := encodeWord (.nop)) (k := 0) (by decide) rfl
  refine long_of rfl rfl lo hi wf ?_
  rw [long_decHint e0]
  unfold decHint
  rw [e1]
  rfl

theorem shape_Hint_1 {k : Nat} (hk : k < 2 ^ 5) {ww : Nat}
    (hw : 0xfe000000 + k * 2 ^ 20 = ww) :
    2 ^ 31 ≤ ww ∧ ww < 2 ^ 32 ∧ num ww 25 7 = 127 ∧ num ww 20 5 = k ∧ num ww 0 20 = 0 := by
  simp only [num]
  refine ⟨?_, ?_, ?_, ?_, ?_⟩
  · omega
  · omega
  · omega
  · omega
  · omega

theorem RoundTrip.pause : RoundTrip.Statement (.pause) := by
  intro wf _
  obtain ⟨lo, hi, e0, e1, c0⟩ := shape_Hint_1 (ww := encodeWord (.pause)) (k := 1) (by decide) rfl
  refine long_of rfl rfl lo hi wf ?_
  rw [long_decHint e0]
  unfold decHint
  rw [e1]
  simp only [c0, if_true]

theorem shape_Hint_2 {k : Nat} (hk : k < 2 ^ 5) (x0 : BitVec 4) (x1 : BitVec 16) {ww : Nat}
    (hw : 0xfe000000 + k * 2 ^ 20 + x0.toNat * 0x10000 + x1.toNat = ww) :
    2 ^ 31 ≤ ww ∧ ww < 2 ^ 32 ∧ num ww 25 7 = 127 ∧ num ww 20 5 = k ∧ fld ww 16 4 = x0 ∧ fld ww 0 16 = x1 := by
  have l0 := x0.isLt
  have l1 := x1.isLt
  simp only [num, fld]
  refine ⟨?_, ?_, ?_, ?_, ?_, ?_⟩
  · omega
  · omega
  · omega
  · omega
  · apply BitVec.eq_of_toNat_eq; simp only [BitVec.toNat_ofNat]; omega
  · apply BitVec.eq_of_toNat_eq; simp only [BitVec.toNat_ofNat]; omega

theorem RoundTrip.prefl (a : BitVec 4) (i : BitVec 16) : RoundTrip.Statement (.prefl a i) := by
  intro wf _
  obtain ⟨lo, hi, e0, e1, f0, f1⟩ := shape_Hint_2 (ww := encodeWord (.prefl a i)) (k := 2) (by decide) a i rfl
  refine long_of rfl rfl lo hi wf ?_
  rw [long_decHint e0]
  unfold decHint
  rw [e1]
  simp only [f0, f1]

theorem RoundTrip.hcomp : RoundTrip.Statement (.hcomp) := by
  intro wf _
  obtain ⟨lo, hi, e0, e1, c0⟩ := shape_Hint_1 (ww := encodeWord (.hcomp)) (k := 3) (by decide) rfl
  refine long_of rfl rfl lo hi wf ?_
  rw [long_decHint e0]
  unfold decHint
  rw [e1]
  simp only [c0, if_true]

theorem RoundTrip.hmem : RoundTrip.Statement (.hmem) := by
  intro wf _
  obtain ⟨lo, hi, e0, e1, c0⟩ := shape_Hint_1 (ww := encodeWord (.hmem)) (k := 4) (by decide) rfl
  refine long_of rfl rfl lo hi wf ?_
  rw [long_decHint e0]
  unfold decHint
  rw [e1]
  simp only [c0, if_true]

theorem RoundTrip.hwait : RoundTrip.Statement (.hwait) := by
  intro wf _
  obtain ⟨lo, hi, e0, e1, c0⟩ := shape_Hint_1 (ww := encodeWord (.hwait)) (k := 5) (by decide) rfl
  refine long_of rfl rfl lo hi wf ?_
  rw [long_decHint e0]
  unfold decHint
  rw [e1]
  simp only [c0, if_true]

theorem shape_Short_0 {k : Nat} (hk : k < 2 ^ 5) (x0 : BitVec 4) (x1 : BitVec 4) {ww : Nat}
    (hw : 0x0 + k * 2 ^ 10 + x0.toNat * 0x40 + x1.toNat * 0x4 = ww) :
    ww < 2 ^ 15 ∧ num ww 10 5 = k ∧ num ww 0 2 = 0 ∧ fld ww 6 4 = x0 ∧ fld ww 2 4 = x1 := by
  have l0 := x0.isLt
  have l1 := x1.isLt
  simp only [num, fld]
  refine ⟨?_, ?_, ?_, ?_, ?_⟩
  · omega
  · omega
  · omega
  · apply BitVec.eq_of_toNat_eq; simp only [BitVec.toNat_ofNat]; omega
  · apply BitVec.eq_of_toNat_eq; simp only [BitVec.toNat_ofNat]; omega

theorem RoundTrip.mov16 (d : BitVec 4) (a : BitVec 4) : RoundTrip.Statement (.mov16 d a) := by
  intro wf _
  obtain ⟨hi, e1, c0, f0, f1⟩ := shape_Short_0 (ww := encodeWord (.mov16 d a)) (k := 1) (by decide) d a rfl
  refine short_of rfl rfl hi wf ?_
  unfold decShort
  rw [e1]
  simp only [c0, f0, f1, if_true]

theorem RoundTrip.add16 (d : BitVec 4) (a : BitVec 4) : RoundTrip.Statement (.add16 d a) := by
  intro wf _
  obtain ⟨hi, e1, c0, f0, f1⟩ := shape_Short_0 (ww := encodeWord (.add16 d a)) (k := 2) (by decide) d a rfl
  refine short_of rfl rfl hi wf ?_
  unfold decShort
  rw [e1]
  simp only [c0, f0, f1, if_true]

theorem RoundTrip.sub16 (d : BitVec 4) (a : BitVec 4) : RoundTrip.Statement (.sub16 d a) := by
  intro wf _
  obtain ⟨hi, e1, c0, f0, f1⟩ := shape_Short_0 (ww := encodeWord (.sub16 d a)) (k := 3) (by decide) d a rfl
  refine short_of rfl rfl hi wf ?_
  unfold decShort
  rw [e1]
  simp only [c0, f0, f1, if_true]

theorem RoundTrip.and16 (d : BitVec 4) (a : BitVec 4) : RoundTrip.Statement (.and16 d a) := by
  intro wf _
  obtain ⟨hi, e1, c0, f0, f1⟩ := shape_Short_0 (ww := encodeWord (.and16 d a)) (k := 4) (by decide) d a rfl
  refine short_of rfl rfl hi wf ?_
  unfold decShort
  rw [e1]
  simp only [c0, f0, f1, if_true]

theorem RoundTrip.or16 (d : BitVec 4) (a : BitVec 4) : RoundTrip.Statement (.or16 d a) := by
  intro wf _
  obtain ⟨hi, e1, c0, f0, f1⟩ := shape_Short_0 (ww := encodeWord (.or16 d a)) (k := 5) (by decide) d a rfl
  refine short_of rfl rfl hi wf ?_
  unfold decShort
  rw [e1]
  simp only [c0, f0, f1, if_true]

theorem RoundTrip.xor16 (d : BitVec 4) (a : BitVec 4) : RoundTrip.Statement (.xor16 d a) := by
  intro wf _
  obtain ⟨hi, e1, c0, f0, f1⟩ := shape_Short_0 (ww := encodeWord (.xor16 d a)) (k := 6) (by decide) d a rfl
  refine short_of rfl rfl hi wf ?_
  unfold decShort
  rw [e1]
  simp only [c0, f0, f1, if_true]

theorem shape_Short_1 {k : Nat} (hk : k < 2 ^ 5) (x0 : BitVec 4) (x1 : BitVec 6) {ww : Nat}
    (hw : 0x0 + k * 2 ^ 10 + x0.toNat * 0x40 + x1.toNat = ww) :
    ww < 2 ^ 15 ∧ num ww 10 5 = k ∧ fld ww 6 4 = x0 ∧ fld ww 0 6 = x1 := by
  have l0 := x0.isLt
  have l1 := x1.isLt
  simp only [num, fld]
  refine ⟨?_, ?_, ?_, ?_⟩
  · omega
  · omega
  · apply BitVec.eq_of_toNat_eq; simp only [BitVec.toNat_ofNat]; omega
  · apply BitVec.eq_of_toNat_eq; simp only [BitVec.toNat_ofNat]; omega

theorem RoundTrip.addi16 (d : BitVec 4) (i : BitVec 6) : RoundTrip.Statement (.addi16 d i) := by
  intro wf _
  obtain ⟨hi, e1, f0, f1⟩ := shape_Short_1 (ww := encodeWord (.addi16 d i)) (k := 7) (by decide) d i rfl
  refine short_of rfl rfl hi wf ?_
  unfold decShort
  rw [e1]
  simp only [f0, f1]

theorem RoundTrip.li16 (d : BitVec 4) (i : BitVec 6) : RoundTrip.Statement (.li16 d i) := by
  intro wf _
  obtain ⟨hi, e1, f0, f1⟩ := shape_Short_1 (ww := encodeWord (.li16 d i)) (k := 8) (by decide) d i rfl
  refine short_of rfl rfl hi wf ?_
  unfold decShort
  rw [e1]
  simp only [f0, f1]

theorem RoundTrip.slli16 (d : BitVec 4) (h : BitVec 6) : RoundTrip.Statement (.slli16 d h) := by
  intro wf _
  obtain ⟨hi, e1, f0, f1⟩ := shape_Short_1 (ww := encodeWord (.slli16 d h)) (k := 9) (by decide) d h rfl
  refine short_of rfl rfl hi wf ?_
  unfold decShort
  rw [e1]
  simp only [f0, f1]

theorem RoundTrip.srli16 (d : BitVec 4) (h : BitVec 6) : RoundTrip.Statement (.srli16 d h) := by
  intro wf _
  obtain ⟨hi, e1, f0, f1⟩ := shape_Short_1 (ww := encodeWord (.srli16 d h)) (k := 10) (by decide) d h rfl
  refine short_of rfl rfl hi wf ?_
  unfold decShort
  rw [e1]
  simp only [f0, f1]

theorem RoundTrip.srai16 (d : BitVec 4) (h : BitVec 6) : RoundTrip.Statement (.srai16 d h) := by
  intro wf _
  obtain ⟨hi, e1, f0, f1⟩ := shape_Short_1 (ww := encodeWord (.srai16 d h)) (k := 11) (by decide) d h rfl
  refine short_of rfl rfl hi wf ?_
  unfold decShort
  rw [e1]
  simp only [f0, f1]

theorem RoundTrip.ldd16 (d : BitVec 4) (u : BitVec 6) : RoundTrip.Statement (.ldd16 d u) := by
  intro wf _
  obtain ⟨hi, e1, f0, f1⟩ := shape_Short_1 (ww := encodeWord (.ldd16 d u)) (k := 12) (by decide) d u rfl
  refine short_of rfl rfl hi wf ?_
  unfold decShort
  rw [e1]
  simp only [f0, f1]

theorem RoundTrip.std16 (d : BitVec 4) (u : BitVec 6) : RoundTrip.Statement (.std16 d u) := by
  intro wf _
  obtain ⟨hi, e1, f0, f1⟩ := shape_Short_1 (ww := encodeWord (.std16 d u)) (k := 13) (by decide) d u rfl
  refine short_of rfl rfl hi wf ?_
  unfold decShort
  rw [e1]
  simp only [f0, f1]

theorem shape_Short_2 {k : Nat} (hk : k < 2 ^ 5) (x0 : BitVec 10) {ww : Nat}
    (hw : 0x0 + k * 2 ^ 10 + x0.toNat = ww) :
    ww < 2 ^ 15 ∧ num ww 10 5 = k ∧ fld ww 0 10 = x0 := by
  have l0 := x0.isLt
  simp only [num, fld]
  refine ⟨?_, ?_, ?_⟩
  · omega
  · omega
  · apply BitVec.eq_of_toNat_eq; simp only [BitVec.toNat_ofNat]; omega

theorem RoundTrip.j16 (o : BitVec 10) : RoundTrip.Statement (.j16 o) := by
  intro wf _
  obtain ⟨hi, e1, f0⟩ := shape_Short_2 (ww := encodeWord (.j16 o)) (k := 14) (by decide) o rfl
  refine short_of rfl rfl hi wf ?_
  unfold decShort
  rw [e1]
  simp only [f0]

theorem shape_Short_3 {k : Nat} (hk : k < 2 ^ 5) {ww : Nat}
    (hw : 0x0 + k * 2 ^ 10 = ww) :
    ww < 2 ^ 15 ∧ num ww 10 5 = k ∧ num ww 0 10 = 0 := by
  simp only [num]
  refine ⟨?_, ?_, ?_⟩
  · omega
  · omega
  · omega

theorem RoundTrip.ret16 : RoundTrip.Statement (.ret16) := by
  intro wf _
  obtain ⟨hi, e1, c0⟩ := shape_Short_3 (ww := encodeWord (.ret16)) (k := 15) (by decide) rfl
  refine short_of rfl rfl hi wf ?_
  unfold decShort
  rw [e1]
  simp only [c0, if_true]

theorem RoundTrip.nop16 : RoundTrip.Statement (.nop16) := by
  intro wf _
  obtain ⟨hi, e1, c0⟩ := shape_Short_3 (ww := encodeWord (.nop16)) (k := 16) (by decide) rfl
  refine short_of rfl rfl hi wf ?_
  unfold decShort
  rw [e1]
  simp only [c0, if_true]

theorem RoundTrip.deferredTrap (t : Nat) : RoundTrip.Statement (.deferredTrap t) := fun _ h => absurd rfl h

theorem RoundTrip.checkerReissue (t : Nat) : RoundTrip.Statement (.checkerReissue t) := fun _ h => absurd rfl h

theorem RoundTrip.memoryReply (t : Nat) : RoundTrip.Statement (.memoryReply t) := fun _ h => absurd rfl h

theorem RoundTrip.ownershipRecall (core : Nat) (addr : Nat) : RoundTrip.Statement (.ownershipRecall core addr) := fun _ h => absurd rfl h

theorem RoundTrip.l2Fill (slice : Nat) (cls : Nat) (addr : Nat) : RoundTrip.Statement (.l2Fill slice cls addr) := fun _ h => absurd rfl h

theorem RoundTrip.mwaitTimeout (t : Nat) : RoundTrip.Statement (.mwaitTimeout t) := fun _ h => absurd rfl h

theorem RoundTrip.tentFullTimeout (t : Nat) : RoundTrip.Statement (.tentFullTimeout t) := fun _ h => absurd rfl h

theorem RoundTrip.unseal (t : Nat) : RoundTrip.Statement (.unseal t) := fun _ h => absurd rfl h

theorem RoundTrip.leaseExpiry (n : Nat) : RoundTrip.Statement (.leaseExpiry n) := fun _ h => absurd rfl h

theorem RoundTrip.leaseRevocation (n : Nat) : RoundTrip.Statement (.leaseRevocation n) := fun _ h => absurd rfl h

theorem RoundTrip.leaseRefusal (n : Nat) : RoundTrip.Statement (.leaseRefusal n) := fun _ h => absurd rfl h

theorem RoundTrip.windowBoundary : RoundTrip.Statement (.windowBoundary) := fun _ h => absurd rfl h

theorem RoundTrip.timeSync (time : Nat) : RoundTrip.Statement (.timeSync time) := fun _ h => absurd rfl h

theorem RoundTrip.vectorAccept (tile : Nat) : RoundTrip.Statement (.vectorAccept tile) := fun _ h => absurd rfl h

theorem RoundTrip.vectorComplete (t : Nat) : RoundTrip.Statement (.vectorComplete t) := fun _ h => absurd rfl h

theorem RoundTrip.engineCommandBegin (core : Nat) (eng : EngineSel) : RoundTrip.Statement (.engineCommandBegin core eng) := fun _ h => absurd rfl h

theorem RoundTrip.engineCommandComplete (core : Nat) (eng : EngineSel) : RoundTrip.Statement (.engineCommandComplete core eng) := fun _ h => absurd rfl h

theorem RoundTrip.engineCheckpointTimeout (core : Nat) (eng : EngineSel) : RoundTrip.Statement (.engineCheckpointTimeout core eng) := fun _ h => absurd rfl h

theorem RoundTrip.nredResult (home : Nat) (n : Nat) : RoundTrip.Statement (.nredResult home n) := fun _ h => absurd rfl h

theorem RoundTrip.nredYieldTimeout (home : Nat) : RoundTrip.Statement (.nredYieldTimeout home) := fun _ h => absurd rfl h

theorem RoundTrip.taskRecord (n : Nat) : RoundTrip.Statement (.taskRecord n) := fun _ h => absurd rfl h

theorem RoundTrip.headTake (home : Nat) : RoundTrip.Statement (.headTake home) := fun _ h => absurd rfl h

theorem RoundTrip.stealRequest (cluster : Nat) (home : Nat) (epoch : Nat) : RoundTrip.Statement (.stealRequest cluster home epoch) := fun _ h => absurd rfl h

theorem RoundTrip.dispenserDispatch (cluster : Nat) : RoundTrip.Statement (.dispenserDispatch cluster) := fun _ h => absurd rfl h

theorem RoundTrip.thresholdUpdate (home : Nat) : RoundTrip.Statement (.thresholdUpdate home) := fun _ h => absurd rfl h

theorem RoundTrip.creationNotice (n : Nat) : RoundTrip.Statement (.creationNotice n) := fun _ h => absurd rfl h

theorem RoundTrip.retirementNotice (n : Nat) : RoundTrip.Statement (.retirementNotice n) := fun _ h => absurd rfl h

theorem RoundTrip.clusterQuiescent (cluster : Nat) (epoch : Nat) : RoundTrip.Statement (.clusterQuiescent cluster epoch) := fun _ h => absurd rfl h

theorem RoundTrip.childStatusWord (n : Nat) : RoundTrip.Statement (.childStatusWord n) := fun _ h => absurd rfl h

theorem RoundTrip.launchComplete (epoch : Nat) : RoundTrip.Statement (.launchComplete epoch) := fun _ h => absurd rfl h

theorem RoundTrip.callArrival (n : Nat) : RoundTrip.Statement (.callArrival n) := fun _ h => absurd rfl h

theorem RoundTrip.replyArrival (n : Nat) : RoundTrip.Statement (.replyArrival n) := fun _ h => absurd rfl h

theorem RoundTrip.ackArrival (n : Nat) : RoundTrip.Statement (.ackArrival n) := fun _ h => absurd rfl h

theorem RoundTrip.loneAcknowledgement (t : Nat) : RoundTrip.Statement (.loneAcknowledgement t) := fun _ h => absurd rfl h

theorem RoundTrip.callerTimer (t : Nat) : RoundTrip.Statement (.callerTimer t) := fun _ h => absurd rfl h

theorem RoundTrip.retractionTimer (unit : Nat) (n : Nat) : RoundTrip.Statement (.retractionTimer unit n) := fun _ h => absurd rfl h

theorem RoundTrip.retractionPass (n : Nat) : RoundTrip.Statement (.retractionPass n) := fun _ h => absurd rfl h

theorem RoundTrip.migrationArrival (n : Nat) : RoundTrip.Statement (.migrationArrival n) := fun _ h => absurd rfl h

theorem RoundTrip.messageArrival (n : Nat) : RoundTrip.Statement (.messageArrival n) := fun _ h => absurd rfl h

theorem RoundTrip.backPressureNak (n : Nat) : RoundTrip.Statement (.backPressureNak n) := fun _ h => absurd rfl h

theorem RoundTrip.phaseRequest : RoundTrip.Statement (.phaseRequest) := fun _ h => absurd rfl h

theorem RoundTrip.programLoad (core : Nat) (epoch : Nat) : RoundTrip.Statement (.programLoad core epoch) := fun _ h => absurd rfl h

theorem RoundTrip.walkComplete (cluster : Nat) (n : Nat) : RoundTrip.Statement (.walkComplete cluster n) := fun _ h => absurd rfl h

theorem RoundTrip.pageServiceComplete (n : Nat) : RoundTrip.Statement (.pageServiceComplete n) := fun _ h => absurd rfl h

theorem RoundTrip.pageOut (epoch : Nat) (page : Nat) : RoundTrip.Statement (.pageOut epoch page) := fun _ h => absurd rfl h

theorem RoundTrip.pgshoot (cluster : Nat) (value : Nat) : RoundTrip.Statement (.pgshoot cluster value) := fun _ h => absurd rfl h

theorem RoundTrip.shootdownComplete (cluster : Nat) : RoundTrip.Statement (.shootdownComplete cluster) := fun _ h => absurd rfl h

theorem RoundTrip.viewRegisterWrite (addr : Nat) (value : Nat) : RoundTrip.Statement (.viewRegisterWrite addr value) := fun _ h => absurd rfl h

theorem RoundTrip.wlenWrite (iodie : Nat) (value : Nat) : RoundTrip.Statement (.wlenWrite iodie value) := fun _ h => absurd rfl h

theorem RoundTrip.hotnessDecay (ctrl : Nat) : RoundTrip.Statement (.hotnessDecay ctrl) := fun _ h => absurd rfl h

theorem RoundTrip.hostMemrd (port : Nat) (addr : Nat) (excl : Bool) : RoundTrip.Statement (.hostMemrd port addr excl) := fun _ h => absurd rfl h

theorem RoundTrip.hostMemwr (port : Nat) (addr : Nat) (data : List Byte) : RoundTrip.Statement (.hostMemwr port addr data) := fun _ h => absurd rfl h

theorem RoundTrip.hostOwnershipRequest (port : Nat) (addr : Nat) : RoundTrip.Statement (.hostOwnershipRequest port addr) := fun _ h => absurd rfl h

theorem RoundTrip.birspi (port : Nat) (addr : Nat) : RoundTrip.Statement (.birspi port addr) := fun _ h => absurd rfl h

theorem RoundTrip.expanderBisnp (addr : Nat) : RoundTrip.Statement (.expanderBisnp addr) := fun _ h => absurd rfl h

theorem RoundTrip.biasFlipToHost (page : Nat) : RoundTrip.Statement (.biasFlipToHost page) := fun _ h => absurd rfl h

theorem RoundTrip.biasFlipToDevice (page : Nat) : RoundTrip.Statement (.biasFlipToDevice page) := fun _ h => absurd rfl h

theorem RoundTrip.linkDown (port : Nat) : RoundTrip.Statement (.linkDown port) := fun _ h => absurd rfl h

theorem RoundTrip.spdmRequest (req : List Byte) : RoundTrip.Statement (.spdmRequest req) := fun _ h => absurd rfl h

theorem RoundTrip.gangSwitch (epoch : Nat) : RoundTrip.Statement (.gangSwitch epoch) := fun _ h => absurd rfl h

theorem RoundTrip.saveComplete (epoch : Nat) : RoundTrip.Statement (.saveComplete epoch) := fun _ h => absurd rfl h

theorem RoundTrip.gangResume (epoch : Nat) : RoundTrip.Statement (.gangResume epoch) := fun _ h => absurd rfl h

theorem RoundTrip.supervisorRecovery (core : Nat) : RoundTrip.Statement (.supervisorRecovery core) := fun _ h => absurd rfl h

theorem RoundTrip.hang (core : Nat) : RoundTrip.Statement (.hang core) := fun _ h => absurd rfl h

theorem RoundTrip.selfTestResult (core : Nat) (lasting : Bool) : RoundTrip.Statement (.selfTestResult core lasting) := fun _ h => absurd rfl h

theorem RoundTrip.controlInterval (cluster : Nat) : RoundTrip.Statement (.controlInterval cluster) := fun _ h => absurd rfl h

theorem RoundTrip.tcapUpdate (cluster : Nat) : RoundTrip.Statement (.tcapUpdate cluster) := fun _ h => absurd rfl h

theorem RoundTrip.clockRaise (tile : Nat) : RoundTrip.Statement (.clockRaise tile) := fun _ h => absurd rfl h

theorem RoundTrip.stackTemperature (stack : Nat) (temp : Nat) : RoundTrip.Statement (.stackTemperature stack temp) := fun _ h => absurd rfl h

theorem RoundTrip.registerWrite (addr : Nat) (value : Nat) : RoundTrip.Statement (.registerWrite addr value) := fun _ h => absurd rfl h

theorem RoundTrip.claimCommand (m : Nat) : RoundTrip.Statement (.claimCommand m) := fun _ h => absurd rfl h

theorem RoundTrip.handover (m : Nat) : RoundTrip.Statement (.handover m) := fun _ h => absurd rfl h

theorem RoundTrip.reset (m : Nat) : RoundTrip.Statement (.reset m) := fun _ h => absurd rfl h

theorem RoundTrip.load (m : Nat) : RoundTrip.Statement (.load m) := fun _ h => absurd rfl h

theorem RoundTrip.policy (m : Nat) : RoundTrip.Statement (.policy m) := fun _ h => absurd rfl h

theorem RoundTrip.policyAddKey (m : Nat) : RoundTrip.Statement (.policyAddKey m) := fun _ h => absurd rfl h

theorem RoundTrip.launch (m : Nat) : RoundTrip.Statement (.launch m) := fun _ h => absurd rfl h

theorem RoundTrip.query (m : Nat) : RoundTrip.Statement (.query m) := fun _ h => absurd rfl h

theorem RoundTrip.queryDevice (m : Nat) : RoundTrip.Statement (.queryDevice m) := fun _ h => absurd rfl h

theorem RoundTrip.preempt (m : Nat) : RoundTrip.Statement (.preempt m) := fun _ h => absurd rfl h

theorem RoundTrip.preemptResume (m : Nat) : RoundTrip.Statement (.preemptResume m) := fun _ h => absurd rfl h

theorem RoundTrip.kill (m : Nat) : RoundTrip.Statement (.kill m) := fun _ h => absurd rfl h

theorem RoundTrip.dump (m : Nat) : RoundTrip.Statement (.dump m) := fun _ h => absurd rfl h

theorem RoundTrip.checkpoint (m : Nat) : RoundTrip.Statement (.checkpoint m) := fun _ h => absurd rfl h

theorem RoundTrip.attest (m : Nat) : RoundTrip.Statement (.attest m) := fun _ h => absurd rfl h

theorem RoundTrip.update (m : Nat) : RoundTrip.Statement (.update m) := fun _ h => absurd rfl h

theorem RoundTrip.coldReset : RoundTrip.Statement (.coldReset) := fun _ h => absurd rfl h

theorem RoundTrip.remotePackageAccess (op : ForeignOp) (pkg : Nat) (addr : Nat) (data : List Byte) : RoundTrip.Statement (.remotePackageAccess op pkg addr data) := fun _ h => absurd rfl h

theorem RoundTrip.softError (site : ErrSite) (bit : Nat) (double : Bool) : RoundTrip.Statement (.softError site bit double) := fun _ h => absurd rfl h

theorem RoundTrip.linkUp (port : Nat) (rate : Nat) : RoundTrip.Statement (.linkUp port rate) := fun _ h => absurd rfl h

theorem RoundTrip.powerOff : RoundTrip.Statement (.powerOff) := fun _ h => absurd rfl h

end Sys2Proof.Laws
end

