-- ==== Sys2Proof/Laws/Scalar.lean ====
section
/-! SUPPORT.
The shapes of the scalar instructions, run where they are issued, and the number operations of the model as operations on
bit vectors.
-/

namespace Sys2Proof.Machine

/-! ## The shapes -/

theorem run_alu {s : State} {d a b : BitVec 4} (h : s.Issues .scalar [d, a, b]) (z : BitVec 2) (x : Extend) (f : Nat → Nat → Nat → Nat) :
    run (alu d a b z x f) s = .next (s.after .scalar fun t => (t.setReg d (Reg.of
      (x.apply (opBits z) (f (opBits z) (lowBits (opBits z) (s.val a)) (lowBits (opBits z) (s.val b)))))).next 4) := by
  unfold alu
  rw [run_issue h]
  simp only [bind_me, bind_wr, advance_apply, finish_ok, State.counted_thread, State.counted_cur, State.setThread_thread_same,
    State.setThread_cur, State.setThread_setThread]
  rfl

theorem run_aluPredicted {s : State} {d a b : BitVec 4} (h : s.Issues .scalar [d, a, b]) (z : BitVec 2) (f : Nat → Nat → Nat → Nat)
    (p : Reg → Reg → BitVec 4) :
    run (aluPredicted d a b z f p) s = .next (s.after .scalar fun t => (t.setReg d
      (let v := extendS (opBits z) (f (opBits z) (lowBits (opBits z) (s.val a)) (lowBits (opBits z) (s.val b)))
       if z = 3 then ⟨v, p (s.now.reg a) (s.now.reg b)⟩ else Reg.of v)).next 4) := by
  unfold aluPredicted
  rw [run_issue h]
  simp only [bind_me, bind_wrReg, advance_apply, finish_ok, State.counted_thread, State.counted_cur, State.setThread_thread_same,
    State.setThread_cur, State.setThread_setThread]
  rfl

theorem run_unary {s : State} {d a : BitVec 4} (h : s.Issues .scalar [d, a]) (z : BitVec 2) (x : Extend) (f : Nat → Nat → Nat) :
    run (unary d a z x f) s = .next (s.after .scalar fun t => (t.setReg d (Reg.of
      (x.apply (opBits z) (f (opBits z) (lowBits (opBits z) (s.val a)))))).next 4) := by
  unfold unary
  rw [run_issue h]
  simp only [bind_rs, bind_wr, advance_apply, finish_ok, State.counted_thread, State.counted_cur, State.setThread_thread_same,
    State.setThread_cur, State.setThread_setThread]
  rfl

/-! ## Widths and extensions -/

theorem opBits_cases (z : BitVec 2) : opBits z = 8 ∨ opBits z = 16 ∨ opBits z = 32 ∨ opBits z = 64 := by
  revert z; decide

theorem opBits_bounds (z : BitVec 2) : 0 < opBits z ∧ opBits z ≤ 64 := by
  revert z; decide

theorem lowBits_eq (n : Nat) (x : Word) : lowBits n x = (x.setWidth n).toNat := by simp [lowBits]

theorem extendZ_eq (n x : Nat) : extendZ n x = (BitVec.ofNat n x).setWidth 64 := by
  apply BitVec.eq_of_toNat_eq
  simp [extendZ]

theorem extendS_eq {n : Nat} (hm : n ≤ 64) (x : Nat) : extendS n x = (BitVec.ofNat n x).signExtend 64 := by
  have hp : (2 : Nat) ^ n ≤ 2 ^ 64 := Nat.pow_le_pow_right (by decide) hm
  have hl : x % 2 ^ n < 2 ^ n := Nat.mod_lt _ (Nat.two_pow_pos n)
  have h64 : (2 : Nat) ^ 64 = 18446744073709551616 := rfl
  apply BitVec.eq_of_toNat_eq
  unfold extendS
  rw [BitVec.toNat_signExtend, BitVec.msb_eq_decide]
  by_cases h : x % 2 ^ n < 2 ^ (n - 1)
  · have q : ¬ 2 ^ (n - 1) ≤ x % 2 ^ n := by omega
    simp only [h, if_true, BitVec.toNat_ofNat, q, decide_false, BitVec.toNat_setWidth, Bool.false_eq_true, if_false]
    omega
  · have q : 2 ^ (n - 1) ≤ x % 2 ^ n := by omega
    have e : x % 2 ^ n % 2 ^ 64 = x % 2 ^ n := Nat.mod_eq_of_lt (by omega)
    have g : (2 ^ 64 - 2 ^ n + x % 2 ^ n) % 2 ^ 64 = 2 ^ 64 - 2 ^ n + x % 2 ^ n := Nat.mod_eq_of_lt (by omega)
    simp only [h, if_false, BitVec.toNat_ofNat, q, decide_true, BitVec.toNat_setWidth, if_true, e, g]
    omega

/-! ## Numbers as bit vectors -/

theorem signedOf_eq {n : Nat} (hn : 0 < n) (x : BitVec n) : signedOf n x.toNat = x.toInt := by
  have q : 2 ^ n = 2 * 2 ^ (n - 1) := by
    rw [← Nat.pow_succ']
    congr
    omega
  unfold signedOf
  rw [BitVec.toInt_eq_toNat_cond, Nat.mod_eq_of_lt x.isLt]
  split <;> split <;> omega

theorem ofNat_wrapTo (n : Nat) (v : Int) : BitVec.ofNat n (wrapTo n v) = BitVec.ofInt n v := by
  have q : (0 : Int) < (2 ^ n : Nat) := Int.ofNat_lt.2 (Nat.two_pow_pos n)
  have h1 := Int.emod_nonneg v (Int.ne_of_gt q)
  have h2 := Int.emod_lt_of_pos v q
  apply BitVec.eq_of_toNat_eq
  simp only [BitVec.toNat_ofNat, wrapTo, BitVec.toNat_ofInt]
  apply Nat.mod_eq_of_lt
  omega

theorem ofNat_sum {n : Nat} (x y : BitVec n) : BitVec.ofNat n (x.toNat + y.toNat) = x + y := by
  apply BitVec.eq_of_toNat_eq
  simp

theorem ofNat_difference {n : Nat} (x y : BitVec n) : BitVec.ofNat n (x.toNat + (2 ^ n - y.toNat)) = x - y := by
  apply BitVec.eq_of_toNat_eq
  simp [BitVec.toNat_sub]
  congr 1
  omega

theorem ofNat_product {n : Nat} (x y : BitVec n) : BitVec.ofNat n (x.toNat * y.toNat) = x * y := by
  apply BitVec.eq_of_toNat_eq
  simp

theorem ofNat_divUnsigned {n : Nat} (x y : BitVec n) :
    BitVec.ofNat n (divUnsigned n x.toNat y.toNat) = if y = 0 then BitVec.allOnes n else x / y := by
  apply BitVec.eq_of_toNat_eq
  unfold divUnsigned
  by_cases h : y = 0
  · subst h
    simp
  · have q : y.toNat ≠ 0 := fun q => h (BitVec.eq_of_toNat_eq (by simpa using q))
    simp only [q, h, if_false, BitVec.toNat_ofNat, BitVec.toNat_udiv]
    exact Nat.mod_eq_of_lt (Nat.lt_of_le_of_lt (Nat.div_le_self _ _) x.isLt)

theorem ofNat_remUnsigned {n : Nat} (x y : BitVec n) : BitVec.ofNat n (remUnsigned x.toNat y.toNat) = if y = 0 then x else x % y := by
  apply BitVec.eq_of_toNat_eq
  unfold remUnsigned
  by_cases h : y = 0
  · subst h
    simp
  · have q : y.toNat ≠ 0 := fun q => h (BitVec.eq_of_toNat_eq (by simpa using q))
    simp only [q, h, if_false, BitVec.toNat_ofNat, BitVec.toNat_umod]
    exact Nat.mod_eq_of_lt (Nat.lt_of_le_of_lt (Nat.mod_le _ _) x.isLt)

theorem ofNat_divSigned {n : Nat} (hn : 0 < n) (x y : BitVec n) :
    BitVec.ofNat n (divSigned n x.toNat y.toNat) = if y = 0 then BitVec.allOnes n else BitVec.sdiv x y := by
  unfold divSigned
  rw [signedOf_eq hn, signedOf_eq hn]
  by_cases h : y = 0
  · subst h
    apply BitVec.eq_of_toNat_eq
    simp
  · have q : y.toInt ≠ 0 := fun q => h (BitVec.eq_of_toInt_eq (by simpa using q))
    simp only [q, h, if_false, ofNat_wrapTo]
    apply BitVec.eq_of_toInt_eq
    rw [BitVec.toInt_sdiv, BitVec.toInt_ofInt]

theorem ofNat_remSigned {n : Nat} (hn : 0 < n) (x y : BitVec n) :
    BitVec.ofNat n (remSigned n x.toNat y.toNat) = if y = 0 then x else BitVec.srem x y := by
  unfold remSigned
  rw [signedOf_eq hn, signedOf_eq hn]
  by_cases h : y = 0
  · subst h
    apply BitVec.eq_of_toNat_eq
    simp
  · have q : y.toInt ≠ 0 := fun q => h (BitVec.eq_of_toInt_eq (by simpa using q))
    simp only [q, h, if_false, ofNat_wrapTo]
    apply BitVec.eq_of_toInt_eq
    rw [BitVec.toInt_srem, BitVec.toInt_ofInt, ← BitVec.toInt_srem]
    exact BitVec.toInt_bmod_cancel _

theorem ofNat_and {n : Nat} (x y : BitVec n) : BitVec.ofNat n (x.toNat &&& y.toNat) = x &&& y := by
  apply BitVec.eq_of_toNat_eq
  simp

theorem ofNat_or {n : Nat} (x y : BitVec n) : BitVec.ofNat n (x.toNat ||| y.toNat) = x ||| y := by
  apply BitVec.eq_of_toNat_eq
  simp

theorem ofNat_xor {n : Nat} (x y : BitVec n) : BitVec.ofNat n (x.toNat ^^^ y.toNat) = x ^^^ y := by
  apply BitVec.eq_of_toNat_eq
  simp

theorem ofNat_shiftRight {n : Nat} (x : BitVec n) (k : Nat) : BitVec.ofNat n (x.toNat >>> k) = x >>> k := by
  apply BitVec.eq_of_toNat_eq
  simp only [BitVec.toNat_ofNat, BitVec.toNat_ushiftRight]
  exact Nat.mod_eq_of_lt (Nat.lt_of_le_of_lt (Nat.shiftRight_le _ _) x.isLt)

theorem ofNat_shiftLeft {n : Nat} (x : BitVec n) (k : Nat) : BitVec.ofNat n (x.toNat <<< k) = x <<< k := by
  apply BitVec.eq_of_toNat_eq
  simp only [BitVec.toNat_ofNat, BitVec.toNat_shiftLeft]

end Sys2Proof.Machine
end

