-- ==== Sys2Proof/Tests/Slice0.lean ====
section
/-! SUPPORT.
Tests: the decoding of a word of every encoded instruction, written out from the fields of spec/opcode_table.json; the
terms that WellFormed refuses; a few steps with results worked out from the spec; and for every statement of
Certificates/Slice0 a state and operands that meet the hypotheses of each of its clauses.
-/

namespace Sys2Proof.Tests

open Sys2Proof Sys2Proof.Machine

set_option maxRecDepth 100000
set_option exponentiation.threshold 10000
set_option linter.unusedVariables false

-- One theorem after another: together they would ask for more threads than the memory limit holds stacks for.
set_option Elab.async false

/-! ## States to test on -/

/-- A window from address 0 with every right, virtual or on-chip. -/
def wide (chip : Bool) : BitVec 128 :=
  BitVec.ofNat 128 (2 ^ 127 + (if chip then 2 ^ 125 else 0) + 0x1F * 2 ^ 120 + 0xFFFFFFFF * 2 ^ 64)

/-- A ready thread of epoch 5 with the given scalar registers, served by memory: w0 and w2 are virtual, w1 is on-chip. -/
def thr (l : List (BitVec 4 × Word)) : Thread :=
  let t : Thread := { Thread.initial with
    status := .ready, answered := true, epoch := 5, tvec := 0x100, win := ((Vector.replicate 8 0).set 0 (wide false)).set 1 (wide true) |>.set 2 (wide false) }
  l.foldl (fun t p => t.setReg p.1 (Reg.of p.2)) t

/-- A present 4 KiB leaf of the given class, with every right, on the first page of pseudo-channel 0's own alias. -/
def leafOf (cls : Nat) : Word := BitVec.ofNat 64 (0x1F3 + cls * 2 ^ 9 + 2 ^ 17 + 0x8000000 * 2 ^ 32)

/-- The key of that page. -/
def page : Nat := 0x8000000000

/-- A pager that serves epoch 5 from root 0 and holds the translation of virtual addresses 0 to 4095. -/
def pager (cls : Nat) : Pager :=
  { Pager.initial with roots := Pager.initial.roots.set 0 (5 <<< 48 ||| 1), cache := [⟨0, 5, 0, 4096, leafOf cls, false⟩] }

/-- Compute thread 0 alone, on DC memory. -/
def box (l : List (BitVec 4 × Word)) (cls : Nat := 1) : State :=
  { State.reset.setThread 0 (thr l) with clusters := [(0, { Cluster.initial with pager := pager cls })] }

/-- Vent thread 0 of pseudo-channel 0 alone, on DC memory. -/
def vent (l : List (BitVec 4 × Word)) (cls : Nat := 1) : State :=
  { State.reset.setThread 0x400000 (thr l) with cur := 0x400000, pagers := [(1000, pager cls)] }

/-- Something of the state that an instruction reaches. -/
def got {α : Type} (i : Instr) (s : State) (f : State → α) : Option α :=
  match exec i s with
  | .next t => some (f t)
  | _ => none

/-! ## Meeting hypotheses by computation -/

theorem issues {s : State} {f : Family} {l : List (BitVec 4)}
    (h : (f.runsOn s.cur && (!s.now.remote || f.inRemote) && l.all fun i => !s.now.marked i) = true) : s.Issues f l := by
  simp only [Bool.and_eq_true, List.all_eq_true, Bool.not_eq_true'] at h
  exact ⟨h.1.1, fun r => by simpa [r] using h.1.2, h.2⟩

theorem sounds {s : State} {l : List (BitVec 4)} (h : l.all (fun r => decide ((s.now.reg r).res = residue (s.now.reg r).val)) = true) :
    ∀ r ∈ l, s.Sound r := by
  simp only [List.all_eq_true, decide_eq_true_eq] at h
  exact h

theorem soundsAll {s : State} (h : ((List.range 16).all fun i =>
    decide ((s.now.reg (BitVec.ofNat 4 i)).res = residue (s.now.reg (BitVec.ofNat 4 i)).val)) = true) : ∀ r, s.Sound r := fun r => by
  have := List.all_eq_true.1 h r.toNat (List.mem_range.2 r.isLt)
  simpa [State.Sound] using this

theorem uncached {s : State} {k n : Nat} (h : (s.cores.all fun e => (wordsOf k n).all fun w => (Tab.find e.2.l1 w).isNone) = true) :
    s.Uncached k n := by
  intro e he w hw
  simpa using List.all_eq_true.1 (List.all_eq_true.1 h e he) w hw

theorem nothing {α : Type} {l : List α} {p : α → Prop} (h : l = []) : ∀ x ∈ l, p x := by
  intro x hx
  rw [h] at hx
  exact absurd hx List.not_mem_nil

theorem quiet {s : State} (h : (s.cores.all fun y => y.2.suspects.isEmpty) = true) (p : Place) : ¬ s.Tests p := by
  intro ⟨y, hy, x, hx, _⟩
  have e := List.all_eq_true.1 h y hy
  rw [List.isEmpty_iff] at e
  rw [e] at hx
  exact absurd hx List.not_mem_nil

theorem vectors {s : State} {b : Bool} (p : s.poison = []) (q : (s.cores.all fun y => y.2.suspects.isEmpty) = true) (m : (s.core (coreOf s.cur)).matrix.all = [])
    (a : s.now.finished = true ∨ (b = false ∧ isVent s.cur = false ∧ (s.now.taken = true ∨ (s.tile (tileOf s.cur)).queue = []))) :
    s.Vectors b := ⟨⟨nothing p, fun r h => absurd h (quiet q r), nothing m⟩, a⟩


theorem canonical {s : State} (m : s.mem.wf = true)
    (h : (s.cores.all fun e => e.2.tile.wf && e.2.istore.wf && decide (e.2.l1.Pairwise fun a b => a.1 < b.1)) = true) : s.Canonical := by
  have key : ∀ (l : Tab Core) (c : Nat), (l.all fun e => e.2.tile.wf && e.2.istore.wf && decide (e.2.l1.Pairwise fun a b => a.1 < b.1)) = true →
      (Tab.get Core.initial l c).tile.wf = true ∧ (Tab.get Core.initial l c).istore.wf = true ∧ (Tab.get Core.initial l c).l1.Pairwise fun a b => a.1 < b.1 := by
    intro l c
    induction l with
    | nil => exact fun _ => ⟨rfl, rfl, List.Pairwise.nil⟩
    | cons e t ih =>
      intro h
      simp only [List.all_cons, Bool.and_eq_true, decide_eq_true_eq] at h
      simp only [Tab.get]
      split
      · exact ⟨h.1.1.1, h.1.1.2, h.1.2⟩
      · exact ih (by simpa using h.2)
  exact ⟨m, fun c => (key _ c h).1, fun c => (key _ c h).2.1, fun c => (key _ c h).2.2⟩

theorem settled {s : State} (w : s.now.window = none) (b : (s.now.bias.all fun b => b.outcome == some true) = true) (l : s.now.lease = none) :
    s.Settled := ⟨fun m h => by rw [w] at h; exact absurd h (by simp), b, l⟩

theorem holding {s : State} {set : List Nat} (h : (set.all fun r => (s.core (coreOf s.cur)).holds s.cur r) = true)
    (i : s.namedBy s.cur set = false) (p : s.poison = []) (q : (s.cores.all fun y => y.2.suspects.isEmpty) = true) : s.Holds set :=
  ⟨fun r m => List.all_eq_true.1 h r m, i, fun m w _ => by rw [p]; exact List.not_mem_nil, fun _ _ _ => quiet q _⟩

theorem plain {s : State} {leaf : Word} {k n : Nat} (a : s.now.answered = true) (b : areaOf k = .firstTier ∨ areaOf k = .secondTier)
    (h : (decide (packageOf k = s.package) && !s.inTransition k && !s.host.given.any (fun l => overlaps l.key l.bytes k n)
      && !s.host.held.any (fun l => overlaps l.key l.bytes k n) && (s.snoopFor leaf k n true).isNone && !s.isArmed k n
      && (s.sealsAt k n).isEmpty && !s.poisoned k n && (s.logged k n).isEmpty && !s.underTest (memLine k n)
      && (wordsOf k n).all (fun w => (Tab.find (s.core (coreOf s.cur)).ahead w).isNone)
      && (List.range (n + 1)).all fun i => !s.lineTentative (k + i) && !s.hostBias (k + i)) = true) : s.Plain leaf k n := by
  simp only [Bool.and_eq_true, decide_eq_true_eq, Bool.not_eq_true', List.all_eq_true, List.mem_range, Option.isNone_iff_eq_none,
    List.isEmpty_iff] at h
  obtain ⟨⟨⟨⟨⟨⟨⟨⟨⟨⟨⟨h1, h2⟩, h3⟩, h4⟩, h5⟩, h6⟩, h7⟩, h8⟩, h9⟩, h10⟩, h11⟩, h12⟩ := h
  exact ⟨a, b, h1, h2, h3, h4, h5, h6, h7, h8, h9, h10, h11,
    fun i hi => (h12 i (by omega)).1, fun i hi => (h12 i (by omega)).2⟩

theorem mine {s : State} {k n : Nat} (h : ((wordsOf k n).all fun w => match Tab.find (s.core (coreOf s.cur)).l1 w with
    | some x => !x.owned || x.dirty == 0 || x.writer == s.cur
    | none => true) = true) : s.Mine k n := by
  intro w hw x hx
  have := List.all_eq_true.1 h w hw
  rw [hx] at this
  simpa [or_assoc] using this

theorem notOwn {l : List Cell} {P : Cell → Prop} (x : Cell) (e : l = [x]) (n : ¬ P x) : ∀ c, l = [c] → ¬ P c := fun c h => by
  rw [e] at h
  injection h with h
  exact h ▸ n

theorem onRange1 {n : Nat} {P : Nat → Prop} (h : n = 1) (a : P 0) : ∀ i ∈ List.range n, P i := by
  subst h
  intro i hi
  rw [List.mem_range] at hi
  rw [show i = 0 by omega]
  exact a

theorem onRange2 {n : Nat} {P : Nat → Prop} (h : n = 2) (a : P 0) (b : P 1) : ∀ i ∈ List.range n, P i := by
  subst h
  intro i hi
  rw [List.mem_range] at hi
  rcases (show i = 0 ∨ i = 1 by omega) with e | e <;> rw [e] <;> assumption

theorem below4 {P : Nat → Prop} (a : P 0) (b : P 1) (c : P 2) (d : P 3) : ∀ i < 4, P i := fun i h =>
  match i, h with
  | 0, _ => a
  | 1, _ => b
  | 2, _ => c
  | 3, _ => d
  | n + 4, h => absurd h (by omega)

theorem below8 {P : Nat → Prop} (a : P 0) (b : P 1) (c : P 2) (d : P 3) (e : P 4) (f : P 5) (g : P 6) (h : P 7) : ∀ i < 8, P i := fun i m =>
  match i, m with
  | 0, _ => a
  | 1, _ => b
  | 2, _ => c
  | 3, _ => d
  | 4, _ => e
  | 5, _ => f
  | 6, _ => g
  | 7, _ => h
  | n + 8, m => absurd m (by omega)

theorem onlyLanes {n : Nat} {on : Nat → Bool} {P : Nat → Prop} (a b : Nat)
    (h : ((List.range n).all fun i => !on i || i == a || i == b) = true) (x : P a) (y : P b) : ∀ i < n, on i = true → P i := by
  intro i hi ho
  have := List.all_eq_true.1 h i (List.mem_range.2 hi)
  simp only [ho, Bool.not_true, Bool.false_or, Bool.or_eq_true, beq_iff_eq] at this
  rcases this with e | e <;> rw [e] <;> assumption

theorem chipsAll {ε : Type} {n : Nat} {f : Nat → Except ε Space} {g : Nat → Nat} {P : Nat → Prop}
    (h : ∀ i < n, (f i).toOption = some (.chip (g i)) ∧ P i) : ∀ i < n, f i = .ok (.chip (g i)) ∧ P i := fun i hi =>
  ⟨match f i, (h i hi).1 with
    | .ok a, e => congrArg _ (Option.some.inj e)
    | .error _, e => absurd e (by simp [Except.toOption]), (h i hi).2⟩

theorem okChip {ε : Type} {x : Except ε Space} {a : Nat} (h : x.toOption = some (.chip a)) : x = .ok (.chip a) :=
  match x, h with
  | .ok _, e => congrArg _ (Option.some.inj e)
  | .error _, e => absurd e (by simp [Except.toOption])

theorem okOf {ε α : Type} [DecidableEq α] {x : Except ε α} {a : α} (h : (match x with | .ok b => decide (b = a) | .error _ => false) = true) : x = .ok a :=
  match x, h with
  | .ok _, e => congrArg _ (of_decide_eq_true e)
  | .error _, e => absurd e (by simp)

theorem errOf {α : Type} {x : Except Nat α} {c : Nat} (h : (match x with | .ok _ => false | .error d => d == c) = true) : x = .error c :=
  match x, h with
  | .error _, e => congrArg _ (eq_of_beq e)
  | .ok _, e => absurd e (by simp)

theorem test_words_major_40_1 :
    decodeWord true 0x808F4001 = .ok (.add 4 7 10 1)
      ∧ decodeWord true 0x808F4081 = .ok (.sub 4 7 10 1)
      ∧ decodeWord true 0x808F4101 = .ok (.mul 4 7 10 1)
      ∧ decodeWord true 0x808F4181 = .ok (.mulh 4 7 10 1)
      ∧ decodeWord true 0x808F4201 = .ok (.mulhu 4 7 10 1)
      ∧ decodeWord true 0x808F4281 = .ok (.div 4 7 10 1)
      ∧ decodeWord true 0x808F4301 = .ok (.divu 4 7 10 1)
      ∧ decodeWord true 0x808F4381 = .ok (.rem 4 7 10 1)
      ∧ decodeWord true 0x808F4401 = .ok (.remu 4 7 10 1)
      ∧ decodeWord true 0x808F4481 = .ok (.and 4 7 10 1)
      ∧ decodeWord true 0x808F4501 = .ok (.or 4 7 10 1)
      ∧ decodeWord true 0x808F4581 = .ok (.xor 4 7 10 1) := ⟨rfl, rfl, rfl, rfl, rfl, rfl, rfl, rfl, rfl, rfl, rfl, rfl⟩
theorem test_words_major_40_2 :
    decodeWord true 0x808F4601 = .ok (.andn 4 7 10 1)
      ∧ decodeWord true 0x808F4681 = .ok (.sll 4 7 10 1)
      ∧ decodeWord true 0x808F4701 = .ok (.srl 4 7 10 1)
      ∧ decodeWord true 0x808F4781 = .ok (.sra 4 7 10 1)
      ∧ decodeWord true 0x808F4801 = .ok (.rol 4 7 10 1)
      ∧ decodeWord true 0x808F4881 = .ok (.ror 4 7 10 1)
      ∧ decodeWord true 0x808F4901 = .ok (.min 4 7 10 1)
      ∧ decodeWord true 0x808F4981 = .ok (.minu 4 7 10 1)
      ∧ decodeWord true 0x808F4A01 = .ok (.max 4 7 10 1)
      ∧ decodeWord true 0x808F4A81 = .ok (.maxu 4 7 10 1)
      ∧ decodeWord true 0x808F4B01 = .ok (.adds 4 7 10 1)
      ∧ decodeWord true 0x808F4B81 = .ok (.subs 4 7 10 1) := ⟨rfl, rfl, rfl, rfl, rfl, rfl, rfl, rfl, rfl, rfl, rfl, rfl⟩
theorem test_words_major_40_3 :
    decodeWord true 0x808F4C01 = .ok (.addsu 4 7 10 1)
      ∧ decodeWord true 0x808F4C81 = .ok (.subsu 4 7 10 1)
      ∧ decodeWord true 0x808F4D01 = .ok (.slt 4 7 10 1)
      ∧ decodeWord true 0x808F4D81 = .ok (.sltu 4 7 10 1)
      ∧ decodeWord true 0x808F4E01 = .ok (.seq 4 7 10 1)
      ∧ decodeWord true 0x808E0E82 = .ok (.clz 4 7 2)
      ∧ decodeWord true 0x808E0F02 = .ok (.ctz 4 7 2)
      ∧ decodeWord true 0x808E0F82 = .ok (.popc 4 7 2)
      ∧ decodeWord true 0x808E1003 = .ok (.mov 4 7)
      ∧ decodeWord true 0x808E1082 = .ok (.sext 4 7 2)
      ∧ decodeWord true 0x808E1102 = .ok (.zext 4 7 2)
      ∧ decodeWord true 0x808E1182 = .ok (.bswap 4 7 2) := ⟨rfl, rfl, rfl, rfl, rfl, rfl, rfl, rfl, rfl, rfl, rfl, rfl⟩
theorem test_words_major_41 :
    decodeWord true 0x828E1011 = .ok (.addi 4 7 4113)
      ∧ decodeWord true 0x828E3011 = .ok (.andi 4 7 4113)
      ∧ decodeWord true 0x828E5011 = .ok (.ori 4 7 4113)
      ∧ decodeWord true 0x828E7011 = .ok (.xori 4 7 4113)
      ∧ decodeWord true 0x828E8031 = .ok (.slli 4 7 49)
      ∧ decodeWord true 0x828EA031 = .ok (.srli 4 7 49)
      ∧ decodeWord true 0x828EC031 = .ok (.srai 4 7 49)
      ∧ decodeWord true 0x828EF011 = .ok (.slti 4 7 4113)
      ∧ decodeWord true 0x828F1011 = .ok (.sltiu 4 7 4113)
      ∧ decodeWord true 0x828F3011 = .ok (.muli 4 7 4113)
      ∧ decodeWord true 0x8281500C = .ok (.li 4 4108) := ⟨rfl, rfl, rfl, rfl, rfl, rfl, rfl, rfl, rfl, rfl, rfl⟩
theorem test_words_major_42 :
    decodeWord true 0x8484000C = .ok (.lih 4 262156)
      ∧ decodeWord true 0x848C000C = .ok (.adpc 4 262156) := ⟨rfl, rfl⟩
theorem test_words_major_43 :
    decodeWord true 0x87388016 = .ok (.exti 4 3 1 32790) := rfl
theorem test_words_major_44 :
    decodeWord true 0x888E2011 = .ok (.beq 4 7 8209)
      ∧ decodeWord true 0x888E6011 = .ok (.bne 4 7 8209)
      ∧ decodeWord true 0x888EA011 = .ok (.blt 4 7 8209)
      ∧ decodeWord true 0x888EE011 = .ok (.bge 4 7 8209)
      ∧ decodeWord true 0x888F2011 = .ok (.bltu 4 7 8209)
      ∧ decodeWord true 0x888F6011 = .ok (.bgeu 4 7 8209) := ⟨rfl, rfl, rfl, rfl, rfl, rfl⟩
theorem test_words_major_45 :
    decodeWord true 0x8B000007 = .ok (.j 16777223) := rfl
theorem test_words_major_46 :
    decodeWord true 0x8D000007 = .ok (.call 16777223) := rfl
theorem test_words_major_47 :
    decodeWord true 0x8E080000 = .ok (.jr 4)
      ∧ decodeWord true 0x8E080080 = .ok (.callr 4)
      ∧ decodeWord true 0x8E000100 = .ok (.ret)
      ∧ decodeWord true 0x8E0001C7 = .ok (.trap 71)
      ∧ decodeWord true 0x8E000200 = .ok (.rte)
      ∧ decodeWord true 0x8E800292 = .ok (.mfs 4 18)
      ∧ decodeWord true 0x8E08030D = .ok (.mts 4 13)
      ∧ decodeWord true 0x8E8E0380 = .ok (.ext 4 7)
      ∧ decodeWord true 0x8E8E0400 = .ok (.mfe 4 7)
      ∧ decodeWord true 0x8E8F4480 = .ok (.csel 4 7 10) := ⟨rfl, rfl, rfl, rfl, rfl, rfl, rfl, rfl, rfl, rfl⟩
theorem test_words_major_50 :
    decodeWord true 0xA08E8416 = .ok (.ldb 4 7 2 1046)
      ∧ decodeWord true 0xA08E8C16 = .ok (.ldbu 4 7 2 1046)
      ∧ decodeWord true 0xA08E9416 = .ok (.ldh 4 7 2 1046)
      ∧ decodeWord true 0xA08E9C16 = .ok (.ldhu 4 7 2 1046)
      ∧ decodeWord true 0xA08EA416 = .ok (.ldw 4 7 2 1046)
      ∧ decodeWord true 0xA08EAC16 = .ok (.ldwu 4 7 2 1046)
      ∧ decodeWord true 0xA08EB416 = .ok (.ldd 4 7 2 1046) := ⟨rfl, rfl, rfl, rfl, rfl, rfl, rfl⟩
theorem test_words_major_51 :
    decodeWord true 0xA28E8416 = .ok (.stb 4 7 2 1046)
      ∧ decodeWord true 0xA28E8C16 = .ok (.sth 4 7 2 1046)
      ∧ decodeWord true 0xA28E9416 = .ok (.stw 4 7 2 1046)
      ∧ decodeWord true 0xA28E9C16 = .ok (.std 4 7 2 1046) := ⟨rfl, rfl, rfl, rfl⟩
theorem test_words_major_52 :
    decodeWord true 0xA48F5408 = .ok (.ldbX 4 7 10 5 1)
      ∧ decodeWord true 0xA48F5428 = .ok (.ldbuX 4 7 10 5 1)
      ∧ decodeWord true 0xA48F5448 = .ok (.ldhX 4 7 10 5 1)
      ∧ decodeWord true 0xA48F5468 = .ok (.ldhuX 4 7 10 5 1)
      ∧ decodeWord true 0xA48F5488 = .ok (.ldwX 4 7 10 5 1)
      ∧ decodeWord true 0xA48F54A8 = .ok (.ldwuX 4 7 10 5 1)
      ∧ decodeWord true 0xA48F54C8 = .ok (.lddX 4 7 10 5 1)
      ∧ decodeWord true 0xA48F5508 = .ok (.stbX 4 7 10 5 1)
      ∧ decodeWord true 0xA48F5528 = .ok (.sthX 4 7 10 5 1)
      ∧ decodeWord true 0xA48F5548 = .ok (.stwX 4 7 10 5 1)
      ∧ decodeWord true 0xA48F5568 = .ok (.stdX 4 7 10 5 1) := ⟨rfl, rfl, rfl, rfl, rfl, rfl, rfl, rfl, rfl, rfl, rfl⟩
theorem test_words_major_53 :
    decodeWord true 0xA68F543E = .ok (.aadd 4 7 10 5 1 3 1)
      ∧ decodeWord true 0xA68F547E = .ok (.amin 4 7 10 5 1 3 1)
      ∧ decodeWord true 0xA68F54BE = .ok (.aminu 4 7 10 5 1 3 1)
      ∧ decodeWord true 0xA68F54FE = .ok (.amax 4 7 10 5 1 3 1)
      ∧ decodeWord true 0xA68F553E = .ok (.amaxu 4 7 10 5 1 3 1)
      ∧ decodeWord true 0xA68F557E = .ok (.aand 4 7 10 5 1 3 1)
      ∧ decodeWord true 0xA68F55BE = .ok (.aor 4 7 10 5 1 3 1)
      ∧ decodeWord true 0xA68F55FE = .ok (.axor 4 7 10 5 1 3 1)
      ∧ decodeWord true 0xA68F563E = .ok (.aswap 4 7 10 5 1 3 1)
      ∧ decodeWord true 0xA68F567E = .ok (.acas 4 7 10 5 1 3 1) := ⟨rfl, rfl, rfl, rfl, rfl, rfl, rfl, rfl, rfl, rfl⟩
theorem test_words_major_54_1 :
    decodeWord true 0xA8000000 = .ok (.fenceAcq)
      ∧ decodeWord true 0xA8000080 = .ok (.fenceRel)
      ∧ decodeWord true 0xA8000100 = .ok (.fenceAll)
      ∧ decodeWord true 0xA88E4180 = .ok (.marm 4 7 2)
      ∧ decodeWord true 0xA88E0200 = .ok (.mwait 4 7)
      ∧ decodeWord true 0xA8008280 = .ok (.mdis 4)
      ∧ decodeWord true 0xA88E0300 = .ok (.bara 4 7)
      ∧ decodeWord true 0xA88E0380 = .ok (.bard 4 7)
      ∧ decodeWord true 0xA808E400 = .ok (.barw 4 7)
      ∧ decodeWord true 0xA8080480 = .ok (.commit 4)
      ∧ decodeWord true 0xA808E500 = .ok (.flush 4 7)
      ∧ decodeWord true 0xA808E580 = .ok (.inval 4 7) := ⟨rfl, rfl, rfl, rfl, rfl, rfl, rfl, rfl, rfl, rfl, rfl, rfl⟩
theorem test_words_major_54_2 :
    decodeWord true 0xA808E600 = .ok (.seal 4 7) := rfl
theorem test_words_major_55 :
    decodeWord true 0xAA8E8416 = .ok (.tstw 4 7 2 1046)
      ∧ decodeWord true 0xAA8E8C16 = .ok (.tstd 4 7 2 1046) := ⟨rfl, rfl⟩
theorem test_words_major_56 :
    decodeWord true 0xAC08E830 = .ok (.dupdAdd 4 7 2 1)
      ∧ decodeWord true 0xAC08E870 = .ok (.dupdFadd 4 7 2 1)
      ∧ decodeWord true 0xAC08E8B0 = .ok (.dupdMin 4 7 2 1)
      ∧ decodeWord true 0xAC08E8F0 = .ok (.dupdMax 4 7 2 1)
      ∧ decodeWord true 0xAC08E930 = .ok (.dupdAnd 4 7 2 1)
      ∧ decodeWord true 0xAC08E970 = .ok (.dupdOr 4 7 2 1)
      ∧ decodeWord true 0xAC08E9B0 = .ok (.dupdXor 4 7 2 1) := ⟨rfl, rfl, rfl, rfl, rfl, rfl, rfl⟩
theorem test_words_major_57 :
    decodeWord true 0xAE80200C = .ok (.retract 4 8204) := rfl
theorem test_words_major_60_1 :
    decodeWord true 0xC13AB520 = .ok (.vadd 4 7 2 5 1 5 1)
      ∧ decodeWord true 0xC13AB521 = .ok (.vsub 4 7 2 5 1 5 1)
      ∧ decodeWord true 0xC13AB522 = .ok (.vmul 4 7 2 5 1 5 1)
      ∧ decodeWord true 0xC13AB503 = .ok (.vmulh 4 7 2 5 1 5)
      ∧ decodeWord true 0xC13AB524 = .ok (.vdiv 4 7 2 5 1 5 1)
      ∧ decodeWord true 0xC1385985 = .ok (.vsqrt 4 7 2 1 9 4)
      ∧ decodeWord true 0xC13AB506 = .ok (.vmin 4 7 2 5 1 5)
      ∧ decodeWord true 0xC13AB507 = .ok (.vmax 4 7 2 5 1 5)
      ∧ decodeWord true 0xC1385908 = .ok (.vabs 4 7 2 1 9)
      ∧ decodeWord true 0xC1385909 = .ok (.vneg 4 7 2 1 9)
      ∧ decodeWord true 0xC13AB52A = .ok (.vfma 4 7 2 5 1 5 1)
      ∧ decodeWord true 0xC13AB52B = .ok (.vfms 4 7 2 5 1 5 1) := ⟨rfl, rfl, rfl, rfl, rfl, rfl, rfl, rfl, rfl, rfl, rfl, rfl⟩
theorem test_words_major_60_2 :
    decodeWord true 0xC138598C = .ok (.vex2 4 7 2 1 9 4)
      ∧ decodeWord true 0xC13AB50D = .ok (.vand 4 7 2 5 1 5)
      ∧ decodeWord true 0xC13AB50E = .ok (.vor 4 7 2 5 1 5)
      ∧ decodeWord true 0xC13AB50F = .ok (.vxor 4 7 2 5 1 5)
      ∧ decodeWord true 0xC13AB510 = .ok (.vsll 4 7 2 5 1 5)
      ∧ decodeWord true 0xC13AB511 = .ok (.vsrl 4 7 2 5 1 5)
      ∧ decodeWord true 0xC13AB512 = .ok (.vsra 4 7 2 5 1 5)
      ∧ decodeWord true 0xC13AB513 = .ok (.vadds 4 7 2 5 1 5)
      ∧ decodeWord true 0xC13AB514 = .ok (.vsubs 4 7 2 5 1 5)
      ∧ decodeWord true 0xC13AA915 = .ok (.vsel 4 7 2 5 9) := ⟨rfl, rfl, rfl, rfl, rfl, rfl, rfl, rfl, rfl, rfl⟩
theorem test_words_major_61 :
    decodeWord true 0xC33AB500 = .ok (.vceq 4 7 2 5 1 5)
      ∧ decodeWord true 0xC33AB501 = .ok (.vcne 4 7 2 5 1 5)
      ∧ decodeWord true 0xC33AB502 = .ok (.vclt 4 7 2 5 1 5)
      ∧ decodeWord true 0xC33AB503 = .ok (.vcle 4 7 2 5 1 5)
      ∧ decodeWord true 0xC33AB504 = .ok (.vcun 4 7 2 5 1 5) := ⟨rfl, rfl, rfl, rfl, rfl⟩
theorem test_words_major_62 :
    decodeWord true 0xC53DD998 = .ok (.vcvt 4 7 11 5 9 4 1 1) := rfl
theorem test_words_major_63 :
    decodeWord true 0xC7385980 = .ok (.vrsum 4 7 2 1 9 4)
      ∧ decodeWord true 0xC7385901 = .ok (.vrmin 4 7 2 1 9)
      ∧ decodeWord true 0xC7385902 = .ok (.vrmax 4 7 2 1 9)
      ∧ decodeWord true 0xC7385903 = .ok (.vrand 4 7 2 1 9)
      ∧ decodeWord true 0xC7385904 = .ok (.vror 4 7 2 1 9)
      ∧ decodeWord true 0xC7385905 = .ok (.vrxor 4 7 2 1 9) := ⟨rfl, rfl, rfl, rfl, rfl, rfl⟩
theorem test_words_major_64 :
    decodeWord true 0xC93AB500 = .ok (.vperm 4 7 2 5 1 5)
      ∧ decodeWord true 0xC9385901 = .ok (.vbcast 4 7 2 1 9)
      ∧ decodeWord true 0xC9385902 = .ok (.vslup 4 7 2 1 9)
      ∧ decodeWord true 0xC9385903 = .ok (.vsldn 4 7 2 1 9)
      ∧ decodeWord true 0xC9384204 = .ok (.vins 4 7 2 2)
      ∧ decodeWord true 0xC9380B05 = .ok (.vext 4 7 11)
      ∧ decodeWord true 0xC9385906 = .ok (.vmov 4 7 2 1 9)
      ∧ decodeWord true 0xC9385907 = .ok (.vaccr 4 7 2 1 9) := ⟨rfl, rfl, rfl, rfl, rfl, rfl, rfl, rfl⟩
theorem test_words_major_65 :
    decodeWord true 0xCB3A0000 = .ok (.kand 4 7 2)
      ∧ decodeWord true 0xCB3A0001 = .ok (.kor 4 7 2)
      ∧ decodeWord true 0xCB3A0002 = .ok (.kxor 4 7 2)
      ∧ decodeWord true 0xCB380003 = .ok (.knot 4 7)
      ∧ decodeWord true 0xCB380004 = .ok (.kmov 4 7)
      ∧ decodeWord true 0xCB380005 = .ok (.kpopc 4 7) := ⟨rfl, rfl, rfl, rfl, rfl, rfl⟩
theorem test_words_major_66 :
    decodeWord true 0xCD0FD206 = .ok (.vld 4 7 1 13 1 3)
      ∧ decodeWord true 0xCD0EAA0A = .ok (.vst 4 7 10 5 1)
      ∧ decodeWord true 0xCD351016 = .ok (.vlds 4 3 2 1 1 3)
      ∧ decodeWord true 0xCD34D01A = .ok (.vsts 4 3 2 13 1)
      ∧ decodeWord true 0xCD0FD2E4 = .ok (.vgath 4 7 1 13 1 3 2)
      ∧ decodeWord true 0xCD0EAA6E = .ok (.vscat 4 7 10 5 1 3) := ⟨rfl, rfl, rfl, rfl, rfl, rfl⟩
theorem test_words_major_68 :
    decodeWord true 0xD04C93BD = .ok (.mld 4 1 1 1 1 3 2 1 1 1 1 1) := rfl
theorem test_words_major_69 :
    decodeWord true 0xD24C93BD = .ok (.mst 4 1 1 1 1 3 2 1 1 1 1 1) := rfl
theorem test_words_major_6A :
    decodeWord true 0xD443AD78 = .ok (.mma 4 7 2 13 1 1 1 1) := rfl
theorem test_words_major_6B :
    decodeWord true 0xD643AD7C = .ok (.mmas 4 7 2 13 1 1 1 1 4) := rfl
theorem test_words_major_6C :
    decodeWord true 0xD8438A76 = .ok (.mcmp 4 7 10 1 1 1 6) := rfl
theorem test_words_major_6D :
    decodeWord true 0xDA0047B0 = .ok (.mzero 4 7 2 1 1) := rfl
theorem test_words_major_6E :
    decodeWord true 0xDC08E000 = .ok (.claim 4 7)
      ∧ decodeWord true 0xDC08E080 = .ok (.claimT 4 7)
      ∧ decodeWord true 0xDC08E100 = .ok (.rels 4 7)
      ∧ decodeWord true 0xDC8E0180 = .ok (.mchk 4 7)
      ∧ decodeWord true 0xDC8F4200 = .ok (.mfix 4 7 10)
      ∧ decodeWord true 0xDC8E0280 = .ok (.accinj 4 7)
      ∧ decodeWord true 0xDC8E0351 = .ok (.amovRead 4 7 81)
      ∧ decodeWord true 0xDC08E301 = .ok (.amovWrite 4 7)
      ∧ decodeWord true 0xDC08A3AD = .ok (.mcvta 4 5 1 13) := ⟨rfl, rfl, rfl, rfl, rfl, rfl, rfl, rfl, rfl⟩
theorem test_words_major_70 :
    decodeWord true 0xE0118A7D = .ok (.cpy 1 3 10 1 1 1 1 1 1) := rfl
theorem test_words_major_71 :
    decodeWord true 0xE2438A7D = .ok (.nred 4 7 10 1 1 1 1 1 1) := rfl
theorem test_words_major_72 :
    decodeWord true 0xE4118A7D = .ok (.scpy 1 3 10 1 1 1 1 1 1) := rfl
theorem test_words_major_73 :
    decodeWord true 0xE62E0000 = .ok (.strm 1 7)
      ∧ decodeWord true 0xE6000084 = .ok (.waitd 4)
      ∧ decodeWord true 0xE6080100 = .ok (.dfence 4)
      ∧ decodeWord true 0xE608E181 = .ok (.carmArm 4 7)
      ∧ decodeWord true 0xE608E180 = .ok (.carmDisarm 4 7)
      ∧ decodeWord true 0xE6000200 = .ok (.phase) := ⟨rfl, rfl, rfl, rfl, rfl, rfl⟩
theorem test_words_major_74 :
    decodeWord true 0xE8080000 = .ok (.spawn 4)
      ∧ decodeWord true 0xE808E080 = .ok (.qcfg 4 7)
      ∧ decodeWord true 0xE808E100 = .ok (.fork 4 7)
      ∧ decodeWord true 0xE8080180 = .ok (.join 4)
      ∧ decodeWord true 0xE8000200 = .ok (.wfw)
      ∧ decodeWord true 0xE8080280 = .ok (.done 4)
      ∧ decodeWord true 0xE8080300 = .ok (.migr 4)
      ∧ decodeWord true 0xE808E380 = .ok (.send 4 7)
      ∧ decodeWord true 0xE88E0400 = .ok (.recv 4 7)
      ∧ decodeWord true 0xE8000484 = .ok (.reply 4)
      ∧ decodeWord true 0xE808E502 = .ok (.rfwd 4 7 2) := ⟨rfl, rfl, rfl, rfl, rfl, rfl, rfl, rfl, rfl, rfl, rfl⟩
theorem test_words_major_75 :
    decodeWord true 0xEB2E8000 = .ok (.rcall 9 7 2)
      ∧ decodeWord true 0xEB2EA000 = .ok (.rcalla 9 7 2) := ⟨rfl, rfl⟩
theorem test_words_major_7F :
    decodeWord true 0xFE000000 = .ok (.nop)
      ∧ decodeWord true 0xFE100000 = .ok (.pause)
      ∧ decodeWord true 0xFE24800C = .ok (.prefl 4 32780)
      ∧ decodeWord true 0xFE300000 = .ok (.hcomp)
      ∧ decodeWord true 0xFE400000 = .ok (.hmem)
      ∧ decodeWord true 0xFE500000 = .ok (.hwait) := ⟨rfl, rfl, rfl, rfl, rfl, rfl⟩
theorem test_words_short_1 :
    decodeWord false 0x51C = .ok (.mov16 4 7)
      ∧ decodeWord false 0x91C = .ok (.add16 4 7)
      ∧ decodeWord false 0xD1C = .ok (.sub16 4 7)
      ∧ decodeWord false 0x111C = .ok (.and16 4 7)
      ∧ decodeWord false 0x151C = .ok (.or16 4 7)
      ∧ decodeWord false 0x191C = .ok (.xor16 4 7)
      ∧ decodeWord false 0x1D2C = .ok (.addi16 4 44)
      ∧ decodeWord false 0x212C = .ok (.li16 4 44)
      ∧ decodeWord false 0x252C = .ok (.slli16 4 44)
      ∧ decodeWord false 0x292C = .ok (.srli16 4 44)
      ∧ decodeWord false 0x2D2C = .ok (.srai16 4 44)
      ∧ decodeWord false 0x312C = .ok (.ldd16 4 44) := ⟨rfl, rfl, rfl, rfl, rfl, rfl, rfl, rfl, rfl, rfl, rfl, rfl⟩
theorem test_words_short_2 :
    decodeWord false 0x352C = .ok (.std16 4 44)
      ∧ decodeWord false 0x3A07 = .ok (.j16 519)
      ∧ decodeWord false 0x3C00 = .ok (.ret16)
      ∧ decodeWord false 0x4000 = .ok (.nop16) := ⟨rfl, rfl, rfl, rfl⟩

/-! ## Ill-formed terms (R112, R258) -/

/-- One term for each check of WellFormed, at the first value refused, and its neighbour that is not. -/
theorem test_ill_formed :
    Instr.wf (.vadd 1 2 3 0 0 13 0) = false ∧ Instr.wf (.vadd 1 2 3 0 0 12 0) = true
      ∧ Instr.wf (.vadd 1 2 3 0 0 9 5) = false ∧ Instr.wf (.vadd 1 2 3 0 0 9 4) = true
      ∧ Instr.wf (.cpy 0 1 0 0 0 0 0 0 3) = false ∧ Instr.wf (.cpy 0 1 0 0 0 0 0 0 2) = true
      ∧ Instr.wf (.reply 7) = false ∧ Instr.wf (.reply 6) = true
      ∧ Instr.wf (.mfs 3 7) = false ∧ Instr.wf (.mfs 3 25) = false ∧ Instr.wf (.mts 3 24) = true
      ∧ Instr.wf (.amovRead 3 2 1) = false ∧ Instr.wf (.amovRead 3 2 0) = true
      ∧ Instr.wf (.vcvt 1 2 13 0 9 0 0 0) = false := by decide

/-- The same reserved values in encoded words decode to nothing; a reserved word of major 0x3F is NOP (R113). -/
theorem test_reserved_words :
    decodeWord true 0xC0534BAA = .error .reservedValue ∧ decodeWord true 0xC13ABD20 = .error .reservedValue ∧ decodeWord true 0x8068A007 = .error .reservedField
      ∧ decodeWord true 0x8E80029F = .error .reservedValue ∧ decodeWord true 0xFFFFFFFF = .ok .nop
      ∧ decodeBytes [0x03] = .error .truncated := ⟨rfl, rfl, rfl, rfl, rfl, rfl⟩

/-! ## Scalar instructions -/

/-- Sum wraps, and the residue is predicted (R137, R141): 2^63 + (2^63 + 1) = 1. -/
theorem test_add_wraps : got (.add 3 4 5 3) (box [(4, 2 ^ 63), (5, 2 ^ 63 + 1)]) (fun s => s.now.reg 3) = some ⟨1, 1⟩ := by decide
/-- The worked values of R142 and R70: at 32 bits the sum of 0x7FFFFFFF and 1 is sign-extended. -/
theorem test_add32_extends : got (.add 3 4 5 2) (box [(4, 0x7FFFFFFF), (5, 1)]) (·.val 3) = some 0xFFFFFFFF80000000 := by decide
/-- R71: division by zero gives all ones, the remainder the dividend; the most negative number by -1 gives itself. -/
theorem test_div_corners : got (.div 3 4 5 3) (box [(4, 7), (5, 0)]) (·.val 3) = some (BitVec.allOnes 64)
    ∧ got (.rem 3 4 5 3) (box [(4, 7), (5, 0)]) (·.val 3) = some 7
    ∧ got (.div 3 4 5 3) (box [(4, 2 ^ 63), (5, BitVec.allOnes 64)]) (·.val 3) = some 0x8000000000000000 := by decide
/-- The source is also the destination. -/
theorem test_sub_self : got (.sub 4 4 4 3) (box [(4, 9)]) (fun s => s.now.reg 4) = some ⟨0, 0⟩ := by decide
/-- A shift count is taken modulo the width (R141). -/
theorem test_sll_masks : got (.sll 3 4 5 0) (box [(4, 0x81), (5, 9)]) (·.val 3) = some 2 := by decide
theorem test_sra : got (.sra 3 4 5 3) (box [(4, 2 ^ 63), (5, 63)]) (·.val 3) = some (BitVec.allOnes 64) := by decide
theorem test_mulh_signs : got (.mulh 3 4 5 3) (box [(4, BitVec.allOnes 64), (5, 2)]) (·.val 3) = some (BitVec.allOnes 64)
    ∧ got (.mulhu 3 4 5 3) (box [(4, BitVec.allOnes 64), (5, 2)]) (·.val 3) = some 1 := by decide
theorem test_adds_saturates : got (.adds 3 4 5 0) (box [(4, 0x7F), (5, 1)]) (·.val 3) = some 0x7F
    ∧ got (.subsu 3 4 5 0) (box [(4, 1), (5, 2)]) (·.val 3) = some 0 := by decide
theorem test_counts : got (.clz 3 4 3) (box [(4, 1)]) (·.val 3) = some 63 ∧ got (.ctz 3 4 3) (box [(4, 0)]) (·.val 3) = some 64
    ∧ got (.popc 3 4 0) (box [(4, 0x1FF)]) (·.val 3) = some 8 ∧ got (.bswap 3 4 1) (box [(4, 0x1234)]) (·.val 3) = some 0x3412 := by decide
theorem test_lih : got (.lih 3 0x40000) (box []) (·.val 3) = some 0xFFFFFFFF80000000 := by decide
/-- R137: a predicted residue follows a corrupted operand, so the next use finds it. -/
theorem test_residue_spreads :
    let s := box [(5, 3)]
    let t := s.setThread 0 (s.now.setReg 4 ⟨6, 5⟩)
    got (.add 3 4 5 3) t (fun s => (s.now.reg 3).res != residue (s.val 3)) = some true := by decide

/-- A register other than the destination, the pc and memory after an ADD. -/
theorem test_add_frame : got (.add 3 4 5 3) (box [(4, 6), (5, 3)]) (fun s => (s.val 4, s.now.pc, s.mem)) = some (6, 4, []) := by decide

theorem witness_scalar : (box [(4, 6), (5, 3)]).Issues .scalar [3, 4, 5] ∧ (box [(4, 6), (5, 3)]).Sound 4 ∧ (box [(4, 6), (5, 3)]).Sound 5 :=
  ⟨issues rfl, rfl, rfl⟩
theorem witness_scalar_vent : (vent [(4, 6)]).Issues .scalar [3, 4] ∧ (vent [(4, 6)]).Sound 4 := ⟨issues rfl, rfl⟩

/-! ## Control transfer, traps and system registers -/

/-- R147: a branch counts in halfwords from itself, backwards too. -/
theorem test_branch : got (.beq 4 5 0x3FFF) (box [(4, 1), (5, 1)]) (·.now.pc) = some (0 - 2)
    ∧ got (.bne 4 5 8) (box [(4, 1), (5, 1)]) (·.now.pc) = some 4 ∧ got (.blt 4 5 8) (box [(4, 0 - 1), (5, 1)]) (·.now.pc) = some 16
    ∧ got (.bltu 4 5 8) (box [(4, 0 - 1), (5, 1)]) (·.now.pc) = some 4 := by decide
/-- R148, R150: CALLR through s15 goes to the old value and links. -/
theorem test_callr_link : got (.callr 15) (box [(15, 0x40)]) (fun s => (s.now.pc, s.val 15)) = some (0x40, 4) := by decide
/-- R150: an odd target traps with ALIGN, s15 unchanged. -/
theorem test_callr_odd : got (.callr 15) (box [(15, 0x41)]) (fun s => (s.now.pc, s.val 15, s.now.tcause, s.now.epc, s.now.tval))
    = some (0x100, 0x41, 4, 0, 0x41) := by decide
theorem test_trap : got (.trap 0x2A) (box []) (fun s => (s.now.tcause, s.now.tval, s.now.epc, s.now.pc, s.now.trapm)) = some (8, 0x2A, 4, 0x100, true) := by decide
theorem test_rte : got .rte ((box []).setThread 0 { thr [] with trapm := true, epc := 0x88 }) (fun s => (s.now.pc, s.now.trapm)) = some (0x88, false)
    ∧ got .rte (box []) (fun s => (s.now.pc, s.now.tcause)) = some (0x100, 2) := by decide
/-- R98 lists no register 7, and none from 25 on. -/
theorem test_unlisted_registers : (decodeBytes (encode (.mfs 4 25))).toOption = none ∧ (decodeBytes (encode (.mts 5 7))).toOption = none := by decide
theorem test_mfs_stat : got (.mfs 3 0) (box []) (·.val 3) = some 0x50000 ∧ got (.mfs 4 16) (box []) (fun s => (s.val 4, s.val 5))
    = some (0, 0x9F000000FFFFFFFF) := by decide
/-- R98: epc is readable in trap mode only. -/
theorem test_mfs_epc : got (.mfs 3 9) (box []) (·.now.tcause) = some 2
    ∧ got (.mfs 3 9) ((box []).setThread 0 { thr [] with trapm := true, epc := 0x88 }) (·.val 3) = some 0x88 := by decide
/-- R102: a thread may narrow its own window, and not widen it. -/
theorem test_window_narrows : got (.mts 4 16) (box [(4, 0x10), (5, 0x81000000000000FF)]) (fun s => s.now.window_ 0) = some 0x81000000000000FF0000000000000010
    ∧ got (.mts 4 16) (box [(4, 0), (5, 0x9F0000FFFFFFFFFF)]) (·.now.tcause) = some 2 := by decide
theorem test_hints : got .hwait (box []) (fun s => (s.core 0).hint) = some .wait ∧ got .nop16 (box []) (·.now.pc) = some 2 := by decide

/-- Thread 0 with something of its own changed. -/
def boxWith (f : Thread → Thread) (l : List (BitVec 4 × Word) := []) : State := (box l).setThread 0 (f (thr l))
def ventWith (f : Thread → Thread) (l : List (BitVec 4 × Word) := []) : State := (vent l).setThread 0x400000 (f (thr l))

theorem witness_jumps : (box [(4, 8), (15, 0x40)]).Issues .scalar [4, 15] ∧ (box [(4, 8), (15, 0x40)]).Sound 4 ∧ (box [(4, 8), (15, 0x40)]).Sound 15
    ∧ ((box [(4, 8), (15, 0x40)]).val 4).getLsbD 0 = false ∧ ((box [(4, 8), (15, 0x40)]).val 15).getLsbD 0 = false
    ∧ (box [(4, 8), (15, 0x40)]).Issues .scalar [] ∧ (box [(4, 8), (15, 0x40)]).Issues .scalar [15] :=
  ⟨issues rfl, rfl, rfl, rfl, rfl, issues rfl, issues rfl⟩
theorem witness_odd_jumps : (box [(4, 9), (15, 0x41)]).Issues .scalar [4, 15] ∧ (box [(4, 9), (15, 0x41)]).Handles
    ∧ (box [(4, 9), (15, 0x41)]).Sound 4 ∧ (box [(4, 9), (15, 0x41)]).Sound 15 ∧ ((box [(4, 9), (15, 0x41)]).val 4).getLsbD 0 = true
    ∧ ((box [(4, 9), (15, 0x41)]).val 15).getLsbD 0 = true := ⟨issues rfl, ⟨rfl, rfl⟩, rfl, rfl, rfl, rfl⟩
/-- Registers 4 and 15 hold values whose residues are wrong. -/
theorem witness_bad_jumps :
    let s := (box []).setThread 0 (((thr []).setReg 4 ⟨8, 7⟩).setReg 15 ⟨8, 7⟩)
    s.Issues .scalar [4, 15] ∧ s.Issues .scalar [15] ∧ s.Handles ∧ ¬ s.Sound 4 ∧ ¬ s.Sound 15
      ∧ got (.callr 4) s (fun s => (s.now.tval, s.val 15)) = some (4, 8) :=
  ⟨issues rfl, issues rfl, ⟨rfl, rfl⟩, by unfold State.Sound; decide, by unfold State.Sound; decide, by decide⟩
theorem witness_rte : (boxWith ({ · with trapm := true })).Issues .scalar [] ∧ (boxWith ({ · with trapm := true })).now.trapm = true
    ∧ ∀ e : EngineSel, (((boxWith ({ · with trapm := true })).core 0).engine e).parked = [] := ⟨issues rfl, rfl, fun e => by cases e <;> rfl⟩
theorem witness_trap : (box []).Issues .scalar [] ∧ (box []).Handles := ⟨issues rfl, ⟨rfl, rfl⟩⟩
/-- The three checks of R114: a vent thread has no matrix unit, a callee no copies, a marked register makes a thread wait. -/
theorem witness_checks : Family.runsOn .matrix (vent []).cur = false
    ∧ (Family.runsOn .copy (boxWith ({ · with remote := true })).cur = true ∧ (boxWith ({ · with remote := true })).now.remote = true ∧ Family.inRemote .copy = false)
    ∧ (Family.runsOn .scalar (boxWith ({ · with pend := 0x10 })).cur = true ∧ ((boxWith ({ · with pend := 0x10 })).now.remote = true → Family.inRemote .scalar = true)
      ∧ ∃ i ∈ [(3 : BitVec 4), 4, 5], (boxWith ({ · with pend := 0x10 })).now.marked i = true) := by decide
/-- Step 5: a REPLY outside a call, an RCALL with seven payload words; then the marks; PRIV of MFS before them, and without it. -/
theorem witness_checks_modes : (Family.runsOn .reply (ventWith ({ · with pend := 0xFF })).cur = true
    ∧ ((ventWith ({ · with pend := 0xFF })).now.remote && (ventWith ({ · with pend := 0xFF })).now.callee.isSome && decide ((3 : BitVec 3).toNat ≤ 4)) = false)
    ∧ (Family.runsOn .call (boxWith ({ · with pend := 0xFF00 })).cur = true ∧ decide ((7 : BitVec 3).toNat < 7) = false ∧ decide ((2 : BitVec 3).toNat < 7) = true
      ∧ ∃ i ∈ [(3 : BitVec 4), 4, 8, 9, 10, 11] ++ payloadRegs (2 : BitVec 3).toNat, (boxWith ({ · with pend := 0xFF00 })).now.marked i = true)
    ∧ (Family.runsOn .scalar (boxWith ({ · with pend := 8 })).cur = true ∧ (boxWith ({ · with pend := 8 })).now.marked 3 = true
      ∧ (boxWith ({ · with pend := 8 })).now.trapm = false)
    ∧ (boxWith ({ · with pend := 8, trapm := true })).now.marked 3 = true ∧ (boxWith ({ · with pend := 8, trapm := true })).now.trapm = true := by decide
/-- A thread of a control core. -/
def control : State := { State.reset.setThread 0x200000 (thr []) with cur := 0x200000 }
theorem witness_control : control.Issues .scalar [3] ∧ control.Handles ∧ isControl control.cur = true ∧ isCompute control.cur = false :=
  ⟨issues rfl, ⟨rfl, rfl⟩, rfl, rfl⟩
/-- A launch that has the thread's epoch. -/
def phased : State := { box [] with fw := { (box []).fw with launches := [⟨0, 5, 1, [(0, 0)], Vector.replicate 8 0, 0, 0, false, none, 0, [], [], [0], [], [], [], .running, none, 0, 0, none, [], false, [], none⟩] } }
theorem witness_mfs_phase : isControl phased.cur = false ∧ (phased.launch phased.now.epoch).isSome = true := by decide
theorem witness_unlisted_registers : (7 : BitVec 7).toNat = 7 ∧ 25 ≤ (127 : BitVec 7).toNat := by decide
theorem witness_mts_odd : (box []).Issues .scalar [5, 5 + 1] ∧ (box []).Handles ∧ (5 : BitVec 4).getLsbD 0 = true := ⟨issues rfl, ⟨rfl, rfl⟩, rfl⟩
/-- A page of SC memory under BIASMGD, and a request to hand it to the hosts. -/
def biasLeaf : Word := leafOf 2 ||| (1 : Word) <<< 16
def biasBox (x : Word) : State :=
  { box [(4, x)] 2 with clusters := [(0, { Cluster.initial with pager := { pager 2 with cache := [⟨0, 5, 0, 4096, biasLeaf, false⟩] } })] }
theorem witness_mts_biascmd_1 : (biasBox (1 : Word)).Issues .scalar [4] ∧ isCompute (biasBox (1 : Word)).cur = true ∧ BitVec.toNat ((biasBox (1 : Word)).val (4 : BitVec 4)) / 2 % 2 ^ 11 = 0 ∧ (List.filter (fun (b : BiasReq) => b.outcome.isNone) (biasBox (1 : Word)).now.bias).length < 8 ∧ checkIn (biasBox (1 : Word)).now.win ((biasBox (1 : Word)).val (4 : BitVec 4) >>> 12 <<< 12) 1 [.w] = Except.ok (Space.virt 0) ∧ ((biasBox (1 : Word)).pager (pagerOf (biasBox (1 : Word)).cur)).rootFor (biasBox (1 : Word)).now.epoch = some 0 ∧ ((biasBox (1 : Word)).pager (pagerOf (biasBox (1 : Word)).cur)).look (biasBox (1 : Word)).now.epoch 0 = some (Held.mk 0 (5 : BitVec 16) 0 4096 biasLeaf false, let __src := pager 2; Pager.mk __src.roots __src.gen __src.busy __src.shots [Held.mk 0 (5 : BitVec 16) 0 4096 biasLeaf false] __src.walks __src.walked __src.known __src.going) ∧ (biasBox (1 : Word)).judge (biasBox (1 : Word)).now.epoch biasLeaf 0 0 [.w] false = Trans.ok biasLeaf page false ∧ (biasBox (1 : Word)).present page = true ∧ (biasBox (1 : Word)).biasOk biasLeaf page = true :=
  ⟨issues rfl, rfl, rfl, by decide, rfl, rfl, rfl, rfl, rfl, rfl⟩
theorem witness_mts_biascmd_2 : (biasBox (3 : Word)).Issues .scalar [4] ∧ isCompute (biasBox (3 : Word)).cur = true ∧ (biasBox (3 : Word)).Handles ∧ (8 ≤ (List.filter (fun (b : BiasReq) => b.outcome.isNone) (biasBox (3 : Word)).now.bias).length ∨ BitVec.toNat ((biasBox (3 : Word)).val (4 : BitVec 4)) / 2 % 2 ^ 11 ≠ 0) :=
  ⟨issues rfl, rfl, ⟨rfl, rfl⟩, by decide⟩
theorem witness_mfs : (box []).Issues .scalar [3] ∧ (box []).Handles ∧ isCompute (box []).cur = true ∧ isCompute (vent []).cur = false
    ∧ (vent []).Issues .scalar [3] ∧ (vent []).Handles
    ∧ ((boxWith ({ · with trapm := true })).Issues .scalar [3] ∧ (boxWith ({ · with trapm := true })).now.trapm = true)
    ∧ ((boxWith ({ · with dbg := true })).Issues .scalar [3] ∧ (boxWith ({ · with dbg := true })).now.dbg = true)
    ∧ (box []).Issues .scalar [4, 4 + 1] ∧ (4 : BitVec 4).getLsbD 0 = false ∧ (box []).Issues .scalar [15, 15 + 1] ∧ (15 : BitVec 4).getLsbD 0 = true :=
  ⟨issues rfl, ⟨rfl, rfl⟩, rfl, rfl, issues rfl, ⟨rfl, rfl⟩, ⟨issues rfl, rfl⟩, ⟨issues rfl, rfl⟩, issues rfl, rfl, issues rfl, rfl⟩
theorem witness_mts : (boxWith ({ · with trapm := true })).Issues .scalar [4] ∧ (boxWith ({ · with trapm := true })).now.trapm = true
    ∧ (boxWith ({ · with supv := true })).Issues .scalar [4] ∧ (boxWith ({ · with supv := true })).now.supv = true
    ∧ (boxWith ({ · with dbg := true })).Issues .scalar [4] ∧ (boxWith ({ · with dbg := true })).now.dbg = true
    ∧ (box []).Issues .scalar [4] ∧ (box []).Handles ∧ (box []).now.supv = false := ⟨issues rfl, rfl, issues rfl, rfl, issues rfl, rfl, issues rfl, ⟨rfl, rfl⟩, rfl⟩
/-- A window value that narrows w0, one that may not be written, and one that a supervisor may write but that is not well formed. -/
theorem witness_mts_window :
    (let s := box [(4, 0x10), (5, 0x81000000000000FF)]
     let w : BitVec 128 := s.val 5 ++ s.val 4
     s.Issues .scalar [4, 4 + 1] ∧ (s.now.trapm || s.now.supv || !Win.valid w || Win.narrows (s.now.window_ 0) w) = true ∧ Win.wellFormed w = true)
    ∧ (let s := box [(4, 0), (5, 0x9F0000FFFFFFFFFF)]
       let w : BitVec 128 := s.val 5 ++ s.val 4
       s.Issues .scalar [4, 4 + 1] ∧ s.Handles ∧ (s.now.trapm || s.now.supv || !Win.valid w || Win.narrows (s.now.window_ 0) w) = false)
    ∧ (let s := boxWith ({ · with supv := true }) [(4, 0), (5, 0xDF000000000000FF)]
       let w : BitVec 128 := s.val 5 ++ s.val 4
       s.Issues .scalar [4, 4 + 1] ∧ s.Handles ∧ (s.now.trapm || s.now.supv || !Win.valid w || Win.narrows (s.now.window_ 0) w) = true ∧ Win.wellFormed w = false) :=
  ⟨⟨issues rfl, rfl, rfl⟩, ⟨issues rfl, ⟨rfl, rfl⟩, rfl⟩, ⟨issues rfl, ⟨rfl, rfl⟩, rfl, rfl⟩⟩

/-! ## Fetch and step -/

/-- From reset with ADD s3,s4,s5 in place (R107): the step runs it, in the issue slot that thread 0's partner lends. -/
def placed (nbits w : Nat) : State := State.reset.withFetchWord nbits w

def stepped {α : Type} (s : State) (f : State → α) : Option α := match step s with | .next t => some (f t) | _ => none

theorem test_step_add : stepped (placed 32 0x8068A003) (fun s => ((s.thread 0).pc, (s.core 0).cycle)) = some (4, 4) := by decide
theorem test_step_compact : stepped (placed 16 0x08D4) (fun s => (s.thread 0).pc) = some 2 := by decide
/-- R112, R114: an unassigned word traps with ILLEGAL, epc naming it. -/
theorem test_step_illegal : stepped (placed 32 0xFFFFFFFF) (fun s => (s.thread 0).tcause) = some 0
    ∧ stepped (placed 32 0xF8000000) (fun s => ((s.thread 0).tcause, (s.thread 0).epc, (s.thread 0).trapm)) = some (1, 0, true) := by decide
/-- R32, R33: with slot 0 removed thread 0 issues in its partner's slot 4; with neither it does not. -/
theorem test_rotation : (placed 32 0x8068A003).nextIssue 0 1 8 = some (4, 0)
    ∧ ((placed 32 0x8068A003).setCore 0 { (placed 32 0x8068A003).core 0 with removed := 0x10 }).nextIssue 0 1 8 = some (8, 0) := by decide

/-- A run of two steps: an ADDI and a jump back to it. -/
theorem test_two_steps :
    (match step ((placed 32 0x8268A005).setCore 0 { (placed 32 0x8268A005).core 0 with cycle := 7 }) with
      | .next t => some t.tick | _ => none) = some 1 := by decide

theorem witness_step : (placed 32 0x8068A003).powered = true ∧ (placed 32 0x8068A003).turn = some (.core 0)
    ∧ (placed 32 0x8068A003).nextIssue 0 (((placed 32 0x8068A003).core 0).cycle + 1) (slotCount 0) = some (4, 0)
    ∧ ((placed 32 0x8068A003).thread 0).due = none := by decide
/-- The bytes at pc 0 in the instruction store decode to ADD, and the window over the store allows them. -/
theorem witness_step_bytes :
    let s := placed 32 0x8068A003
    let w := (s.thread 0).window_ 0
    0 + Instr.size (.add 3 4 5 3) ≤ Win.limit w + 1 ∧ Win.valid w = true ∧ Win.has w .x = true ∧ Win.onChip w = false
      ∧ (s.core 0).ibase.toNat ≤ Win.base w + 0 ∧ Win.base w + 0 + 4 ≤ (s.core 0).ibase.toNat + 0x8000
      ∧ Instr.size (.add 3 4 5 3) ≠ 0 := by decide
theorem ok_of_some {x : Except DecodeError Instr} {i : Instr} (h : x.toOption = some i) : x = .ok i := by
  cases x with
  | ok j => exact congrArg _ (Option.some.inj h)
  | error e => exact absurd h (by simp [Except.toOption])
theorem error_of_none {x : Except DecodeError Instr} (h : x.toOption = none) : ∃ e, x = .error e := by
  cases x with
  | ok j => exact absurd h (by simp [Except.toOption])
  | error e => exact ⟨e, rfl⟩
theorem witness_step_decodes : decodeBytes (((placed 32 0x8068A003).core 0).istore.readN 0 4) = .ok (.add 3 4 5 3) := ok_of_some (by decide)
theorem witness_fetch :
    (match fetch { (placed 32 0x8068A003).setCore 0 ((placed 32 0x8068A003).core 0) with cur := 0 } with
      | .ok i _ => i == .add 3 4 5 3 | .error _ _ => false) = true := by decide
theorem witness_undecodable : ({ placed 32 0xF8000000 with cur := 0 } : State).now.due = none ∧ ({ placed 32 0xF8000000 with cur := 0 } : State).Handles :=
  ⟨rfl, ⟨rfl, rfl⟩⟩
theorem witness_undecodable_bytes : ∃ e, decodeBytes (((placed 32 0xF8000000).core 0).istore.readN 0 4) = .error e := error_of_none (by decide)

theorem witness_encoding : (Instr.add 3 4 5 3).wf = true ∧ (Instr.add 3 4 5 3).size ≠ 0 ∧ (Instr.mfs 15 24).wf = true ∧ (Instr.mfs 15 24).size ≠ 0 := by decide
theorem witness_decoded_word : decodeWord true 0x8068A003 = .ok (.add 3 4 5 3) ∧ decodeWord false 0x7FFF = .error .unassigned
    ∧ decodeWord true 0xFFFFFFFF = .ok .nop := ⟨rfl, rfl, rfl⟩
/-- Slots 5 and 7 are removed; thread 5 is in the middle of a load, thread 7 between instructions, threads 1 and 2 are READY. -/
def heldBox : State :=
  let s := (box []).setCore 0 { Core.initial with removed := 0xA0 }
  (((s.setThread 5 { thr [] with begun := some .memory }).setThread 7 (thr [])).setThread 2 (thr [])).setThread 1 (thr [])
theorem witness_rotation :
    let s := heldBox
    let gone := fun (slot : Nat) => (s.core 0).removed.getLsbD slot
    let ready := fun (slot : Nat) => (s.thread (0 + slot)).status == .ready && (!gone slot || (s.thread (0 + slot)).underway)
    (s.core 0).stopped = false ∧ (s.core 0).killed = false ∧ (s.core 0).testing = false ∧ (gone 7 = true ∧ (s.thread (0 + 7)).underway = false)
      ∧ (gone 5 = true ∧ (s.thread (0 + 5)).underway = true) ∧ (gone 0 = false ∧ ready 0 = true)
      ∧ (gone 4 = false ∧ ready 4 = false ∧ ready (4 ^^^ 4) = true) ∧ (gone 3 = false ∧ ready 3 = false ∧ ready (3 ^^^ 4) = false)
      ∧ s.nextIssue 0 9 6 = some (9, 1) := by decide
theorem witness_rotation_threads : ∀ t, coreOf t = 0 →
    (heldBox.thread t).pages = [] ∧ heldBox.pastTau (heldBox.thread t).epoch = false ∧ heldBox.offline (heldBox.thread t).epoch = false := by
  intro t h
  refine ⟨?_, rfl, rfl⟩
  have key : ∀ t < 8, (heldBox.thread t).pages = [] := by decide
  exact key t (by unfold coreOf at h; omega)
theorem witness_memory : Memory.wf [(3, 7), (9, 1)] = true ∧ Memory.wf [(3, 7)] = true := by decide
/-- A canonical state from which a step goes on. -/
theorem witness_canonical_step : stepped (placed 32 0x8068A003) (fun s => s.tick) = some 1
    ∧ ((placed 32 0x8068A003).mem.wf && (placed 32 0x8068A003).cores.all fun (e : Nat × Core) => e.2.tile.wf && e.2.istore.wf && e.2.l1.isEmpty) = true := by decide
theorem test_memory_write : Memory.write [(3, 7), (9, 1)] 5 2 = [(3, 7), (5, 2), (9, 1)] ∧ Memory.write [(3, 7), (9, 1)] 9 0 = [(3, 7)] := by decide

/-! ## Loads, stores and atomics -/

def ldTile : Memory := [(16, 0x81), (17, 0x82), (18, 3), (19, 0x84), (20, 5), (21, 0x86), (22, 7), (23, 0x88), (26, 0x9A)]
def ldMem : Memory := [(page + 16, 0x91), (page + 17, 0x92), (page + 20, 0x93)]
def ldOther : Core := { Core.initial with tile := ldTile, l1 := [(page / 4 + 5, ⟨0x91223384, true, 0xF, false, 0⟩)] }
def ldFar : Core := { Core.initial with tile := ldTile, l1 := [(page / 4 + 9, ⟨0x91223384, true, 0xF, false, 0⟩)] }
def ldBox : State := { (box [(3, 0x1122334455667788), (4, 16), (5, 0), (14, 8)]).setCore 0 ldOther with mem := ldMem }
def ldVent : State := { (vent [(3, 0x1122334455667788), (4, 16), (5, 0), (14, 8)]).setCore 0x400000 ldFar with mem := ldMem }
def ldOwn : State := { ldBox with cores := [(0, ldFar)] }
/-- w1 is virtual too. -/
def stacked (s : State) : State := s.setThread s.cur { s.now with win := s.now.win.set 1 (wide false) }
def ldOwnStack : State := stacked ldOwn
def ldVentStack : State := stacked ldVent
def ldWild : State := box [(4, 0xFFFFFFFF0), (5, 1)]
def ldNc : State := { (box [(3, 0x1122334455667788), (4, 16), (5, 0), (14, 8)] 0).setCore 0 ldFar with mem := ldMem }
/-- A base with another residue. -/
def ldTorn (r : BitVec 4) : State := ldWild.setThread 0 (ldWild.now.setReg r ⟨16, 0⟩)

theorem witness_loads_from_tile_1 : ldBox.Issues .loadStore [3, 4] ∧ ldBox.Sound (4 : BitVec 4) ∧ ldBox.OnTile (BitVec.setWidth 64 (1 : BitVec 3) <<< 61 + ldBox.val (4 : BitVec 4) + BitVec.signExtend 64 (0 : BitVec 11) * BitVec.ofNat 64 1) 1 [.r] 0 16 16 ∧ ldBox.poisonedAt (Place.tile 0) 16 1 = false :=
  ⟨issues rfl, rfl, ⟨rfl, rfl, rfl, rfl, .inl rfl⟩, rfl⟩
theorem witness_loads_from_tile_2 : ldBox.Issues .loadStore [3, 4] ∧ ldBox.Sound (4 : BitVec 4) ∧ ldBox.OnTile (BitVec.setWidth 64 (1 : BitVec 3) <<< 61 + ldBox.val (4 : BitVec 4) + BitVec.signExtend 64 (0 : BitVec 11) * BitVec.ofNat 64 2) 2 [.r] 0 16 16 ∧ ldBox.poisonedAt (Place.tile 0) 16 2 = false :=
  ⟨issues rfl, rfl, ⟨rfl, rfl, rfl, rfl, .inl rfl⟩, rfl⟩
theorem witness_loads_from_tile_3 : ldBox.Issues .loadStore [3, 4, 5] ∧ ldBox.Sound (4 : BitVec 4) ∧ ldBox.Sound (5 : BitVec 4) ∧ ldBox.OnTile (BitVec.setWidth 64 (1 : BitVec 3) <<< 61 + ldBox.val (4 : BitVec 4) + ldBox.val (5 : BitVec 4) <<< BitVec.toNat (2 : BitVec 2)) 1 [.r] 0 16 16 ∧ ldBox.poisonedAt (Place.tile 0) 16 1 = false :=
  ⟨issues rfl, rfl, rfl, ⟨rfl, rfl, rfl, rfl, .inl rfl⟩, rfl⟩
theorem witness_loads_from_tile_4 : ldBox.Issues .loadStore [3, 4, 5] ∧ ldBox.Sound (4 : BitVec 4) ∧ ldBox.Sound (5 : BitVec 4) ∧ ldBox.OnTile (BitVec.setWidth 64 (1 : BitVec 3) <<< 61 + ldBox.val (4 : BitVec 4) + ldBox.val (5 : BitVec 4) <<< BitVec.toNat (2 : BitVec 2)) 2 [.r] 0 16 16 ∧ ldBox.poisonedAt (Place.tile 0) 16 2 = false :=
  ⟨issues rfl, rfl, rfl, ⟨rfl, rfl, rfl, rfl, .inl rfl⟩, rfl⟩
theorem witness_loads_from_tile_5 : ldBox.Issues .loadStore [3, 14] ∧ ldBox.Sound (14 : BitVec 4) ∧ ldBox.OnTile ((1 : Word) <<< 61 + ldBox.val (14 : BitVec 4) + BitVec.setWidth 64 (1 : BitVec 6) * (8 : Word)) 8 [.r] 0 16 16 ∧ ldBox.poisonedAt (Place.tile 0) 16 8 = false :=
  ⟨issues rfl, rfl, ⟨rfl, rfl, rfl, rfl, .inl rfl⟩, rfl⟩
theorem witness_stores_to_tile_1 : ldBox.Issues .loadStore [3, 4] ∧ ldBox.Sound (3 : BitVec 4) ∧ ldBox.Sound (4 : BitVec 4) ∧ ldBox.OnTile (BitVec.setWidth 64 (1 : BitVec 3) <<< 61 + ldBox.val (4 : BitVec 4) + BitVec.signExtend 64 (0 : BitVec 11) * BitVec.ofNat 64 1) 1 [.w] 0 16 16 :=
  ⟨issues rfl, rfl, rfl, ⟨rfl, rfl, rfl, rfl, .inl rfl⟩⟩
theorem witness_stores_to_tile_2 : ldBox.Issues .loadStore [3, 4] ∧ ldBox.Sound (3 : BitVec 4) ∧ ldBox.Sound (4 : BitVec 4) ∧ ldBox.OnTile (BitVec.setWidth 64 (1 : BitVec 3) <<< 61 + ldBox.val (4 : BitVec 4) + BitVec.signExtend 64 (0 : BitVec 11) * BitVec.ofNat 64 2) 2 [.w] 0 16 16 :=
  ⟨issues rfl, rfl, rfl, ⟨rfl, rfl, rfl, rfl, .inl rfl⟩⟩
theorem witness_stores_to_tile_3 : ldBox.Issues .loadStore [3, 4, 5] ∧ ldBox.Sound (3 : BitVec 4) ∧ ldBox.Sound (4 : BitVec 4) ∧ ldBox.Sound (5 : BitVec 4) ∧ ldBox.OnTile (BitVec.setWidth 64 (1 : BitVec 3) <<< 61 + ldBox.val (4 : BitVec 4) + ldBox.val (5 : BitVec 4) <<< BitVec.toNat (2 : BitVec 2)) 1 [.w] 0 16 16 :=
  ⟨issues rfl, rfl, rfl, rfl, ⟨rfl, rfl, rfl, rfl, .inl rfl⟩⟩
theorem witness_stores_to_tile_4 : ldBox.Issues .loadStore [3, 4, 5] ∧ ldBox.Sound (3 : BitVec 4) ∧ ldBox.Sound (4 : BitVec 4) ∧ ldBox.Sound (5 : BitVec 4) ∧ ldBox.OnTile (BitVec.setWidth 64 (1 : BitVec 3) <<< 61 + ldBox.val (4 : BitVec 4) + ldBox.val (5 : BitVec 4) <<< BitVec.toNat (2 : BitVec 2)) 2 [.w] 0 16 16 :=
  ⟨issues rfl, rfl, rfl, rfl, ⟨rfl, rfl, rfl, rfl, .inl rfl⟩⟩
theorem witness_stores_to_tile_5 : ldBox.Issues .loadStore [3, 14] ∧ ldBox.Sound (3 : BitVec 4) ∧ ldBox.Sound (14 : BitVec 4) ∧ ldBox.OnTile ((1 : Word) <<< 61 + ldBox.val (14 : BitVec 4) + BitVec.setWidth 64 (1 : BitVec 6) * (8 : Word)) 8 [.w] 0 16 16 :=
  ⟨issues rfl, rfl, rfl, ⟨rfl, rfl, rfl, rfl, .inl rfl⟩⟩
theorem witness_loads_from_memory_1 : ldOwn.Issues .loadStore [3, 4] ∧ ldOwn.Sound (4 : BitVec 4) ∧ ldOwn.OnPage (BitVec.setWidth 64 (2 : BitVec 3) <<< 61 + ldOwn.val (4 : BitVec 4) + BitVec.signExtend 64 (0 : BitVec 11) * BitVec.ofNat 64 1) 1 [.r] (leafOf 1) (page + 16) ∧ ldOwn.Plain (leafOf 1) (page + 16) 1 ∧ ldOwn.Canonical :=
  ⟨issues rfl, rfl, ⟨⟨_, 0, _, _, rfl, rfl, rfl, rfl⟩, rfl, rfl⟩, plain rfl (.inl rfl) rfl, canonical rfl rfl⟩
theorem witness_loads_from_memory_2 : ldOwn.Issues .loadStore [3, 4] ∧ ldOwn.Sound (4 : BitVec 4) ∧ ldOwn.OnPage (BitVec.setWidth 64 (2 : BitVec 3) <<< 61 + ldOwn.val (4 : BitVec 4) + BitVec.signExtend 64 (0 : BitVec 11) * BitVec.ofNat 64 2) 2 [.r] (leafOf 1) (page + 16) ∧ ldOwn.Plain (leafOf 1) (page + 16) 2 ∧ ldOwn.Canonical :=
  ⟨issues rfl, rfl, ⟨⟨_, 0, _, _, rfl, rfl, rfl, rfl⟩, rfl, rfl⟩, plain rfl (.inl rfl) rfl, canonical rfl rfl⟩
theorem witness_loads_from_memory_3 : ldOwn.Issues .loadStore [3, 4, 5] ∧ ldOwn.Sound (4 : BitVec 4) ∧ ldOwn.Sound (5 : BitVec 4) ∧ ldOwn.OnPage (BitVec.setWidth 64 (2 : BitVec 3) <<< 61 + ldOwn.val (4 : BitVec 4) + ldOwn.val (5 : BitVec 4) <<< BitVec.toNat (2 : BitVec 2)) 1 [.r] (leafOf 1) (page + 16) ∧ ldOwn.Plain (leafOf 1) (page + 16) 1 ∧ ldOwn.Canonical :=
  ⟨issues rfl, rfl, rfl, ⟨⟨_, 0, _, _, rfl, rfl, rfl, rfl⟩, rfl, rfl⟩, plain rfl (.inl rfl) rfl, canonical rfl rfl⟩
theorem witness_loads_from_memory_4 : ldOwn.Issues .loadStore [3, 4, 5] ∧ ldOwn.Sound (4 : BitVec 4) ∧ ldOwn.Sound (5 : BitVec 4) ∧ ldOwn.OnPage (BitVec.setWidth 64 (2 : BitVec 3) <<< 61 + ldOwn.val (4 : BitVec 4) + ldOwn.val (5 : BitVec 4) <<< BitVec.toNat (2 : BitVec 2)) 2 [.r] (leafOf 1) (page + 16) ∧ ldOwn.Plain (leafOf 1) (page + 16) 2 ∧ ldOwn.Canonical :=
  ⟨issues rfl, rfl, rfl, ⟨⟨_, 0, _, _, rfl, rfl, rfl, rfl⟩, rfl, rfl⟩, plain rfl (.inl rfl) rfl, canonical rfl rfl⟩
theorem witness_loads_from_memory_vent_1 : ldVent.Issues .loadStore [3, 4] ∧ ldVent.Sound (4 : BitVec 4) ∧ ldVent.OnPage (BitVec.setWidth 64 (2 : BitVec 3) <<< 61 + ldVent.val (4 : BitVec 4) + BitVec.signExtend 64 (0 : BitVec 11) * BitVec.ofNat 64 1) 1 [.r] (leafOf 1) (page + 16) ∧ ldVent.Plain (leafOf 1) (page + 16) 1 ∧ ldVent.Canonical :=
  ⟨issues rfl, rfl, ⟨⟨_, 0, _, _, rfl, rfl, rfl, rfl⟩, rfl, rfl⟩, plain rfl (.inl rfl) rfl, canonical rfl rfl⟩
theorem witness_loads_from_memory_vent_2 : ldVent.Issues .loadStore [3, 4] ∧ ldVent.Sound (4 : BitVec 4) ∧ ldVent.OnPage (BitVec.setWidth 64 (2 : BitVec 3) <<< 61 + ldVent.val (4 : BitVec 4) + BitVec.signExtend 64 (0 : BitVec 11) * BitVec.ofNat 64 2) 2 [.r] (leafOf 1) (page + 16) ∧ ldVent.Plain (leafOf 1) (page + 16) 2 ∧ ldVent.Canonical :=
  ⟨issues rfl, rfl, ⟨⟨_, 0, _, _, rfl, rfl, rfl, rfl⟩, rfl, rfl⟩, plain rfl (.inl rfl) rfl, canonical rfl rfl⟩
theorem witness_loads_from_memory_vent_3 : ldVent.Issues .loadStore [3, 4, 5] ∧ ldVent.Sound (4 : BitVec 4) ∧ ldVent.Sound (5 : BitVec 4) ∧ ldVent.OnPage (BitVec.setWidth 64 (2 : BitVec 3) <<< 61 + ldVent.val (4 : BitVec 4) + ldVent.val (5 : BitVec 4) <<< BitVec.toNat (2 : BitVec 2)) 1 [.r] (leafOf 1) (page + 16) ∧ ldVent.Plain (leafOf 1) (page + 16) 1 ∧ ldVent.Canonical :=
  ⟨issues rfl, rfl, rfl, ⟨⟨_, 0, _, _, rfl, rfl, rfl, rfl⟩, rfl, rfl⟩, plain rfl (.inl rfl) rfl, canonical rfl rfl⟩
theorem witness_loads_from_memory_vent_4 : ldVent.Issues .loadStore [3, 4, 5] ∧ ldVent.Sound (4 : BitVec 4) ∧ ldVent.Sound (5 : BitVec 4) ∧ ldVent.OnPage (BitVec.setWidth 64 (2 : BitVec 3) <<< 61 + ldVent.val (4 : BitVec 4) + ldVent.val (5 : BitVec 4) <<< BitVec.toNat (2 : BitVec 2)) 2 [.r] (leafOf 1) (page + 16) ∧ ldVent.Plain (leafOf 1) (page + 16) 2 ∧ ldVent.Canonical :=
  ⟨issues rfl, rfl, rfl, ⟨⟨_, 0, _, _, rfl, rfl, rfl, rfl⟩, rfl, rfl⟩, plain rfl (.inl rfl) rfl, canonical rfl rfl⟩
theorem witness_stores_at_the_home_1 : ldVent.Issues .loadStore [3, 4] ∧ ldVent.Sound (3 : BitVec 4) ∧ ldVent.Sound (4 : BitVec 4) ∧ ldVent.OnPage (BitVec.setWidth 64 (2 : BitVec 3) <<< 61 + ldVent.val (4 : BitVec 4) + BitVec.signExtend 64 (0 : BitVec 11) * BitVec.ofNat 64 1) 1 [.w] (leafOf 1) (page + 16) ∧ ldVent.Plain (leafOf 1) (page + 16) 1 ∧ ldVent.Uncached (page + 16) 1 ∧ isCompute ldVent.cur = false :=
  ⟨issues rfl, rfl, rfl, ⟨⟨_, 0, _, _, rfl, rfl, rfl, rfl⟩, rfl, rfl⟩, plain rfl (.inl rfl) rfl, uncached rfl, rfl⟩
theorem witness_stores_at_the_home_2 : ldVent.Issues .loadStore [3, 4] ∧ ldVent.Sound (3 : BitVec 4) ∧ ldVent.Sound (4 : BitVec 4) ∧ ldVent.OnPage (BitVec.setWidth 64 (2 : BitVec 3) <<< 61 + ldVent.val (4 : BitVec 4) + BitVec.signExtend 64 (0 : BitVec 11) * BitVec.ofNat 64 2) 2 [.w] (leafOf 1) (page + 16) ∧ ldVent.Plain (leafOf 1) (page + 16) 2 ∧ ldVent.Uncached (page + 16) 2 ∧ isCompute ldVent.cur = false :=
  ⟨issues rfl, rfl, rfl, ⟨⟨_, 0, _, _, rfl, rfl, rfl, rfl⟩, rfl, rfl⟩, plain rfl (.inl rfl) rfl, uncached rfl, rfl⟩
theorem witness_stores_at_the_home_3 : ldVent.Issues .loadStore [3, 4, 5] ∧ ldVent.Sound (3 : BitVec 4) ∧ ldVent.Sound (4 : BitVec 4) ∧ ldVent.Sound (5 : BitVec 4) ∧ ldVent.OnPage (BitVec.setWidth 64 (2 : BitVec 3) <<< 61 + ldVent.val (4 : BitVec 4) + ldVent.val (5 : BitVec 4) <<< BitVec.toNat (2 : BitVec 2)) 1 [.w] (leafOf 1) (page + 16) ∧ ldVent.Plain (leafOf 1) (page + 16) 1 ∧ ldVent.Uncached (page + 16) 1 ∧ isCompute ldVent.cur = false :=
  ⟨issues rfl, rfl, rfl, rfl, ⟨⟨_, 0, _, _, rfl, rfl, rfl, rfl⟩, rfl, rfl⟩, plain rfl (.inl rfl) rfl, uncached rfl, rfl⟩
theorem witness_stores_at_the_home_4 : ldVent.Issues .loadStore [3, 4, 5] ∧ ldVent.Sound (3 : BitVec 4) ∧ ldVent.Sound (4 : BitVec 4) ∧ ldVent.Sound (5 : BitVec 4) ∧ ldVent.OnPage (BitVec.setWidth 64 (2 : BitVec 3) <<< 61 + ldVent.val (4 : BitVec 4) + ldVent.val (5 : BitVec 4) <<< BitVec.toNat (2 : BitVec 2)) 2 [.w] (leafOf 1) (page + 16) ∧ ldVent.Plain (leafOf 1) (page + 16) 2 ∧ ldVent.Uncached (page + 16) 2 ∧ isCompute ldVent.cur = false :=
  ⟨issues rfl, rfl, rfl, rfl, ⟨⟨_, 0, _, _, rfl, rfl, rfl, rfl⟩, rfl, rfl⟩, plain rfl (.inl rfl) rfl, uncached rfl, rfl⟩
theorem witness_stores_to_owned_1 : ldOwn.Issues .loadStore [3, 4] ∧ ldOwn.Sound (3 : BitVec 4) ∧ ldOwn.Sound (4 : BitVec 4) ∧ ldOwn.OnPage (BitVec.setWidth 64 (2 : BitVec 3) <<< 61 + ldOwn.val (4 : BitVec 4) + BitVec.signExtend 64 (0 : BitVec 11) * BitVec.ofNat 64 1) 1 [.w] (leafOf 1) (page + 16) ∧ ldOwn.Plain (leafOf 1) (page + 16) 1 ∧ ldOwn.Uncached (page + 16) 1 ∧ isCompute ldOwn.cur = true ∧ Leaf.cls (leafOf 1) ≠ 0 ∧ ldOwn.Fits :=
  ⟨issues rfl, rfl, rfl, ⟨⟨_, 0, _, _, rfl, rfl, rfl, rfl⟩, rfl, rfl⟩, plain rfl (.inl rfl) rfl, uncached rfl, rfl, by decide, by unfold State.Fits; decide⟩
theorem witness_stores_to_owned_2 : ldOwn.Issues .loadStore [3, 4] ∧ ldOwn.Sound (3 : BitVec 4) ∧ ldOwn.Sound (4 : BitVec 4) ∧ ldOwn.OnPage (BitVec.setWidth 64 (2 : BitVec 3) <<< 61 + ldOwn.val (4 : BitVec 4) + BitVec.signExtend 64 (0 : BitVec 11) * BitVec.ofNat 64 2) 2 [.w] (leafOf 1) (page + 16) ∧ ldOwn.Plain (leafOf 1) (page + 16) 2 ∧ ldOwn.Uncached (page + 16) 2 ∧ isCompute ldOwn.cur = true ∧ Leaf.cls (leafOf 1) ≠ 0 ∧ ldOwn.Fits :=
  ⟨issues rfl, rfl, rfl, ⟨⟨_, 0, _, _, rfl, rfl, rfl, rfl⟩, rfl, rfl⟩, plain rfl (.inl rfl) rfl, uncached rfl, rfl, by decide, by unfold State.Fits; decide⟩
theorem witness_stores_to_owned_3 : ldOwn.Issues .loadStore [3, 4, 5] ∧ ldOwn.Sound (3 : BitVec 4) ∧ ldOwn.Sound (4 : BitVec 4) ∧ ldOwn.Sound (5 : BitVec 4) ∧ ldOwn.OnPage (BitVec.setWidth 64 (2 : BitVec 3) <<< 61 + ldOwn.val (4 : BitVec 4) + ldOwn.val (5 : BitVec 4) <<< BitVec.toNat (2 : BitVec 2)) 1 [.w] (leafOf 1) (page + 16) ∧ ldOwn.Plain (leafOf 1) (page + 16) 1 ∧ ldOwn.Uncached (page + 16) 1 ∧ isCompute ldOwn.cur = true ∧ Leaf.cls (leafOf 1) ≠ 0 ∧ ldOwn.Fits :=
  ⟨issues rfl, rfl, rfl, rfl, ⟨⟨_, 0, _, _, rfl, rfl, rfl, rfl⟩, rfl, rfl⟩, plain rfl (.inl rfl) rfl, uncached rfl, rfl, by decide, by unfold State.Fits; decide⟩
theorem witness_stores_to_owned_4 : ldOwn.Issues .loadStore [3, 4, 5] ∧ ldOwn.Sound (3 : BitVec 4) ∧ ldOwn.Sound (4 : BitVec 4) ∧ ldOwn.Sound (5 : BitVec 4) ∧ ldOwn.OnPage (BitVec.setWidth 64 (2 : BitVec 3) <<< 61 + ldOwn.val (4 : BitVec 4) + ldOwn.val (5 : BitVec 4) <<< BitVec.toNat (2 : BitVec 2)) 2 [.w] (leafOf 1) (page + 16) ∧ ldOwn.Plain (leafOf 1) (page + 16) 2 ∧ ldOwn.Uncached (page + 16) 2 ∧ isCompute ldOwn.cur = true ∧ Leaf.cls (leafOf 1) ≠ 0 ∧ ldOwn.Fits :=
  ⟨issues rfl, rfl, rfl, rfl, ⟨⟨_, 0, _, _, rfl, rfl, rfl, rfl⟩, rfl, rfl⟩, plain rfl (.inl rfl) rfl, uncached rfl, rfl, by decide, by unfold State.Fits; decide⟩
theorem witness_stores_in_nc_1 : ldNc.Issues .loadStore [3, 4] ∧ ldNc.Sound (3 : BitVec 4) ∧ ldNc.Sound (4 : BitVec 4) ∧ ldNc.OnPage (BitVec.setWidth 64 (2 : BitVec 3) <<< 61 + ldNc.val (4 : BitVec 4) + BitVec.signExtend 64 (0 : BitVec 11) * BitVec.ofNat 64 1) 1 [.w] (leafOf 0) (page + 16) ∧ ldNc.Plain (leafOf 0) (page + 16) 1 ∧ ldNc.Uncached (page + 16) 1 ∧ isCompute ldNc.cur = true ∧ Leaf.cls (leafOf 0) = 0 ∧ ldNc.Fits :=
  ⟨issues rfl, rfl, rfl, ⟨⟨_, 0, _, _, rfl, rfl, rfl, rfl⟩, rfl, rfl⟩, plain rfl (.inl rfl) rfl, uncached rfl, rfl, rfl, by unfold State.Fits; decide⟩
theorem witness_stores_in_nc_2 : ldNc.Issues .loadStore [3, 4] ∧ ldNc.Sound (3 : BitVec 4) ∧ ldNc.Sound (4 : BitVec 4) ∧ ldNc.OnPage (BitVec.setWidth 64 (2 : BitVec 3) <<< 61 + ldNc.val (4 : BitVec 4) + BitVec.signExtend 64 (0 : BitVec 11) * BitVec.ofNat 64 2) 2 [.w] (leafOf 0) (page + 16) ∧ ldNc.Plain (leafOf 0) (page + 16) 2 ∧ ldNc.Uncached (page + 16) 2 ∧ isCompute ldNc.cur = true ∧ Leaf.cls (leafOf 0) = 0 ∧ ldNc.Fits :=
  ⟨issues rfl, rfl, rfl, ⟨⟨_, 0, _, _, rfl, rfl, rfl, rfl⟩, rfl, rfl⟩, plain rfl (.inl rfl) rfl, uncached rfl, rfl, rfl, by unfold State.Fits; decide⟩
theorem witness_stores_in_nc_3 : ldNc.Issues .loadStore [3, 4, 5] ∧ ldNc.Sound (3 : BitVec 4) ∧ ldNc.Sound (4 : BitVec 4) ∧ ldNc.Sound (5 : BitVec 4) ∧ ldNc.OnPage (BitVec.setWidth 64 (2 : BitVec 3) <<< 61 + ldNc.val (4 : BitVec 4) + ldNc.val (5 : BitVec 4) <<< BitVec.toNat (2 : BitVec 2)) 1 [.w] (leafOf 0) (page + 16) ∧ ldNc.Plain (leafOf 0) (page + 16) 1 ∧ ldNc.Uncached (page + 16) 1 ∧ isCompute ldNc.cur = true ∧ Leaf.cls (leafOf 0) = 0 ∧ ldNc.Fits :=
  ⟨issues rfl, rfl, rfl, rfl, ⟨⟨_, 0, _, _, rfl, rfl, rfl, rfl⟩, rfl, rfl⟩, plain rfl (.inl rfl) rfl, uncached rfl, rfl, rfl, by unfold State.Fits; decide⟩
theorem witness_stores_in_nc_4 : ldNc.Issues .loadStore [3, 4, 5] ∧ ldNc.Sound (3 : BitVec 4) ∧ ldNc.Sound (4 : BitVec 4) ∧ ldNc.Sound (5 : BitVec 4) ∧ ldNc.OnPage (BitVec.setWidth 64 (2 : BitVec 3) <<< 61 + ldNc.val (4 : BitVec 4) + ldNc.val (5 : BitVec 4) <<< BitVec.toNat (2 : BitVec 2)) 2 [.w] (leafOf 0) (page + 16) ∧ ldNc.Plain (leafOf 0) (page + 16) 2 ∧ ldNc.Uncached (page + 16) 2 ∧ isCompute ldNc.cur = true ∧ Leaf.cls (leafOf 0) = 0 ∧ ldNc.Fits :=
  ⟨issues rfl, rfl, rfl, rfl, ⟨⟨_, 0, _, _, rfl, rfl, rfl, rfl⟩, rfl, rfl⟩, plain rfl (.inl rfl) rfl, uncached rfl, rfl, rfl, by unfold State.Fits; decide⟩
theorem witness_stores_in_nc_stack_1 : (stacked ldNc).Issues .loadStore [3, 14] ∧ (stacked ldNc).Sound (3 : BitVec 4) ∧ (stacked ldNc).Sound (14 : BitVec 4) ∧ (stacked ldNc).OnPage ((1 : Word) <<< 61 + (stacked ldNc).val (14 : BitVec 4) + BitVec.setWidth 64 (1 : BitVec 6) * (8 : Word)) 8 [.w] (leafOf 0) (page + 16) ∧ (stacked ldNc).Plain (leafOf 0) (page + 16) 8 ∧ (stacked ldNc).Uncached (page + 16) 8 ∧ isCompute (stacked ldNc).cur = true ∧ Leaf.cls (leafOf 0) = 0 ∧ (stacked ldNc).Fits :=
  ⟨issues rfl, rfl, rfl, ⟨⟨_, 0, _, _, rfl, rfl, rfl, rfl⟩, rfl, rfl⟩, plain rfl (.inl rfl) rfl, uncached rfl, rfl, rfl, by unfold State.Fits; decide⟩
theorem witness_loads_from_stack_1 : ldOwnStack.Issues .loadStore [3, 14] ∧ ldOwnStack.Sound (14 : BitVec 4) ∧ ldOwnStack.OnPage ((1 : Word) <<< 61 + ldOwnStack.val (14 : BitVec 4) + BitVec.setWidth 64 (1 : BitVec 6) * (8 : Word)) 8 [.r] (leafOf 1) (page + 16) ∧ ldOwnStack.Plain (leafOf 1) (page + 16) 8 ∧ ldOwnStack.Canonical :=
  ⟨issues rfl, rfl, ⟨⟨_, 0, _, _, rfl, rfl, rfl, rfl⟩, rfl, rfl⟩, plain rfl (.inl rfl) rfl, canonical rfl rfl⟩
theorem witness_stores_to_stack_at_the_home_1 : ldVentStack.Issues .loadStore [3, 14] ∧ ldVentStack.Sound (3 : BitVec 4) ∧ ldVentStack.Sound (14 : BitVec 4) ∧ ldVentStack.OnPage ((1 : Word) <<< 61 + ldVentStack.val (14 : BitVec 4) + BitVec.setWidth 64 (1 : BitVec 6) * (8 : Word)) 8 [.w] (leafOf 1) (page + 16) ∧ ldVentStack.Plain (leafOf 1) (page + 16) 8 ∧ ldVentStack.Uncached (page + 16) 8 ∧ isCompute ldVentStack.cur = false :=
  ⟨issues rfl, rfl, rfl, ⟨⟨_, 0, _, _, rfl, rfl, rfl, rfl⟩, rfl, rfl⟩, plain rfl (.inl rfl) rfl, uncached rfl, rfl⟩
theorem witness_stores_to_owned_stack_1 : ldOwnStack.Issues .loadStore [3, 14] ∧ ldOwnStack.Sound (3 : BitVec 4) ∧ ldOwnStack.Sound (14 : BitVec 4) ∧ ldOwnStack.OnPage ((1 : Word) <<< 61 + ldOwnStack.val (14 : BitVec 4) + BitVec.setWidth 64 (1 : BitVec 6) * (8 : Word)) 8 [.w] (leafOf 1) (page + 16) ∧ ldOwnStack.Plain (leafOf 1) (page + 16) 8 ∧ ldOwnStack.Uncached (page + 16) 8 ∧ isCompute ldOwnStack.cur = true ∧ Leaf.cls (leafOf 1) ≠ 0 ∧ ldOwnStack.Fits :=
  ⟨issues rfl, rfl, rfl, ⟨⟨_, 0, _, _, rfl, rfl, rfl, rfl⟩, rfl, rfl⟩, plain rfl (.inl rfl) rfl, uncached rfl, rfl, by decide, by unfold State.Fits; decide⟩
theorem witness_load_traps_1 : ldWild.Handles ∧ ldWild.Issues .loadStore [3, 4] ∧ ldWild.Sound (4 : BitVec 4) ∧ checkIn ldWild.now.win (BitVec.setWidth 64 (0 : BitVec 3) <<< 61 + ldWild.val (4 : BitVec 4) + BitVec.signExtend 64 (1 : BitVec 11) * BitVec.ofNat 64 1) 1 [.r] = Except.error (Cause.window, (68719476721 : Word)) :=
  ⟨⟨rfl, rfl⟩, issues rfl, rfl, rfl⟩
theorem witness_load_traps_2 : ldWild.Handles ∧ ldWild.Issues .loadStore [3, 4, 5] ∧ ldWild.Sound (4 : BitVec 4) ∧ ldWild.Sound (5 : BitVec 4) ∧ checkIn ldWild.now.win (BitVec.setWidth 64 (0 : BitVec 3) <<< 61 + ldWild.val (4 : BitVec 4) + ldWild.val (5 : BitVec 4) <<< BitVec.toNat (0 : BitVec 2)) 1 [.r] = Except.error (Cause.window, (68719476721 : Word)) :=
  ⟨⟨rfl, rfl⟩, issues rfl, rfl, rfl, rfl⟩
theorem witness_load_traps_3 : ldWild.Handles ∧ ldWild.Issues .loadStore [3, 4] ∧ ldWild.Sound (3 : BitVec 4) ∧ ldWild.Sound (4 : BitVec 4) ∧ checkIn ldWild.now.win (BitVec.setWidth 64 (0 : BitVec 3) <<< 61 + ldWild.val (4 : BitVec 4) + BitVec.signExtend 64 (1 : BitVec 11) * BitVec.ofNat 64 1) 1 [.w] = Except.error (Cause.window, (68719476721 : Word)) :=
  ⟨⟨rfl, rfl⟩, issues rfl, rfl, rfl, rfl⟩
theorem witness_load_traps_4 : ldWild.Handles ∧ ldWild.Issues .loadStore [3, 4, 5] ∧ ldWild.Sound (3 : BitVec 4) ∧ ldWild.Sound (4 : BitVec 4) ∧ ldWild.Sound (5 : BitVec 4) ∧ checkIn ldWild.now.win (BitVec.setWidth 64 (0 : BitVec 3) <<< 61 + ldWild.val (4 : BitVec 4) + ldWild.val (5 : BitVec 4) <<< BitVec.toNat (0 : BitVec 2)) 1 [.w] = Except.error (Cause.window, (68719476721 : Word)) :=
  ⟨⟨rfl, rfl⟩, issues rfl, rfl, rfl, rfl, rfl⟩
theorem witness_load_traps_5 : ldWild.Handles ∧ ldWild.Issues .loadStore [3, 4, 5] ∧ ldWild.Sound (4 : BitVec 4) ∧ ldWild.Sound (5 : BitVec 4) ∧ checkIn ldWild.now.win (BitVec.setWidth 64 (0 : BitVec 3) <<< 61 + ldWild.val (4 : BitVec 4) + ldWild.val (5 : BitVec 4) <<< BitVec.toNat (0 : BitVec 2)) 2 [.r] = Except.error (Cause.align, (68719476721 : Word)) :=
  ⟨⟨rfl, rfl⟩, issues rfl, rfl, rfl, rfl⟩
theorem witness_load_traps_6 : ldWild.Handles ∧ ldWild.Issues .loadStore [3, 4, 5] ∧ ldWild.Sound (4 : BitVec 4) ∧ ldWild.Sound (5 : BitVec 4) ∧ checkIn ldWild.now.win (BitVec.setWidth 64 (0 : BitVec 3) <<< 61 + ldWild.val (4 : BitVec 4) + ldWild.val (5 : BitVec 4) <<< BitVec.toNat (0 : BitVec 2)) 4 [.r] = Except.error (Cause.align, (68719476721 : Word)) :=
  ⟨⟨rfl, rfl⟩, issues rfl, rfl, rfl, rfl⟩
theorem witness_load_traps_7 : ldWild.Handles ∧ ldWild.Issues .loadStore [3, 4, 5] ∧ ldWild.Sound (3 : BitVec 4) ∧ ldWild.Sound (4 : BitVec 4) ∧ ldWild.Sound (5 : BitVec 4) ∧ checkIn ldWild.now.win (BitVec.setWidth 64 (0 : BitVec 3) <<< 61 + ldWild.val (4 : BitVec 4) + ldWild.val (5 : BitVec 4) <<< BitVec.toNat (0 : BitVec 2)) 2 [.w] = Except.error (Cause.align, (68719476721 : Word)) :=
  ⟨⟨rfl, rfl⟩, issues rfl, rfl, rfl, rfl, rfl⟩
theorem witness_load_traps_8 : ldWild.Handles ∧ ldWild.Issues .loadStore [3, 4, 5] ∧ ldWild.Sound (3 : BitVec 4) ∧ ldWild.Sound (4 : BitVec 4) ∧ ldWild.Sound (5 : BitVec 4) ∧ checkIn ldWild.now.win (BitVec.setWidth 64 (0 : BitVec 3) <<< 61 + ldWild.val (4 : BitVec 4) + ldWild.val (5 : BitVec 4) <<< BitVec.toNat (0 : BitVec 2)) 4 [.w] = Except.error (Cause.align, (68719476721 : Word)) :=
  ⟨⟨rfl, rfl⟩, issues rfl, rfl, rfl, rfl, rfl⟩
theorem witness_load_residues_1 : (ldTorn (4 : BitVec 4)).Handles ∧ (ldTorn (4 : BitVec 4)).Issues .loadStore [3, 4] ∧ ¬(ldTorn (4 : BitVec 4)).Sound (4 : BitVec 4) ∧ ((4 : BitVec 4) ≠ (4 : BitVec 4) → (ldTorn (4 : BitVec 4)).Sound (4 : BitVec 4)) :=
  ⟨⟨rfl, rfl⟩, issues rfl, (fun h => absurd (show (_ : BitVec 4) = _ from h) (by decide)), by simp⟩
theorem witness_load_residues_2 : (ldTorn (4 : BitVec 4)).Handles ∧ (ldTorn (4 : BitVec 4)).Issues .loadStore [3, 4, 5] ∧ ¬(ldTorn (4 : BitVec 4)).Sound (4 : BitVec 4) ∧ ((4 : BitVec 4) ≠ (4 : BitVec 4) → (ldTorn (4 : BitVec 4)).Sound (4 : BitVec 4)) ∧ ((5 : BitVec 4) ≠ (4 : BitVec 4) → (ldTorn (4 : BitVec 4)).Sound (5 : BitVec 4)) :=
  ⟨⟨rfl, rfl⟩, issues rfl, (fun h => absurd (show (_ : BitVec 4) = _ from h) (by decide)), by simp, (fun r => rfl)⟩
theorem witness_load_residues_3 : (ldTorn (4 : BitVec 4)).Handles ∧ (ldTorn (4 : BitVec 4)).Issues .loadStore [3, 4] ∧ ¬(ldTorn (4 : BitVec 4)).Sound (4 : BitVec 4) ∧ ((3 : BitVec 4) ≠ (4 : BitVec 4) → (ldTorn (4 : BitVec 4)).Sound (3 : BitVec 4)) ∧ ((4 : BitVec 4) ≠ (4 : BitVec 4) → (ldTorn (4 : BitVec 4)).Sound (4 : BitVec 4)) :=
  ⟨⟨rfl, rfl⟩, issues rfl, (fun h => absurd (show (_ : BitVec 4) = _ from h) (by decide)), (fun r => rfl), by simp⟩
theorem witness_load_residues_4 : (ldTorn (4 : BitVec 4)).Handles ∧ (ldTorn (4 : BitVec 4)).Issues .loadStore [3, 4, 5] ∧ ¬(ldTorn (4 : BitVec 4)).Sound (4 : BitVec 4) ∧ ((3 : BitVec 4) ≠ (4 : BitVec 4) → (ldTorn (4 : BitVec 4)).Sound (3 : BitVec 4)) ∧ ((4 : BitVec 4) ≠ (4 : BitVec 4) → (ldTorn (4 : BitVec 4)).Sound (4 : BitVec 4)) ∧ ((5 : BitVec 4) ≠ (4 : BitVec 4) → (ldTorn (4 : BitVec 4)).Sound (5 : BitVec 4)) :=
  ⟨⟨rfl, rfl⟩, issues rfl, (fun h => absurd (show (_ : BitVec 4) = _ from h) (by decide)), (fun r => rfl), by simp, (fun r => rfl)⟩
theorem witness_load_residues_5 : (ldTorn (5 : BitVec 4)).Handles ∧ (ldTorn (5 : BitVec 4)).Issues .loadStore [3, 4, 5] ∧ ¬(ldTorn (5 : BitVec 4)).Sound (5 : BitVec 4) ∧ ((4 : BitVec 4) ≠ (5 : BitVec 4) → (ldTorn (5 : BitVec 4)).Sound (4 : BitVec 4)) ∧ ((5 : BitVec 4) ≠ (5 : BitVec 4) → (ldTorn (5 : BitVec 4)).Sound (5 : BitVec 4)) :=
  ⟨⟨rfl, rfl⟩, issues rfl, (fun h => absurd (show (_ : BitVec 4) = _ from h) (by decide)), (fun r => rfl), by simp⟩
theorem witness_load_residues_6 : (ldTorn (5 : BitVec 4)).Handles ∧ (ldTorn (5 : BitVec 4)).Issues .loadStore [3, 4, 5] ∧ ¬(ldTorn (5 : BitVec 4)).Sound (5 : BitVec 4) ∧ ((3 : BitVec 4) ≠ (5 : BitVec 4) → (ldTorn (5 : BitVec 4)).Sound (3 : BitVec 4)) ∧ ((4 : BitVec 4) ≠ (5 : BitVec 4) → (ldTorn (5 : BitVec 4)).Sound (4 : BitVec 4)) ∧ ((5 : BitVec 4) ≠ (5 : BitVec 4) → (ldTorn (5 : BitVec 4)).Sound (5 : BitVec 4)) :=
  ⟨⟨rfl, rfl⟩, issues rfl, (fun h => absurd (show (_ : BitVec 4) = _ from h) (by decide)), (fun r => rfl), (fun r => rfl), by simp⟩
theorem witness_load_residues_7 : (ldTorn (14 : BitVec 4)).Handles ∧ (ldTorn (14 : BitVec 4)).Issues .loadStore [3, 14] ∧ ¬(ldTorn (14 : BitVec 4)).Sound (14 : BitVec 4) ∧ ((14 : BitVec 4) ≠ (14 : BitVec 4) → (ldTorn (14 : BitVec 4)).Sound (14 : BitVec 4)) :=
  ⟨⟨rfl, rfl⟩, issues rfl, (fun h => absurd (show (_ : BitVec 4) = _ from h) (by decide)), by simp⟩
theorem witness_load_residues_8 : (ldTorn (14 : BitVec 4)).Handles ∧ (ldTorn (14 : BitVec 4)).Issues .loadStore [3, 14] ∧ ¬(ldTorn (14 : BitVec 4)).Sound (14 : BitVec 4) ∧ ((3 : BitVec 4) ≠ (14 : BitVec 4) → (ldTorn (14 : BitVec 4)).Sound (3 : BitVec 4)) ∧ ((14 : BitVec 4) ≠ (14 : BitVec 4) → (ldTorn (14 : BitVec 4)).Sound (14 : BitVec 4)) :=
  ⟨⟨rfl, rfl⟩, issues rfl, (fun h => absurd (show (_ : BitVec 4) = _ from h) (by decide)), (fun r => rfl), by simp⟩

/-! ## Atomics, fences, monitors, barriers, maintenance -/

def fenceCore : Core := { Core.initial with tile := ldTile, l1 := [(page / 4 + 4, ⟨0x91223384, true, 0x5, false, 0⟩), (page / 4 + 9, ⟨0x91223384, false, 0, false, 0⟩), (page / 4 + 10, ⟨7, false, 0xF, true, 0⟩)] }
def fenceBox : State := { box [(4, 2 ^ 61 + 16), (5, 2)] with cores := [(0, fenceCore)], mem := ldMem }
/-- Three windows after a write to another package, its flip over. -/
def fenceSettled : State := { fenceBox.setThread 0 { fenceBox.now with window := some 0, bias := [⟨0, true, some 3, none, some true⟩] } with gtime := 9000000 }
def fenceLease : State := fenceBox.setThread 0 { fenceBox.now with lease := some 0x77 }
def fenceVent : State := { vent [] with cores := [(0x400000, fenceCore)], mem := ldMem }
def monBox (f : Thread → Thread) : State := fenceBox.setThread 0 (f { fenceBox.now with mon := fenceBox.now.mon.set 1 ⟨page + 16, true, true⟩ })
def monLatched : State := monBox id
def monArmed : State := monBox fun t => { t with mon := t.mon.set 1 ⟨page + 16, true, false⟩ }
def monPage : State := { box [(4, 16), (5, 0)] with cores := [(0, ldFar)], mem := ldMem }
def monStrong : State := { box [(4, 16), (5, 0)] 0 with cores := [(0, ldFar)], mem := ldMem }
/-- A thread with DBG on SC memory, whose line a host port has read just now, or long ago. -/
def monRaced (ago : Nat) : State :=
  let s := { box [(4, 16), (5, 0)] 2 with mem := ldMem, gtime := 5000 }
  { s.setThread 0 { s.now with dbg := true } with host := { s.host with reads := [((page + 16) / 64, 5000 - ago)] } }
/-- A barrier word at tile address 16, and s5. -/
def barBox (w x : Nat) : State :=
  { box [(4, 2 ^ 61 + 16), (5, BitVec.ofNat 64 x)] with cores := [(0, { ldOther with tile := Memory.writeN ldTile 16 (leBytes 8 w) })], mem := ldMem }
def barLast : State := barBox 0x0000000700010003 7
def barWrap : State := barBox 0xFFFFFFFF00010001 0xFFFFFFFF
def barMore : State := barBox 0x0000000700020003 8
def barWrong : State := barBox 0x0000000700040003 8
def barZero : State := barBox 0 0
/-- A range of n bytes from offset 60, lines of the L1 round it. -/
def mtBox (n : Nat) : State :=
  { box [(4, 60), (5, BitVec.ofNat 64 n)] with mem := ldMem, cores := [(0, { ldOther with l1 := [(page / 4 + 1, ⟨1, true, 0xF, false, 0⟩),
    (page / 4 + 15, ⟨0x01020304, true, 0x5, false, 0⟩), (page / 4 + 16, ⟨2, false, 0xF, true, 0⟩), (page / 4 + 40, ⟨0x01020304, false, 0, false, 0⟩)] })] }
def mtNone : State := mtBox 0
def mtMuch : State := mtBox (2 ^ 24 + 1)
def mtFive : State := mtBox 5
def mtMost : State := mtBox 4036
/-- The same range across two pages, of one class. -/
def mtTwo (cls n : Nat) : State :=
  { mtBox n with
    clusters := [(0, { Cluster.initial with pager := { pager cls with cache := [⟨0, 5, 0, 4096, leafOf cls, false⟩, ⟨0, 5, 4096, 4096, leafOf cls + 1 <<< 32, false⟩] } })]
    lines := [⟨0, 0, 0, page, 0xFFFF⟩] }
def mtPage (cls : Nat) (v : Nat → Nat) (i : Nat) : Word × Nat := (leafOf cls + BitVec.ofNat 64 i <<< 32, page + 4096 * i + v i)

theorem witness_atomics_on_tile_1 : fenceBox.Issues .atomic [3, 4, 5] ∧ fenceBox.Sound (4 : BitVec 4) ∧ fenceBox.Sound (5 : BitVec 4) ∧ fenceBox.OnTile (BitVec.setWidth 64 (0 : BitVec 3) <<< 61 + fenceBox.val (4 : BitVec 4)) (32 / 8 : Nat) [.a, .w] 0 16 16 ∧ fenceBox.poisonedAt (Place.tile 0) 16 (32 / 8 : Nat) = false ∧ fenceBox.Unmixed (2 ^ 72 + 16) (32 / 8 : Nat) :=
  ⟨issues rfl, rfl, rfl, ⟨rfl, rfl, rfl, rfl, .inl rfl⟩, rfl, by unfold State.Unmixed; decide +kernel⟩
theorem witness_atomics_on_tile_2 : fenceBox.Issues .atomic [3, 4, 5] ∧ fenceBox.Sound (4 : BitVec 4) ∧ fenceBox.Sound (5 : BitVec 4) ∧ fenceBox.Sound (3 : BitVec 4) ∧ fenceBox.OnTile (BitVec.setWidth 64 (0 : BitVec 3) <<< 61 + fenceBox.val (4 : BitVec 4)) (32 / 8 : Nat) [.a, .w] 0 16 16 ∧ fenceBox.poisonedAt (Place.tile 0) 16 (32 / 8 : Nat) = false ∧ fenceBox.Unmixed (2 ^ 72 + 16) (32 / 8 : Nat) :=
  ⟨issues rfl, rfl, rfl, rfl, ⟨rfl, rfl, rfl, rfl, .inl rfl⟩, rfl, by unfold State.Unmixed; decide +kernel⟩
theorem witness_atomics_on_tile_3 : fenceBox.Issues .atomic [3, 4, 5] ∧ fenceBox.Sound (4 : BitVec 4) ∧ fenceBox.Sound (5 : BitVec 4) ∧ fenceBox.OnTile (BitVec.setWidth 64 (0 : BitVec 3) <<< 61 + fenceBox.val (4 : BitVec 4)) ((if True then 64 else 32) / 8) [.a, .w] 0 16 16 ∧ fenceBox.poisonedAt (Place.tile 0) 16 ((if True then 64 else 32) / 8) = false ∧ fenceBox.Unmixed (2 ^ 72 + 16) ((if True then 64 else 32) / 8) :=
  ⟨issues rfl, rfl, rfl, ⟨rfl, rfl, rfl, rfl, .inl rfl⟩, rfl, by unfold State.Unmixed; decide +kernel⟩
theorem witness_atomics_on_tile_4 : fenceBox.Issues .atomic [3, 4, 5] ∧ fenceBox.Sound (4 : BitVec 4) ∧ fenceBox.Sound (5 : BitVec 4) ∧ fenceBox.Sound (3 : BitVec 4) ∧ fenceBox.OnTile (BitVec.setWidth 64 (0 : BitVec 3) <<< 61 + fenceBox.val (4 : BitVec 4)) ((if True then 64 else 32) / 8) [.a, .w] 0 16 16 ∧ fenceBox.poisonedAt (Place.tile 0) 16 ((if True then 64 else 32) / 8) = false ∧ fenceBox.Unmixed (2 ^ 72 + 16) ((if True then 64 else 32) / 8) :=
  ⟨issues rfl, rfl, rfl, rfl, ⟨rfl, rfl, rfl, rfl, .inl rfl⟩, rfl, by unfold State.Unmixed; decide +kernel⟩
theorem witness_atomics_on_memory_1 : ldOwn.Issues .atomic [3, 4, 5] ∧ ldOwn.Sound (4 : BitVec 4) ∧ ldOwn.Sound (5 : BitVec 4) ∧ ldOwn.OnPage (BitVec.setWidth 64 (0 : BitVec 3) <<< 61 + ldOwn.val (4 : BitVec 4)) (32 / 8 : Nat) [.a, .w] (leafOf 1) (page + 16) ∧ ldOwn.Plain (leafOf 1) (page + 16) (32 / 8 : Nat) ∧ ldOwn.Uncached (page + 16) (32 / 8 : Nat) ∧ ldOwn.Canonical ∧ ldOwn.Unmixed (page + 16) (32 / 8 : Nat) ∧ ldOwn.Fits ∧ (ldOwn.now.dbg = true → ldOwn.hostReadLately (Target.mem (leafOf 1) (page + 16) false) = false) :=
  ⟨issues rfl, rfl, rfl, ⟨⟨_, 0, _, _, rfl, rfl, rfl, rfl⟩, rfl, rfl⟩, plain rfl (.inl rfl) rfl, uncached rfl, canonical rfl rfl, by unfold State.Unmixed; decide +kernel, by unfold State.Fits; decide, by decide⟩
theorem witness_atomics_on_memory_2 : ldOwn.Issues .atomic [3, 4, 5] ∧ ldOwn.Sound (4 : BitVec 4) ∧ ldOwn.Sound (5 : BitVec 4) ∧ ldOwn.Sound (3 : BitVec 4) ∧ ldOwn.OnPage (BitVec.setWidth 64 (0 : BitVec 3) <<< 61 + ldOwn.val (4 : BitVec 4)) (32 / 8 : Nat) [.a, .w] (leafOf 1) (page + 16) ∧ ldOwn.Plain (leafOf 1) (page + 16) (32 / 8 : Nat) ∧ ldOwn.Uncached (page + 16) (32 / 8 : Nat) ∧ ldOwn.Canonical ∧ ldOwn.Unmixed (page + 16) (32 / 8 : Nat) ∧ ldOwn.Fits ∧ (ldOwn.now.dbg = true → ldOwn.hostReadLately (Target.mem (leafOf 1) (page + 16) false) = false) :=
  ⟨issues rfl, rfl, rfl, rfl, ⟨⟨_, 0, _, _, rfl, rfl, rfl, rfl⟩, rfl, rfl⟩, plain rfl (.inl rfl) rfl, uncached rfl, canonical rfl rfl, by unfold State.Unmixed; decide +kernel, by unfold State.Fits; decide, by decide⟩
theorem witness_atomics_on_memory_vent_1 : ldVent.Issues .atomic [3, 4, 5] ∧ ldVent.Sound (4 : BitVec 4) ∧ ldVent.Sound (5 : BitVec 4) ∧ ldVent.OnPage (BitVec.setWidth 64 (0 : BitVec 3) <<< 61 + ldVent.val (4 : BitVec 4)) (32 / 8 : Nat) [.a, .w] (leafOf 1) (page + 16) ∧ ldVent.Plain (leafOf 1) (page + 16) (32 / 8 : Nat) ∧ ldVent.Uncached (page + 16) (32 / 8 : Nat) ∧ ldVent.Canonical ∧ ldVent.Unmixed (page + 16) (32 / 8 : Nat) ∧ ldVent.Fits ∧ (ldVent.now.dbg = true → ldVent.hostReadLately (Target.mem (leafOf 1) (page + 16) false) = false) :=
  ⟨issues rfl, rfl, rfl, ⟨⟨_, 0, _, _, rfl, rfl, rfl, rfl⟩, rfl, rfl⟩, plain rfl (.inl rfl) rfl, uncached rfl, canonical rfl rfl, by unfold State.Unmixed; decide +kernel, by unfold State.Fits; decide, by decide⟩
theorem witness_atomics_on_memory_vent_2 : ldVent.Issues .atomic [3, 4, 5] ∧ ldVent.Sound (4 : BitVec 4) ∧ ldVent.Sound (5 : BitVec 4) ∧ ldVent.Sound (3 : BitVec 4) ∧ ldVent.OnPage (BitVec.setWidth 64 (0 : BitVec 3) <<< 61 + ldVent.val (4 : BitVec 4)) (32 / 8 : Nat) [.a, .w] (leafOf 1) (page + 16) ∧ ldVent.Plain (leafOf 1) (page + 16) (32 / 8 : Nat) ∧ ldVent.Uncached (page + 16) (32 / 8 : Nat) ∧ ldVent.Canonical ∧ ldVent.Unmixed (page + 16) (32 / 8 : Nat) ∧ ldVent.Fits ∧ (ldVent.now.dbg = true → ldVent.hostReadLately (Target.mem (leafOf 1) (page + 16) false) = false) :=
  ⟨issues rfl, rfl, rfl, rfl, ⟨⟨_, 0, _, _, rfl, rfl, rfl, rfl⟩, rfl, rfl⟩, plain rfl (.inl rfl) rfl, uncached rfl, canonical rfl rfl, by unfold State.Unmixed; decide +kernel, by unfold State.Fits; decide, by decide⟩
theorem witness_atomics_on_memory_strong_1 : monStrong.Issues .atomic [3, 4, 5] ∧ monStrong.Sound (4 : BitVec 4) ∧ monStrong.Sound (5 : BitVec 4) ∧ monStrong.OnPage (BitVec.setWidth 64 (0 : BitVec 3) <<< 61 + monStrong.val (4 : BitVec 4)) ((if True then 64 else 32) / 8) [.a, .w] (leafOf 0) (page + 16) ∧ monStrong.Plain (leafOf 0) (page + 16) ((if True then 64 else 32) / 8) ∧ monStrong.Uncached (page + 16) ((if True then 64 else 32) / 8) ∧ monStrong.Canonical ∧ monStrong.Unmixed (page + 16) ((if True then 64 else 32) / 8) ∧ monStrong.Fits ∧ (monStrong.now.dbg = true → monStrong.hostReadLately (Target.mem (leafOf 0) (page + 16) false) = false) :=
  ⟨issues rfl, rfl, rfl, ⟨⟨_, 0, _, _, rfl, rfl, rfl, rfl⟩, rfl, rfl⟩, plain rfl (.inl rfl) rfl, uncached rfl, canonical rfl rfl, by unfold State.Unmixed; decide +kernel, by unfold State.Fits; decide, by decide⟩
theorem witness_atomics_on_memory_strong_2 : monStrong.Issues .atomic [3, 4, 5] ∧ monStrong.Sound (4 : BitVec 4) ∧ monStrong.Sound (5 : BitVec 4) ∧ monStrong.Sound (3 : BitVec 4) ∧ monStrong.OnPage (BitVec.setWidth 64 (0 : BitVec 3) <<< 61 + monStrong.val (4 : BitVec 4)) ((if True then 64 else 32) / 8) [.a, .w] (leafOf 0) (page + 16) ∧ monStrong.Plain (leafOf 0) (page + 16) ((if True then 64 else 32) / 8) ∧ monStrong.Uncached (page + 16) ((if True then 64 else 32) / 8) ∧ monStrong.Canonical ∧ monStrong.Unmixed (page + 16) ((if True then 64 else 32) / 8) ∧ monStrong.Fits ∧ (monStrong.now.dbg = true → monStrong.hostReadLately (Target.mem (leafOf 0) (page + 16) false) = false) :=
  ⟨issues rfl, rfl, rfl, rfl, ⟨⟨_, 0, _, _, rfl, rfl, rfl, rfl⟩, rfl, rfl⟩, plain rfl (.inl rfl) rfl, uncached rfl, canonical rfl rfl, by unfold State.Unmixed; decide +kernel, by unfold State.Fits; decide, by decide⟩
theorem witness_atomics_on_memory_raced_1 : (monRaced 1000).Issues .atomic [3, 4, 5] ∧ (monRaced 1000).Sound (4 : BitVec 4) ∧ (monRaced 1000).Sound (5 : BitVec 4) ∧ (monRaced 1000).OnPage (BitVec.setWidth 64 (0 : BitVec 3) <<< 61 + (monRaced 1000).val (4 : BitVec 4)) ((if True then 64 else 32) / 8) [.a, .w] (leafOf 2) (page + 16) ∧ (monRaced 1000).Plain (leafOf 2) (page + 16) ((if True then 64 else 32) / 8) ∧ (monRaced 1000).Uncached (page + 16) ((if True then 64 else 32) / 8) ∧ (monRaced 1000).Canonical ∧ (monRaced 1000).Unmixed (page + 16) ((if True then 64 else 32) / 8) ∧ (monRaced 1000).Fits ∧ (monRaced 1000).now.dbg = true ∧ (monRaced 1000).hostReadLately (Target.mem (leafOf 2) (page + 16) false) = true ∧ (monRaced 1000).Handles :=
  ⟨issues rfl, rfl, rfl, ⟨⟨_, 0, _, _, rfl, rfl, rfl, rfl⟩, rfl, rfl⟩, plain rfl (.inl rfl) rfl, uncached rfl, canonical rfl rfl, by unfold State.Unmixed; decide +kernel, by unfold State.Fits; decide, rfl, rfl, ⟨rfl, rfl⟩⟩
theorem witness_atomics_on_memory_raced_2 : (monRaced 1000).Issues .atomic [3, 4, 5] ∧ (monRaced 1000).Sound (4 : BitVec 4) ∧ (monRaced 1000).Sound (5 : BitVec 4) ∧ (monRaced 1000).Sound (3 : BitVec 4) ∧ (monRaced 1000).OnPage (BitVec.setWidth 64 (0 : BitVec 3) <<< 61 + (monRaced 1000).val (4 : BitVec 4)) ((if True then 64 else 32) / 8) [.a, .w] (leafOf 2) (page + 16) ∧ (monRaced 1000).Plain (leafOf 2) (page + 16) ((if True then 64 else 32) / 8) ∧ (monRaced 1000).Uncached (page + 16) ((if True then 64 else 32) / 8) ∧ (monRaced 1000).Canonical ∧ (monRaced 1000).Unmixed (page + 16) ((if True then 64 else 32) / 8) ∧ (monRaced 1000).Fits ∧ (monRaced 1000).now.dbg = true ∧ (monRaced 1000).hostReadLately (Target.mem (leafOf 2) (page + 16) false) = true ∧ (monRaced 1000).Handles :=
  ⟨issues rfl, rfl, rfl, rfl, ⟨⟨_, 0, _, _, rfl, rfl, rfl, rfl⟩, rfl, rfl⟩, plain rfl (.inl rfl) rfl, uncached rfl, canonical rfl rfl, by unfold State.Unmixed; decide +kernel, by unfold State.Fits; decide, rfl, rfl, ⟨rfl, rfl⟩⟩
theorem witness_atomics_on_memory_raced_3 : (monRaced 1001).Issues .atomic [3, 4, 5] ∧ (monRaced 1001).Sound (4 : BitVec 4) ∧ (monRaced 1001).Sound (5 : BitVec 4) ∧ (monRaced 1001).OnPage (BitVec.setWidth 64 (0 : BitVec 3) <<< 61 + (monRaced 1001).val (4 : BitVec 4)) (32 / 8 : Nat) [.a, .w] (leafOf 2) (page + 16) ∧ (monRaced 1001).Plain (leafOf 2) (page + 16) (32 / 8 : Nat) ∧ (monRaced 1001).Uncached (page + 16) (32 / 8 : Nat) ∧ (monRaced 1001).Canonical ∧ (monRaced 1001).Unmixed (page + 16) (32 / 8 : Nat) ∧ (monRaced 1001).Fits ∧ ((monRaced 1001).now.dbg = true → (monRaced 1001).hostReadLately (Target.mem (leafOf 2) (page + 16) false) = false) :=
  ⟨issues rfl, rfl, rfl, ⟨⟨_, 0, _, _, rfl, rfl, rfl, rfl⟩, rfl, rfl⟩, plain rfl (.inl rfl) rfl, uncached rfl, canonical rfl rfl, by unfold State.Unmixed; decide +kernel, by unfold State.Fits; decide, by decide⟩
theorem witness_atomics_on_memory_raced_4 : (monRaced 1001).Issues .atomic [3, 4, 5] ∧ (monRaced 1001).Sound (4 : BitVec 4) ∧ (monRaced 1001).Sound (5 : BitVec 4) ∧ (monRaced 1001).Sound (3 : BitVec 4) ∧ (monRaced 1001).OnPage (BitVec.setWidth 64 (0 : BitVec 3) <<< 61 + (monRaced 1001).val (4 : BitVec 4)) (32 / 8 : Nat) [.a, .w] (leafOf 2) (page + 16) ∧ (monRaced 1001).Plain (leafOf 2) (page + 16) (32 / 8 : Nat) ∧ (monRaced 1001).Uncached (page + 16) (32 / 8 : Nat) ∧ (monRaced 1001).Canonical ∧ (monRaced 1001).Unmixed (page + 16) (32 / 8 : Nat) ∧ (monRaced 1001).Fits ∧ ((monRaced 1001).now.dbg = true → (monRaced 1001).hostReadLately (Target.mem (leafOf 2) (page + 16) false) = false) :=
  ⟨issues rfl, rfl, rfl, rfl, ⟨⟨_, 0, _, _, rfl, rfl, rfl, rfl⟩, rfl, rfl⟩, plain rfl (.inl rfl) rfl, uncached rfl, canonical rfl rfl, by unfold State.Unmixed; decide +kernel, by unfold State.Fits; decide, by decide⟩
theorem witness_fences_1 : fenceBox.Issues .fence [] :=
  issues rfl
theorem witness_fences_2 : fenceBox.Issues .fence [] ∧ isCompute fenceBox.cur = true ∧ fenceBox.Canonical ∧ (∀ (m : Nat), fenceBox.now.window = some m → m + 2 ≤ fenceBox.windowNow) ∧ (fenceBox.now.bias.all fun (b : BiasReq) => b.outcome == some true) = true ∧ fenceBox.now.lease = none :=
  ⟨issues rfl, rfl, canonical rfl rfl, by decide, rfl, rfl⟩
theorem witness_fences_3 : fenceSettled.Issues .fence [] :=
  issues rfl
theorem witness_fences_4 : fenceSettled.Issues .fence [] ∧ isCompute fenceSettled.cur = true ∧ fenceSettled.Canonical ∧ (∀ (m : Nat), fenceSettled.now.window = some m → m + 2 ≤ fenceSettled.windowNow) ∧ (fenceSettled.now.bias.all fun (b : BiasReq) => b.outcome == some true) = true ∧ fenceSettled.now.lease = none :=
  ⟨issues rfl, rfl, canonical rfl rfl, by decide, rfl, rfl⟩
theorem witness_fences_5 : fenceLease.Issues .fence [] ∧ (∀ (m : Nat), fenceLease.now.window = some m → m + 2 ≤ fenceLease.windowNow) ∧ (fenceLease.now.bias.all fun (b : BiasReq) => b.outcome == some true) = true ∧ fenceLease.now.lease = some (119 : Word) ∧ fenceLease.Handles :=
  ⟨issues rfl, by decide, rfl, rfl, ⟨rfl, rfl⟩⟩
theorem witness_fences_6 : fenceVent.Issues .fence [] ∧ isCompute fenceVent.cur = false ∧ (∀ (m : Nat), fenceVent.now.window = some m → m + 2 ≤ fenceVent.windowNow) ∧ (fenceVent.now.bias.all fun (b : BiasReq) => b.outcome == some true) = true ∧ fenceVent.now.lease = none :=
  ⟨issues rfl, rfl, by decide, rfl, rfl⟩
theorem witness_monitors_1 : monLatched.Issues .fence [3, 4] ∧ monLatched.OnTile (monLatched.val (4 : BitVec 4)) 8 [.r] 0 16 16 ∧ monLatched.poisonedAt (Place.tile 0) 16 8 = false ∧ monLatched.Unmixed (2 ^ 72 + 16) 8 :=
  ⟨issues rfl, ⟨rfl, rfl, rfl, rfl, .inl rfl⟩, rfl, by unfold State.Unmixed; decide +kernel⟩
theorem witness_monitors_2 : monLatched.Issues .fence [3, 4] ∧ (BitVec.ofBool monLatched.now.mon[3].latch ++ BitVec.ofBool monLatched.now.mon[2].latch ++ BitVec.ofBool monLatched.now.mon[1].latch ++ BitVec.ofBool monLatched.now.mon[0].latch ≠ (0 : BitVec 4) ∨ monLatched.now.expired = true ∨ ∀ (x : Monitor), x ∈ monLatched.now.mon.toList → x.armed = false) :=
  ⟨issues rfl, by decide⟩
theorem witness_monitors_3 : monLatched.Issues .fence [] :=
  issues rfl
theorem witness_monitors_4 : monArmed.Issues .fence [3, 4] ∧ monArmed.OnTile (monArmed.val (4 : BitVec 4)) 8 [.r] 0 16 16 ∧ monArmed.poisonedAt (Place.tile 0) 16 8 = false ∧ monArmed.Unmixed (2 ^ 72 + 16) 8 :=
  ⟨issues rfl, ⟨rfl, rfl, rfl, rfl, .inl rfl⟩, rfl, by unfold State.Unmixed; decide +kernel⟩
theorem witness_monitors_5 : monArmed.Issues .fence [3, 4] ∧ BitVec.ofBool monArmed.now.mon[3].latch ++ BitVec.ofBool monArmed.now.mon[2].latch ++ BitVec.ofBool monArmed.now.mon[1].latch ++ BitVec.ofBool monArmed.now.mon[0].latch = (0 : BitVec 4) ∧ monArmed.now.expired = false ∧ (∃ (x : Monitor), x ∈ monArmed.now.mon.toList ∧ x.armed = true) :=
  ⟨issues rfl, rfl, rfl, by decide⟩
theorem witness_monitors_6 : monArmed.Issues .fence [] :=
  issues rfl
theorem witness_monitors_7 : monPage.Issues .fence [3, 4] ∧ monPage.OnPage (monPage.val (4 : BitVec 4)) 8 [.r] (leafOf 1) (page + 16) ∧ monPage.Plain (leafOf 1) (page + 16) 8 ∧ monPage.Uncached (page + 16) 8 ∧ monPage.Unmixed (page + 16) 8 :=
  ⟨issues rfl, ⟨⟨_, 0, _, _, rfl, rfl, rfl, rfl⟩, rfl, rfl⟩, plain rfl (.inl rfl) rfl, uncached rfl, by unfold State.Unmixed; decide +kernel⟩
theorem witness_monitors_8 : monPage.Issues .fence [3, 4] ∧ (BitVec.ofBool monPage.now.mon[3].latch ++ BitVec.ofBool monPage.now.mon[2].latch ++ BitVec.ofBool monPage.now.mon[1].latch ++ BitVec.ofBool monPage.now.mon[0].latch ≠ (0 : BitVec 4) ∨ monPage.now.expired = true ∨ ∀ (x : Monitor), x ∈ monPage.now.mon.toList → x.armed = false) :=
  ⟨issues rfl, by decide⟩
theorem witness_monitors_9 : monStrong.Issues .fence [3, 4] ∧ monStrong.OnPage (monStrong.val (4 : BitVec 4)) 8 [.r] (leafOf 0) (page + 16) ∧ monStrong.Plain (leafOf 0) (page + 16) 8 ∧ monStrong.Uncached (page + 16) 8 ∧ monStrong.Unmixed (page + 16) 8 :=
  ⟨issues rfl, ⟨⟨_, 0, _, _, rfl, rfl, rfl, rfl⟩, rfl, rfl⟩, plain rfl (.inl rfl) rfl, uncached rfl, by unfold State.Unmixed; decide +kernel⟩
theorem witness_barriers_1 : barLast.poisonedAt (Place.tile 0) 16 8 = false ∧ barLast.Unmixed (2 ^ 72 + 16) 8 ∧ barLast.Issues .barrier [3, 4] ∧ barLast.OnTile (barLast.val (4 : BitVec 4)) 8 [.a, .w] 0 16 16 ∧ BitVec.extractLsb' 16 16 (BitVec.ofNat 64 (barLast.tileBytes 0 16 8)) ≠ (0 : BitVec 16) ∧ BitVec.extractLsb' 0 16 (BitVec.ofNat 64 (barLast.tileBytes 0 16 8)) ≠ (0 : BitVec 16) ∧ (BitVec.extractLsb' 16 16 (BitVec.ofNat 64 (barLast.tileBytes 0 16 8))).toNat ≤ (BitVec.extractLsb' 0 16 (BitVec.ofNat 64 (barLast.tileBytes 0 16 8))).toNat :=
  ⟨rfl, by unfold State.Unmixed; decide +kernel, issues rfl, ⟨rfl, rfl, rfl, rfl, .inl rfl⟩, by decide, by decide, by decide⟩
theorem witness_barriers_2 : barLast.poisonedAt (Place.tile 0) 16 8 = false ∧ barLast.Unmixed (2 ^ 72 + 16) 8 ∧ barLast.Issues .barrier [4, 5] ∧ barLast.OnTile (barLast.val (4 : BitVec 4)) 8 [.r] 0 16 16 ∧ BitVec.extractLsb' 32 32 (BitVec.ofNat 64 (barLast.tileBytes 0 16 8)) = BitVec.setWidth 32 (barLast.val (5 : BitVec 4)) :=
  ⟨rfl, by unfold State.Unmixed; decide +kernel, issues rfl, ⟨rfl, rfl, rfl, rfl, .inl rfl⟩, rfl⟩
theorem witness_barriers_3 : barLast.poisonedAt (Place.tile 0) 16 8 = false ∧ barLast.Unmixed (2 ^ 72 + 16) 8 ∧ barLast.Issues .task [4] ∧ barLast.OnTile (barLast.val (4 : BitVec 4)) 8 [.r] 0 16 16 ∧ BitVec.ofNat 64 (barLast.tileBytes 0 16 8) ≠ (0 : Word) :=
  ⟨rfl, by unfold State.Unmixed; decide +kernel, issues rfl, ⟨rfl, rfl, rfl, rfl, .inl rfl⟩, by decide⟩
theorem witness_barriers_4 : barWrap.poisonedAt (Place.tile 0) 16 8 = false ∧ barWrap.Unmixed (2 ^ 72 + 16) 8 ∧ barWrap.Issues .barrier [3, 4] ∧ barWrap.OnTile (barWrap.val (4 : BitVec 4)) 8 [.a, .w] 0 16 16 ∧ BitVec.extractLsb' 16 16 (BitVec.ofNat 64 (barWrap.tileBytes 0 16 8)) ≠ (0 : BitVec 16) ∧ BitVec.extractLsb' 0 16 (BitVec.ofNat 64 (barWrap.tileBytes 0 16 8)) ≠ (0 : BitVec 16) ∧ (BitVec.extractLsb' 16 16 (BitVec.ofNat 64 (barWrap.tileBytes 0 16 8))).toNat ≤ (BitVec.extractLsb' 0 16 (BitVec.ofNat 64 (barWrap.tileBytes 0 16 8))).toNat :=
  ⟨rfl, by unfold State.Unmixed; decide +kernel, issues rfl, ⟨rfl, rfl, rfl, rfl, .inl rfl⟩, by decide, by decide, by decide⟩
theorem witness_barriers_5 : barWrap.poisonedAt (Place.tile 0) 16 8 = false ∧ barWrap.Unmixed (2 ^ 72 + 16) 8 ∧ barWrap.Issues .barrier [4, 5] ∧ barWrap.OnTile (barWrap.val (4 : BitVec 4)) 8 [.r] 0 16 16 ∧ BitVec.extractLsb' 32 32 (BitVec.ofNat 64 (barWrap.tileBytes 0 16 8)) = BitVec.setWidth 32 (barWrap.val (5 : BitVec 4)) :=
  ⟨rfl, by unfold State.Unmixed; decide +kernel, issues rfl, ⟨rfl, rfl, rfl, rfl, .inl rfl⟩, rfl⟩
theorem witness_barriers_6 : barWrap.poisonedAt (Place.tile 0) 16 8 = false ∧ barWrap.Unmixed (2 ^ 72 + 16) 8 ∧ barWrap.Issues .task [4] ∧ barWrap.OnTile (barWrap.val (4 : BitVec 4)) 8 [.r] 0 16 16 ∧ BitVec.ofNat 64 (barWrap.tileBytes 0 16 8) ≠ (0 : Word) :=
  ⟨rfl, by unfold State.Unmixed; decide +kernel, issues rfl, ⟨rfl, rfl, rfl, rfl, .inl rfl⟩, by decide⟩
theorem witness_barriers_7 : barMore.poisonedAt (Place.tile 0) 16 8 = false ∧ barMore.Unmixed (2 ^ 72 + 16) 8 ∧ barMore.Issues .barrier [4, 5] ∧ barMore.OnTile (barMore.val (4 : BitVec 4)) 8 [.r] 0 16 16 ∧ BitVec.extractLsb' 32 32 (BitVec.ofNat 64 (barMore.tileBytes 0 16 8)) ≠ BitVec.setWidth 32 (barMore.val (5 : BitVec 4)) :=
  ⟨rfl, by unfold State.Unmixed; decide +kernel, issues rfl, ⟨rfl, rfl, rfl, rfl, .inl rfl⟩, by decide⟩
theorem witness_barriers_8 : barWrong.poisonedAt (Place.tile 0) 16 8 = false ∧ barWrong.Unmixed (2 ^ 72 + 16) 8 ∧ barWrong.Issues .barrier [3, 4] ∧ barWrong.OnTile (barWrong.val (4 : BitVec 4)) 8 [.a, .w] 0 16 16 ∧ (BitVec.extractLsb' 16 16 (BitVec.ofNat 64 (barWrong.tileBytes 0 16 8)) = (0 : BitVec 16) ∨ BitVec.extractLsb' 0 16 (BitVec.ofNat 64 (barWrong.tileBytes 0 16 8)) = (0 : BitVec 16) ∨ (BitVec.extractLsb' 0 16 (BitVec.ofNat 64 (barWrong.tileBytes 0 16 8))).toNat < (BitVec.extractLsb' 16 16 (BitVec.ofNat 64 (barWrong.tileBytes 0 16 8))).toNat) ∧ barWrong.Handles :=
  ⟨rfl, by unfold State.Unmixed; decide +kernel, issues rfl, ⟨rfl, rfl, rfl, rfl, .inl rfl⟩, by decide, ⟨rfl, rfl⟩⟩
theorem witness_barriers_9 : barWrong.poisonedAt (Place.tile 0) 16 8 = false ∧ barWrong.Unmixed (2 ^ 72 + 16) 8 ∧ barWrong.Issues .barrier [4, 5] ∧ barWrong.OnTile (barWrong.val (4 : BitVec 4)) 8 [.r] 0 16 16 ∧ BitVec.extractLsb' 32 32 (BitVec.ofNat 64 (barWrong.tileBytes 0 16 8)) ≠ BitVec.setWidth 32 (barWrong.val (5 : BitVec 4)) :=
  ⟨rfl, by unfold State.Unmixed; decide +kernel, issues rfl, ⟨rfl, rfl, rfl, rfl, .inl rfl⟩, by decide⟩
theorem witness_barriers_10 : barZero.poisonedAt (Place.tile 0) 16 8 = false ∧ barZero.Unmixed (2 ^ 72 + 16) 8 ∧ barZero.Issues .barrier [3, 4] ∧ barZero.OnTile (barZero.val (4 : BitVec 4)) 8 [.a, .w] 0 16 16 ∧ (BitVec.extractLsb' 16 16 (BitVec.ofNat 64 (barZero.tileBytes 0 16 8)) = (0 : BitVec 16) ∨ BitVec.extractLsb' 0 16 (BitVec.ofNat 64 (barZero.tileBytes 0 16 8)) = (0 : BitVec 16) ∨ (BitVec.extractLsb' 0 16 (BitVec.ofNat 64 (barZero.tileBytes 0 16 8))).toNat < (BitVec.extractLsb' 16 16 (BitVec.ofNat 64 (barZero.tileBytes 0 16 8))).toNat) ∧ barZero.Handles :=
  ⟨rfl, by unfold State.Unmixed; decide +kernel, issues rfl, ⟨rfl, rfl, rfl, rfl, .inl rfl⟩, by decide, ⟨rfl, rfl⟩⟩
theorem witness_barriers_11 : barZero.poisonedAt (Place.tile 0) 16 8 = false ∧ barZero.Unmixed (2 ^ 72 + 16) 8 ∧ barZero.Issues .task [4] ∧ barZero.OnTile (barZero.val (4 : BitVec 4)) 8 [.r] 0 16 16 ∧ BitVec.ofNat 64 (barZero.tileBytes 0 16 8) = (0 : Word) :=
  ⟨rfl, by unfold State.Unmixed; decide +kernel, issues rfl, ⟨rfl, rfl, rfl, rfl, .inl rfl⟩, rfl⟩
theorem witness_maintenance_1 : mtNone.Issues .maintain [4, 5] ∧ BitVec.toNat (mtNone.val (5 : BitVec 4)) = 0 :=
  ⟨issues rfl, rfl⟩
theorem witness_maintenance_2 : mtMuch.Issues .maintain [4, 5] ∧ 2 ^ 24 < BitVec.toNat (mtMuch.val (5 : BitVec 4)) ∧ mtMuch.Handles :=
  ⟨issues rfl, by decide, ⟨rfl, rfl⟩⟩
theorem witness_maintenance_3 : mtFive.Issues .maintain [4, 5] ∧ 0 < BitVec.toNat (mtFive.val (5 : BitVec 4)) ∧ BitVec.toNat (mtFive.val (5 : BitVec 4)) ≤ 2 ^ 24 ∧ checkIn mtFive.now.win (mtFive.val (4 : BitVec 4) + mtFive.val (5 : BitVec 4) - (1 : Word)) 1 [.r] = Except.ok (Space.virt (BitVec.toNat (mtFive.val (4 : BitVec 4) + mtFive.val (5 : BitVec 4) - (1 : Word)))) ∧ (∀ (i : Nat), i ∈ List.range ((BitVec.toNat (mtFive.val (4 : BitVec 4)) % 4096 + BitVec.toNat (mtFive.val (5 : BitVec 4)) + 4095) / 4096) → mtFive.OnPage (pageShare (mtFive.val (4 : BitVec 4)) (BitVec.toNat (mtFive.val (5 : BitVec 4))) i).fst 1 [.r] (mtPage 1 (fun (x : Nat) => 60) i).fst (mtPage 1 (fun (x : Nat) => 60) i).snd ∧ packageOf (mtPage 1 (fun (x : Nat) => 60) i).snd = mtFive.package ∧ areaOf (mtPage 1 (fun (x : Nat) => 60) i).snd ≠ Area.view) ∧ mtFive.Distinct ∧ mtFive.Canonical :=
  ⟨issues rfl, by decide, by decide, rfl, onRange1 rfl ⟨⟨⟨_, 0, _, _, rfl, rfl, rfl, rfl⟩, rfl, rfl⟩, rfl, by decide⟩, by unfold State.Distinct; decide, canonical rfl rfl⟩
theorem witness_maintenance_4 : mtFive.Issues .maintain [4, 5] ∧ 0 < BitVec.toNat (mtFive.val (5 : BitVec 4)) ∧ BitVec.toNat (mtFive.val (5 : BitVec 4)) ≤ 2 ^ 24 ∧ checkIn mtFive.now.win (mtFive.val (4 : BitVec 4) + mtFive.val (5 : BitVec 4) - (1 : Word)) 1 [.r] = Except.ok (Space.virt (BitVec.toNat (mtFive.val (4 : BitVec 4) + mtFive.val (5 : BitVec 4) - (1 : Word)))) ∧ (∀ (i : Nat), i ∈ List.range ((BitVec.toNat (mtFive.val (4 : BitVec 4)) % 4096 + BitVec.toNat (mtFive.val (5 : BitVec 4)) + 4095) / 4096) → mtFive.OnPage (pageShare (mtFive.val (4 : BitVec 4)) (BitVec.toNat (mtFive.val (5 : BitVec 4))) i).fst 1 [.r] (mtPage 1 (fun (x : Nat) => 60) i).fst (mtPage 1 (fun (x : Nat) => 60) i).snd ∧ packageOf (mtPage 1 (fun (x : Nat) => 60) i).snd = mtFive.package ∧ areaOf (mtPage 1 (fun (x : Nat) => 60) i).snd ≠ Area.view) ∧ mtFive.Distinct ∧ mtFive.Canonical ∧ (∀ (i : Nat), i ∈ List.range ((BitVec.toNat (mtFive.val (4 : BitVec 4)) % 4096 + BitVec.toNat (mtFive.val (5 : BitVec 4)) + 4095) / 4096) → Leaf.cls (mtPage 1 (fun (x : Nat) => 60) i).fst ≠ 0) :=
  ⟨issues rfl, by decide, by decide, rfl, onRange1 rfl ⟨⟨⟨_, 0, _, _, rfl, rfl, rfl, rfl⟩, rfl, rfl⟩, rfl, by decide⟩, by unfold State.Distinct; decide, canonical rfl rfl, by decide⟩
theorem witness_maintenance_5 : mtMost.Issues .maintain [4, 5] ∧ 0 < BitVec.toNat (mtMost.val (5 : BitVec 4)) ∧ BitVec.toNat (mtMost.val (5 : BitVec 4)) ≤ 2 ^ 24 ∧ checkIn mtMost.now.win (mtMost.val (4 : BitVec 4) + mtMost.val (5 : BitVec 4) - (1 : Word)) 1 [.r] = Except.ok (Space.virt (BitVec.toNat (mtMost.val (4 : BitVec 4) + mtMost.val (5 : BitVec 4) - (1 : Word)))) ∧ (∀ (i : Nat), i ∈ List.range ((BitVec.toNat (mtMost.val (4 : BitVec 4)) % 4096 + BitVec.toNat (mtMost.val (5 : BitVec 4)) + 4095) / 4096) → mtMost.OnPage (pageShare (mtMost.val (4 : BitVec 4)) (BitVec.toNat (mtMost.val (5 : BitVec 4))) i).fst 1 [.r] (mtPage 1 (fun (x : Nat) => 60) i).fst (mtPage 1 (fun (x : Nat) => 60) i).snd ∧ packageOf (mtPage 1 (fun (x : Nat) => 60) i).snd = mtMost.package ∧ areaOf (mtPage 1 (fun (x : Nat) => 60) i).snd ≠ Area.view) ∧ mtMost.Distinct ∧ mtMost.Canonical :=
  ⟨issues rfl, by decide, by decide, rfl, onRange1 rfl ⟨⟨⟨_, 0, _, _, rfl, rfl, rfl, rfl⟩, rfl, rfl⟩, rfl, by decide⟩, by unfold State.Distinct; decide, canonical rfl rfl⟩
theorem witness_maintenance_6 : mtMost.Issues .maintain [4, 5] ∧ 0 < BitVec.toNat (mtMost.val (5 : BitVec 4)) ∧ BitVec.toNat (mtMost.val (5 : BitVec 4)) ≤ 2 ^ 24 ∧ checkIn mtMost.now.win (mtMost.val (4 : BitVec 4) + mtMost.val (5 : BitVec 4) - (1 : Word)) 1 [.r] = Except.ok (Space.virt (BitVec.toNat (mtMost.val (4 : BitVec 4) + mtMost.val (5 : BitVec 4) - (1 : Word)))) ∧ (∀ (i : Nat), i ∈ List.range ((BitVec.toNat (mtMost.val (4 : BitVec 4)) % 4096 + BitVec.toNat (mtMost.val (5 : BitVec 4)) + 4095) / 4096) → mtMost.OnPage (pageShare (mtMost.val (4 : BitVec 4)) (BitVec.toNat (mtMost.val (5 : BitVec 4))) i).fst 1 [.r] (mtPage 1 (fun (x : Nat) => 60) i).fst (mtPage 1 (fun (x : Nat) => 60) i).snd ∧ packageOf (mtPage 1 (fun (x : Nat) => 60) i).snd = mtMost.package ∧ areaOf (mtPage 1 (fun (x : Nat) => 60) i).snd ≠ Area.view) ∧ mtMost.Distinct ∧ mtMost.Canonical ∧ (∀ (i : Nat), i ∈ List.range ((BitVec.toNat (mtMost.val (4 : BitVec 4)) % 4096 + BitVec.toNat (mtMost.val (5 : BitVec 4)) + 4095) / 4096) → Leaf.cls (mtPage 1 (fun (x : Nat) => 60) i).fst ≠ 0) :=
  ⟨issues rfl, by decide, by decide, rfl, onRange1 rfl ⟨⟨⟨_, 0, _, _, rfl, rfl, rfl, rfl⟩, rfl, rfl⟩, rfl, by decide⟩, by unfold State.Distinct; decide, canonical rfl rfl, by decide⟩
theorem witness_maintenance_7 : (mtTwo 1 4037).Issues .maintain [4, 5] ∧ 0 < BitVec.toNat ((mtTwo 1 4037).val (5 : BitVec 4)) ∧ BitVec.toNat ((mtTwo 1 4037).val (5 : BitVec 4)) ≤ 2 ^ 24 ∧ checkIn (mtTwo 1 4037).now.win ((mtTwo 1 4037).val (4 : BitVec 4) + (mtTwo 1 4037).val (5 : BitVec 4) - (1 : Word)) 1 [.r] = Except.ok (Space.virt (BitVec.toNat ((mtTwo 1 4037).val (4 : BitVec 4) + (mtTwo 1 4037).val (5 : BitVec 4) - (1 : Word)))) ∧ (∀ (i : Nat), i ∈ List.range ((BitVec.toNat ((mtTwo 1 4037).val (4 : BitVec 4)) % 4096 + BitVec.toNat ((mtTwo 1 4037).val (5 : BitVec 4)) + 4095) / 4096) → (mtTwo 1 4037).OnPage (pageShare ((mtTwo 1 4037).val (4 : BitVec 4)) (BitVec.toNat ((mtTwo 1 4037).val (5 : BitVec 4))) i).fst 1 [.r] (mtPage 1 (fun (i : Nat) => if i = 0 then 60 else 0) i).fst (mtPage 1 (fun (i : Nat) => if i = 0 then 60 else 0) i).snd ∧ packageOf (mtPage 1 (fun (i : Nat) => if i = 0 then 60 else 0) i).snd = (mtTwo 1 4037).package ∧ areaOf (mtPage 1 (fun (i : Nat) => if i = 0 then 60 else 0) i).snd ≠ Area.view) ∧ (mtTwo 1 4037).Distinct ∧ (mtTwo 1 4037).Canonical :=
  ⟨issues rfl, by decide, by decide, rfl, onRange2 rfl ⟨⟨⟨_, 0, _, _, rfl, rfl, rfl, rfl⟩, rfl, rfl⟩, rfl, by decide⟩ ⟨⟨⟨_, 0, _, _, rfl, rfl, rfl, rfl⟩, rfl, rfl⟩, rfl, by decide⟩, by unfold State.Distinct; decide, canonical rfl rfl⟩
theorem witness_maintenance_8 : (mtTwo 1 4037).Issues .maintain [4, 5] ∧ 0 < BitVec.toNat ((mtTwo 1 4037).val (5 : BitVec 4)) ∧ BitVec.toNat ((mtTwo 1 4037).val (5 : BitVec 4)) ≤ 2 ^ 24 ∧ checkIn (mtTwo 1 4037).now.win ((mtTwo 1 4037).val (4 : BitVec 4) + (mtTwo 1 4037).val (5 : BitVec 4) - (1 : Word)) 1 [.r] = Except.ok (Space.virt (BitVec.toNat ((mtTwo 1 4037).val (4 : BitVec 4) + (mtTwo 1 4037).val (5 : BitVec 4) - (1 : Word)))) ∧ (∀ (i : Nat), i ∈ List.range ((BitVec.toNat ((mtTwo 1 4037).val (4 : BitVec 4)) % 4096 + BitVec.toNat ((mtTwo 1 4037).val (5 : BitVec 4)) + 4095) / 4096) → (mtTwo 1 4037).OnPage (pageShare ((mtTwo 1 4037).val (4 : BitVec 4)) (BitVec.toNat ((mtTwo 1 4037).val (5 : BitVec 4))) i).fst 1 [.r] (mtPage 1 (fun (i : Nat) => if i = 0 then 60 else 0) i).fst (mtPage 1 (fun (i : Nat) => if i = 0 then 60 else 0) i).snd ∧ packageOf (mtPage 1 (fun (i : Nat) => if i = 0 then 60 else 0) i).snd = (mtTwo 1 4037).package ∧ areaOf (mtPage 1 (fun (i : Nat) => if i = 0 then 60 else 0) i).snd ≠ Area.view) ∧ (mtTwo 1 4037).Distinct ∧ (mtTwo 1 4037).Canonical ∧ (∀ (i : Nat), i ∈ List.range ((BitVec.toNat ((mtTwo 1 4037).val (4 : BitVec 4)) % 4096 + BitVec.toNat ((mtTwo 1 4037).val (5 : BitVec 4)) + 4095) / 4096) → Leaf.cls (mtPage 1 (fun (i : Nat) => if i = 0 then 60 else 0) i).fst ≠ 0) :=
  ⟨issues rfl, by decide, by decide, rfl, onRange2 rfl ⟨⟨⟨_, 0, _, _, rfl, rfl, rfl, rfl⟩, rfl, rfl⟩, rfl, by decide⟩ ⟨⟨⟨_, 0, _, _, rfl, rfl, rfl, rfl⟩, rfl, rfl⟩, rfl, by decide⟩, by unfold State.Distinct; decide, canonical rfl rfl, by decide⟩
theorem witness_maintenance_9 : (mtTwo 0 5000).Issues .maintain [4, 5] ∧ 0 < BitVec.toNat ((mtTwo 0 5000).val (5 : BitVec 4)) ∧ BitVec.toNat ((mtTwo 0 5000).val (5 : BitVec 4)) ≤ 2 ^ 24 ∧ checkIn (mtTwo 0 5000).now.win ((mtTwo 0 5000).val (4 : BitVec 4) + (mtTwo 0 5000).val (5 : BitVec 4) - (1 : Word)) 1 [.r] = Except.ok (Space.virt (BitVec.toNat ((mtTwo 0 5000).val (4 : BitVec 4) + (mtTwo 0 5000).val (5 : BitVec 4) - (1 : Word)))) ∧ (∀ (i : Nat), i ∈ List.range ((BitVec.toNat ((mtTwo 0 5000).val (4 : BitVec 4)) % 4096 + BitVec.toNat ((mtTwo 0 5000).val (5 : BitVec 4)) + 4095) / 4096) → (mtTwo 0 5000).OnPage (pageShare ((mtTwo 0 5000).val (4 : BitVec 4)) (BitVec.toNat ((mtTwo 0 5000).val (5 : BitVec 4))) i).fst 1 [.r] (mtPage 0 (fun (i : Nat) => if i = 0 then 60 else 0) i).fst (mtPage 0 (fun (i : Nat) => if i = 0 then 60 else 0) i).snd ∧ packageOf (mtPage 0 (fun (i : Nat) => if i = 0 then 60 else 0) i).snd = (mtTwo 0 5000).package ∧ areaOf (mtPage 0 (fun (i : Nat) => if i = 0 then 60 else 0) i).snd ≠ Area.view) ∧ (mtTwo 0 5000).Distinct ∧ (mtTwo 0 5000).Canonical :=
  ⟨issues rfl, by decide, by decide, rfl, onRange2 rfl ⟨⟨⟨_, 0, _, _, rfl, rfl, rfl, rfl⟩, rfl, rfl⟩, rfl, by decide⟩ ⟨⟨⟨_, 0, _, _, rfl, rfl, rfl, rfl⟩, rfl, rfl⟩, rfl, by decide⟩, by unfold State.Distinct; decide, canonical rfl rfl⟩
theorem witness_maintenance_10 : (mtTwo 0 5000).Issues .maintain [4, 5] ∧ 0 < BitVec.toNat ((mtTwo 0 5000).val (5 : BitVec 4)) ∧ BitVec.toNat ((mtTwo 0 5000).val (5 : BitVec 4)) ≤ 2 ^ 24 ∧ checkIn (mtTwo 0 5000).now.win ((mtTwo 0 5000).val (4 : BitVec 4) + (mtTwo 0 5000).val (5 : BitVec 4) - (1 : Word)) 1 [.r] = Except.ok (Space.virt (BitVec.toNat ((mtTwo 0 5000).val (4 : BitVec 4) + (mtTwo 0 5000).val (5 : BitVec 4) - (1 : Word)))) ∧ (∀ (i : Nat), i ∈ List.range ((BitVec.toNat ((mtTwo 0 5000).val (4 : BitVec 4)) % 4096 + BitVec.toNat ((mtTwo 0 5000).val (5 : BitVec 4)) + 4095) / 4096) → (mtTwo 0 5000).OnPage (pageShare ((mtTwo 0 5000).val (4 : BitVec 4)) (BitVec.toNat ((mtTwo 0 5000).val (5 : BitVec 4))) i).fst 1 [.r] (mtPage 0 (fun (i : Nat) => if i = 0 then 60 else 0) i).fst (mtPage 0 (fun (i : Nat) => if i = 0 then 60 else 0) i).snd ∧ packageOf (mtPage 0 (fun (i : Nat) => if i = 0 then 60 else 0) i).snd = (mtTwo 0 5000).package ∧ areaOf (mtPage 0 (fun (i : Nat) => if i = 0 then 60 else 0) i).snd ≠ Area.view) ∧ (mtTwo 0 5000).Distinct ∧ (mtTwo 0 5000).Canonical ∧ (∀ (i : Nat), i ∈ List.range ((BitVec.toNat ((mtTwo 0 5000).val (4 : BitVec 4)) % 4096 + BitVec.toNat ((mtTwo 0 5000).val (5 : BitVec 4)) + 4095) / 4096) → Leaf.cls (mtPage 0 (fun (i : Nat) => if i = 0 then 60 else 0) i).fst = 0) :=
  ⟨issues rfl, by decide, by decide, rfl, onRange2 rfl ⟨⟨⟨_, 0, _, _, rfl, rfl, rfl, rfl⟩, rfl, rfl⟩, rfl, by decide⟩ ⟨⟨⟨_, 0, _, _, rfl, rfl, rfl, rfl⟩, rfl, rfl⟩, rfl, by decide⟩, by unfold State.Distinct; decide, canonical rfl rfl, by decide⟩

/-! ## Tentative cells, merges and seals -/

def tentFree : State := { ldBox with cores := [(0, { ldOther with l1 := [(page / 4 + 20, ⟨1, true, 0xF, false, 0⟩)] })] }
def tentCell (seen : Bool) : Cell := ⟨page + 16, 8, 0x1234, 0, 5, seen, 7, 16, false⟩
def tentMine : State := { tentFree with cells := [⟨page + 32, 4, 9, 0, 5, false, 7, 32, false⟩, tentCell false] }
def tentSeen : State := { tentFree with cells := [⟨page + 32, 4, 9, 0, 5, false, 7, 32, false⟩, tentCell true] }
def tentVent : State := { ldVent with cells := [⟨page + 200, 4, 9, 0, 5, false, 7, 200, false⟩] }
def tentOwn (n : Nat) : State := { tentFree with cells := [⟨page + 16, n, 0x1234, 0, 5, true, 7, 16, false⟩] }
def tentOther : Cell := ⟨page + 16, 8, 0x1234, 8, 5, false, 7, 16, false⟩
def tentBusy : State := { tentFree with cells := [tentOther] }
/-- The slice of the line, its pair buffer full, before and after its time. -/
def tentFull (late : Bool) : State :=
  let h := (tentFree.touch 0 (leafOf 1) (page + 16)).lineHome (leafOf 1) (page + 16)
  { tentFree.setThread 0 { tentFree.now with expired := late } with
    cells := (List.range 128).map fun i => ⟨page + 64 + 8 * i, 8, 0, 8, 5, false, h.1 * 8 + h.2, 16, false⟩ }
/-- A range to seal, beside two sealed regions. -/
def sealBox (a n : Nat) : State :=
  { box [(4, BitVec.ofNat 64 a), (5, BitVec.ofNat 64 n)] with cores := [(0, ldOther)], mem := ldMem, sealed := [⟨1, [(page, 64)], 3⟩, ⟨0, [(page + 64, 128)], 3⟩] }
def sealAgain : State := sealBox 64 128
def sealRest : State := sealBox 256 3840
def sealNone : State := sealBox 256 0
def sealMuch : State := sealBox 256 (2 ^ 24 + 64)
def sealPart : State := sealBox 256 32
def sealOdd : State := sealBox 32 64
def dupdBox : State := tentFree

theorem witness_tentative_1 : (areaOf (page + 16) = Area.firstTier ∨ areaOf (page + 16) = Area.secondTier) ∧ packageOf (page + 16) = tentFree.package ∧ Leaf.cls (leafOf 1) ≠ 0 ∧ tentFree.hostBias (page + 16) = false ∧ tentFree.inTransition (page + 16) = false ∧ tentFree.Issues .tentative [3, 4] ∧ tentFree.Sound (3 : BitVec 4) ∧ tentFree.Sound (4 : BitVec 4) ∧ tentFree.OnPage (BitVec.setWidth 64 (0 : BitVec 3) <<< 61 + tentFree.val (4 : BitVec 4) + BitVec.signExtend 64 (0 : BitVec 11) * BitVec.ofNat 64 4) 4 [.t, .w] (leafOf 1) (page + 16) ∧ tentFree.Plain (leafOf 1) (page + 16) 4 ∧ tentFree.Uncached ((page + 16) / 64 * 64) 64 ∧ tentFree.Uncached (page + 16) 4 ∧ tentFree.Unmixed (page + 16) 4 ∧ tentFree.pairUse (((tentFree.touch tentFree.cur (leafOf 1) (page + 16)).lineHome (leafOf 1) (page + 16)).fst * 8 + ((tentFree.touch tentFree.cur (leafOf 1) (page + 16)).lineHome (leafOf 1) (page + 16)).snd) < 128 :=
  ⟨by decide, rfl, by decide, by decide +kernel, by decide +kernel, issues rfl, rfl, rfl, ⟨⟨_, 0, _, _, rfl, rfl, rfl, rfl⟩, rfl, rfl⟩, plain rfl (.inl rfl) rfl, uncached rfl, uncached rfl, by unfold State.Unmixed; decide +kernel, by decide⟩
theorem witness_tentative_2 : (areaOf (page + 16) = Area.firstTier ∨ areaOf (page + 16) = Area.secondTier) ∧ packageOf (page + 16) = tentFree.package ∧ Leaf.cls (leafOf 1) ≠ 0 ∧ tentFree.hostBias (page + 16) = false ∧ tentFree.inTransition (page + 16) = false ∧ tentFree.Issues .tentative [3, 4] ∧ tentFree.Sound (3 : BitVec 4) ∧ tentFree.Sound (4 : BitVec 4) ∧ tentFree.OnPage (BitVec.setWidth 64 (0 : BitVec 3) <<< 61 + tentFree.val (4 : BitVec 4) + BitVec.signExtend 64 (0 : BitVec 11) * BitVec.ofNat 64 8) 8 [.t, .w] (leafOf 1) (page + 16) ∧ tentFree.Plain (leafOf 1) (page + 16) 8 ∧ tentFree.Uncached ((page + 16) / 64 * 64) 64 ∧ tentFree.Uncached (page + 16) 8 ∧ tentFree.Unmixed (page + 16) 8 ∧ tentFree.pairUse (((tentFree.touch tentFree.cur (leafOf 1) (page + 16)).lineHome (leafOf 1) (page + 16)).fst * 8 + ((tentFree.touch tentFree.cur (leafOf 1) (page + 16)).lineHome (leafOf 1) (page + 16)).snd) < 128 :=
  ⟨by decide, rfl, by decide, by decide +kernel, by decide +kernel, issues rfl, rfl, rfl, ⟨⟨_, 0, _, _, rfl, rfl, rfl, rfl⟩, rfl, rfl⟩, plain rfl (.inl rfl) rfl, uncached rfl, uncached rfl, by unfold State.Unmixed; decide +kernel, by decide⟩
theorem witness_tentative_3 : (areaOf (page + 16) = Area.firstTier ∨ areaOf (page + 16) = Area.secondTier) ∧ packageOf (page + 16) = tentFree.package ∧ Leaf.cls (leafOf 1) ≠ 0 ∧ tentFree.hostBias (page + 16) = false ∧ tentFree.inTransition (page + 16) = false ∧ tentFree.OnPage (tentFree.val (4 : BitVec 4)) 4 [.t, .w] (leafOf 1) (page + 16) ∧ tentFree.now.answered = true ∧ tentFree.underTest (memLine (page + 16) 4) = false ∧ (∀ (c : Cell), c ∈ tentFree.cells → ¬(c.key = page + 16 ∧ c.owner = tentFree.cur ∧ c.epoch = tentFree.now.epoch)) ∧ tentFree.isArmed (page + 16) 4 = false ∧ tentFree.Issues .cell [4] :=
  ⟨by decide, rfl, by decide, by decide +kernel, by decide +kernel, ⟨⟨_, 0, _, _, rfl, rfl, rfl, rfl⟩, rfl, rfl⟩, rfl, rfl, by decide, by decide +kernel, issues rfl⟩
theorem witness_tentative_4 : (areaOf (page + 16) = Area.firstTier ∨ areaOf (page + 16) = Area.secondTier) ∧ packageOf (page + 16) = tentFree.package ∧ Leaf.cls (leafOf 1) ≠ 0 ∧ tentFree.hostBias (page + 16) = false ∧ tentFree.inTransition (page + 16) = false ∧ tentFree.OnPage (tentFree.val (4 : BitVec 4)) 4 [.t, .w] (leafOf 1) (page + 16) ∧ tentFree.now.answered = true ∧ tentFree.underTest (memLine (page + 16) 4) = false ∧ (∀ (c : Cell), c ∈ tentFree.cells → ¬(c.key = page + 16 ∧ c.owner = tentFree.cur ∧ c.epoch = tentFree.now.epoch)) ∧ tentFree.isArmed (page + 16) 4 = false ∧ tentFree.Issues .tentative [4] :=
  ⟨by decide, rfl, by decide, by decide +kernel, by decide +kernel, ⟨⟨_, 0, _, _, rfl, rfl, rfl, rfl⟩, rfl, rfl⟩, rfl, rfl, by decide, by decide +kernel, issues rfl⟩
theorem witness_tentative_5 : (areaOf (page + 16) = Area.firstTier ∨ areaOf (page + 16) = Area.secondTier) ∧ packageOf (page + 16) = tentVent.package ∧ Leaf.cls (leafOf 1) ≠ 0 ∧ tentVent.hostBias (page + 16) = false ∧ tentVent.inTransition (page + 16) = false ∧ tentVent.OnPage (tentVent.val (4 : BitVec 4)) 4 [.t, .w] (leafOf 1) (page + 16) ∧ tentVent.now.answered = true ∧ tentVent.underTest (memLine (page + 16) 4) = false ∧ (∀ (c : Cell), c ∈ tentVent.cells → ¬(c.key = page + 16 ∧ c.owner = tentVent.cur ∧ c.epoch = tentVent.now.epoch)) ∧ tentVent.isArmed (page + 16) 4 = false ∧ tentVent.Issues .cell [4] :=
  ⟨by decide, rfl, by decide, by decide +kernel, by decide +kernel, ⟨⟨_, 0, _, _, rfl, rfl, rfl, rfl⟩, rfl, rfl⟩, rfl, rfl, by decide, by decide +kernel, issues rfl⟩
theorem witness_tentative_6 : (areaOf (page + 16) = Area.firstTier ∨ areaOf (page + 16) = Area.secondTier) ∧ packageOf (page + 16) = tentVent.package ∧ Leaf.cls (leafOf 1) ≠ 0 ∧ tentVent.hostBias (page + 16) = false ∧ tentVent.inTransition (page + 16) = false ∧ tentVent.OnPage (tentVent.val (4 : BitVec 4)) 4 [.t, .w] (leafOf 1) (page + 16) ∧ tentVent.now.answered = true ∧ tentVent.underTest (memLine (page + 16) 4) = false ∧ (∀ (c : Cell), c ∈ tentVent.cells → ¬(c.key = page + 16 ∧ c.owner = tentVent.cur ∧ c.epoch = tentVent.now.epoch)) ∧ tentVent.isArmed (page + 16) 4 = false ∧ tentVent.Issues .tentative [4] :=
  ⟨by decide, rfl, by decide, by decide +kernel, by decide +kernel, ⟨⟨_, 0, _, _, rfl, rfl, rfl, rfl⟩, rfl, rfl⟩, rfl, rfl, by decide, by decide +kernel, issues rfl⟩
theorem witness_tentative_met_1 : (areaOf (page + 16) = Area.firstTier ∨ areaOf (page + 16) = Area.secondTier) ∧ packageOf (page + 16) = (tentOwn 4).package ∧ Leaf.cls (leafOf 1) ≠ 0 ∧ (tentOwn 4).hostBias (page + 16) = false ∧ (tentOwn 4).inTransition (page + 16) = false ∧ (tentOwn 4).Issues .tentative [3, 4] ∧ (tentOwn 4).Sound (3 : BitVec 4) ∧ (tentOwn 4).Sound (4 : BitVec 4) ∧ (tentOwn 4).OnPage (BitVec.setWidth 64 (0 : BitVec 3) <<< 61 + (tentOwn 4).val (4 : BitVec 4) + BitVec.signExtend 64 (0 : BitVec 11) * BitVec.ofNat 64 4) 4 [.t, .w] (leafOf 1) (page + 16) ∧ (tentOwn 4).HomeFree (leafOf 1) (page + 16) 4 ∧ (tentOwn 4).cellsAt (page + 16) 4 = [Cell.mk (page + 16) 4 (4660 : Word) 0 (5 : BitVec 16) true 7 (16 : Word) false] ∧ 0 = (tentOwn 4).cur ∧ (5 : BitVec 16) = (tentOwn 4).now.epoch ∧ (tentOwn 4).Uncached (page + 16) 4 ∧ (tentOwn 4).Unmixed (page + 16) 4 ∧ (tentOwn 4).sealsAt (page + 16) 4 = [] ∧ (tentOwn 4).logged (page + 16) 4 = [] :=
  ⟨by decide, rfl, by decide, by decide +kernel, by decide +kernel, issues rfl, rfl, rfl, ⟨⟨_, 0, _, _, rfl, rfl, rfl, rfl⟩, rfl, rfl⟩, ⟨rfl, rfl, rfl, rfl, rfl, rfl, rfl⟩, rfl, rfl, rfl, uncached rfl, by unfold State.Unmixed; decide +kernel, rfl, rfl⟩
theorem witness_tentative_met_2 : (areaOf (page + 16) = Area.firstTier ∨ areaOf (page + 16) = Area.secondTier) ∧ packageOf (page + 16) = (tentOwn 4).package ∧ Leaf.cls (leafOf 1) ≠ 0 ∧ (tentOwn 4).hostBias (page + 16) = false ∧ (tentOwn 4).inTransition (page + 16) = false ∧ (tentOwn 4).Issues .tentative [3, 4] ∧ (tentOwn 4).Sound (3 : BitVec 4) ∧ (tentOwn 4).Sound (4 : BitVec 4) ∧ (tentOwn 4).OnPage (BitVec.setWidth 64 (0 : BitVec 3) <<< 61 + (tentOwn 4).val (4 : BitVec 4) + BitVec.signExtend 64 (0 : BitVec 11) * BitVec.ofNat 64 4) 4 [.t, .w] (leafOf 1) (page + 16) ∧ (tentOwn 4).HomeFree (leafOf 1) (page + 16) 4 ∧ (tentOwn 4).Issues .tentative [3, 4] ∧ (tentOwn 4).Sound (3 : BitVec 4) ∧ (tentOwn 4).Sound (4 : BitVec 4) ∧ (tentOwn 4).OnPage (BitVec.setWidth 64 (0 : BitVec 3) <<< 61 + (tentOwn 4).val (4 : BitVec 4) + BitVec.signExtend 64 (0 : BitVec 11) * BitVec.ofNat 64 8) 8 [.t, .w] (leafOf 1) (page + 16) ∧ (tentOwn 4).HomeFree (leafOf 1) (page + 16) 8 ∧ (tentOwn 4).cellsAt (page + 16) 8 ≠ [] ∧ (∀ (c : Cell), (tentOwn 4).cellsAt (page + 16) 8 = [c] → ¬(c.key = page + 16 ∧ c.size = 8 ∧ c.owner = (tentOwn 4).cur ∧ c.epoch = (tentOwn 4).now.epoch)) ∧ (tentOwn 4).Handles :=
  ⟨by decide, rfl, by decide, by decide +kernel, by decide +kernel, issues rfl, rfl, rfl, ⟨⟨_, 0, _, _, rfl, rfl, rfl, rfl⟩, rfl, rfl⟩, ⟨rfl, rfl, rfl, rfl, rfl, rfl, rfl⟩, issues rfl, rfl, rfl, ⟨⟨_, 0, _, _, rfl, rfl, rfl, rfl⟩, rfl, rfl⟩, ⟨rfl, rfl, rfl, rfl, rfl, rfl, rfl⟩, by decide, (fun m h => by cases h; decide), ⟨rfl, rfl⟩⟩
theorem witness_tentative_met_3 : (areaOf (page + 16) = Area.firstTier ∨ areaOf (page + 16) = Area.secondTier) ∧ packageOf (page + 16) = (tentOwn 8).package ∧ Leaf.cls (leafOf 1) ≠ 0 ∧ (tentOwn 8).hostBias (page + 16) = false ∧ (tentOwn 8).inTransition (page + 16) = false ∧ (tentOwn 8).Issues .tentative [3, 4] ∧ (tentOwn 8).Sound (3 : BitVec 4) ∧ (tentOwn 8).Sound (4 : BitVec 4) ∧ (tentOwn 8).OnPage (BitVec.setWidth 64 (0 : BitVec 3) <<< 61 + (tentOwn 8).val (4 : BitVec 4) + BitVec.signExtend 64 (0 : BitVec 11) * BitVec.ofNat 64 4) 4 [.t, .w] (leafOf 1) (page + 16) ∧ (tentOwn 8).HomeFree (leafOf 1) (page + 16) 4 ∧ (tentOwn 8).cellsAt (page + 16) 4 ≠ [] ∧ (∀ (c : Cell), (tentOwn 8).cellsAt (page + 16) 4 = [c] → ¬(c.key = page + 16 ∧ c.size = 4 ∧ c.owner = (tentOwn 8).cur ∧ c.epoch = (tentOwn 8).now.epoch)) ∧ (tentOwn 8).Handles :=
  ⟨by decide, rfl, by decide, by decide +kernel, by decide +kernel, issues rfl, rfl, rfl, ⟨⟨_, 0, _, _, rfl, rfl, rfl, rfl⟩, rfl, rfl⟩, ⟨rfl, rfl, rfl, rfl, rfl, rfl, rfl⟩, by decide, (fun m h => by cases h; decide), ⟨rfl, rfl⟩⟩
theorem witness_tentative_met_4 : (areaOf (page + 16) = Area.firstTier ∨ areaOf (page + 16) = Area.secondTier) ∧ packageOf (page + 16) = (tentOwn 8).package ∧ Leaf.cls (leafOf 1) ≠ 0 ∧ (tentOwn 8).hostBias (page + 16) = false ∧ (tentOwn 8).inTransition (page + 16) = false ∧ (tentOwn 8).Issues .tentative [3, 4] ∧ (tentOwn 8).Sound (3 : BitVec 4) ∧ (tentOwn 8).Sound (4 : BitVec 4) ∧ (tentOwn 8).OnPage (BitVec.setWidth 64 (0 : BitVec 3) <<< 61 + (tentOwn 8).val (4 : BitVec 4) + BitVec.signExtend 64 (0 : BitVec 11) * BitVec.ofNat 64 4) 4 [.t, .w] (leafOf 1) (page + 16) ∧ (tentOwn 8).HomeFree (leafOf 1) (page + 16) 4 ∧ (tentOwn 8).Issues .tentative [3, 4] ∧ (tentOwn 8).Sound (3 : BitVec 4) ∧ (tentOwn 8).Sound (4 : BitVec 4) ∧ (tentOwn 8).OnPage (BitVec.setWidth 64 (0 : BitVec 3) <<< 61 + (tentOwn 8).val (4 : BitVec 4) + BitVec.signExtend 64 (0 : BitVec 11) * BitVec.ofNat 64 8) 8 [.t, .w] (leafOf 1) (page + 16) ∧ (tentOwn 8).HomeFree (leafOf 1) (page + 16) 8 ∧ (tentOwn 8).cellsAt (page + 16) 8 = [Cell.mk (page + 16) 8 (4660 : Word) 0 (5 : BitVec 16) true 7 (16 : Word) false] ∧ 0 = (tentOwn 8).cur ∧ (5 : BitVec 16) = (tentOwn 8).now.epoch ∧ (tentOwn 8).Uncached (page + 16) 8 ∧ (tentOwn 8).Unmixed (page + 16) 8 ∧ (tentOwn 8).sealsAt (page + 16) 8 = [] ∧ (tentOwn 8).logged (page + 16) 8 = [] :=
  ⟨by decide, rfl, by decide, by decide +kernel, by decide +kernel, issues rfl, rfl, rfl, ⟨⟨_, 0, _, _, rfl, rfl, rfl, rfl⟩, rfl, rfl⟩, ⟨rfl, rfl, rfl, rfl, rfl, rfl, rfl⟩, issues rfl, rfl, rfl, ⟨⟨_, 0, _, _, rfl, rfl, rfl, rfl⟩, rfl, rfl⟩, ⟨rfl, rfl, rfl, rfl, rfl, rfl, rfl⟩, rfl, rfl, rfl, uncached rfl, by unfold State.Unmixed; decide +kernel, rfl, rfl⟩
theorem witness_tentative_met_5 : (areaOf (page + 16) = Area.firstTier ∨ areaOf (page + 16) = Area.secondTier) ∧ packageOf (page + 16) = tentBusy.package ∧ Leaf.cls (leafOf 1) ≠ 0 ∧ tentBusy.hostBias (page + 16) = false ∧ tentBusy.inTransition (page + 16) = false ∧ tentBusy.Issues .tentative [3, 4] ∧ tentBusy.Sound (3 : BitVec 4) ∧ tentBusy.Sound (4 : BitVec 4) ∧ tentBusy.OnPage (BitVec.setWidth 64 (0 : BitVec 3) <<< 61 + tentBusy.val (4 : BitVec 4) + BitVec.signExtend 64 (0 : BitVec 11) * BitVec.ofNat 64 4) 4 [.t, .w] (leafOf 1) (page + 16) ∧ tentBusy.HomeFree (leafOf 1) (page + 16) 4 ∧ tentBusy.cellsAt (page + 16) 4 ≠ [] ∧ (∀ (c : Cell), tentBusy.cellsAt (page + 16) 4 = [c] → ¬(c.key = page + 16 ∧ c.size = 4 ∧ c.owner = tentBusy.cur ∧ c.epoch = tentBusy.now.epoch)) ∧ tentBusy.Handles :=
  ⟨by decide, rfl, by decide, by decide +kernel, by decide +kernel, issues rfl, rfl, rfl, ⟨⟨_, 0, _, _, rfl, rfl, rfl, rfl⟩, rfl, rfl⟩, ⟨rfl, rfl, rfl, rfl, rfl, rfl, rfl⟩, by decide, notOwn tentOther rfl (by decide), ⟨rfl, rfl⟩⟩
theorem witness_tentative_met_6 : (areaOf (page + 16) = Area.firstTier ∨ areaOf (page + 16) = Area.secondTier) ∧ packageOf (page + 16) = tentBusy.package ∧ Leaf.cls (leafOf 1) ≠ 0 ∧ tentBusy.hostBias (page + 16) = false ∧ tentBusy.inTransition (page + 16) = false ∧ tentBusy.Issues .tentative [3, 4] ∧ tentBusy.Sound (3 : BitVec 4) ∧ tentBusy.Sound (4 : BitVec 4) ∧ tentBusy.OnPage (BitVec.setWidth 64 (0 : BitVec 3) <<< 61 + tentBusy.val (4 : BitVec 4) + BitVec.signExtend 64 (0 : BitVec 11) * BitVec.ofNat 64 4) 4 [.t, .w] (leafOf 1) (page + 16) ∧ tentBusy.HomeFree (leafOf 1) (page + 16) 4 ∧ tentBusy.Issues .tentative [3, 4] ∧ tentBusy.Sound (3 : BitVec 4) ∧ tentBusy.Sound (4 : BitVec 4) ∧ tentBusy.OnPage (BitVec.setWidth 64 (0 : BitVec 3) <<< 61 + tentBusy.val (4 : BitVec 4) + BitVec.signExtend 64 (0 : BitVec 11) * BitVec.ofNat 64 8) 8 [.t, .w] (leafOf 1) (page + 16) ∧ tentBusy.HomeFree (leafOf 1) (page + 16) 8 ∧ tentBusy.cellsAt (page + 16) 8 ≠ [] ∧ (∀ (c : Cell), tentBusy.cellsAt (page + 16) 8 = [c] → ¬(c.key = page + 16 ∧ c.size = 8 ∧ c.owner = tentBusy.cur ∧ c.epoch = tentBusy.now.epoch)) ∧ tentBusy.Handles :=
  ⟨by decide, rfl, by decide, by decide +kernel, by decide +kernel, issues rfl, rfl, rfl, ⟨⟨_, 0, _, _, rfl, rfl, rfl, rfl⟩, rfl, rfl⟩, ⟨rfl, rfl, rfl, rfl, rfl, rfl, rfl⟩, issues rfl, rfl, rfl, ⟨⟨_, 0, _, _, rfl, rfl, rfl, rfl⟩, rfl, rfl⟩, ⟨rfl, rfl, rfl, rfl, rfl, rfl, rfl⟩, by decide, notOwn tentOther rfl (by decide), ⟨rfl, rfl⟩⟩
theorem witness_tentative_met_7 : (areaOf (page + 16) = Area.firstTier ∨ areaOf (page + 16) = Area.secondTier) ∧ packageOf (page + 16) = (tentFull false).package ∧ Leaf.cls (leafOf 1) ≠ 0 ∧ (tentFull false).hostBias (page + 16) = false ∧ (tentFull false).inTransition (page + 16) = false ∧ (tentFull false).Issues .tentative [3, 4] ∧ (tentFull false).Sound (3 : BitVec 4) ∧ (tentFull false).Sound (4 : BitVec 4) ∧ (tentFull false).OnPage (BitVec.setWidth 64 (0 : BitVec 3) <<< 61 + (tentFull false).val (4 : BitVec 4) + BitVec.signExtend 64 (0 : BitVec 11) * BitVec.ofNat 64 4) 4 [.t, .w] (leafOf 1) (page + 16) ∧ (tentFull false).HomeFree (leafOf 1) (page + 16) 4 ∧ (tentFull false).cellsAt (page + 16) 4 = [] ∧ 128 ≤ (tentFull false).pairUse ((((tentFull false).touch (tentFull false).cur (leafOf 1) (page + 16)).lineHome (leafOf 1) (page + 16)).fst * 8 + (((tentFull false).touch (tentFull false).cur (leafOf 1) (page + 16)).lineHome (leafOf 1) (page + 16)).snd) ∧ (tentFull false).now.expired = false :=
  ⟨by decide, rfl, by decide, by decide +kernel, by decide +kernel, issues rfl, rfl, rfl, ⟨⟨_, 0, _, _, rfl, rfl, rfl, rfl⟩, rfl, rfl⟩, ⟨rfl, rfl, rfl, rfl, rfl, rfl, rfl⟩, rfl, by decide, rfl⟩
theorem witness_tentative_met_8 : (areaOf (page + 16) = Area.firstTier ∨ areaOf (page + 16) = Area.secondTier) ∧ packageOf (page + 16) = (tentFull false).package ∧ Leaf.cls (leafOf 1) ≠ 0 ∧ (tentFull false).hostBias (page + 16) = false ∧ (tentFull false).inTransition (page + 16) = false ∧ (tentFull false).Issues .tentative [3, 4] ∧ (tentFull false).Sound (3 : BitVec 4) ∧ (tentFull false).Sound (4 : BitVec 4) ∧ (tentFull false).OnPage (BitVec.setWidth 64 (0 : BitVec 3) <<< 61 + (tentFull false).val (4 : BitVec 4) + BitVec.signExtend 64 (0 : BitVec 11) * BitVec.ofNat 64 4) 4 [.t, .w] (leafOf 1) (page + 16) ∧ (tentFull false).HomeFree (leafOf 1) (page + 16) 4 ∧ (tentFull false).Issues .tentative [3, 4] ∧ (tentFull false).Sound (3 : BitVec 4) ∧ (tentFull false).Sound (4 : BitVec 4) ∧ (tentFull false).OnPage (BitVec.setWidth 64 (0 : BitVec 3) <<< 61 + (tentFull false).val (4 : BitVec 4) + BitVec.signExtend 64 (0 : BitVec 11) * BitVec.ofNat 64 8) 8 [.t, .w] (leafOf 1) (page + 16) ∧ (tentFull false).HomeFree (leafOf 1) (page + 16) 8 ∧ (tentFull false).cellsAt (page + 16) 8 = [] ∧ 128 ≤ (tentFull false).pairUse ((((tentFull false).touch (tentFull false).cur (leafOf 1) (page + 16)).lineHome (leafOf 1) (page + 16)).fst * 8 + (((tentFull false).touch (tentFull false).cur (leafOf 1) (page + 16)).lineHome (leafOf 1) (page + 16)).snd) ∧ (tentFull false).now.expired = false :=
  ⟨by decide, rfl, by decide, by decide +kernel, by decide +kernel, issues rfl, rfl, rfl, ⟨⟨_, 0, _, _, rfl, rfl, rfl, rfl⟩, rfl, rfl⟩, ⟨rfl, rfl, rfl, rfl, rfl, rfl, rfl⟩, issues rfl, rfl, rfl, ⟨⟨_, 0, _, _, rfl, rfl, rfl, rfl⟩, rfl, rfl⟩, ⟨rfl, rfl, rfl, rfl, rfl, rfl, rfl⟩, rfl, by decide, rfl⟩
theorem witness_tentative_met_9 : (areaOf (page + 16) = Area.firstTier ∨ areaOf (page + 16) = Area.secondTier) ∧ packageOf (page + 16) = (tentFull true).package ∧ Leaf.cls (leafOf 1) ≠ 0 ∧ (tentFull true).hostBias (page + 16) = false ∧ (tentFull true).inTransition (page + 16) = false ∧ (tentFull true).Issues .tentative [3, 4] ∧ (tentFull true).Sound (3 : BitVec 4) ∧ (tentFull true).Sound (4 : BitVec 4) ∧ (tentFull true).OnPage (BitVec.setWidth 64 (0 : BitVec 3) <<< 61 + (tentFull true).val (4 : BitVec 4) + BitVec.signExtend 64 (0 : BitVec 11) * BitVec.ofNat 64 4) 4 [.t, .w] (leafOf 1) (page + 16) ∧ (tentFull true).HomeFree (leafOf 1) (page + 16) 4 ∧ (tentFull true).cellsAt (page + 16) 4 = [] ∧ 128 ≤ (tentFull true).pairUse ((((tentFull true).touch (tentFull true).cur (leafOf 1) (page + 16)).lineHome (leafOf 1) (page + 16)).fst * 8 + (((tentFull true).touch (tentFull true).cur (leafOf 1) (page + 16)).lineHome (leafOf 1) (page + 16)).snd) ∧ (tentFull true).now.expired = true ∧ (tentFull true).Handles :=
  ⟨by decide, rfl, by decide, by decide +kernel, by decide +kernel, issues rfl, rfl, rfl, ⟨⟨_, 0, _, _, rfl, rfl, rfl, rfl⟩, rfl, rfl⟩, ⟨rfl, rfl, rfl, rfl, rfl, rfl, rfl⟩, rfl, by decide, rfl, ⟨rfl, rfl⟩⟩
theorem witness_tentative_met_10 : (areaOf (page + 16) = Area.firstTier ∨ areaOf (page + 16) = Area.secondTier) ∧ packageOf (page + 16) = (tentFull true).package ∧ Leaf.cls (leafOf 1) ≠ 0 ∧ (tentFull true).hostBias (page + 16) = false ∧ (tentFull true).inTransition (page + 16) = false ∧ (tentFull true).Issues .tentative [3, 4] ∧ (tentFull true).Sound (3 : BitVec 4) ∧ (tentFull true).Sound (4 : BitVec 4) ∧ (tentFull true).OnPage (BitVec.setWidth 64 (0 : BitVec 3) <<< 61 + (tentFull true).val (4 : BitVec 4) + BitVec.signExtend 64 (0 : BitVec 11) * BitVec.ofNat 64 4) 4 [.t, .w] (leafOf 1) (page + 16) ∧ (tentFull true).HomeFree (leafOf 1) (page + 16) 4 ∧ (tentFull true).Issues .tentative [3, 4] ∧ (tentFull true).Sound (3 : BitVec 4) ∧ (tentFull true).Sound (4 : BitVec 4) ∧ (tentFull true).OnPage (BitVec.setWidth 64 (0 : BitVec 3) <<< 61 + (tentFull true).val (4 : BitVec 4) + BitVec.signExtend 64 (0 : BitVec 11) * BitVec.ofNat 64 8) 8 [.t, .w] (leafOf 1) (page + 16) ∧ (tentFull true).HomeFree (leafOf 1) (page + 16) 8 ∧ (tentFull true).cellsAt (page + 16) 8 = [] ∧ 128 ≤ (tentFull true).pairUse ((((tentFull true).touch (tentFull true).cur (leafOf 1) (page + 16)).lineHome (leafOf 1) (page + 16)).fst * 8 + (((tentFull true).touch (tentFull true).cur (leafOf 1) (page + 16)).lineHome (leafOf 1) (page + 16)).snd) ∧ (tentFull true).now.expired = true ∧ (tentFull true).Handles :=
  ⟨by decide, rfl, by decide, by decide +kernel, by decide +kernel, issues rfl, rfl, rfl, ⟨⟨_, 0, _, _, rfl, rfl, rfl, rfl⟩, rfl, rfl⟩, ⟨rfl, rfl, rfl, rfl, rfl, rfl, rfl⟩, issues rfl, rfl, rfl, ⟨⟨_, 0, _, _, rfl, rfl, rfl, rfl⟩, rfl, rfl⟩, ⟨rfl, rfl, rfl, rfl, rfl, rfl, rfl⟩, rfl, by decide, rfl, ⟨rfl, rfl⟩⟩
theorem witness_tentative_held_1 : (areaOf (page + 16) = Area.firstTier ∨ areaOf (page + 16) = Area.secondTier) ∧ packageOf (page + 16) = tentMine.package ∧ Leaf.cls (leafOf 1) ≠ 0 ∧ tentMine.hostBias (page + 16) = false ∧ tentMine.inTransition (page + 16) = false ∧ tentMine.OnPage (tentMine.val (4 : BitVec 4)) 4 [.t, .w] (leafOf 1) (page + 16) ∧ tentMine.now.answered = true ∧ tentMine.underTest (memLine (page + 16) 4) = false ∧ List.find? (fun (c : Cell) => c.key == page + 16 && c.owner == tentMine.cur && c.epoch == tentMine.now.epoch) tentMine.cells = some (tentCell false) ∧ tentMine.Unmixed (page + 16) (tentCell false).size ∧ tentMine.sealBusy (page + 16) (tentCell false).size = false ∧ tentMine.isArmed (page + 16) (tentCell false).size = false ∧ tentMine.logged (page + 16) (tentCell false).size = [] ∧ tentMine.Issues .cell [4] :=
  ⟨by decide, rfl, by decide, by decide +kernel, by decide +kernel, ⟨⟨_, 0, _, _, rfl, rfl, rfl, rfl⟩, rfl, rfl⟩, rfl, rfl, rfl, by unfold State.Unmixed; decide +kernel, rfl, by decide +kernel, rfl, issues rfl⟩
theorem witness_tentative_held_2 : (areaOf (page + 16) = Area.firstTier ∨ areaOf (page + 16) = Area.secondTier) ∧ packageOf (page + 16) = tentMine.package ∧ Leaf.cls (leafOf 1) ≠ 0 ∧ tentMine.hostBias (page + 16) = false ∧ tentMine.inTransition (page + 16) = false ∧ tentMine.OnPage (tentMine.val (4 : BitVec 4)) 4 [.t, .w] (leafOf 1) (page + 16) ∧ tentMine.now.answered = true ∧ tentMine.underTest (memLine (page + 16) 4) = false ∧ List.find? (fun (c : Cell) => c.key == page + 16 && c.owner == tentMine.cur && c.epoch == tentMine.now.epoch) tentMine.cells = some (tentCell false) ∧ tentMine.Unmixed (page + 16) (tentCell false).size ∧ tentMine.sealBusy (page + 16) (tentCell false).size = false ∧ tentMine.isArmed (page + 16) (tentCell false).size = false ∧ tentMine.logged (page + 16) (tentCell false).size = [] ∧ tentMine.Issues .tentative [4] :=
  ⟨by decide, rfl, by decide, by decide +kernel, by decide +kernel, ⟨⟨_, 0, _, _, rfl, rfl, rfl, rfl⟩, rfl, rfl⟩, rfl, rfl, rfl, by unfold State.Unmixed; decide +kernel, rfl, by decide +kernel, rfl, issues rfl⟩
theorem witness_tentative_held_3 : (areaOf (page + 16) = Area.firstTier ∨ areaOf (page + 16) = Area.secondTier) ∧ packageOf (page + 16) = tentSeen.package ∧ Leaf.cls (leafOf 1) ≠ 0 ∧ tentSeen.hostBias (page + 16) = false ∧ tentSeen.inTransition (page + 16) = false ∧ tentSeen.OnPage (tentSeen.val (4 : BitVec 4)) 4 [.t, .w] (leafOf 1) (page + 16) ∧ tentSeen.now.answered = true ∧ tentSeen.underTest (memLine (page + 16) 4) = false ∧ List.find? (fun (c : Cell) => c.key == page + 16 && c.owner == tentSeen.cur && c.epoch == tentSeen.now.epoch) tentSeen.cells = some (tentCell true) ∧ tentSeen.Unmixed (page + 16) (tentCell true).size ∧ tentSeen.sealBusy (page + 16) (tentCell true).size = false ∧ tentSeen.isArmed (page + 16) (tentCell true).size = false ∧ tentSeen.logged (page + 16) (tentCell true).size = [] ∧ tentSeen.Issues .cell [4] :=
  ⟨by decide, rfl, by decide, by decide +kernel, by decide +kernel, ⟨⟨_, 0, _, _, rfl, rfl, rfl, rfl⟩, rfl, rfl⟩, rfl, rfl, rfl, by unfold State.Unmixed; decide +kernel, rfl, by decide +kernel, rfl, issues rfl⟩
theorem witness_tentative_held_4 : (areaOf (page + 16) = Area.firstTier ∨ areaOf (page + 16) = Area.secondTier) ∧ packageOf (page + 16) = tentSeen.package ∧ Leaf.cls (leafOf 1) ≠ 0 ∧ tentSeen.hostBias (page + 16) = false ∧ tentSeen.inTransition (page + 16) = false ∧ tentSeen.OnPage (tentSeen.val (4 : BitVec 4)) 4 [.t, .w] (leafOf 1) (page + 16) ∧ tentSeen.now.answered = true ∧ tentSeen.underTest (memLine (page + 16) 4) = false ∧ List.find? (fun (c : Cell) => c.key == page + 16 && c.owner == tentSeen.cur && c.epoch == tentSeen.now.epoch) tentSeen.cells = some (tentCell true) ∧ tentSeen.Unmixed (page + 16) (tentCell true).size ∧ tentSeen.sealBusy (page + 16) (tentCell true).size = false ∧ tentSeen.isArmed (page + 16) (tentCell true).size = false ∧ tentSeen.logged (page + 16) (tentCell true).size = [] ∧ tentSeen.Issues .tentative [4] :=
  ⟨by decide, rfl, by decide, by decide +kernel, by decide +kernel, ⟨⟨_, 0, _, _, rfl, rfl, rfl, rfl⟩, rfl, rfl⟩, rfl, rfl, rfl, by unfold State.Unmixed; decide +kernel, rfl, by decide +kernel, rfl, issues rfl⟩
theorem witness_dupd_1 : dupdBox.Issues .dupd [4, 3] ∧ dupdBox.Sound (4 : BitVec 4) ∧ dupdBox.Sound (3 : BitVec 4) ∧ dupdBox.OnPage (BitVec.setWidth 64 (0 : BitVec 3) <<< 61 + dupdBox.val (4 : BitVec 4)) (if True then 8 else 4) [.a, .w] (leafOf 1) (page + 16) ∧ dupdBox.now.answered = true ∧ dupdBox.inTransition (page + 16) = false ∧ packageOf (page + 16) = dupdBox.package ∧ areaOf (page + 16) = Area.firstTier ∧ Leaf.cls (leafOf 1) ≠ 0 ∧ dupdBox.hostBias (page + 16) = false ∧ (dupdBox.home ((localOf (page + 16) - 549755813888) / 2 ^ 30)).log.length < 16384 :=
  ⟨issues rfl, rfl, rfl, ⟨⟨_, 0, _, _, rfl, rfl, rfl, rfl⟩, rfl, rfl⟩, rfl, by decide +kernel, rfl, rfl, by decide, by decide +kernel, by decide⟩
theorem witness_seals_1 : sealAgain.Issues .seal [4, 5] ∧ BitVec.toNat (sealAgain.val (4 : BitVec 4)) % 64 = 0 ∧ 0 < BitVec.toNat (sealAgain.val (5 : BitVec 4)) ∧ BitVec.toNat (sealAgain.val (5 : BitVec 4)) % 64 = 0 ∧ BitVec.toNat (sealAgain.val (4 : BitVec 4)) % 4096 + BitVec.toNat (sealAgain.val (5 : BitVec 4)) ≤ 4096 ∧ sealAgain.OnPage (sealAgain.val (4 : BitVec 4)) 1 [.w] (leafOf 1) (page + 64) ∧ checkIn sealAgain.now.win (sealAgain.val (4 : BitVec 4) + sealAgain.val (5 : BitVec 4) - (1 : Word)) 1 [.w] = Except.ok (Space.virt 191) ∧ packageOf (page + 64) = sealAgain.package ∧ (areaOf (page + 64) = Area.firstTier ∨ areaOf (page + 64) = Area.secondTier) ∧ Leaf.cls (leafOf 1) = 1 ∧ (∃ (r : Sinter), r ∈ sealAgain.sealed ∧ r.parts = [(page + 64, BitVec.toNat (sealAgain.val (5 : BitVec 4)))]) :=
  ⟨issues rfl, rfl, by decide, rfl, by decide, ⟨⟨_, 0, _, _, rfl, rfl, rfl, rfl⟩, rfl, rfl⟩, rfl, rfl, by decide, rfl, by decide⟩
theorem witness_seals_2 : sealRest.Issues .seal [4, 5] ∧ BitVec.toNat (sealRest.val (4 : BitVec 4)) % 64 = 0 ∧ 0 < BitVec.toNat (sealRest.val (5 : BitVec 4)) ∧ BitVec.toNat (sealRest.val (5 : BitVec 4)) % 64 = 0 ∧ BitVec.toNat (sealRest.val (4 : BitVec 4)) % 4096 + BitVec.toNat (sealRest.val (5 : BitVec 4)) ≤ 4096 ∧ sealRest.OnPage (sealRest.val (4 : BitVec 4)) 1 [.w] (leafOf 1) (page + 256) ∧ checkIn sealRest.now.win (sealRest.val (4 : BitVec 4) + sealRest.val (5 : BitVec 4) - (1 : Word)) 1 [.w] = Except.ok (Space.virt 4095) ∧ packageOf (page + 256) = sealRest.package ∧ (areaOf (page + 256) = Area.firstTier ∨ areaOf (page + 256) = Area.secondTier) ∧ Leaf.cls (leafOf 1) = 1 ∧ (∀ (r : Sinter), r ∈ sealRest.sealed → r.touches (page + 256) (BitVec.toNat (sealRest.val (5 : BitVec 4))) = false) ∧ (List.filter (fun (r : Sinter) => r.die == dieOf sealRest.cur) sealRest.sealed).length < 256 :=
  ⟨issues rfl, rfl, by decide, rfl, by decide, ⟨⟨_, 0, _, _, rfl, rfl, rfl, rfl⟩, rfl, rfl⟩, rfl, rfl, by decide, rfl, by decide, by decide⟩
theorem witness_seals_3 : sealNone.Issues .seal [4, 5] ∧ sealNone.Handles ∧ BitVec.toNat (sealNone.val (4 : BitVec 4)) % 64 = 0 ∧ (BitVec.toNat (sealNone.val (5 : BitVec 4)) = 0 ∨ BitVec.toNat (sealNone.val (5 : BitVec 4)) % 64 ≠ 0 ∨ 2 ^ 24 < BitVec.toNat (sealNone.val (5 : BitVec 4))) :=
  ⟨issues rfl, ⟨rfl, rfl⟩, rfl, by decide⟩
theorem witness_seals_4 : sealMuch.Issues .seal [4, 5] ∧ sealMuch.Handles ∧ BitVec.toNat (sealMuch.val (4 : BitVec 4)) % 64 = 0 ∧ (BitVec.toNat (sealMuch.val (5 : BitVec 4)) = 0 ∨ BitVec.toNat (sealMuch.val (5 : BitVec 4)) % 64 ≠ 0 ∨ 2 ^ 24 < BitVec.toNat (sealMuch.val (5 : BitVec 4))) :=
  ⟨issues rfl, ⟨rfl, rfl⟩, rfl, by decide⟩
theorem witness_seals_5 : sealOdd.Issues .seal [4, 5] ∧ sealOdd.Handles ∧ BitVec.toNat (sealOdd.val (4 : BitVec 4)) % 64 ≠ 0 :=
  ⟨issues rfl, ⟨rfl, rfl⟩, by decide⟩

/-! ## Vectors -/

/-- A register of w bits with words that follow from a seed. -/
def noise (seed : Nat) (w : Nat := 1024) : BitVec w :=
  BitVec.ofNat w ((List.range 40).foldl (fun a i => a * 2 ^ 32 + (seed * 2654435761 * (i + 1) + 0x9E3779B9 * seed * i * i + i * 77777) % 2 ^ 32) seed)
def vecThread (l : List (BitVec 4 × Word)) : Thread := { thr l with
  vec := ⟨#[noise 1, noise 2, noise 3, noise 4, noise 5, noise 6, noise 7, noise 8], rfl⟩
  msk := ⟨#[0, noise 11 128, noise 12 128, noise 13 128, 0x8001, 0, 0, 0], rfl⟩, finished := true
  ext := ⟨#[Reg.of 0x0302, Reg.of 5, Reg.of 7, Reg.of 0x0905, Reg.zero, Reg.zero, Reg.zero, Reg.zero], rfl⟩ }
def vecBox : State := (box []).setThread 0 (vecThread [])
def vecTraps : State := (box []).setThread 0 { vecThread [] with fpctl := 0x11F00 }
def vecAcc : State := vecBox.setCore 0 { Core.initial with claims := Core.initial.claims.set 33 (some 0), accs := Core.initial.accs.set 1 { Acc.initial with bits := noise 21 8192 } }
/-- Odd lane numbers, of 64 bits, in descending order. -/
def vecIndex : VecReg := BitVec.ofNat 1024 ((List.range 16).foldl (fun a i => a + ((15 - i) * 2 + 1) * 2 ^ (64 * i)) 0)
/-- Five by three dwords at tile address 32. -/
def vecPattern : Pattern := BitVec.ofNat 512 (2 ^ 61 + 32 + 3 * 2 ^ 64 + 1 * 2 ^ 68 + 5 * 2 ^ 128 + 5 * 2 ^ 160 + 2 ^ 192 + 2 ^ 224 + 8 * 2 ^ 256 + 0x30 * 2 ^ 288)
def vecMem (i : Word) : State := ((box []).setThread 0 { vecThread [(4, i)] with vec := Thread.initial.vec.set 5 vecIndex, str := Vector.replicate 4 vecPattern }).setCore 0
  { Core.initial with tile := Memory.writeN [] 0 ((List.range 320).map fun i => BitVec.ofNat 8 (i * 37 + 11)) }
def vecUnit : State := vecMem 16
def vecStream : State := vecMem 3

theorem witness_vector_integers_1 : BitVec.toNat (3 : BitVec 4) < 8 ∧ vecBox.Issues .vector [] ∧ vecBox.Vectors false :=
  ⟨by decide, issues rfl, vectors rfl rfl rfl (.inl rfl)⟩
theorem witness_vector_integers_2 : BitVec.toNat (3 : BitVec 4) < 8 ∧ vecBox.Issues .vector [] ∧ vecBox.Vectors true :=
  ⟨by decide, issues rfl, vectors rfl rfl rfl (.inl rfl)⟩
theorem witness_vector_floats_1 : 8 ≤ BitVec.toNat (8 : BitVec 4) ∧ BitVec.toNat (8 : BitVec 4) ≤ 12 ∧ ((8 : BitVec 4) = (12 : BitVec 4) → BitVec.toNat (vecBox.now.extReg (0 : BitVec 3)).val % 8 ≠ 0) ∧ BitVec.toNat (0 : BitVec 3) ≤ 4 ∧ vecBox.Issues .vector [] ∧ vecBox.Vectors false ∧ List.foldl (fun (fl : BitVec 5) (i : Nat) => if BitVec.getLsbD (vecBox.now.maskReg (1 : BitVec 3)) i = true then fl ||| ((laneFmt (8 : BitVec 4) (BitVec.setWidth 5 (vecBox.now.extReg (0 : BitVec 3)).val)).add (Rm.of (BitVec.toNat (0 : BitVec 3)) ((vecBox.now.fpctl >>> 16).toNat % 4)) ((laneFmt (8 : BitVec 4) (BitVec.setWidth 5 (vecBox.now.extReg (0 : BitVec 3)).val)).decode (vlane (vecBox.now.vecReg (1 : BitVec 3)) (laneBits (8 : BitVec 4)) i).toNat) ((laneFmt (8 : BitVec 4) (BitVec.setWidth 5 (vecBox.now.extReg (0 : BitVec 3)).val)).decode (vlane (vecBox.now.vecReg (2 : BitVec 3)) (laneBits (8 : BitVec 4)) i).toNat)).snd else fl) (0 : BitVec 5) (List.range (1024 / laneBits (8 : BitVec 4))) &&& BitVec.extractLsb' 8 5 vecBox.now.fpctl = (0 : BitVec 5) :=
  ⟨by decide, by decide, by decide, by decide, issues rfl, vectors rfl rfl rfl (.inl rfl), by decide +kernel⟩
theorem witness_vector_floats_2 : 8 ≤ BitVec.toNat (8 : BitVec 4) ∧ BitVec.toNat (8 : BitVec 4) ≤ 12 ∧ ((8 : BitVec 4) = (12 : BitVec 4) → BitVec.toNat (vecBox.now.extReg (0 : BitVec 3)).val % 8 ≠ 0) ∧ BitVec.toNat (0 : BitVec 3) ≤ 4 ∧ vecBox.Issues .vector [] ∧ vecBox.Vectors false ∧ List.foldl (fun (fl : BitVec 5) (i : Nat) => if BitVec.getLsbD (vecBox.now.maskReg (1 : BitVec 3)) i = true then fl ||| ((laneFmt (8 : BitVec 4) (BitVec.setWidth 5 (vecBox.now.extReg (0 : BitVec 3)).val)).sub (Rm.of (BitVec.toNat (0 : BitVec 3)) ((vecBox.now.fpctl >>> 16).toNat % 4)) ((laneFmt (8 : BitVec 4) (BitVec.setWidth 5 (vecBox.now.extReg (0 : BitVec 3)).val)).decode (vlane (vecBox.now.vecReg (1 : BitVec 3)) (laneBits (8 : BitVec 4)) i).toNat) ((laneFmt (8 : BitVec 4) (BitVec.setWidth 5 (vecBox.now.extReg (0 : BitVec 3)).val)).decode (vlane (vecBox.now.vecReg (2 : BitVec 3)) (laneBits (8 : BitVec 4)) i).toNat)).snd else fl) (0 : BitVec 5) (List.range (1024 / laneBits (8 : BitVec 4))) &&& BitVec.extractLsb' 8 5 vecBox.now.fpctl = (0 : BitVec 5) :=
  ⟨by decide, by decide, by decide, by decide, issues rfl, vectors rfl rfl rfl (.inl rfl), by decide +kernel⟩
theorem witness_vector_floats_3 : 8 ≤ BitVec.toNat (8 : BitVec 4) ∧ BitVec.toNat (8 : BitVec 4) ≤ 12 ∧ ((8 : BitVec 4) = (12 : BitVec 4) → BitVec.toNat (vecBox.now.extReg (0 : BitVec 3)).val % 8 ≠ 0) ∧ BitVec.toNat (0 : BitVec 3) ≤ 4 ∧ vecBox.Issues .vector [] ∧ vecBox.Vectors false ∧ List.foldl (fun (fl : BitVec 5) (i : Nat) => if BitVec.getLsbD (vecBox.now.maskReg (1 : BitVec 3)) i = true then fl ||| ((laneFmt (8 : BitVec 4) (BitVec.setWidth 5 (vecBox.now.extReg (0 : BitVec 3)).val)).mul (Rm.of (BitVec.toNat (0 : BitVec 3)) ((vecBox.now.fpctl >>> 16).toNat % 4)) ((laneFmt (8 : BitVec 4) (BitVec.setWidth 5 (vecBox.now.extReg (0 : BitVec 3)).val)).decode (vlane (vecBox.now.vecReg (1 : BitVec 3)) (laneBits (8 : BitVec 4)) i).toNat) ((laneFmt (8 : BitVec 4) (BitVec.setWidth 5 (vecBox.now.extReg (0 : BitVec 3)).val)).decode (vlane (vecBox.now.vecReg (2 : BitVec 3)) (laneBits (8 : BitVec 4)) i).toNat)).snd else fl) (0 : BitVec 5) (List.range (1024 / laneBits (8 : BitVec 4))) &&& BitVec.extractLsb' 8 5 vecBox.now.fpctl = (0 : BitVec 5) :=
  ⟨by decide, by decide, by decide, by decide, issues rfl, vectors rfl rfl rfl (.inl rfl), by decide +kernel⟩
theorem witness_vector_floats_4 : 8 ≤ BitVec.toNat (8 : BitVec 4) ∧ BitVec.toNat (8 : BitVec 4) ≤ 12 ∧ ((8 : BitVec 4) = (12 : BitVec 4) → BitVec.toNat (vecBox.now.extReg (0 : BitVec 3)).val % 8 ≠ 0) ∧ BitVec.toNat (0 : BitVec 3) ≤ 4 ∧ vecBox.Issues .vector [] ∧ vecBox.Vectors true ∧ List.foldl (fun (fl : BitVec 5) (i : Nat) => if BitVec.getLsbD (vecBox.now.maskReg (1 : BitVec 3)) i = true then fl ||| ((laneFmt (8 : BitVec 4) (BitVec.setWidth 5 (vecBox.now.extReg (0 : BitVec 3)).val)).div (Rm.of (BitVec.toNat (0 : BitVec 3)) ((vecBox.now.fpctl >>> 16).toNat % 4)) ((laneFmt (8 : BitVec 4) (BitVec.setWidth 5 (vecBox.now.extReg (0 : BitVec 3)).val)).decode (vlane (vecBox.now.vecReg (1 : BitVec 3)) (laneBits (8 : BitVec 4)) i).toNat) ((laneFmt (8 : BitVec 4) (BitVec.setWidth 5 (vecBox.now.extReg (0 : BitVec 3)).val)).decode (vlane (vecBox.now.vecReg (2 : BitVec 3)) (laneBits (8 : BitVec 4)) i).toNat)).snd else fl) (0 : BitVec 5) (List.range (1024 / laneBits (8 : BitVec 4))) &&& BitVec.extractLsb' 8 5 vecBox.now.fpctl = (0 : BitVec 5) :=
  ⟨by decide, by decide, by decide, by decide, issues rfl, vectors rfl rfl rfl (.inl rfl), by decide +kernel⟩
theorem witness_vector_floats_5 : 8 ≤ BitVec.toNat (8 : BitVec 4) ∧ BitVec.toNat (8 : BitVec 4) ≤ 12 ∧ ((8 : BitVec 4) = (12 : BitVec 4) → BitVec.toNat (vecBox.now.extReg (0 : BitVec 3)).val % 8 ≠ 0) ∧ BitVec.toNat (0 : BitVec 3) ≤ 4 ∧ vecBox.Issues .vector [] ∧ vecBox.Vectors true ∧ List.foldl (fun (fl : BitVec 5) (i : Nat) => if BitVec.getLsbD (vecBox.now.maskReg (1 : BitVec 3)) i = true then fl ||| ((laneFmt (8 : BitVec 4) (BitVec.setWidth 5 (vecBox.now.extReg (0 : BitVec 3)).val)).sqrt (Rm.of (BitVec.toNat (0 : BitVec 3)) ((vecBox.now.fpctl >>> 16).toNat % 4)) ((laneFmt (8 : BitVec 4) (BitVec.setWidth 5 (vecBox.now.extReg (0 : BitVec 3)).val)).decode (vlane (vecBox.now.vecReg (1 : BitVec 3)) (laneBits (8 : BitVec 4)) i).toNat)).snd else fl) (0 : BitVec 5) (List.range (1024 / laneBits (8 : BitVec 4))) &&& BitVec.extractLsb' 8 5 vecBox.now.fpctl = (0 : BitVec 5) :=
  ⟨by decide, by decide, by decide, by decide, issues rfl, vectors rfl rfl rfl (.inl rfl), by decide +kernel⟩
theorem witness_vector_floats_6 : 8 ≤ BitVec.toNat (8 : BitVec 4) ∧ BitVec.toNat (8 : BitVec 4) ≤ 12 ∧ ((8 : BitVec 4) = (12 : BitVec 4) → BitVec.toNat (vecBox.now.extReg (0 : BitVec 3)).val % 8 ≠ 0) ∧ BitVec.toNat (0 : BitVec 3) ≤ 4 ∧ vecBox.Issues .vector [] ∧ vecBox.Vectors false ∧ List.foldl (fun (fl : BitVec 5) (i : Nat) => if BitVec.getLsbD (vecBox.now.maskReg (1 : BitVec 3)) i = true then fl ||| ((laneFmt (8 : BitVec 4) (BitVec.setWidth 5 (vecBox.now.extReg (0 : BitVec 3)).val)).fma (Rm.of (BitVec.toNat (0 : BitVec 3)) ((vecBox.now.fpctl >>> 16).toNat % 4)) ((laneFmt (8 : BitVec 4) (BitVec.setWidth 5 (vecBox.now.extReg (0 : BitVec 3)).val)).decode (vlane (vecBox.now.vecReg (1 : BitVec 3)) (laneBits (8 : BitVec 4)) i).toNat) ((laneFmt (8 : BitVec 4) (BitVec.setWidth 5 (vecBox.now.extReg (0 : BitVec 3)).val)).decode (vlane (vecBox.now.vecReg (2 : BitVec 3)) (laneBits (8 : BitVec 4)) i).toNat) ((laneFmt (8 : BitVec 4) (BitVec.setWidth 5 (vecBox.now.extReg (0 : BitVec 3)).val)).decode (vlane (vecBox.now.vecReg (3 : BitVec 3)) (laneBits (8 : BitVec 4)) i).toNat)).snd else fl) (0 : BitVec 5) (List.range (1024 / laneBits (8 : BitVec 4))) &&& BitVec.extractLsb' 8 5 vecBox.now.fpctl = (0 : BitVec 5) :=
  ⟨by decide, by decide, by decide, by decide, issues rfl, vectors rfl rfl rfl (.inl rfl), by decide +kernel⟩
theorem witness_vector_floats_7 : 8 ≤ BitVec.toNat (8 : BitVec 4) ∧ BitVec.toNat (8 : BitVec 4) ≤ 12 ∧ ((8 : BitVec 4) = (12 : BitVec 4) → BitVec.toNat (vecBox.now.extReg (0 : BitVec 3)).val % 8 ≠ 0) ∧ BitVec.toNat (0 : BitVec 3) ≤ 4 ∧ vecBox.Issues .vector [] ∧ vecBox.Vectors false ∧ List.foldl (fun (fl : BitVec 5) (i : Nat) => if BitVec.getLsbD (vecBox.now.maskReg (1 : BitVec 3)) i = true then fl ||| ((laneFmt (8 : BitVec 4) (BitVec.setWidth 5 (vecBox.now.extReg (0 : BitVec 3)).val)).fma (Rm.of (BitVec.toNat (0 : BitVec 3)) ((vecBox.now.fpctl >>> 16).toNat % 4)) ((laneFmt (8 : BitVec 4) (BitVec.setWidth 5 (vecBox.now.extReg (0 : BitVec 3)).val)).decode (vlane (vecBox.now.vecReg (1 : BitVec 3)) (laneBits (8 : BitVec 4)) i).toNat).negate ((laneFmt (8 : BitVec 4) (BitVec.setWidth 5 (vecBox.now.extReg (0 : BitVec 3)).val)).decode (vlane (vecBox.now.vecReg (2 : BitVec 3)) (laneBits (8 : BitVec 4)) i).toNat) ((laneFmt (8 : BitVec 4) (BitVec.setWidth 5 (vecBox.now.extReg (0 : BitVec 3)).val)).decode (vlane (vecBox.now.vecReg (3 : BitVec 3)) (laneBits (8 : BitVec 4)) i).toNat)).snd else fl) (0 : BitVec 5) (List.range (1024 / laneBits (8 : BitVec 4))) &&& BitVec.extractLsb' 8 5 vecBox.now.fpctl = (0 : BitVec 5) :=
  ⟨by decide, by decide, by decide, by decide, issues rfl, vectors rfl rfl rfl (.inl rfl), by decide +kernel⟩
theorem witness_vector_floats_8 : 8 ≤ BitVec.toNat (8 : BitVec 4) ∧ BitVec.toNat (8 : BitVec 4) ≤ 12 ∧ ((8 : BitVec 4) = (12 : BitVec 4) → BitVec.toNat (vecBox.now.extReg (0 : BitVec 3)).val % 8 ≠ 0) ∧ BitVec.toNat (0 : BitVec 3) ≤ 4 ∧ vecBox.Issues .vector [] ∧ vecBox.Vectors ((8 : BitVec 4) == (11 : BitVec 4)) ∧ List.foldl (fun (fl : BitVec 5) (i : Nat) => if BitVec.getLsbD (vecBox.now.maskReg (1 : BitVec 3)) i = true then fl ||| ((laneFmt (8 : BitVec 4) (BitVec.setWidth 5 (vecBox.now.extReg (0 : BitVec 3)).val)).exp2 (Rm.of (BitVec.toNat (0 : BitVec 3)) ((vecBox.now.fpctl >>> 16).toNat % 4)) ((laneFmt (8 : BitVec 4) (BitVec.setWidth 5 (vecBox.now.extReg (0 : BitVec 3)).val)).decode (vlane (vecBox.now.vecReg (1 : BitVec 3)) (laneBits (8 : BitVec 4)) i).toNat)).snd else fl) (0 : BitVec 5) (List.range (1024 / laneBits (8 : BitVec 4))) &&& BitVec.extractLsb' 8 5 vecBox.now.fpctl = (0 : BitVec 5) :=
  ⟨by decide, by decide, by decide, by decide, issues rfl, vectors rfl rfl rfl (.inl rfl), by decide +kernel⟩
theorem witness_vector_floats_9 : 8 ≤ BitVec.toNat (8 : BitVec 4) ∧ BitVec.toNat (8 : BitVec 4) ≤ 12 ∧ ((8 : BitVec 4) = (12 : BitVec 4) → BitVec.toNat (vecBox.now.extReg (0 : BitVec 3)).val % 8 ≠ 0) ∧ BitVec.toNat (0 : BitVec 3) ≤ 4 ∧ vecBox.Issues .vector [] ∧ vecBox.Vectors false ∧ List.foldl (fun (fl : BitVec 5) (i : Nat) => if BitVec.getLsbD (vecBox.now.maskReg (1 : BitVec 3)) i = true then fl ||| ((laneFmt (8 : BitVec 4) (BitVec.setWidth 5 (vecBox.now.extReg (0 : BitVec 3)).val)).least (vlane (vecBox.now.vecReg (1 : BitVec 3)) (laneBits (8 : BitVec 4)) i).toNat (vlane (vecBox.now.vecReg (2 : BitVec 3)) (laneBits (8 : BitVec 4)) i).toNat).snd else fl) (0 : BitVec 5) (List.range (1024 / laneBits (8 : BitVec 4))) &&& BitVec.extractLsb' 8 5 vecBox.now.fpctl = (0 : BitVec 5) :=
  ⟨by decide, by decide, by decide, by decide, issues rfl, vectors rfl rfl rfl (.inl rfl), rfl⟩
theorem witness_vector_floats_10 : 8 ≤ BitVec.toNat (8 : BitVec 4) ∧ BitVec.toNat (8 : BitVec 4) ≤ 12 ∧ ((8 : BitVec 4) = (12 : BitVec 4) → BitVec.toNat (vecBox.now.extReg (0 : BitVec 3)).val % 8 ≠ 0) ∧ BitVec.toNat (0 : BitVec 3) ≤ 4 ∧ vecBox.Issues .vector [] ∧ vecBox.Vectors false ∧ List.foldl (fun (fl : BitVec 5) (i : Nat) => if BitVec.getLsbD (vecBox.now.maskReg (1 : BitVec 3)) i = true then fl ||| ((laneFmt (8 : BitVec 4) (BitVec.setWidth 5 (vecBox.now.extReg (0 : BitVec 3)).val)).greatest (vlane (vecBox.now.vecReg (1 : BitVec 3)) (laneBits (8 : BitVec 4)) i).toNat (vlane (vecBox.now.vecReg (2 : BitVec 3)) (laneBits (8 : BitVec 4)) i).toNat).snd else fl) (0 : BitVec 5) (List.range (1024 / laneBits (8 : BitVec 4))) &&& BitVec.extractLsb' 8 5 vecBox.now.fpctl = (0 : BitVec 5) :=
  ⟨by decide, by decide, by decide, by decide, issues rfl, vectors rfl rfl rfl (.inl rfl), rfl⟩
theorem witness_vector_floats_11 : 8 ≤ BitVec.toNat (8 : BitVec 4) ∧ BitVec.toNat (8 : BitVec 4) ≤ 12 ∧ ((8 : BitVec 4) = (12 : BitVec 4) → BitVec.toNat (vecBox.now.extReg (0 : BitVec 3)).val % 8 ≠ 0) ∧ BitVec.toNat (0 : BitVec 3) ≤ 4 ∧ vecBox.Issues .vector [] ∧ vecBox.Vectors false ∧ List.foldl (fun (fl : BitVec 5) (i : Nat) => if BitVec.getLsbD (vecBox.now.maskReg (1 : BitVec 3)) i = true then fl ||| ((laneFmt (8 : BitVec 4) (BitVec.setWidth 5 (vecBox.now.extReg (0 : BitVec 3)).val)).absolute (vlane (vecBox.now.vecReg (1 : BitVec 3)) (laneBits (8 : BitVec 4)) i).toNat).snd else fl) (0 : BitVec 5) (List.range (1024 / laneBits (8 : BitVec 4))) &&& BitVec.extractLsb' 8 5 vecBox.now.fpctl = (0 : BitVec 5) :=
  ⟨by decide, by decide, by decide, by decide, issues rfl, vectors rfl rfl rfl (.inl rfl), rfl⟩
theorem witness_vector_floats_12 : 8 ≤ BitVec.toNat (8 : BitVec 4) ∧ BitVec.toNat (8 : BitVec 4) ≤ 12 ∧ ((8 : BitVec 4) = (12 : BitVec 4) → BitVec.toNat (vecBox.now.extReg (0 : BitVec 3)).val % 8 ≠ 0) ∧ BitVec.toNat (0 : BitVec 3) ≤ 4 ∧ vecBox.Issues .vector [] ∧ vecBox.Vectors false ∧ List.foldl (fun (fl : BitVec 5) (i : Nat) => if BitVec.getLsbD (vecBox.now.maskReg (1 : BitVec 3)) i = true then fl ||| ((laneFmt (8 : BitVec 4) (BitVec.setWidth 5 (vecBox.now.extReg (0 : BitVec 3)).val)).negative (vlane (vecBox.now.vecReg (1 : BitVec 3)) (laneBits (8 : BitVec 4)) i).toNat).snd else fl) (0 : BitVec 5) (List.range (1024 / laneBits (8 : BitVec 4))) &&& BitVec.extractLsb' 8 5 vecBox.now.fpctl = (0 : BitVec 5) :=
  ⟨by decide, by decide, by decide, by decide, issues rfl, vectors rfl rfl rfl (.inl rfl), rfl⟩
theorem witness_vector_floats_13 : 8 ≤ BitVec.toNat (9 : BitVec 4) ∧ BitVec.toNat (9 : BitVec 4) ≤ 12 ∧ ((9 : BitVec 4) = (12 : BitVec 4) → BitVec.toNat (vecTraps.now.extReg (0 : BitVec 3)).val % 8 ≠ 0) ∧ BitVec.toNat (4 : BitVec 3) ≤ 4 ∧ vecTraps.Issues .vector [] ∧ vecTraps.Vectors false ∧ List.foldl (fun (fl : BitVec 5) (i : Nat) => if BitVec.getLsbD (vecTraps.now.maskReg (1 : BitVec 3)) i = true then fl ||| ((laneFmt (9 : BitVec 4) (BitVec.setWidth 5 (vecTraps.now.extReg (0 : BitVec 3)).val)).add (Rm.of (BitVec.toNat (4 : BitVec 3)) ((vecTraps.now.fpctl >>> 16).toNat % 4)) ((laneFmt (9 : BitVec 4) (BitVec.setWidth 5 (vecTraps.now.extReg (0 : BitVec 3)).val)).decode (vlane (vecTraps.now.vecReg (1 : BitVec 3)) (laneBits (9 : BitVec 4)) i).toNat) ((laneFmt (9 : BitVec 4) (BitVec.setWidth 5 (vecTraps.now.extReg (0 : BitVec 3)).val)).decode (vlane (vecTraps.now.vecReg (2 : BitVec 3)) (laneBits (9 : BitVec 4)) i).toNat)).snd else fl) (0 : BitVec 5) (List.range (1024 / laneBits (9 : BitVec 4))) &&& BitVec.extractLsb' 8 5 vecTraps.now.fpctl ≠ (0 : BitVec 5) ∧ vecTraps.Handles :=
  ⟨by decide, by decide, by decide, by decide, issues rfl, vectors rfl rfl rfl (.inl rfl), by decide +kernel, ⟨rfl, rfl⟩⟩
theorem witness_vector_floats_14 : 8 ≤ BitVec.toNat (9 : BitVec 4) ∧ BitVec.toNat (9 : BitVec 4) ≤ 12 ∧ ((9 : BitVec 4) = (12 : BitVec 4) → BitVec.toNat (vecTraps.now.extReg (0 : BitVec 3)).val % 8 ≠ 0) ∧ BitVec.toNat (4 : BitVec 3) ≤ 4 ∧ vecTraps.Issues .vector [] ∧ vecTraps.Vectors false ∧ List.foldl (fun (fl : BitVec 5) (i : Nat) => if BitVec.getLsbD (vecTraps.now.maskReg (1 : BitVec 3)) i = true then fl ||| ((laneFmt (9 : BitVec 4) (BitVec.setWidth 5 (vecTraps.now.extReg (0 : BitVec 3)).val)).sub (Rm.of (BitVec.toNat (4 : BitVec 3)) ((vecTraps.now.fpctl >>> 16).toNat % 4)) ((laneFmt (9 : BitVec 4) (BitVec.setWidth 5 (vecTraps.now.extReg (0 : BitVec 3)).val)).decode (vlane (vecTraps.now.vecReg (1 : BitVec 3)) (laneBits (9 : BitVec 4)) i).toNat) ((laneFmt (9 : BitVec 4) (BitVec.setWidth 5 (vecTraps.now.extReg (0 : BitVec 3)).val)).decode (vlane (vecTraps.now.vecReg (2 : BitVec 3)) (laneBits (9 : BitVec 4)) i).toNat)).snd else fl) (0 : BitVec 5) (List.range (1024 / laneBits (9 : BitVec 4))) &&& BitVec.extractLsb' 8 5 vecTraps.now.fpctl ≠ (0 : BitVec 5) ∧ vecTraps.Handles :=
  ⟨by decide, by decide, by decide, by decide, issues rfl, vectors rfl rfl rfl (.inl rfl), by decide +kernel, ⟨rfl, rfl⟩⟩
theorem witness_vector_floats_15 : 8 ≤ BitVec.toNat (9 : BitVec 4) ∧ BitVec.toNat (9 : BitVec 4) ≤ 12 ∧ ((9 : BitVec 4) = (12 : BitVec 4) → BitVec.toNat (vecTraps.now.extReg (0 : BitVec 3)).val % 8 ≠ 0) ∧ BitVec.toNat (4 : BitVec 3) ≤ 4 ∧ vecTraps.Issues .vector [] ∧ vecTraps.Vectors false ∧ List.foldl (fun (fl : BitVec 5) (i : Nat) => if BitVec.getLsbD (vecTraps.now.maskReg (1 : BitVec 3)) i = true then fl ||| ((laneFmt (9 : BitVec 4) (BitVec.setWidth 5 (vecTraps.now.extReg (0 : BitVec 3)).val)).mul (Rm.of (BitVec.toNat (4 : BitVec 3)) ((vecTraps.now.fpctl >>> 16).toNat % 4)) ((laneFmt (9 : BitVec 4) (BitVec.setWidth 5 (vecTraps.now.extReg (0 : BitVec 3)).val)).decode (vlane (vecTraps.now.vecReg (1 : BitVec 3)) (laneBits (9 : BitVec 4)) i).toNat) ((laneFmt (9 : BitVec 4) (BitVec.setWidth 5 (vecTraps.now.extReg (0 : BitVec 3)).val)).decode (vlane (vecTraps.now.vecReg (2 : BitVec 3)) (laneBits (9 : BitVec 4)) i).toNat)).snd else fl) (0 : BitVec 5) (List.range (1024 / laneBits (9 : BitVec 4))) &&& BitVec.extractLsb' 8 5 vecTraps.now.fpctl ≠ (0 : BitVec 5) ∧ vecTraps.Handles :=
  ⟨by decide, by decide, by decide, by decide, issues rfl, vectors rfl rfl rfl (.inl rfl), by decide +kernel, ⟨rfl, rfl⟩⟩
theorem witness_vector_floats_16 : 8 ≤ BitVec.toNat (9 : BitVec 4) ∧ BitVec.toNat (9 : BitVec 4) ≤ 12 ∧ ((9 : BitVec 4) = (12 : BitVec 4) → BitVec.toNat (vecTraps.now.extReg (0 : BitVec 3)).val % 8 ≠ 0) ∧ BitVec.toNat (4 : BitVec 3) ≤ 4 ∧ vecTraps.Issues .vector [] ∧ vecTraps.Vectors true ∧ List.foldl (fun (fl : BitVec 5) (i : Nat) => if BitVec.getLsbD (vecTraps.now.maskReg (1 : BitVec 3)) i = true then fl ||| ((laneFmt (9 : BitVec 4) (BitVec.setWidth 5 (vecTraps.now.extReg (0 : BitVec 3)).val)).div (Rm.of (BitVec.toNat (4 : BitVec 3)) ((vecTraps.now.fpctl >>> 16).toNat % 4)) ((laneFmt (9 : BitVec 4) (BitVec.setWidth 5 (vecTraps.now.extReg (0 : BitVec 3)).val)).decode (vlane (vecTraps.now.vecReg (1 : BitVec 3)) (laneBits (9 : BitVec 4)) i).toNat) ((laneFmt (9 : BitVec 4) (BitVec.setWidth 5 (vecTraps.now.extReg (0 : BitVec 3)).val)).decode (vlane (vecTraps.now.vecReg (2 : BitVec 3)) (laneBits (9 : BitVec 4)) i).toNat)).snd else fl) (0 : BitVec 5) (List.range (1024 / laneBits (9 : BitVec 4))) &&& BitVec.extractLsb' 8 5 vecTraps.now.fpctl ≠ (0 : BitVec 5) ∧ vecTraps.Handles :=
  ⟨by decide, by decide, by decide, by decide, issues rfl, vectors rfl rfl rfl (.inl rfl), by decide +kernel, ⟨rfl, rfl⟩⟩
theorem witness_vector_floats_17 : 8 ≤ BitVec.toNat (9 : BitVec 4) ∧ BitVec.toNat (9 : BitVec 4) ≤ 12 ∧ ((9 : BitVec 4) = (12 : BitVec 4) → BitVec.toNat (vecTraps.now.extReg (0 : BitVec 3)).val % 8 ≠ 0) ∧ BitVec.toNat (4 : BitVec 3) ≤ 4 ∧ vecTraps.Issues .vector [] ∧ vecTraps.Vectors true ∧ List.foldl (fun (fl : BitVec 5) (i : Nat) => if BitVec.getLsbD (vecTraps.now.maskReg (1 : BitVec 3)) i = true then fl ||| ((laneFmt (9 : BitVec 4) (BitVec.setWidth 5 (vecTraps.now.extReg (0 : BitVec 3)).val)).sqrt (Rm.of (BitVec.toNat (4 : BitVec 3)) ((vecTraps.now.fpctl >>> 16).toNat % 4)) ((laneFmt (9 : BitVec 4) (BitVec.setWidth 5 (vecTraps.now.extReg (0 : BitVec 3)).val)).decode (vlane (vecTraps.now.vecReg (1 : BitVec 3)) (laneBits (9 : BitVec 4)) i).toNat)).snd else fl) (0 : BitVec 5) (List.range (1024 / laneBits (9 : BitVec 4))) &&& BitVec.extractLsb' 8 5 vecTraps.now.fpctl ≠ (0 : BitVec 5) ∧ vecTraps.Handles :=
  ⟨by decide, by decide, by decide, by decide, issues rfl, vectors rfl rfl rfl (.inl rfl), by decide +kernel, ⟨rfl, rfl⟩⟩
theorem witness_vector_floats_18 : 8 ≤ BitVec.toNat (9 : BitVec 4) ∧ BitVec.toNat (9 : BitVec 4) ≤ 12 ∧ ((9 : BitVec 4) = (12 : BitVec 4) → BitVec.toNat (vecTraps.now.extReg (0 : BitVec 3)).val % 8 ≠ 0) ∧ BitVec.toNat (4 : BitVec 3) ≤ 4 ∧ vecTraps.Issues .vector [] ∧ vecTraps.Vectors false ∧ List.foldl (fun (fl : BitVec 5) (i : Nat) => if BitVec.getLsbD (vecTraps.now.maskReg (1 : BitVec 3)) i = true then fl ||| ((laneFmt (9 : BitVec 4) (BitVec.setWidth 5 (vecTraps.now.extReg (0 : BitVec 3)).val)).fma (Rm.of (BitVec.toNat (4 : BitVec 3)) ((vecTraps.now.fpctl >>> 16).toNat % 4)) ((laneFmt (9 : BitVec 4) (BitVec.setWidth 5 (vecTraps.now.extReg (0 : BitVec 3)).val)).decode (vlane (vecTraps.now.vecReg (1 : BitVec 3)) (laneBits (9 : BitVec 4)) i).toNat) ((laneFmt (9 : BitVec 4) (BitVec.setWidth 5 (vecTraps.now.extReg (0 : BitVec 3)).val)).decode (vlane (vecTraps.now.vecReg (2 : BitVec 3)) (laneBits (9 : BitVec 4)) i).toNat) ((laneFmt (9 : BitVec 4) (BitVec.setWidth 5 (vecTraps.now.extReg (0 : BitVec 3)).val)).decode (vlane (vecTraps.now.vecReg (3 : BitVec 3)) (laneBits (9 : BitVec 4)) i).toNat)).snd else fl) (0 : BitVec 5) (List.range (1024 / laneBits (9 : BitVec 4))) &&& BitVec.extractLsb' 8 5 vecTraps.now.fpctl ≠ (0 : BitVec 5) ∧ vecTraps.Handles :=
  ⟨by decide, by decide, by decide, by decide, issues rfl, vectors rfl rfl rfl (.inl rfl), by decide +kernel, ⟨rfl, rfl⟩⟩
theorem witness_vector_floats_19 : 8 ≤ BitVec.toNat (9 : BitVec 4) ∧ BitVec.toNat (9 : BitVec 4) ≤ 12 ∧ ((9 : BitVec 4) = (12 : BitVec 4) → BitVec.toNat (vecTraps.now.extReg (0 : BitVec 3)).val % 8 ≠ 0) ∧ BitVec.toNat (4 : BitVec 3) ≤ 4 ∧ vecTraps.Issues .vector [] ∧ vecTraps.Vectors false ∧ List.foldl (fun (fl : BitVec 5) (i : Nat) => if BitVec.getLsbD (vecTraps.now.maskReg (1 : BitVec 3)) i = true then fl ||| ((laneFmt (9 : BitVec 4) (BitVec.setWidth 5 (vecTraps.now.extReg (0 : BitVec 3)).val)).fma (Rm.of (BitVec.toNat (4 : BitVec 3)) ((vecTraps.now.fpctl >>> 16).toNat % 4)) ((laneFmt (9 : BitVec 4) (BitVec.setWidth 5 (vecTraps.now.extReg (0 : BitVec 3)).val)).decode (vlane (vecTraps.now.vecReg (1 : BitVec 3)) (laneBits (9 : BitVec 4)) i).toNat).negate ((laneFmt (9 : BitVec 4) (BitVec.setWidth 5 (vecTraps.now.extReg (0 : BitVec 3)).val)).decode (vlane (vecTraps.now.vecReg (2 : BitVec 3)) (laneBits (9 : BitVec 4)) i).toNat) ((laneFmt (9 : BitVec 4) (BitVec.setWidth 5 (vecTraps.now.extReg (0 : BitVec 3)).val)).decode (vlane (vecTraps.now.vecReg (3 : BitVec 3)) (laneBits (9 : BitVec 4)) i).toNat)).snd else fl) (0 : BitVec 5) (List.range (1024 / laneBits (9 : BitVec 4))) &&& BitVec.extractLsb' 8 5 vecTraps.now.fpctl ≠ (0 : BitVec 5) ∧ vecTraps.Handles :=
  ⟨by decide, by decide, by decide, by decide, issues rfl, vectors rfl rfl rfl (.inl rfl), by decide +kernel, ⟨rfl, rfl⟩⟩
theorem witness_vector_floats_20 : 8 ≤ BitVec.toNat (9 : BitVec 4) ∧ BitVec.toNat (9 : BitVec 4) ≤ 12 ∧ ((9 : BitVec 4) = (12 : BitVec 4) → BitVec.toNat (vecTraps.now.extReg (0 : BitVec 3)).val % 8 ≠ 0) ∧ BitVec.toNat (4 : BitVec 3) ≤ 4 ∧ vecTraps.Issues .vector [] ∧ vecTraps.Vectors ((9 : BitVec 4) == (11 : BitVec 4)) ∧ List.foldl (fun (fl : BitVec 5) (i : Nat) => if BitVec.getLsbD (vecTraps.now.maskReg (1 : BitVec 3)) i = true then fl ||| ((laneFmt (9 : BitVec 4) (BitVec.setWidth 5 (vecTraps.now.extReg (0 : BitVec 3)).val)).exp2 (Rm.of (BitVec.toNat (4 : BitVec 3)) ((vecTraps.now.fpctl >>> 16).toNat % 4)) ((laneFmt (9 : BitVec 4) (BitVec.setWidth 5 (vecTraps.now.extReg (0 : BitVec 3)).val)).decode (vlane (vecTraps.now.vecReg (1 : BitVec 3)) (laneBits (9 : BitVec 4)) i).toNat)).snd else fl) (0 : BitVec 5) (List.range (1024 / laneBits (9 : BitVec 4))) &&& BitVec.extractLsb' 8 5 vecTraps.now.fpctl ≠ (0 : BitVec 5) ∧ vecTraps.Handles :=
  ⟨by decide, by decide, by decide, by decide, issues rfl, vectors rfl rfl rfl (.inl rfl), by decide +kernel, ⟨rfl, rfl⟩⟩
theorem witness_vector_floats_21 : 8 ≤ BitVec.toNat (11 : BitVec 4) ∧ BitVec.toNat (11 : BitVec 4) ≤ 12 ∧ ((11 : BitVec 4) = (12 : BitVec 4) → BitVec.toNat (vecBox.now.extReg (0 : BitVec 3)).val % 8 ≠ 0) ∧ 4 < BitVec.toNat (5 : BitVec 3) ∧ vecBox.Issues .vector [] ∧ vecBox.Handles :=
  ⟨by decide, by decide, by decide, by decide, issues rfl, ⟨rfl, rfl⟩⟩
theorem witness_vector_compares_1 : BitVec.toNat (7 : BitVec 4) ≤ 12 ∧ vecBox.Issues .vector [] ∧ vecBox.Vectors false ∧ ((7 : BitVec 4) = (12 : BitVec 4) → BitVec.toNat (vecBox.now.extReg (0 : BitVec 3)).val % 8 ≠ 0) ∧ BitVec.toNat (7 : BitVec 4) < 8 :=
  ⟨by decide, issues rfl, vectors rfl rfl rfl (.inl rfl), by decide, by decide⟩
theorem witness_vector_compares_2 : BitVec.toNat (7 : BitVec 4) ≤ 12 ∧ vecBox.Issues .vector [] ∧ vecBox.Vectors false ∧ ((7 : BitVec 4) = (12 : BitVec 4) → BitVec.toNat (vecBox.now.extReg (0 : BitVec 3)).val % 8 ≠ 0) ∧ BitVec.toNat (12 : BitVec 4) ≤ 12 ∧ BitVec.toNat (0 : BitVec 3) ≤ 4 ∧ ((12 : BitVec 4) = (12 : BitVec 4) → BitVec.toNat (vecBox.now.extReg (0 : BitVec 3)).val / 256 % 8 ≠ 0) ∧ (BitVec.toNat (7 : BitVec 4) < 8 ∧ BitVec.toNat (12 : BitVec 4) < 8 ∨ exactConversion (7 : BitVec 4) (12 : BitVec 4) = true → (0 : BitVec 3) = (0 : BitVec 3)) ∧ (8 ≤ BitVec.toNat (7 : BitVec 4) → BitVec.toNat (12 : BitVec 4) < 8 ∨ exactConversion (7 : BitVec 4) (12 : BitVec 4) = true → (1 : BitVec 1) = (0 : BitVec 1)) ∧ List.foldl (fun (fl : BitVec 5) (i : Nat) => if BitVec.getLsbD (vecBox.now.maskReg (1 : BitVec 3)) i = true then fl ||| (convertLane (7 : BitVec 4) (12 : BitVec 4) (laneFmt (7 : BitVec 4) (BitVec.setWidth 5 (vecBox.now.extReg (0 : BitVec 3)).val)) (laneFmt (12 : BitVec 4) (BitVec.setWidth 5 ((vecBox.now.extReg (0 : BitVec 3)).val >>> 8))) (Rm.of (BitVec.toNat (0 : BitVec 3)) ((vecBox.now.fpctl >>> 16).toNat % 4)) ((1 : BitVec 1) == (1 : BitVec 1)) (vlane (vecBox.now.vecReg (1 : BitVec 3)) (laneBits (7 : BitVec 4)) i).toNat).snd else fl) (0 : BitVec 5) (List.range (1024 / max (laneBits (7 : BitVec 4)) (laneBits (12 : BitVec 4)))) &&& BitVec.extractLsb' 8 5 vecBox.now.fpctl = (0 : BitVec 5) :=
  ⟨by decide, issues rfl, vectors rfl rfl rfl (.inl rfl), by decide, by decide, by decide, by decide, by decide, by decide, by decide +kernel⟩
theorem witness_vector_compares_3 : BitVec.toNat (12 : BitVec 4) ≤ 12 ∧ vecBox.Issues .vector [] ∧ vecBox.Vectors false ∧ (True → BitVec.toNat (vecBox.now.extReg (0 : BitVec 3)).val % 8 ≠ 0) ∧ 8 ≤ BitVec.toNat (12 : BitVec 4) ∧ (((List.range (1024 / laneBits (12 : BitVec 4))).any fun (i : Nat) => BitVec.getLsbD (vecBox.now.maskReg (1 : BitVec 3)) i && if false = true then ((laneFmt (12 : BitVec 4) (BitVec.setWidth 5 (vecBox.now.extReg (0 : BitVec 3)).val)).decode (vlane (vecBox.now.vecReg (1 : BitVec 3)) (laneBits (12 : BitVec 4)) i).toNat).isNan || ((laneFmt (12 : BitVec 4) (BitVec.setWidth 5 (vecBox.now.extReg (0 : BitVec 3)).val)).decode (vlane (vecBox.now.vecReg (2 : BitVec 3)) (laneBits (12 : BitVec 4)) i).toNat).isNan else ((laneFmt (12 : BitVec 4) (BitVec.setWidth 5 (vecBox.now.extReg (0 : BitVec 3)).val)).decode (vlane (vecBox.now.vecReg (1 : BitVec 3)) (laneBits (12 : BitVec 4)) i).toNat).isSnan || ((laneFmt (12 : BitVec 4) (BitVec.setWidth 5 (vecBox.now.extReg (0 : BitVec 3)).val)).decode (vlane (vecBox.now.vecReg (2 : BitVec 3)) (laneBits (12 : BitVec 4)) i).toNat).isSnan) = true → BitVec.getLsbD vecBox.now.fpctl 12 = false) :=
  ⟨by decide, issues rfl, vectors rfl rfl rfl (.inl rfl), by decide, by decide, by decide⟩
theorem witness_vector_compares_4 : BitVec.toNat (12 : BitVec 4) ≤ 12 ∧ vecBox.Issues .vector [] ∧ vecBox.Vectors false ∧ (True → BitVec.toNat (vecBox.now.extReg (0 : BitVec 3)).val % 8 ≠ 0) ∧ 8 ≤ BitVec.toNat (12 : BitVec 4) ∧ (((List.range (1024 / laneBits (12 : BitVec 4))).any fun (i : Nat) => BitVec.getLsbD (vecBox.now.maskReg (1 : BitVec 3)) i && if True then ((laneFmt (12 : BitVec 4) (BitVec.setWidth 5 (vecBox.now.extReg (0 : BitVec 3)).val)).decode (vlane (vecBox.now.vecReg (1 : BitVec 3)) (laneBits (12 : BitVec 4)) i).toNat).isNan || ((laneFmt (12 : BitVec 4) (BitVec.setWidth 5 (vecBox.now.extReg (0 : BitVec 3)).val)).decode (vlane (vecBox.now.vecReg (2 : BitVec 3)) (laneBits (12 : BitVec 4)) i).toNat).isNan else ((laneFmt (12 : BitVec 4) (BitVec.setWidth 5 (vecBox.now.extReg (0 : BitVec 3)).val)).decode (vlane (vecBox.now.vecReg (1 : BitVec 3)) (laneBits (12 : BitVec 4)) i).toNat).isSnan || ((laneFmt (12 : BitVec 4) (BitVec.setWidth 5 (vecBox.now.extReg (0 : BitVec 3)).val)).decode (vlane (vecBox.now.vecReg (2 : BitVec 3)) (laneBits (12 : BitVec 4)) i).toNat).isSnan) = true → BitVec.getLsbD vecBox.now.fpctl 12 = false) :=
  ⟨by decide, issues rfl, vectors rfl rfl rfl (.inl rfl), by decide, by decide, by decide⟩
theorem witness_vector_compares_5 : BitVec.toNat (12 : BitVec 4) ≤ 12 ∧ vecBox.Issues .vector [] ∧ vecBox.Vectors false ∧ (True → BitVec.toNat (vecBox.now.extReg (0 : BitVec 3)).val % 8 ≠ 0) ∧ BitVec.toNat (7 : BitVec 4) ≤ 12 ∧ BitVec.toNat (4 : BitVec 3) ≤ 4 ∧ ((7 : BitVec 4) = (12 : BitVec 4) → BitVec.toNat (vecBox.now.extReg (0 : BitVec 3)).val / 256 % 8 ≠ 0) ∧ (BitVec.toNat (12 : BitVec 4) < 8 ∧ BitVec.toNat (7 : BitVec 4) < 8 ∨ exactConversion (12 : BitVec 4) (7 : BitVec 4) = true → (4 : BitVec 3) = (0 : BitVec 3)) ∧ (8 ≤ BitVec.toNat (12 : BitVec 4) → BitVec.toNat (7 : BitVec 4) < 8 ∨ exactConversion (12 : BitVec 4) (7 : BitVec 4) = true → (0 : BitVec 1) = (0 : BitVec 1)) ∧ List.foldl (fun (fl : BitVec 5) (i : Nat) => if BitVec.getLsbD (vecBox.now.maskReg (1 : BitVec 3)) i = true then fl ||| (convertLane (12 : BitVec 4) (7 : BitVec 4) (laneFmt (12 : BitVec 4) (BitVec.setWidth 5 (vecBox.now.extReg (0 : BitVec 3)).val)) (laneFmt (7 : BitVec 4) (BitVec.setWidth 5 ((vecBox.now.extReg (0 : BitVec 3)).val >>> 8))) (Rm.of (BitVec.toNat (4 : BitVec 3)) ((vecBox.now.fpctl >>> 16).toNat % 4)) ((0 : BitVec 1) == (1 : BitVec 1)) (vlane (vecBox.now.vecReg (1 : BitVec 3)) (laneBits (12 : BitVec 4)) i).toNat).snd else fl) (0 : BitVec 5) (List.range (1024 / max (laneBits (12 : BitVec 4)) (laneBits (7 : BitVec 4)))) &&& BitVec.extractLsb' 8 5 vecBox.now.fpctl = (0 : BitVec 5) :=
  ⟨by decide, issues rfl, vectors rfl rfl rfl (.inl rfl), by decide, by decide, by decide, by decide, by decide, by decide, by decide +kernel⟩
theorem witness_vector_compares_6 : BitVec.toNat (8 : BitVec 4) ≤ 12 ∧ vecBox.Issues .vector [] ∧ vecBox.Vectors false ∧ ((8 : BitVec 4) = (12 : BitVec 4) → BitVec.toNat (vecBox.now.extReg (0 : BitVec 3)).val % 8 ≠ 0) ∧ 8 ≤ BitVec.toNat (8 : BitVec 4) ∧ (((List.range (1024 / laneBits (8 : BitVec 4))).any fun (i : Nat) => BitVec.getLsbD (vecBox.now.maskReg (1 : BitVec 3)) i && if false = true then ((laneFmt (8 : BitVec 4) (BitVec.setWidth 5 (vecBox.now.extReg (0 : BitVec 3)).val)).decode (vlane (vecBox.now.vecReg (1 : BitVec 3)) (laneBits (8 : BitVec 4)) i).toNat).isNan || ((laneFmt (8 : BitVec 4) (BitVec.setWidth 5 (vecBox.now.extReg (0 : BitVec 3)).val)).decode (vlane (vecBox.now.vecReg (2 : BitVec 3)) (laneBits (8 : BitVec 4)) i).toNat).isNan else ((laneFmt (8 : BitVec 4) (BitVec.setWidth 5 (vecBox.now.extReg (0 : BitVec 3)).val)).decode (vlane (vecBox.now.vecReg (1 : BitVec 3)) (laneBits (8 : BitVec 4)) i).toNat).isSnan || ((laneFmt (8 : BitVec 4) (BitVec.setWidth 5 (vecBox.now.extReg (0 : BitVec 3)).val)).decode (vlane (vecBox.now.vecReg (2 : BitVec 3)) (laneBits (8 : BitVec 4)) i).toNat).isSnan) = true → BitVec.getLsbD vecBox.now.fpctl 12 = false) :=
  ⟨by decide, issues rfl, vectors rfl rfl rfl (.inl rfl), by decide, by decide, by decide⟩
theorem witness_vector_compares_7 : BitVec.toNat (8 : BitVec 4) ≤ 12 ∧ vecBox.Issues .vector [] ∧ vecBox.Vectors false ∧ ((8 : BitVec 4) = (12 : BitVec 4) → BitVec.toNat (vecBox.now.extReg (0 : BitVec 3)).val % 8 ≠ 0) ∧ 8 ≤ BitVec.toNat (8 : BitVec 4) ∧ (((List.range (1024 / laneBits (8 : BitVec 4))).any fun (i : Nat) => BitVec.getLsbD (vecBox.now.maskReg (1 : BitVec 3)) i && if True then ((laneFmt (8 : BitVec 4) (BitVec.setWidth 5 (vecBox.now.extReg (0 : BitVec 3)).val)).decode (vlane (vecBox.now.vecReg (1 : BitVec 3)) (laneBits (8 : BitVec 4)) i).toNat).isNan || ((laneFmt (8 : BitVec 4) (BitVec.setWidth 5 (vecBox.now.extReg (0 : BitVec 3)).val)).decode (vlane (vecBox.now.vecReg (2 : BitVec 3)) (laneBits (8 : BitVec 4)) i).toNat).isNan else ((laneFmt (8 : BitVec 4) (BitVec.setWidth 5 (vecBox.now.extReg (0 : BitVec 3)).val)).decode (vlane (vecBox.now.vecReg (1 : BitVec 3)) (laneBits (8 : BitVec 4)) i).toNat).isSnan || ((laneFmt (8 : BitVec 4) (BitVec.setWidth 5 (vecBox.now.extReg (0 : BitVec 3)).val)).decode (vlane (vecBox.now.vecReg (2 : BitVec 3)) (laneBits (8 : BitVec 4)) i).toNat).isSnan) = true → BitVec.getLsbD vecBox.now.fpctl 12 = false) :=
  ⟨by decide, issues rfl, vectors rfl rfl rfl (.inl rfl), by decide, by decide, by decide⟩
theorem witness_vector_moves_1 : BitVec.toNat (12 : BitVec 4) ≤ 12 ∧ vecBox.Issues .vector [] ∧ vecBox.Vectors false :=
  ⟨by decide, issues rfl, vectors rfl rfl rfl (.inl rfl)⟩
theorem witness_vector_moves_2 : BitVec.toNat (6 : BitVec 4) ≤ 12 ∧ vecAcc.Issues .vector [] ∧ vecAcc.Vectors false ∧ isCompute vecAcc.cur = true ∧ ((6 : BitVec 4) = (2 : BitVec 4) ∨ True ∨ (6 : BitVec 4) = (10 : BitVec 4)) ∧ (vecAcc.core (coreOf vecAcc.cur)).holds vecAcc.cur (32 + BitVec.toNat (1 : BitVec 3)) = true ∧ (∀ (m : Command), m ∈ (vecAcc.core (coreOf vecAcc.cur)).matrix.all → m.thread = vecAcc.cur → ¬32 + BitVec.toNat (1 : BitVec 3) ∈ m.names) ∧ (∀ (w : Nat), ¬Place.acc (coreOf vecAcc.cur) (BitVec.toNat (1 : BitVec 3)) w ∈ vecAcc.poison ∧ ¬vecAcc.Tests (Place.acc (coreOf vecAcc.cur) (BitVec.toNat (1 : BitVec 3)) w)) :=
  ⟨by decide, issues rfl, vectors rfl rfl rfl (.inl rfl), rfl, by decide, rfl, by decide, (fun w => ⟨List.not_mem_nil, quiet rfl _⟩)⟩
theorem witness_vector_reductions_1 : BitVec.toNat (0 : BitVec 4) ≤ 12 ∧ vecBox.Issues .vector [] ∧ vecBox.Vectors false :=
  ⟨by decide, issues rfl, vectors rfl rfl rfl (.inl rfl)⟩
theorem witness_vector_reductions_2 : BitVec.toNat (12 : BitVec 4) ≤ 12 ∧ vecBox.Issues .vector [] ∧ vecBox.Vectors false ∧ 8 ≤ BitVec.toNat (12 : BitVec 4) ∧ (True → BitVec.toNat (vecBox.now.extReg (0 : BitVec 3)).val % 8 ≠ 0) ∧ BitVec.toNat (4 : BitVec 3) ≤ 4 ∧ (((Nat.repeat (treeStep fun (x y : Nat × Flags) => (((laneFmt (12 : BitVec 4) (BitVec.setWidth 5 (vecBox.now.extReg (0 : BitVec 3)).val)).add (Rm.of (BitVec.toNat (4 : BitVec 3)) ((vecBox.now.fpctl >>> 16).toNat % 4)) ((laneFmt (12 : BitVec 4) (BitVec.setWidth 5 (vecBox.now.extReg (0 : BitVec 3)).val)).decode x.fst) ((laneFmt (12 : BitVec 4) (BitVec.setWidth 5 (vecBox.now.extReg (0 : BitVec 3)).val)).decode y.fst)).fst, x.snd ||| y.snd ||| ((laneFmt (12 : BitVec 4) (BitVec.setWidth 5 (vecBox.now.extReg (0 : BitVec 3)).val)).add (Rm.of (BitVec.toNat (4 : BitVec 3)) ((vecBox.now.fpctl >>> 16).toNat % 4)) ((laneFmt (12 : BitVec 4) (BitVec.setWidth 5 (vecBox.now.extReg (0 : BitVec 3)).val)).decode x.fst) ((laneFmt (12 : BitVec 4) (BitVec.setWidth 5 (vecBox.now.extReg (0 : BitVec 3)).val)).decode y.fst)).snd)) (1024 / laneBits (12 : BitVec 4)).log2 (List.map (fun (o : Option (BitVec (laneBits (12 : BitVec 4)))) => Option.map (fun (x : BitVec (laneBits (12 : BitVec 4))) => (x.toNat, (0 : Flags))) o) (List.map (fun (i : Nat) => if BitVec.getLsbD (vecBox.now.maskReg (2 : BitVec 3)) i = true then some (vlane (vecBox.now.vecReg (1 : BitVec 3)) (laneBits (12 : BitVec 4)) i) else none) (List.range (1024 / laneBits (12 : BitVec 4)))))).headD none).getD (0, (0 : Flags))).snd &&& BitVec.extractLsb' 8 5 vecBox.now.fpctl = (0 : Flags) :=
  ⟨by decide, issues rfl, vectors rfl rfl rfl (.inl rfl), by decide, by decide, by decide, by decide +kernel⟩
theorem witness_vector_reductions_3 : BitVec.toNat (12 : BitVec 4) ≤ 12 ∧ vecBox.Issues .vector [] ∧ vecBox.Vectors false ∧ 8 ≤ BitVec.toNat (12 : BitVec 4) ∧ (True → BitVec.toNat (vecBox.now.extReg (0 : BitVec 3)).val % 8 ≠ 0) ∧ BitVec.toNat (4 : BitVec 3) ≤ 4 ∧ (((Nat.repeat (treeStep fun (x y : Nat × Flags) => (((laneFmt (12 : BitVec 4) (BitVec.setWidth 5 (vecBox.now.extReg (0 : BitVec 3)).val)).least x.fst y.fst).fst, x.snd ||| y.snd ||| ((laneFmt (12 : BitVec 4) (BitVec.setWidth 5 (vecBox.now.extReg (0 : BitVec 3)).val)).least x.fst y.fst).snd)) (1024 / laneBits (12 : BitVec 4)).log2 (List.map (fun (o : Option (BitVec (laneBits (12 : BitVec 4)))) => Option.map (fun (x : BitVec (laneBits (12 : BitVec 4))) => (x.toNat, (0 : Flags))) o) (List.map (fun (i : Nat) => if BitVec.getLsbD (vecBox.now.maskReg (2 : BitVec 3)) i = true then some (vlane (vecBox.now.vecReg (1 : BitVec 3)) (laneBits (12 : BitVec 4)) i) else none) (List.range (1024 / laneBits (12 : BitVec 4)))))).headD none).getD (if (laneFmt (12 : BitVec 4) (BitVec.setWidth 5 (vecBox.now.extReg (0 : BitVec 3)).val)).hasInf = true then (laneFmt (12 : BitVec 4) (BitVec.setWidth 5 (vecBox.now.extReg (0 : BitVec 3)).val)).infCode else (laneFmt (12 : BitVec 4) (BitVec.setWidth 5 (vecBox.now.extReg (0 : BitVec 3)).val)).maxCode, (0 : Flags))).snd &&& BitVec.extractLsb' 8 5 vecBox.now.fpctl = (0 : Flags) :=
  ⟨by decide, issues rfl, vectors rfl rfl rfl (.inl rfl), by decide, by decide, by decide, rfl⟩
theorem witness_vector_reductions_4 : BitVec.toNat (12 : BitVec 4) ≤ 12 ∧ vecBox.Issues .vector [] ∧ vecBox.Vectors false ∧ 8 ≤ BitVec.toNat (12 : BitVec 4) ∧ (True → BitVec.toNat (vecBox.now.extReg (0 : BitVec 3)).val % 8 ≠ 0) ∧ BitVec.toNat (4 : BitVec 3) ≤ 4 ∧ (((Nat.repeat (treeStep fun (x y : Nat × Flags) => (((laneFmt (12 : BitVec 4) (BitVec.setWidth 5 (vecBox.now.extReg (0 : BitVec 3)).val)).greatest x.fst y.fst).fst, x.snd ||| y.snd ||| ((laneFmt (12 : BitVec 4) (BitVec.setWidth 5 (vecBox.now.extReg (0 : BitVec 3)).val)).greatest x.fst y.fst).snd)) (1024 / laneBits (12 : BitVec 4)).log2 (List.map (fun (o : Option (BitVec (laneBits (12 : BitVec 4)))) => Option.map (fun (x : BitVec (laneBits (12 : BitVec 4))) => (x.toNat, (0 : Flags))) o) (List.map (fun (i : Nat) => if BitVec.getLsbD (vecBox.now.maskReg (2 : BitVec 3)) i = true then some (vlane (vecBox.now.vecReg (1 : BitVec 3)) (laneBits (12 : BitVec 4)) i) else none) (List.range (1024 / laneBits (12 : BitVec 4)))))).headD none).getD (if (laneFmt (12 : BitVec 4) (BitVec.setWidth 5 (vecBox.now.extReg (0 : BitVec 3)).val)).hasNeg = true then 2 ^ (laneBits (12 : BitVec 4) - 1) + if (laneFmt (12 : BitVec 4) (BitVec.setWidth 5 (vecBox.now.extReg (0 : BitVec 3)).val)).hasInf = true then (laneFmt (12 : BitVec 4) (BitVec.setWidth 5 (vecBox.now.extReg (0 : BitVec 3)).val)).infCode else (laneFmt (12 : BitVec 4) (BitVec.setWidth 5 (vecBox.now.extReg (0 : BitVec 3)).val)).maxCode else 0, (0 : Flags))).snd &&& BitVec.extractLsb' 8 5 vecBox.now.fpctl = (0 : Flags) :=
  ⟨by decide, issues rfl, vectors rfl rfl rfl (.inl rfl), by decide, by decide, by decide, rfl⟩
theorem witness_vector_reductions_5 : BitVec.toNat (10 : BitVec 4) ≤ 12 ∧ vecTraps.Issues .vector [] ∧ vecTraps.Vectors false ∧ 8 ≤ BitVec.toNat (10 : BitVec 4) ∧ ((10 : BitVec 4) = (12 : BitVec 4) → BitVec.toNat (vecTraps.now.extReg (0 : BitVec 3)).val % 8 ≠ 0) ∧ BitVec.toNat (0 : BitVec 3) ≤ 4 ∧ (((Nat.repeat (treeStep fun (x y : Nat × Flags) => (((laneFmt (10 : BitVec 4) (BitVec.setWidth 5 (vecTraps.now.extReg (0 : BitVec 3)).val)).add (Rm.of (BitVec.toNat (0 : BitVec 3)) ((vecTraps.now.fpctl >>> 16).toNat % 4)) ((laneFmt (10 : BitVec 4) (BitVec.setWidth 5 (vecTraps.now.extReg (0 : BitVec 3)).val)).decode x.fst) ((laneFmt (10 : BitVec 4) (BitVec.setWidth 5 (vecTraps.now.extReg (0 : BitVec 3)).val)).decode y.fst)).fst, x.snd ||| y.snd ||| ((laneFmt (10 : BitVec 4) (BitVec.setWidth 5 (vecTraps.now.extReg (0 : BitVec 3)).val)).add (Rm.of (BitVec.toNat (0 : BitVec 3)) ((vecTraps.now.fpctl >>> 16).toNat % 4)) ((laneFmt (10 : BitVec 4) (BitVec.setWidth 5 (vecTraps.now.extReg (0 : BitVec 3)).val)).decode x.fst) ((laneFmt (10 : BitVec 4) (BitVec.setWidth 5 (vecTraps.now.extReg (0 : BitVec 3)).val)).decode y.fst)).snd)) (1024 / laneBits (10 : BitVec 4)).log2 (List.map (fun (o : Option (BitVec (laneBits (10 : BitVec 4)))) => Option.map (fun (x : BitVec (laneBits (10 : BitVec 4))) => (x.toNat, (0 : Flags))) o) (List.map (fun (i : Nat) => if BitVec.getLsbD (vecTraps.now.maskReg (1 : BitVec 3)) i = true then some (vlane (vecTraps.now.vecReg (1 : BitVec 3)) (laneBits (10 : BitVec 4)) i) else none) (List.range (1024 / laneBits (10 : BitVec 4)))))).headD none).getD (0, (0 : Flags))).snd &&& BitVec.extractLsb' 8 5 vecTraps.now.fpctl ≠ (0 : Flags) ∧ vecTraps.Handles :=
  ⟨by decide, issues rfl, vectors rfl rfl rfl (.inl rfl), by decide, by decide, by decide, by decide +kernel, ⟨rfl, rfl⟩⟩
theorem witness_vector_reductions_6 : BitVec.toNat (10 : BitVec 4) ≤ 12 ∧ vecTraps.Issues .vector [] ∧ vecTraps.Vectors false ∧ 8 ≤ BitVec.toNat (10 : BitVec 4) ∧ ((10 : BitVec 4) = (12 : BitVec 4) → BitVec.toNat (vecTraps.now.extReg (0 : BitVec 3)).val % 8 ≠ 0) ∧ BitVec.toNat (0 : BitVec 3) ≤ 4 ∧ (((Nat.repeat (treeStep fun (x y : Nat × Flags) => (((laneFmt (10 : BitVec 4) (BitVec.setWidth 5 (vecTraps.now.extReg (0 : BitVec 3)).val)).least x.fst y.fst).fst, x.snd ||| y.snd ||| ((laneFmt (10 : BitVec 4) (BitVec.setWidth 5 (vecTraps.now.extReg (0 : BitVec 3)).val)).least x.fst y.fst).snd)) (1024 / laneBits (10 : BitVec 4)).log2 (List.map (fun (o : Option (BitVec (laneBits (10 : BitVec 4)))) => Option.map (fun (x : BitVec (laneBits (10 : BitVec 4))) => (x.toNat, (0 : Flags))) o) (List.map (fun (i : Nat) => if BitVec.getLsbD (vecTraps.now.maskReg (1 : BitVec 3)) i = true then some (vlane (vecTraps.now.vecReg (1 : BitVec 3)) (laneBits (10 : BitVec 4)) i) else none) (List.range (1024 / laneBits (10 : BitVec 4)))))).headD none).getD (if (laneFmt (10 : BitVec 4) (BitVec.setWidth 5 (vecTraps.now.extReg (0 : BitVec 3)).val)).hasInf = true then (laneFmt (10 : BitVec 4) (BitVec.setWidth 5 (vecTraps.now.extReg (0 : BitVec 3)).val)).infCode else (laneFmt (10 : BitVec 4) (BitVec.setWidth 5 (vecTraps.now.extReg (0 : BitVec 3)).val)).maxCode, (0 : Flags))).snd &&& BitVec.extractLsb' 8 5 vecTraps.now.fpctl = (0 : Flags) :=
  ⟨by decide, issues rfl, vectors rfl rfl rfl (.inl rfl), by decide, by decide, by decide, rfl⟩
theorem witness_vector_reductions_7 : BitVec.toNat (10 : BitVec 4) ≤ 12 ∧ vecTraps.Issues .vector [] ∧ vecTraps.Vectors false ∧ 8 ≤ BitVec.toNat (10 : BitVec 4) ∧ ((10 : BitVec 4) = (12 : BitVec 4) → BitVec.toNat (vecTraps.now.extReg (0 : BitVec 3)).val % 8 ≠ 0) ∧ BitVec.toNat (0 : BitVec 3) ≤ 4 ∧ (((Nat.repeat (treeStep fun (x y : Nat × Flags) => (((laneFmt (10 : BitVec 4) (BitVec.setWidth 5 (vecTraps.now.extReg (0 : BitVec 3)).val)).greatest x.fst y.fst).fst, x.snd ||| y.snd ||| ((laneFmt (10 : BitVec 4) (BitVec.setWidth 5 (vecTraps.now.extReg (0 : BitVec 3)).val)).greatest x.fst y.fst).snd)) (1024 / laneBits (10 : BitVec 4)).log2 (List.map (fun (o : Option (BitVec (laneBits (10 : BitVec 4)))) => Option.map (fun (x : BitVec (laneBits (10 : BitVec 4))) => (x.toNat, (0 : Flags))) o) (List.map (fun (i : Nat) => if BitVec.getLsbD (vecTraps.now.maskReg (1 : BitVec 3)) i = true then some (vlane (vecTraps.now.vecReg (1 : BitVec 3)) (laneBits (10 : BitVec 4)) i) else none) (List.range (1024 / laneBits (10 : BitVec 4)))))).headD none).getD (if (laneFmt (10 : BitVec 4) (BitVec.setWidth 5 (vecTraps.now.extReg (0 : BitVec 3)).val)).hasNeg = true then 2 ^ (laneBits (10 : BitVec 4) - 1) + if (laneFmt (10 : BitVec 4) (BitVec.setWidth 5 (vecTraps.now.extReg (0 : BitVec 3)).val)).hasInf = true then (laneFmt (10 : BitVec 4) (BitVec.setWidth 5 (vecTraps.now.extReg (0 : BitVec 3)).val)).infCode else (laneFmt (10 : BitVec 4) (BitVec.setWidth 5 (vecTraps.now.extReg (0 : BitVec 3)).val)).maxCode else 0, (0 : Flags))).snd &&& BitVec.extractLsb' 8 5 vecTraps.now.fpctl = (0 : Flags) :=
  ⟨by decide, issues rfl, vectors rfl rfl rfl (.inl rfl), by decide, by decide, by decide, rfl⟩
theorem witness_vector_reductions_8 : BitVec.toNat (8 : BitVec 4) ≤ 12 ∧ vecBox.Issues .vector [] ∧ vecBox.Vectors false ∧ 8 ≤ BitVec.toNat (8 : BitVec 4) ∧ ((8 : BitVec 4) = (12 : BitVec 4) → BitVec.toNat (vecBox.now.extReg (0 : BitVec 3)).val % 8 ≠ 0) ∧ BitVec.toNat (3 : BitVec 3) ≤ 4 ∧ (((Nat.repeat (treeStep fun (x y : Nat × Flags) => (((laneFmt (8 : BitVec 4) (BitVec.setWidth 5 (vecBox.now.extReg (0 : BitVec 3)).val)).add (Rm.of (BitVec.toNat (3 : BitVec 3)) ((vecBox.now.fpctl >>> 16).toNat % 4)) ((laneFmt (8 : BitVec 4) (BitVec.setWidth 5 (vecBox.now.extReg (0 : BitVec 3)).val)).decode x.fst) ((laneFmt (8 : BitVec 4) (BitVec.setWidth 5 (vecBox.now.extReg (0 : BitVec 3)).val)).decode y.fst)).fst, x.snd ||| y.snd ||| ((laneFmt (8 : BitVec 4) (BitVec.setWidth 5 (vecBox.now.extReg (0 : BitVec 3)).val)).add (Rm.of (BitVec.toNat (3 : BitVec 3)) ((vecBox.now.fpctl >>> 16).toNat % 4)) ((laneFmt (8 : BitVec 4) (BitVec.setWidth 5 (vecBox.now.extReg (0 : BitVec 3)).val)).decode x.fst) ((laneFmt (8 : BitVec 4) (BitVec.setWidth 5 (vecBox.now.extReg (0 : BitVec 3)).val)).decode y.fst)).snd)) (1024 / laneBits (8 : BitVec 4)).log2 (List.map (fun (o : Option (BitVec (laneBits (8 : BitVec 4)))) => Option.map (fun (x : BitVec (laneBits (8 : BitVec 4))) => (x.toNat, (0 : Flags))) o) (List.map (fun (i : Nat) => if BitVec.getLsbD (vecBox.now.maskReg (4 : BitVec 3)) i = true then some (vlane (vecBox.now.vecReg (1 : BitVec 3)) (laneBits (8 : BitVec 4)) i) else none) (List.range (1024 / laneBits (8 : BitVec 4)))))).headD none).getD (0, (0 : Flags))).snd &&& BitVec.extractLsb' 8 5 vecBox.now.fpctl = (0 : Flags) :=
  ⟨by decide, issues rfl, vectors rfl rfl rfl (.inl rfl), by decide, by decide, by decide, by decide +kernel⟩
theorem witness_vector_memory_1 : vecUnit.Sound (4 : BitVec 4) ∧ vecUnit.Vectors false ∧ vecUnit.Issues .vectorMemory [4] ∧ (∀ (i : Nat), i < 1024 / (8 * 2 ^ BitVec.toNat (3 : BitVec 2)) → BitVec.getLsbD (vecUnit.now.maskReg (4 : BitVec 3)) i = true → vecUnit.OnTile (BitVec.setWidth 64 (1 : BitVec 3) <<< 61 + vecUnit.val (4 : BitVec 4) + BitVec.ofNat 64 (i * 2 ^ BitVec.toNat (3 : BitVec 2))) (2 ^ BitVec.toNat (3 : BitVec 2)) [.r] 0 (16 + 8 * i) (16 + 8 * i) ∧ vecUnit.poisonedAt (Place.tile 0) (16 + 8 * i) (2 ^ BitVec.toNat (3 : BitVec 2)) = false) :=
  ⟨rfl, vectors rfl rfl rfl (.inl rfl), issues rfl, onlyLanes 0 15 (by decide) ⟨⟨rfl, rfl, rfl, rfl, .inl rfl⟩, rfl⟩ ⟨⟨rfl, rfl, rfl, rfl, .inl rfl⟩, rfl⟩⟩
theorem witness_vector_memory_2 : vecUnit.Sound (4 : BitVec 4) ∧ vecUnit.Vectors false ∧ vecUnit.Issues .vectorMemory [4] ∧ (∀ (i : Nat), i < 1024 / (8 * 2 ^ BitVec.toNat (3 : BitVec 2)) → BitVec.getLsbD (vecUnit.now.maskReg (4 : BitVec 3)) i = true → vecUnit.OnTile (BitVec.setWidth 64 (1 : BitVec 3) <<< 61 + vecUnit.val (4 : BitVec 4) + BitVec.ofNat 64 (i * 2 ^ BitVec.toNat (3 : BitVec 2))) (2 ^ BitVec.toNat (3 : BitVec 2)) [.w] 0 (16 + 8 * i) (16 + 8 * i)) :=
  ⟨rfl, vectors rfl rfl rfl (.inl rfl), issues rfl, onlyLanes 0 15 (by decide) ⟨rfl, rfl, rfl, rfl, .inl rfl⟩ ⟨rfl, rfl, rfl, rfl, .inl rfl⟩⟩
theorem witness_vector_memory_3 : vecUnit.Sound (4 : BitVec 4) ∧ vecUnit.Vectors false ∧ vecUnit.Issues .vectorMemory [4] ∧ (∀ (i : Nat), i < 1024 / (8 * 2 ^ BitVec.toNat (3 : BitVec 2)) → BitVec.getLsbD (vecUnit.now.maskReg (4 : BitVec 3)) i = true → vecUnit.OnTile (BitVec.setWidth 64 (1 : BitVec 3) <<< 61 + vecUnit.val (4 : BitVec 4) + BitVec.signExtend 64 (vlane (vecUnit.now.vecReg (5 : BitVec 3)) (8 * 2 ^ BitVec.toNat (3 : BitVec 2)) i) * BitVec.ofNat 64 (2 ^ BitVec.toNat (3 : BitVec 2))) (2 ^ BitVec.toNat (3 : BitVec 2)) [.r] 0 (16 + 8 * ((15 - i) * 2 + 1)) (16 + 8 * ((15 - i) * 2 + 1)) ∧ vecUnit.poisonedAt (Place.tile 0) (16 + 8 * ((15 - i) * 2 + 1)) (2 ^ BitVec.toNat (3 : BitVec 2)) = false) :=
  ⟨rfl, vectors rfl rfl rfl (.inl rfl), issues rfl, onlyLanes 0 15 (by decide) ⟨⟨rfl, rfl, rfl, rfl, .inl rfl⟩, rfl⟩ ⟨⟨rfl, rfl, rfl, rfl, .inl rfl⟩, rfl⟩⟩
theorem witness_vector_memory_4 : vecUnit.Sound (4 : BitVec 4) ∧ vecUnit.Vectors false ∧ vecUnit.Issues .vectorMemory [4] ∧ (∀ (i : Nat), i < 1024 / (8 * 2 ^ BitVec.toNat (3 : BitVec 2)) → BitVec.getLsbD (vecUnit.now.maskReg (4 : BitVec 3)) i = true → vecUnit.OnTile (BitVec.setWidth 64 (1 : BitVec 3) <<< 61 + vecUnit.val (4 : BitVec 4) + BitVec.signExtend 64 (vlane (vecUnit.now.vecReg (5 : BitVec 3)) (8 * 2 ^ BitVec.toNat (3 : BitVec 2)) i) * BitVec.ofNat 64 (2 ^ BitVec.toNat (3 : BitVec 2))) (2 ^ BitVec.toNat (3 : BitVec 2)) [.w] 0 (16 + 8 * ((15 - i) * 2 + 1)) (16 + 8 * ((15 - i) * 2 + 1))) :=
  ⟨rfl, vectors rfl rfl rfl (.inl rfl), issues rfl, onlyLanes 0 15 (by decide) ⟨rfl, rfl, rfl, rfl, .inl rfl⟩ ⟨rfl, rfl, rfl, rfl, .inl rfl⟩⟩
theorem witness_vector_memory_5 : vecStream.Sound (4 : BitVec 4) ∧ vecStream.Vectors false ∧ vecStream.Issues .vectorStream [4] ∧ (∀ (i : Nat), i < 1024 / (8 * 2 ^ BitVec.toNat (3 : BitVec 2)) → (BitVec.getLsbD (vecStream.now.maskReg (4 : BitVec 3)) i && decide (BitVec.toNat (vecStream.val (4 : BitVec 4)) + i < Pattern.elements vecStream.now.str[BitVec.toNat (2 : BitVec 2)])) = true → vecStream.OnTile (Pattern.base vecStream.now.str[BitVec.toNat (2 : BitVec 2)] + BitVec.ofNat 64 (Pattern.index vecStream.now.str[BitVec.toNat (2 : BitVec 2)] (BitVec.toNat (vecStream.val (4 : BitVec 4)) + i) 0) * Pattern.stride vecStream.now.str[BitVec.toNat (2 : BitVec 2)] 0 + BitVec.ofNat 64 (Pattern.index vecStream.now.str[BitVec.toNat (2 : BitVec 2)] (BitVec.toNat (vecStream.val (4 : BitVec 4)) + i) 1) * Pattern.stride vecStream.now.str[BitVec.toNat (2 : BitVec 2)] 1 + BitVec.ofNat 64 (Pattern.index vecStream.now.str[BitVec.toNat (2 : BitVec 2)] (BitVec.toNat (vecStream.val (4 : BitVec 4)) + i) 2) * Pattern.stride vecStream.now.str[BitVec.toNat (2 : BitVec 2)] 2 + BitVec.ofNat 64 (Pattern.index vecStream.now.str[BitVec.toNat (2 : BitVec 2)] (BitVec.toNat (vecStream.val (4 : BitVec 4)) + i) 3) * Pattern.stride vecStream.now.str[BitVec.toNat (2 : BitVec 2)] 3) (2 ^ BitVec.toNat (3 : BitVec 2)) [.r] 0 (32 + 8 * ((i + 3) % 5) + 48 * ((i + 3) / 5)) (32 + 8 * ((i + 3) % 5) + 48 * ((i + 3) / 5)) ∧ vecStream.poisonedAt (Place.tile 0) (32 + 8 * ((i + 3) % 5) + 48 * ((i + 3) / 5)) (2 ^ BitVec.toNat (3 : BitVec 2)) = false) :=
  ⟨rfl, vectors rfl rfl rfl (.inl rfl), issues rfl, onlyLanes 0 15 (by decide) ⟨⟨rfl, rfl, rfl, rfl, .inl rfl⟩, rfl⟩ ⟨⟨rfl, rfl, rfl, rfl, .inl rfl⟩, rfl⟩⟩
theorem witness_vector_memory_6 : vecStream.Sound (4 : BitVec 4) ∧ vecStream.Vectors false ∧ vecStream.Issues .vectorStream [4] ∧ (∀ (i : Nat), i < 1024 / (8 * 2 ^ BitVec.toNat (3 : BitVec 2)) → (BitVec.getLsbD (vecStream.now.maskReg (4 : BitVec 3)) i && decide (BitVec.toNat (vecStream.val (4 : BitVec 4)) + i < Pattern.elements vecStream.now.str[BitVec.toNat (2 : BitVec 2)])) = true → vecStream.OnTile (Pattern.base vecStream.now.str[BitVec.toNat (2 : BitVec 2)] + BitVec.ofNat 64 (Pattern.index vecStream.now.str[BitVec.toNat (2 : BitVec 2)] (BitVec.toNat (vecStream.val (4 : BitVec 4)) + i) 0) * Pattern.stride vecStream.now.str[BitVec.toNat (2 : BitVec 2)] 0 + BitVec.ofNat 64 (Pattern.index vecStream.now.str[BitVec.toNat (2 : BitVec 2)] (BitVec.toNat (vecStream.val (4 : BitVec 4)) + i) 1) * Pattern.stride vecStream.now.str[BitVec.toNat (2 : BitVec 2)] 1 + BitVec.ofNat 64 (Pattern.index vecStream.now.str[BitVec.toNat (2 : BitVec 2)] (BitVec.toNat (vecStream.val (4 : BitVec 4)) + i) 2) * Pattern.stride vecStream.now.str[BitVec.toNat (2 : BitVec 2)] 2 + BitVec.ofNat 64 (Pattern.index vecStream.now.str[BitVec.toNat (2 : BitVec 2)] (BitVec.toNat (vecStream.val (4 : BitVec 4)) + i) 3) * Pattern.stride vecStream.now.str[BitVec.toNat (2 : BitVec 2)] 3) (2 ^ BitVec.toNat (3 : BitVec 2)) [.w] 0 (32 + 8 * ((i + 3) % 5) + 48 * ((i + 3) / 5)) (32 + 8 * ((i + 3) % 5) + 48 * ((i + 3) / 5))) :=
  ⟨rfl, vectors rfl rfl rfl (.inl rfl), issues rfl, onlyLanes 0 15 (by decide) ⟨rfl, rfl, rfl, rfl, .inl rfl⟩ ⟨rfl, rfl, rfl, rfl, .inl rfl⟩⟩

/-! ## Slots, accumulators and engine commands -/

def engCore : Core := { ldOther with
  slots := Vector.ofFn fun i => noise (i.val + 1) 8192
  accs := Vector.ofFn fun i => { Acc.initial with bits := noise (i.val + 50) 8192, checks := ⟨.i32, Vector.replicate 16 7, Vector.replicate 16 9⟩, report := some ⟨1, 2, true, false, 1, 1, 3, 4⟩ } }
/-- Slot 2 and accumulator 2 are thread 0's, slot 7 is thread 3's. -/
def claimBox (a b : Word) : State := (box [(4, a), (5, b)]).setCore 0 { engCore with claims := ((Core.initial.claims.set 2 (some 0)).set 34 (some 0)).set 7 (some 3) }
def claimFree : State := claimBox 0x16 0x5
def claimMost : State := claimBox 0x56 0xFF05
def claimTaken : State := claimBox 0x96 0x5
/-- Thread 0 holds everything. -/
def engHeld : Core := { engCore with claims := Vector.replicate 40 (some 0) }
/-- n elements of 4 bytes, one after the other, from an effective address. -/
def rowOf (b n : Nat) : Pattern := BitVec.ofNat 512 (b + 2 * 2 ^ 64 + n * 2 ^ 128 + 2 ^ 160 + 2 ^ 192 + 2 ^ 224 + 4 * 2 ^ 256)
def engBox (mf k1 : Nat) (p q : Pattern) (c : Core) : State := ((box []).setThread 0 { thr [] with
  str := ⟨#[p, q, 0, 0], rfl⟩, vec := Vector.replicate 8 (BitVec.ofNat 1024 ((List.range 128).foldl (fun a _ => a * 256 + 0x33) 0))
  ext := ⟨#[Reg.of (BitVec.ofNat 64 (mf * 65536 + 0x0202)), Reg.of (BitVec.ofNat 64 k1), Reg.of 7, Reg.of 0x0905, Reg.zero, Reg.zero, Reg.zero, Reg.zero], rfl⟩ }).setCore 0 c
def engInt8 : State := engBox 0 64 (rowOf (2 ^ 61 + 32) 256) (rowOf (2 ^ 61 + 32) 256) engHeld
def engFp8 : State := engBox 1 64 (rowOf (2 ^ 61 + 32) 256) (rowOf (2 ^ 61 + 32) 256) engHeld
def engFp64 : State := engBox 5 16 (rowOf (2 ^ 61 + 32) 512) (rowOf (2 ^ 61 + 32) 512) engHeld
def engUnheld : State := engBox 0 64 (rowOf (2 ^ 61 + 32) 256) (rowOf (2 ^ 61 + 32) 256) { engHeld with claims := engHeld.claims.set 2 none }
/-- A sealed page at virtual 0, and an SCPY from it to a slot. -/
def engSealed : State := { engBox 0 64 (rowOf (2 ^ 61 + 0x100040) 16) (rowOf 32 16) engHeld with
  sealed := [⟨0, [(page, 4096)], 3⟩, ⟨1, [(page + 4096, 4096)], 3⟩], mem := ldMem }
/-- A command of thread 0, and the core whose matrix engine has it at its head. -/
def cmdOf (op : Instr) (p : Pattern) (k1 : Nat) (v : Option Nat) : Command :=
  ⟨7, 0, op, 0, 5, [], v, (Vector.replicate 8 0 |>.set 0 (wide false)).set 1 (wide true), ⟨#[0x0202, BitVec.ofNat 64 k1, 0, 0, 0, 0, 0, 0], rfl⟩, p, p, 0, none, none⟩
def cmdThread : State := (box []).setThread 0 { thr [] with dep := ⟨#[3, 0, 0, 1], rfl⟩, sync := some 7, status := .wait .command }
def cmdCopies (n : Command) : State := { cmdThread.setCore 0 { engHeld with copy := ⟨none, [n, { n with id := 9 }], [], 0⟩ } with
  sealed := [⟨0, [(page, 4096)], 3⟩, ⟨1, [(page + 4096, 4096)], 3⟩], mem := ldMem }
def cmdQueued (n : Command) : State := cmdThread.setCore 0 { engHeld with matrix := ⟨none, [n, { n with id := 9 }], [], 0⟩ }
def cmdRunning (n : Command) : State := cmdThread.setCore 0 { engHeld with matrix := ⟨some n, [{ n with id := 9 }], [], 0⟩, copy := ⟨some n, [], [], 0⟩ }
def cmdZero : Command := cmdOf (.mzero 2 1 2 0 1) 0 0 none
def cmdMul : Command := cmdOf (.mma 3 4 2 1 2 0 1 0) 0 33 (some 0)
def cmdLoad : Command := cmdOf (.mld 3 0 0 1 0 2 0 1 0 0 1 0) (rowOf (2 ^ 61 + 16) 256) 33 none
def cmdStore : Command := cmdOf (.mst 3 0 0 1 0 2 0 1 0 0 1 0) (rowOf (2 ^ 61 + 16) 256) 33 none
/-- A command with other formats in e0. -/
def cmdIn (n : Command) (mf : Nat) (k1 : Nat) : Command := { n with ext := (n.ext.set 0 (BitVec.ofNat 64 (mf * 65536 + 0x0202))).set 1 (BitVec.ofNat 64 k1) }
def cmdSparse : Command := { cmdOf (.mmas 3 4 2 1 2 0 1 0 5) 0 0 (some 0) with vmeta := BitVec.ofNat 1024 ((List.range 64).foldl (fun a i => a * 256 + [0x33, 0xF0, 0x95].getD (i % 3) 0) 0) }
def cmdSplit : Command := cmdOf (.mcmp 6 4 1 2 0 1 5) 0 0 none
/-- Sixteen elements from one place of tile memory to another, and four from a sealed page to it. -/
def cmdCopy : Command := { cmdOf (.cpy 0 1 2 0 1 0 0 1 0) (rowOf (2 ^ 61 + 16) 16) 0 none with dst := rowOf (2 ^ 61 + 0x80) 16 }
def cmdSealed : Command := { cmdOf (.scpy 0 1 2 0 1 0 0 1 0) (rowOf 16 4) 0 (some 3) with dst := rowOf (2 ^ 61 + 0x80) 4, sealedAt := some page }
/-- An accumulator of noise whose predictions hold but for the row and column of a report. -/
def accOf (st : CkState) (wrong : Nat) (rep : Option Report) : Acc :=
  let b : Block := noise 3 8192
  let sum := fun (f : Nat → Nat) => ((List.range 16).foldl (fun (z : BitVec 32) j => z + b.extractLsb' (32 * f j) 32) 0).setWidth 64
  { Acc.initial with bits := b, report := rep, checks := ⟨st, Vector.ofFn fun i => sum (fun j => 16 * i.val + j) + (if i.val = wrong then 5 else 0),
      Vector.ofFn fun i => sum (fun j => 16 * j + i.val) + (if wrong < 16 ∧ i.val = 3 then 5 else 0)⟩ }
def accBox (a : Acc) (l : List (BitVec 4 × Word)) (super : Bool) : State := ((box []).setThread 0 { thr l with
  supv := super
  ext := ⟨#[Reg.of 0x0302, Reg.of 5, Reg.of 4, Reg.of 0x35, Reg.zero, Reg.zero, Reg.zero, Reg.zero], rfl⟩ }).setCore 0 { engHeld with accs := engHeld.accs.set 2 a }
def repOne : Report := ⟨5, 3, true, false, 1, 1, 5, 7⟩
def accClean : State := accBox (accOf .i32 99 none) [(4, 0xF35), (5, 3), (6, 5)] false
def accSingle : State := accBox (accOf .i32 5 (some repOne)) [(4, 0x1F35), (5, 5), (6, 3)] false
def accOther : State := accBox (accOf .i32 5 (some repOne)) [(4, 0x1F35), (5, 3), (6, 3)] true
def accZero : State := accBox (accOf .zero 5 (some repOne)) [(4, 0x1F35), (5, 5), (6, 3)] false
def accNone : State := accBox (accOf .none 5 (some ⟨5, 3, false, true, 1, 1, 5, 7⟩)) [(4, 0x1F35), (5, 5), (6, 3)] false

/-- Every element of the copy's destination lies in operand slot 0 of core 0. -/
theorem witness_engine_sealed_copy_elements :
    ∀ n < Pattern.elements engSealed.now.str[0], ∃ a core off,
      checkIn engSealed.now.win (Pattern.address engSealed.now.str[0] n none) (Pattern.bytes engSealed.now.str[0]) [.w] = .ok (.chip a)
        ∧ (chipBlock a = some (.slots core off) ∨ chipBlock a = some (.accs core off) ∨ ∃ g, chipBlock a = some (.tile core off g) ∧ isCompute core = true) := by
  have e : Pattern.elements engSealed.now.str[0] = 16 := by decide +kernel
  have b : Pattern.bytes engSealed.now.str[0] = 4 := by decide +kernel
  rw [e, b]
  have p : ∀ n < 16, (checkIn engSealed.now.win (Pattern.address engSealed.now.str[0] n none) 4 [.w]).toOption = some (.chip (0x100040 + 4 * n)) := by
    decide +kernel
  have q : ∀ n < 16, chipBlock (0x100040 + 4 * n) = some (.slots 0 (0x40 + 4 * n)) := by decide +kernel
  intro n h
  exact ⟨_, 0, 0x40 + 4 * n, okChip (p n h), .inl (q n h)⟩

theorem elementsToWrite {s : State} {c : Command} {m n unit : Nat} {ea : Nat → Word} {right : Right} {off chip : Nat → Nat}
    (h : ((List.range m).all fun i => decide ((checkIn c.win (ea i) n [right]).toOption = some (.chip (chip i)))
      && decide (chipBlock (chip i) = some (.tile unit (off i) (chip i))) && !(s.core unit).killed
      && !(s.underTest fun p => (dwordsOf (off i) n).any fun d => p == .tile unit d)) = true) :
    ∀ i < m, s.ElementOnTile c (ea i) n right unit (off i) (chip i) := by
  intro i hi
  have q := List.all_eq_true.1 h i (List.mem_range.2 hi)
  simp only [Bool.and_eq_true, decide_eq_true_eq, Bool.not_eq_true'] at q
  exact ⟨okChip q.1.1.1, q.1.1.2, q.1.2, q.2⟩

theorem elementsToRead {s : State} {c : Command} {m n unit : Nat} {ea : Nat → Word} {right : Right} {off chip : Nat → Nat}
    (h : ((List.range m).all fun i => decide ((checkIn c.win (ea i) n [right]).toOption = some (.chip (chip i)))
      && decide (chipBlock (chip i) = some (.tile unit (off i) (chip i))) && !(s.core unit).killed
      && !(s.underTest fun p => (dwordsOf (off i) n).any fun d => p == .tile unit d)
      && !s.poisonedAt (.tile unit) (off i) n) = true) :
    ∀ i < m, s.ElementOnTile c (ea i) n right unit (off i) (chip i) ∧ s.poisonedAt (.tile unit) (off i) n = false := by
  intro i hi
  have q := List.all_eq_true.1 h i (List.mem_range.2 hi)
  simp only [Bool.and_eq_true, decide_eq_true_eq, Bool.not_eq_true'] at q
  exact ⟨⟨okChip q.1.1.1.1, q.1.1.1.2, q.1.1.2, q.1.2⟩, q.2⟩

theorem fourElements {n : Nat} {P : Nat → Prop} (h : n = 4) (a : P 0) (b : P 1) (c : P 2) (d : P 3) : ∀ i < n, P i := h ▸ below4 a b c d

theorem witness_claims_1 : claimFree.Sound (4 : BitVec 4) ∧ claimFree.Sound (5 : BitVec 4) ∧ claimFree.Issues .matrix [4, 5] ∧ (∀ (r : Nat), r < 40 → (if r < 32 then BitVec.getLsbD (claimFree.val (4 : BitVec 4)) r else decide (r < 40) && BitVec.getLsbD (claimFree.val (5 : BitVec 4)) (r - 32)) = true → (claimFree.core (coreOf claimFree.cur)).claims.getD r none = none ∨ (claimFree.core (coreOf claimFree.cur)).claims.getD r none = some claimFree.cur) :=
  ⟨rfl, rfl, issues rfl, by decide⟩
theorem witness_claims_2 : claimFree.Sound (4 : BitVec 4) ∧ claimFree.Sound (5 : BitVec 4) ∧ claimFree.Issues .matrix [4, 5, 0] ∧ (∀ (r : Nat), r < 40 → (if r < 32 then BitVec.getLsbD (claimFree.val (4 : BitVec 4)) r else decide (r < 40) && BitVec.getLsbD (claimFree.val (5 : BitVec 4)) (r - 32)) = true → (claimFree.core (coreOf claimFree.cur)).claims.getD r none = none ∨ (claimFree.core (coreOf claimFree.cur)).claims.getD r none = some claimFree.cur) :=
  ⟨rfl, rfl, issues rfl, by decide⟩
theorem witness_claims_3 : claimFree.Sound (4 : BitVec 4) ∧ claimFree.Sound (5 : BitVec 4) ∧ claimFree.Issues .matrix [4, 5] ∧ (∀ (m : Command), m ∈ (claimFree.core (coreOf claimFree.cur)).matrix.live → m.thread = claimFree.cur → ∀ (r : Nat), r ∈ m.names → (if r < 32 then BitVec.getLsbD (claimFree.val (4 : BitVec 4)) r else decide (r < 40) && BitVec.getLsbD (claimFree.val (5 : BitVec 4)) (r - 32)) = false) ∧ (claimFree.core (coreOf claimFree.cur)).matrix.parked = [] ∧ (claimFree.core (coreOf claimFree.cur)).copy.parked = [] ∧ (claimFree.core (coreOf claimFree.cur)).waiting = [] :=
  ⟨rfl, rfl, issues rfl, by decide, rfl, rfl, rfl⟩
theorem witness_claims_4 : claimTaken.Sound (4 : BitVec 4) ∧ claimTaken.Sound (5 : BitVec 4) ∧ claimTaken.Issues .matrix [4, 5] ∧ (¬∀ (r : Nat), r < 40 → (if r < 32 then BitVec.getLsbD (claimTaken.val (4 : BitVec 4)) r else decide (r < 40) && BitVec.getLsbD (claimTaken.val (5 : BitVec 4)) (r - 32)) = true → (claimTaken.core (coreOf claimTaken.cur)).claims.getD r none = none ∨ (claimTaken.core (coreOf claimTaken.cur)).claims.getD r none = some claimTaken.cur) :=
  ⟨rfl, rfl, issues rfl, by decide⟩
theorem witness_claims_5 : claimTaken.Sound (4 : BitVec 4) ∧ claimTaken.Sound (5 : BitVec 4) ∧ claimTaken.Issues .matrix [4, 5, 0] ∧ (¬∀ (r : Nat), r < 40 → (if r < 32 then BitVec.getLsbD (claimTaken.val (4 : BitVec 4)) r else decide (r < 40) && BitVec.getLsbD (claimTaken.val (5 : BitVec 4)) (r - 32)) = true → (claimTaken.core (coreOf claimTaken.cur)).claims.getD r none = none ∨ (claimTaken.core (coreOf claimTaken.cur)).claims.getD r none = some claimTaken.cur) :=
  ⟨rfl, rfl, issues rfl, by decide⟩
theorem witness_claims_6 : claimTaken.Sound (4 : BitVec 4) ∧ claimTaken.Sound (5 : BitVec 4) ∧ claimTaken.Issues .matrix [4, 5] ∧ (∀ (m : Command), m ∈ (claimTaken.core (coreOf claimTaken.cur)).matrix.live → m.thread = claimTaken.cur → ∀ (r : Nat), r ∈ m.names → (if r < 32 then BitVec.getLsbD (claimTaken.val (4 : BitVec 4)) r else decide (r < 40) && BitVec.getLsbD (claimTaken.val (5 : BitVec 4)) (r - 32)) = false) ∧ (claimTaken.core (coreOf claimTaken.cur)).matrix.parked = [] ∧ (claimTaken.core (coreOf claimTaken.cur)).copy.parked = [] ∧ (claimTaken.core (coreOf claimTaken.cur)).waiting = [] :=
  ⟨rfl, rfl, issues rfl, by decide, rfl, rfl, rfl⟩
theorem witness_claims_7 : claimMost.Sound (4 : BitVec 4) ∧ claimMost.Sound (5 : BitVec 4) ∧ claimMost.Issues .matrix [4, 5] ∧ (∀ (r : Nat), r < 40 → (if r < 32 then BitVec.getLsbD (claimMost.val (4 : BitVec 4)) r else decide (r < 40) && BitVec.getLsbD (claimMost.val (5 : BitVec 4)) (r - 32)) = true → (claimMost.core (coreOf claimMost.cur)).claims.getD r none = none ∨ (claimMost.core (coreOf claimMost.cur)).claims.getD r none = some claimMost.cur) :=
  ⟨rfl, rfl, issues rfl, by decide⟩
theorem witness_claims_8 : claimMost.Sound (4 : BitVec 4) ∧ claimMost.Sound (5 : BitVec 4) ∧ claimMost.Issues .matrix [4, 5, 0] ∧ (∀ (r : Nat), r < 40 → (if r < 32 then BitVec.getLsbD (claimMost.val (4 : BitVec 4)) r else decide (r < 40) && BitVec.getLsbD (claimMost.val (5 : BitVec 4)) (r - 32)) = true → (claimMost.core (coreOf claimMost.cur)).claims.getD r none = none ∨ (claimMost.core (coreOf claimMost.cur)).claims.getD r none = some claimMost.cur) :=
  ⟨rfl, rfl, issues rfl, by decide⟩
theorem witness_engine_issue_1 : ((1 : BitVec 1) = (1 : BitVec 1) → engInt8.now.dep.getD (BitVec.toNat (1 : BitVec 2)) (0 : BitVec 4) ≠ (15 : BitVec 4)) ∧ engInt8.Issues .matrix [] ∧ BitVec.toNat (2 : BitVec 2) ≤ 2 ∧ (if (0 : BitVec 1) = (1 : BitVec 1) then (2 : BitVec 5) = (0 : BitVec 5) ∧ ((0 : BitVec 1) = (1 : BitVec 1) → BitVec.toNat (0 : BitVec 3) % 2 = 0) else True ∧ True) ∧ (Pattern.elements engInt8.now.str[BitVec.toNat (0 : BitVec 2)] * Pattern.bytes engInt8.now.str[BitVec.toNat (0 : BitVec 2)] = 1024 * (if (0 : BitVec 1) = (1 : BitVec 1) then if (0 : BitVec 1) = (1 : BitVec 1) then [32 + BitVec.toNat (0 : BitVec 3), 33 + BitVec.toNat (0 : BitVec 3)] else [32 + BitVec.toNat (0 : BitVec 3)] else [BitVec.toNat (2 : BitVec 5)]).length) ∧ (∀ (r : Nat), (r ∈ if (0 : BitVec 1) = (1 : BitVec 1) then if (0 : BitVec 1) = (1 : BitVec 1) then [32 + BitVec.toNat (0 : BitVec 3), 33 + BitVec.toNat (0 : BitVec 3)] else [32 + BitVec.toNat (0 : BitVec 3)] else [BitVec.toNat (2 : BitVec 5)]) → (engInt8.core (coreOf engInt8.cur)).holds engInt8.cur r = true) ∧ ((engInt8.core (coreOf engInt8.cur)).engine EngineSel.matrix).queue.length < 2 :=
  ⟨by decide, issues rfl, by decide, by decide, rfl, by decide, by decide⟩
theorem witness_engine_issue_2 : ((1 : BitVec 1) = (1 : BitVec 1) → engInt8.now.dep.getD (BitVec.toNat (1 : BitVec 2)) (0 : BitVec 4) ≠ (15 : BitVec 4)) ∧ engInt8.Issues .matrix [] ∧ BitVec.toNat (engInt8.now.extReg (0 : BitVec 3)).val / 65536 % 16 ≤ 5 ∧ (BitVec.toNat (engInt8.now.extReg (0 : BitVec 3)).val / 65536 % 16 = 1 → BitVec.toNat (engInt8.now.extReg (0 : BitVec 3)).val % 8 ≠ 0 ∧ (True → BitVec.toNat (engInt8.now.extReg (0 : BitVec 3)).val / 256 % 8 ≠ 0)) ∧ BitVec.toNat (engInt8.now.extReg (1 : BitVec 3)).val % 128 ≤ mfmtFull (BitVec.toNat (engInt8.now.extReg (0 : BitVec 3)).val / 65536 % 16) ∧ (BitVec.toNat (engInt8.now.extReg (0 : BitVec 3)).val / 65536 % 16 = 5 → BitVec.toNat (0 : BitVec 3) % 2 = 0) ∧ (∀ (r : Nat), (r ∈ [BitVec.toNat (2 : BitVec 5), BitVec.toNat (3 : BitVec 5), 32 + BitVec.toNat (0 : BitVec 3)] ++ if BitVec.toNat (engInt8.now.extReg (0 : BitVec 3)).val / 65536 % 16 = 5 then [33 + BitVec.toNat (0 : BitVec 3)] else []) → (engInt8.core (coreOf engInt8.cur)).holds engInt8.cur r = true) ∧ ((engInt8.core (coreOf engInt8.cur)).engine EngineSel.matrix).queue.length < 2 :=
  ⟨by decide, issues rfl, by decide, by decide, by decide, by decide, by decide, by decide⟩
theorem witness_engine_issue_3 : ((1 : BitVec 1) = (1 : BitVec 1) → engInt8.now.dep.getD (BitVec.toNat (1 : BitVec 2)) (0 : BitVec 4) ≠ (15 : BitVec 4)) ∧ engInt8.Issues .matrix [] ∧ BitVec.toNat (engInt8.now.extReg (0 : BitVec 3)).val / 65536 % 16 ≤ 1 ∧ (BitVec.toNat (engInt8.now.extReg (0 : BitVec 3)).val / 65536 % 16 = 1 → BitVec.toNat (engInt8.now.extReg (0 : BitVec 3)).val % 8 ≠ 0 ∧ (True → BitVec.toNat (engInt8.now.extReg (0 : BitVec 3)).val / 256 % 8 ≠ 0)) ∧ engInt8.VectorRegs ∧ (∀ (i : Nat), i < 64 → (bitsIn 8 (BitVec.toNat (engInt8.now.vecReg (2 : BitVec 3)) / 2 ^ (8 * i) % 256)).length = 4) ∧ (engInt8.core (coreOf engInt8.cur)).holds engInt8.cur (BitVec.toNat (2 : BitVec 5)) = true ∧ (engInt8.core (coreOf engInt8.cur)).holds engInt8.cur (BitVec.toNat (3 : BitVec 5)) = true ∧ (engInt8.core (coreOf engInt8.cur)).holds engInt8.cur (32 + BitVec.toNat (0 : BitVec 3)) = true ∧ ((engInt8.core (coreOf engInt8.cur)).engine EngineSel.matrix).queue.length < 2 :=
  ⟨by decide, issues rfl, by decide, by decide, ⟨nothing rfl, fun r h => absurd h (quiet rfl r), nothing rfl⟩, by decide, rfl, rfl, rfl, by decide⟩
theorem witness_engine_issue_4 : ((1 : BitVec 1) = (1 : BitVec 1) → engInt8.now.dep.getD (BitVec.toNat (1 : BitVec 2)) (0 : BitVec 4) ≠ (15 : BitVec 4)) ∧ engInt8.Issues .matrix [] ∧ BitVec.toNat (engInt8.now.extReg (0 : BitVec 3)).val / 65536 % 16 ≤ 1 ∧ (BitVec.toNat (engInt8.now.extReg (0 : BitVec 3)).val / 65536 % 16 = 1 → BitVec.toNat (engInt8.now.extReg (0 : BitVec 3)).val % 8 ≠ 0 ∧ (false = true → BitVec.toNat (engInt8.now.extReg (0 : BitVec 3)).val / 256 % 8 ≠ 0)) ∧ engInt8.VectorRegs ∧ (engInt8.core (coreOf engInt8.cur)).holds engInt8.cur (BitVec.toNat (2 : BitVec 5)) = true ∧ (engInt8.core (coreOf engInt8.cur)).holds engInt8.cur (BitVec.toNat (3 : BitVec 5)) = true ∧ ((engInt8.core (coreOf engInt8.cur)).engine EngineSel.matrix).queue.length < 2 :=
  ⟨by decide, issues rfl, by decide, by decide, ⟨nothing rfl, fun r h => absurd h (quiet rfl r), nothing rfl⟩, rfl, rfl, by decide⟩
theorem witness_engine_issue_5 : ((1 : BitVec 1) = (1 : BitVec 1) → engInt8.now.dep.getD (BitVec.toNat (1 : BitVec 2)) (0 : BitVec 4) ≠ (15 : BitVec 4)) ∧ engInt8.Issues .matrix [] ∧ (engInt8.core (coreOf engInt8.cur)).holds engInt8.cur (32 + BitVec.toNat (0 : BitVec 3)) = true ∧ ((engInt8.core (coreOf engInt8.cur)).engine EngineSel.matrix).queue.length < 2 :=
  ⟨by decide, issues rfl, rfl, by decide⟩
theorem witness_engine_issue_6 : ((1 : BitVec 1) = (1 : BitVec 1) → engInt8.now.dep.getD (BitVec.toNat (1 : BitVec 2)) (0 : BitVec 4) ≠ (15 : BitVec 4)) ∧ engInt8.Issues .copy [] ∧ BitVec.toNat (2 : BitVec 2) ≤ 2 ∧ Pattern.elements engInt8.now.str[BitVec.toNat (0 : BitVec 2)] * Pattern.bytes engInt8.now.str[BitVec.toNat (0 : BitVec 2)] = Pattern.elements engInt8.now.str[BitVec.toNat (1 : BitVec 2)] * Pattern.bytes engInt8.now.str[BitVec.toNat (1 : BitVec 2)] ∧ (∀ (r : Nat), False → (engInt8.core (coreOf engInt8.cur)).holds engInt8.cur r = true) ∧ ((engInt8.core (coreOf engInt8.cur)).engine EngineSel.copy).queue.length < 2 :=
  ⟨by decide, issues rfl, by decide, rfl, (fun m h => nomatch h), by decide⟩
theorem witness_engine_issue_7 : ((0 : BitVec 1) = (1 : BitVec 1) → engFp8.now.dep.getD (BitVec.toNat (1 : BitVec 2)) (0 : BitVec 4) ≠ (15 : BitVec 4)) ∧ engFp8.Issues .matrix [] ∧ BitVec.toNat (2 : BitVec 2) ≤ 2 ∧ (if (0 : BitVec 1) = (1 : BitVec 1) then (2 : BitVec 5) = (0 : BitVec 5) ∧ ((0 : BitVec 1) = (1 : BitVec 1) → BitVec.toNat (0 : BitVec 3) % 2 = 0) else True ∧ True) ∧ (Pattern.elements engFp8.now.str[BitVec.toNat (0 : BitVec 2)] * Pattern.bytes engFp8.now.str[BitVec.toNat (0 : BitVec 2)] = 1024 * (if (0 : BitVec 1) = (1 : BitVec 1) then if (0 : BitVec 1) = (1 : BitVec 1) then [32 + BitVec.toNat (0 : BitVec 3), 33 + BitVec.toNat (0 : BitVec 3)] else [32 + BitVec.toNat (0 : BitVec 3)] else [BitVec.toNat (2 : BitVec 5)]).length) ∧ (∀ (r : Nat), (r ∈ if (0 : BitVec 1) = (1 : BitVec 1) then if (0 : BitVec 1) = (1 : BitVec 1) then [32 + BitVec.toNat (0 : BitVec 3), 33 + BitVec.toNat (0 : BitVec 3)] else [32 + BitVec.toNat (0 : BitVec 3)] else [BitVec.toNat (2 : BitVec 5)]) → (engFp8.core (coreOf engFp8.cur)).holds engFp8.cur r = true) ∧ ((engFp8.core (coreOf engFp8.cur)).engine EngineSel.matrix).queue.length < 2 :=
  ⟨by decide, issues rfl, by decide, by decide, rfl, by decide, by decide⟩
theorem witness_engine_issue_8 : ((0 : BitVec 1) = (1 : BitVec 1) → engFp8.now.dep.getD (BitVec.toNat (1 : BitVec 2)) (0 : BitVec 4) ≠ (15 : BitVec 4)) ∧ engFp8.Issues .matrix [] ∧ BitVec.toNat (engFp8.now.extReg (0 : BitVec 3)).val / 65536 % 16 ≤ 5 ∧ (BitVec.toNat (engFp8.now.extReg (0 : BitVec 3)).val / 65536 % 16 = 1 → BitVec.toNat (engFp8.now.extReg (0 : BitVec 3)).val % 8 ≠ 0 ∧ (True → BitVec.toNat (engFp8.now.extReg (0 : BitVec 3)).val / 256 % 8 ≠ 0)) ∧ BitVec.toNat (engFp8.now.extReg (1 : BitVec 3)).val % 128 ≤ mfmtFull (BitVec.toNat (engFp8.now.extReg (0 : BitVec 3)).val / 65536 % 16) ∧ (BitVec.toNat (engFp8.now.extReg (0 : BitVec 3)).val / 65536 % 16 = 5 → BitVec.toNat (0 : BitVec 3) % 2 = 0) ∧ (∀ (r : Nat), (r ∈ [BitVec.toNat (2 : BitVec 5), BitVec.toNat (3 : BitVec 5), 32 + BitVec.toNat (0 : BitVec 3)] ++ if BitVec.toNat (engFp8.now.extReg (0 : BitVec 3)).val / 65536 % 16 = 5 then [33 + BitVec.toNat (0 : BitVec 3)] else []) → (engFp8.core (coreOf engFp8.cur)).holds engFp8.cur r = true) ∧ ((engFp8.core (coreOf engFp8.cur)).engine EngineSel.matrix).queue.length < 2 :=
  ⟨by decide, issues rfl, by decide, by decide, by decide, by decide, by decide, by decide⟩
theorem witness_engine_issue_9 : ((0 : BitVec 1) = (1 : BitVec 1) → engFp8.now.dep.getD (BitVec.toNat (1 : BitVec 2)) (0 : BitVec 4) ≠ (15 : BitVec 4)) ∧ engFp8.Issues .matrix [] ∧ BitVec.toNat (engFp8.now.extReg (0 : BitVec 3)).val / 65536 % 16 ≤ 1 ∧ (BitVec.toNat (engFp8.now.extReg (0 : BitVec 3)).val / 65536 % 16 = 1 → BitVec.toNat (engFp8.now.extReg (0 : BitVec 3)).val % 8 ≠ 0 ∧ (True → BitVec.toNat (engFp8.now.extReg (0 : BitVec 3)).val / 256 % 8 ≠ 0)) ∧ engFp8.VectorRegs ∧ (∀ (i : Nat), i < 64 → (bitsIn 8 (BitVec.toNat (engFp8.now.vecReg (2 : BitVec 3)) / 2 ^ (8 * i) % 256)).length = 4) ∧ (engFp8.core (coreOf engFp8.cur)).holds engFp8.cur (BitVec.toNat (2 : BitVec 5)) = true ∧ (engFp8.core (coreOf engFp8.cur)).holds engFp8.cur (BitVec.toNat (3 : BitVec 5)) = true ∧ (engFp8.core (coreOf engFp8.cur)).holds engFp8.cur (32 + BitVec.toNat (0 : BitVec 3)) = true ∧ ((engFp8.core (coreOf engFp8.cur)).engine EngineSel.matrix).queue.length < 2 :=
  ⟨by decide, issues rfl, by decide, by decide, ⟨nothing rfl, fun r h => absurd h (quiet rfl r), nothing rfl⟩, by decide, rfl, rfl, rfl, by decide⟩
theorem witness_engine_issue_10 : ((0 : BitVec 1) = (1 : BitVec 1) → engFp8.now.dep.getD (BitVec.toNat (1 : BitVec 2)) (0 : BitVec 4) ≠ (15 : BitVec 4)) ∧ engFp8.Issues .matrix [] ∧ BitVec.toNat (engFp8.now.extReg (0 : BitVec 3)).val / 65536 % 16 ≤ 1 ∧ (BitVec.toNat (engFp8.now.extReg (0 : BitVec 3)).val / 65536 % 16 = 1 → BitVec.toNat (engFp8.now.extReg (0 : BitVec 3)).val % 8 ≠ 0 ∧ (false = true → BitVec.toNat (engFp8.now.extReg (0 : BitVec 3)).val / 256 % 8 ≠ 0)) ∧ engFp8.VectorRegs ∧ (engFp8.core (coreOf engFp8.cur)).holds engFp8.cur (BitVec.toNat (2 : BitVec 5)) = true ∧ (engFp8.core (coreOf engFp8.cur)).holds engFp8.cur (BitVec.toNat (3 : BitVec 5)) = true ∧ ((engFp8.core (coreOf engFp8.cur)).engine EngineSel.matrix).queue.length < 2 :=
  ⟨by decide, issues rfl, by decide, by decide, ⟨nothing rfl, fun r h => absurd h (quiet rfl r), nothing rfl⟩, rfl, rfl, by decide⟩
theorem witness_engine_issue_11 : ((0 : BitVec 1) = (1 : BitVec 1) → engFp8.now.dep.getD (BitVec.toNat (1 : BitVec 2)) (0 : BitVec 4) ≠ (15 : BitVec 4)) ∧ engFp8.Issues .matrix [] ∧ (engFp8.core (coreOf engFp8.cur)).holds engFp8.cur (32 + BitVec.toNat (0 : BitVec 3)) = true ∧ ((engFp8.core (coreOf engFp8.cur)).engine EngineSel.matrix).queue.length < 2 :=
  ⟨by decide, issues rfl, rfl, by decide⟩
theorem witness_engine_issue_12 : ((0 : BitVec 1) = (1 : BitVec 1) → engFp8.now.dep.getD (BitVec.toNat (1 : BitVec 2)) (0 : BitVec 4) ≠ (15 : BitVec 4)) ∧ engFp8.Issues .copy [] ∧ BitVec.toNat (2 : BitVec 2) ≤ 2 ∧ Pattern.elements engFp8.now.str[BitVec.toNat (0 : BitVec 2)] * Pattern.bytes engFp8.now.str[BitVec.toNat (0 : BitVec 2)] = Pattern.elements engFp8.now.str[BitVec.toNat (1 : BitVec 2)] * Pattern.bytes engFp8.now.str[BitVec.toNat (1 : BitVec 2)] ∧ (∀ (r : Nat), False → (engFp8.core (coreOf engFp8.cur)).holds engFp8.cur r = true) ∧ ((engFp8.core (coreOf engFp8.cur)).engine EngineSel.copy).queue.length < 2 :=
  ⟨by decide, issues rfl, by decide, rfl, (fun m h => nomatch h), by decide⟩
theorem witness_engine_issue_13 : ((1 : BitVec 1) = (1 : BitVec 1) → engFp64.now.dep.getD (BitVec.toNat (1 : BitVec 2)) (0 : BitVec 4) ≠ (15 : BitVec 4)) ∧ engFp64.Issues .matrix [] ∧ BitVec.toNat (2 : BitVec 2) ≤ 2 ∧ (if True then True ∧ (True → BitVec.toNat (2 : BitVec 3) % 2 = 0) else (2 : BitVec 3) = (0 : BitVec 3) ∧ (1 : BitVec 1) = (0 : BitVec 1)) ∧ (Pattern.elements engFp64.now.str[BitVec.toNat (0 : BitVec 2)] * Pattern.bytes engFp64.now.str[BitVec.toNat (0 : BitVec 2)] = 1024 * (if True then if True then [32 + BitVec.toNat (2 : BitVec 3), 33 + BitVec.toNat (2 : BitVec 3)] else [32 + BitVec.toNat (2 : BitVec 3)] else [BitVec.toNat (0 : BitVec 5)]).length) ∧ (∀ (r : Nat), (r ∈ if True then if True then [32 + BitVec.toNat (2 : BitVec 3), 33 + BitVec.toNat (2 : BitVec 3)] else [32 + BitVec.toNat (2 : BitVec 3)] else [BitVec.toNat (0 : BitVec 5)]) → (engFp64.core (coreOf engFp64.cur)).holds engFp64.cur r = true) ∧ ((engFp64.core (coreOf engFp64.cur)).engine EngineSel.matrix).queue.length < 2 :=
  ⟨by decide, issues rfl, by decide, by decide, rfl, by decide, by decide⟩
theorem witness_engine_unclaimed_1 : ((1 : BitVec 1) = (1 : BitVec 1) → engUnheld.now.dep.getD (BitVec.toNat (1 : BitVec 2)) (0 : BitVec 4) ≠ (15 : BitVec 4)) ∧ engUnheld.Issues .matrix [] ∧ engUnheld.Handles ∧ BitVec.toNat (2 : BitVec 2) ≤ 2 ∧ (if (0 : BitVec 1) = (1 : BitVec 1) then (2 : BitVec 5) = (0 : BitVec 5) ∧ ((0 : BitVec 1) = (1 : BitVec 1) → BitVec.toNat (0 : BitVec 3) % 2 = 0) else (0 : BitVec 3) = (0 : BitVec 3) ∧ (0 : BitVec 1) = (0 : BitVec 1)) ∧ (Pattern.elements engUnheld.now.str[BitVec.toNat (0 : BitVec 2)] * Pattern.bytes engUnheld.now.str[BitVec.toNat (0 : BitVec 2)] = 1024 * (if (0 : BitVec 1) = (1 : BitVec 1) then if (0 : BitVec 1) = (1 : BitVec 1) then [32 + BitVec.toNat (0 : BitVec 3), 33 + BitVec.toNat (0 : BitVec 3)] else [32 + BitVec.toNat (0 : BitVec 3)] else [BitVec.toNat (2 : BitVec 5)]).length) ∧ (∀ (j : Nat), (j ∈ if (0 : BitVec 1) = (1 : BitVec 1) then if (0 : BitVec 1) = (1 : BitVec 1) then [32 + BitVec.toNat (0 : BitVec 3), 33 + BitVec.toNat (0 : BitVec 3)] else [32 + BitVec.toNat (0 : BitVec 3)] else [BitVec.toNat (2 : BitVec 5)]) → j < 2 → (engUnheld.core (coreOf engUnheld.cur)).holds engUnheld.cur j = true) ∧ (engUnheld.core (coreOf engUnheld.cur)).holds engUnheld.cur 2 = false :=
  ⟨by decide, issues rfl, ⟨rfl, rfl⟩, by decide, by decide, rfl, by decide, rfl⟩
theorem witness_engine_sealed_copy_1 : ((1 : BitVec 1) = (1 : BitVec 1) → engSealed.now.dep.getD (BitVec.toNat (1 : BitVec 2)) (0 : BitVec 4) ≠ (15 : BitVec 4)) ∧ engSealed.Issues .sinter [] ∧ BitVec.toNat (2 : BitVec 2) ≤ 2 ∧ Pattern.esize engSealed.now.str[BitVec.toNat (0 : BitVec 2)] = Pattern.esize engSealed.now.str[BitVec.toNat (1 : BitVec 2)] ∧ Pattern.elements engSealed.now.str[BitVec.toNat (0 : BitVec 2)] = Pattern.elements engSealed.now.str[BitVec.toNat (1 : BitVec 2)] ∧ Pattern.elements engSealed.now.str[BitVec.toNat (1 : BitVec 2)] * Pattern.bytes engSealed.now.str[BitVec.toNat (1 : BitVec 2)] ≤ 32768 ∧ Pattern.indEn engSealed.now.str[BitVec.toNat (1 : BitVec 2)] = false ∧ Pattern.indEn engSealed.now.str[BitVec.toNat (0 : BitVec 2)] = false ∧ Pattern.extent engSealed.now.str[BitVec.toNat (1 : BitVec 2)] = some ((32 : Word), (95 : Word)) ∧ engSealed.OnPage (32 : Word) 1 [.r] (leafOf 1) (page + 32) ∧ engSealed.OnPage (95 : Word) 1 [.r] (leafOf 1) (page + 95) ∧ engSealed.sealsAt (page + 32) 1 = [Sinter.mk 0 [(page, 4096)] 3] ∧ engSealed.sealsAt (page + 95) 1 = [Sinter.mk 0 [(page, 4096)] 3] ∧ engSealed.Distinct ∧ 3 < 65535 ∧ engSealed.sealed.Nodup ∧ (∀ (n : Nat), n < Pattern.elements engSealed.now.str[BitVec.toNat (0 : BitVec 2)] → ∃ (a : Nat), ∃ (core : Nat), ∃ (off : Nat), checkIn engSealed.now.win (Pattern.address engSealed.now.str[BitVec.toNat (0 : BitVec 2)] n none) (Pattern.bytes engSealed.now.str[BitVec.toNat (0 : BitVec 2)]) [.w] = Except.ok (Space.chip a) ∧ (chipBlock a = some (Target.slots core off) ∨ chipBlock a = some (Target.accs core off) ∨ ∃ (g : Nat), chipBlock a = some (Target.tile core off g) ∧ isCompute core = true)) ∧ (engSealed.core (coreOf engSealed.cur)).copy.queue.length < 2 :=
  ⟨by decide, issues rfl, by decide, rfl, rfl, by decide, rfl, rfl, rfl, ⟨⟨_, 0, _, _, rfl, rfl, rfl, rfl⟩, rfl, rfl⟩, ⟨⟨_, 0, _, _, rfl, rfl, rfl, rfl⟩, rfl, rfl⟩, rfl, rfl, by unfold State.Distinct; decide, by decide, by decide, witness_engine_sealed_copy_elements, by decide⟩
theorem witness_engine_run_1 : ((cmdQueued cmdZero).core 0).killed = false ∧ ((cmdQueued cmdZero).core 0).testing = false ∧ (((cmdQueued cmdZero).core 0).engine EngineSel.matrix).running = none ∧ (((cmdQueued cmdZero).core 0).engine EngineSel.matrix).queue = [cmdZero, Command.mk 9 cmdZero.thread cmdZero.op cmdZero.pc cmdZero.epoch cmdZero.deps cmdZero.setd cmdZero.win cmdZero.ext cmdZero.dst cmdZero.src cmdZero.vmeta cmdZero.sealedAt cmdZero.waited] ∧ cmdZero.deps = [] ∧ (cmdQueued cmdZero).offline cmdZero.epoch = false ∧ (cmdQueued cmdZero).pastTau cmdZero.epoch = false ∧ ((cmdQueued cmdZero).core 0).clashSpans cmdZero = [] ∧ (cmdQueued cmdZero).namesTested 0 cmdZero = false ∧ cmdZero.flags.fst = false ∧ (cmdQueued cmdZero).readsPoisoned 0 cmdZero = false ∧ cmdZero.op = Instr.mzero (2 : BitVec 3) (1 : BitVec 4) (2 : BitVec 2) (0 : BitVec 1) (1 : BitVec 1) :=
  ⟨rfl, rfl, rfl, rfl, rfl, rfl, rfl, rfl, rfl, rfl, rfl, rfl⟩
theorem witness_engine_run_2 : ((cmdQueued cmdMul).core 0).killed = false ∧ ((cmdQueued cmdMul).core 0).testing = false ∧ (((cmdQueued cmdMul).core 0).engine EngineSel.matrix).running = none ∧ (((cmdQueued cmdMul).core 0).engine EngineSel.matrix).queue = [cmdMul, Command.mk 9 cmdMul.thread cmdMul.op cmdMul.pc cmdMul.epoch cmdMul.deps cmdMul.setd cmdMul.win cmdMul.ext cmdMul.dst cmdMul.src cmdMul.vmeta cmdMul.sealedAt cmdMul.waited] ∧ cmdMul.deps = [] ∧ (cmdQueued cmdMul).offline cmdMul.epoch = false ∧ (cmdQueued cmdMul).pastTau cmdMul.epoch = false ∧ ((cmdQueued cmdMul).core 0).clashSpans cmdMul = [] ∧ (cmdQueued cmdMul).namesTested 0 cmdMul = false ∧ cmdMul.flags.fst = false ∧ (cmdQueued cmdMul).readsPoisoned 0 cmdMul = false ∧ cmdMul.op = Instr.mma (3 : BitVec 5) (4 : BitVec 5) (2 : BitVec 3) (1 : BitVec 4) (2 : BitVec 2) (0 : BitVec 1) (1 : BitVec 1) (0 : BitVec 1) ∧ BitVec.toNat cmdMul.ext[0] / 65536 % 16 = 0 :=
  ⟨rfl, rfl, rfl, rfl, rfl, rfl, rfl, rfl, rfl, rfl, rfl, rfl, rfl⟩
theorem witness_engine_run_3 : ((cmdQueued cmdMul).core 0).killed = false ∧ ((cmdQueued cmdMul).core 0).testing = false ∧ (((cmdQueued cmdMul).core 0).engine EngineSel.matrix).running = none ∧ (((cmdQueued cmdMul).core 0).engine EngineSel.matrix).queue = [cmdMul, Command.mk 9 cmdMul.thread cmdMul.op cmdMul.pc cmdMul.epoch cmdMul.deps cmdMul.setd cmdMul.win cmdMul.ext cmdMul.dst cmdMul.src cmdMul.vmeta cmdMul.sealedAt cmdMul.waited] ∧ cmdMul.deps = [] ∧ (cmdQueued cmdMul).offline cmdMul.epoch = false ∧ (cmdQueued cmdMul).pastTau cmdMul.epoch = false ∧ ((cmdQueued cmdMul).core 0).clashSpans cmdMul = [] ∧ (cmdQueued cmdMul).namesTested 0 cmdMul = false ∧ cmdMul.flags.fst = false ∧ (cmdQueued cmdMul).readsPoisoned 0 cmdMul = false ∧ cmdMul.op = Instr.mma (3 : BitVec 5) (4 : BitVec 5) (2 : BitVec 3) (1 : BitVec 4) (2 : BitVec 2) (0 : BitVec 1) (1 : BitVec 1) (0 : BitVec 1) ∧ BitVec.toNat cmdMul.ext[0] / 65536 % 16 ≤ 5 ∧ ((if BitVec.toNat cmdMul.ext[1] % 128 = 0 then 64 / if BitVec.toNat cmdMul.ext[0] / 65536 % 16 ≤ 1 then 1 else if BitVec.toNat cmdMul.ext[0] / 65536 % 16 ≤ 3 then 2 else if BitVec.toNat cmdMul.ext[0] / 65536 % 16 = 4 then 4 else 8 else BitVec.toNat cmdMul.ext[1] % 128) ≤ 64 / if BitVec.toNat cmdMul.ext[0] / 65536 % 16 ≤ 1 then 1 else if BitVec.toNat cmdMul.ext[0] / 65536 % 16 ≤ 3 then 2 else if BitVec.toNat cmdMul.ext[0] / 65536 % 16 = 4 then 4 else 8) ∧ (BitVec.toNat cmdMul.ext[0] / 65536 % 16 = 5 → BitVec.toNat (2 : BitVec 3) % 2 = 0) :=
  ⟨rfl, rfl, rfl, rfl, rfl, rfl, rfl, rfl, rfl, rfl, rfl, rfl, by decide, by decide, by decide⟩
theorem witness_engine_run_4 : ((cmdQueued (cmdIn cmdMul 1 0)).core 0).killed = false ∧ ((cmdQueued (cmdIn cmdMul 1 0)).core 0).testing = false ∧ (((cmdQueued (cmdIn cmdMul 1 0)).core 0).engine EngineSel.matrix).running = none ∧ (((cmdQueued (cmdIn cmdMul 1 0)).core 0).engine EngineSel.matrix).queue = [cmdIn cmdMul 1 0, Command.mk 9 (cmdIn cmdMul 1 0).thread (cmdIn cmdMul 1 0).op (cmdIn cmdMul 1 0).pc (cmdIn cmdMul 1 0).epoch (cmdIn cmdMul 1 0).deps (cmdIn cmdMul 1 0).setd (cmdIn cmdMul 1 0).win (cmdIn cmdMul 1 0).ext (cmdIn cmdMul 1 0).dst (cmdIn cmdMul 1 0).src (cmdIn cmdMul 1 0).vmeta (cmdIn cmdMul 1 0).sealedAt (cmdIn cmdMul 1 0).waited] ∧ (cmdIn cmdMul 1 0).deps = [] ∧ (cmdQueued (cmdIn cmdMul 1 0)).offline (cmdIn cmdMul 1 0).epoch = false ∧ (cmdQueued (cmdIn cmdMul 1 0)).pastTau (cmdIn cmdMul 1 0).epoch = false ∧ ((cmdQueued (cmdIn cmdMul 1 0)).core 0).clashSpans (cmdIn cmdMul 1 0) = [] ∧ (cmdQueued (cmdIn cmdMul 1 0)).namesTested 0 (cmdIn cmdMul 1 0) = false ∧ (cmdIn cmdMul 1 0).flags.fst = false ∧ (cmdQueued (cmdIn cmdMul 1 0)).readsPoisoned 0 (cmdIn cmdMul 1 0) = false ∧ (cmdIn cmdMul 1 0).op = Instr.mma (3 : BitVec 5) (4 : BitVec 5) (2 : BitVec 3) (1 : BitVec 4) (2 : BitVec 2) (0 : BitVec 1) (1 : BitVec 1) (0 : BitVec 1) ∧ BitVec.toNat (cmdIn cmdMul 1 0).ext[0] / 65536 % 16 ≤ 5 ∧ ((if BitVec.toNat (cmdIn cmdMul 1 0).ext[1] % 128 = 0 then 64 / if BitVec.toNat (cmdIn cmdMul 1 0).ext[0] / 65536 % 16 ≤ 1 then 1 else if BitVec.toNat (cmdIn cmdMul 1 0).ext[0] / 65536 % 16 ≤ 3 then 2 else if BitVec.toNat (cmdIn cmdMul 1 0).ext[0] / 65536 % 16 = 4 then 4 else 8 else BitVec.toNat (cmdIn cmdMul 1 0).ext[1] % 128) ≤ 64 / if BitVec.toNat (cmdIn cmdMul 1 0).ext[0] / 65536 % 16 ≤ 1 then 1 else if BitVec.toNat (cmdIn cmdMul 1 0).ext[0] / 65536 % 16 ≤ 3 then 2 else if BitVec.toNat (cmdIn cmdMul 1 0).ext[0] / 65536 % 16 = 4 then 4 else 8) ∧ (BitVec.toNat (cmdIn cmdMul 1 0).ext[0] / 65536 % 16 = 5 → BitVec.toNat (2 : BitVec 3) % 2 = 0) :=
  ⟨rfl, rfl, rfl, rfl, rfl, rfl, rfl, rfl, rfl, rfl, rfl, rfl, by decide, by decide, by decide⟩
theorem witness_engine_run_5 : ((cmdQueued (cmdIn cmdMul 3 32)).core 0).killed = false ∧ ((cmdQueued (cmdIn cmdMul 3 32)).core 0).testing = false ∧ (((cmdQueued (cmdIn cmdMul 3 32)).core 0).engine EngineSel.matrix).running = none ∧ (((cmdQueued (cmdIn cmdMul 3 32)).core 0).engine EngineSel.matrix).queue = [cmdIn cmdMul 3 32, Command.mk 9 (cmdIn cmdMul 3 32).thread (cmdIn cmdMul 3 32).op (cmdIn cmdMul 3 32).pc (cmdIn cmdMul 3 32).epoch (cmdIn cmdMul 3 32).deps (cmdIn cmdMul 3 32).setd (cmdIn cmdMul 3 32).win (cmdIn cmdMul 3 32).ext (cmdIn cmdMul 3 32).dst (cmdIn cmdMul 3 32).src (cmdIn cmdMul 3 32).vmeta (cmdIn cmdMul 3 32).sealedAt (cmdIn cmdMul 3 32).waited] ∧ (cmdIn cmdMul 3 32).deps = [] ∧ (cmdQueued (cmdIn cmdMul 3 32)).offline (cmdIn cmdMul 3 32).epoch = false ∧ (cmdQueued (cmdIn cmdMul 3 32)).pastTau (cmdIn cmdMul 3 32).epoch = false ∧ ((cmdQueued (cmdIn cmdMul 3 32)).core 0).clashSpans (cmdIn cmdMul 3 32) = [] ∧ (cmdQueued (cmdIn cmdMul 3 32)).namesTested 0 (cmdIn cmdMul 3 32) = false ∧ (cmdIn cmdMul 3 32).flags.fst = false ∧ (cmdQueued (cmdIn cmdMul 3 32)).readsPoisoned 0 (cmdIn cmdMul 3 32) = false ∧ (cmdIn cmdMul 3 32).op = Instr.mma (3 : BitVec 5) (4 : BitVec 5) (2 : BitVec 3) (1 : BitVec 4) (2 : BitVec 2) (0 : BitVec 1) (1 : BitVec 1) (0 : BitVec 1) ∧ BitVec.toNat (cmdIn cmdMul 3 32).ext[0] / 65536 % 16 ≤ 5 ∧ ((if BitVec.toNat (cmdIn cmdMul 3 32).ext[1] % 128 = 0 then 64 / if BitVec.toNat (cmdIn cmdMul 3 32).ext[0] / 65536 % 16 ≤ 1 then 1 else if BitVec.toNat (cmdIn cmdMul 3 32).ext[0] / 65536 % 16 ≤ 3 then 2 else if BitVec.toNat (cmdIn cmdMul 3 32).ext[0] / 65536 % 16 = 4 then 4 else 8 else BitVec.toNat (cmdIn cmdMul 3 32).ext[1] % 128) ≤ 64 / if BitVec.toNat (cmdIn cmdMul 3 32).ext[0] / 65536 % 16 ≤ 1 then 1 else if BitVec.toNat (cmdIn cmdMul 3 32).ext[0] / 65536 % 16 ≤ 3 then 2 else if BitVec.toNat (cmdIn cmdMul 3 32).ext[0] / 65536 % 16 = 4 then 4 else 8) ∧ (BitVec.toNat (cmdIn cmdMul 3 32).ext[0] / 65536 % 16 = 5 → BitVec.toNat (2 : BitVec 3) % 2 = 0) :=
  ⟨rfl, rfl, rfl, rfl, rfl, rfl, rfl, rfl, rfl, rfl, rfl, rfl, by decide, by decide, by decide⟩
theorem witness_engine_run_6 : ((cmdQueued cmdSparse).core 0).killed = false ∧ ((cmdQueued cmdSparse).core 0).testing = false ∧ (((cmdQueued cmdSparse).core 0).engine EngineSel.matrix).running = none ∧ (((cmdQueued cmdSparse).core 0).engine EngineSel.matrix).queue = [cmdSparse, Command.mk 9 cmdSparse.thread cmdSparse.op cmdSparse.pc cmdSparse.epoch cmdSparse.deps cmdSparse.setd cmdSparse.win cmdSparse.ext cmdSparse.dst cmdSparse.src cmdSparse.vmeta cmdSparse.sealedAt cmdSparse.waited] ∧ cmdSparse.deps = [] ∧ (cmdQueued cmdSparse).offline cmdSparse.epoch = false ∧ (cmdQueued cmdSparse).pastTau cmdSparse.epoch = false ∧ ((cmdQueued cmdSparse).core 0).clashSpans cmdSparse = [] ∧ (cmdQueued cmdSparse).namesTested 0 cmdSparse = false ∧ cmdSparse.flags.fst = false ∧ (cmdQueued cmdSparse).readsPoisoned 0 cmdSparse = false ∧ cmdSparse.op = Instr.mmas (3 : BitVec 5) (4 : BitVec 5) (2 : BitVec 3) (1 : BitVec 4) (2 : BitVec 2) (0 : BitVec 1) (1 : BitVec 1) (0 : BitVec 1) (5 : BitVec 3) ∧ BitVec.toNat cmdSparse.ext[0] / 65536 % 16 ≤ 1 :=
  ⟨rfl, rfl, rfl, rfl, rfl, rfl, rfl, rfl, rfl, rfl, rfl, rfl, by decide⟩
theorem witness_engine_run_7 : ((cmdQueued (cmdIn cmdSparse 1 0)).core 0).killed = false ∧ ((cmdQueued (cmdIn cmdSparse 1 0)).core 0).testing = false ∧ (((cmdQueued (cmdIn cmdSparse 1 0)).core 0).engine EngineSel.matrix).running = none ∧ (((cmdQueued (cmdIn cmdSparse 1 0)).core 0).engine EngineSel.matrix).queue = [cmdIn cmdSparse 1 0, Command.mk 9 (cmdIn cmdSparse 1 0).thread (cmdIn cmdSparse 1 0).op (cmdIn cmdSparse 1 0).pc (cmdIn cmdSparse 1 0).epoch (cmdIn cmdSparse 1 0).deps (cmdIn cmdSparse 1 0).setd (cmdIn cmdSparse 1 0).win (cmdIn cmdSparse 1 0).ext (cmdIn cmdSparse 1 0).dst (cmdIn cmdSparse 1 0).src (cmdIn cmdSparse 1 0).vmeta (cmdIn cmdSparse 1 0).sealedAt (cmdIn cmdSparse 1 0).waited] ∧ (cmdIn cmdSparse 1 0).deps = [] ∧ (cmdQueued (cmdIn cmdSparse 1 0)).offline (cmdIn cmdSparse 1 0).epoch = false ∧ (cmdQueued (cmdIn cmdSparse 1 0)).pastTau (cmdIn cmdSparse 1 0).epoch = false ∧ ((cmdQueued (cmdIn cmdSparse 1 0)).core 0).clashSpans (cmdIn cmdSparse 1 0) = [] ∧ (cmdQueued (cmdIn cmdSparse 1 0)).namesTested 0 (cmdIn cmdSparse 1 0) = false ∧ (cmdIn cmdSparse 1 0).flags.fst = false ∧ (cmdQueued (cmdIn cmdSparse 1 0)).readsPoisoned 0 (cmdIn cmdSparse 1 0) = false ∧ (cmdIn cmdSparse 1 0).op = Instr.mmas (3 : BitVec 5) (4 : BitVec 5) (2 : BitVec 3) (1 : BitVec 4) (2 : BitVec 2) (0 : BitVec 1) (1 : BitVec 1) (0 : BitVec 1) (5 : BitVec 3) ∧ BitVec.toNat (cmdIn cmdSparse 1 0).ext[0] / 65536 % 16 ≤ 1 :=
  ⟨rfl, rfl, rfl, rfl, rfl, rfl, rfl, rfl, rfl, rfl, rfl, rfl, by decide⟩
theorem witness_engine_run_8 : ((cmdQueued cmdSplit).core 0).killed = false ∧ ((cmdQueued cmdSplit).core 0).testing = false ∧ (((cmdQueued cmdSplit).core 0).engine EngineSel.matrix).running = none ∧ (((cmdQueued cmdSplit).core 0).engine EngineSel.matrix).queue = [cmdSplit, Command.mk 9 cmdSplit.thread cmdSplit.op cmdSplit.pc cmdSplit.epoch cmdSplit.deps cmdSplit.setd cmdSplit.win cmdSplit.ext cmdSplit.dst cmdSplit.src cmdSplit.vmeta cmdSplit.sealedAt cmdSplit.waited] ∧ cmdSplit.deps = [] ∧ (cmdQueued cmdSplit).offline cmdSplit.epoch = false ∧ (cmdQueued cmdSplit).pastTau cmdSplit.epoch = false ∧ ((cmdQueued cmdSplit).core 0).clashSpans cmdSplit = [] ∧ (cmdQueued cmdSplit).namesTested 0 cmdSplit = false ∧ cmdSplit.flags.fst = false ∧ (cmdQueued cmdSplit).readsPoisoned 0 cmdSplit = false ∧ cmdSplit.op = Instr.mcmp (6 : BitVec 5) (4 : BitVec 5) (1 : BitVec 4) (2 : BitVec 2) (0 : BitVec 1) (1 : BitVec 1) (5 : BitVec 3) ∧ BitVec.toNat cmdSplit.ext[0] / 65536 % 16 ≤ 1 ∧ isCompute cmdSplit.thread = true ∧ coreOf cmdSplit.thread = 0 :=
  ⟨rfl, rfl, rfl, rfl, rfl, rfl, rfl, rfl, rfl, rfl, rfl, rfl, by decide, rfl, rfl⟩
theorem witness_engine_run_9 : ((cmdQueued (cmdIn cmdSplit 1 0)).core 0).killed = false ∧ ((cmdQueued (cmdIn cmdSplit 1 0)).core 0).testing = false ∧ (((cmdQueued (cmdIn cmdSplit 1 0)).core 0).engine EngineSel.matrix).running = none ∧ (((cmdQueued (cmdIn cmdSplit 1 0)).core 0).engine EngineSel.matrix).queue = [cmdIn cmdSplit 1 0, Command.mk 9 (cmdIn cmdSplit 1 0).thread (cmdIn cmdSplit 1 0).op (cmdIn cmdSplit 1 0).pc (cmdIn cmdSplit 1 0).epoch (cmdIn cmdSplit 1 0).deps (cmdIn cmdSplit 1 0).setd (cmdIn cmdSplit 1 0).win (cmdIn cmdSplit 1 0).ext (cmdIn cmdSplit 1 0).dst (cmdIn cmdSplit 1 0).src (cmdIn cmdSplit 1 0).vmeta (cmdIn cmdSplit 1 0).sealedAt (cmdIn cmdSplit 1 0).waited] ∧ (cmdIn cmdSplit 1 0).deps = [] ∧ (cmdQueued (cmdIn cmdSplit 1 0)).offline (cmdIn cmdSplit 1 0).epoch = false ∧ (cmdQueued (cmdIn cmdSplit 1 0)).pastTau (cmdIn cmdSplit 1 0).epoch = false ∧ ((cmdQueued (cmdIn cmdSplit 1 0)).core 0).clashSpans (cmdIn cmdSplit 1 0) = [] ∧ (cmdQueued (cmdIn cmdSplit 1 0)).namesTested 0 (cmdIn cmdSplit 1 0) = false ∧ (cmdIn cmdSplit 1 0).flags.fst = false ∧ (cmdQueued (cmdIn cmdSplit 1 0)).readsPoisoned 0 (cmdIn cmdSplit 1 0) = false ∧ (cmdIn cmdSplit 1 0).op = Instr.mcmp (6 : BitVec 5) (4 : BitVec 5) (1 : BitVec 4) (2 : BitVec 2) (0 : BitVec 1) (1 : BitVec 1) (5 : BitVec 3) ∧ BitVec.toNat (cmdIn cmdSplit 1 0).ext[0] / 65536 % 16 ≤ 1 ∧ isCompute (cmdIn cmdSplit 1 0).thread = true ∧ coreOf (cmdIn cmdSplit 1 0).thread = 0 :=
  ⟨rfl, rfl, rfl, rfl, rfl, rfl, rfl, rfl, rfl, rfl, rfl, rfl, by decide, rfl, rfl⟩
theorem witness_engine_run_10 : ((cmdQueued cmdLoad).core 0).killed = false ∧ ((cmdQueued cmdLoad).core 0).testing = false ∧ (((cmdQueued cmdLoad).core 0).engine EngineSel.matrix).running = none ∧ (((cmdQueued cmdLoad).core 0).engine EngineSel.matrix).queue = [cmdLoad, Command.mk 9 cmdLoad.thread cmdLoad.op cmdLoad.pc cmdLoad.epoch cmdLoad.deps cmdLoad.setd cmdLoad.win cmdLoad.ext cmdLoad.dst cmdLoad.src cmdLoad.vmeta cmdLoad.sealedAt cmdLoad.waited] ∧ cmdLoad.deps = [] ∧ (cmdQueued cmdLoad).offline cmdLoad.epoch = false ∧ (cmdQueued cmdLoad).pastTau cmdLoad.epoch = false ∧ ((cmdQueued cmdLoad).core 0).clashSpans cmdLoad = [] ∧ (cmdQueued cmdLoad).namesTested 0 cmdLoad = false ∧ cmdLoad.flags.fst = false ∧ (cmdQueued cmdLoad).readsPoisoned 0 cmdLoad = false ∧ cmdLoad.op = Instr.mld (3 : BitVec 5) (0 : BitVec 1) (0 : BitVec 1) (1 : BitVec 2) (0 : BitVec 3) (2 : BitVec 4) (0 : BitVec 2) (1 : BitVec 1) (0 : BitVec 1) (0 : BitVec 1) (1 : BitVec 1) (0 : BitVec 2) ∧ Pattern.indEn cmdLoad.src = false ∧ Pattern.elements cmdLoad.src * Pattern.bytes cmdLoad.src = 1024 ∧ (((cmdQueued cmdLoad).thread cmdLoad.thread).extReg (6 : BitVec 3)).val = (0 : Word) ∧ (∀ (i : Nat), i < Pattern.elements cmdLoad.src → (cmdQueued cmdLoad).ElementOnTile cmdLoad (Pattern.address cmdLoad.src i none) (Pattern.bytes cmdLoad.src) .r 0 ((fun (i : Nat) => 16 + 4 * i) i) ((fun (i : Nat) => 16 + 4 * i) i) ∧ (cmdQueued cmdLoad).poisonedAt (Place.tile 0) ((fun (i : Nat) => 16 + 4 * i) i) (Pattern.bytes cmdLoad.src) = false) :=
  ⟨rfl, rfl, rfl, rfl, rfl, rfl, rfl, rfl, rfl, rfl, rfl, rfl, rfl, rfl, rfl, elementsToRead (by decide +kernel)⟩
theorem witness_engine_run_11 : ((cmdQueued cmdStore).core 0).killed = false ∧ ((cmdQueued cmdStore).core 0).testing = false ∧ (((cmdQueued cmdStore).core 0).engine EngineSel.matrix).running = none ∧ (((cmdQueued cmdStore).core 0).engine EngineSel.matrix).queue = [cmdStore, Command.mk 9 cmdStore.thread cmdStore.op cmdStore.pc cmdStore.epoch cmdStore.deps cmdStore.setd cmdStore.win cmdStore.ext cmdStore.dst cmdStore.src cmdStore.vmeta cmdStore.sealedAt cmdStore.waited] ∧ cmdStore.deps = [] ∧ (cmdQueued cmdStore).offline cmdStore.epoch = false ∧ (cmdQueued cmdStore).pastTau cmdStore.epoch = false ∧ ((cmdQueued cmdStore).core 0).clashSpans cmdStore = [] ∧ (cmdQueued cmdStore).namesTested 0 cmdStore = false ∧ cmdStore.flags.fst = false ∧ (cmdQueued cmdStore).readsPoisoned 0 cmdStore = false ∧ cmdStore.op = Instr.mst (3 : BitVec 5) (0 : BitVec 1) (0 : BitVec 1) (1 : BitVec 2) (0 : BitVec 3) (2 : BitVec 4) (0 : BitVec 2) (1 : BitVec 1) (0 : BitVec 1) (0 : BitVec 1) (1 : BitVec 1) (0 : BitVec 2) ∧ Pattern.indEn cmdStore.src = false ∧ Pattern.elements cmdStore.src * Pattern.bytes cmdStore.src = 1024 ∧ (((cmdQueued cmdStore).thread cmdStore.thread).extReg (6 : BitVec 3)).val = (0 : Word) ∧ (∀ (w : Nat), ¬Place.slot 0 (BitVec.toNat (3 : BitVec 5)) w ∈ (cmdQueued cmdStore).poison) ∧ (∀ (i : Nat), i < Pattern.elements cmdStore.src → (cmdQueued cmdStore).ElementOnTile cmdStore (Pattern.address cmdStore.src i none) (Pattern.bytes cmdStore.src) .w 0 ((fun (i : Nat) => 16 + 4 * i) i) ((fun (i : Nat) => 16 + 4 * i) i)) :=
  ⟨rfl, rfl, rfl, rfl, rfl, rfl, rfl, rfl, rfl, rfl, rfl, rfl, rfl, rfl, rfl, (fun w => List.not_mem_nil), elementsToWrite (by decide +kernel)⟩
theorem witness_engine_run_12 : ((cmdCopies cmdCopy).core 0).killed = false ∧ ((cmdCopies cmdCopy).core 0).testing = false ∧ (((cmdCopies cmdCopy).core 0).engine EngineSel.copy).running = none ∧ (((cmdCopies cmdCopy).core 0).engine EngineSel.copy).queue = [cmdCopy, Command.mk 9 cmdCopy.thread cmdCopy.op cmdCopy.pc cmdCopy.epoch cmdCopy.deps cmdCopy.setd cmdCopy.win cmdCopy.ext cmdCopy.dst cmdCopy.src cmdCopy.vmeta cmdCopy.sealedAt cmdCopy.waited] ∧ cmdCopy.deps = [] ∧ (cmdCopies cmdCopy).offline cmdCopy.epoch = false ∧ (cmdCopies cmdCopy).pastTau cmdCopy.epoch = false ∧ ((cmdCopies cmdCopy).core 0).clashSpans cmdCopy = [] ∧ (cmdCopies cmdCopy).namesTested 0 cmdCopy = false ∧ cmdCopy.flags.fst = false ∧ cmdCopy.op = Instr.cpy (0 : BitVec 2) (1 : BitVec 2) (2 : BitVec 4) (0 : BitVec 2) (1 : BitVec 1) (0 : BitVec 1) (0 : BitVec 1) (1 : BitVec 1) (0 : BitVec 2) ∧ Pattern.indEn cmdCopy.src = false ∧ Pattern.indEn cmdCopy.dst = false ∧ Pattern.elements cmdCopy.src * Pattern.bytes cmdCopy.src = Pattern.elements cmdCopy.dst * Pattern.bytes cmdCopy.dst ∧ (((cmdCopies cmdCopy).thread cmdCopy.thread).extReg (6 : BitVec 3)).val = (0 : Word) ∧ (∀ (i : Nat), i < Pattern.elements cmdCopy.src → (cmdCopies cmdCopy).ElementOnTile cmdCopy (Pattern.address cmdCopy.src i none) (Pattern.bytes cmdCopy.src) .r 0 ((fun (i : Nat) => 16 + 4 * i) i) ((fun (i : Nat) => 16 + 4 * i) i) ∧ (cmdCopies cmdCopy).poisonedAt (Place.tile 0) ((fun (i : Nat) => 16 + 4 * i) i) (Pattern.bytes cmdCopy.src) = false) ∧ (∀ (i : Nat), i < Pattern.elements cmdCopy.dst → (cmdCopies cmdCopy).ElementOnTile cmdCopy (Pattern.address cmdCopy.dst i none) (Pattern.bytes cmdCopy.dst) .w 0 ((fun (i : Nat) => 128 + 4 * i) i) ((fun (i : Nat) => 128 + 4 * i) i)) ∧ (∀ (i : Nat), i < Pattern.elements cmdCopy.src → ∀ (j : Nat), j < Pattern.elements cmdCopy.dst → overlaps ((fun (i : Nat) => 16 + 4 * i) i) (Pattern.bytes cmdCopy.src) ((fun (i : Nat) => 128 + 4 * i) j) (Pattern.bytes cmdCopy.dst) = false) :=
  ⟨rfl, rfl, rfl, rfl, rfl, rfl, rfl, rfl, rfl, rfl, rfl, rfl, rfl, rfl, rfl, elementsToRead (by decide +kernel), elementsToWrite (by decide +kernel), by decide⟩
theorem witness_engine_run_13 : ((cmdCopies cmdSealed).core 0).killed = false ∧ ((cmdCopies cmdSealed).core 0).testing = false ∧ (((cmdCopies cmdSealed).core 0).engine EngineSel.copy).running = none ∧ (((cmdCopies cmdSealed).core 0).engine EngineSel.copy).queue = [cmdSealed, Command.mk 9 cmdSealed.thread cmdSealed.op cmdSealed.pc cmdSealed.epoch cmdSealed.deps cmdSealed.setd cmdSealed.win cmdSealed.ext cmdSealed.dst cmdSealed.src cmdSealed.vmeta cmdSealed.sealedAt cmdSealed.waited] ∧ cmdSealed.deps = [] ∧ (cmdCopies cmdSealed).offline cmdSealed.epoch = false ∧ (cmdCopies cmdSealed).pastTau cmdSealed.epoch = false ∧ ((cmdCopies cmdSealed).core 0).clashSpans cmdSealed = [] ∧ (cmdCopies cmdSealed).namesTested 0 cmdSealed = false ∧ cmdSealed.flags.fst = false ∧ cmdSealed.op = Instr.scpy (0 : BitVec 2) (1 : BitVec 2) (2 : BitVec 4) (0 : BitVec 2) (1 : BitVec 1) (0 : BitVec 1) (0 : BitVec 1) (1 : BitVec 1) (0 : BitVec 2) ∧ Pattern.indEn cmdSealed.src = false ∧ Pattern.indEn cmdSealed.dst = false ∧ Pattern.elements cmdSealed.src = Pattern.elements cmdSealed.dst ∧ Pattern.bytes cmdSealed.src = Pattern.bytes cmdSealed.dst ∧ cmdSealed.sealedAt = some page ∧ (∀ (c : Cell), c ∈ (cmdCopies cmdSealed).cells → c.leaving = false) ∧ (List.Pairwise (fun (h g : Held) => h.epoch ≠ g.epoch ∨ h.base + h.size ≤ g.base ∨ g.base + g.size ≤ h.base) ((cmdCopies cmdSealed).pager (pagerOf cmdSealed.thread)).cache) ∧ (∀ (i : Nat), i < Pattern.elements cmdSealed.src → (cmdCopies cmdSealed).ElementOnPage cmdSealed (Pattern.address cmdSealed.src i none) (Pattern.bytes cmdSealed.src) ((fun (i : Nat) => page + 16 + 4 * i) i)) ∧ (∀ (i : Nat), i < Pattern.elements cmdSealed.dst → (cmdCopies cmdSealed).ElementOnTile cmdSealed (Pattern.address cmdSealed.dst i none) (Pattern.bytes cmdSealed.dst) .w 0 ((fun (i : Nat) => 128 + 4 * i) i) ((fun (i : Nat) => 128 + 4 * i) i)) :=
  ⟨rfl, rfl, rfl, rfl, rfl, rfl, rfl, rfl, rfl, rfl, rfl, rfl, rfl, rfl, rfl, rfl, by decide, by decide, fourElements (by decide +kernel) ⟨⟨_, 0, _, _, _, rfl, rfl, rfl, rfl, rfl⟩, .inl rfl, rfl, rfl, rfl, rfl, rfl, rfl, by decide +kernel⟩ ⟨⟨_, 0, _, _, _, rfl, rfl, rfl, rfl, rfl⟩, .inl rfl, rfl, rfl, rfl, rfl, rfl, rfl, by decide +kernel⟩ ⟨⟨_, 0, _, _, _, rfl, rfl, rfl, rfl, rfl⟩, .inl rfl, rfl, rfl, rfl, rfl, rfl, rfl, by decide +kernel⟩ ⟨⟨_, 0, _, _, _, rfl, rfl, rfl, rfl, rfl⟩, .inl rfl, rfl, rfl, rfl, rfl, rfl, rfl, by decide +kernel⟩, elementsToWrite (by decide +kernel)⟩
theorem witness_engine_complete_1 : (((cmdRunning cmdMul).core 0).engine EngineSel.matrix).running = some cmdMul ∧ cmdMul.flags.snd = false ∧ coreOf cmdMul.thread = 0 :=
  ⟨rfl, rfl, rfl⟩
theorem witness_accumulators_1 : (accClean.Holds (if ((accClean.core (coreOf accClean.cur)).acc (BitVec.toNat (2 : BitVec 3))).checks.state = CkState.f64 then [32 + BitVec.toNat (2 : BitVec 3), 33 + BitVec.toNat (2 : BitVec 3)] else [32 + BitVec.toNat (2 : BitVec 3)])) ∧ accClean.Issues .matrix [3] ∧ ((accClean.core (coreOf accClean.cur)).acc (BitVec.toNat (2 : BitVec 3))).checks.state ≠ CkState.none ∧ (checkReport (accClean.core (coreOf accClean.cur)) (BitVec.toNat (2 : BitVec 3)) (accClean.now.extReg (2 : BitVec 3)).val).nrows = 0 ∧ (checkReport (accClean.core (coreOf accClean.cur)) (BitVec.toNat (2 : BitVec 3)) (accClean.now.extReg (2 : BitVec 3)).val).ncols = 0 :=
  ⟨holding rfl rfl rfl rfl, issues rfl, by decide, rfl, rfl⟩
theorem witness_accumulators_2 : (accClean.Holds (if ((accClean.core (coreOf accClean.cur)).acc (BitVec.toNat (2 : BitVec 3))).checks.state = CkState.f64 then [32 + BitVec.toNat (2 : BitVec 3), 33 + BitVec.toNat (2 : BitVec 3)] else [32 + BitVec.toNat (2 : BitVec 3)])) ∧ accClean.Issues .matrix [3] ∧ ((accClean.core (coreOf accClean.cur)).acc (BitVec.toNat (2 : BitVec 3))).checks.state = CkState.i32 :=
  ⟨holding rfl rfl rfl rfl, issues rfl, rfl⟩
theorem witness_accumulators_3 : (accClean.Holds (if ((accClean.core (coreOf accClean.cur)).acc (BitVec.toNat (2 : BitVec 3))).checks.state = CkState.f64 then [32 + BitVec.toNat (2 : BitVec 3), 33 + BitVec.toNat (2 : BitVec 3)] else [32 + BitVec.toNat (2 : BitVec 3)])) ∧ accClean.Issues .matrix [3] ∧ accClean.Issues .matrix [4] ∧ accClean.Sound (4 : BitVec 4) ∧ accClean.now.supv = false ∧ accClean.now.dbg = false ∧ accClean.Handles :=
  ⟨holding rfl rfl rfl rfl, issues rfl, issues rfl, rfl, rfl, rfl, ⟨rfl, rfl⟩⟩
theorem witness_accumulators_4 : (accClean.Holds (if ((accClean.core (coreOf accClean.cur)).acc (BitVec.toNat (2 : BitVec 3))).checks.state = CkState.f64 then [32 + BitVec.toNat (2 : BitVec 3), 33 + BitVec.toNat (2 : BitVec 3)] else [32 + BitVec.toNat (2 : BitVec 3)])) ∧ accClean.Issues .matrix [3] ∧ accClean.Issues .matrix [4] ∧ accClean.Sound (4 : BitVec 4) ∧ accClean.Issues .matrix [] ∧ accClean.Holds [32 + BitVec.toNat (2 : BitVec 3), BitVec.toNat (7 : BitVec 5)] ∧ ((accClean.core (coreOf accClean.cur)).acc (BitVec.toNat (2 : BitVec 3))).checks.state ≠ CkState.f64 ∧ ((0 : BitVec 4) = (0 : BitVec 4) ∨ (0 : BitVec 4) = (8 : BitVec 4) ∨ (0 : BitVec 4) = (9 : BitVec 4) ∨ (0 : BitVec 4) = (12 : BitVec 4)) ∧ ((0 : BitVec 4) = (12 : BitVec 4) → BitVec.toNat (accClean.now.extReg (0 : BitVec 3)).val % 8 ≠ 0) :=
  ⟨holding rfl rfl rfl rfl, issues rfl, issues rfl, rfl, issues rfl, holding rfl rfl rfl rfl, by decide, by decide, by decide⟩
theorem witness_accumulators_5 : (accSingle.Holds (if ((accSingle.core (coreOf accSingle.cur)).acc (BitVec.toNat (2 : BitVec 3))).checks.state = CkState.f64 then [32 + BitVec.toNat (2 : BitVec 3), 33 + BitVec.toNat (2 : BitVec 3)] else [32 + BitVec.toNat (2 : BitVec 3)])) ∧ accSingle.Issues .matrix [3] ∧ ((accSingle.core (coreOf accSingle.cur)).acc (BitVec.toNat (2 : BitVec 3))).checks.state ≠ CkState.none ∧ ((checkReport (accSingle.core (coreOf accSingle.cur)) (BitVec.toNat (2 : BitVec 3)) (accSingle.now.extReg (2 : BitVec 3)).val).nrows ≠ 0 ∨ (checkReport (accSingle.core (coreOf accSingle.cur)) (BitVec.toNat (2 : BitVec 3)) (accSingle.now.extReg (2 : BitVec 3)).val).ncols ≠ 0) ∧ accSingle.Handles :=
  ⟨holding rfl rfl rfl rfl, issues rfl, by decide, by decide, ⟨rfl, rfl⟩⟩
theorem witness_accumulators_6 : (accSingle.Holds (if ((accSingle.core (coreOf accSingle.cur)).acc (BitVec.toNat (2 : BitVec 3))).checks.state = CkState.f64 then [32 + BitVec.toNat (2 : BitVec 3), 33 + BitVec.toNat (2 : BitVec 3)] else [32 + BitVec.toNat (2 : BitVec 3)])) ∧ accSingle.Issues .matrix [3] ∧ ((accSingle.core (coreOf accSingle.cur)).acc (BitVec.toNat (2 : BitVec 3))).checks.state = CkState.i32 :=
  ⟨holding rfl rfl rfl rfl, issues rfl, rfl⟩
theorem witness_accumulators_7 : (accSingle.Holds (if ((accSingle.core (coreOf accSingle.cur)).acc (BitVec.toNat (2 : BitVec 3))).checks.state = CkState.f64 then [32 + BitVec.toNat (2 : BitVec 3), 33 + BitVec.toNat (2 : BitVec 3)] else [32 + BitVec.toNat (2 : BitVec 3)])) ∧ accSingle.Issues .matrix [3] ∧ accSingle.Issues .matrix [4] ∧ accSingle.Sound (4 : BitVec 4) ∧ accSingle.now.supv = false ∧ accSingle.now.dbg = false ∧ accSingle.Handles :=
  ⟨holding rfl rfl rfl rfl, issues rfl, issues rfl, rfl, rfl, rfl, ⟨rfl, rfl⟩⟩
theorem witness_accumulators_8 : (accSingle.Holds (if ((accSingle.core (coreOf accSingle.cur)).acc (BitVec.toNat (2 : BitVec 3))).checks.state = CkState.f64 then [32 + BitVec.toNat (2 : BitVec 3), 33 + BitVec.toNat (2 : BitVec 3)] else [32 + BitVec.toNat (2 : BitVec 3)])) ∧ accSingle.Issues .matrix [3] ∧ accSingle.Issues .matrix [4] ∧ accSingle.Sound (4 : BitVec 4) ∧ accSingle.Issues .matrix [] ∧ accSingle.Holds [32 + BitVec.toNat (2 : BitVec 3), BitVec.toNat (7 : BitVec 5)] ∧ ((accSingle.core (coreOf accSingle.cur)).acc (BitVec.toNat (2 : BitVec 3))).checks.state ≠ CkState.f64 ∧ ((0 : BitVec 4) = (0 : BitVec 4) ∨ (0 : BitVec 4) = (8 : BitVec 4) ∨ (0 : BitVec 4) = (9 : BitVec 4) ∨ (0 : BitVec 4) = (12 : BitVec 4)) ∧ ((0 : BitVec 4) = (12 : BitVec 4) → BitVec.toNat (accSingle.now.extReg (0 : BitVec 3)).val % 8 ≠ 0) :=
  ⟨holding rfl rfl rfl rfl, issues rfl, issues rfl, rfl, issues rfl, holding rfl rfl rfl rfl, by decide, by decide, by decide⟩
theorem witness_accumulators_9 : (accOther.Holds (if ((accOther.core (coreOf accOther.cur)).acc (BitVec.toNat (2 : BitVec 3))).checks.state = CkState.f64 then [32 + BitVec.toNat (2 : BitVec 3), 33 + BitVec.toNat (2 : BitVec 3)] else [32 + BitVec.toNat (2 : BitVec 3)])) ∧ accOther.Issues .matrix [3] ∧ ((accOther.core (coreOf accOther.cur)).acc (BitVec.toNat (2 : BitVec 3))).checks.state ≠ CkState.none ∧ ((checkReport (accOther.core (coreOf accOther.cur)) (BitVec.toNat (2 : BitVec 3)) (accOther.now.extReg (2 : BitVec 3)).val).nrows ≠ 0 ∨ (checkReport (accOther.core (coreOf accOther.cur)) (BitVec.toNat (2 : BitVec 3)) (accOther.now.extReg (2 : BitVec 3)).val).ncols ≠ 0) ∧ accOther.Handles :=
  ⟨holding rfl rfl rfl rfl, issues rfl, by decide, by decide, ⟨rfl, rfl⟩⟩
theorem witness_accumulators_10 : (accOther.Holds (if ((accOther.core (coreOf accOther.cur)).acc (BitVec.toNat (2 : BitVec 3))).checks.state = CkState.f64 then [32 + BitVec.toNat (2 : BitVec 3), 33 + BitVec.toNat (2 : BitVec 3)] else [32 + BitVec.toNat (2 : BitVec 3)])) ∧ accOther.Issues .matrix [3] ∧ accOther.Issues .matrix [4] ∧ accOther.Sound (4 : BitVec 4) ∧ (accOther.now.supv = true ∨ accOther.now.dbg = true) :=
  ⟨holding rfl rfl rfl rfl, issues rfl, issues rfl, rfl, by decide⟩
theorem witness_accumulators_11 : (accNone.Holds (if ((accNone.core (coreOf accNone.cur)).acc (BitVec.toNat (2 : BitVec 3))).checks.state = CkState.f64 then [32 + BitVec.toNat (2 : BitVec 3), 33 + BitVec.toNat (2 : BitVec 3)] else [32 + BitVec.toNat (2 : BitVec 3)])) ∧ accNone.Issues .matrix [3] ∧ ((accNone.core (coreOf accNone.cur)).acc (BitVec.toNat (2 : BitVec 3))).checks.state = CkState.none :=
  ⟨holding rfl rfl rfl rfl, issues rfl, rfl⟩

/-! ## Streams, near memory, tasks, calls and messages -/

def msgBox (rank4 : Word) (mail late : List Mail) (callee : Option Callee) : State :=
  let c : Core := { Core.initial with tile := Memory.writeN [] 64 ([0x111, 0x222, 3, 7, 8, 9, 10, 0x1122334455667788].flatMap (leBytes 8)) }
  let s := (box [(4, rank4), (5, 2 ^ 61 + 64), (8, 8), (9, 9), (10, 10), (11, 11), (12, 12), (13, 13)]).setCore 0 c
  let s := s.setThread 0 { s.now with mail := mail, late := late, callId := 0xFFFF, callee := callee, remote := callee.isSome }
  { s with
    ranks := [(5 * 2 ^ 32 + 3, BitVec.ofNat 64 (0x100000001234 + 2 ^ 24))], servers := [(serverOf 0, ⟨[], [], [⟨99, 3, 5, none, none, none, [], 0⟩]⟩)] }
def msgSend : State := msgBox 0xF00000003 [] [] none
def msgNone : State := msgBox 0xF00000004 [] [] none
def msgRecv : State := msgBox (2 ^ 61 + 64) [⟨1, 0x1234567890, 0x77⟩, ⟨2, 3, 4⟩] [⟨5, 6, 7⟩] none
def msgCall : State := msgBox 5 [] [] none
def msgServe : State := msgBox 5 [] [] (some ⟨99, 3, 5, 7, 0⟩)

def strmBox (p : Pattern) : State := (box [(4, 2 ^ 61 + 16)]).setCore 0 { Core.initial with tile := Memory.writeN [] 16 (leBytes 64 p.toNat) }
def strmFits : State := strmBox (rowOf 16 0xFFFFFFFF)
def strmOver : State := strmBox (rowOf 16 0xFFFFFFFF + 0x10 * 2 ^ 64 + 2 ^ 160)
def strmField : State := strmBox (rowOf 16 16 + 8 * 2 ^ 64)
def depBox : State := (box []).setThread 0 { thr [] with dep := ⟨#[0, 3, 0, 1], rfl⟩, relDone := 1 }
/-- s4 names the page, s5 its size; its home holds the reductions and armed regions given. -/
def nearBox (e3 e4 : Nat) (q : List Nred) (arm : List (Nat × Nat)) : State :=
  let l := [((4 : BitVec 4), (0 : Word)), (5, 4096)]
  let s := (box l).setThread 0 { thr l with dep := ⟨#[0, 3, 0, 1], rfl⟩
                                            ext := ⟨#[Reg.of 0x0302, Reg.of 5, Reg.of 4, Reg.of (BitVec.ofNat 64 e3), Reg.of (BitVec.ofNat 64 e4), Reg.zero, Reg.zero, Reg.zero], rfl⟩ }
  { s.setHome (keyChannel page) { Home.initial with nreds := q, armed := arm } with mem := ldMem, cores := [(0, ldFar)] }
def nearFree : State := nearBox 0 4 [] []
def nearArmed : State := nearBox 10 4 [] [(page, 4096), (page + 8192, 4096)]
def nredOf (f c : Nat) : Nred := ⟨7, 0, 3, 0, f, c, page + 16, 16, false, false, [], none, false, 0, 0, false⟩
def nearSum (f c : Nat) : State := { nearBox 10 4 [nredOf f c] [(page, 4096), (page + 8192, 4096)] with
  mem := Memory.writeN [] (page + 16) [1, 2, 3, 0x84, 5, 6, 7, 0xF8, 9, 10, 11, 12, 13, 14, 15, 16] }
def nearLaunch : Launch := ⟨0, 5, 3, [(0, 0)], Vector.replicate 8 0, 0, 0, false, none, 0, [], [], [0], [], [], [], .running, none, 0, 0, none, [], false, [], none⟩
def nearPhase : State :=
  let s := { box [] with fw := { (box []).fw with launches := [nearLaunch] } }
  { s.setThread 0 { s.now with status := .wait .phase } with net := { s.net with phases := [0] }, phases := [(4, 2), (19, 7)] }
/-- A tile with dwords at 16, beside the page. -/
def taskBox (l : List (BitVec 4 × Word)) (d : List Child) : State := { (box l).setCore 0 { ldFar with
  tile := Memory.writeN [] 16 ([0x111, 0x222, 3, 0].flatMap (leBytes 8)), deque := d } with mem := ldMem }
def taskSpawn : State := taskBox [(4, 2 ^ 61 + 16), (8, 1), (9, 2), (10, 3), (11, 4), (12, 32), (13, 16)] []
def taskLong : State := taskBox [(4, 2 ^ 61 + 16), (8, 1), (9, 2), (10, 3), (11, 4), (12, 32), (13, 0x40000001)] []
def taskFull : State := taskSpawn.setHome (keyChannel page) { Home.initial with
  queue := List.replicate 256 ⟨0, 16, 0, 1, 2, Vector.replicate 4 0, false, false, 9, 5, 0, true, some 0⟩ }
def taskQcfg : State := taskBox [(4, 16), (5, 0xFFFFF0F)] []
def taskFork (n : Nat) : State := taskBox [(4, 0x600), (5, 2 ^ 61 + 16), (7, 77), (8, 1), (9, 2), (10, 3), (11, 4), (12, 12), (13, 13), (14, 0x1000100), (15, 15)]
  (List.replicate n ⟨1, Vector.replicate 4 0, 2, 3, 4⟩)
def forkPush : State := taskFork 63
def forkInline : State := taskFork 64
/-- Work in hand; its queue holds SEQs 8 to 10 of its home. -/
def workBox (w : Option Work) (l : List (BitVec 4 × Word)) : State :=
  let s := taskBox l []
  let q : Task := ⟨0, 16, 0, 1, 2, Vector.replicate 4 0, false, false, 9, 5, 0, true, some 0⟩
  (s.setThread 0 { s.now with work := w }).setHome (keyChannel page) { Home.initial with queue := [{ q with seq := 8, runner := none }, q, { q with seq := 10, runner := none }] }
def workNone : State := workBox none [(4, 5)]
def workTask : State := workBox (some ⟨.task (keyChannel page) 9 false, 3⟩) [(4, 5), (7, 1)]
def workChild : State := workBox (some ⟨.child 0x2000000000000010, 3⟩) [(7, 2)]
def workOpen (open_ : List Inline) : State :=
  let s := workBox (some ⟨.child 0x2000000000000010, 3⟩) [(7, 4), (12, 0x2000000000000010), (13, 7), (14, 0x1000100), (15, 0x54)]
  (s.setThread 0 { s.now with inlines := open_ }).setCore 0x100 { Core.initial with tile := Memory.writeN [] 0x100 ([77, 12, 13, 15].flatMap (leBytes 8)) }
def workInline : State := workOpen [⟨0x2000000000000010, 0x1000100, 0x54, ⟨#[77, 12, 13, 15], rfl⟩⟩]
def workBare : State := workOpen []

theorem witness_strm_1 : strmFits.Issues .copy [4] ∧ (∀ (i : Nat), i < 8 → strmFits.OnTile (strmFits.val (4 : BitVec 4) + BitVec.ofNat 64 (8 * i)) 8 [.r] 0 (16 + 8 * i) (16 + 8 * i) ∧ strmFits.poisonedAt (Place.tile 0) (16 + 8 * i) 8 = false) ∧ BitVec.extractLsb' 67 1 (BitVec.ofNat 512 (strmFits.tileBytes 0 16 64)) = (0 : BitVec 1) ∧ BitVec.extractLsb' 76 52 (BitVec.ofNat 512 (strmFits.tileBytes 0 16 64)) = (0 : BitVec 52) ∧ BitVec.extractLsb' 448 64 (BitVec.ofNat 512 (strmFits.tileBytes 0 16 64)) = (0 : BitVec 64) ∧ Pattern.esize (BitVec.ofNat 512 (strmFits.tileBytes 0 16 64)) ≠ 7 ∧ (Pattern.indEn (BitVec.ofNat 512 (strmFits.tileBytes 0 16 64)) = true → Pattern.indDim (BitVec.ofNat 512 (strmFits.tileBytes 0 16 64)) ≤ Pattern.ndim (BitVec.ofNat 512 (strmFits.tileBytes 0 16 64))) ∧ Pattern.count (BitVec.ofNat 512 (strmFits.tileBytes 0 16 64)) 0 * Pattern.count (BitVec.ofNat 512 (strmFits.tileBytes 0 16 64)) 1 * Pattern.count (BitVec.ofNat 512 (strmFits.tileBytes 0 16 64)) 2 * Pattern.count (BitVec.ofNat 512 (strmFits.tileBytes 0 16 64)) 3 < 2 ^ 32 :=
  ⟨issues rfl, below8 ⟨⟨rfl, rfl, rfl, rfl, .inl rfl⟩, rfl⟩ ⟨⟨rfl, rfl, rfl, rfl, .inl rfl⟩, rfl⟩ ⟨⟨rfl, rfl, rfl, rfl, .inl rfl⟩, rfl⟩ ⟨⟨rfl, rfl, rfl, rfl, .inl rfl⟩, rfl⟩ ⟨⟨rfl, rfl, rfl, rfl, .inl rfl⟩, rfl⟩ ⟨⟨rfl, rfl, rfl, rfl, .inl rfl⟩, rfl⟩ ⟨⟨rfl, rfl, rfl, rfl, .inl rfl⟩, rfl⟩ ⟨⟨rfl, rfl, rfl, rfl, .inl rfl⟩, rfl⟩, rfl, rfl, rfl, by decide, by decide, by decide⟩
theorem witness_strm_2 : strmOver.Issues .copy [4] ∧ (∀ (i : Nat), i < 8 → strmOver.OnTile (strmOver.val (4 : BitVec 4) + BitVec.ofNat 64 (8 * i)) 8 [.r] 0 (16 + 8 * i) (16 + 8 * i) ∧ strmOver.poisonedAt (Place.tile 0) (16 + 8 * i) 8 = false) ∧ (¬(BitVec.extractLsb' 67 1 (BitVec.ofNat 512 (strmOver.tileBytes 0 16 64)) = (0 : BitVec 1) ∧ BitVec.extractLsb' 76 52 (BitVec.ofNat 512 (strmOver.tileBytes 0 16 64)) = (0 : BitVec 52) ∧ BitVec.extractLsb' 448 64 (BitVec.ofNat 512 (strmOver.tileBytes 0 16 64)) = (0 : BitVec 64) ∧ Pattern.esize (BitVec.ofNat 512 (strmOver.tileBytes 0 16 64)) ≠ 7 ∧ (Pattern.indEn (BitVec.ofNat 512 (strmOver.tileBytes 0 16 64)) = true → Pattern.indDim (BitVec.ofNat 512 (strmOver.tileBytes 0 16 64)) ≤ Pattern.ndim (BitVec.ofNat 512 (strmOver.tileBytes 0 16 64))) ∧ Pattern.count (BitVec.ofNat 512 (strmOver.tileBytes 0 16 64)) 0 * Pattern.count (BitVec.ofNat 512 (strmOver.tileBytes 0 16 64)) 1 * Pattern.count (BitVec.ofNat 512 (strmOver.tileBytes 0 16 64)) 2 * Pattern.count (BitVec.ofNat 512 (strmOver.tileBytes 0 16 64)) 3 < 2 ^ 32)) ∧ strmOver.Handles :=
  ⟨issues rfl, below8 ⟨⟨rfl, rfl, rfl, rfl, .inl rfl⟩, rfl⟩ ⟨⟨rfl, rfl, rfl, rfl, .inl rfl⟩, rfl⟩ ⟨⟨rfl, rfl, rfl, rfl, .inl rfl⟩, rfl⟩ ⟨⟨rfl, rfl, rfl, rfl, .inl rfl⟩, rfl⟩ ⟨⟨rfl, rfl, rfl, rfl, .inl rfl⟩, rfl⟩ ⟨⟨rfl, rfl, rfl, rfl, .inl rfl⟩, rfl⟩ ⟨⟨rfl, rfl, rfl, rfl, .inl rfl⟩, rfl⟩ ⟨⟨rfl, rfl, rfl, rfl, .inl rfl⟩, rfl⟩, by decide, ⟨rfl, rfl⟩⟩
theorem witness_strm_3 : strmField.Issues .copy [4] ∧ (∀ (i : Nat), i < 8 → strmField.OnTile (strmField.val (4 : BitVec 4) + BitVec.ofNat 64 (8 * i)) 8 [.r] 0 (16 + 8 * i) (16 + 8 * i) ∧ strmField.poisonedAt (Place.tile 0) (16 + 8 * i) 8 = false) ∧ (¬(BitVec.extractLsb' 67 1 (BitVec.ofNat 512 (strmField.tileBytes 0 16 64)) = (0 : BitVec 1) ∧ BitVec.extractLsb' 76 52 (BitVec.ofNat 512 (strmField.tileBytes 0 16 64)) = (0 : BitVec 52) ∧ BitVec.extractLsb' 448 64 (BitVec.ofNat 512 (strmField.tileBytes 0 16 64)) = (0 : BitVec 64) ∧ Pattern.esize (BitVec.ofNat 512 (strmField.tileBytes 0 16 64)) ≠ 7 ∧ (Pattern.indEn (BitVec.ofNat 512 (strmField.tileBytes 0 16 64)) = true → Pattern.indDim (BitVec.ofNat 512 (strmField.tileBytes 0 16 64)) ≤ Pattern.ndim (BitVec.ofNat 512 (strmField.tileBytes 0 16 64))) ∧ Pattern.count (BitVec.ofNat 512 (strmField.tileBytes 0 16 64)) 0 * Pattern.count (BitVec.ofNat 512 (strmField.tileBytes 0 16 64)) 1 * Pattern.count (BitVec.ofNat 512 (strmField.tileBytes 0 16 64)) 2 * Pattern.count (BitVec.ofNat 512 (strmField.tileBytes 0 16 64)) 3 < 2 ^ 32)) ∧ strmField.Handles :=
  ⟨issues rfl, below8 ⟨⟨rfl, rfl, rfl, rfl, .inl rfl⟩, rfl⟩ ⟨⟨rfl, rfl, rfl, rfl, .inl rfl⟩, rfl⟩ ⟨⟨rfl, rfl, rfl, rfl, .inl rfl⟩, rfl⟩ ⟨⟨rfl, rfl, rfl, rfl, .inl rfl⟩, rfl⟩ ⟨⟨rfl, rfl, rfl, rfl, .inl rfl⟩, rfl⟩ ⟨⟨rfl, rfl, rfl, rfl, .inl rfl⟩, rfl⟩ ⟨⟨rfl, rfl, rfl, rfl, .inl rfl⟩, rfl⟩ ⟨⟨rfl, rfl, rfl, rfl, .inl rfl⟩, rfl⟩, by decide, ⟨rfl, rfl⟩⟩
theorem witness_waitd_1 : depBox.Issues .copy [] ∧ (∀ (i : Nat), i < 4 → BitVec.getLsbD (5 : BitVec 4) i = true → depBox.now.dep.getD i (0 : BitVec 4) = (0 : BitVec 4)) :=
  ⟨issues rfl, by decide⟩
theorem witness_waitd_2 : depBox.Issues .copy [] ∧ (∃ (i : Nat), i < 4 ∧ BitVec.getLsbD (6 : BitVec 4) i = true ∧ depBox.now.dep.getD i (0 : BitVec 4) ≠ (0 : BitVec 4)) :=
  ⟨issues rfl, by decide⟩
theorem witness_near_memory_1 : nearFree.Issues .near [4, 5] ∧ nearFree.Distinct ∧ nearFree.Sound (5 : BitVec 4) ∧ nearFree.val (5 : BitVec 4) = (4096 : Word) ∧ BitVec.toNat (nearFree.val (4 : BitVec 4)) % 4096 = 0 ∧ nearFree.OnPage (nearFree.val (4 : BitVec 4)) 1 [.w] (leafOf 1) page ∧ nearFree.OnPage (nearFree.val (4 : BitVec 4) + (4095 : Word)) 1 [.w] (leafOf 1) (page + 4095) ∧ channelLocal (leafOf 1) = true ∧ packageOf page = nearFree.package ∧ keyChannel (page + 4095) = keyChannel page ∧ (Leaf.cls (leafOf 1) = 1 ∨ Leaf.cls (leafOf 1) = 2) ∧ nearFree.hostBias page = false ∧ nearFree.host.flips = [] ∧ nearFree.isArmed page 4096 = false ∧ (nearFree.home (keyChannel page)).armed.length < 16 ∧ nearFree.cellsAt page 4096 = [] :=
  ⟨issues rfl, by unfold State.Distinct; decide, rfl, rfl, rfl, ⟨⟨_, 0, _, _, rfl, rfl, rfl, rfl⟩, rfl, rfl⟩, ⟨⟨_, 0, _, _, rfl, rfl, rfl, rfl⟩, rfl, rfl⟩, rfl, rfl, rfl, by decide, by decide +kernel, rfl, by decide +kernel, by decide, rfl⟩
theorem witness_near_memory_2 : nearFree.Issues .near [4] ∧ nearFree.OnPage (nearFree.val (4 : BitVec 4)) 1 [.r] (leafOf 1) page ∧ channelLocal (leafOf 1) = true ∧ packageOf page = nearFree.package ∧ (nearFree.home (keyChannel page)).nreds = [] :=
  ⟨issues rfl, ⟨⟨_, 0, _, _, rfl, rfl, rfl, rfl⟩, rfl, rfl⟩, rfl, rfl, rfl⟩
theorem witness_near_memory_3 : nearFree.Issues .phase [] :=
  issues rfl
theorem witness_near_memory_4 : nearArmed.Issues .near [4, 5] ∧ nearArmed.Distinct ∧ nearArmed.Sound (5 : BitVec 4) ∧ nearArmed.val (5 : BitVec 4) = (4096 : Word) ∧ BitVec.toNat (nearArmed.val (4 : BitVec 4)) % 4096 = 0 ∧ nearArmed.OnPage (nearArmed.val (4 : BitVec 4)) 1 [.w] (leafOf 1) page ∧ nearArmed.OnPage (nearArmed.val (4 : BitVec 4) + (4095 : Word)) 1 [.w] (leafOf 1) (page + 4095) ∧ channelLocal (leafOf 1) = true ∧ packageOf page = nearArmed.package ∧ keyChannel (page + 4095) = keyChannel page ∧ (page, 4096) ∈ (nearArmed.home (keyChannel page)).armed ∧ (nearArmed.home (keyChannel page)).nreds = [] :=
  ⟨issues rfl, by unfold State.Distinct; decide, rfl, rfl, rfl, ⟨⟨_, 0, _, _, rfl, rfl, rfl, rfl⟩, rfl, rfl⟩, ⟨⟨_, 0, _, _, rfl, rfl, rfl, rfl⟩, rfl, rfl⟩, rfl, rfl, rfl, by decide, rfl⟩
theorem witness_near_memory_5 : nearArmed.Issues .near [4] ∧ nearArmed.OnPage (nearArmed.val (4 : BitVec 4)) 1 [.r] (leafOf 1) page ∧ channelLocal (leafOf 1) = true ∧ packageOf page = nearArmed.package ∧ (nearArmed.home (keyChannel page)).nreds = [] :=
  ⟨issues rfl, ⟨⟨_, 0, _, _, rfl, rfl, rfl, rfl⟩, rfl, rfl⟩, rfl, rfl, rfl⟩
theorem witness_near_memory_6 : nearArmed.Issues .phase [] :=
  issues rfl
theorem witness_near_memory_7 : nearFree.Issues .near [3, 4] ∧ nearFree.Distinct ∧ nearFree.SoundExt (3 : BitVec 3) ∧ nearFree.SoundExt (4 : BitVec 3) ∧ BitVec.toNat (nearFree.now.extReg (3 : BitVec 3)).val % 4 ≠ 3 ∧ BitVec.toNat (nearFree.now.extReg (3 : BitVec 3)).val / 4 % 8 ≤ 3 ∧ (BitVec.toNat (nearFree.now.extReg (3 : BitVec 3)).val % 4 = 2 → BitVec.toNat (nearFree.now.extReg (3 : BitVec 3)).val / 4 % 8 = 2) ∧ BitVec.toNat (0 : BitVec 2) ≤ 2 ∧ (isVent nearFree.cur = true → (2 : BitVec 4) = (0 : BitVec 4) ∧ (1 : BitVec 2) = (0 : BitVec 2) ∧ (0 : BitVec 1) = (0 : BitVec 1)) ∧ 1 ≤ BitVec.toNat (nearFree.now.extReg (4 : BitVec 3)).val % 2 ^ 32 ∧ BitVec.toNat (nearFree.now.extReg (4 : BitVec 3)).val % 2 ^ 32 ≤ 2 ^ 24 ∧ (nearFree.OnPage (nearFree.val (4 : BitVec 4)) (if BitVec.toNat (nearFree.now.extReg (3 : BitVec 3)).val / 4 % 8 = 0 ∨ BitVec.toNat (nearFree.now.extReg (3 : BitVec 3)).val / 4 % 8 = 2 then 4 else 8) [.r] (leafOf 1) page) ∧ (nearFree.OnPage (nearFree.val (4 : BitVec 4) + BitVec.ofNat 64 ((if BitVec.toNat (nearFree.now.extReg (3 : BitVec 3)).val / 4 % 8 = 0 ∨ BitVec.toNat (nearFree.now.extReg (3 : BitVec 3)).val / 4 % 8 = 2 then 4 else 8) * (BitVec.toNat (nearFree.now.extReg (4 : BitVec 3)).val % 2 ^ 32 - 1))) (if BitVec.toNat (nearFree.now.extReg (3 : BitVec 3)).val / 4 % 8 = 0 ∨ BitVec.toNat (nearFree.now.extReg (3 : BitVec 3)).val / 4 % 8 = 2 then 4 else 8) [.r] (leafOf 1) (page + 12)) ∧ channelLocal (leafOf 1) = true ∧ packageOf page = nearFree.package ∧ channelLocal (leafOf 1) = true ∧ (page + 12 = page + (if BitVec.toNat (nearFree.now.extReg (3 : BitVec 3)).val / 4 % 8 = 0 ∨ BitVec.toNat (nearFree.now.extReg (3 : BitVec 3)).val / 4 % 8 = 2 then 4 else 8) * (BitVec.toNat (nearFree.now.extReg (4 : BitVec 3)).val % 2 ^ 32 - 1)) ∧ keyChannel (page + 12) = keyChannel page ∧ nearFree.now.nreds < 4 ∧ ((0 : BitVec 1) = (1 : BitVec 1) → nearFree.now.dep.getD (BitVec.toNat (1 : BitVec 2)) (0 : BitVec 4) ≠ (15 : BitVec 4)) :=
  ⟨issues rfl, by unfold State.Distinct; decide, rfl, rfl, by decide, by decide, by decide, by decide, by decide, by decide, by decide, ⟨⟨_, 0, _, _, rfl, rfl, rfl, rfl⟩, rfl, rfl⟩, ⟨⟨_, 0, _, _, rfl, rfl, rfl, rfl⟩, rfl, rfl⟩, rfl, rfl, rfl, rfl, rfl, by decide, by decide⟩
theorem witness_near_memory_8 : nearArmed.Issues .near [3, 4] ∧ nearArmed.Distinct ∧ nearArmed.SoundExt (3 : BitVec 3) ∧ nearArmed.SoundExt (4 : BitVec 3) ∧ BitVec.toNat (nearArmed.now.extReg (3 : BitVec 3)).val % 4 ≠ 3 ∧ BitVec.toNat (nearArmed.now.extReg (3 : BitVec 3)).val / 4 % 8 ≤ 3 ∧ (BitVec.toNat (nearArmed.now.extReg (3 : BitVec 3)).val % 4 = 2 → BitVec.toNat (nearArmed.now.extReg (3 : BitVec 3)).val / 4 % 8 = 2) ∧ BitVec.toNat (0 : BitVec 2) ≤ 2 ∧ (isVent nearArmed.cur = true → (2 : BitVec 4) = (0 : BitVec 4) ∧ (1 : BitVec 2) = (0 : BitVec 2) ∧ (1 : BitVec 1) = (0 : BitVec 1)) ∧ 1 ≤ BitVec.toNat (nearArmed.now.extReg (4 : BitVec 3)).val % 2 ^ 32 ∧ BitVec.toNat (nearArmed.now.extReg (4 : BitVec 3)).val % 2 ^ 32 ≤ 2 ^ 24 ∧ (nearArmed.OnPage (nearArmed.val (4 : BitVec 4)) (if BitVec.toNat (nearArmed.now.extReg (3 : BitVec 3)).val / 4 % 8 = 0 ∨ BitVec.toNat (nearArmed.now.extReg (3 : BitVec 3)).val / 4 % 8 = 2 then 4 else 8) [.r] (leafOf 1) page) ∧ (nearArmed.OnPage (nearArmed.val (4 : BitVec 4) + BitVec.ofNat 64 ((if BitVec.toNat (nearArmed.now.extReg (3 : BitVec 3)).val / 4 % 8 = 0 ∨ BitVec.toNat (nearArmed.now.extReg (3 : BitVec 3)).val / 4 % 8 = 2 then 4 else 8) * (BitVec.toNat (nearArmed.now.extReg (4 : BitVec 3)).val % 2 ^ 32 - 1))) (if BitVec.toNat (nearArmed.now.extReg (3 : BitVec 3)).val / 4 % 8 = 0 ∨ BitVec.toNat (nearArmed.now.extReg (3 : BitVec 3)).val / 4 % 8 = 2 then 4 else 8) [.r] (leafOf 1) (page + 12)) ∧ channelLocal (leafOf 1) = true ∧ packageOf page = nearArmed.package ∧ channelLocal (leafOf 1) = true ∧ (page + 12 = page + (if BitVec.toNat (nearArmed.now.extReg (3 : BitVec 3)).val / 4 % 8 = 0 ∨ BitVec.toNat (nearArmed.now.extReg (3 : BitVec 3)).val / 4 % 8 = 2 then 4 else 8) * (BitVec.toNat (nearArmed.now.extReg (4 : BitVec 3)).val % 2 ^ 32 - 1)) ∧ keyChannel (page + 12) = keyChannel page ∧ nearArmed.now.nreds < 4 ∧ ((1 : BitVec 1) = (1 : BitVec 1) → nearArmed.now.dep.getD (BitVec.toNat (1 : BitVec 2)) (0 : BitVec 4) ≠ (15 : BitVec 4)) :=
  ⟨issues rfl, by unfold State.Distinct; decide, rfl, rfl, by decide, by decide, by decide, by decide, by decide, by decide, by decide, ⟨⟨_, 0, _, _, rfl, rfl, rfl, rfl⟩, rfl, rfl⟩, ⟨⟨_, 0, _, _, rfl, rfl, rfl, rfl⟩, rfl, rfl⟩, rfl, rfl, rfl, rfl, rfl, by decide, by decide⟩
theorem witness_reductions_1 : ((nearSum 0 1).home (keyChannel page)).nreds = [nredOf 0 1] ∧ (nredOf 0 1).deps = [] ∧ (nredOf 0 1).op = 0 ∧ (nredOf 0 1).fmt ≤ 1 ∧ 1 ≤ (nredOf 0 1).count ∧ (nredOf 0 1).acq = false ∧ (nredOf 0 1).rel = false ∧ (nredOf 0 1).setd = none ∧ (nredOf 0 1).sync = false ∧ (nredOf 0 1).mixed = false ∧ (nearSum 0 1).nredBlocked (nredOf 0 1) = false ∧ (nearSum 0 1).poisoned (nredOf 0 1).key (nredOf 0 1).size = false ∧ (nearSum 0 1).logged (nredOf 0 1).key (nredOf 0 1).size = [] ∧ (∃ (r : Nat × Nat), r ∈ ((nearSum 0 1).home (keyChannel page)).armed ∧ r.fst ≤ (nredOf 0 1).key ∧ (nredOf 0 1).key + (nredOf 0 1).size ≤ r.fst + r.snd) :=
  ⟨rfl, rfl, rfl, by decide, by decide, rfl, rfl, rfl, rfl, rfl, rfl, rfl, rfl, by decide⟩
theorem witness_reductions_2 : ((nearSum 1 2).home (keyChannel page)).nreds = [nredOf 1 2] ∧ (nredOf 1 2).deps = [] ∧ (nredOf 1 2).op = 0 ∧ (nredOf 1 2).fmt ≤ 1 ∧ 1 ≤ (nredOf 1 2).count ∧ (nredOf 1 2).acq = false ∧ (nredOf 1 2).rel = false ∧ (nredOf 1 2).setd = none ∧ (nredOf 1 2).sync = false ∧ (nredOf 1 2).mixed = false ∧ (nearSum 1 2).nredBlocked (nredOf 1 2) = false ∧ (nearSum 1 2).poisoned (nredOf 1 2).key (nredOf 1 2).size = false ∧ (nearSum 1 2).logged (nredOf 1 2).key (nredOf 1 2).size = [] ∧ (∃ (r : Nat × Nat), r ∈ ((nearSum 1 2).home (keyChannel page)).armed ∧ r.fst ≤ (nredOf 1 2).key ∧ (nredOf 1 2).key + (nredOf 1 2).size ≤ r.fst + r.snd) :=
  ⟨rfl, rfl, rfl, by decide, by decide, rfl, rfl, rfl, rfl, rfl, rfl, rfl, rfl, by decide⟩
theorem witness_phases_1 : nearPhase.net.phases = [0] ∧ nearPhase.launch (nearPhase.thread 0).epoch = some nearLaunch ∧ nearPhase.homes = [] ∧ (nearPhase.thread 0).status = Status.wait Wait.phase ∧ nearLaunch.slot < 16 :=
  ⟨rfl, rfl, rfl, rfl, by decide⟩
theorem witness_spawn_1 : taskSpawn.Issues .spawn [4, 8, 9, 10, 11, 12, 13] ∧ (∀ (r : BitVec 4), r ∈ [(8 : BitVec 4), (9 : BitVec 4), (10 : BitVec 4), (11 : BitVec 4), (12 : BitVec 4), (13 : BitVec 4)] → taskSpawn.Sound r) ∧ (∀ (i : Nat), i < 4 → taskSpawn.OnTile (taskSpawn.val (4 : BitVec 4) + BitVec.ofNat 64 (8 * i)) 8 [.r] 0 (16 + 8 * i) (16 + 8 * i) ∧ taskSpawn.poisonedAt (Place.tile 0) (16 + 8 * i) 8 = false) ∧ (BitVec.ofNat 64 (taskSpawn.tileBytes 0 (16 + 16) 8)).toNat < 4 ∧ 1 ≤ BitVec.toNat (taskSpawn.val (13 : BitVec 4)) ∧ BitVec.toNat (taskSpawn.val (13 : BitVec 4)) ≤ 2 ^ 30 ∧ taskSpawn.Distinct ∧ taskSpawn.OnPage (taskSpawn.val (12 : BitVec 4)) 1 [.r] (leafOf 1) (page + 32) ∧ taskSpawn.OnPage (taskSpawn.val (12 : BitVec 4) + BitVec.ofNat 64 (BitVec.toNat (taskSpawn.val (13 : BitVec 4)) - 1)) 1 [.r] (leafOf 1) (page + 47) ∧ taskSpawn.anchorHome (leafOf 1) (page + 32) = some (keyChannel page) ∧ taskSpawn.anchorHome (leafOf 1) (page + 47) = some (keyChannel page) ∧ (taskSpawn.core (coreOf (homeUnit (keyChannel page)))).killed = false ∧ (foreignHome (keyChannel page) = true ∨ (taskSpawn.home (keyChannel page)).queue.length + taskSpawn.inbound (keyChannel page) < queueSize (keyChannel page)) :=
  ⟨issues rfl, sounds rfl, below4 ⟨⟨rfl, rfl, rfl, rfl, .inl rfl⟩, rfl⟩ ⟨⟨rfl, rfl, rfl, rfl, .inl rfl⟩, rfl⟩ ⟨⟨rfl, rfl, rfl, rfl, .inl rfl⟩, rfl⟩ ⟨⟨rfl, rfl, rfl, rfl, .inl rfl⟩, rfl⟩, by decide, by decide, by decide, by unfold State.Distinct; decide, ⟨⟨_, 0, _, _, rfl, rfl, rfl, rfl⟩, rfl, rfl⟩, ⟨⟨_, 0, _, _, rfl, rfl, rfl, rfl⟩, rfl, rfl⟩, rfl, rfl, rfl, by decide⟩
theorem witness_spawn_2 : taskLong.Issues .spawn [4, 8, 9, 10, 11, 12, 13] ∧ (∀ (r : BitVec 4), r ∈ [(8 : BitVec 4), (9 : BitVec 4), (10 : BitVec 4), (11 : BitVec 4), (12 : BitVec 4), (13 : BitVec 4)] → taskLong.Sound r) ∧ (∀ (i : Nat), i < 4 → taskLong.OnTile (taskLong.val (4 : BitVec 4) + BitVec.ofNat 64 (8 * i)) 8 [.r] 0 (16 + 8 * i) (16 + 8 * i) ∧ taskLong.poisonedAt (Place.tile 0) (16 + 8 * i) 8 = false) ∧ ¬((BitVec.ofNat 64 (taskLong.tileBytes 0 (16 + 16) 8)).toNat < 4 ∧ 1 ≤ BitVec.toNat (taskLong.val (13 : BitVec 4)) ∧ BitVec.toNat (taskLong.val (13 : BitVec 4)) ≤ 2 ^ 30) ∧ taskLong.Handles :=
  ⟨issues rfl, sounds rfl, below4 ⟨⟨rfl, rfl, rfl, rfl, .inl rfl⟩, rfl⟩ ⟨⟨rfl, rfl, rfl, rfl, .inl rfl⟩, rfl⟩ ⟨⟨rfl, rfl, rfl, rfl, .inl rfl⟩, rfl⟩ ⟨⟨rfl, rfl, rfl, rfl, .inl rfl⟩, rfl⟩, by decide, ⟨rfl, rfl⟩⟩
theorem witness_spawn_3 : taskFull.Issues .spawn [4, 8, 9, 10, 11, 12, 13] ∧ (∀ (r : BitVec 4), r ∈ [(8 : BitVec 4), (9 : BitVec 4), (10 : BitVec 4), (11 : BitVec 4), (12 : BitVec 4), (13 : BitVec 4)] → taskFull.Sound r) ∧ (∀ (i : Nat), i < 4 → taskFull.OnTile (taskFull.val (4 : BitVec 4) + BitVec.ofNat 64 (8 * i)) 8 [.r] 0 (16 + 8 * i) (16 + 8 * i) ∧ taskFull.poisonedAt (Place.tile 0) (16 + 8 * i) 8 = false) ∧ (BitVec.ofNat 64 (taskFull.tileBytes 0 (16 + 16) 8)).toNat < 4 ∧ 1 ≤ BitVec.toNat (taskFull.val (13 : BitVec 4)) ∧ BitVec.toNat (taskFull.val (13 : BitVec 4)) ≤ 2 ^ 30 ∧ taskFull.Distinct ∧ taskFull.OnPage (taskFull.val (12 : BitVec 4)) 1 [.r] (leafOf 1) (page + 32) ∧ taskFull.OnPage (taskFull.val (12 : BitVec 4) + BitVec.ofNat 64 (BitVec.toNat (taskFull.val (13 : BitVec 4)) - 1)) 1 [.r] (leafOf 1) (page + 47) ∧ taskFull.anchorHome (leafOf 1) (page + 32) = some (keyChannel page) ∧ taskFull.anchorHome (leafOf 1) (page + 47) = some (keyChannel page) ∧ (taskFull.core (coreOf (homeUnit (keyChannel page)))).killed = false ∧ foreignHome (keyChannel page) = false ∧ queueSize (keyChannel page) ≤ (taskFull.home (keyChannel page)).queue.length + taskFull.inbound (keyChannel page) :=
  ⟨issues rfl, sounds rfl, below4 ⟨⟨rfl, rfl, rfl, rfl, .inl rfl⟩, rfl⟩ ⟨⟨rfl, rfl, rfl, rfl, .inl rfl⟩, rfl⟩ ⟨⟨rfl, rfl, rfl, rfl, .inl rfl⟩, rfl⟩ ⟨⟨rfl, rfl, rfl, rfl, .inl rfl⟩, rfl⟩, by decide, by decide, by decide, by unfold State.Distinct; decide, ⟨⟨_, 0, _, _, rfl, rfl, rfl, rfl⟩, rfl, rfl⟩, ⟨⟨_, 0, _, _, rfl, rfl, rfl, rfl⟩, rfl, rfl⟩, rfl, rfl, rfl, rfl, by decide⟩
theorem witness_qcfg_1 : taskQcfg.Issues .task [4, 5] ∧ taskQcfg.Sound (5 : BitVec 4) ∧ taskQcfg.OnPage (taskQcfg.val (4 : BitVec 4)) 1 [.w] (leafOf 1) (page + 16) ∧ taskQcfg.anchorHome (leafOf 1) (page + 16) = some (keyChannel page) ∧ foreignHome (keyChannel page) = false :=
  ⟨issues rfl, rfl, ⟨⟨_, 0, _, _, rfl, rfl, rfl, rfl⟩, rfl, rfl⟩, rfl, rfl⟩
theorem witness_fork_1 : forkPush.Issues .task [4, 5, 7, 8, 9, 10, 11, 12, 13, 14, 15] ∧ (∀ (r : BitVec 4), r ∈ [(4 : BitVec 4), (5 : BitVec 4), (7 : BitVec 4), (8 : BitVec 4), (9 : BitVec 4), (10 : BitVec 4), (11 : BitVec 4), (12 : BitVec 4), (13 : BitVec 4), (14 : BitVec 4), (15 : BitVec 4)] → forkPush.Sound r) ∧ forkPush.OnTile (forkPush.val (5 : BitVec 4)) 8 [.a, .w] 0 16 16 ∧ forkPush.poisonedAt (Place.tile 0) 16 8 = false ∧ forkPush.Unmixed (chipKey 16) 8 ∧ (forkPush.core (coreOf forkPush.cur)).deque.length < 64 :=
  ⟨issues rfl, sounds rfl, ⟨rfl, rfl, rfl, rfl, .inl rfl⟩, rfl, by unfold State.Unmixed; decide +kernel, by decide⟩
theorem witness_fork_2 : forkInline.Issues .task [4, 5, 7, 8, 9, 10, 11, 12, 13, 14, 15] ∧ (∀ (r : BitVec 4), r ∈ [(4 : BitVec 4), (5 : BitVec 4), (7 : BitVec 4), (8 : BitVec 4), (9 : BitVec 4), (10 : BitVec 4), (11 : BitVec 4), (12 : BitVec 4), (13 : BitVec 4), (14 : BitVec 4), (15 : BitVec 4)] → forkInline.Sound r) ∧ forkInline.OnTile (forkInline.val (5 : BitVec 4)) 8 [.a, .w] 0 16 16 ∧ forkInline.poisonedAt (Place.tile 0) 16 8 = false ∧ forkInline.Unmixed (chipKey 16) 8 ∧ forkInline.Canonical ∧ 64 ≤ (forkInline.core (coreOf forkInline.cur)).deque.length ∧ 256 ≠ 0 ∧ (∀ (i : Nat), i < 4 → forkInline.OnTile ((1 : Word) <<< 61 + forkInline.val (14 : BitVec 4) - BitVec.ofNat 64 (8 * (i + 1))) 8 [.w] 256 (224 + 8 * (3 - i)) (16777440 + 8 * (3 - i))) :=
  ⟨issues rfl, sounds rfl, ⟨rfl, rfl, rfl, rfl, .inl rfl⟩, rfl, by unfold State.Unmixed; decide +kernel, canonical rfl rfl, by decide, by decide, below4 ⟨rfl, rfl, rfl, rfl, .inl rfl⟩ ⟨rfl, rfl, rfl, rfl, .inl rfl⟩ ⟨rfl, rfl, rfl, rfl, .inl rfl⟩ ⟨rfl, rfl, rfl, rfl, .inl rfl⟩⟩
theorem witness_ending_1 : workNone.Issues .work [] ∧ workNone.now.work = none ∧ workNone.endingBusy workNone.cur = false :=
  ⟨issues rfl, rfl, rfl⟩
theorem witness_ending_2 : workNone.val (7 : BitVec 4) ≠ (4 : Word) ∧ workNone.now.inlines = [] ∧ workNone.now.work = none ∧ workNone.Handles :=
  ⟨by decide, rfl, rfl, ⟨rfl, rfl⟩⟩
theorem witness_migr_1 : workNone.Issues Family.task ((4 : BitVec 4) :: allScalars) ∧ (∀ (r : BitVec 4), workNone.Sound r) ∧ workNone.OnPage (workNone.val (4 : BitVec 4)) 1 [.r] (leafOf 1) (page + 5) ∧ packageOf (page + 5) = workNone.package ∧ workNone.endingBusy workNone.cur = false :=
  ⟨issues rfl, soundsAll rfl, ⟨⟨_, 0, _, _, rfl, rfl, rfl, rfl⟩, rfl, rfl⟩, rfl, rfl⟩
theorem witness_ending_3 : workTask.Issues .work [4, 7] ∧ workTask.Sound (4 : BitVec 4) ∧ workTask.val (7 : BitVec 4) ≠ (4 : Word) ∧ workTask.now.inlines = [] ∧ workTask.endingBusy workTask.cur = false ∧ workTask.Settled ∧ workTask.now.work = some (Work.mk (Job.task (keyChannel page) 9 false) 3) :=
  ⟨issues rfl, rfl, by decide, rfl, rfl, settled rfl rfl rfl, rfl⟩
theorem witness_migr_2 : workTask.Issues Family.task ((4 : BitVec 4) :: allScalars) ∧ (∀ (r : BitVec 4), workTask.Sound r) ∧ workTask.OnPage (workTask.val (4 : BitVec 4)) 1 [.r] (leafOf 1) (page + 5) ∧ packageOf (page + 5) = workTask.package ∧ workTask.endingBusy workTask.cur = false :=
  ⟨issues rfl, soundsAll rfl, ⟨⟨_, 0, _, _, rfl, rfl, rfl, rfl⟩, rfl, rfl⟩, rfl, rfl⟩
theorem witness_ending_4 : workChild.Issues .work [4, 7] ∧ workChild.Sound (4 : BitVec 4) ∧ workChild.val (7 : BitVec 4) ≠ (4 : Word) ∧ workChild.now.inlines = [] ∧ workChild.endingBusy workChild.cur = false ∧ workChild.Settled ∧ workChild.now.work = some (Work.mk (Job.child (2305843009213693968 : Word)) 3) ∧ workChild.OnTile (2305843009213693968 : Word) 8 [.a, .w] 0 16 16 ∧ workChild.poisonedAt (Place.tile 0) 16 8 = false ∧ workChild.Unmixed (chipKey 16) 8 ∧ BitVec.ofNat 64 (workChild.tileBytes 0 16 8) ≠ (0 : Word) :=
  ⟨issues rfl, rfl, by decide, rfl, rfl, settled rfl rfl rfl, rfl, ⟨rfl, rfl, rfl, rfl, .inl rfl⟩, rfl, by unfold State.Unmixed; decide +kernel, by decide⟩
theorem witness_ending_inline_1 : workInline.val (7 : BitVec 4) = (4 : Word) ∧ workInline.Settled ∧ (∀ (r : BitVec 4), r ∈ [(12 : BitVec 4), (13 : BitVec 4), (14 : BitVec 4), (15 : BitVec 4)] → workInline.now.marked r = false) ∧ workInline.Sound (14 : BitVec 4) ∧ workInline.OnTile (workInline.val (12 : BitVec 4)) 8 [.a, .w] 0 16 16 ∧ workInline.poisonedAt (Place.tile 0) 16 8 = false ∧ workInline.Unmixed (chipKey 16) 8 ∧ BitVec.ofNat 64 (workInline.tileBytes 0 16 8) ≠ (0 : Word) ∧ 256 ≠ 0 ∧ (∀ (i : Nat), i < 4 → workInline.OnTile ((1 : Word) <<< 61 + workInline.val (14 : BitVec 4) + BitVec.ofNat 64 (8 * i)) 8 [.r] 256 (256 + 8 * i) (16777472 + 8 * i) ∧ workInline.poisonedAt (Place.tile 256) (256 + 8 * i) 8 = false) ∧ (∀ (i : Inline), i ∈ List.take 1 workInline.now.inlines → i.join = workInline.val (12 : BitVec 4) ∧ i.top = workInline.val (14 : BitVec 4) ∧ i.back = workInline.val (15 : BitVec 4) ∧ i.saved.toList = [BitVec.ofNat 64 (workInline.tileBytes 256 (256 + 8 * 0) 8), BitVec.ofNat 64 (workInline.tileBytes 256 (256 + 8 * 1) 8), BitVec.ofNat 64 (workInline.tileBytes 256 (256 + 8 * 2) 8), BitVec.ofNat 64 (workInline.tileBytes 256 (256 + 8 * 3) 8)]) :=
  ⟨rfl, settled rfl rfl rfl, by decide, rfl, ⟨rfl, rfl, rfl, rfl, .inl rfl⟩, rfl, by unfold State.Unmixed; decide +kernel, by decide, by decide, below4 ⟨⟨rfl, rfl, rfl, rfl, .inl rfl⟩, rfl⟩ ⟨⟨rfl, rfl, rfl, rfl, .inl rfl⟩, rfl⟩ ⟨⟨rfl, rfl, rfl, rfl, .inl rfl⟩, rfl⟩ ⟨⟨rfl, rfl, rfl, rfl, .inl rfl⟩, rfl⟩, by decide⟩
theorem witness_ending_inline_2 : workBare.val (7 : BitVec 4) = (4 : Word) ∧ workBare.Settled ∧ (∀ (r : BitVec 4), r ∈ [(12 : BitVec 4), (13 : BitVec 4), (14 : BitVec 4), (15 : BitVec 4)] → workBare.now.marked r = false) ∧ workBare.Sound (14 : BitVec 4) ∧ workBare.OnTile (workBare.val (12 : BitVec 4)) 8 [.a, .w] 0 16 16 ∧ workBare.poisonedAt (Place.tile 0) 16 8 = false ∧ workBare.Unmixed (chipKey 16) 8 ∧ BitVec.ofNat 64 (workBare.tileBytes 0 16 8) ≠ (0 : Word) ∧ 256 ≠ 0 ∧ (∀ (i : Nat), i < 4 → workBare.OnTile ((1 : Word) <<< 61 + workBare.val (14 : BitVec 4) + BitVec.ofNat 64 (8 * i)) 8 [.r] 256 (256 + 8 * i) (16777472 + 8 * i) ∧ workBare.poisonedAt (Place.tile 256) (256 + 8 * i) 8 = false) ∧ (∀ (i : Inline), i ∈ List.take 1 workBare.now.inlines → i.join = workBare.val (12 : BitVec 4) ∧ i.top = workBare.val (14 : BitVec 4) ∧ i.back = workBare.val (15 : BitVec 4) ∧ i.saved.toList = [BitVec.ofNat 64 (workBare.tileBytes 256 (256 + 8 * 0) 8), BitVec.ofNat 64 (workBare.tileBytes 256 (256 + 8 * 1) 8), BitVec.ofNat 64 (workBare.tileBytes 256 (256 + 8 * 2) 8), BitVec.ofNat 64 (workBare.tileBytes 256 (256 + 8 * 3) 8)]) :=
  ⟨rfl, settled rfl rfl rfl, by decide, rfl, ⟨rfl, rfl, rfl, rfl, .inl rfl⟩, rfl, by unfold State.Unmixed; decide +kernel, by decide, by decide, below4 ⟨⟨rfl, rfl, rfl, rfl, .inl rfl⟩, rfl⟩ ⟨⟨rfl, rfl, rfl, rfl, .inl rfl⟩, rfl⟩ ⟨⟨rfl, rfl, rfl, rfl, .inl rfl⟩, rfl⟩ ⟨⟨rfl, rfl, rfl, rfl, .inl rfl⟩, rfl⟩, by decide⟩
theorem witness_messages_1 : msgSend.Issues .task [4, 5] ∧ msgSend.Sound (4 : BitVec 4) ∧ BitVec.getLsbD (msgSend.rankEntry msgSend.now.epoch (BitVec.toNat (msgSend.val (4 : BitVec 4)) % 2 ^ 32)) 44 = true ∧ BitVec.getLsbD (msgSend.rankEntry msgSend.now.epoch (BitVec.toNat (msgSend.val (4 : BitVec 4)) % 2 ^ 32)) 46 = false ∧ isVent (BitVec.toNat (msgSend.rankEntry msgSend.now.epoch (BitVec.toNat (msgSend.val (4 : BitVec 4)) % 2 ^ 32)) % 2 ^ 44 % 2 ^ 24) = false ∧ msgSend.OnTile (msgSend.val (5 : BitVec 4)) 64 [.r] 0 64 64 ∧ msgSend.poisonedAt (Place.tile 0) 64 64 = false :=
  ⟨issues rfl, rfl, rfl, rfl, rfl, ⟨rfl, rfl, rfl, rfl, .inl rfl⟩, rfl⟩
theorem witness_messages_2 : msgSend.Issues .task [3, 4] ∧ msgSend.now.mail = [] :=
  ⟨issues rfl, rfl⟩
theorem witness_messages_3 : msgNone.Issues .task [4, 5] ∧ msgNone.Sound (4 : BitVec 4) ∧ msgNone.Handles ∧ BitVec.getLsbD (msgNone.rankEntry msgNone.now.epoch (BitVec.toNat (msgNone.val (4 : BitVec 4)) % 2 ^ 32)) 44 = false :=
  ⟨issues rfl, rfl, ⟨rfl, rfl⟩, rfl⟩
theorem witness_messages_4 : msgNone.Issues .task [3, 4] ∧ msgNone.now.mail = [] :=
  ⟨issues rfl, rfl⟩
theorem witness_messages_5 : msgRecv.Issues .task [4, 5] ∧ msgRecv.Sound (4 : BitVec 4) ∧ msgRecv.Handles ∧ BitVec.getLsbD (msgRecv.rankEntry msgRecv.now.epoch (BitVec.toNat (msgRecv.val (4 : BitVec 4)) % 2 ^ 32)) 44 = false :=
  ⟨issues rfl, rfl, ⟨rfl, rfl⟩, rfl⟩
theorem witness_messages_6 : msgRecv.Issues .task [3, 4] ∧ msgRecv.now.mail = [Mail.mk 1 (78187493520 : Word) (119 : BitVec 512), Mail.mk 2 (3 : Word) (4 : BitVec 512)] ∧ msgRecv.OnTile (msgRecv.val (4 : BitVec 4)) 64 [.w] 0 64 64 :=
  ⟨issues rfl, rfl, ⟨rfl, rfl, rfl, rfl, .inl rfl⟩⟩
theorem witness_calls_1 : msgSend.Issues .reply [] ∧ msgSend.now.callee = none ∧ msgSend.Handles :=
  ⟨issues rfl, rfl, ⟨rfl, rfl⟩⟩
theorem witness_calls_2 : msgCall.Issues Family.call ([(4 : BitVec 4), (5 : BitVec 4), (8 : BitVec 4), (9 : BitVec 4), (10 : BitVec 4), (11 : BitVec 4)] ++ List.map (fun (i : Nat) => BitVec.ofNat 4 (8 + i)) (List.range (BitVec.toNat (6 : BitVec 3)))) ∧ BitVec.toNat (6 : BitVec 3) ≤ 6 ∧ (∀ (r : BitVec 4), r ∈ [(4 : BitVec 4), (5 : BitVec 4)] ++ List.map (fun (i : Nat) => BitVec.ofNat 4 (8 + i)) (List.range (BitVec.toNat (6 : BitVec 3))) → msgCall.Sound r) ∧ msgCall.OnPage (msgCall.val (4 : BitVec 4)) 1 [.r] (leafOf 1) (page + 5) ∧ msgCall.callUnit msgCall.now.epoch (leafOf 1) (page + 5) < 2 ^ 16 :=
  ⟨issues rfl, by decide, sounds rfl, ⟨⟨_, 0, _, _, rfl, rfl, rfl, rfl⟩, rfl, rfl⟩, by decide⟩
theorem witness_calls_3 : msgCall.Issues .reply [] ∧ msgCall.now.callee = none ∧ msgCall.Handles :=
  ⟨issues rfl, rfl, ⟨rfl, rfl⟩⟩
theorem witness_calls_4 : msgServe.now.callee = some (Callee.mk 99 (3 : BitVec 16) (5 : BitVec 16) 7 0) ∧ msgServe.now.remote = true ∧ msgServe.endingBusy msgServe.cur = false ∧ (msgServe.server (serverOf msgServe.cur)).cache = [Cached.mk 99 (3 : BitVec 16) (5 : BitVec 16) none none none [] 0] ∧ msgServe.Issues Family.reply (List.map (fun (i : Nat) => BitVec.ofNat 4 (8 + i)) (List.range (BitVec.toNat (3 : BitVec 3)))) ∧ BitVec.toNat (3 : BitVec 3) ≤ 4 ∧ (∀ (r : BitVec 4), r ∈ List.map (fun (i : Nat) => BitVec.ofNat 4 (8 + i)) (List.range (BitVec.toNat (3 : BitVec 3))) → msgServe.Sound r) :=
  ⟨rfl, rfl, rfl, rfl, issues rfl, by decide, sounds rfl⟩
theorem witness_calls_5 : msgServe.Issues Family.reply ([(4 : BitVec 4), (5 : BitVec 4)] ++ List.map (fun (i : Nat) => BitVec.ofNat 4 (8 + i)) (List.range (BitVec.toNat (3 : BitVec 3)))) ∧ BitVec.toNat (3 : BitVec 3) ≤ 6 ∧ (∀ (r : BitVec 4), r ∈ [(4 : BitVec 4), (5 : BitVec 4)] ++ List.map (fun (i : Nat) => BitVec.ofNat 4 (8 + i)) (List.range (BitVec.toNat (3 : BitVec 3))) → msgServe.Sound r) ∧ checkIn msgServe.now.win (msgServe.val (4 : BitVec 4)) 1 [.r] = Except.ok (Space.virt 5) ∧ (∃ (slot : Nat), ∃ (h : Held), ∃ (g : Pager), (msgServe.pager (pagerOf msgServe.cur)).rootFor msgServe.now.epoch = some slot ∧ (msgServe.pager (pagerOf msgServe.cur)).look msgServe.now.epoch 5 = some (h, g) ∧ msgServe.judge msgServe.now.epoch h.leaf 0 5 [.r] h.mixed = Trans.ok (leafOf 1) (page + 5) false) ∧ msgServe.callUnit msgServe.now.epoch (leafOf 1) (page + 5) < 2 ^ 16 :=
  ⟨issues rfl, by decide, sounds rfl, rfl, ⟨0, _, _, rfl, rfl, rfl⟩, by decide⟩

/-! ## Waits, storage, leases and translation -/

def waitBox (f : Thread → Thread) : State := (box [(4, 6)]).setThread 0 (f (thr [(4, 6)]))
def waitCause : State := waitBox ({ · with causes := [⟨.nearmem, 0x77, none, none⟩, ⟨.poison, 0x88, none, none⟩] })
def waitMemory : State := waitBox ({ · with status := .wait .memory })
def waitMonitor : State := waitBox ({ · with status := .wait .monitor })
def waitPair : State := waitBox ({ · with status := .wait .pairBuffer })
def waitSealed : State := waitBox ({ · with status := .wait .sealed })
def waitAccept : State := (waitBox ({ · with status := .wait .vector })).setTile 0 { Tile.initial with queue := [(0, false, 7)], pointer := 3 }
def waitVector : State := (waitBox ({ · with status := .wait .vector, taken := true })).setTile 0 { Tile.initial with pipe := some 0 }
def waitVent : State := { vent [] with
  threads := [(0x400000, { thr [] with status := .wait .vector, taken := true })], cores := [(0x400000, { Core.initial with datapath := some 0x400000 })] }
def waitReissue : State := { State.reset.withFetchWord 32 0x8068A003 with cur := 0 }
def waitOwned : State := ldBox
def waitLine : State := { (waitBox ({ · with status := .wait (.fill (page + 512)) })) with hot := [(0x4000 * 8, 9), (0x4000 * 8 + 1, 0xFFFF), (0x1000000 * 8, 5)] }
/-- The line is there, without the sector. -/
def waitSector : State := { waitLine with lines := [⟨7, 1, 2, page + 512, 0x8000⟩] }
/-- A lease of another package's word, which expires at 1000. -/
def lsBox (time : Nat) : State := { box [] with
  gtime := time, mem := ldMem, host := { (box []).host with held := [⟨2 ^ 42 + page + 16, true, 0, 1000, 5, 9, 16, false⟩] } }
def lsDue : State := lsBox 750
def lsGuard : State := lsBox 1250
def lsRefused : State := { waitBox id with net := { (box []).net with refusals := [⟨page + 16, false, 0, 1000, 5, 9, 0x10, false⟩] } }
def lsFence : State := waitBox ({ · with status := .wait .fence })
/-- Root 0 is a table of five levels on the first five pages, with a leaf for virtual 0x3000, and a walk to it. -/
def wkLeaf : Word := BitVec.ofNat 64 (0x1F3 + 2 ^ 9 + 2 ^ 17 + 0x8000005 * 2 ^ 32)
def wkMem : Memory := Memory.writeN ((List.range 4).foldl (fun m l => m.writeN (page + l * 4096) (leBytes 8 (1 + (0x8000001 + l) * 2 ^ 32))) [])
  (page + 4 * 4096 + 24) (leBytes 8 wkLeaf.toNat)
def wkPager : Pager := { Pager.initial with
  roots := Pager.initial.roots.set 0 (5 <<< 48 ||| 0x8000000 <<< 12 ||| 1), walks := [⟨0x3000, 5, Pager.initial.gen⟩]
  cache := [⟨0, 5, 0, 4096, leafOf 1, false⟩, ⟨1, 6, 8192, 4096, leafOf 1, false⟩] }
def wkBox : State := { (box []).setPager 0 wkPager with mem := wkMem }
def vwBox : State := { box [] with decoded := [(0x10000000000 + 191 * 2 ^ 32, [1]), (0x10000000000, [2])] }

theorem witness_waits_1 : (waitCause.thread 0).status = Status.ready ∧ waitCause.slotRemoved 0 = false ∧ (waitCause.core (coreOf 0)).stopped = false ∧ (waitCause.thread 0).trapm = false ∧ (waitCause.thread 0).causes = [Deferred.mk Cause.nearmem (119 : Word) none none, Deferred.mk Cause.poison (136 : Word) none none] ∧ (waitCause.thread 0).callee = none ∧ Cause.nearmem.ending = false ∧ Cause.nearmem ≠ Cause.residue :=
  ⟨rfl, rfl, rfl, rfl, rfl, rfl, rfl, by decide⟩
theorem witness_waits_2 : (waitReissue.thread 0).status = Status.ready ∧ waitReissue.silent 0 = false ∧ (waitReissue.thread 0).reissue = false ∧ waitReissue.nextInstr 0 = some (Instr.add (3 : BitVec 4) (4 : BitVec 4) (5 : BitVec 4) (3 : BitVec 2)) ∧ (Instr.add (3 : BitVec 4) (4 : BitVec 4) (5 : BitVec 4) (3 : BitVec 2)).size = 4 ∧ encodeWord (Instr.add (3 : BitVec 4) (4 : BitVec 4) (5 : BitVec 4) (3 : BitVec 2)) / 2 ^ 25 % 64 ≤ 7 :=
  ⟨rfl, rfl, rfl, rfl, rfl, by decide⟩
theorem witness_waits_3 : (waitMemory.thread 0).status = Status.wait Wait.memory :=
  rfl
theorem witness_waits_4 : (waitMonitor.thread 0).status = Status.wait Wait.monitor :=
  rfl
theorem witness_waits_5 : (waitPair.thread 0).status = Status.wait Wait.pairBuffer :=
  rfl
theorem witness_waits_6 : (waitSealed.thread 0).status = Status.wait Wait.sealed :=
  rfl
theorem witness_waits_7 : (waitAccept.thread 0).status = Status.wait Wait.vector ∧ (waitAccept.thread 0).taken = false ∧ (waitAccept.tile (tileOf 0)).queue = [(0, false, 7)] ∧ (waitAccept.tile (tileOf 0)).pointer < 4 :=
  ⟨rfl, rfl, rfl, by decide⟩
theorem witness_waits_8 : (waitVector.thread 0).status = Status.wait Wait.vector ∧ (waitVector.thread 0).taken = true ∧ isVent 0 = false ∧ (waitVector.tile (tileOf 0)).pipe = some 0 :=
  ⟨rfl, rfl, rfl, rfl⟩
theorem witness_waits_9 : (waitVent.thread 4194304).status = Status.wait Wait.vector ∧ (waitVent.thread 4194304).taken = true ∧ isVent 4194304 = true ∧ (waitVent.core (coreOf 4194304)).datapath = some 4194304 ∧ (waitVent.core (coreOf 4194304)).pipe ≠ some 4194304 :=
  ⟨rfl, rfl, rfl, rfl, by decide⟩
theorem witness_waits_10 : waitOwned.Canonical ∧ packageOf (keyOf (page + 20)) = waitOwned.package ∧ (waitOwned.core 0).l1.find (keyOf (page + 20) / 4) = some (L1Word.mk (2434937732 : BitVec 32) true (15 : BitVec 4) false 0) :=
  ⟨canonical rfl rfl, rfl, rfl⟩
theorem witness_waits_11 : waitLine.hostBias (waitLine.localKey (page + 700)) = false ∧ waitLine.isArmed (waitLine.localKey (page + 700) / waitLine.grainAt (waitLine.localKey (page + 700)) * waitLine.grainAt (waitLine.localKey (page + 700))) (waitLine.grainAt (waitLine.localKey (page + 700))) = false ∧ waitLine.inTransition (waitLine.localKey (page + 700)) = false ∧ waitLine.resident (waitLine.localKey (page + 700)) = false ∧ (∀ (l : Line), l ∈ waitLine.lines → l.key ≠ waitLine.localKey (page + 700) / 512 * 512) ∧ (∃ (w : Nat), w < sliceWays ∧ ∀ (l : Line), l ∈ waitLine.lines → l.slice = (waitLine.homeSlice (waitLine.localKey (page + 700) / 512 * 512)).fst * 8 + (waitLine.homeSlice (waitLine.localKey (page + 700) / 512 * 512)).snd → l.set = Config.setOf (waitLine.localKey (page + 700) / 512 * 512) % (sliceLines / sliceWays) → l.way ≠ w) :=
  ⟨by decide +kernel, by decide +kernel, by decide +kernel, by decide +kernel, by decide, ⟨0, Nat.two_pow_pos _, nothing rfl⟩⟩
theorem witness_waits_12 : waitSector.hostBias (waitSector.localKey (page + 600)) = false ∧ waitSector.isArmed (waitSector.localKey (page + 600) / waitSector.grainAt (waitSector.localKey (page + 600)) * waitSector.grainAt (waitSector.localKey (page + 600))) (waitSector.grainAt (waitSector.localKey (page + 600))) = false ∧ waitSector.inTransition (waitSector.localKey (page + 600)) = false ∧ waitSector.resident (waitSector.localKey (page + 600)) = false ∧ (∃ (l : Line), l ∈ waitSector.lines ∧ l.key = waitSector.localKey (page + 600) / 512 * 512) :=
  ⟨by decide +kernel, by decide +kernel, by decide +kernel, by decide +kernel, by decide⟩
theorem witness_waits_13 : (waitLine.hotctlOf 0 >>> 16).toNat % 2 ^ 16 ≠ 0 :=
  by decide
theorem witness_leases_1 : lsDue.host.held = [Lease.mk (2 ^ 42 + page + 16) true 0 1000 (5 : Word) (9 : Word) (16 : Word) false] ∧ 1000 ≤ lsDue.gtime + 250 :=
  ⟨rfl, by decide⟩
theorem witness_leases_2 : lsGuard.host.given = [] ∧ lsGuard.host.held = [Lease.mk (2 ^ 42 + page + 16) true 0 1000 (5 : Word) (9 : Word) (16 : Word) false] ∧ 1000 + 250 ≤ lsGuard.gtime :=
  ⟨rfl, rfl, by decide⟩
theorem witness_leases_3 : lsRefused.net.refusals = [Lease.mk (page + 16) false 0 1000 (5 : Word) (9 : Word) (16 : Word) false] ∧ (lsRefused.thread 0).lease = none :=
  ⟨rfl, rfl⟩
theorem witness_leases_4 : (lsFence.thread 0).status = Status.wait Wait.fence :=
  rfl
theorem witness_leases_5 : (wkBox.pager 0).walks = [Walk.mk 12288 (5 : BitVec 16) Pager.initial.gen] ∧ Pager.initial.gen = (wkBox.pager 0).gen ∧ (wkBox.pager 0).rootFor (5 : BitVec 16) = some 0 ∧ wkBox.walk (wkBox.pager 0) 0 12288 = some (wkLeaf, page + 4 * 4096 + 24) ∧ Leaf.present wkLeaf = true :=
  ⟨rfl, rfl, rfl, rfl, rfl⟩
theorem witness_leases_6 : (wkBox.pager 0).busy = false :=
  rfl
theorem witness_leases_7 : (wkBox.pager 0).shots = [] ∧ wkBox.shotPending 0 = false :=
  ⟨rfl, rfl⟩
theorem witness_leases_8 : 191 < 192 :=
  by decide
theorem witness_leases_9 : 191 < 192 ∧ (BitVec.ofNat 64 131071).getLsbD 0 = true ∧ (((BitVec.ofNat 64 131071 &&& (131071 : Word)) >>> 1).toNat % 4 != 3 && ((BitVec.ofNat 64 131071 &&& (131071 : Word)) >>> 8).toNat % 4 != 3 && (((BitVec.ofNat 64 131071 &&& (131071 : Word)) >>> 1).toNat % 4 != 0 || b8dOk (BitVec.extractLsb' 3 5 (BitVec.ofNat 64 131071 &&& (131071 : Word)))) && (!(BitVec.ofNat 64 131071 &&& (131071 : Word)).getLsbD 10 || b8dOk (BitVec.extractLsb' 11 5 (BitVec.ofNat 64 131071 &&& (131071 : Word)))) && decide (BitVec.toNat (vwBox.view 191).len % 2 ^ 32 ≤ if (if (BitVec.ofNat 64 131071 &&& (131071 : Word)).getLsbD 16 = true then 4 else 2) = 4 then 2 ^ 30 else 2 ^ 31) && View.inController (191 / 16 : Nat) (BitVec.toNat (vwBox.view 191).base % 2 ^ 44) (BitVec.toNat (vwBox.view 191).len % 2 ^ 32) && View.inController (191 / 16 : Nat) (BitVec.toNat (vwBox.view 191).scale % 2 ^ 44) ((BitVec.toNat (vwBox.view 191).len % 2 ^ 32 + 16 * 2 ^ (((BitVec.ofNat 64 131071 &&& (131071 : Word)) >>> 8).toNat % 4) - 1) / (16 * 2 ^ (((BitVec.ofNat 64 131071 &&& (131071 : Word)) >>> 8).toNat % 4)))) = false :=
  ⟨by decide, rfl, rfl⟩
theorem witness_leases_10 : 1 < 2 ∧ 1 ≤ 16 ∧ 16 ≤ 16 :=
  ⟨by decide, by decide, by decide⟩

/-! ## Queues, dispensers and launches -/

/-- The launch of epoch 5 on cluster 0, and on cluster 3 as its second. -/
def quLaunch : Launch := { nearLaunch with clusters := [(0, 0), (0, 3)], compAt := 0x123456, vector := 9, windows := Vector.replicate 8 (wide true), frames := [7], dequeDom := 1 }
def quBox (ph : Phase) : State :=
  { box [] with fw := { (box []).fw with launches := [{ quLaunch with phase := ph }] } }
def quPark : State :=
  let n := cmdOf (.cpy 0 1 0 0 0 0 0 0 0) (rowOf (2 ^ 61 + 16) 256) 33 none
  { (quBox .out).setCore 0 { engHeld with copy := ⟨some n, [{ n with id := 9 }], [], 0⟩ } with mem := ldMem }
def quNreds : State := { nearSum 10 4 with cur := 0 }
def quTask (q : Nat) (run free : Bool) (key : Nat) : Task :=
  ⟨BitVec.ofNat 64 (key % 4096), 16, key, 0x10, 0x20, ⟨#[1, 2, 3, 4], rfl⟩, false, free, BitVec.ofNat 32 q, 5, 3, run, if run then some 0x400000 else none⟩
def quHome (t : Nat) : Home := { Home.initial with cfg := 0x10000, teff := BitVec.ofNat 8 t, mean := 5, seq := 11, queue := [quTask 8 true false page, quTask 9 false false page, quTask 10 false false (page + 64), quTask 11 false true page] }
def quRecord : State :=
  let s := quBox .running
  { (s.setThread 0 { s.now with status := .wait .accept }).setHome 0 (quHome 2) with net := { s.net with tasks := [(0, 0, quTask 0 false false page)] } }
def quHead : State :=
  let s := (quBox .running).setHome 0 (quHome 2)
  s.setThread 0x400001 { Thread.initial with status := .wfw }
def quSteal (t : Nat) : State :=
  let s := ((quBox .running).setHome 0 (quHome t)).setServer 0 ⟨[0x80, 0x200, 0x280], [], []⟩
  (s.setThread 0x80 { thr [] with status := .wfw, epoch := 6 }).setThread 0x200 { thr [(3, 3)] with status := .wfw }
def quChild : State :=
  let s := quSteal 255
  s.setCore 0x200 { Core.initial with deque := [⟨1, Vector.replicate 4 0, 2, 3, 5⟩, ⟨0x44, ⟨#[1, 2, 3, 4], rfl⟩, 0x2000000000000010, 3, 5⟩] }
def quChildOnly : State := { quChild with servers := [(0, ⟨[0x200, 0x280], [], []⟩)] }
def quAdapt (mean : Nat) : State := (quBox .running).setHome 7 { quHome 3 with cfg := 0x400000001100F02 + 2 ^ 50, mean := mean }
def quCounts : Counts := ⟨3, 7, 1, some (0x1D, 500), [statusWord 0 2 9], false⟩
def quNotice (code : Nat) (create : Bool) : State :=
  let s := quBox .running
  let m : Notice := ⟨0, 3, 5, code, 400, 0⟩
  (if create then { s with net := { s.net with creates := [m] } } else { s with net := { s.net with retires := [m] } }).setCounts 3 5 quCounts
def quQuiet : State :=
  let s := State.setThread (quBox .running) 0 { thr [] with status := .wfw }
  (s.setCounts 0 5 { quCounts with unretired := 0 }).setCounts 3 5 { quCounts with unretired := 0, heard := [] }
def quWord (dest : Nat) : State :=
  let s := quBox .running
  { s.setCounts 3 5 quCounts with net := { s.net with words := [(3, dest, 5, statusWord 0 2 9)] }, cells := [⟨page + 16, 8, 0x1234, 0, 5, true, 7, 16, false⟩, ⟨page + 32, 8, 0x1234, 0, 6, true, 8, 32, false⟩], mem := ldMem }

theorem witness_queues_1 : ((quPark.core 0).engine EngineSel.copy).running = some (cmdOf (Instr.cpy (0 : BitVec 2) (1 : BitVec 2) (0 : BitVec 4) (0 : BitVec 2) (0 : BitVec 1) (0 : BitVec 1) (0 : BitVec 1) (0 : BitVec 1) (0 : BitVec 2)) (rowOf (2 ^ 61 + 16) 256) 33 none) ∧ (cmdOf (Instr.cpy (0 : BitVec 2) (1 : BitVec 2) (0 : BitVec 4) (0 : BitVec 2) (0 : BitVec 1) (0 : BitVec 1) (0 : BitVec 1) (0 : BitVec 1) (0 : BitVec 2)) (rowOf (2 ^ 61 + 16) 256) 33 none).recordSrc = some true ∧ quPark.offline (cmdOf (Instr.cpy (0 : BitVec 2) (1 : BitVec 2) (0 : BitVec 4) (0 : BitVec 2) (0 : BitVec 1) (0 : BitVec 1) (0 : BitVec 1) (0 : BitVec 1) (0 : BitVec 2)) (rowOf (2 ^ 61 + 16) 256) 33 none).epoch = true ∧ BitVec.getLsbD ((quPark.thread (cmdOf (Instr.cpy (0 : BitVec 2) (1 : BitVec 2) (0 : BitVec 4) (0 : BitVec 2) (0 : BitVec 1) (0 : BitVec 1) (0 : BitVec 1) (0 : BitVec 1) (0 : BitVec 2)) (rowOf (2 ^ 61 + 16) 256) 33 none).thread).extReg (6 : BitVec 3)).val 63 = false :=
  ⟨rfl, rfl, rfl, rfl⟩
theorem witness_queues_2 : ((quNreds.home (keyChannel page)).nreds.any fun (r : Nred) => quNreds.nredReady r) = true :=
  rfl
theorem witness_queues_3 : quRecord.net.tasks = [(0, 0, quTask 0 false false page)] ∧ foreignHome 0 = false ∧ (512 ≤ 0 ∨ (quRecord.core (coreOf (homeUnit 0))).killed = false) ∧ (quRecord.home 0).queue.length < queueSize 0 ∧ (quRecord.thread 0).status = Status.wait Wait.accept :=
  ⟨rfl, rfl, by decide, by decide, rfl⟩
theorem witness_queues_4 : 0 < 512 ∧ (quHead.core (coreOf (homeUnit 0))).killed = false ∧ (quHead.server (4096 + 0)).calls = [] ∧ serverOf 4194304 = 4096 + 0 ∧ List.filter (fun (t : Nat) => decide (slotOf t < 6)) (quHead.server (4096 + 0)).order = [4194304, 4194305, 4194306, 4194307, 4194308, 4194309] ∧ List.find? (fun (r : Machine.Task) => !quHead.offline r.epoch) (quHead.home 0).eligible = some (quTask 10 false false (page + 64)) :=
  ⟨by decide, rfl, rfl, rfl, rfl, rfl⟩
theorem witness_queues_5 : (quSteal 2).offline (BitVec.ofNat 16 5) = false ∧ (512 ≤ 0 ∨ ((quSteal 2).core (coreOf (homeUnit 0))).killed = false) ∧ ((quSteal 2).home 0).stealable = true ∧ (List.filter (fun (r : Machine.Task) => r.epoch == BitVec.ofNat 16 5) ((quSteal 2).home 0).eligible).getLast? = some (quTask 11 false true page) ∧ List.find? (fun (t : Nat) => ((quSteal 2).thread t).epoch == BitVec.ofNat 16 5) ((quSteal 2).waiters 0) = some 512 :=
  ⟨rfl, by decide, rfl, rfl, rfl⟩
theorem witness_queues_6 : ((quSteal 4).home 0).stealable = false :=
  rfl
theorem witness_queues_7 : (quChildOnly.server 0).calls = [] ∧ quChildOnly.waiters 0 = [512, 640] ∧ isVent 512 = false ∧ quChildOnly.launch (quChildOnly.thread 512).epoch = some (let __src := quLaunch; Launch.mk __src.master __src.epoch __src.slot __src.clusters __src.windows __src.dequeDom __src.anchorDom __src.dbg __src.supervisor __src.image __src.ranges __src.frames __src.packages __src.roots __src.joins __src.area Phase.running __src.tau __src.compAt __src.vector __src.word __src.records __src.dumpFull __src.chain __src.saved) ∧ (let __src := quLaunch; Launch.mk __src.master __src.epoch __src.slot __src.clusters __src.windows __src.dequeDom __src.anchorDom __src.dbg __src.supervisor __src.image __src.ranges __src.frames __src.packages __src.roots __src.joins __src.area Phase.running __src.tau __src.compAt __src.vector __src.word __src.records __src.dumpFull __src.chain __src.saved).phase = Phase.running ∧ (quChildOnly.core (coreOf 512)).deque = [Child.mk (1 : Word) (Vector.replicate 4 (0 : Word)) (2 : Word) 3 (5 : BitVec 16)] ++ [Child.mk (68 : Word) #v[(1 : Word), (2 : Word), (3 : Word), (4 : Word)] (2305843009213693968 : Word) 3 (5 : BitVec 16)] ∧ (5 : BitVec 16) = (let __src := quLaunch; Launch.mk __src.master __src.epoch __src.slot __src.clusters __src.windows __src.dequeDom __src.anchorDom __src.dbg __src.supervisor __src.image __src.ranges __src.frames __src.packages __src.roots __src.joins __src.area Phase.running __src.tau __src.compAt __src.vector __src.word __src.records __src.dumpFull __src.chain __src.saved).epoch ∧ (quChildOnly.core (coreOf 512)).killed = false :=
  ⟨rfl, rfl, rfl, rfl, rfl, rfl, rfl, rfl⟩
theorem witness_queues_8 : ((quAdapt 3).home 7).adapt = true :=
  rfl
theorem witness_queues_9 : (quNotice 0 true).net.creates = [Notice.mk 0 3 (5 : BitVec 16) 0 400 0] ∧ (∀ (x : Notice), x ∈ (quNotice 0 true).net.retires → (x.sender == 0 && x.cluster == 3) = true → 0 ≤ x.tick) :=
  ⟨rfl, by decide⟩
theorem witness_queues_10 : (quNotice 0 false).net.retires = [Notice.mk 0 3 (5 : BitVec 16) 0 400 0] ∧ (quNotice 0 false).net.creates = [] :=
  ⟨rfl, rfl⟩
theorem witness_queues_11 : (quNotice 29 false).net.retires = [Notice.mk 0 3 (5 : BitVec 16) 29 400 0] ∧ (quNotice 29 false).net.creates = [] :=
  ⟨rfl, rfl⟩
theorem witness_queues_12 : quQuiet.launch (BitVec.ofNat 16 5) = some (let __src := quLaunch; Launch.mk __src.master __src.epoch __src.slot __src.clusters __src.windows __src.dequeDom __src.anchorDom __src.dbg __src.supervisor __src.image __src.ranges __src.frames __src.packages __src.roots __src.joins __src.area Phase.running __src.tau __src.compAt __src.vector __src.word __src.records __src.dumpFull __src.chain __src.saved) ∧ (let __src := quLaunch; Launch.mk __src.master __src.epoch __src.slot __src.clusters __src.windows __src.dequeDom __src.anchorDom __src.dbg __src.supervisor __src.image __src.ranges __src.frames __src.packages __src.roots __src.joins __src.area Phase.running __src.tau __src.compAt __src.vector __src.word __src.records __src.dumpFull __src.chain __src.saved).geyser quQuiet.package 0 = some 0 ∧ (let __src := quLaunch; Launch.mk __src.master __src.epoch __src.slot __src.clusters __src.windows __src.dequeDom __src.anchorDom __src.dbg __src.supervisor __src.image __src.ranges __src.frames __src.packages __src.roots __src.joins __src.area Phase.running __src.tau __src.compAt __src.vector __src.word __src.records __src.dumpFull __src.chain __src.saved).phase = Phase.running ∧ (let __src := quLaunch; Launch.mk __src.master __src.epoch __src.slot __src.clusters __src.windows __src.dequeDom __src.anchorDom __src.dbg __src.supervisor __src.image __src.ranges __src.frames __src.packages __src.roots __src.joins __src.area Phase.running __src.tau __src.compAt __src.vector __src.word __src.records __src.dumpFull __src.chain __src.saved).epoch = BitVec.ofNat 16 5 ∧ (quQuiet.countsOf 0 (let __src := quLaunch; Launch.mk __src.master __src.epoch __src.slot __src.clusters __src.windows __src.dequeDom __src.anchorDom __src.dbg __src.supervisor __src.image __src.ranges __src.frames __src.packages __src.roots __src.joins __src.area Phase.running __src.tau __src.compAt __src.vector __src.word __src.records __src.dumpFull __src.chain __src.saved).epoch).reported = false ∧ quQuiet.quiescent (let __src := quLaunch; Launch.mk __src.master __src.epoch __src.slot __src.clusters __src.windows __src.dequeDom __src.anchorDom __src.dbg __src.supervisor __src.image __src.ranges __src.frames __src.packages __src.roots __src.joins __src.area Phase.running __src.tau __src.compAt __src.vector __src.word __src.records __src.dumpFull __src.chain __src.saved) 0 0 = true :=
  ⟨rfl, rfl, rfl, rfl, rfl, rfl⟩
theorem witness_queues_13 : quQuiet.launch (BitVec.ofNat 16 5) = some (let __src := quLaunch; Launch.mk __src.master __src.epoch __src.slot __src.clusters __src.windows __src.dequeDom __src.anchorDom __src.dbg __src.supervisor __src.image __src.ranges __src.frames __src.packages __src.roots __src.joins __src.area Phase.running __src.tau __src.compAt __src.vector __src.word __src.records __src.dumpFull __src.chain __src.saved) ∧ (let __src := quLaunch; Launch.mk __src.master __src.epoch __src.slot __src.clusters __src.windows __src.dequeDom __src.anchorDom __src.dbg __src.supervisor __src.image __src.ranges __src.frames __src.packages __src.roots __src.joins __src.area Phase.running __src.tau __src.compAt __src.vector __src.word __src.records __src.dumpFull __src.chain __src.saved).geyser quQuiet.package 3 = some 1 ∧ (let __src := quLaunch; Launch.mk __src.master __src.epoch __src.slot __src.clusters __src.windows __src.dequeDom __src.anchorDom __src.dbg __src.supervisor __src.image __src.ranges __src.frames __src.packages __src.roots __src.joins __src.area Phase.running __src.tau __src.compAt __src.vector __src.word __src.records __src.dumpFull __src.chain __src.saved).phase = Phase.running ∧ (let __src := quLaunch; Launch.mk __src.master __src.epoch __src.slot __src.clusters __src.windows __src.dequeDom __src.anchorDom __src.dbg __src.supervisor __src.image __src.ranges __src.frames __src.packages __src.roots __src.joins __src.area Phase.running __src.tau __src.compAt __src.vector __src.word __src.records __src.dumpFull __src.chain __src.saved).epoch = BitVec.ofNat 16 5 ∧ (quQuiet.countsOf 3 (let __src := quLaunch; Launch.mk __src.master __src.epoch __src.slot __src.clusters __src.windows __src.dequeDom __src.anchorDom __src.dbg __src.supervisor __src.image __src.ranges __src.frames __src.packages __src.roots __src.joins __src.area Phase.running __src.tau __src.compAt __src.vector __src.word __src.records __src.dumpFull __src.chain __src.saved).epoch).reported = false ∧ quQuiet.quiescent (let __src := quLaunch; Launch.mk __src.master __src.epoch __src.slot __src.clusters __src.windows __src.dequeDom __src.anchorDom __src.dbg __src.supervisor __src.image __src.ranges __src.frames __src.packages __src.roots __src.joins __src.area Phase.running __src.tau __src.compAt __src.vector __src.word __src.records __src.dumpFull __src.chain __src.saved) 1 3 = true ∧ 1 ≠ 0 ∧ (let __src := quLaunch; Launch.mk __src.master __src.epoch __src.slot __src.clusters __src.windows __src.dequeDom __src.anchorDom __src.dbg __src.supervisor __src.image __src.ranges __src.frames __src.packages __src.roots __src.joins __src.area Phase.running __src.tau __src.compAt __src.vector __src.word __src.records __src.dumpFull __src.chain __src.saved).clusters[(1 - 1) / 4]? = some (quQuiet.package, 0) :=
  ⟨rfl, rfl, rfl, rfl, rfl, rfl, by decide, rfl⟩
theorem witness_queues_14 : (quWord 0).net.words = [(3, 0, (5 : BitVec 16), statusWord 0 2 9)] ∧ 0 ≠ firmware :=
  ⟨rfl, by decide⟩
theorem witness_queues_15 : (quWord 256).net.words = [(3, firmware, BitVec.ofNat 16 5, statusWord 0 2 9)] ∧ (quWord 256).launch (BitVec.ofNat 16 5) = some (let __src := quLaunch; Launch.mk __src.master __src.epoch __src.slot __src.clusters __src.windows __src.dequeDom __src.anchorDom __src.dbg __src.supervisor __src.image __src.ranges __src.frames __src.packages __src.roots __src.joins __src.area Phase.running __src.tau __src.compAt __src.vector __src.word __src.records __src.dumpFull __src.chain __src.saved) ∧ (quWord 256).Canonical ∧ (∀ (f : Nat), f ∈ (let __src := quLaunch; Launch.mk __src.master __src.epoch __src.slot __src.clusters __src.windows __src.dequeDom __src.anchorDom __src.dbg __src.supervisor __src.image __src.ranges __src.frames __src.packages __src.roots __src.joins __src.area Phase.running __src.tau __src.compAt __src.vector __src.word __src.records __src.dumpFull __src.chain __src.saved).frames → ∀ (x : HostLine), x ∈ (quWord 256).host.lines → x.covers ((quWord 256).pageKey f) 4096 = false) :=
  ⟨rfl, rfl, canonical rfl rfl, by decide⟩

/-! ## Calls, migration and messages on their way -/

def arrCall : Call := ⟨99, 3, 5, 7, 0, 0x55, 0x4440, [11, 22, 33], []⟩
def arrEntry : Cached := ⟨99, 3, 5, none, none, none, [], 0⟩
def arrNet (f : Net → Net) (sv : Server) : State :=
  let s := quBox .running
  { s with net := f s.net, servers := [(0, sv)], mem := ldMem, gtime := 500000 }
def arrUnit : State :=
  let s := (arrNet ({ · with calls := [arrCall] }) ⟨[0x80, 0], [], []⟩)
  s.setThread 0x80 { Thread.initial with status := .wfw, epoch := 5 }
def arrVent : State :=
  let c := { arrCall with unit := 4096 }
  { quBox .running with net := { (quBox .running).net with calls := [c] }, servers := [(4096, ⟨[0x400006, 0x400007], [], []⟩)] }
/-- Thread 0 waits for its call 3. -/
def arrOut : OutCall := ⟨3, 0x66, 7, 0x4440, [11, 22], 0, true, 0x1230, 1, 400000, 5000, 2⟩
def arrWait (f : Net → Net) : State :=
  let s := arrNet f ⟨[], [], [arrEntry]⟩
  s.setThread 0 { thr [(11, 9)] with status := .wait .call, call := some arrOut, pend := 0x0F00, pc := 0x1230, acks := [(7, 1), (9, 2)] }
def arrReply : State := arrWait ({ · with replies := [⟨7, 0, 3, some (.reply [1, 2])⟩] })
def arrStatus (c : Cause) : State := arrWait ({ · with replies := [⟨7, 0, 3, some (.status c 0x99)⟩] })
def arrTimer : State := arrWait id
def arrLast : State := let s := arrWait id; s.setThread 0 { s.now with call := some { arrOut with retries := 1 } }
def arrAck : State := arrWait ({ · with acks := [⟨0, 99, 3, none⟩] })
def arrRetract : State := arrWait ({ · with retracts := [⟨0, 99, 3, none⟩] })
def arrOwes : State := let s := arrWait id; s.setThread 0 { s.now with acks := [(9, 3), (9, 4)], status := .ready }
def arrAnswered : State := arrNet id ⟨[], [], [{ arrEntry with answer := some (.reply [4]), due := 3 }]⟩
def arrMigrant : Migrant := ⟨{ thr [(5, 77)] with mail := [⟨1, 2, 3⟩], status := .idle }, 0x2000, 0⟩
def arrMove : State :=
  let s := arrNet ({ · with migrants := [arrMigrant] }) ⟨[], [], []⟩
  s.setThread 1 { thr [(3, 3)] with status := .idle }
def arrMsg : Msg := ⟨1, 3, 0x10, 0xABCDEF, false⟩
def arrMail (mail : List Mail) : State :=
  let s := arrNet ({ · with msgs := [arrMsg] }) ⟨[], [], []⟩
  let s := { s with ranks := [(5 * 2 ^ 32 + 3, BitVec.ofNat 64 (2 ^ 44 + 2)), (5 * 2 ^ 32 + 4, BitVec.ofNat 64 (2 ^ 44 + 1))] }
  (s.setThread 1 { thr [] with status := .wait .send, pc := 0x40 }).setThread 2 { thr [] with mail := mail }
def arrNak : State := arrNet ({ · with naks := [arrMsg] }) ⟨[], [], []⟩

theorem witness_arrivals_1 : arrUnit.net.calls = [arrCall] ∧ arrCall.acks = [] ∧ arrUnit.unitDead arrCall.unit = false ∧ arrUnit.server arrCall.unit = Server.mk (arrUnit.server arrCall.unit).order [] [] ∧ arrUnit.offline arrCall.epoch = false ∧ arrUnit.callThread arrCall.unit = some 128 :=
  ⟨rfl, rfl, rfl, rfl, rfl, rfl⟩
theorem witness_arrivals_2 : arrVent.net.calls = [let __src := arrCall; Call.mk __src.caller __src.callId __src.epoch __src.origin 4096 __src.target __src.entry __src.payload __src.acks] ∧ (let __src := arrCall; Call.mk __src.caller __src.callId __src.epoch __src.origin 4096 __src.target __src.entry __src.payload __src.acks).acks = [] ∧ arrVent.unitDead (let __src := arrCall; Call.mk __src.caller __src.callId __src.epoch __src.origin 4096 __src.target __src.entry __src.payload __src.acks).unit = false ∧ arrVent.server (let __src := arrCall; Call.mk __src.caller __src.callId __src.epoch __src.origin 4096 __src.target __src.entry __src.payload __src.acks).unit = Server.mk (arrVent.server (let __src := arrCall; Call.mk __src.caller __src.callId __src.epoch __src.origin 4096 __src.target __src.entry __src.payload __src.acks).unit).order [] [] ∧ arrVent.offline (let __src := arrCall; Call.mk __src.caller __src.callId __src.epoch __src.origin 4096 __src.target __src.entry __src.payload __src.acks).epoch = false ∧ arrVent.callThread (let __src := arrCall; Call.mk __src.caller __src.callId __src.epoch __src.origin 4096 __src.target __src.entry __src.payload __src.acks).unit = some 4194310 :=
  ⟨rfl, rfl, rfl, rfl, rfl, rfl⟩
theorem witness_arrivals_3 : arrReply.net.replies = [CallMsg.mk 7 0 (3 : BitVec 16) (some (Answer.reply [(1 : Word), (2 : Word)]))] ∧ arrReply.awayOf (CallMsg.mk 7 0 (3 : BitVec 16) (some (Answer.reply [(1 : Word), (2 : Word)]))) = none ∧ (arrReply.thread 0).dbgdrop.toNat % 256 = 0 ∧ (arrReply.thread 0).call = some arrOut ∧ arrOut.callId = (3 : BitVec 16) ∧ arrOut.sync = true ∧ (arrReply.thread 0).status = Status.wait Wait.call :=
  ⟨rfl, rfl, rfl, rfl, rfl, rfl, rfl⟩
theorem witness_arrivals_4 : (arrStatus Cause.remoteSubset).net.replies = [CallMsg.mk 7 0 (3 : BitVec 16) (some (Answer.status Cause.remoteSubset (153 : Word)))] ∧ (arrStatus Cause.remoteSubset).awayOf (CallMsg.mk 7 0 (3 : BitVec 16) (some (Answer.status Cause.remoteSubset (153 : Word)))) = none ∧ ((arrStatus Cause.remoteSubset).thread 0).dbgdrop.toNat % 256 = 0 ∧ ((arrStatus Cause.remoteSubset).thread 0).call = some arrOut ∧ arrOut.callId = (3 : BitVec 16) ∧ arrOut.sync = true ∧ Cause.remoteSubset ∈ [Cause.remoteSubset, Cause.remoteFault, Cause.remoteTrap] ∧ ((arrStatus Cause.remoteSubset).thread 0).callee = none ∧ ((arrStatus Cause.remoteSubset).thread 0).trapm = false ∧ (arrStatus Cause.remoteSubset).slotRemoved 0 = false :=
  ⟨rfl, rfl, rfl, rfl, rfl, rfl, by decide, rfl, rfl, rfl⟩
theorem witness_arrivals_5 : (arrStatus Cause.remoteTrap).net.replies = [CallMsg.mk 7 0 (3 : BitVec 16) (some (Answer.status Cause.remoteTrap (153 : Word)))] ∧ (arrStatus Cause.remoteTrap).awayOf (CallMsg.mk 7 0 (3 : BitVec 16) (some (Answer.status Cause.remoteTrap (153 : Word)))) = none ∧ ((arrStatus Cause.remoteTrap).thread 0).dbgdrop.toNat % 256 = 0 ∧ ((arrStatus Cause.remoteTrap).thread 0).call = some arrOut ∧ arrOut.callId = (3 : BitVec 16) ∧ arrOut.sync = true ∧ Cause.remoteTrap ∈ [Cause.remoteSubset, Cause.remoteFault, Cause.remoteTrap] ∧ ((arrStatus Cause.remoteTrap).thread 0).callee = none ∧ ((arrStatus Cause.remoteTrap).thread 0).trapm = false ∧ (arrStatus Cause.remoteTrap).slotRemoved 0 = false :=
  ⟨rfl, rfl, rfl, rfl, rfl, rfl, by decide, rfl, rfl, rfl⟩
theorem witness_arrivals_6 : arrAck.net.acks = [CallMsg.mk 0 99 (3 : BitVec 16) none] ∧ (arrAck.server 0).cache = [arrEntry] ∧ arrEntry.caller = 99 ∧ arrEntry.callId = (3 : BitVec 16) ∧ arrAck.callCells arrEntry = [] ∧ arrAck.forwarder 0 99 (3 : BitVec 16) = none ∧ (arrAck.server 0).calls = [] :=
  ⟨rfl, rfl, rfl, rfl, rfl, rfl, rfl⟩
theorem witness_arrivals_7 : (arrOwes.thread 0).acks = [(9, (3 : BitVec 16)), (9, (4 : BitVec 16))] ∧ arrOwes.offline (arrOwes.thread 0).epoch = false ∧ arrOwes.settling 0 = false ∧ (arrOwes.thread 0).dbgdrop.toNat / 256 = 0 :=
  ⟨rfl, rfl, rfl, rfl⟩
theorem witness_arrivals_8 : (arrTimer.thread 0).call = some arrOut ∧ arrTimer.offline (arrTimer.thread 0).epoch = false ∧ arrOut.due ≤ arrTimer.gtime ∧ arrOut.resends < arrOut.retries ∧ arrOut.unit < 2 ^ 16 :=
  ⟨rfl, rfl, by decide, by decide, by decide⟩
theorem witness_arrivals_9 : (arrLast.thread 0).call = some (let __src := arrOut; OutCall.mk __src.callId __src.target __src.unit __src.entry __src.payload __src.origin __src.sync __src.pc __src.resends __src.due __src.limit 1) ∧ arrLast.offline (arrLast.thread 0).epoch = false ∧ (let __src := arrOut; OutCall.mk __src.callId __src.target __src.unit __src.entry __src.payload __src.origin __src.sync __src.pc __src.resends __src.due __src.limit 1).due ≤ arrLast.gtime ∧ (let __src := arrOut; OutCall.mk __src.callId __src.target __src.unit __src.entry __src.payload __src.origin __src.sync __src.pc __src.resends __src.due __src.limit 1).retries ≤ (let __src := arrOut; OutCall.mk __src.callId __src.target __src.unit __src.entry __src.payload __src.origin __src.sync __src.pc __src.resends __src.due __src.limit 1).resends ∧ (let __src := arrOut; OutCall.mk __src.callId __src.target __src.unit __src.entry __src.payload __src.origin __src.sync __src.pc __src.resends __src.due __src.limit 1).sync = true ∧ (arrLast.thread 0).callee = none ∧ (arrLast.thread 0).trapm = false ∧ arrLast.slotRemoved 0 = false :=
  ⟨rfl, rfl, by decide, by decide, rfl, rfl, rfl, rfl⟩
theorem witness_arrivals_10 : (arrAnswered.server 0).cache = [let __src := arrEntry; Cached.mk __src.caller __src.callId __src.epoch (some (Answer.reply [(4 : Word)])) __src.forward __src.back __src.cells 3] ∧ (let __src := arrEntry; Cached.mk __src.caller __src.callId __src.epoch (some (Answer.reply [(4 : Word)])) __src.forward __src.back __src.cells 3).caller < 2 ^ 24 ∧ (let __src := arrEntry; Cached.mk __src.caller __src.callId __src.epoch (some (Answer.reply [(4 : Word)])) __src.forward __src.back __src.cells 3).answer.isSome = true ∧ arrAnswered.offline (let __src := arrEntry; Cached.mk __src.caller __src.callId __src.epoch (some (Answer.reply [(4 : Word)])) __src.forward __src.back __src.cells 3).epoch = false ∧ (let __src := arrEntry; Cached.mk __src.caller __src.callId __src.epoch (some (Answer.reply [(4 : Word)])) __src.forward __src.back __src.cells 3).due ≤ arrAnswered.gtime ∧ arrAnswered.callCells (let __src := arrEntry; Cached.mk __src.caller __src.callId __src.epoch (some (Answer.reply [(4 : Word)])) __src.forward __src.back __src.cells 3) = [] ∧ arrAnswered.forwarder 0 (let __src := arrEntry; Cached.mk __src.caller __src.callId __src.epoch (some (Answer.reply [(4 : Word)])) __src.forward __src.back __src.cells 3).caller (let __src := arrEntry; Cached.mk __src.caller __src.callId __src.epoch (some (Answer.reply [(4 : Word)])) __src.forward __src.back __src.cells 3).callId = none ∧ (arrAnswered.server 0).calls = [] :=
  ⟨rfl, by decide, rfl, rfl, by decide, rfl, rfl, rfl⟩
theorem witness_arrivals_11 : arrRetract.net.retracts = [CallMsg.mk 0 99 (3 : BitVec 16) none] ∧ (arrRetract.server 0).cache = [arrEntry] ∧ arrEntry.caller = 99 ∧ arrEntry.callId = (3 : BitVec 16) ∧ arrRetract.callCells arrEntry = [] ∧ arrRetract.forwarder 0 99 (3 : BitVec 16) = none ∧ (arrRetract.server 0).calls = [] :=
  ⟨rfl, rfl, rfl, rfl, rfl, rfl, rfl⟩
theorem witness_arrivals_12 : arrMove.net.migrants = [arrMigrant] ∧ arrMove.idleThread arrMigrant.cluster = some 1 :=
  ⟨rfl, rfl⟩
theorem witness_arrivals_13 : (arrMail [Mail.mk 9 (9 : Word) (9 : BitVec 512)]).net.msgs = [arrMsg] ∧ (arrMsg.saved = true ∨ ∀ (x : Msg), x ∈ (arrMail [Mail.mk 9 (9 : Word) (9 : BitVec 512)]).net.naks → x.saved = false) ∧ rankValid ((arrMail [Mail.mk 9 (9 : Word) (9 : BitVec 512)]).rankEntry ((arrMail [Mail.mk 9 (9 : Word) (9 : BitVec 512)]).thread arrMsg.sender).epoch (BitVec.toNat arrMsg.rank % 2 ^ 32)) = true ∧ rankDead ((arrMail [Mail.mk 9 (9 : Word) (9 : BitVec 512)]).rankEntry ((arrMail [Mail.mk 9 (9 : Word) (9 : BitVec 512)]).thread arrMsg.sender).epoch (BitVec.toNat arrMsg.rank % 2 ^ 32)) = false ∧ rankTransit ((arrMail [Mail.mk 9 (9 : Word) (9 : BitVec 512)]).rankEntry ((arrMail [Mail.mk 9 (9 : Word) (9 : BitVec 512)]).thread arrMsg.sender).epoch (BitVec.toNat arrMsg.rank % 2 ^ 32)) = false ∧ rankThread ((arrMail [Mail.mk 9 (9 : Word) (9 : BitVec 512)]).rankEntry ((arrMail [Mail.mk 9 (9 : Word) (9 : BitVec 512)]).thread arrMsg.sender).epoch (BitVec.toNat arrMsg.rank % 2 ^ 32)) / 2 ^ 24 = (arrMail [Mail.mk 9 (9 : Word) (9 : BitVec 512)]).package ∧ ((arrMail [Mail.mk 9 (9 : Word) (9 : BitVec 512)]).thread (rankThread ((arrMail [Mail.mk 9 (9 : Word) (9 : BitVec 512)]).rankEntry ((arrMail [Mail.mk 9 (9 : Word) (9 : BitVec 512)]).thread arrMsg.sender).epoch (BitVec.toNat arrMsg.rank % 2 ^ 32)) % 2 ^ 24)).isSealed = false ∧ (arrMail [Mail.mk 9 (9 : Word) (9 : BitVec 512)]).offline ((arrMail [Mail.mk 9 (9 : Word) (9 : BitVec 512)]).thread (rankThread ((arrMail [Mail.mk 9 (9 : Word) (9 : BitVec 512)]).rankEntry ((arrMail [Mail.mk 9 (9 : Word) (9 : BitVec 512)]).thread arrMsg.sender).epoch (BitVec.toNat arrMsg.rank % 2 ^ 32)) % 2 ^ 24)).epoch = false ∧ ((arrMail [Mail.mk 9 (9 : Word) (9 : BitVec 512)]).thread (rankThread ((arrMail [Mail.mk 9 (9 : Word) (9 : BitVec 512)]).rankEntry ((arrMail [Mail.mk 9 (9 : Word) (9 : BitVec 512)]).thread arrMsg.sender).epoch (BitVec.toNat arrMsg.rank % 2 ^ 32)) % 2 ^ 24)).mail.length < 4 ∧ ((arrMail [Mail.mk 9 (9 : Word) (9 : BitVec 512)]).thread (rankThread ((arrMail [Mail.mk 9 (9 : Word) (9 : BitVec 512)]).rankEntry ((arrMail [Mail.mk 9 (9 : Word) (9 : BitVec 512)]).thread arrMsg.sender).epoch (BitVec.toNat arrMsg.rank % 2 ^ 32)) % 2 ^ 24)).late = [] ∧ ((arrMail [Mail.mk 9 (9 : Word) (9 : BitVec 512)]).thread arrMsg.sender).status = Status.wait Wait.send ∧ arrMsg.sender ≠ rankThread ((arrMail [Mail.mk 9 (9 : Word) (9 : BitVec 512)]).rankEntry ((arrMail [Mail.mk 9 (9 : Word) (9 : BitVec 512)]).thread arrMsg.sender).epoch (BitVec.toNat arrMsg.rank % 2 ^ 32)) % 2 ^ 24 :=
  ⟨rfl, by decide, rfl, rfl, rfl, rfl, rfl, rfl, by decide, rfl, rfl, by decide⟩
theorem witness_arrivals_14 : (arrMail [Mail.mk 9 (9 : Word) (9 : BitVec 512), Mail.mk 8 (8 : Word) (8 : BitVec 512), Mail.mk 7 (7 : Word) (7 : BitVec 512), Mail.mk 6 (6 : Word) (6 : BitVec 512)]).net.msgs = [arrMsg] ∧ (arrMsg.saved = true ∨ ∀ (x : Msg), x ∈ (arrMail [Mail.mk 9 (9 : Word) (9 : BitVec 512), Mail.mk 8 (8 : Word) (8 : BitVec 512), Mail.mk 7 (7 : Word) (7 : BitVec 512), Mail.mk 6 (6 : Word) (6 : BitVec 512)]).net.naks → x.saved = false) ∧ rankValid ((arrMail [Mail.mk 9 (9 : Word) (9 : BitVec 512), Mail.mk 8 (8 : Word) (8 : BitVec 512), Mail.mk 7 (7 : Word) (7 : BitVec 512), Mail.mk 6 (6 : Word) (6 : BitVec 512)]).rankEntry ((arrMail [Mail.mk 9 (9 : Word) (9 : BitVec 512), Mail.mk 8 (8 : Word) (8 : BitVec 512), Mail.mk 7 (7 : Word) (7 : BitVec 512), Mail.mk 6 (6 : Word) (6 : BitVec 512)]).thread arrMsg.sender).epoch (BitVec.toNat arrMsg.rank % 2 ^ 32)) = true ∧ rankDead ((arrMail [Mail.mk 9 (9 : Word) (9 : BitVec 512), Mail.mk 8 (8 : Word) (8 : BitVec 512), Mail.mk 7 (7 : Word) (7 : BitVec 512), Mail.mk 6 (6 : Word) (6 : BitVec 512)]).rankEntry ((arrMail [Mail.mk 9 (9 : Word) (9 : BitVec 512), Mail.mk 8 (8 : Word) (8 : BitVec 512), Mail.mk 7 (7 : Word) (7 : BitVec 512), Mail.mk 6 (6 : Word) (6 : BitVec 512)]).thread arrMsg.sender).epoch (BitVec.toNat arrMsg.rank % 2 ^ 32)) = false ∧ rankTransit ((arrMail [Mail.mk 9 (9 : Word) (9 : BitVec 512), Mail.mk 8 (8 : Word) (8 : BitVec 512), Mail.mk 7 (7 : Word) (7 : BitVec 512), Mail.mk 6 (6 : Word) (6 : BitVec 512)]).rankEntry ((arrMail [Mail.mk 9 (9 : Word) (9 : BitVec 512), Mail.mk 8 (8 : Word) (8 : BitVec 512), Mail.mk 7 (7 : Word) (7 : BitVec 512), Mail.mk 6 (6 : Word) (6 : BitVec 512)]).thread arrMsg.sender).epoch (BitVec.toNat arrMsg.rank % 2 ^ 32)) = false ∧ rankThread ((arrMail [Mail.mk 9 (9 : Word) (9 : BitVec 512), Mail.mk 8 (8 : Word) (8 : BitVec 512), Mail.mk 7 (7 : Word) (7 : BitVec 512), Mail.mk 6 (6 : Word) (6 : BitVec 512)]).rankEntry ((arrMail [Mail.mk 9 (9 : Word) (9 : BitVec 512), Mail.mk 8 (8 : Word) (8 : BitVec 512), Mail.mk 7 (7 : Word) (7 : BitVec 512), Mail.mk 6 (6 : Word) (6 : BitVec 512)]).thread arrMsg.sender).epoch (BitVec.toNat arrMsg.rank % 2 ^ 32)) / 2 ^ 24 = (arrMail [Mail.mk 9 (9 : Word) (9 : BitVec 512), Mail.mk 8 (8 : Word) (8 : BitVec 512), Mail.mk 7 (7 : Word) (7 : BitVec 512), Mail.mk 6 (6 : Word) (6 : BitVec 512)]).package ∧ ((arrMail [Mail.mk 9 (9 : Word) (9 : BitVec 512), Mail.mk 8 (8 : Word) (8 : BitVec 512), Mail.mk 7 (7 : Word) (7 : BitVec 512), Mail.mk 6 (6 : Word) (6 : BitVec 512)]).thread (rankThread ((arrMail [Mail.mk 9 (9 : Word) (9 : BitVec 512), Mail.mk 8 (8 : Word) (8 : BitVec 512), Mail.mk 7 (7 : Word) (7 : BitVec 512), Mail.mk 6 (6 : Word) (6 : BitVec 512)]).rankEntry ((arrMail [Mail.mk 9 (9 : Word) (9 : BitVec 512), Mail.mk 8 (8 : Word) (8 : BitVec 512), Mail.mk 7 (7 : Word) (7 : BitVec 512), Mail.mk 6 (6 : Word) (6 : BitVec 512)]).thread arrMsg.sender).epoch (BitVec.toNat arrMsg.rank % 2 ^ 32)) % 2 ^ 24)).isSealed = false ∧ (arrMail [Mail.mk 9 (9 : Word) (9 : BitVec 512), Mail.mk 8 (8 : Word) (8 : BitVec 512), Mail.mk 7 (7 : Word) (7 : BitVec 512), Mail.mk 6 (6 : Word) (6 : BitVec 512)]).offline ((arrMail [Mail.mk 9 (9 : Word) (9 : BitVec 512), Mail.mk 8 (8 : Word) (8 : BitVec 512), Mail.mk 7 (7 : Word) (7 : BitVec 512), Mail.mk 6 (6 : Word) (6 : BitVec 512)]).thread (rankThread ((arrMail [Mail.mk 9 (9 : Word) (9 : BitVec 512), Mail.mk 8 (8 : Word) (8 : BitVec 512), Mail.mk 7 (7 : Word) (7 : BitVec 512), Mail.mk 6 (6 : Word) (6 : BitVec 512)]).rankEntry ((arrMail [Mail.mk 9 (9 : Word) (9 : BitVec 512), Mail.mk 8 (8 : Word) (8 : BitVec 512), Mail.mk 7 (7 : Word) (7 : BitVec 512), Mail.mk 6 (6 : Word) (6 : BitVec 512)]).thread arrMsg.sender).epoch (BitVec.toNat arrMsg.rank % 2 ^ 32)) % 2 ^ 24)).epoch = false ∧ ((arrMail [Mail.mk 9 (9 : Word) (9 : BitVec 512), Mail.mk 8 (8 : Word) (8 : BitVec 512), Mail.mk 7 (7 : Word) (7 : BitVec 512), Mail.mk 6 (6 : Word) (6 : BitVec 512)]).thread (rankThread ((arrMail [Mail.mk 9 (9 : Word) (9 : BitVec 512), Mail.mk 8 (8 : Word) (8 : BitVec 512), Mail.mk 7 (7 : Word) (7 : BitVec 512), Mail.mk 6 (6 : Word) (6 : BitVec 512)]).rankEntry ((arrMail [Mail.mk 9 (9 : Word) (9 : BitVec 512), Mail.mk 8 (8 : Word) (8 : BitVec 512), Mail.mk 7 (7 : Word) (7 : BitVec 512), Mail.mk 6 (6 : Word) (6 : BitVec 512)]).thread arrMsg.sender).epoch (BitVec.toNat arrMsg.rank % 2 ^ 32)) % 2 ^ 24)).mail.length = 4 :=
  ⟨rfl, by decide, rfl, rfl, rfl, rfl, rfl, rfl, rfl⟩
theorem witness_arrivals_15 : arrNak.net.naks = [arrMsg] :=
  rfl

/-! ## Pages, hosts and ports -/

/-- The leaf of virtual 0x3000, on the frame five above the page, under the tables of five levels. -/
def pgLeaf (cls : Nat) (present : Bool) : Word := BitVec.ofNat 64 (0x1F3 + cls * 2 ^ 9 + 2 ^ 15 + 2 ^ 16 + (if present then 2 ^ 17 else 0) + 0x8000005 * 2 ^ 32)
def pgMem (leaf : Word) : Memory :=
  let m := Memory.writeN ((List.range 4).foldl (fun m l => m.writeN (page + l * 4096) (leBytes 8 (1 + (0x8000001 + l) * 2 ^ 32))) [])
    (page + 4 * 4096 + 24) (leBytes 8 leaf.toNat)
  (m.writeN (page + 0x5008) [1, 2, 3, 4, 5]).writeN (page + 0x40010) [9, 8, 7]
/-- Backed from the page 64 above the first, CHLOCAL from the frame five above it. -/
def pgRange : Range := ⟨0x3000, 1, true, BitVec.ofNat 64 (0x1F0 + 2 * 2 ^ 9 + 2 ^ 15 + 2 ^ 16 + 2 ^ 34 + 5 * 2 ^ 44), page + 0x40000⟩
def pgBox (leaf : Word) : State :=
  let s := box []
  { s with
    mem := pgMem leaf, fw := { s.fw with launches := [{ quLaunch with ranges := [pgRange] }], reserved := [] }
    net := { s.net with services := [⟨5, 0x3000, page + 0x4018⟩] }
    pagers := [(1000, { Pager.initial with roots := Pager.initial.roots.set 0 (5 <<< 48 ||| 0x8000000 <<< 12 ||| 1) })] }
def pgAway : State := (pgBox (pgLeaf 2 false)).setThread 7 { Thread.initial with status := .wait (.page (page + 0x4018)) }
def pgHere : State := pgBox (pgLeaf 2 true)
def hostPage : Nat := page / 4096 + 5
/-- Both host links up; a word of the page's first line is owned by core 0, another core waits for memory. -/
def hsBox (h : HostSide → HostSide) : State :=
  let s := { pgHere with host := h { pgHere.host with up := Vector.replicate 6 true } }
  (s.setCore 0 { Core.initial with l1 := [(page / 4 + 0x1402, ⟨0x91223384, true, 0xF, false, 0⟩), (page / 4 + 0x1403, ⟨7, false, 0, false, 0⟩)] }).setThread 7
    { Thread.initial with status := .wait .memory }
def hsRead : State := hsBox id
def hsFresh : State := { hsRead with cores := [] }
def hsWrite : State := let s := { hsRead with cores := [] }; s.setThread 9 { Thread.initial with mon := Thread.initial.mon.set 1 ⟨page + 0x5010, true, false⟩ }
def hsDirty : HostLine := ⟨1, page + 0x5040, List.replicate 63 0 ++ [0x77], true, true⟩
def hsAnswer : State := { hsBox ({ · with lines := [hsDirty], snoops := [(1, page + 0x5040)] }) with cores := [] }
def hsExpander : State :=
  let s := box []
  { s with lines := [⟨1, 5, 0, 0x20000000200, 0xFFFF⟩, ⟨1, 6, 0, 0x20000000400, 0xFFFF⟩], cores := [(0, { Core.initial with l1 := [(0x20000000200 / 4 + 3, ⟨7, false, 0, false, 0⟩)] })] }
def hsFlip : Flip := ⟨4, hostPage, true, 0⟩
def hsToHost : State :=
  let s := hsBox ({ · with flips := [hsFlip] })
  s.setThread 8 { Thread.initial with bias := [⟨0, true, some 4, none, none⟩] }
def hsBack : Flip := ⟨4, hostPage, false, 0⟩
def hsToDevice (up : Bool) : State := hsBox ({ · with flips := [hsBack], bias := [hostPage], up := Vector.replicate 6 up })
def hsLinks : State := let s := hsAnswer; { s with fw := { s.fw with owner := some 2 } }

theorem witness_page_service_1 : pgAway.net.services = [Service.mk (5 : BitVec 16) 12288 (page + 16408)] ∧ pgAway.launch (5 : BitVec 16) = some (let __src := quLaunch; Launch.mk __src.master __src.epoch __src.slot __src.clusters __src.windows __src.dequeDom __src.anchorDom __src.dbg __src.supervisor __src.image [pgRange] __src.frames __src.packages __src.roots __src.joins __src.area __src.phase __src.tau __src.compAt __src.vector __src.word __src.records __src.dumpFull __src.chain __src.saved) ∧ (let __src := quLaunch; Launch.mk __src.master __src.epoch __src.slot __src.clusters __src.windows __src.dequeDom __src.anchorDom __src.dbg __src.supervisor __src.image [pgRange] __src.frames __src.packages __src.roots __src.joins __src.area __src.phase __src.tau __src.compAt __src.vector __src.word __src.records __src.dumpFull __src.chain __src.saved).rangeAt 12288 = some pgRange ∧ Leaf.present (pgAway.entryAt (page + 16408)) = false ∧ pgAway.backingCause (5 : BitVec 16) 12288 = none ∧ pgAway.serviceFrame (let __src := quLaunch; Launch.mk __src.master __src.epoch __src.slot __src.clusters __src.windows __src.dequeDom __src.anchorDom __src.dbg __src.supervisor __src.image [pgRange] __src.frames __src.packages __src.roots __src.joins __src.area __src.phase __src.tau __src.compAt __src.vector __src.word __src.records __src.dumpFull __src.chain __src.saved) pgRange ((12288 - pgRange.base) / 4096) = some 134217733 ∧ pgAway.hostBias (page + 16408) = false ∧ pgAway.host.lines = [] ∧ (page + 16408 + 8 ≤ pgAway.pageKey 134217733 ∨ pgAway.pageKey 134217733 + 4096 ≤ page + 16408) ∧ (∀ (j : JoinLeft), j ∈ (let __src := quLaunch; Launch.mk __src.master __src.epoch __src.slot __src.clusters __src.windows __src.dequeDom __src.anchorDom __src.dbg __src.supervisor __src.image [pgRange] __src.frames __src.packages __src.roots __src.joins __src.area __src.phase __src.tau __src.compAt __src.vector __src.word __src.records __src.dumpFull __src.chain __src.saved).joins → j.page ≠ page + 16408) :=
  ⟨rfl, rfl, rfl, rfl, rfl, rfl, by decide +kernel, rfl, by decide, by decide⟩
theorem witness_page_out_1 : pgHere.launch (BitVec.ofNat 16 5) = some (let __src := quLaunch; Launch.mk __src.master __src.epoch __src.slot __src.clusters __src.windows __src.dequeDom __src.anchorDom __src.dbg __src.supervisor __src.image [pgRange] __src.frames __src.packages __src.roots __src.joins __src.area __src.phase __src.tau __src.compAt __src.vector __src.word __src.records __src.dumpFull __src.chain __src.saved) ∧ (let __src := quLaunch; Launch.mk __src.master __src.epoch __src.slot __src.clusters __src.windows __src.dequeDom __src.anchorDom __src.dbg __src.supervisor __src.image [pgRange] __src.frames __src.packages __src.roots __src.joins __src.area __src.phase __src.tau __src.compAt __src.vector __src.word __src.records __src.dumpFull __src.chain __src.saved).exists_ = true ∧ (let __src := quLaunch; Launch.mk __src.master __src.epoch __src.slot __src.clusters __src.windows __src.dequeDom __src.anchorDom __src.dbg __src.supervisor __src.image [pgRange] __src.frames __src.packages __src.roots __src.joins __src.area __src.phase __src.tau __src.compAt __src.vector __src.word __src.records __src.dumpFull __src.chain __src.saved).rangeAt 12288 = some pgRange ∧ pgRange.faulting = true ∧ pgHere.walk (pgHere.pager 1000) (let __src := quLaunch; Launch.mk __src.master __src.epoch __src.slot __src.clusters __src.windows __src.dequeDom __src.anchorDom __src.dbg __src.supervisor __src.image [pgRange] __src.frames __src.packages __src.roots __src.joins __src.area __src.phase __src.tau __src.compAt __src.vector __src.word __src.records __src.dumpFull __src.chain __src.saved).slot 12288 = some (pgLeaf 2 true, page + 16408) ∧ Leaf.present (pgLeaf 2 true) = true ∧ pgHere.pageHeld (pgHere.physical (BitVec.ofNat 16 5) (pgLeaf 2 true) 12288 / 4096 * 4096) = false ∧ (∀ (p : Nat), p ∈ pgHere.pagersOf (let __src := quLaunch; Launch.mk __src.master __src.epoch __src.slot __src.clusters __src.windows __src.dequeDom __src.anchorDom __src.dbg __src.supervisor __src.image [pgRange] __src.frames __src.packages __src.roots __src.joins __src.area __src.phase __src.tau __src.compAt __src.vector __src.word __src.records __src.dumpFull __src.chain __src.saved).clusters → (pgHere.pager p).busy = false) ∧ pgHere.hostBias (page + 16408) = false ∧ pgHere.host.lines = [] ∧ (page + 16408 + 8 ≤ pgHere.physical (BitVec.ofNat 16 5) (pgLeaf 2 true) 12288 / 4096 * 4096 ∨ pgHere.physical (BitVec.ofNat 16 5) (pgLeaf 2 true) 12288 / 4096 * 4096 + 4096 ≤ page + 16408) ∧ (page + 16408 + 8 ≤ pgRange.backing + ((12288 / 4096 : Nat) * 4096 - pgRange.base) ∨ pgRange.backing + ((12288 / 4096 : Nat) * 4096 - pgRange.base) + 4096 ≤ page + 16408) :=
  ⟨rfl, rfl, rfl, rfl, rfl, rfl, rfl, by decide, by decide +kernel, rfl, by decide, by decide⟩
theorem witness_hosts_1 : 1 < 2 ∧ hsRead.host.up.getD 1 false = true ∧ 2565 * 4096 + 8 < 2 ^ 42 ∧ hsRead.hostWaits 1 (hsRead.hdmKey ((2565 * 4096 + 8) / 64 * 64)) 64 false = false ∧ hsRead.hostBias (hsRead.hdmKey ((2565 * 4096 + 8) / 64 * 64)) = false ∧ hsRead.logged (hsRead.hdmKey ((2565 * 4096 + 8) / 64 * 64)) 64 = [] ∧ hsRead.isSc (hsRead.hdmKey ((2565 * 4096 + 8) / 64 * 64)) = true ∧ hsRead.ownedAnywhere (hsRead.hdmKey ((2565 * 4096 + 8) / 64 * 64)) 64 = true :=
  ⟨by decide, by decide +kernel, by decide, by decide +kernel, by decide +kernel, by decide +kernel, by decide +kernel, by decide +kernel⟩
theorem witness_hosts_2 : 1 < 2 ∧ hsFresh.host.up.getD 1 false = true ∧ 2565 * 4096 + 8 < 2 ^ 42 ∧ hsFresh.hostWaits 1 (hsFresh.hdmKey ((2565 * 4096 + 8) / 64 * 64)) 64 false = false ∧ hsFresh.hostBias (hsFresh.hdmKey ((2565 * 4096 + 8) / 64 * 64)) = false ∧ hsFresh.logged (hsFresh.hdmKey ((2565 * 4096 + 8) / 64 * 64)) 64 = [] ∧ hsFresh.isSc (hsFresh.hdmKey ((2565 * 4096 + 8) / 64 * 64)) = true ∧ hsFresh.ownedAnywhere (hsFresh.hdmKey ((2565 * 4096 + 8) / 64 * 64)) 64 = false :=
  ⟨by decide, by decide +kernel, by decide, by decide +kernel, by decide +kernel, by decide +kernel, by decide +kernel, by decide +kernel⟩
theorem witness_hosts_3 : 1 < 2 ∧ hsWrite.host.up.getD 1 false = true ∧ 2565 * 4096 + 20 < 2 ^ 42 ∧ [(1 : Byte), (2 : Byte), (3 : Byte)] ≠ [] ∧ (2565 * 4096 + 20) % 64 + [(1 : Byte), (2 : Byte), (3 : Byte)].length ≤ 64 ∧ hsWrite.hostWaits 1 (hsWrite.hdmKey (2565 * 4096 + 20)) [(1 : Byte), (2 : Byte), (3 : Byte)].length true = false ∧ hsWrite.hostBias (hsWrite.hdmKey (2565 * 4096 + 20)) = false ∧ hsWrite.Uncached (hsWrite.hdmKey (2565 * 4096 + 20)) [(1 : Byte), (2 : Byte), (3 : Byte)].length ∧ hsWrite.logged (hsWrite.hdmKey (2565 * 4096 + 20)) [(1 : Byte), (2 : Byte), (3 : Byte)].length = [] ∧ (∀ (l : HostLine), l ∈ hsWrite.host.lines → l.port = 1 → l.excl = true → l.covers (hsWrite.hdmKey (2565 * 4096 + 20)) [(1 : Byte), (2 : Byte), (3 : Byte)].length = false) :=
  ⟨by decide, by decide +kernel, by decide, by decide, by decide, by decide +kernel, by decide +kernel, uncached (by decide +kernel), by decide +kernel, by decide +kernel⟩
theorem witness_hosts_4 : 1 < 2 ∧ hsRead.host.up.getD 1 false = true ∧ 2565 * 4096 + 8 < 2 ^ 42 ∧ hsRead.mayOwn (hsRead.hdmKey ((2565 * 4096 + 8) / 64 * 64)) = true ∧ hsRead.hostWaits 1 (hsRead.hdmKey ((2565 * 4096 + 8) / 64 * 64)) 64 true = false ∧ hsRead.hostBias (hsRead.hdmKey ((2565 * 4096 + 8) / 64 * 64)) = false :=
  ⟨by decide, by decide +kernel, by decide, by decide +kernel, by decide +kernel, by decide +kernel⟩
theorem witness_hosts_5 : hsAnswer.host.flips = [] ∧ hsAnswer.host.lines = [hsDirty] ∧ hsDirty.port = 1 ∧ hsDirty.key = page + 20544 ∧ (page + 20544) % 64 = 0 ∧ hsDirty.dirty = true ∧ hsDirty.data.length = 64 ∧ hsAnswer.Uncached (page + 20544) 64 ∧ hsAnswer.hostBias (page + 20544) = false :=
  ⟨by decide +kernel, by decide +kernel, by decide +kernel, by decide +kernel, rfl, by decide +kernel, by decide +kernel, uncached (by decide +kernel), by decide +kernel⟩
theorem witness_hosts_6 : areaOf (hsExpander.localKey 2199023256080 / 512 * 512) = Area.secondTier :=
  by decide +kernel
theorem witness_hosts_7 : hsToHost.flipAt hostPage true = some hsFlip ∧ hsFlip.step = 0 ∧ hsFlip.page = hostPage ∧ hsToHost.flipOk hostPage = true ∧ ¬hostPage ∈ hsToHost.host.bias ∧ (∀ (l : HostLine), l ∈ hsToHost.host.lines → l.covers (4096 * hostPage) 4096 = false) ∧ hsToHost.flipAsked hostPage = false :=
  ⟨by decide +kernel, by decide +kernel, by decide +kernel, by decide +kernel, by decide +kernel, by decide +kernel, by decide +kernel⟩
theorem witness_hosts_8 : (hsToDevice false).flipAt hostPage false = some hsBack ∧ hsBack.step = 0 ∧ hsBack.page = hostPage ∧ (hsToDevice false).flipOk hostPage = true ∧ hostPage ∈ (hsToDevice false).host.bias ∧ (hsToDevice false).host.up.getD 0 false = false ∧ (hsToDevice false).host.up.getD 1 false = false ∧ (hsToDevice false).flipAsked hostPage = false :=
  ⟨by decide +kernel, by decide +kernel, by decide +kernel, by decide +kernel, by decide +kernel, by decide +kernel, by decide +kernel, by decide +kernel⟩
theorem witness_hosts_9 : (hsToDevice true).flipAt hostPage false = some hsBack ∧ hsBack.step = 0 ∧ (hsToDevice true).flipOk hostPage = true ∧ hostPage ∈ (hsToDevice true).host.bias ∧ (hsToDevice true).host.up.getD 0 false = true :=
  ⟨by decide +kernel, by decide +kernel, by decide +kernel, by decide +kernel, by decide +kernel⟩
theorem witness_hosts_10 : 1 < 6 :=
  by decide
theorem witness_hosts_11 : 5 < 6 ∧ 8 ≤ 64 ∧ 64 ≤ 64 :=
  ⟨by decide, by decide, by decide⟩
theorem witness_hosts_12 : areaOf (hsWrite.localKey 549755834376) = Area.firstTier ∧ 3 ≠ hsWrite.package ∧ hsWrite.hostBias (hsWrite.localKey 549755834376) = false ∧ hsWrite.poisoned (hsWrite.localKey 549755834376) 8 = false ∧ hsWrite.Uncached (hsWrite.localKey 549755834376) 8 ∧ hsWrite.localKey 549755834376 % 8 = 0 ∧ hsWrite.foreignWaits (hsWrite.localKey 549755834376) 8 true = false ∧ [(1 : Byte), (2 : Byte), (3 : Byte), (4 : Byte), (5 : Byte), (6 : Byte), (7 : Byte), (8 : Byte)].length = 8 ∧ hsWrite.logged (hsWrite.localKey 549755834376) 8 = [] ∧ hsWrite.strongClash foreignAgent.id (hsWrite.localKey 549755834376) 8 = [] :=
  ⟨by decide +kernel, by decide +kernel, by decide +kernel, by decide +kernel, uncached (by decide +kernel), by decide +kernel, by decide +kernel, rfl, by decide +kernel, by decide +kernel⟩
theorem witness_hosts_13 : (areaOf (hsWrite.localKey 2199023255552) ≠ Area.firstTier ∨ 3 = hsWrite.package) :=
  by decide +kernel
theorem witness_hosts_14 : (areaOf (hsWrite.localKey 549755834376) ≠ Area.firstTier ∨ 0 = hsWrite.package) :=
  by decide +kernel

/-! ## Gang switches, kills and errors -/

def gangLaunch (ph : Phase) (tau : Option Nat) (v : Option Saved) : Launch := { quLaunch with phase := ph, tau := tau, saved := v, windows := Vector.replicate 8 (wide false) }
def gangMsg : Net := { Net.empty with msgs := [⟨0, 3, 0x10, 0xABCDEF, true⟩], creates := [⟨0, 3, 5, 0, 400, 0⟩] }
/-- The launch at time 1000, with messages of its own and of another on their way. -/
def gangBox (l : Launch) (ts : Tab Thread) : State :=
  let s := box []
  { s with
    fw := { s.fw with launches := [l] }, gtime := 1000, threads := ts, mem := ldMem
    net := { s.net with creates := [⟨0, 3, 5, 0, 400, 0⟩, ⟨0, 3, 6, 0, 400, 0⟩], retires := [⟨0, 3, 5, 1, 400, 0⟩] }
    clusters := [(0, { Cluster.initial with counts := [(5, quCounts)] })] }
def gangNever : State := gangBox (gangLaunch .running (some 1001) none) []
def gangDone : State := let s := gangBox (gangLaunch .running (some 1000) none) []; { s with clusters := [] }
def gangEmpty : State := gangBox (gangLaunch .running (some 1000) none) [(0x400000, Thread.initial)]
def gangOne : State := (gangBox (gangLaunch .running (some 1000) none) [(0x82, { thr [(4, 6)] with
  status := .wait .monitor, pc := 0x44, mon := Thread.initial.mon.set 2 ⟨page, true, false⟩ })]).setCore 0x80 { engHeld with claims := engHeld.claims.set 5 none }
def gangBusy : State := (gangBox (gangLaunch .switching none (some ⟨[], gangMsg⟩)) [(0x82, { thr [] with nreds := 1 })]).setHome 7
  { Home.initial with nreds := [{ nredOf 0 1 with thread := 0x82 }] }
def gangSaved : State := gangBox (gangLaunch .switching none (some ⟨[], gangMsg⟩)) [(0x82, { thr [(3, 3)] with status := .wait .command })]
def gangOut : State := gangBox (gangLaunch .out (some 999) (some ⟨[(0x400001, thr [(3, 3)])], gangMsg⟩)) [(0x400001, { Thread.initial with status := .wfw })]
def gangLoad : State := { gangBox (gangLaunch .running none none) [] with
  clusters := [(0, { Cluster.initial with pager := pager 1 })] }

/-- A core whose store lost a bit, and the image firmware keeps. -/
def gangReload : State :=
  let s := gangLoad.setCore 0x80 { Core.initial with reload := true }
  { s with fw := { s.fw with images := [⟨quLaunch.image, [], [], [], []⟩] } }

/-- Core 0 of cluster 0 is stuck on memory; thread 2 of it has a rank. -/
def killBox (f : Core → Core) : State :=
  let s := gangBox (gangLaunch .running none none) []
  let s := (s.setThread 1 { thr [(4, 6)] with status := .wait .memory, since := some 0 }).setThread 2 (thr [])
  { s with
    gtime := 2000000
    cores := [(0, f { engHeld with l1 := [(page / 4 + 9, ⟨0x91223384, true, 0xF, false, 0⟩)], matrix := ⟨some (cmdOf (.mzero 2 1 2 0 1) 0 0 none), [], [], 0⟩ })]
    clusters := [(0, { Cluster.initial with wdog := 1000 })], ranks := [(5 * 2 ^ 32 + 3, BitVec.ofNat 64 (2 ^ 44 + 2)), (5 * 2 ^ 32 + 4, BitVec.ofNat 64 (2 ^ 44 + 0x81))] }
def killHang : State := killBox id
def killRest : State := killBox ({ · with killed := true, matrix := ⟨none, [], [], 0⟩, l1 := [] })
def killTask (again : Bool) : Task := ⟨0, 16, page, 0x10, 0x20, Vector.replicate 4 0, again, false, 8, 5, 3, true, some 0⟩
def killWork (again : Bool) : State :=
  (killRest.setThread 0 { thr [] with work := some ⟨.task 7 8 true, 3⟩ }).setHome 7 { Home.initial with queue := [killTask again] }
def killVent : State :=
  ((killBox id).setCore 0x408000 { Core.initial with killed := true }).setHome 8 { Home.initial with queue := [{ killTask true with runner := none, running := false }] }
def killSuspect : Suspect := ⟨3, 0x1D, 2, 0x99, 7, none⟩
def killTest : State := killBox ({ · with suspects := [killSuspect, ⟨5, 0, 0, 1, 0, none⟩], testing := true })
def killSoft : State := box [(4, 0x123456789ABCDEF)]

theorem witness_gang_1 : gangNever.launch (BitVec.ofNat 16 5) = some (gangLaunch Phase.running (some 1001) none) ∧ (gangLaunch Phase.running (some 1001) none).epoch = BitVec.ofNat 16 5 ∧ (gangLaunch Phase.running (some 1001) none).phase = Phase.running ∧ (gangLaunch Phase.running (some 1001) none).tau = some 1001 ∧ gangNever.gtime < 1001 :=
  ⟨rfl, rfl, rfl, rfl, by decide⟩
theorem witness_gang_2 : gangDone.launch (BitVec.ofNat 16 5) = some (gangLaunch Phase.running (some 1000) none) ∧ (gangLaunch Phase.running (some 1000) none).epoch = BitVec.ofNat 16 5 ∧ (gangLaunch Phase.running (some 1000) none).phase = Phase.running ∧ (gangLaunch Phase.running (some 1000) none).tau = some 1000 ∧ 1000 ≤ gangDone.gtime ∧ gangDone.allDone (gangLaunch Phase.running (some 1000) none) = true :=
  ⟨rfl, rfl, rfl, rfl, by decide, rfl⟩
theorem witness_gang_3 : gangEmpty.launch (BitVec.ofNat 16 5) = some (gangLaunch Phase.running (some 1000) none) ∧ (gangLaunch Phase.running (some 1000) none).epoch = BitVec.ofNat 16 5 ∧ (gangLaunch Phase.running (some 1000) none).phase = Phase.running ∧ (gangLaunch Phase.running (some 1000) none).tau = some 1000 ∧ 1000 ≤ gangEmpty.gtime ∧ gangEmpty.allDone (gangLaunch Phase.running (some 1000) none) = false ∧ gangEmpty.partitionThreads (gangLaunch Phase.running (some 1000) none) = [] :=
  ⟨rfl, rfl, rfl, rfl, by decide, rfl, rfl⟩
theorem witness_gang_4 : gangOne.launch (BitVec.ofNat 16 5) = some (gangLaunch Phase.running (some 1000) none) ∧ (gangLaunch Phase.running (some 1000) none).epoch = BitVec.ofNat 16 5 ∧ (gangLaunch Phase.running (some 1000) none).phase = Phase.running ∧ (gangLaunch Phase.running (some 1000) none).tau = some 1000 ∧ 1000 ≤ gangOne.gtime ∧ gangOne.allDone (gangLaunch Phase.running (some 1000) none) = false ∧ gangOne.partitionThreads (gangLaunch Phase.running (some 1000) none) = [130] ∧ isCompute 130 = true ∧ (gangOne.thread 130).causes = [] :=
  ⟨rfl, rfl, rfl, rfl, by decide, rfl, rfl, rfl, rfl⟩
theorem witness_gang_5 : gangBusy.launch (BitVec.ofNat 16 5) = some (gangLaunch Phase.switching none (some (Saved.mk [] gangMsg))) ∧ (gangLaunch Phase.switching none (some (Saved.mk [] gangMsg))).epoch = BitVec.ofNat 16 5 ∧ (gangLaunch Phase.switching none (some (Saved.mk [] gangMsg))).phase = Phase.switching ∧ (gangLaunch Phase.switching none (some (Saved.mk [] gangMsg))).saved = some (Saved.mk [] gangMsg) ∧ gangBusy.saveBusy (gangLaunch Phase.switching none (some (Saved.mk [] gangMsg))) = true :=
  ⟨rfl, rfl, rfl, rfl, rfl⟩
theorem witness_gang_6 : gangSaved.launch (BitVec.ofNat 16 5) = some (gangLaunch Phase.switching none (some (Saved.mk [] gangMsg))) ∧ (gangLaunch Phase.switching none (some (Saved.mk [] gangMsg))).epoch = BitVec.ofNat 16 5 ∧ (gangLaunch Phase.switching none (some (Saved.mk [] gangMsg))).phase = Phase.switching ∧ (gangLaunch Phase.switching none (some (Saved.mk [] gangMsg))).saved = some (Saved.mk [] gangMsg) ∧ gangSaved.saveBusy (gangLaunch Phase.switching none (some (Saved.mk [] gangMsg))) = false ∧ List.filter isVent (gangSaved.partitionThreads (gangLaunch Phase.switching none (some (Saved.mk [] gangMsg)))) = [] ∧ (∀ (t : Nat), t ∈ gangSaved.partitionThreads (gangLaunch Phase.switching none (some (Saved.mk [] gangMsg))) → (gangSaved.thread t).badResidue = none) :=
  ⟨rfl, rfl, rfl, rfl, rfl, rfl, by decide⟩
theorem witness_gang_7 : gangOut.launch (BitVec.ofNat 16 5) = some (gangLaunch Phase.out (some 999) (some (Saved.mk [(4194305, thr [((3 : BitVec 4), (3 : Word))])] gangMsg))) ∧ (gangLaunch Phase.out (some 999) (some (Saved.mk [(4194305, thr [((3 : BitVec 4), (3 : Word))])] gangMsg))).epoch = BitVec.ofNat 16 5 ∧ (gangLaunch Phase.out (some 999) (some (Saved.mk [(4194305, thr [((3 : BitVec 4), (3 : Word))])] gangMsg))).phase = Phase.out ∧ (gangLaunch Phase.out (some 999) (some (Saved.mk [(4194305, thr [((3 : BitVec 4), (3 : Word))])] gangMsg))).saved = some (Saved.mk [(4194305, thr [((3 : BitVec 4), (3 : Word))])] gangMsg) ∧ (gangLaunch Phase.out (some 999) (some (Saved.mk [(4194305, thr [((3 : BitVec 4), (3 : Word))])] gangMsg))).tau = some 999 ∧ 999 ≤ gangOut.gtime ∧ (∀ (y : Nat × Thread), y ∈ [(4194305, thr [((3 : BitVec 4), (3 : Word))])] → (gangOut.thread y.fst).status = Status.wfw) ∧ gangOut.servers = [] ∧ gangOut.homes = [] :=
  ⟨rfl, rfl, rfl, rfl, rfl, by decide, by decide, rfl, rfl⟩
theorem witness_gang_8 : gangLoad.launch (BitVec.ofNat 16 5) = some (gangLaunch Phase.running none none) ∧ (gangLaunch Phase.running none none).epoch = BitVec.ofNat 16 5 ∧ (gangLaunch Phase.running none none).phase = Phase.running ∧ (gangLaunch Phase.running none none).clusters.contains (gangLoad.package, clusterOf 128) = true ∧ isCompute 128 = true ∧ (gangLoad.core 128).killed = false ∧ coreOf 128 = 128 ∧ (gangLoad.core 128).matrix = Engine.mk none [] [] 0 ∧ (gangLoad.core 128).copy = Engine.mk none [] [] 0 ∧ (∀ (j : Nat), j < 8 → (gangLoad.thread (128 + j)).halting = true) :=
  ⟨rfl, rfl, rfl, rfl, rfl, rfl, rfl, rfl, rfl, by decide⟩
theorem witness_gang_9 : gangReload.launch (BitVec.ofNat 16 5) = some (gangLaunch Phase.running none none) ∧ (gangLaunch Phase.running none none).epoch = BitVec.ofNat 16 5 ∧ (gangLaunch Phase.running none none).phase = Phase.running ∧ (gangLaunch Phase.running none none).clusters.contains (gangReload.package, clusterOf 128) = true ∧ isCompute 128 = true ∧ (gangReload.core 128).killed = false ∧ coreOf 128 = 128 ∧ (gangReload.core 128).matrix = Engine.mk none [] [] 0 ∧ (gangReload.core 128).copy = Engine.mk none [] [] 0 ∧ (∀ (j : Nat), j < 8 → (gangReload.thread (128 + j)).halting = true) :=
  ⟨rfl, rfl, rfl, rfl, rfl, rfl, rfl, rfl, rfl, by decide⟩
theorem witness_kills_1 : coreOf 0 = 0 ∧ isCompute 0 = true ∧ (killHang.core 0).killed = false ∧ (killHang.core 0).testing = false ∧ killHang.hangUs 0 ≠ 0 ∧ (∃ (j : Nat), j < 8 ∧ (killHang.thread (0 + j)).status = Status.wait Wait.memory ∧ ∃ (b : Nat), (killHang.thread (0 + j)).since = some b ∧ b + 1000 * killHang.hangUs 0 < killHang.gtime) ∧ killHang.offline (killHang.coreEpoch 0) = false ∧ killHang.Canonical ∧ List.filterMap Command.sealedAt (killHang.core 0).commands = [] :=
  ⟨rfl, rfl, rfl, rfl, by decide, by decide, rfl, canonical rfl rfl, rfl⟩
theorem witness_kills_2 : coreOf 0 = 0 ∧ isCompute 0 = true ∧ (killRest.core 0).killed = true ∧ (killRest.core 0).deque = [] ∧ (∀ (x : Cell), x ∈ killRest.cells → coreOf x.owner ≠ 0) ∧ (∀ (j : Nat), j < 8 → (killRest.thread (0 + j)).work = none ∧ (killRest.thread (0 + j)).callee = none) ∧ killRest.unitDead (clusterOf 0) = false :=
  ⟨rfl, rfl, rfl, rfl, by decide, by decide, rfl⟩
theorem witness_kills_3 : 8 < 512 ∧ (killVent.core (ventThread 8 0)).killed = true ∧ (∀ (x : Cell), x ∈ killVent.cells → coreOf x.owner ≠ ventThread 8 0) ∧ (∀ (j : Nat), j < 8 → (killVent.thread (ventThread 8 j)).work = none ∧ (killVent.thread (ventThread 8 j)).callee = none) ∧ (killVent.server (4096 + 8)).calls = [] ∧ (killVent.home 8).queue = [let __src := killTask true; Task.mk __src.anchor __src.length __src.va __src.nearPc __src.farPc __src.args __src.restart __src.free __src.seq __src.epoch __src.origin false none] ∧ (let __src := killTask true; Task.mk __src.anchor __src.length __src.va __src.nearPc __src.farPc __src.args __src.restart __src.free __src.seq __src.epoch __src.origin false none).runner = none ∧ (let __src := killTask true; Task.mk __src.anchor __src.length __src.va __src.nearPc __src.farPc __src.args __src.restart __src.free __src.seq __src.epoch __src.origin false none).origin / 256 = killVent.package :=
  ⟨by decide, rfl, by decide, by decide, rfl, rfl, rfl, rfl⟩
theorem witness_kills_4 : coreOf 0 = 0 ∧ isCompute 0 = true ∧ ((killWork true).core 0).killed = true ∧ ((killWork true).core 0).deque = [] ∧ (∀ (x : Cell), x ∈ (killWork true).cells → coreOf x.owner ≠ 0) ∧ ((killWork true).thread 0).work = some (Work.mk (Job.task 7 (killTask true).seq.toNat true) 3) ∧ (∀ (j : Nat), j < 8 → ((killWork true).thread (0 + j)).callee = none ∧ (j ≠ 0 → ((killWork true).thread (0 + j)).work = none)) ∧ (((killWork true).thread 0).reg (7 : BitVec 4)).val ≠ (4 : Word) ∧ ((killWork true).home 7).queue = [killTask true] ∧ (killTask true).runner = some 0 ∧ (killTask true).epoch = ((killWork true).thread 0).epoch ∧ (killWork true).unitDead (clusterOf 0) = false :=
  ⟨rfl, rfl, rfl, rfl, by decide, rfl, by decide, by decide, rfl, rfl, rfl, rfl⟩
theorem witness_kills_5 : coreOf 0 = 0 ∧ isCompute 0 = true ∧ ((killWork false).core 0).killed = true ∧ ((killWork false).core 0).deque = [] ∧ (∀ (x : Cell), x ∈ (killWork false).cells → coreOf x.owner ≠ 0) ∧ ((killWork false).thread 0).work = some (Work.mk (Job.task 7 (killTask false).seq.toNat true) 3) ∧ (∀ (j : Nat), j < 8 → ((killWork false).thread (0 + j)).callee = none ∧ (j ≠ 0 → ((killWork false).thread (0 + j)).work = none)) ∧ (((killWork false).thread 0).reg (7 : BitVec 4)).val ≠ (4 : Word) ∧ ((killWork false).home 7).queue = [killTask false] ∧ (killTask false).runner = some 0 ∧ (killTask false).epoch = ((killWork false).thread 0).epoch ∧ (killWork false).unitDead (clusterOf 0) = false :=
  ⟨rfl, rfl, rfl, rfl, by decide, rfl, by decide, by decide, rfl, rfl, rfl, rfl⟩
theorem witness_kills_6 : (killTest.core 0).suspects = [killSuspect, Suspect.mk 5 0 0 (1 : Word) 0 none] ∧ killSuspect.kind ≤ 4 :=
  ⟨rfl, by decide⟩
theorem witness_kills_7 : coreOf 0 = 0 ∧ isCompute 0 = true ∧ (killTest.core 0).killed = false ∧ (killTest.core 0).suspects = [killSuspect, Suspect.mk 5 0 0 (1 : Word) 0 none] ∧ killSuspect.kind ≤ 4 :=
  ⟨rfl, rfl, rfl, rfl, by decide⟩
theorem witness_kills_8 : 63 < 64 :=
  by decide
theorem witness_kills_9 : 63 < 64 ∧ ((killSoft.thread 0).reg (4 : BitVec 4)).res = residue ((killSoft.thread 0).reg (4 : BitVec 4)).val :=
  ⟨by decide, rfl⟩
theorem witness_kills_10 : areaOf (keyOf 549755814179) = Area.firstTier :=
  rfl
theorem witness_kills_11 : coreOf 0 = 0 ∧ isCompute 0 = true ∧ (killSoft.core 0).killed = false :=
  ⟨rfl, rfl, rfl⟩
theorem witness_kills_12 : 31 < 32 :=
  by decide

/-! ## Power and heat -/

/-- Cluster 3 with a static estimate, a cap of 1000 with a band of 250, and the level, ceiling and quiet count given. -/
def pwBox (trip static level ceil quiet : Nat) : State :=
  let s := box []
  let p := { Cluster.initial.power with
    cfg := BitVec.ofNat 64 (1000 + 64 * 2 ^ 32 + 5 * 2 ^ 40), therm := BitVec.ofNat 64 (trip * 2 ^ 20 + 8 * 2 ^ 10 + 600 + 100 * 2 ^ 32), static := BitVec.ofNat 32 static
    level := level, ceil := ceil, quiet := quiet, tcap := 900000, tmax := 595, req := Vector.replicate 16 0x6666, wgt := Vector.replicate 12 0 }
  { (s.setTile 48 { Tile.initial with point := 2 }).setTile 49 { Tile.initial with point := 2, raising := some 4 } with
    clusters := [(3, { Cluster.initial with power := p })]
    threads := [(3 * 0x2000 + 7, thr []), (3 * 0x2000 + 6, { thr [] with trapm := true })] }
def pwHot : State := pwBox 0 0 2 3 1
def pwOver : State := pwBox 500 2000 2 7 1
def pwTop : State := pwBox 500 2000 5 3 1
def pwUnder : State := pwBox 500 20 2 3 1
def pwQuiet : State := pwBox 500 20 0 3 3
def pwBand : State := pwBox 500 900 2 3 1
def pwTmax (t : Nat) : State :=
  let s := pwHot
  s.setCluster 3 { s.cluster 3 with power := { (s.cluster 3).power with capDue := some (t, BitVec.ofNat 64 (500 * 2 ^ 20 + 8 * 2 ^ 10 + 600 + 100 * 2 ^ 32)) } }
def pwStack : State := (box []).setThread 0x400003 { Thread.initial with sticky := 2 }

theorem witness_power_1 : 3 < 256 :=
  by decide
theorem witness_power_2 : (pwHot.cluster 3).power.capDue = none :=
  rfl
theorem witness_power_3 : ((pwTmax 595).cluster 3).power.capDue = some (595, BitVec.ofNat 64 (500 * 2 ^ 20 + 8 * 2 ^ 10 + 600 + 100 * 2 ^ 32)) ∧ 595 < (BitVec.ofNat 64 (500 * 2 ^ 20 + 8 * 2 ^ 10 + 600 + 100 * 2 ^ 32)).toNat % 1024 ∧ (BitVec.ofNat 64 (500 * 2 ^ 20 + 8 * 2 ^ 10 + 600 + 100 * 2 ^ 32)).toNat % 1024 < 595 + (BitVec.ofNat 64 (500 * 2 ^ 20 + 8 * 2 ^ 10 + 600 + 100 * 2 ^ 32) >>> 10).toNat % 1024 :=
  ⟨rfl, by decide, by decide⟩
theorem witness_power_4 : ((pwTmax 600).cluster 3).power.capDue = some (600, BitVec.ofNat 64 (500 * 2 ^ 20 + 8 * 2 ^ 10 + 600 + 100 * 2 ^ 32)) ∧ (BitVec.ofNat 64 (500 * 2 ^ 20 + 8 * 2 ^ 10 + 600 + 100 * 2 ^ 32)).toNat % 1024 ≤ 600 :=
  ⟨rfl, by decide⟩
theorem witness_power_5 : ((pwTmax 592).cluster 3).power.capDue = some (592, BitVec.ofNat 64 (500 * 2 ^ 20 + 8 * 2 ^ 10 + 600 + 100 * 2 ^ 32)) ∧ 592 < (BitVec.ofNat 64 (500 * 2 ^ 20 + 8 * 2 ^ 10 + 600 + 100 * 2 ^ 32)).toNat % 1024 ∧ 592 + (BitVec.ofNat 64 (500 * 2 ^ 20 + 8 * 2 ^ 10 + 600 + 100 * 2 ^ 32) >>> 10).toNat % 1024 ≤ (BitVec.ofNat 64 (500 * 2 ^ 20 + 8 * 2 ^ 10 + 600 + 100 * 2 ^ 32)).toNat % 1024 :=
  ⟨rfl, by decide, by decide⟩
theorem witness_power_6 : (pwHot.tile 49).raising = some 4 :=
  rfl
theorem witness_power_7 : 0 < 8 ∧ 1023 < 1024 :=
  ⟨by decide, by decide⟩

/-! ## Firmware -/

/-- Master 1's window holds a command with its arguments; host pages from 0x40000000 on are mapped. -/
def fwBox (op : Nat) (args : Vector Word 6) (f : Firmware → Firmware) : State :=
  let s := box []
  let w : Window := ⟨BitVec.ofNat 8 op, args, 7, true, 8, 9⟩
  { s with
    gtime := 1000, mem := ldMem, synced := true, host := { s.host with mapped := [(0x40000000, 64)] }
    fw := f { s.fw with windows := s.fw.windows.set 1 w, pending := [1], owner := some 1, reserved := [] } }
def fwArgs (a b c : Nat) : Vector Word 6 := ⟨#[BitVec.ofNat 64 a, BitVec.ofNat 64 b, BitVec.ofNat 64 c, 0, 0, 0], rfl⟩
def fwIdle : State := { box [] with host := { (box []).host with up := Vector.replicate 6 true } }
def fwClaim (owner : Option Nat) : State := fwBox 1 (fwArgs 0 0 0) ({ · with owner := owner })
def fwHand (m : Nat) : State := fwBox 2 (fwArgs m 0 0) id
def fwQuery (e : Nat) : State := fwBox 7 (fwArgs e 0 0) ({ · with launches := [gangLaunch .out none none, { gangLaunch .complete none none with epoch := 6, word := some 3 }], owner := none })
def fwAttest : State := fwBox 12 (fwArgs 0 0 0) id
def fwOther (op : Nat) : State := fwBox op (fwArgs 0 0 0) ({ · with owner := some 0 })

/-- Fields of a file. -/
def fileWith (n : Nat) (l : List (Nat × Nat × Nat)) : List Byte :=
  let m := l.foldl (fun (m : Memory) y => m.writeN y.1 (leBytes y.2.1 y.2.2)) []
  m.readN 0 n
/-- An image of one null section with a manifest: one cluster run of n clusters, no range, no root. -/
def smallImage (n : Nat) : List Byte := fileWith 0x200 [(0, 4, 0x004F5847), (4, 2, 1), (6, 2, 2), (8, 8, 2), (0x10, 8, 0x80), (0x18, 4, 1),
  (0x48, 8, 0xC0), (0x50, 8, 0x100), (0xC0, 4, 0x004D5847), (0xD2, 2, 1), (0xC0 + 0xC4, 2, n)]
/-- The same with a view of controller 12, which there is not. -/
def viewImage : List Byte := (((Memory.writeN [] 0 (smallImage 1)).writeN 0x38 (leBytes 8 0x1C0)).writeN 0x40 [1]).writeN 0x1E0 [12] |>.readN 0 0x200
/-- Range 1 of it is backed by host memory. -/
def fwImage (b : List Byte) : Image := ⟨3, b, [(1, BitVec.ofNat 64 (0x1F0 + 2 ^ 9 + 2 ^ 32))], [], []⟩
def fwLoad (b : List Byte) (keys : List (List Byte)) : State :=
  let s := fwBox 4 (fwArgs 64 b.length 0) ({ · with nextHandle := 3, keys := keys })
  { s with mem := Memory.writeN [] (s.hostKey 1 64) b }
/-- A virtual window of 32 KiB, a declared range of two pages and one of a faulting page, a section of contents, and clusters 0 and 1. -/
def bigImage : List Byte := fileWith 0x300 [(0, 4, 0x004F5847), (4, 2, 1), (6, 2, 2), (8, 8, 2), (0x10, 8, 0x80), (0x18, 4, 2),
  (0xC4, 2, 1), (0xC8, 8, 1), (0xD0, 8, 0x40), (0xD8, 8, 0x2F0), (0xE0, 8, 16), (0x2F0, 8, 0x1122334455667788), (0x2F8, 8, 0x99),
  (0x48, 8, 0x100), (0x50, 8, 0x180), (0x100, 4, 0x004D5847), (0x110, 2, 2), (0x112, 2, 1), (0x114, 2, 0),
  (0x148, 8, 0x7FFF + 2 ^ 63 + 0x1F * 2 ^ 56),
  (0x1C0, 8, 0x2000), (0x1C8, 8, 0x2000), (0x1E0, 8, 0x4000), (0x1E8, 8, 0x1000), (0x1F0, 1, 1), (0x204, 2, 2)]
def fwPolicy : State := fwBox 5 (fwArgs 3 1 0x9F0) ({ · with images := [fwImage bigImage] })
def fwKey : State := fwBox 5 (fwArgs 0 0xFFFF 64) id
def fwLaunch (b : List Byte) : State := fwBox 6 (fwArgs 3 64 9) ({ · with images := [fwImage b] })
def fwBare : State := fwLaunch (fileWith 0x100 [])
def fwPreempt (ph : Phase) (at_ arg : Nat) : State := fwBox 8 (fwArgs 5 at_ arg) ({ · with launches := [gangLaunch ph none none] })
def fwKill : State := fwBox 9 (fwArgs 5 0x180 0) ({ · with launches := [gangLaunch .running none none] })
def fwDump : State := fwBox 10 (fwArgs 5 64 6) ({ · with launches := [{ gangLaunch .running none none with records := [(1, [1, 2, 3])] }] })
def fwCheckpoint : State := fwBox 11 (fwArgs 5 1 4096) ({ · with launches := [{ gangLaunch .out none none with frames := [0x8000000] }] })
def fwUpdate : State := fwBox 13 (fwArgs 64 32 0) id
def fwAgreed : State := fwBox 12 (fwArgs 0 0 0) ({ · with exchange := ⟨3, [], [], []⟩ })
def fwResetLaunch : State := fwBox 3 (fwArgs 0 0 0) ({ · with launches := [{ gangLaunch .running none none with clusters := [] }] })
def fwReset : State := fwBox 3 (fwArgs 0 0 0) id
def fwCold : State := { fwBox 3 (fwArgs 0 0 0) id with cores := [(0, { Core.initial with killed := true, lasting := true }), (0x80, { Core.initial with killed := true })], mem := Memory.write ldMem 0x20000000000 77 }

theorem witness_windows_1 : 1 < 4 ∧ 5 < 6 ∧ (fwIdle.window 1).busy = false ∧ fwIdle.host.up.getD (1 / 2 : Nat) false = true :=
  ⟨by decide, by decide, by decide +kernel, by decide +kernel⟩
theorem witness_windows_2 : 1 < 4 ∧ 13 ∈ [1, 2, 3, 4, 6, 9, 10, 11, 12, 13] ∧ (fwIdle.window 1).busy = false ∧ fwIdle.host.up.getD (1 / 2 : Nat) false = true ∧ fwIdle.fw.pending = [] :=
  ⟨by decide, by decide, by decide +kernel, by decide +kernel, by decide +kernel⟩
theorem witness_windows_3 : 111 < 256 ∧ 111 % 64 < 48 ∧ 15 < 16 :=
  ⟨by decide, by decide, by decide⟩
theorem witness_windows_4 : 1 < 4 ∧ 2 ∈ [1, 2, 3, 4, 6, 9, 10, 11, 12, 13] ∧ (fwIdle.window 1).busy = false ∧ fwIdle.host.up.getD (1 / 2 : Nat) false = true ∧ fwIdle.fw.pending = [] :=
  ⟨by decide, by decide, by decide +kernel, by decide +kernel, by decide +kernel⟩
theorem witness_windows_5 : (fwClaim none).Orders 1 1 false 0 ∧ ((fwClaim none).fw.owner = none ∨ (fwClaim none).fw.owner = some 1) :=
  ⟨⟨by decide, rfl, rfl, by decide, rfl⟩, by decide +kernel⟩
theorem witness_windows_6 : (fwClaim (some 1)).Orders 1 1 false 0 ∧ ((fwClaim (some 1)).fw.owner = none ∨ (fwClaim (some 1)).fw.owner = some 1) :=
  ⟨⟨by decide, rfl, rfl, by decide, rfl⟩, by decide +kernel⟩
theorem witness_windows_7 : (fwClaim (some 3)).Orders 1 1 false 0 ∧ (fwClaim (some 3)).fw.owner = some 3 ∧ 3 ≠ 1 :=
  ⟨⟨by decide, rfl, rfl, by decide, rfl⟩, by decide +kernel, by decide⟩
theorem witness_windows_8 : (fwHand 3).Orders 1 2 true 1 :=
  ⟨by decide, rfl, rfl, by decide, rfl⟩
theorem witness_windows_9 : (fwHand 4).Orders 1 2 true 1 :=
  ⟨by decide, rfl, rfl, by decide, rfl⟩
theorem witness_windows_10 : (fwQuery 5).Orders 1 7 false 1 ∧ BitVec.toNat (((fwQuery 5).window 1).arg 0) < 65535 ∧ (fwQuery 5).launch (BitVec.ofNat 16 (BitVec.toNat (((fwQuery 5).window 1).arg 0))) = some (gangLaunch Phase.out none none) :=
  ⟨⟨by decide, rfl, rfl, by decide, rfl⟩, by decide +kernel, by decide +kernel⟩
theorem witness_windows_11 : (fwQuery 6).Orders 1 7 false 1 ∧ BitVec.toNat (((fwQuery 6).window 1).arg 0) < 65535 ∧ (fwQuery 6).launch (BitVec.ofNat 16 (BitVec.toNat (((fwQuery 6).window 1).arg 0))) = some (let __src := gangLaunch Phase.complete none none; Launch.mk __src.master (6 : BitVec 16) __src.slot __src.clusters __src.windows __src.dequeDom __src.anchorDom __src.dbg __src.supervisor __src.image __src.ranges __src.frames __src.packages __src.roots __src.joins __src.area __src.phase __src.tau __src.compAt __src.vector (some (3 : Word)) __src.records __src.dumpFull __src.chain __src.saved) :=
  ⟨⟨by decide, rfl, rfl, by decide, rfl⟩, by decide +kernel, by decide +kernel⟩
theorem witness_windows_12 : (fwQuery 7).Orders 1 7 false 1 ∧ BitVec.toNat (((fwQuery 7).window 1).arg 0) < 65535 ∧ (fwQuery 7).launch (BitVec.ofNat 16 (BitVec.toNat (((fwQuery 7).window 1).arg 0))) = none :=
  ⟨⟨by decide, rfl, rfl, by decide, rfl⟩, by decide +kernel, by decide +kernel⟩
theorem witness_windows_13 : (fwQuery 65535).Orders 1 7 false 1 ∧ ((fwQuery 65535).window 1).arg 0 = (65535 : Word) :=
  ⟨⟨by decide, rfl, rfl, by decide, rfl⟩, by decide +kernel⟩
theorem witness_windows_14 : fwAttest.Orders 1 12 false 0 :=
  ⟨by decide, rfl, rfl, by decide, rfl⟩
theorem witness_windows_15 : (13, Instr.update 1) ∈ [(2, Instr.handover 1), (3, Instr.reset 1), (4, Instr.load 1), (5, Instr.policy 1), (5, Instr.policyAddKey 1), (6, Instr.launch 1), (8, Instr.preempt 1), (8, Instr.preemptResume 1), (9, Instr.kill 1), (10, Instr.dump 1), (11, Instr.checkpoint 1), (13, Instr.update 1)] ∧ (Instr.update 1 = Instr.policy 1 → ((fwOther 13).window 1).arg 1 ≠ (65535 : Word)) ∧ (Instr.update 1 = Instr.policyAddKey 1 → ((fwOther 13).window 1).arg 1 = (65535 : Word)) ∧ (Instr.update 1 = Instr.preempt 1 → ((fwOther 13).window 1).arg 2 ≠ (1 : Word)) ∧ (Instr.update 1 = Instr.preemptResume 1 → ((fwOther 13).window 1).arg 2 = (1 : Word)) ∧ (fwOther 13).Orders 1 13 false 6 ∧ (fwOther 13).fw.owner ≠ some 1 :=
  ⟨by decide, by decide +kernel, by decide +kernel, by decide +kernel, by decide +kernel, ⟨by decide, rfl, rfl, by decide, rfl⟩, by decide +kernel⟩
theorem witness_windows_16 : (6, Instr.launch 1) ∈ [(2, Instr.handover 1), (3, Instr.reset 1), (4, Instr.load 1), (5, Instr.policy 1), (5, Instr.policyAddKey 1), (6, Instr.launch 1), (8, Instr.preempt 1), (8, Instr.preemptResume 1), (9, Instr.kill 1), (10, Instr.dump 1), (11, Instr.checkpoint 1), (13, Instr.update 1)] ∧ (Instr.launch 1 = Instr.policy 1 → ((fwOther 6).window 1).arg 1 ≠ (65535 : Word)) ∧ (Instr.launch 1 = Instr.policyAddKey 1 → ((fwOther 6).window 1).arg 1 = (65535 : Word)) ∧ (Instr.launch 1 = Instr.preempt 1 → ((fwOther 6).window 1).arg 2 ≠ (1 : Word)) ∧ (Instr.launch 1 = Instr.preemptResume 1 → ((fwOther 6).window 1).arg 2 = (1 : Word)) ∧ (fwOther 6).Orders 1 6 false 6 ∧ (fwOther 6).fw.owner ≠ some 1 :=
  ⟨by decide, by decide +kernel, by decide +kernel, by decide +kernel, by decide +kernel, ⟨by decide, rfl, rfl, by decide, rfl⟩, by decide +kernel⟩
theorem witness_windows_17 : (11, Instr.checkpoint 1) ∈ [(2, Instr.handover 1), (3, Instr.reset 1), (4, Instr.load 1), (5, Instr.policy 1), (5, Instr.policyAddKey 1), (6, Instr.launch 1), (8, Instr.preempt 1), (8, Instr.preemptResume 1), (9, Instr.kill 1), (10, Instr.dump 1), (11, Instr.checkpoint 1), (13, Instr.update 1)] ∧ (Instr.checkpoint 1 = Instr.policy 1 → ((fwOther 11).window 1).arg 1 ≠ (65535 : Word)) ∧ (Instr.checkpoint 1 = Instr.policyAddKey 1 → ((fwOther 11).window 1).arg 1 = (65535 : Word)) ∧ (Instr.checkpoint 1 = Instr.preempt 1 → ((fwOther 11).window 1).arg 2 ≠ (1 : Word)) ∧ (Instr.checkpoint 1 = Instr.preemptResume 1 → ((fwOther 11).window 1).arg 2 = (1 : Word)) ∧ (fwOther 11).Orders 1 11 false 6 ∧ (fwOther 11).fw.owner ≠ some 1 :=
  ⟨by decide, by decide +kernel, by decide +kernel, by decide +kernel, by decide +kernel, ⟨by decide, rfl, rfl, by decide, rfl⟩, by decide +kernel⟩
theorem witness_windows_18 : (8, Instr.preempt 1) ∈ [(2, Instr.handover 1), (3, Instr.reset 1), (4, Instr.load 1), (5, Instr.policy 1), (5, Instr.policyAddKey 1), (6, Instr.launch 1), (8, Instr.preempt 1), (8, Instr.preemptResume 1), (9, Instr.kill 1), (10, Instr.dump 1), (11, Instr.checkpoint 1), (13, Instr.update 1)] ∧ (Instr.preempt 1 = Instr.policy 1 → ((fwOther 8).window 1).arg 1 ≠ (65535 : Word)) ∧ (Instr.preempt 1 = Instr.policyAddKey 1 → ((fwOther 8).window 1).arg 1 = (65535 : Word)) ∧ (Instr.preempt 1 = Instr.preempt 1 → ((fwOther 8).window 1).arg 2 ≠ (1 : Word)) ∧ (Instr.preempt 1 = Instr.preemptResume 1 → ((fwOther 8).window 1).arg 2 = (1 : Word)) ∧ (fwOther 8).Orders 1 8 false 6 ∧ (fwOther 8).fw.owner ≠ some 1 :=
  ⟨by decide, by decide +kernel, by decide +kernel, by decide +kernel, by decide +kernel, ⟨by decide, rfl, rfl, by decide, rfl⟩, by decide +kernel⟩
theorem witness_owner_1 : Gxo.acceptable ((fwLoad (smallImage 1) []).hostBytes 1 (BitVec.toNat (((fwLoad (smallImage 1) []).window 1).arg 0)) (BitVec.toNat (((fwLoad (smallImage 1) []).window 1).arg 1))) = true ∧ Gxo.accepted (fwLoad (smallImage 1) []).fw.keys ((fwLoad (smallImage 1) []).hostBytes 1 (BitVec.toNat (((fwLoad (smallImage 1) []).window 1).arg 0)) (BitVec.toNat (((fwLoad (smallImage 1) []).window 1).arg 1))) = true ∧ (fwLoad (smallImage 1) []).viewTable (fwLoad (smallImage 1) []).fw.nextHandle ((fwLoad (smallImage 1) []).hostBytes 1 (BitVec.toNat (((fwLoad (smallImage 1) []).window 1).arg 0)) (BitVec.toNat (((fwLoad (smallImage 1) []).window 1).arg 1))) (Gxo.viewCount ((fwLoad (smallImage 1) []).hostBytes 1 (BitVec.toNat (((fwLoad (smallImage 1) []).window 1).arg 0)) (BitVec.toNat (((fwLoad (smallImage 1) []).window 1).arg 1)))) = Except.ok ([], []) :=
  ⟨by decide +kernel, by decide +kernel, okOf (by decide +kernel)⟩
theorem witness_owner_2 : Gxo.acceptable ((fwLoad bigImage []).hostBytes 1 (BitVec.toNat (((fwLoad bigImage []).window 1).arg 0)) (BitVec.toNat (((fwLoad bigImage []).window 1).arg 1))) = true ∧ Gxo.accepted (fwLoad bigImage []).fw.keys ((fwLoad bigImage []).hostBytes 1 (BitVec.toNat (((fwLoad bigImage []).window 1).arg 0)) (BitVec.toNat (((fwLoad bigImage []).window 1).arg 1))) = true ∧ (fwLoad bigImage []).viewTable (fwLoad bigImage []).fw.nextHandle ((fwLoad bigImage []).hostBytes 1 (BitVec.toNat (((fwLoad bigImage []).window 1).arg 0)) (BitVec.toNat (((fwLoad bigImage []).window 1).arg 1))) (Gxo.viewCount ((fwLoad bigImage []).hostBytes 1 (BitVec.toNat (((fwLoad bigImage []).window 1).arg 0)) (BitVec.toNat (((fwLoad bigImage []).window 1).arg 1)))) = Except.ok ([], []) :=
  ⟨by decide +kernel, by decide +kernel, okOf (by decide +kernel)⟩
theorem witness_owner_3 : Gxo.acceptable ((fwLoad (fileWith 256 []) []).hostBytes 1 (BitVec.toNat (((fwLoad (fileWith 256 []) []).window 1).arg 0)) (BitVec.toNat (((fwLoad (fileWith 256 []) []).window 1).arg 1))) = false :=
  by decide +kernel
theorem witness_owner_4 : Gxo.acceptable ((fwLoad (smallImage 1) [[(1 : Byte)]]).hostBytes 1 (BitVec.toNat (((fwLoad (smallImage 1) [[(1 : Byte)]]).window 1).arg 0)) (BitVec.toNat (((fwLoad (smallImage 1) [[(1 : Byte)]]).window 1).arg 1))) = true ∧ Gxo.accepted (fwLoad (smallImage 1) [[(1 : Byte)]]).fw.keys ((fwLoad (smallImage 1) [[(1 : Byte)]]).hostBytes 1 (BitVec.toNat (((fwLoad (smallImage 1) [[(1 : Byte)]]).window 1).arg 0)) (BitVec.toNat (((fwLoad (smallImage 1) [[(1 : Byte)]]).window 1).arg 1))) = false :=
  ⟨by decide +kernel, by decide +kernel⟩
theorem witness_owner_5 : Gxo.acceptable ((fwLoad viewImage []).hostBytes 1 (BitVec.toNat (((fwLoad viewImage []).window 1).arg 0)) (BitVec.toNat (((fwLoad viewImage []).window 1).arg 1))) = true ∧ Gxo.accepted (fwLoad viewImage []).fw.keys ((fwLoad viewImage []).hostBytes 1 (BitVec.toNat (((fwLoad viewImage []).window 1).arg 0)) (BitVec.toNat (((fwLoad viewImage []).window 1).arg 1))) = true ∧ (fwLoad viewImage []).viewTable (fwLoad viewImage []).fw.nextHandle ((fwLoad viewImage []).hostBytes 1 (BitVec.toNat (((fwLoad viewImage []).window 1).arg 0)) (BitVec.toNat (((fwLoad viewImage []).window 1).arg 1))) (Gxo.viewCount ((fwLoad viewImage []).hostBytes 1 (BitVec.toNat (((fwLoad viewImage []).window 1).arg 0)) (BitVec.toNat (((fwLoad viewImage []).window 1).arg 1)))) = Except.error 7 :=
  ⟨by decide +kernel, by decide +kernel, errOf (by decide +kernel)⟩
theorem witness_owner_6 : Gxo.acceptable ((fwLoad viewImage []).hostBytes 1 (BitVec.toNat (((fwLoad viewImage []).window 1).arg 0)) (BitVec.toNat (((fwLoad viewImage []).window 1).arg 1))) = true ∧ Gxo.accepted (fwLoad viewImage []).fw.keys ((fwLoad viewImage []).hostBytes 1 (BitVec.toNat (((fwLoad viewImage []).window 1).arg 0)) (BitVec.toNat (((fwLoad viewImage []).window 1).arg 1))) = true ∧ 0 < Gxo.viewCount ((fwLoad viewImage []).hostBytes 1 (BitVec.toNat (((fwLoad viewImage []).window 1).arg 0)) (BitVec.toNat (((fwLoad viewImage []).window 1).arg 1))) ∧ (viewEntryOf ((fwLoad viewImage []).hostBytes 1 (BitVec.toNat (((fwLoad viewImage []).window 1).arg 0)) (BitVec.toNat (((fwLoad viewImage []).window 1).arg 1))) 0).bad ((fwLoad viewImage []).hostBytes 1 (BitVec.toNat (((fwLoad viewImage []).window 1).arg 0)) (BitVec.toNat (((fwLoad viewImage []).window 1).arg 1))) = true :=
  ⟨by decide +kernel, by decide +kernel, by decide +kernel, by decide +kernel⟩
theorem witness_owner_7 : fwPolicy.Orders 1 5 true 3 ∧ List.find? (fun (i : Image) => i.handle == BitVec.toNat ((fwPolicy.window 1).arg 0)) fwPolicy.fw.images = some (fwImage bigImage) ∧ Gxo.hasManifest (fwImage bigImage).bytes = true ∧ BitVec.toNat ((fwPolicy.window 1).arg 1) < Gxo.nRange (fwImage bigImage).bytes ∧ recordOk ((fwPolicy.window 1).arg 2) (rangePages (Gxo.rangeOf (fwImage bigImage).bytes (BitVec.toNat ((fwPolicy.window 1).arg 1))).fst (Gxo.rangeOf (fwImage bigImage).bytes (BitVec.toNat ((fwPolicy.window 1).arg 1))).snd.fst) = true ∧ chlocal ((fwPolicy.window 1).arg 2) = false :=
  ⟨⟨by decide, rfl, rfl, by decide, rfl⟩, by decide +kernel, by decide +kernel, by decide +kernel, by decide +kernel, by decide +kernel⟩
theorem witness_owner_8 : fwKey.Orders 1 5 true 3 ∧ (fwKey.window 1).arg 0 = (0 : Word) ∧ BitVec.toNat ((fwKey.window 1).arg 1) = 65535 ∧ fwKey.hostReadable 1 (BitVec.toNat ((fwKey.window 1).arg 2)) 97 = true ∧ fwKey.fw.keys.length < 8 :=
  ⟨⟨by decide, rfl, rfl, by decide, rfl⟩, by decide +kernel, by decide +kernel, by decide +kernel, by decide +kernel⟩
theorem witness_owner_9 : fwBare.Orders 1 6 true 3 ∧ List.find? (fun (i : Image) => i.handle == BitVec.toNat ((fwBare.window 1).arg 0)) fwBare.fw.images = some (fwImage (fileWith 256 [])) ∧ BitVec.toNat ((fwBare.window 1).arg 1) % 64 = 0 ∧ 1 ≤ BitVec.toNat ((fwBare.window 1).arg 2) ∧ BitVec.toNat ((fwBare.window 1).arg 2) ≤ 15 ∧ fwBare.hostReadable 1 (BitVec.toNat ((fwBare.window 1).arg 1)) 16 = true ∧ Gxo.hasManifest (fwImage (fileWith 256 [])).bytes = false :=
  ⟨⟨by decide, rfl, rfl, by decide, rfl⟩, by decide +kernel, by decide +kernel, by decide +kernel, by decide +kernel, by decide +kernel, by decide +kernel⟩
theorem witness_owner_10 : (fwPreempt Phase.running 21000 0).Orders 1 8 true 3 ∧ BitVec.toNat (((fwPreempt Phase.running 21000 0).window 1).arg 0) < 2 ^ 16 ∧ (fwPreempt Phase.running 21000 0).launch (BitVec.ofNat 16 (BitVec.toNat (((fwPreempt Phase.running 21000 0).window 1).arg 0))) = some (gangLaunch Phase.running none none) ∧ (gangLaunch Phase.running none none).tau = none ∧ (gangLaunch Phase.running none none).phase = Phase.running ∧ BitVec.toNat (((fwPreempt Phase.running 21000 0).window 1).arg 2) = 0 ∧ (fwPreempt Phase.running 21000 0).gtime + 20000 ≤ BitVec.toNat (((fwPreempt Phase.running 21000 0).window 1).arg 1) :=
  ⟨⟨by decide, rfl, rfl, by decide, rfl⟩, by decide +kernel, by decide +kernel, rfl, rfl, by decide +kernel, by decide +kernel⟩
theorem witness_owner_11 : (fwPreempt Phase.out 21000 1).Orders 1 8 true 3 ∧ BitVec.toNat (((fwPreempt Phase.out 21000 1).window 1).arg 0) < 2 ^ 16 ∧ (fwPreempt Phase.out 21000 1).launch (BitVec.ofNat 16 (BitVec.toNat (((fwPreempt Phase.out 21000 1).window 1).arg 0))) = some (gangLaunch Phase.out none none) ∧ (gangLaunch Phase.out none none).tau = none ∧ (gangLaunch Phase.out none none).phase = Phase.out ∧ BitVec.toNat (((fwPreempt Phase.out 21000 1).window 1).arg 2) = 1 ∧ (fwPreempt Phase.out 21000 1).gtime + 20000 ≤ BitVec.toNat (((fwPreempt Phase.out 21000 1).window 1).arg 1) :=
  ⟨⟨by decide, rfl, rfl, by decide, rfl⟩, by decide +kernel, by decide +kernel, rfl, rfl, by decide +kernel, by decide +kernel⟩
theorem witness_owner_12 : (fwPreempt Phase.running 20999 0).Orders 1 8 true 3 ∧ BitVec.toNat (((fwPreempt Phase.running 20999 0).window 1).arg 0) < 2 ^ 16 ∧ (fwPreempt Phase.running 20999 0).launch (BitVec.ofNat 16 (BitVec.toNat (((fwPreempt Phase.running 20999 0).window 1).arg 0))) = some (gangLaunch Phase.running none none) ∧ (gangLaunch Phase.running none none).tau = none ∧ (gangLaunch Phase.running none none).phase = Phase.running ∧ BitVec.toNat (((fwPreempt Phase.running 20999 0).window 1).arg 2) = 0 ∧ BitVec.toNat (((fwPreempt Phase.running 20999 0).window 1).arg 1) < (fwPreempt Phase.running 20999 0).gtime + 20000 :=
  ⟨⟨by decide, rfl, rfl, by decide, rfl⟩, by decide +kernel, by decide +kernel, rfl, rfl, by decide +kernel, by decide +kernel⟩
theorem witness_owner_13 : fwKill.Orders 1 9 true 2 ∧ BitVec.toNat ((fwKill.window 1).arg 0) < 2 ^ 16 ∧ fwKill.launch (BitVec.ofNat 16 (BitVec.toNat ((fwKill.window 1).arg 0))) = some (gangLaunch Phase.running none none) ∧ (gangLaunch Phase.running none none).phase ≠ Phase.complete ∧ BitVec.toNat ((fwKill.window 1).arg 1) = fwKill.package * 2 ^ 24 + 384 ∧ 384 < 2 ^ 21 ∧ 384 % 128 = 0 ∧ (gangLaunch Phase.running none none).clusters.contains (fwKill.package, clusterOf 384) = true ∧ (fwKill.core 384).killed = false :=
  ⟨⟨by decide, rfl, rfl, by decide, rfl⟩, by decide +kernel, by decide +kernel, by decide, by decide +kernel, by decide, rfl, by decide +kernel, by decide +kernel⟩
theorem witness_owner_14 : fwDump.Orders 1 10 true 3 ∧ BitVec.toNat ((fwDump.window 1).arg 0) < 2 ^ 16 ∧ fwDump.launch (BitVec.ofNat 16 (BitVec.toNat ((fwDump.window 1).arg 0))) = some (let __src := gangLaunch Phase.running none none; Launch.mk __src.master __src.epoch __src.slot __src.clusters __src.windows __src.dequeDom __src.anchorDom __src.dbg __src.supervisor __src.image __src.ranges __src.frames __src.packages __src.roots __src.joins __src.area __src.phase __src.tau __src.compAt __src.vector __src.word [(1, [(1 : Byte), (2 : Byte), (3 : Byte)])] __src.dumpFull __src.chain __src.saved) ∧ fwDump.Canonical ∧ fwDump.hostReadable 1 (BitVec.toNat ((fwDump.window 1).arg 1)) (List.take (BitVec.toNat ((fwDump.window 1).arg 2)) (let __src := gangLaunch Phase.running none none; Launch.mk __src.master __src.epoch __src.slot __src.clusters __src.windows __src.dequeDom __src.anchorDom __src.dbg __src.supervisor __src.image __src.ranges __src.frames __src.packages __src.roots __src.joins __src.area __src.phase __src.tau __src.compAt __src.vector __src.word [(1, [(1 : Byte), (2 : Byte), (3 : Byte)])] __src.dumpFull __src.chain __src.saved).dumpBytes).length = true :=
  ⟨⟨by decide, rfl, rfl, by decide, rfl⟩, by decide +kernel, by decide +kernel, canonical (by decide +kernel) (by decide +kernel), by decide +kernel⟩
theorem witness_owner_15 : fwCheckpoint.Orders 1 11 true 3 ∧ BitVec.toNat ((fwCheckpoint.window 1).arg 0) < 2 ^ 16 ∧ fwCheckpoint.launch (BitVec.ofNat 16 (BitVec.toNat ((fwCheckpoint.window 1).arg 0))) = some (let __src := gangLaunch Phase.out none none; Launch.mk __src.master __src.epoch __src.slot __src.clusters __src.windows __src.dequeDom __src.anchorDom __src.dbg __src.supervisor __src.image __src.ranges [134217728] __src.packages __src.roots __src.joins __src.area __src.phase __src.tau __src.compAt __src.vector __src.word __src.records __src.dumpFull __src.chain __src.saved) ∧ (let __src := gangLaunch Phase.out none none; Launch.mk __src.master __src.epoch __src.slot __src.clusters __src.windows __src.dequeDom __src.anchorDom __src.dbg __src.supervisor __src.image __src.ranges [134217728] __src.packages __src.roots __src.joins __src.area __src.phase __src.tau __src.compAt __src.vector __src.word __src.records __src.dumpFull __src.chain __src.saved).phase = Phase.out ∧ (let __src := gangLaunch Phase.out none none; Launch.mk __src.master __src.epoch __src.slot __src.clusters __src.windows __src.dequeDom __src.anchorDom __src.dbg __src.supervisor __src.image __src.ranges [134217728] __src.packages __src.roots __src.joins __src.area __src.phase __src.tau __src.compAt __src.vector __src.word __src.records __src.dumpFull __src.chain __src.saved).frames = [134217728] ∧ BitVec.toNat ((fwCheckpoint.window 1).arg 1) = 1 ∧ fwCheckpoint.Canonical ∧ fwCheckpoint.hostReadable 1 (BitVec.toNat ((fwCheckpoint.window 1).arg 2)) 4096 = true :=
  ⟨⟨by decide, rfl, rfl, by decide, rfl⟩, by decide +kernel, by decide +kernel, rfl, rfl, by decide +kernel, canonical (by decide +kernel) (by decide +kernel), by decide +kernel⟩
theorem witness_owner_16 : fwUpdate.Orders 1 13 true 2 ∧ fwUpdate.hostReadable 1 (BitVec.toNat ((fwUpdate.window 1).arg 0)) (BitVec.toNat ((fwUpdate.window 1).arg 1)) = true :=
  ⟨⟨by decide, rfl, rfl, by decide, rfl⟩, by decide +kernel⟩
theorem witness_owner_17 : fwReset.Orders 1 3 true 0 ∧ fwReset.fw.launches = [] ∧ fwReset.cells = [] ∧ fwReset.host.held = [] :=
  ⟨⟨by decide, rfl, rfl, by decide, rfl⟩, by decide +kernel, by decide +kernel, by decide +kernel⟩
theorem witness_owner_18 : fwResetLaunch.Orders 1 3 true 0 ∧ fwResetLaunch.Canonical ∧ (fwResetLaunch.answer 1 (Reply.mk 0 none none)).killAll.fw.launches = [let __src := gangLaunch Phase.running none none; Launch.mk __src.master __src.epoch __src.slot [] __src.windows __src.dequeDom __src.anchorDom __src.dbg __src.supervisor __src.image __src.ranges __src.frames __src.packages __src.roots __src.joins __src.area __src.phase __src.tau __src.compAt __src.vector __src.word __src.records __src.dumpFull __src.chain __src.saved] ∧ (let __src := gangLaunch Phase.running none none; Launch.mk __src.master __src.epoch __src.slot [] __src.windows __src.dequeDom __src.anchorDom __src.dbg __src.supervisor __src.image __src.ranges __src.frames __src.packages __src.roots __src.joins __src.area __src.phase __src.tau __src.compAt __src.vector __src.word __src.records __src.dumpFull __src.chain __src.saved).phase ≠ Phase.complete :=
  ⟨⟨by decide, rfl, rfl, by decide, rfl⟩, canonical (by decide +kernel) (by decide +kernel), by decide +kernel, by decide⟩
theorem witness_owner_19 : fwCold.mem.wf = true :=
  by decide +kernel

theorem witness_owner_launch_frames (root : Nat) : ∀ f,
    State.frameTaken ((fwLaunch (smallImage 1)).setPage root zeroPage) f = false ∧ State.framePlaced ((fwLaunch (smallImage 1)).setPage root zeroPage) f = false :=
  fun _ => ⟨rfl, rfl⟩

theorem witness_owner_launch_ok : ∃ e s', (fwLaunch (smallImage 1)).launchImage 1 (fwImage (smallImage 1)) 64 9 = .ok (e, s') := by
  obtain ⟨root, hr⟩ := Option.isSome_iff_exists.1 (takeFrame_isSome (s := fwLaunch (smallImage 1)) (e := (fwLaunch (smallImage 1)).nextEpoch.toNat)
    (taken := []) (fun _ => ⟨rfl, rfl⟩) (by decide))
  obtain ⟨all, ha⟩ := Option.isSome_iff_exists.1 (takeFrames_isSome (s := (fwLaunch (smallImage 1)).setPage ((fwLaunch (smallImage 1)).pageKey root) zeroPage)
    (e := (fwLaunch (smallImage 1)).nextEpoch.toNat) (n := areaFrames 1) (taken := [root]) (witness_owner_launch_frames _) (Nat.le_of_ble_eq_true rfl))
  have man : Gxo.hasManifest (fwImage (smallImage 1)).bytes = true := by decide +kernel
  have set : clusterSet (fwImage (smallImage 1)).bytes (fwLaunch (smallImage 1)).package = [(0, 0)] := by decide +kernel
  have fault : (fwLaunch (smallImage 1)).setFault [(0, 0)] = none := by decide +kernel
  have slot : (fwLaunch (smallImage 1)).freeSlot [(0, 0)] = some 1 := by decide +kernel
  have some : (windowSet (fwImage (smallImage 1)).bytes (fwLaunch (smallImage 1)).nextEpoch.toNat).isSome = true := by decide +kernel
  have none : rangesOf (fwImage (smallImage 1)).bytes (fwImage (smallImage 1))
      ((windowSet (fwImage (smallImage 1)).bytes (fwLaunch (smallImage 1)).nextEpoch.toNat).getD (Vector.replicate 8 0)) = [] := by decide +kernel
  obtain ⟨w, hw⟩ := Option.isSome_iff_exists.1 some
  rw [hw] at none
  have ours : (((fwLaunch (smallImage 1)).setPage ((fwLaunch (smallImage 1)).pageKey root) zeroPage).ours [(0, 0)]).length = 1 := rfl
  generalize hs : fwLaunch (smallImage 1) = s at *
  generalize fwImage (smallImage 1) = im at *
  simp only [Option.getD_some] at none
  refine ⟨s.nextEpoch, ?_⟩
  unfold State.launchImage
  simp only [man, Bool.not_true, Bool.false_eq_true, if_false, set, fault, slot, hw, none, Option.elim_some, State.backings, hr, pagesOf,
    List.zipIdx_nil, List.flatMap_nil, State.mapPages, ours, ha, bind, Except.bind]
  exact ⟨_, rfl⟩

theorem witness_owner_launch : (fwLaunch (smallImage 1)).Orders 1 6 true 3
    ∧ (fwLaunch (smallImage 1)).fw.images.find? (fun i => i.handle == (((fwLaunch (smallImage 1)).window 1).arg 0).toNat) = some (fwImage (smallImage 1))
    ∧ (((fwLaunch (smallImage 1)).window 1).arg 1).toNat % 64 = 0 ∧ 1 ≤ (((fwLaunch (smallImage 1)).window 1).arg 2).toNat
    ∧ (((fwLaunch (smallImage 1)).window 1).arg 2).toNat ≤ 15
    ∧ (fwLaunch (smallImage 1)).hostReadable 1 (((fwLaunch (smallImage 1)).window 1).arg 1).toNat 16 = true
    ∧ ∃ e s', (fwLaunch (smallImage 1)).launchImage 1 (fwImage (smallImage 1)) (((fwLaunch (smallImage 1)).window 1).arg 1).toNat
        (((fwLaunch (smallImage 1)).window 1).arg 2).toNat = .ok (e, s') :=
  ⟨⟨by decide, rfl, rfl, by decide, rfl⟩, rfl, by decide, by decide, by decide, by decide +kernel, witness_owner_launch_ok⟩

theorem witness_spdm_version : 4 ≤ [(0x10 : Byte), 0x84, 0, 0].length ∧ [(0x10 : Byte), 0x84, 0, 0].getD 1 0 = 0x84 :=
  ⟨by decide, rfl⟩
theorem witness_spdm_early : 4 ≤ [(0x12 : Byte), 0x81, 0, 0].length ∧ [(0x12 : Byte), 0x81, 0, 0].getD 0 0 = 0x12
    ∧ [(0x12 : Byte), 0x81, 0, 0].getD 1 0 ∈ [(0x81 : Byte), 0x82, 0x83, 0xE0] ∧ fwAttest.fw.exchange.level < 3
    ∧ ([(0x12 : Byte), 0x81, 0, 0].getD 1 0 = 0xE0 → [(0x12 : Byte), 0x81, 0, 0].getD 3 0 = 1) :=
  ⟨by decide, rfl, by decide, by decide, fun h => absurd h (by decide)⟩
theorem witness_spdm_certificate : [(0x12 : Byte), 0x82, 0, 0, 0, 0, 5, 0] = [0x12, 0x82, 0, 0] ++ packed 2 [0, 5] ∧ 0 < 0x10000 ∧ 5 < 0x10000
    ∧ 0 ≤ Config.certChain.length ∧ 3 ≤ fwAgreed.fw.exchange.level :=
  ⟨rfl, by decide, by decide, Nat.zero_le _, by decide⟩

/-! ## Single steps, with results worked out from the spec -/

/-- The tile's bytes 81 82 03 84 from 16 on, little-endian (R115, R197): sign- and zero-extended, and the half-word at 18. -/
theorem test_loads : got (.ldw 3 4 1 0) ldBox (·.val 3) = some 0xFFFFFFFF84038281 ∧ got (.ldwu 3 4 1 0) ldBox (·.val 3) = some 0x84038281
    ∧ got (.ldh 3 4 1 1) ldBox (·.val 3) = some 0xFFFFFFFFFFFF8403 := by decide +kernel
/-- Through the page's translation, from the home: bytes 91 92 00 00 (R164). -/
theorem test_load_home : got (.ldw 3 4 0 0) ldBox (·.val 3) = some 0x9291 := by decide +kernel
theorem test_store : got (.sth 3 4 1 1) ldBox (fun s => ((s.core 0).tile.read 17, (s.core 0).tile.read 18, (s.core 0).tile.read 19, (s.core 0).tile.read 20))
    = some (0x82, 0x88, 0x77, 5) := by decide +kernel
/-- ALIGN, with the address in tval (R115, R140). -/
theorem test_misaligned : got (.ldw 3 5 1 0) (ldBox.setThread 0 (ldBox.now.setReg 5 (Reg.of 17))) (fun s => (s.now.tval, s.now.epc, s.now.pc, s.val 3))
    = some (0x2000000000000011, 0, 0x100, 0x1122334455667788) := by decide +kernel
/-- The old dword comes back, the sum is in the tile (R199): 0x81 + 8. -/
theorem test_aadd : got (.aadd 3 4 14 1 1 0 0) ldBox (fun s => (s.val 3, (s.core 0).tile.read 16)) = some (0x8807860584038281, 0x89) := by decide +kernel
/-- A comparand that differs: nothing is written. -/
theorem test_acas_differs : got (.acas 5 4 14 1 1 0 0) ldBox (fun s => (s.val 5, (s.core 0).tile.read 16)) = some (0x8807860584038281, 0x81) := by decide +kernel
/-- A release writes the dirty bytes of an owned word back, and no other (R164): mask 0101. -/
theorem test_release : got .fenceRel fenceBox (fun s => (s.mem.read (page + 16), s.mem.read (page + 17), s.mem.read (page + 18))) = some (0x84, 0x92, 0x22) := by decide +kernel
def vecTwo (a b : VecReg) : State := (box []).setThread 0 { thr [] with vec := (Thread.initial.vec.set 1 a).set 2 b, finished := true }
/-- Lane 0 wraps without a carry into lane 1; a saturating byte lane stays at 127 (R225). -/
theorem test_vadd : got (.vadd 3 1 2 0 0 2 0) (vecTwo 0xFFFFFFFF 1) (fun s => s.now.vecReg 3) = some 0
    ∧ got (.vadds 3 1 2 0 0 0) (vecTwo 0x7F 1) (fun s => s.now.vecReg 3) = some 0x7F := by decide +kernel
/-- A register whose residue is wrong: the load traps with RESIDUE, naming the register (R138). -/
def ldBad : State := ldWild.setThread 0 (ldWild.now.setReg 4 ⟨0xFFFFFFFF0, 7⟩)
theorem test_residue_trap : got (.ldb 3 4 0 1) ldBad (fun s => (s.now.tval, s.now.trapm)) = some (4, true)
    ∧ got (.stb 3 4 0 1) ldBad (fun s => (s.now.tval, s.now.trapm)) = some (4, true) := by decide +kernel
theorem witness_load_traps_residue : ldBad.Handles ∧ ldBad.Issues .loadStore [3, 4] ∧ ¬ ldBad.Sound (4 : BitVec 4) ∧ ldBad.Sound (3 : BitVec 4) :=
  ⟨⟨rfl, rfl⟩, issues rfl, by unfold State.Sound; decide, rfl⟩
theorem witness_loads_from_memory_room : ldOwn.Fits ∧ ldOwn.Mine (page + 16) 4 := ⟨by unfold State.Fits; decide, mine rfl⟩
/-- A package without power does nothing until a cold reset (R356). -/
theorem test_power_off : ∃ u, exec .powerOff fwCold = .next u ∧ step u = .fault .powerOff := ⟨_, rfl, rfl⟩
theorem witness_power_stack : pwStack.threads.any (fun (y : Nat × Thread) => y.1 == ventThread (0 * 64 + 0) 3) = true ∧ (pwStack.core (ventThread (0 * 64 + 0) 0)).removed = 0 := by decide +kernel

/-- R370: status reads CODE in bits 15:0, BUSY in bit 16 and OWNER in bit 17. -/
theorem test_bar_status : State.readBar ((State.reset.setWindow 1 { Window.initial with busy := true, code := 3 })) 0x1038 = 0x10003 := by decide

/-- R370: cmd reads GO as 1 while BUSY, and a byte that no register names reads as zero. -/
theorem test_bar_cmd :
    State.readBar (State.reset.setWindow 1 { Window.initial with busy := true, opcode := 6 }) 0x1000 = 0x106
    ∧ State.readBar State.reset 0x1050 = 0 := by decide

end Sys2Proof.Tests
end

section
/-! PROOFS.
The command windows: how a write at BAR0 reaches a window, how a command is refused or answered, and what the SPDM responder reply
(R370 to R373, R377).
-/

namespace Sys2Proof.Machine

/-! ## Windows and answers -/

/-- What the command windows leave alone: memory, threads, and firmware's launches, images and keys. -/
def State.SameDevice (s u : State) : Prop :=
  u.mem = s.mem ∧ u.threads = s.threads ∧ u.fw.launches = s.fw.launches ∧ u.fw.images = s.fw.images ∧ u.fw.keys = s.fw.keys

theorem State.SameDevice.refl (s : State) : s.SameDevice s := ⟨rfl, rfl, rfl, rfl, rfl⟩

/-- The device claimed by a master, or by none. -/
def State.withOwner (s : State) (o : Option Nat) : State := { s with fw := { s.fw with owner := o } }

theorem State.withOwner_same {s : State} {o : Option Nat} (same : s.fw.owner = o) : s.withOwner o = s := by
  subst same
  rfl

@[simp] theorem State.setWindow_window_same (s : State) {m : Nat} (h : m < 4) (w : Window) : (s.setWindow m w).window m = w := by
  simp [State.window, State.setWindow, Vector.getD, h]

theorem State.setWindow_window_other (s : State) {m n : Nat} (h : n ≠ m) (w : Window) : (s.setWindow m w).window n = s.window n := by
  simp [State.window, State.setWindow, Vector.getD, Ne.symm h]

@[simp] theorem State.postOnce_fw (s : State) (h : Happening) : (s.postOnce h).fw = s.fw := by
  unfold State.postOnce
  split <;> rfl

theorem State.postOnce_sameDevice (s : State) (h : Happening) : s.SameDevice (s.postOnce h) := by
  unfold State.postOnce
  split <;> exact .refl s

theorem State.mem_postOnce (s : State) (h : Happening) : h ∈ (s.postOnce h).agenda := by
  unfold State.postOnce
  split
  · rename_i held
    exact List.contains_iff_mem.1 held
  · simp

theorem State.nextCommand_idle {s : State} (idle : s.fw.pending = []) : ∀ n, s.nextCommand n = s
  | 0 => rfl
  | n + 1 => by
    unfold State.nextCommand
    rw [idle]

theorem State.nextCommand_posts {s : State} {m : Nat} {rest : List Nat} {h : Happening} (head : s.fw.pending = m :: rest)
    (known : (s.window m).command m = some h) (n : Nat) : s.nextCommand (n + 1) = s.postOnce h := by
  unfold State.nextCommand
  simp only [head, known]

/-- With one command waiting, nothing follows its answer. -/
theorem State.finishCommand_alone {s : State} {m : Nat} (alone : s.fw.pending = [m]) (r : Reply) : s.finishCommand m r = s.answer m r :=
  State.nextCommand_idle (by simp [State.answer, State.setWindow, alone]) 4

/-- The end of a command that has changed nothing but the owner. -/
theorem State.finishCommand_outcome {s : State} {m : Nat} (master : m < 4) (alone : s.fw.pending = [m]) (o : Option Nat) (r : Reply) :
    ∃ u, Host.Outcome.next ((s.withOwner o).finishCommand m r) = (.next u : Host.Outcome State Fault Refusal)
      ∧ s.SameDevice u ∧ s.answered u m r.code r.result0 r.result1 ∧ u.fw.owner = o := by
  rw [State.finishCommand_alone (s := s.withOwner o) alone]
  refine ⟨_, rfl, .refl s, ⟨?_, rfl, ?_, fun n other => ?_⟩, rfl⟩
  · exact State.setWindow_window_same _ master _
  · simp [State.answer, State.setWindow, State.withOwner, alone]
  · exact State.setWindow_window_other _ other _

/-! ## Commands that run, and commands of another master than the owner -/

theorem State.command_of_orders {s : State} {m op named : Nat} {owner : Bool} (o : s.Orders m op owner named) {act : Window → Reply × State}
    {form : Window → Bool} (formed : form (s.window m) = true) :
    s.command m op owner named act form = (act (s.window m)).2.finishCommand m (act (s.window m)).1 := by
  unfold State.command
  have owned : ¬ (owner && s.fw.owner != some m) = true := by
    cases owner with
    | false => simp
    | true => simp [o.owned rfl]
  rw [if_neg (by simp [o.alone, o.opcode, formed]), if_neg owned, if_neg (by simp [o.zeros])]

/-- A command that runs and changes nothing but the owner. -/
theorem State.command_outcome {s : State} {m op named : Nat} {owner : Bool} (o : s.Orders m op owner named) {act : Window → Reply × State}
    {form : Window → Bool} (formed : form (s.window m) = true) {r : Reply} {next : Option Nat} (does : act (s.window m) = (r, s.withOwner next)) :
    ∃ u, Host.Outcome.next (s.command m op owner named act form) = (.next u : Host.Outcome State Fault Refusal)
      ∧ s.SameDevice u ∧ s.answered u m r.code r.result0 r.result1 ∧ u.fw.owner = next := by
  rw [State.command_of_orders o formed, does]
  exact State.finishCommand_outcome o.master o.alone next r

theorem State.command_notOwner {s : State} {m op named six : Nat} (o : s.Orders m op false six) (other : s.fw.owner ≠ some m)
    {act : Window → Reply × State} {form : Window → Bool} (formed : form (s.window m) = true) :
    s.command m op true named act form = s.finishCommand m { code := Code.notOwner } := by
  unfold State.command
  rw [if_neg (by simp [o.alone, o.opcode, formed]), if_pos (by simp [other])]

theorem State.resetCommand_notOwner {s : State} {m six : Nat} (o : s.Orders m 3 false six) (other : s.fw.owner ≠ some m) :
    s.resetCommand m = s.finishCommand m { code := Code.notOwner } := by
  unfold State.resetCommand
  rw [if_neg (by simp [o.alone, o.opcode]), if_pos other]

/-- What every command that is the owner's answers to another master. -/
theorem State.notOwner_outcome {s : State} {m op six : Nat} (o : s.Orders m op false six) {i : Instr}
    (refused : exec i s = .next (s.finishCommand m { code := Code.notOwner })) :
    ∃ u, exec i s = .next u ∧ s.SameDevice u ∧ s.answered u m 2 none none ∧ u.fw.owner = s.fw.owner := by
  rw [refused]
  exact State.finishCommand_outcome o.master o.alone s.fw.owner { code := Code.notOwner }

/-! ## The commands of any master, and HANDOVER (R373, R377) -/

theorem claim_outcome {s : State} {m : Nat} (o : s.Orders m 1 false 0) (free : s.fw.owner = none ∨ s.fw.owner = some m) :
    ∃ u, exec (.claimCommand m) s = .next u ∧ s.SameDevice u ∧ s.answered u m 0 none none ∧ u.fw.owner = some m := by
  refine State.command_outcome o rfl (r := { code := Code.ok }) ?_
  unfold State.claimDevice
  rcases free with unclaimed | mine
  · simp only [unclaimed]
    rfl
  · simp only [State.withOwner_same mine, mine, if_true]
    rfl

theorem claim_owned {s : State} {m n : Nat} (o : s.Orders m 1 false 0) (owned : s.fw.owner = some n) (other : n ≠ m) :
    ∃ u, exec (.claimCommand m) s = .next u ∧ s.SameDevice u ∧ s.answered u m 3 none none ∧ u.fw.owner = some n := by
  refine State.command_outcome o rfl (r := { code := Code.owned }) ?_
  simp only [State.claimDevice, owned, if_neg other, State.withOwner_same owned]
  rfl

theorem handover_outcome {s : State} {m : Nat} (o : s.Orders m 2 true 1) :
    ∃ u, exec (.handover m) s = .next u ∧ s.SameDevice u
      ∧ if ((s.window m).arg 0).toNat < 4 ∧ ((s.window m).arg 0).toNat ≠ m then s.answered u m 0 none none ∧ u.fw.owner = some ((s.window m).arg 0).toNat
        else s.answered u m 4 none none ∧ u.fw.owner = some m := by
  by_cases fits : ((s.window m).arg 0).toNat < 4 ∧ ((s.window m).arg 0).toNat ≠ m
  · simp only [if_pos fits]
    refine State.command_outcome o rfl (r := { code := Code.ok }) ?_
    unfold State.handover
    rw [if_neg (by omega)]
    rfl
  · simp only [if_neg fits]
    refine State.command_outcome o rfl (r := { code := Code.badArg }) ?_
    unfold State.handover
    rw [if_pos (by omega), State.withOwner_same (o.owned rfl)]
    rfl

theorem query_outcome {s : State} {m : Nat} (o : s.Orders m 7 false 1) (named : ((s.window m).arg 0).toNat < 0xFFFF) {r : Reply}
    (reply : s.query (s.window m) = (r, s)) :
    ∃ u, exec (.query m) s = .next u ∧ s.SameDevice u ∧ s.answered u m r.code r.result0 r.result1 := by
  have formed : ((s.window m).arg 0 != 0xFFFF) = true := by
    rw [bne_iff_ne]
    intro all
    rw [all] at named
    exact absurd named (by decide)
  obtain ⟨u, runs, same, answers, -⟩ := State.command_outcome o (form := fun w => w.arg 0 != 0xFFFF) formed (next := s.fw.owner) reply
  exact ⟨u, runs, same, answers⟩

theorem query_some {s : State} {w : Window} {l : Launch} (named : (w.arg 0).toNat < 0xFFFF) (found : s.launch (BitVec.ofNat 16 (w.arg 0).toNat) = some l) :
    s.query w = ({ code := Code.ok, result0 := l.phase.code, result1 := s.wordSoFar l }, s) := by
  unfold State.query
  simp only [found, show (w.arg 0).toNat < 2 ^ 16 by omega, decide_true]

theorem query_none {s : State} {w : Window} (unknown : s.launch (BitVec.ofNat 16 (w.arg 0).toNat) = none) :
    s.query w = ({ code := Code.ok, result0 := some 0, result1 := some 0 }, s) := by
  unfold State.query
  simp only [unknown]

theorem queryDevice_outcome {s : State} {m : Nat} (o : s.Orders m 7 false 1) (all : (s.window m).arg 0 = 0xFFFF) :
    ∃ u, exec (.queryDevice m) s = .next u ∧ s.SameDevice u
      ∧ s.answered u m 0 (some (BitVec.ofNat 64 (s.fw.launches.filter fun l => l.phase != .complete).length))
          (some (match s.fw.owner with | some n => BitVec.ofNat 64 n | none => BitVec.allOnes 64)) := by
  obtain ⟨u, runs, same, answers, -⟩ :=
    State.command_outcome o (act := fun _ => s.queryDevice) (form := fun w => w.arg 0 == 0xFFFF) (by simp [all]) (next := s.fw.owner) rfl
  exact ⟨u, runs, same, answers⟩

theorem attest_outcome {s : State} {m : Nat} (o : s.Orders m 12 false 0) :
    ∃ u, exec (.attest m) s = .next u ∧ s.SameDevice u ∧ s.answered u m 0 (some Config.doeOffset) none := by
  obtain ⟨u, runs, same, answers, -⟩ := State.command_outcome o (act := fun _ => ({ code := Code.ok, result0 := some Config.doeOffset }, s))
    (form := fun _ => true) rfl (next := s.fw.owner) rfl
  exact ⟨u, runs, same, answers⟩

/-- Each command of the list is `State.command` under its opcode with the owner's check, RESET apart: it has the check of its own. -/
theorem exec_notOwner {s : State} {m op : Nat} {i : Instr} (listed : (op, i) ∈ [(2, Instr.handover m), (3, .reset m), (4, .load m), (5, .policy m),
      (5, .policyAddKey m), (6, .launch m), (8, .preempt m), (8, .preemptResume m), (9, .kill m), (10, .dump m), (11, .checkpoint m), (13, .update m)])
    (policy : i = .policy m → (s.window m).arg 1 ≠ 0xFFFF)
    (addKey : i = .policyAddKey m → (s.window m).arg 1 = 0xFFFF) (preempt : i = .preempt m → (s.window m).arg 2 ≠ 1)
    (resume : i = .preemptResume m → (s.window m).arg 2 = 1) (o : s.Orders m op false 6) (other : s.fw.owner ≠ some m) :
    exec i s = .next (s.finishCommand m { code := Code.notOwner }) := by
  simp only [List.mem_cons, List.not_mem_nil, or_false, Prod.mk.injEq] at listed
  rcases listed with ⟨rfl, rfl⟩ | ⟨rfl, rfl⟩ | ⟨rfl, rfl⟩ | ⟨rfl, rfl⟩ | ⟨rfl, rfl⟩ | ⟨rfl, rfl⟩ | ⟨rfl, rfl⟩ | ⟨rfl, rfl⟩ | ⟨rfl, rfl⟩
    | ⟨rfl, rfl⟩ | ⟨rfl, rfl⟩ | ⟨rfl, rfl⟩
  · exact congrArg _ (State.command_notOwner o other rfl)
  · exact congrArg _ (State.resetCommand_notOwner o other)
  · exact congrArg _ (State.command_notOwner o other rfl)
  · exact congrArg _ (State.command_notOwner o other (by simpa using policy rfl))
  · exact congrArg _ (State.command_notOwner o other (by simpa using addKey rfl))
  · exact congrArg _ (State.command_notOwner o other rfl)
  · exact congrArg _ (State.command_notOwner o other (by simpa using preempt rfl))
  · exact congrArg _ (State.command_notOwner o other (by simpa using resume rfl))
  · exact congrArg _ (State.command_notOwner o other rfl)
  · exact congrArg _ (State.command_notOwner o other rfl)
  · exact congrArg _ (State.command_notOwner o other rfl)
  · exact congrArg _ (State.command_notOwner o other rfl)

/-! ## Writes at BAR0, and to a pager's root registers (R301, R370) -/

theorem State.registerWrite_bar (s : State) (off value : Nat) : s.registerWrite (2 ^ 48 + off) value = s.writeBar off (BitVec.ofNat 64 value) := by
  unfold State.registerWrite barBase
  rw [if_pos (by omega), Nat.add_sub_cancel_left]

theorem State.writeBar_arg {s : State} {m n : Nat} (master : m < 4) (arg : n < 6) (idle : (s.window m).busy = false)
    (link : s.host.up.getD (m / 2) false = true) (x : Word) :
    s.writeBar (m * 0x1000 + 8 + 8 * n) x = s.setWindow m { s.window m with args := (s.window m).args.setIfInBounds n x } := by
  have window : (m * 0x1000 + 8 + 8 * n) / 0x1000 = m := by omega
  have place : (m * 0x1000 + 8 + 8 * n) % 0x1000 = 8 + 8 * n := by omega
  unfold State.writeBar
  simp only [window, place]
  rw [if_neg (by simp [idle, link, master]), if_neg (by omega), if_pos (by omega), show (8 + 8 * n) / 8 - 1 = n by omega]

theorem registerWrite_next {s t : State} {addr value : Nat} (written : s.registerWrite addr value = t) :
    exec (.registerWrite addr value) s = .next t := congrArg _ written

/-- Master m's window with GO written under an opcode. -/
def Window.withGo (w : Window) (op : Nat) : Window := { w with opcode := BitVec.ofNat 8 op, busy := true }

/-- Master m's GO taken while no command waits. -/
def State.withGo (s : State) (m op : Nat) : State :=
  let t := s.setWindow m ((s.window m).withGo op)
  { t with fw := { t.fw with pending := [m] } }

theorem State.withGo_window (s : State) {m : Nat} (master : m < 4) (op : Nat) : (s.withGo m op).window m = (s.window m).withGo op :=
  State.setWindow_window_same s master _

theorem State.writeBar_go {s : State} {m op : Nat} (master : m < 4) (small : op < 256) (idle : (s.window m).busy = false)
    (link : s.host.up.getD (m / 2) false = true) (alone : s.fw.pending = []) :
    s.writeBar (m * 0x1000) (BitVec.ofNat 64 (256 + op)) = (s.withGo m op).nextCommand 4 := by
  have go : (BitVec.ofNat 64 (256 + op)).getLsbD 8 = true := by
    rw [BitVec.getLsbD_ofNat, Nat.testBit_eq_decide_div_mod_eq]
    simp only [Bool.and_eq_true, decide_eq_true_eq]
    omega
  have opcode : (BitVec.ofNat 64 (256 + op)).setWidth 8 = BitVec.ofNat 8 op := by
    apply BitVec.eq_of_toNat_eq
    simp only [BitVec.toNat_setWidth, BitVec.toNat_ofNat]
    omega
  unfold State.writeBar
  rw [show m * 0x1000 / 0x1000 = m by omega, show m * 0x1000 % 0x1000 = 0 by omega]
  simp only [go, opcode]
  rw [if_neg (by simp [idle, link, master])]
  simp [State.setWindow, alone, Window.withGo, State.withGo]

/-- Opcodes in the table of R373 and R374 name a happening. -/
theorem Window.command_withGo (w : Window) (m : Nat) {op : Nat} (known : op ∈ [(1 : Nat), 2, 3, 4, 6, 9, 10, 11, 12, 13]) :
    ∃ h, (w.withGo op).command m = some h := by
  simp only [List.mem_cons, List.not_mem_nil, or_false] at known
  rcases known with rfl | rfl | rfl | rfl | rfl | rfl | rfl | rfl | rfl | rfl <;> exact ⟨_, rfl⟩

theorem registerWrite_arg {s : State} {m n : Nat} (value : Nat) (master : m < 4) (arg : n < 6) (idle : (s.window m).busy = false)
    (link : s.host.up.getD (m / 2) false = true) :
    ∃ u, exec (.registerWrite (2 ^ 48 + m * 0x1000 + 8 + 8 * n) value) s = .next u ∧ s.SameDevice u
      ∧ u.window m = { s.window m with args := (s.window m).args.setIfInBounds n (BitVec.ofNat 64 value) } := by
  have written := State.writeBar_arg master arg idle link (BitVec.ofNat 64 value)
  rw [← State.registerWrite_bar, ← Nat.add_assoc, ← Nat.add_assoc] at written
  exact ⟨_, registerWrite_next written, .refl s, State.setWindow_window_same s master _⟩

theorem registerWrite_go {s : State} {m op : Nat} (master : m < 4) (known : op ∈ [(1 : Nat), 2, 3, 4, 6, 9, 10, 11, 12, 13])
    (idle : (s.window m).busy = false) (link : s.host.up.getD (m / 2) false = true) (alone : s.fw.pending = []) :
    ∃ u, exec (.registerWrite (2 ^ 48 + m * 0x1000) (256 + op)) s = .next u ∧ s.SameDevice u ∧ u.window m = (s.window m).withGo op
      ∧ u.fw.pending = [m] ∧ ∃ h, ((s.window m).withGo op).command m = some h ∧ h ∈ u.agenda := by
  have small : ∀ n ∈ [(1 : Nat), 2, 3, 4, 6, 9, 10, 11, 12, 13], n < 256 := by decide
  obtain ⟨h, runs⟩ := Window.command_withGo (s.window m) m known
  have window := s.withGo_window master op
  have written : s.registerWrite (2 ^ 48 + m * 0x1000) (256 + op) = (s.withGo m op).postOnce h := by
    rw [State.registerWrite_bar, State.writeBar_go master (small op known) idle link alone]
    exact State.nextCommand_posts rfl ((congrArg (·.command m) window).trans runs) 3
  refine ⟨_, registerWrite_next written, State.postOnce_sameDevice _ h, ?_, ?_, h, runs, State.mem_postOnce _ h⟩
  · rw [State.window, State.postOnce_fw]
    exact window
  · rw [State.postOnce_fw]
    rfl

/-- The address of root register n of a cluster's pager lies in the cluster's register block (R23, R301). -/
theorem chipBlock_root {c n : Nat} (cluster : c % 64 < 48) (small : c < 256) (root : n < 16) :
    chipBlock ((2 ^ 37 + c * 2 ^ 29 + 0x40000 + 8 * n) / 8 * 8) = some (.regs (2 ^ 37 + c * 2 ^ 29 + 0x40000 + 8 * n)) := by
  unfold chipBlock
  simp only [show (2 ^ 37 + c * 2 ^ 29 + 0x40000 + 8 * n) / 8 * 8 = 2 ^ 37 + c * 2 ^ 29 + 0x40000 + 8 * n by omega,
    show (2 ^ 37 + c * 2 ^ 29 + 0x40000 + 8 * n) / 2 ^ 37 = 1 by omega]
  rw [if_neg (by omega)]

theorem State.writeReg_root (s : State) {c n : Nat} (small : c < 256) (root : n < 16) (x : Word) :
    s.writeReg (2 ^ 37 + c * 2 ^ 29 + 0x40000 + 8 * n) x = some (s.setPager c ((s.pager c).setRoot n x)) := by
  have off : regOffset (2 ^ 37 + c * 2 ^ 29 + 0x40000 + 8 * n) = 0x40000 + 8 * n := by
    unfold regOffset
    omega
  have cluster : regCluster (2 ^ 37 + c * 2 ^ 29 + 0x40000 + 8 * n) = c := by
    unfold regCluster
    omega
  unfold State.writeReg
  simp only [off, cluster, show (2 ^ 37 + c * 2 ^ 29 + 0x40000 + 8 * n) / 2 ^ 37 = 1 by omega]
  rw [if_neg (by omega), if_neg (by omega), if_neg (by omega), if_pos (by omega), show (0x40000 + 8 * n - 0x40000) / 8 = n by omega]

theorem registerWrite_root {s : State} {c n : Nat} (value : Nat) (small : c < 256) (cluster : c % 64 < 48) (root : n < 16) :
    ∃ u, exec (.registerWrite (2 ^ 37 + c * 2 ^ 29 + 0x40000 + 8 * n) value) s = .next u ∧ s.SameDevice u
      ∧ (u.pager c).roots = (s.pager c).roots.setIfInBounds n (BitVec.ofNat 64 value &&& 0xFFFF0FFFFFFFF001) := by
  have written : s.registerWrite (2 ^ 37 + c * 2 ^ 29 + 0x40000 + 8 * n) value = s.setPager c ((s.pager c).setRoot n (BitVec.ofNat 64 value)) := by
    unfold State.registerWrite barBase
    rw [if_neg (by omega), chipBlock_root cluster small root]
    simp only [State.writeReg_root s small root, Option.getD_some]
  have own : c < 1000 := by omega
  refine ⟨_, registerWrite_next written, ?_, ?_⟩
  · simp only [State.setPager, if_pos own]
    exact .refl s
  · simp only [State.pager, State.setPager, if_pos own, State.setCluster_cluster_same]
    rfl

/-! ## The SPDM responder (R377) -/

namespace Spdm

theorem answer_version (x : Spdm) (ms : List (List Byte)) (tick : Nat) {req : List Byte} (long : 4 ≤ req.length) (asked : code req = 0x84) :
    answer x ms tick req = (versions, ⟨1, req ++ versions, [], []⟩) := by
  unfold answer
  rw [if_neg (by omega), if_pos asked]

/-- Before the algorithms are agreed, whatever needs them is unexpected, and the exchange stays at its level. -/
theorem answer_early {x : Spdm} (ms : List (List Byte)) (tick : Nat) {req : List Byte} (long : 4 ≤ req.length) (ours : req.getD 0 0 = version)
    (asked : code req ∈ [(0x81 : Byte), 0x82, 0x83, 0xE0]) (early : x.level < 3) (one : code req = 0xE0 → param2 req = 1) :
    answer x ms tick req = (unexpectedRequest, { x with meas := [] }) := by
  have late : ¬ 3 ≤ x.level := by omega
  have spoken : req[0]?.getD 0#8 = version := by simpa using ours
  simp only [List.mem_cons, List.not_mem_nil, or_false] at asked
  unfold answer
  rw [if_neg (by omega)]
  rcases asked with asked | asked | asked | asked
  · simp [asked, spoken, late]
  · simp [asked, spoken, late]
  · simp [asked, spoken, late]
  · simp [asked, spoken, late, one asked, chosen, blocks]

theorem answer_certificate {x : Spdm} (ms : List (List Byte)) (tick : Nat) {req : List Byte} (long : 4 ≤ req.length) (ours : req.getD 0 0 = version)
    (asked : code req = 0x82) (first : param1 req = 0) (within : fieldAt req 4 2 ≤ Config.certChain.length) (agreed : 3 ≤ x.level) :
    answer x ms tick req = (certificate req, { x with meas := [], certs := x.certs ++ req ++ certificate req }) := by
  have spoken : req[0]?.getD 0#8 = version := by simpa using ours
  unfold answer
  rw [if_neg (by omega)]
  simp [asked, spoken, first, agreed, Nat.not_lt.2 within]

/-- Measurement 1 without a signature. -/
theorem answer_measurement {x : Spdm} (m : List Byte) (ms : List (List Byte)) (tick : Nat) (agreed : 3 ≤ x.level) :
    answer x (m :: ms) tick [0x12, 0xE0, 0, 1]
      = (measured tick [0x12, 0xE0, 0, 1] [block 1 m], { x with meas := x.meas ++ [0x12, 0xE0, 0, 1] ++ measured tick [0x12, 0xE0, 0, 1] [block 1 m] }) := by
  unfold answer
  simp [code, param1, param2, version, chosen, blocks, agreed]

end Spdm

theorem fieldAt_packed {head : List Byte} {a b : Nat} (len : head.length = 4) (ha : a < 0x10000) (hb : b < 0x10000) :
    fieldAt (head ++ packed 2 [a, b]) 4 2 = a ∧ fieldAt (head ++ packed 2 [a, b]) 6 2 = b := by
  have bytes : packed 2 [a, b] = [BitVec.ofNat 8 a, BitVec.ofNat 8 (a / 256), BitVec.ofNat 8 b, BitVec.ofNat 8 (b / 256)] := rfl
  unfold fieldAt
  rw [bytes, List.drop_append, List.drop_append]
  simp only [len, List.drop_of_length_le (show head.length ≤ 6 by omega), List.drop_of_length_le (show head.length ≤ 4 by omega)]
  show (BitVec.ofNat 8 a).toNat + 256 * ((BitVec.ofNat 8 (a / 256)).toNat + 256 * 0) = a
    ∧ (BitVec.ofNat 8 b).toNat + 256 * ((BitVec.ofNat 8 (b / 256)).toNat + 256 * 0) = b
  simp only [BitVec.toNat_ofNat]
  omega

/-- A request moves the exchange on, and nothing else. -/
theorem spdmRequest_outcome {s : State} {req said : List Byte} {x : Spdm} (answers : Spdm.answer s.fw.exchange s.measurements s.tick req = (said, x)) :
    ∃ u, exec (.spdmRequest req) s = .next u ∧ s.SameDevice u ∧ u.fw.windows = s.fw.windows ∧ u.fw.owner = s.fw.owner ∧ u.agenda = s.agenda
      ∧ u.fw.spdm = said :: s.fw.spdm ∧ u.fw.exchange = x :=
  ⟨_, rfl, .refl s, rfl, rfl, rfl, congrArg (fun (r : List Byte × Spdm) => r.1 :: s.fw.spdm) answers, congrArg Prod.snd answers⟩

theorem certificate_of_packed {off n : Nat} (ho : off < 0x10000) (hn : n < 0x10000) :
    Spdm.certificate ([0x12, 0x82, 0, 0] ++ packed 2 [off, n])
      = [0x12, 0x02, 0, 0] ++ packed 2 [((Config.certChain.drop off).take n).length, Config.certChain.length - off - ((Config.certChain.drop off).take n).length]
          ++ (Config.certChain.drop off).take n := by
  obtain ⟨first, second⟩ := fieldAt_packed (head := [0x12, 0x82, 0, 0]) rfl ho hn
  unfold Spdm.certificate
  rw [first, second]
  rfl

/-- Settles O59: each clause is the outcome of one write, command or request. -/
theorem commandWindowResults : Obligations.CommandWindowResults := by
  unfold Obligations.CommandWindowResults
  intro s m w rest
  refine ⟨fun n value master arg idle link => registerWrite_arg value master arg idle link,
    fun op master known idle link alone => registerWrite_go master known idle link alone,
    fun c n value small cluster root => registerWrite_root value small cluster root,
    claim_outcome, fun n o owned other => claim_owned o owned other, handover_outcome, fun l o named found => ?_, fun o named unknown => ?_,
    queryDevice_outcome, attest_outcome, fun op i listed policy addKey preempt resume o other =>
      State.notOwner_outcome o (exec_notOwner listed policy addKey preempt resume o other), fun req => ?_⟩
  · obtain ⟨u, runs, same, answers⟩ := query_outcome o named (query_some named found)
    refine ⟨u, runs, same, ?_⟩
    cases phase : l.phase <;> rw [phase] at answers <;> exact answers
  · exact query_outcome o named (query_none unknown)
  · obtain ⟨said, x, answers⟩ : ∃ said x, Spdm.answer s.fw.exchange s.measurements s.tick req = (said, x) := ⟨_, _, rfl⟩
    obtain ⟨u, runs, same, windows, owner, agenda, spdm, exchange⟩ := spdmRequest_outcome answers
    refine ⟨u, said, runs, same, windows, owner, agenda, spdm, fun long asked => ?_, fun long ours asked early one => ?_,
      fun off n shape ho hn within agreed => ?_, fun shape agreed => ?_⟩
    · rw [Spdm.answer_version _ _ _ long asked] at answers
      obtain ⟨rfl, rfl⟩ := Prod.mk.inj answers
      exact ⟨rfl, exchange⟩
    · rw [Spdm.answer_early _ _ long ours asked early one] at answers
      obtain ⟨rfl, rfl⟩ := Prod.mk.inj answers
      exact ⟨rfl, by rw [exchange]⟩
    · subst shape
      obtain ⟨first, -⟩ := fieldAt_packed (head := [0x12, 0x82, 0, 0]) rfl ho hn
      rw [Spdm.answer_certificate _ _ (by simp only [List.length_append]; exact Nat.le_add_right 4 _) rfl rfl rfl (Nat.le_trans (Nat.le_of_eq first) within) agreed, certificate_of_packed ho hn] at answers
      obtain ⟨rfl, rfl⟩ := Prod.mk.inj answers
      exact ⟨rfl, exchange⟩
    · subst shape
      unfold State.measurements at answers
      rw [Spdm.answer_measurement _ _ _ agreed] at answers
      obtain ⟨rfl, rfl⟩ := Prod.mk.inj answers
      refine ⟨?_, exchange⟩
      simp [Spdm.measured, Spdm.message, Spdm.param2, Spdm.version, Spdm.block]

end Sys2Proof.Machine
end

section
/-! PROOFS.
What ends a thread's waits, and what the L1s, the L2 and the hotness counters do of themselves: deferred causes and the checker
(R11, R139), replies and time limits (R31, R205, R211), the vector unit (R37, R222, R223), recalls, fills and decays (R164, R167,
R180, R320).
-/

namespace Sys2Proof.Machine

/-! ## Tables and bytes -/

/-- An entry of a table whose every entry has been changed under its key, where the change would leave the default. -/
theorem Tab.get_map {α : Type} {d : α} {g : Nat × α → Nat × α} (key : ∀ y, (g y).1 = y.1) {k : Nat} (unlisted : (g (k, d)).2 = d) :
    ∀ t : Tab α, Tab.get d (t.map g) k = (g (k, Tab.get d t k)).2
  | [] => unlisted.symm
  | (j, a) :: t => by
    rw [List.map_cons, show g (j, a) = (j, (g (j, a)).2) from Prod.ext (key _) rfl]
    simp only [Tab.get]
    split
    · rename_i same
      rw [same]
    · exact Tab.get_map key unlisted t

/-- What a change of every entry keeps of each, it keeps of what the table holds under a key. -/
theorem Tab.get_map_keeps {α β : Type} (p : α → β) {d : α} {g : Nat × α → Nat × α} (key : ∀ y, (g y).1 = y.1) (keeps : ∀ y, p (g y).2 = p y.2)
    (k : Nat) : ∀ t : Tab α, p (Tab.get d (t.map g) k) = p (Tab.get d t k)
  | [] => rfl
  | (j, a) :: t => by
    rw [List.map_cons, show g (j, a) = (j, (g (j, a)).2) from Prod.ext (key _) rfl]
    simp only [Tab.get]
    split
    · exact keeps (j, a)
    · exact Tab.get_map_keeps p key keeps k t

/-- What each step of a fold keeps, the fold keeps. -/
theorem foldl_keeps {α β : Type} {f : State → α → State} (p : State → β) (keeps : ∀ s a, p (f s a) = p s) :
    ∀ (l : List α) (s : State), p (l.foldl f s) = p s
  | [], _ => rfl
  | a :: l, s => (foldl_keeps p keeps l (f s a)).trans (keeps s a)

theorem Memory.readN_eq {m : Memory} : ∀ {bs : List Byte} {a : Nat}, (∀ i < bs.length, m.read (a + i) = bs.getD i 0) → m.readN a bs.length = bs
  | [], _, _ => rfl
  | b :: bs, a, h => by
    have first : m.read a = b := h 0 (Nat.succ_pos _)
    have later : m.readN (a + 1) bs.length = bs := Memory.readN_eq fun i hi => by
      rw [show a + 1 + i = a + (i + 1) by omega]
      exact h (i + 1) (Nat.succ_lt_succ hi)
    rw [List.length_cons, Memory.readN, first, later]

theorem Memory.readN_writeN {m : Memory} (ok : m.wf = true) (a : Nat) (bs : List Byte) : (m.writeN a bs).readN a bs.length = bs :=
  Memory.readN_eq fun i hi => by
    rw [Memory.read_writeN bs a (a + i) m ok, if_pos (by omega), Nat.add_sub_cancel_left]

theorem length_leBytes : ∀ n v, (leBytes n v).length = n
  | 0, _ => rfl
  | n + 1, v => congrArg (· + 1) (length_leBytes n (v / 256))

theorem leNat_leBytes : ∀ n v, leNat (leBytes n v) = v % 256 ^ n
  | 0, v => (Nat.mod_one v).symm
  | n + 1, v => by
    rw [leBytes, leNat, leNat_leBytes n, Nat.pow_succ', Nat.mod_mul]
    exact congrArg (· + _) (BitVec.toNat_ofNat ..)

/-! ## General registers -/

/-- No thread's general registers differ. -/
def State.KeepsRegs (s u : State) : Prop := ∀ j, (u.thread j).regs = (s.thread j).regs

theorem State.KeepsRegs.trans {s t u : State} (h : s.KeepsRegs t) (g : t.KeepsRegs u) : s.KeepsRegs u := fun j => (g j).trans (h j)

theorem State.keepsRegs_of_threads {s u : State} (h : u.threads = s.threads) : s.KeepsRegs u := fun j => by
  rw [State.thread, h]
  rfl

theorem State.setThread_keepsRegs {s : State} {t : Nat} {x : Thread} (h : x.regs = (s.thread t).regs) : s.KeepsRegs (s.setThread t x) := fun j => by
  by_cases e : j = t
  · rw [e, State.setThread_thread_same, h]
  · rw [State.setThread_thread_other _ _ _ e]

theorem State.fireMonitors_keepsRegs (s : State) (who k n : Nat) : s.KeepsRegs (s.fireMonitors who k n) := fun j =>
  Tab.get_map_keeps Thread.regs (fun y => by dsimp only; split <;> rfl) (fun y => by dsimp only; split <;> rfl) j s.threads

theorem State.wake_keepsRegs (s : State) (p : Nat → Wait → Bool) : s.KeepsRegs (s.wake p) := fun j => by
  refine Tab.get_map_keeps Thread.regs (fun y => ?_) (fun y => ?_) j s.threads
  all_goals
    dsimp only
    split
    · split <;> rfl
    · rfl

theorem State.fillCame_keepsRegs (s : State) (key n : Nat) : s.KeepsRegs (s.fillCame key n) := fun j => by
  refine Tab.get_map_keeps Thread.regs (fun y => ?_) (fun y => ?_) j s.threads
  all_goals
    dsimp only
    split
    · split <;> rfl
    · rfl

/-- A thread that nothing has touched is IDLE or in WFW. -/
theorem Thread.atReset_status (t : Nat) : (Thread.atReset t).status = .idle ∨ (Thread.atReset t).status = .wfw := by
  unfold Thread.atReset
  split
  · exact .inr rfl
  · exact .inl rfl

/-- A thread that does not wait is not woken. -/
theorem State.wake_ready {s : State} (p : Nat → Wait → Bool) {t : Nat} (ready : (s.thread t).status = .ready) : (s.wake p).thread t = s.thread t := by
  unfold State.wake State.thread
  rw [Tab.get_map]
  · dsimp only
    rw [show (Tab.get (Thread.atReset t) s.threads t).status = .ready from ready]
  · intro y
    dsimp only
    split
    · split <;> rfl
    · rfl
  · dsimp only
    rcases Thread.atReset_status t with e | e <;> rw [e]

/-! ## Deferred causes and the checker (R11, R139, R332) -/

theorem State.causeEvent_other (s : State) (t : Nat) {c : Cause} (v : Word) (h : c ≠ .residue) : s.causeEvent t c v = s := by
  unfold State.causeEvent
  split
  · exact absurd rfl h
  · rfl

/-- A cause that a thread's handler takes (R332). -/
theorem State.takeCause_handled {s : State} {t : Nat} {c : Cause} (v : Word) (epc parked : Option Word) (ordinary : (s.thread t).callee = none)
    (handled : c.ending = false) (free : (s.thread t).trapm = false) (quiet : c ≠ .residue) :
    s.takeCause t c v epc parked = s.setThread t ((s.thread t).enterTrap c parked (epc.getD (s.thread t).pc) v) := by
  simp only [State.takeCause, State.causeEvent_other s t v quiet, ordinary, handled, free, Bool.false_eq_true, if_false]

/-- The command that a deferred cause came from waits for nothing more (R246). -/
def State.causeGone (s : State) (t : Nat) : Option Nat → State
  | none => s
  | some id =>
    let k := s.core (coreOf t)
    s.setCore (coreOf t) { k with matrix := k.matrix.causeTaken id, copy := k.copy.causeTaken id }

@[simp] theorem State.causeGone_thread (s : State) (t j : Nat) (cmd : Option Nat) : (s.causeGone t cmd).thread j = s.thread j := by
  cases cmd <;> rfl

@[simp] theorem State.causeGone_mem (s : State) (t : Nat) (cmd : Option Nat) : (s.causeGone t cmd).mem = s.mem := by
  cases cmd <;> rfl

@[simp] theorem State.causeGone_tile (s : State) (t c : Nat) (cmd : Option Nat) : ((s.causeGone t cmd).core c).tile = (s.core c).tile := by
  cases cmd with
  | none => rfl
  | some id =>
    by_cases e : c = coreOf t
    · subst e
      simp [State.causeGone]
    · exact congrArg Core.tile (State.setCore_core_other _ _ _ e)

theorem State.deferredTrap_due {s : State} {t : Nat} {d : Deferred} (ready : (s.thread t).status = .ready) (slot : s.slotRemoved t = false)
    (runs : (s.core (coreOf t)).stopped = false) (due : (s.thread t).due = some d) :
    s.deferredTrap t = ((s.setThread t { s.thread t with causes := (s.thread t).causes.erase d }).causeGone t d.cmd).takeCause t d.cause d.tval none
      d.parked := by
  unfold State.deferredTrap
  simp only [due]
  rw [if_neg (by simp [ready, slot, runs])]
  cases d.cmd <;> rfl

theorem exec_deferredTrap (s : State) (t : Nat) : exec (.deferredTrap t) s = .next (s.deferredTrap t) := rfl

theorem deferredTrap_outcome {s : State} {t : Nat} {d : Deferred} {rest : List Deferred} (ready : (s.thread t).status = .ready)
    (slot : s.slotRemoved t = false) (runs : (s.core (coreOf t)).stopped = false) (free : (s.thread t).trapm = false)
    (waiting : (s.thread t).causes = d :: rest) (ordinary : (s.thread t).callee = none) (handled : d.cause.ending = false) (quiet : d.cause ≠ .residue) :
    ∃ u, exec (.deferredTrap t) s = .next u
      ∧ u.thread t = Thread.enterTrap { s.thread t with causes := rest } d.cause d.parked (s.thread t).pc d.tval
      ∧ u.mem = s.mem ∧ (∀ j, j ≠ t → u.thread j = s.thread j) ∧ ∀ c, (u.core c).tile = (s.core c).tile := by
  have due : (s.thread t).due = some d := by simp [Thread.due, waiting, free]
  have erased : (s.thread t).causes.erase d = rest := by simp [waiting]
  have taken := State.deferredTrap_due ready slot runs due
  rw [State.takeCause_handled _ _ _ (by simpa using ordinary) handled (by simpa using free) quiet] at taken
  rw [exec_deferredTrap, taken]
  refine ⟨_, rfl, ?_, by simp, fun j other => ?_, fun c => State.causeGone_tile _ t c d.cmd⟩
  · simp [erased]
  · rw [State.setThread_thread_other _ _ _ other, State.causeGone_thread, State.setThread_thread_other _ _ _ other]

@[simp] theorem State.logicEvent_threads (s : State) (unit kind code : Nat) (addr : Word) : (s.logicEvent unit kind code addr).threads = s.threads := by
  simp [State.logicEvent]

@[simp] theorem State.logicEvent_mem (s : State) (unit kind code : Nat) (addr : Word) : (s.logicEvent unit kind code addr).mem = s.mem := by
  simp [State.logicEvent]

/-- The first mismatch of an instruction that the checker recomputes: an event, and the mark that it issues again. -/
theorem State.mismatch_first {s : State} {t : Nat} {i : Instr} (ready : (s.thread t).status = .ready) (heard : s.silent t = false)
    (first : (s.thread t).reissue = false) (next : s.nextInstr t = some i) (seen : checkerSees i = true) :
    s.mismatch t = ((s.count t 37).logicEvent t 1 0 0).setThread t { s.thread t with reissue := true } := by
  have same : ((s.count t 37).logicEvent t 1 0 0).thread t = s.thread t := by simp [State.thread]
  unfold State.mismatch
  simp only [ready, heard, next, seen, first, ne_eq, not_true_eq_false, Bool.false_eq_true, or_self, if_false, if_true, same]

theorem exec_checkerReissue (s : State) (t : Nat) : exec (.checkerReissue t) s = .next (s.mismatch t) := rfl

theorem checkerReissue_outcome {s : State} {t : Nat} {i : Instr} (ready : (s.thread t).status = .ready) (heard : s.silent t = false)
    (first : (s.thread t).reissue = false) (next : s.nextInstr t = some i) (long : i.size = 4) (major : encodeWord i / 2 ^ 25 % 64 ≤ 7) :
    ∃ u, exec (.checkerReissue t) s = .next u ∧ s.KeepsRegs u ∧ (u.thread t).reissue = true ∧ (u.thread t).pc = (s.thread t).pc ∧ u.mem = s.mem := by
  have seen : checkerSees i = true := by
    unfold checkerSees
    rw [if_pos long]
    exact decide_eq_true major
  rw [exec_checkerReissue, State.mismatch_first ready heard first next seen]
  refine ⟨_, rfl, ?_, ?_, ?_, ?_⟩
  · exact State.KeepsRegs.trans (State.keepsRegs_of_threads (by simp)) (State.setThread_keepsRegs (by simp [State.thread]))
  · rw [State.setThread_thread_same]
  · rw [State.setThread_thread_same]
  · simp

/-! ## Replies, time limits and seals (R31, R174, R205, R211) -/

theorem State.memoryReply_waiting {s : State} {t : Nat} (waits : (s.thread t).status = .wait .memory) :
    s.memoryReply t = s.setThread t { s.thread t with status := .ready, answered := true } := by
  unfold State.memoryReply
  exact if_pos waits

theorem State.ready_waiting {s : State} {t : Nat} {w : Wait} {test : Wait → Bool} (waits : (s.thread t).status = .wait w) (ends : test w = true)
    (limit : Bool) : s.ready t test limit = s.setThread t { s.thread t with status := .ready, expired := (s.thread t).expired || limit } := by
  unfold State.ready
  simp only [waits, ends, if_true]

/-! ## The vector unit (R37, R222, R223) -/

theorem exec_vectorAccept (s : State) (k : Nat) : exec (.vectorAccept k) s = .next (s.vectorAccept k) := rfl
theorem exec_vectorComplete (s : State) (t : Nat) : exec (.vectorComplete t) s = .next (s.vectorComplete t) := rfl

theorem State.acceptFrom_empty {s : State} {k : Nat} (empty : (s.tile k).queue = []) : ∀ n cs, s.acceptFrom k n cs = s
  | 0, cs => by cases cs <;> rfl
  | _ + 1, [] => rfl
  | n + 1, c :: cs => by
    rw [State.acceptFrom, empty]
    exact State.acceptFrom_empty empty (n + 1) cs

/-- Of a queue with one fixed-latency instruction, that one is accepted, at whichever core the scan begins. -/
theorem State.acceptFrom_one {s : State} {k t ev : Nat} (one : (s.tile k).queue = [(t, false, ev)]) (n : Nat) :
    ∀ cs, coreInTile t ∈ cs → s.acceptFrom k (n + 1) cs = s.acceptOne k (t, false, ev)
  | c :: cs, listed => by
    rw [State.acceptFrom, one]
    by_cases here : coreInTile t = c
    · have emptied : ((s.acceptOne k (t, false, ev)).tile k).queue = [] := by simp [State.acceptOne, one]
      simp [here, State.acceptFrom_empty emptied]
    · simpa [here] using State.acceptFrom_one one n cs ((List.mem_cons.1 listed).resolve_left here)

@[simp] theorem State.acceptOne_setTile_same (s : State) (k : Nat) (q : Nat × Bool × Nat) :
    (s.setTile k (s.tile k)).acceptOne k q = s.acceptOne k q := by
  have thread : (s.setTile k (s.tile k)).thread q.1 = s.thread q.1 := rfl
  simp only [State.acceptOne, State.setTile_tile_same, State.setTile_setTile, thread]

theorem mem_rotation (p : Nat) {c : Nat} (hc : c < 4) : c ∈ [p % 4, (p + 1) % 4, (p + 2) % 4, (p + 3) % 4] := by
  simp only [List.mem_cons, List.not_mem_nil, or_false]
  omega

theorem State.vectorAccept_one {s : State} {k t ev : Nat} (waits : (s.thread t).status = .wait .vector) (fresh : (s.thread t).taken = false)
    (one : (s.tile k).queue = [(t, false, ev)]) : s.vectorAccept k = s.acceptOne k (t, false, ev) := by
  have presents : s.presents t = true := by simp [State.presents, waits, fresh]
  have kept : { s.tile k with queue := (s.tile k).queue.filter fun q => s.presents q.1 } = s.tile k := by
    have all : (s.tile k).queue.filter (fun q => s.presents q.1) = (s.tile k).queue := by simp [one, presents]
    rw [all]
  have queue : ((s.setTile k (s.tile k)).tile k).queue = [(t, false, ev)] := by rw [State.setTile_tile_same, one]
  have accepted := State.acceptFrom_one queue 1 _ (mem_rotation ((s.setTile k (s.tile k)).tile k).pointer (Nat.mod_lt (t / 0x80) (by decide)))
  have emptied : ((s.acceptOne k (t, false, ev)).tile k).queue = [] := by simp [State.acceptOne, one]
  unfold State.vectorAccept
  simp only [kept, accepted, State.acceptOne_setTile_same, emptied]
  simp

theorem vectorAccept_outcome {s : State} {t ev : Nat} (waits : (s.thread t).status = .wait .vector) (fresh : (s.thread t).taken = false)
    (one : (s.tile (tileOf t)).queue = [(t, false, ev)]) :
    ∃ u, exec (.vectorAccept (tileOf t)) s = .next u ∧ (u.thread t).status = .ready ∧ (u.thread t).taken = true ∧ s.KeepsRegs u
      ∧ (u.tile (tileOf t)).queue = [] ∧ (u.tile (tileOf t)).pointer = (coreInTile t + 1) % 4 := by
  rw [exec_vectorAccept, State.vectorAccept_one waits fresh one]
  refine ⟨_, rfl, ?_, ?_, ?_, ?_, ?_⟩
  · simp [State.acceptOne]
  · simp [State.acceptOne]
  · exact State.KeepsRegs.trans (State.keepsRegs_of_threads (by simp)) (State.setThread_keepsRegs (by simp [State.thread]))
  · simp [State.acceptOne, one]
  · simp [State.acceptOne]

theorem State.vectorOver_thread {s : State} {t : Nat} (waits : (s.thread t).status = .wait .vector) (taken : (s.thread t).taken = true) :
    (s.vectorOver t).thread t = { s.thread t with finished := true, status := .ready } := by
  unfold State.vectorOver
  simp only [waits, taken, and_self, if_true, State.setThread_thread_same]

@[simp] theorem State.vectorOver_tile (s : State) (t k : Nat) : (s.vectorOver t).tile k = s.tile k := by
  unfold State.vectorOver
  dsimp only
  split <;> rfl

@[simp] theorem State.vectorOver_core (s : State) (t c : Nat) : (s.vectorOver t).core c = s.core c := by
  unfold State.vectorOver
  dsimp only
  split <;> rfl

theorem State.vectorOver_keepsRegs (s : State) (t : Nat) : s.KeepsRegs (s.vectorOver t) := by
  unfold State.vectorOver
  dsimp only
  split
  · exact State.setThread_keepsRegs rfl
  · exact fun j => rfl

theorem vectorComplete_outcome {s : State} {t : Nat} (waits : (s.thread t).status = .wait .vector) (taken : (s.thread t).taken = true)
    (compute : isVent t = false) (piped : (s.tile (tileOf t)).pipe = some t) :
    ∃ u, exec (.vectorComplete t) s = .next u ∧ (u.thread t).status = .ready ∧ (u.thread t).finished = true ∧ s.KeepsRegs u
      ∧ (u.tile (tileOf t)).pipe = none := by
  have thread := State.vectorOver_thread waits taken
  rw [exec_vectorComplete, State.vectorComplete]
  simp only [compute, State.vectorOver_tile, piped, Bool.false_eq_true, if_false, if_true]
  split
  all_goals exact ⟨_, rfl, congrArg Thread.status thread, congrArg Thread.finished thread, s.vectorOver_keepsRegs t,
    congrArg Tile.pipe (State.setTile_tile_same ..)⟩

theorem State.ventVectorComplete_leaves {s : State} {t : Nat} (held : (s.core (coreOf t)).datapath = some t)
    (left : (s.core (coreOf t)).pipe ≠ some t) :
    s.ventVectorComplete t = ((s.setCore (coreOf t) { s.core (coreOf t) with datapath := none }).vectorOver t).wake
      fun u w => coreOf u == coreOf t && w == .vector
        && !(((s.setCore (coreOf t) { s.core (coreOf t) with datapath := none }).vectorOver t).thread u).taken := by
  unfold State.ventVectorComplete
  simp only [held, left, if_true, if_false]

theorem ventVectorComplete_outcome {s : State} {t : Nat} (waits : (s.thread t).status = .wait .vector) (taken : (s.thread t).taken = true)
    (vent : isVent t = true) (held : (s.core (coreOf t)).datapath = some t) (left : (s.core (coreOf t)).pipe ≠ some t) :
    ∃ u, exec (.vectorComplete t) s = .next u ∧ (u.thread t).status = .ready ∧ (u.thread t).finished = true ∧ s.KeepsRegs u
      ∧ (u.core (coreOf t)).datapath = none := by
  have thread := State.vectorOver_thread (s := s.setCore (coreOf t) { s.core (coreOf t) with datapath := none }) waits taken
  rw [exec_vectorComplete, State.vectorComplete, if_pos vent, State.ventVectorComplete_leaves held left]
  refine ⟨_, rfl, ?_, ?_, fun j => (State.wake_keepsRegs _ _ j).trans (State.vectorOver_keepsRegs _ t j), ?_⟩
  · rw [State.wake_ready _ (congrArg Thread.status thread), thread]
  · rw [State.wake_ready _ (congrArg Thread.status thread), thread]
  · exact congrArg Core.datapath ((State.vectorOver_core ..).trans (State.setCore_core_same ..))

/-! ## Recalls (R164, R204) -/

theorem exec_ownershipRecall (s : State) (core a : Nat) : exec (.ownershipRecall core a) s = .next (s.recallAt core (keyOf a)) := rfl

theorem mergeWord_clean (old new : BitVec 32) : mergeWord old new 0 = old := by
  have masked : mergeWord old new 0 = old &&& ~~~ 0#32 ||| new &&& 0#32 := rfl
  rw [masked, BitVec.not_zero, BitVec.and_allOnes, BitVec.and_zero, BitVec.or_zero]

@[simp] theorem State.mergeHome_cores (s : State) (w : Nat) (x : L1Word) : (s.mergeHome w x).cores = s.cores := by
  unfold State.mergeHome
  split <;> rfl

theorem State.mergeHome_keepsRegs (s : State) (w : Nat) (x : L1Word) : s.KeepsRegs (s.mergeHome w x) := by
  unfold State.mergeHome
  split
  · exact fun j => rfl
  · exact State.fireMonitors_keepsRegs s x.writer (4 * w) 4

/-- A write of a whole word at the home, read back. -/
theorem homeWord_written {s : State} (ok : s.mem.wf = true) (w : Nat) (v : BitVec 32) :
    BitVec.ofNat 32 (leNat ((s.mem.writeN (4 * w) (leBytes 4 v.toNat)).readN (4 * w) 4)) = v := by
  have back := Memory.readN_writeN ok (4 * w) (leBytes 4 v.toNat)
  rw [length_leBytes] at back
  rw [back, leNat_leBytes, show 256 ^ 4 = 2 ^ 32 from rfl, Nat.mod_eq_of_lt v.isLt, BitVec.ofNat_toNat, BitVec.setWidth_eq]

theorem State.mergeHome_homeWord {s : State} (ok : s.mem.wf = true) (w : Nat) (x : L1Word) :
    (s.mergeHome w x).homeWord w = mergeWord (s.homeWord w) x.val x.dirty := by
  unfold State.mergeHome
  split
  · rename_i clean
    rw [clean, mergeWord_clean]
  · exact homeWord_written ok w _

theorem State.mergeHome_read {s : State} (ok : s.mem.wf = true) {w b : Nat} (x : L1Word) (other : b / 4 ≠ w) :
    (s.mergeHome w x).mem.read b = s.mem.read b := by
  unfold State.mergeHome
  split
  · rfl
  · exact (Memory.read_writeN _ _ _ _ ok).trans (if_neg (by rw [length_leBytes]; omega))

theorem State.recallAt_held {s : State} {c k : Nat} {y : L1Word} (own : packageOf k = s.package) (held : Tab.find (s.core c).l1 (k / 4) = some y) :
    s.recallAt c k = (s.mergeHome (k / 4) y).setL1 c (k / 4) none := by
  unfold State.recallAt
  rw [if_neg fun other => other own, held]

theorem ownershipRecall_outcome {s : State} {core a : Nat} {y : L1Word} (ok : s.Canonical) (own : packageOf (keyOf a) = s.package)
    (held : Tab.find (s.core core).l1 (keyOf a / 4) = some y) :
    ∃ u, exec (.ownershipRecall core a) s = .next u ∧ s.KeepsRegs u
      ∧ u.homeWord (keyOf a / 4) = mergeWord (s.homeWord (keyOf a / 4)) y.val y.dirty
      ∧ (u.core core).l1 = Tab.drop (s.core core).l1 (keyOf a / 4)
      ∧ (∀ b, b / 4 ≠ keyOf a / 4 → u.mem.read b = s.mem.read b) ∧ ∀ j, (u.core j).tile = (s.core j).tile := by
  have cores : ∀ j, (s.mergeHome (keyOf a / 4) y).core j = s.core j := fun j => by simp [State.core]
  rw [exec_ownershipRecall, State.recallAt_held own held]
  refine ⟨_, rfl, State.mergeHome_keepsRegs s _ y, State.mergeHome_homeWord ok.memory _ y, ?_, fun b other => State.mergeHome_read ok.memory y other,
    fun j => ?_⟩
  · simp [State.setL1, cores]
  · by_cases e : j = core
    · simp [State.setL1, cores, e]
    · rw [State.setL1, State.setCore_core_other _ _ _ e, cores]

/-! ## Hotness (R319, R320) -/

theorem exec_hotnessDecay (s : State) (ctrl : Nat) : exec (.hotnessDecay ctrl) s = .next (s.decay ctrl) := rfl

theorem hotnessDecay_outcome {s : State} {ctrl : Nat} (on : (s.hotctlOf ctrl >>> 16).toNat % 2 ^ 16 ≠ 0) :
    ∃ u, exec (.hotnessDecay ctrl) s = .next u ∧ s.KeepsRegs u ∧ u.mem = s.mem
      ∧ u.hot = s.hot.map fun (e : Nat × BitVec 16) => if controllerOf (e.1 / 8 * 0x10000) = ctrl then (e.1, e.2 >>> 1) else e := by
  rw [exec_hotnessDecay, State.decay, if_neg on]
  exact ⟨_, rfl, fun j => rfl, rfl, rfl⟩

/-! ## Fills of the L2 (R167, R180) -/

theorem exec_l2Fill (s : State) (slice cls a : Nat) : exec (.l2Fill slice cls a) s = .next (s.l2Fill slice cls a) := rfl

theorem grainSize_cases (g : Nat) : grainSize g = 32 ∨ grainSize g = 128 ∨ grainSize g = 512 := by
  unfold grainSize
  split <;> simp

theorem State.grainAt_cases (s : State) (k : Nat) : s.grainAt k = 32 ∨ s.grainAt k = 128 ∨ s.grainAt k = 512 := by
  unfold State.grainAt
  split
  · exact grainSize_cases _
  · exact .inr (.inr rfl)

/-- A fold that sets the bits of a list which a test accepts. -/
theorem foldl_setBits {test : Nat → Bool} {i : Nat} (small : i < 16) : ∀ (l : List Nat) (v : BitVec 16),
    (l.foldl (fun (v : BitVec 16) j => if test j then v ||| 1 <<< j else v) v).getLsbD i = (v.getLsbD i || (l.contains i && test i))
  | [], v => by simp
  | j :: l, v => by
    have bit : ((1#16) <<< j).getLsbD i = decide (i = j) := by
      rw [BitVec.getLsbD_shiftLeft, BitVec.getLsbD_one, Bool.eq_iff_iff]
      simp only [Bool.and_eq_true, Bool.not_eq_true', decide_eq_true_eq, decide_eq_false_iff_not]
      omega
    have one : (if test j then v ||| (1#16) <<< j else v).getLsbD i = (v.getLsbD i || (i == j && test i)) := by
      by_cases e : i = j
      · subst e
        cases test i
        · simp
        · rw [if_pos rfl, BitVec.getLsbD_or, bit]
          simp
      · split
        · rw [BitVec.getLsbD_or, bit]
          simp [e]
        · simp [e]
    rw [List.foldl_cons, foldl_setBits small l, List.contains_cons, Bool.and_or_distrib_right, ← Bool.or_assoc]
    exact congrArg (· || _) one

theorem sectorsIn_getLsbD (line k n : Nat) {i : Nat} (small : i < 16) : (sectorsIn line k n).getLsbD i = overlaps (line + 32 * i) 32 k n := by
  unfold sectorsIn
  rw [foldl_setBits (test := fun i => overlaps (line + 32 * i) 32 k n) small]
  simp [small]

/-- A key of the grain of k lies in the line of k, and its sector among those that the grain's fill brings. -/
theorem sector_of_grain {k line g key m : Nat} (at_line : k / 512 * 512 = line) (grain : g = 32 ∨ g = 128 ∨ g = 512) (at_key : k / g * g = key)
    (low : key ≤ m) (high : m < key + g) : m / 512 * 512 = line ∧ (sectorsIn line key g).getLsbD (sectorOf m) = true := by
  have small : sectorOf m < 16 := by
    unfold sectorOf
    omega
  rw [sectorsIn_getLsbD _ _ _ small]
  unfold overlaps sectorOf
  rw [Bool.and_eq_true, decide_eq_true_iff, decide_eq_true_iff]
  rcases grain with rfl | rfl | rfl <;> omega

theorem State.resident_of_mem {s : State} {l : Line} {m : Nat} (listed : l ∈ s.lines) (line : l.key = m / 512 * 512)
    (sector : l.valid.getLsbD (sectorOf m) = true) : s.resident m = true := by
  unfold State.resident
  rw [List.any_eq_true]
  exact ⟨l, listed, by simp [line, sector]⟩

@[simp] theorem State.transfer_lines (s : State) (cls k : Nat) : (s.transfer cls k).lines = s.lines := by
  unfold State.transfer
  dsimp only
  split
  · rfl
  · split <;> simp

@[simp] theorem State.transfer_mem (s : State) (cls k : Nat) : (s.transfer cls k).mem = s.mem := by
  unfold State.transfer
  dsimp only
  split
  · rfl
  · split <;> simp

@[simp] theorem State.transfer_threads (s : State) (cls k : Nat) : (s.transfer cls k).threads = s.threads := by
  unfold State.transfer
  dsimp only
  split
  · rfl
  · split <;> simp

@[simp] theorem State.countFill_lines (s : State) (cls c key n : Nat) : (s.countFill cls c key n none).lines = s.lines :=
  foldl_keeps State.lines (fun s l => s.transfer_lines cls (64 * l)) (linesOf key n) (s.countIn c 19)

@[simp] theorem State.countFill_mem (s : State) (cls c key n : Nat) : (s.countFill cls c key n none).mem = s.mem :=
  foldl_keeps State.mem (fun s l => s.transfer_mem cls (64 * l)) (linesOf key n) (s.countIn c 19)

@[simp] theorem State.countFill_threads (s : State) (cls c key n : Nat) : (s.countFill cls c key n none).threads = s.threads :=
  foldl_keeps State.threads (fun s l => s.transfer_threads cls (64 * l)) (linesOf key n) (s.countIn c 19)

/-- A thread that waits for a sector which the L2 now holds goes on, and waits for no other reply. -/
theorem State.fillCame_readies {s : State} {key n j m : Nat} (waits : (s.thread j).status = .wait (.fill m)) (low : key ≤ m) (high : m < key + n)
    (held : s.resident m = true) : ((s.fillCame key n).thread j).status = .ready ∧ ((s.fillCame key n).thread j).answered = true := by
  unfold State.fillCame State.thread
  rw [Tab.get_map]
  · dsimp only
    rw [show (Tab.get (Thread.atReset j) s.threads j).status = .wait (.fill m) from waits]
    simp [low, high, held]
  · intro y
    dsimp only
    split
    · split <;> rfl
    · rfl
  · dsimp only
    rcases Thread.atReset_status j with e | e <;> rw [e]

/-- What a fill does for the threads: those that wait for a sector of n bytes at a key go on, and nothing of memory or of the
registers changes. -/
def State.FillReadies (s u : State) (key n : Nat) : Prop :=
  s.KeepsRegs u ∧ u.mem = s.mem ∧ ∀ j m, (s.thread j).status = .wait (.fill m) → key ≤ m → m < key + n →
    (u.thread j).status = .ready ∧ (u.thread j).answered = true

/-- A fill that has put lines into the L2 which hold every sector of its grain. -/
theorem State.fillReadies_of_resident {s : State} {lines : List Line} (cls c : Nat) {key n : Nat}
    (held : ∀ m, key ≤ m → m < key + n → State.resident { s with lines := lines } m = true) :
    s.FillReadies ((State.countFill { s with lines := lines } cls c key n none).fillCame key n) key n := by
  have threads : (State.countFill { s with lines := lines } cls c key n none).threads = s.threads := by simp
  have same : ∀ j, (State.countFill { s with lines := lines } cls c key n none).thread j = s.thread j := fun j => by
    rw [State.thread, threads]
    rfl
  refine ⟨(State.keepsRegs_of_threads threads).trans (State.fillCame_keepsRegs _ key n), State.countFill_mem .., fun j m waits low high => ?_⟩
  refine State.fillCame_readies ((congrArg Thread.status (same j)).trans waits) low high ?_
  have later := held m low high
  unfold State.resident at later ⊢
  rwa [State.countFill_lines]

/-- The L2 home slice of a line, as lines name it, and the set in which it lies there (log 12). -/
def State.l2Slice (s : State) (line : Nat) : Nat := (s.homeSlice line).1 * 8 + (s.homeSlice line).2
def l2Set (line : Nat) : Nat := Config.setOf line % (sliceLines / sliceWays)

/-- No line in the set of a line has a way. -/
def State.FreeWay (s : State) (line w : Nat) : Prop := ∀ l ∈ s.lines, l.slice = s.l2Slice line → l.set = l2Set line → l.way ≠ w

theorem find_freeWay {s : State} {line : Nat} (room : ∃ w < sliceWays, s.FreeWay line w) :
    ∃ w, (List.range sliceWays).find? (fun w => !(s.lines.filter fun l => l.slice == s.l2Slice line && l.set == l2Set line).any fun l => l.way == w)
        = some w ∧ w < sliceWays ∧ s.FreeWay line w := by
  have accepts : ∀ w, (!(s.lines.filter fun l => l.slice == s.l2Slice line && l.set == l2Set line).any fun l => l.way == w) = true
      ↔ s.FreeWay line w := fun w => by
    simp [State.FreeWay]
  obtain ⟨w, below, free⟩ := room
  have some_way : ((List.range sliceWays).find? (fun w =>
      !(s.lines.filter fun l => l.slice == s.l2Slice line && l.set == l2Set line).any fun l => l.way == w)).isSome := by
    rw [List.find?_isSome]
    exact ⟨w, List.mem_range.2 below, (accepts w).2 free⟩
  obtain ⟨v, found⟩ := Option.isSome_iff_exists.1 some_way
  have accepted := List.find?_some found
  exact ⟨v, found, List.mem_range.1 (List.mem_of_find?_eq_some found), (accepts v).1 accepted⟩

/-- Nothing keeps the grain of a key out of the L2, and the sector of the key is not there (R167, R273, R325). -/
structure State.Fillable (s : State) (k key g : Nat) : Prop where
  device : s.hostBias k = false
  unarmed : s.isArmed key g = false
  settled : s.inTransition k = false
  missing : s.resident k = false

theorem State.Fillable.passes {s : State} {k key g : Nat} (f : s.Fillable k key g) :
    ¬ (s.hostBias k || s.isArmed key g || s.inTransition k || s.resident k) = true := by
  simp [f.device, f.unarmed, f.settled, f.missing]

/-- The sectors of the grain of a key come into a free way of the set of its line. -/
theorem l2Fill_new {s : State} (slice cls : Nat) {a k line g key : Nat} (at_k : s.localKey a = k) (at_line : k / 512 * 512 = line)
    (grain : s.grainAt k = g) (at_key : k / g * g = key) (fillable : s.Fillable k key g) (absent : ∀ l ∈ s.lines, l.key ≠ line)
    (room : ∃ w < sliceWays, s.FreeWay line w) :
    ∃ u w, exec (.l2Fill slice cls a) s = .next u ∧ s.FillReadies u key g ∧ w < sliceWays ∧ s.FreeWay line w
      ∧ u.lines = ⟨s.l2Slice line, l2Set line, w, line, sectorsIn line key g⟩ :: s.lines := by
  obtain ⟨w, found, below, free⟩ := find_freeWay room
  have filled : s.l2Fill slice cls a = (State.countFill { s with lines := ⟨s.l2Slice line, l2Set line, w, line, sectorsIn line key g⟩ :: s.lines }
      cls (s.homeSlice line).1 key g none).fillCame key g := by
    unfold State.l2Fill
    simp only [at_k, at_line, grain, at_key]
    rw [if_neg fillable.passes, if_neg (by simpa using absent)]
    unfold State.l2Slice l2Set at found ⊢
    simp only [found]
  rw [exec_l2Fill, filled]
  refine ⟨_, w, rfl, State.fillReadies_of_resident cls _ fun m low high => ?_, below, free, State.countFill_lines ..⟩
  obtain ⟨same, sector⟩ := sector_of_grain at_line (grain ▸ s.grainAt_cases k) at_key low high
  exact State.resident_of_mem (List.mem_cons_self ..) same.symm sector

/-- The sectors of the grain of a key come into the line that the L2 holds of it. -/
theorem l2Fill_line {s : State} (slice cls : Nat) {a k line g key : Nat} (at_k : s.localKey a = k) (at_line : k / 512 * 512 = line)
    (grain : s.grainAt k = g) (at_key : k / g * g = key) (fillable : s.Fillable k key g) (listed : ∃ l ∈ s.lines, l.key = line) :
    ∃ u, exec (.l2Fill slice cls a) s = .next u ∧ s.FillReadies u key g
      ∧ u.lines = s.lines.map fun l => if l.key = line then { l with valid := l.valid ||| sectorsIn line key g } else l := by
  have filled : s.l2Fill slice cls a
      = (State.countFill { s with lines := s.lines.map fun l => if l.key = line then { l with valid := l.valid ||| sectorsIn line key g } else l }
          cls (s.homeSlice line).1 key g none).fillCame key g := by
    unfold State.l2Fill
    simp only [at_k, at_line, grain, at_key]
    rw [if_neg fillable.passes, if_pos (by simpa using listed)]
  rw [exec_l2Fill, filled]
  refine ⟨_, rfl, State.fillReadies_of_resident cls _ fun m low high => ?_, State.countFill_lines ..⟩
  obtain ⟨same, sector⟩ := sector_of_grain at_line (grain ▸ s.grainAt_cases k) at_key low high
  obtain ⟨l, mem, here⟩ := listed
  refine State.resident_of_mem (List.mem_map_of_mem mem) ?_ ?_
  · rw [if_pos here]
    exact here.trans same.symm
  · rw [if_pos here, BitVec.getLsbD_or, sector, Bool.or_true]

/-- Settles O50: each clause is the outcome of one happening. -/
theorem waitsAndStorage : Obligations.WaitsAndStorage := by
  unfold Obligations.WaitsAndStorage
  intro s t x regs readied
  refine ⟨fun d rest ready slot runs free waiting ordinary handled quiet => deferredTrap_outcome ready slot runs free waiting ordinary handled quiet,
    fun i ready heard first next long major => checkerReissue_outcome ready heard first next long major,
    fun waits => congrArg Host.Outcome.next (State.memoryReply_waiting waits),
    fun waits => congrArg Host.Outcome.next (State.ready_waiting waits rfl true),
    fun waits => congrArg Host.Outcome.next (State.ready_waiting waits rfl true),
    fun waits => congrArg Host.Outcome.next (State.ready_waiting waits rfl false),
    fun ev waits fresh one _ => vectorAccept_outcome waits fresh one,
    vectorComplete_outcome, ventVectorComplete_outcome,
    fun core a y ok own held => ownershipRecall_outcome ok own held, ?_, fun ctrl on => hotnessDecay_outcome on⟩
  intro slice cls a k line g key home set free came device unarmed settled missing
  have fillable : s.Fillable k key g := ⟨device, unarmed, settled, missing⟩
  exact ⟨fun absent room => l2Fill_new slice cls rfl rfl rfl rfl fillable absent room,
    fun listed => l2Fill_line slice cls rfl rfl rfl rfl fillable listed⟩

end Sys2Proof.Machine
end
